-- ==== Sys2Proof/Word.lean ====
section
/-!
DEFINITION. The word types of the KW-P4 (spec 00 R5, 02 R24): bytes, 32-bit and 64-bit patterns, and the plainest
conversions between patterns and integers.
-/

namespace Sys2Proof

/-- One byte of memory. -/
abbrev Byte := BitVec 8

/-- A 32-bit pattern: a main-file register, an instruction word. -/
abbrev W32 := BitVec 32

/-- A 64-bit pattern: a pair, a program counter, an MCC scalar. -/
abbrev W64 := BitVec 64

/-- A set of lanes of a course, bit L for lane L (R400). -/
abbrev LaneMask := BitVec 32

/-- Two's complement of `x` at width `w` (R110: arithmetic is on unbounded integers, narrowed at the end). -/
def ofInt (w : Nat) (x : Int) : BitVec w := BitVec.ofInt w x

/-- The bit of a mask as a 1-bit pattern. -/
def bit1 (b : Bool) : BitVec 1 := BitVec.ofBool b

end Sys2Proof
end

