-- ==== Sys2Proof/Syntax.lean ====
section
/-!
DEFINITION. The instructions of the KW-P4 as syntax: one constructor per row of spec/opcode_table.json. The rows with an
encoding are the thread and MCC instructions (02 R51); the rest are the device's events and commands (95), each one
indivisible step, with what its occurrence fixes as parameters.
-/

namespace Sys2Proof

/-! ### Operands -/

/-- An operand of a thread instruction (R36). -/
inductive Opnd where
  | v (n : Fin 240)   -- main file
  | q (n : Fin 16)    -- stream port
  | o (n : Fin 8)     -- operand file
  | l (n : Fin 4)     -- latch
  | b (n : Fin 32)    -- block register
  | c (n : Fin 64)    -- launch constant
  | k (n : Fin 8)     -- long accumulator
  | imm (x : Int)     -- integers -32 to 63
  | fc (n : Fin 31)   -- FP constant table, code 0x1E0 + n
  | lit               -- the trailing literal
  deriving DecidableEq, Repr, Inhabited

/-- An operand of an MCC instruction (R42). -/
inductive MOpnd where
  | x (n : Fin 32)
  | ta (n : Fin 4)
  | tb (n : Fin 4)
  | tc (n : Fin 2)
  | cb (n : Fin 4)
  | sc (n : Fin 2)
  | c (n : Fin 64)
  | imm (x : Int)
  | lit
  deriving DecidableEq, Repr, Inhabited

/-- What every extended thread instruction carries: CHAIN, the guard (PNEG, PRED) and WBS (R33), and the literal (R25). -/
structure Hd where
  chain : Bool
  pneg : Bool
  pred : Fin 8
  wbs : Bool
  lit : Option W64
  deriving DecidableEq, Repr, Inhabited

/-- What a compact word carries beside its operands (R29). -/
structure Ch where
  chain : Bool
  pneg : Bool
  pred : Fin 8
  lit : Option W64
  deriving DecidableEq, Repr, Inhabited

/-! ### Modifiers -/

/-- RND without the stochastic mode (R94). -/
inductive RMode where
  | rn | rz | ru | rd | ra
  deriving DecidableEq, Repr, Inhabited

/-- RND, with the operand that supplies the random bits under sr (R94, R196). -/
inductive Rnd where
  | mode (m : RMode)
  | sr (r : Opnd)
  deriving DecidableEq, Repr, Inhabited

/-- Element formats in FMT order (R92). -/
inductive Fmt where
  | f32 | f16 | bf16 | e4m3 | e5m2 | e3m2 | e2m3 | e2m1 | i8 | i4 | i2 | cb4 | i32 | i16
  deriving DecidableEq, Repr, Inhabited

/-- CMP of ICMP and XCMP (R194, R346). -/
inductive Cmp where
  | eq | ne | lt | le | gt | ge
  deriving DecidableEq, Repr, Inhabited

/-- CMP of FCMP (R199). -/
inductive FCmp where
  | eq | ne | lt | le | gt | ge | un | or
  deriving DecidableEq, Repr, Inhabited

/-- NEG and ABS bits of SRC0 and SRC1 (R196). -/
structure SMod where
  n0 : Bool
  n1 : Bool
  a0 : Bool
  a1 : Bool
  deriving DecidableEq, Repr, Inhabited

/-- RND beside the source modifiers, as FMIN and FMAX carry them (R196). -/
structure RSMod where
  rnd : Rnd
  src : SMod
  deriving DecidableEq, Repr, Inhabited

/-- A source beside RND, as FCLASS carries them (R196). -/
structure RSrc where
  src : Opnd
  rnd : Rnd
  deriving DecidableEq, Repr, Inhabited

/-- What a write over the link carries: its bytes and the poison indication (R452). -/
structure LinkData where
  bytes : List Byte
  bad : Bool
  deriving DecidableEq, Repr, Inhabited

/-- What a peer's atomic carries: the operand and, of a CAS, the comparand (R144). -/
structure AtomicData where
  x : W64
  cmp : Option W64
  deriving DecidableEq, Repr, Inhabited

/-- The line of a poison-mark request, and whether this module is its home or the requester (R461). -/
structure MarkLine where
  home : Bool
  addr : Nat
  deriving DecidableEq, Repr, Inhabited

/-- SIZE (R47). -/
inductive Sz where
  | b8 | b16 | b32 | b64 | b128
  deriving DecidableEq, Repr, Inhabited

/-- ORDER (R47). -/
inductive Ord4 where
  | rlx | acq | rel | ar
  deriving DecidableEq, Repr, Inhabited

/-- SCOPE (R47). -/
inductive Scope where
  | dev | sys | recov
  deriving DecidableEq, Repr, Inhabited

/-- CACHE (R50). -/
inductive Cache where
  | dflt | first | last | bypass | na
  deriving DecidableEq, Repr, Inhabited

/-- SPACE with ROLE (R47, R48): global, own scratchpad, a named role, or each lane's role from SRC2. -/
inductive Target where
  | global
  | own
  | role (n : Fin 127)
  | laneRole (r : Opnd)
  deriving DecidableEq, Repr, Inhabited

/-- The address mode of a memory instruction (R47, R48). -/
structure MemF where
  tgt : Target
  base : Opnd
  offs : BitVec 20
  size : Sz
  order : Ord4
  scope : Scope
  cache : Cache
  deriving DecidableEq, Repr, Inhabited

/-- AOP (R223). -/
inductive AOp where
  | add | min | max | and | or | xor | exch
  deriving DecidableEq, Repr, Inhabited

/-- KIND of FENCE (R226). -/
inductive FKind where
  | acq | rel | ar
  deriving DecidableEq, Repr, Inhabited

/-- OP of XBAR with its operands (R232). -/
inductive XbarOp where
  | init (n : Opnd)
  | arrive (d : Opnd)
  | expect (d : Opnd) (b : Opnd)
  | wait (ph : Opnd)
  | test (pd : Fin 8) (d : Opnd) (ph : Opnd)
  deriving DecidableEq, Repr, Inhabited

/-- CNT of RNG (R242). -/
inductive RCnt where
  | n1 | n2 | n4
  deriving DecidableEq, Repr, Inhabited

/-- MODE of VOTE (R213). -/
inductive VMode where
  | all | any | uni | ballot
  deriving DecidableEq, Repr, Inhabited

/-- MODE of SHFL (R214). -/
inductive ShMode where
  | idx | up | down | xor
  deriving DecidableEq, Repr, Inhabited

/-- Segment width WID (R214, R302). -/
inductive Wid where
  | w32 | w1 | w2 | w4 | w8 | w16
  deriving DecidableEq, Repr, Inhabited

/-- OP of CRED (R216). -/
inductive COp where
  | add | min | max | and | or | xor
  deriving DecidableEq, Repr, Inhabited

/-- OP of PFOP (R207); the fused form carries its third source and N2. -/
inductive POp where
  | add | mul | min | max
  | fma (c : Opnd) (n2 : Bool)
  deriving DecidableEq, Repr, Inhabited

/-- A special register (R412). -/
inductive SReg where
  | lane
  | tid (i : Fin 3)
  | bid (i : Fin 3)
  | launch | role
  | fpflags | fptrap | rngctr
  | send (n : Fin 16)
  | trapcause | trapmask | trappc | trappch
  | trapaux (n : Fin 4)
  | sdcsyn | sdcunit | sdctile
  | rpc | rps | rpa
  | time | clock
  | mrow | mcol | mdone | mseg
  | rq (n : Fin 8) (f : Fin 12)
  deriving DecidableEq, Repr, Inhabited

/-- OP of RQSET with its operand (R415). -/
inductive RqOp where
  | cancel
  | done
  | op (word : Bool) (opn : Fin 3) (a : Opnd)
  | res (word : Fin 4) (a : Opnd)
  deriving DecidableEq, Repr, Inhabited

/-- Target of CALL (R178). -/
inductive CallT where
  | direct (off : BitVec 32)
  | ind (a : Opnd)
  deriving DecidableEq, Repr, Inhabited

/-- FIELD of SCFG (R269). -/
inductive SField where
  | off | ioff | len | fill
  deriving DecidableEq, Repr, Inhabited

/-- MODE of STEST (R268): `.eos`, or `.left` with its SIDE. -/
inductive StMode where
  | eos
  | left (w : Bool)
  deriving DecidableEq, Repr, Inhabited

/-- SEL of ACCRDS and ACCWRS (R301). -/
inductive AccSel where
  | seg (n : Fin 10)
  | flg
  | cnt
  deriving DecidableEq, Repr, Inhabited

/-- MODE of ACCTEST (R303). -/
inductive AtMode where
  | flg (mask : BitVec 6)
  | neg
  | zero
  deriving DecidableEq, Repr, Inhabited

/-- The term of AACC (R308): an element of a format, or an accumulator under KS. -/
inductive AaccT where
  | elem (fmt : Fmt) (a : Opnd)
  | acc (k : Opnd)
  deriving DecidableEq, Repr, Inhabited

/-- SSP and DSP of a copy (R273). -/
inductive CSpace where
  | global | own | role
  deriving DecidableEq, Repr, Inhabited

/-- The shared fields of a copy (R273). -/
structure CpyF where
  cache : Cache
  scope : Scope
  rel : Bool
  shadow : Bool
  stamp : Bool
  xb : Option (BitVec 15)
  ssp : CSpace
  dsp : CSpace
  role : BitVec 7
  long : Bool
  deriving DecidableEq, Repr, Inhabited

/-- What CPYA adds (R280): elements of a format, or whole lines. -/
inductive CpyaT where
  | elem (fmt : Fmt)
  | line
  deriving DecidableEq, Repr, Inhabited

/-- Fusion factor F (R350). -/
inductive Fus where
  | f1 | f2 | f4
  deriving DecidableEq, Repr, Inhabited

/-- The multiply layout with F, SA and SB (R350). -/
structure MulF where
  f : Fus
  sa : Bool
  sb : Bool
  wa : Fmt
  wb : Fmt
  row0 : BitVec 5
  col0 : BitVec 5
  cba : BitVec 2
  cbb : BitVec 2
  kb : BitVec 5
  deriving DecidableEq, Repr, Inhabited

/-- The region layout (R350): first row and column, row and column counts less one. -/
structure Region where
  row0 : BitVec 5
  nrow : BitVec 5
  col0 : BitVec 5
  ncol : BitVec 5
  deriving DecidableEq, Repr, Inhabited

/-- OP of XLOG (R345). -/
inductive XlOp where
  | and | or | xor | andn
  deriving DecidableEq, Repr, Inhabited

/-- OP of XSHF (R345). -/
inductive XsOp where
  | shl | shr | sar | rol
  deriving DecidableEq, Repr, Inhabited

/-- Variants of XMUL (R345, R346): low half, or high half signed or unsigned. -/
inductive XmV where
  | lo
  | hi (u : Bool)
  deriving DecidableEq, Repr, Inhabited

/-- COND of XBR (R347). -/
inductive XCond where
  | z | nz | ltz | gez | lez | gtz
  deriving DecidableEq, Repr, Inhabited

/-- Target of XJMP (R345). -/
inductive XjT where
  | direct (off : BitVec 32)
  | ind (a : MOpnd)
  deriving DecidableEq, Repr, Inhabited

/-- The address of XLD and XST (R348). -/
structure XMem where
  own : Bool
  base : MOpnd
  offs : BitVec 20
  size : Sz
  cache : Cache
  deriving DecidableEq, Repr, Inhabited

/-- The stamp address of XSIG and XWAIT (R349). -/
structure XStamp where
  own : Bool
  base : MOpnd
  offs : BitVec 20
  deriving DecidableEq, Repr, Inhabited

/-- KIND of XSIG (R349). -/
inductive XsigK where
  | signal (a : XStamp) (x : MOpnd)
  | signalEnd (a : XStamp) (x : MOpnd)
  | halt
  deriving DecidableEq, Repr, Inhabited

/-- What TDRAIN writes per cell (R358): an accumulator line, or an element rounded under a mode. -/
inductive DrainT where
  | acc
  | elem (fmt : Fmt) (u : Bool) (rnd : RMode)
  deriving DecidableEq, Repr, Inhabited

/-- Source of TCODE (R353): global memory, the own scratchpad, or library table n. -/
inductive CodeSrc where
  | global (a : MOpnd)
  | own (a : MOpnd)
  | lib (n : MOpnd)
  deriving DecidableEq, Repr, Inhabited

/-- Source of TACC (R357). -/
inductive TaccSrc where
  | tile (t : Fin 2)
  | lines (off : MOpnd) (pitch : MOpnd)
  deriving DecidableEq, Repr, Inhabited

/-- Destination latch of TLD (R351): A latch n, or B latch n. -/
inductive TLatch where
  | ta (n : Fin 4)
  | tb (n : Fin 4)
  deriving DecidableEq, Repr, Inhabited

/-! ### Parameters of events -/

/-- An access of an agent outside the device (R397): the agent's ID, 1 to 4. -/
abbrev AgentId := Nat

/-- What an injected flashing fault changes (R338 to R340): a cell of the array's partial tile, by an amount n * 2^e, or a
checksum of a row or a column. -/
inductive FlashErr where
  | cell (row col : Nat) (n : Int) (e : Int)
  | rowSum (row : Nat)
  | colSum (col : Nat)
  deriving DecidableEq, Repr, Inhabited

/-- Whether a flashing error stays when the engine recomputes (R340). -/
structure FlashFault where
  errs : List FlashErr
  sticky : Bool       -- the recomputation is wrong as well
  unit : BitVec 4     -- the unit of %sdcunit (R341)
  deriving DecidableEq, Repr, Inhabited

/-- Where ERROR_DETECT finds an error (R426, R428). -/
inductive ErrSite where
  | line (pa : Nat)                                    -- L2, HBM: a physical line
  | scratch (core slot line : Nat)                     -- a scratchpad line
  | reg (core slot tl : Nat) (r : Nat)                 -- a v or o register, numbered as the tag array
  | latch (core course : Nat) (l : Nat)                -- a latch
  | acc (core slot tl : Nat) (k : Nat)                 -- an accumulator slot
  | control (die : Nat)                                -- control state not tied to data
  | other                                              -- a unit that holds none of these
  deriving DecidableEq, Repr, Inhabited

/-- An error as a unit detects it (R426, R427). -/
structure ErrInfo where
  unit : BitVec 16     -- UNITID
  uc : Bool
  kind : BitVec 3
  addr : W64
  synd : W64
  site : ErrSite
  deriving DecidableEq, Repr, Inhabited

/-- A bind record as firmware writes it (R379): block, core, slot, role, the image to restore from (0: fresh), and VALID. -/
structure Bind where
  bl : Nat
  core : Nat
  slot : Nat
  role : W32
  gx0 : Nat
  gy0 : Nat
  seq : Nat
  image : Nat
  valid : Bool := true
  deriving DecidableEq, Repr, Inhabited

/-- A firmware image as a start finds it in the module's flash (R480): its bytes, the public keys that its verifier holds, by KEYID, and whether its
ECDSA P-384 signature verifies under the one held for its KEYID. -/
structure FwImage where
  bytes : List Byte
  keys : List (Nat × List Byte)
  sigOk : Bool
  deriving DecidableEq, Repr, Inhabited

/-- What a start meets (R479): the firmware of the security core, of purlin and of the link controller; the first of steps 3 to 8 that the
hardware fails, 0 for none; and the physical cores that fail the scan of step 5, numbered 208 a die. -/
structure StartCheck where
  images : List FwImage
  hwStep : Nat
  scan : List Nat
  deriving DecidableEq, Repr, Inhabited

/-- The instructions, commands and events: one constructor per row of spec/opcode_table.json. -/
inductive Instr where
  -- control and system, R178
  | nopC (h : Ch)
  | nop (h : Hd)
  | braC (h : Ch) (off : BitVec 17)
  | bra (h : Hd) (off : BitVec 32)
  | brx (h : Hd) (a : Opnd)
  | call (h : Hd) (d : Opnd) (t : CallT)
  | retC (h : Ch)
  | ret (h : Hd) (a : Opnd)
  | exitC (h : Ch)
  | exit (h : Hd)
  | reformC (h : Ch)
  | reform (h : Hd)
  | yieldC (h : Ch)
  | yield (h : Hd)
  | barC (h : Ch) (i : Opnd)
  | bar (h : Hd) (i : Opnd) (arv : Bool) (count : BitVec 11)
  | gbar (h : Hd) (arv : Bool)
  | gbarPhaseComplete (part lnum gang : Nat)
  | wait (h : Hd) (a x : Opnd) (sp : Bool) (scope : Scope)
  | stampReevaluate (core slot tl : Nat)
  | trap (h : Hd) (a : Opnd)
  | brk (h : Hd) (code : BitVec 16)
  | rft (h : Hd)
  | rdsr (h : Hd) (d : Opnd) (r : SReg)
  | wrsr (h : Hd) (r : SReg) (a : Opnd)
  | rqset (h : Hd) (op : RqOp) (idx : Fin 8)
  | dlaunch (h : Hd) (d a : Opnd) (queue : BitVec 6)
  -- integer, R190
  | iaddC (h : Ch) (d : Opnd) (s : Opnd)
  | iadd (h : Hd) (d a b : Opnd) (u sat : Bool)
  | isubC (h : Ch) (d : Opnd) (s : Opnd)
  | isub (h : Hd) (d a b : Opnd) (u sat : Bool)
  | imul (h : Hd) (d a b : Opnd) (u sat : Bool)
  | imulh (h : Hd) (d a b : Opnd) (u : Bool)
  | imad (h : Hd) (d a b c : Opnd) (u sat : Bool)
  | imin (h : Hd) (d a b : Opnd) (u : Bool)
  | imax (h : Hd) (d a b : Opnd) (u : Bool)
  | iabs (h : Hd) (d a : Opnd) (sat : Bool)
  | iadd64 (h : Hd) (d a b : Opnd) (u sat : Bool)
  | lea (h : Hd) (d a b : Opnd) (u : Bool) (sh : BitVec 3)
  | andC (h : Ch) (d : Opnd) (s : Opnd)
  | and (h : Hd) (d a b : Opnd) (nb : Bool)
  | orC (h : Ch) (d : Opnd) (s : Opnd)
  | or (h : Hd) (d a b : Opnd) (nb : Bool)
  | xorC (h : Ch) (d : Opnd) (s : Opnd)
  | xor (h : Hd) (d a b : Opnd) (nb : Bool)
  | shlC (h : Ch) (d : Opnd) (s : Opnd)
  | shl (h : Hd) (d a b : Opnd)
  | shrC (h : Ch) (d : Opnd) (s : Opnd)
  | shr (h : Hd) (d a b : Opnd)
  | sar (h : Hd) (d a b : Opnd)
  | shf (h : Hd) (d lo hi s : Opnd) (left : Bool)
  | bfx (h : Hd) (d a pl : Opnd) (u : Bool)
  | bfi (h : Hd) (d a ins pl : Opnd)
  | popc (h : Hd) (d a : Opnd)
  | clz (h : Hd) (d a : Opnd)
  | brev (h : Hd) (d a : Opnd)
  | movC (h : Ch) (d : Opnd) (s : Opnd)
  | mov (h : Hd) (d a : Opnd)
  | movl (h : Hd) (d a : Opnd)
  | sel (h : Hd) (d a b : Opnd) (ps : Fin 8) (psn : Bool)
  | icmp (h : Hd) (pd : Fin 8) (d a b : Opnd) (u : Bool) (cmp : Cmp)
  | idiv (h : Hd) (d a b : Opnd) (u : Bool)
  | irem (h : Hd) (d a b : Opnd) (u : Bool)
  | prmt (h : Hd) (d a b c : Opnd)
  -- floating point, R196
  | faddC (h : Ch) (d : Opnd) (s : Opnd)
  | fadd (h : Hd) (d a b : Opnd) (r : Rnd) (m : SMod)
  | fsub (h : Hd) (d a b : Opnd) (r : Rnd) (m : SMod)
  | fmulC (h : Ch) (d : Opnd) (s : Opnd)
  | fmul (h : Hd) (d a b : Opnd) (r : Rnd) (m : SMod)
  | ffma (h : Hd) (d a b c : Opnd) (r : Rnd) (m : SMod) (n2 : Bool)
  | fmin (h : Hd) (d a b : Opnd) (m : RSMod)
  | fmax (h : Hd) (d a b : Opnd) (m : RSMod)
  | fcmp (h : Hd) (pd : Fin 8) (d a b : Opnd) (cmp : FCmp) (m : SMod)
  | fclass (h : Hd) (d : Opnd) (a : RSrc)
  | fdiv (h : Hd) (d a b : Opnd) (r : Rnd) (m : SMod)
  | fsqrt (h : Hd) (d a : Opnd) (r : Rnd) (n0 a0 : Bool)
  | frcp (h : Hd) (d a : Opnd) (n0 a0 : Bool)
  | frsq (h : Hd) (d a : Opnd) (n0 a0 : Bool)
  | fexp2 (h : Hd) (d a : Opnd) (n0 a0 : Bool)
  | flog2 (h : Hd) (d a : Opnd) (n0 a0 : Bool)
  | fsin (h : Hd) (d a : Opnd) (n0 a0 : Bool)
  | fcos (h : Hd) (d a : Opnd) (n0 a0 : Bool)
  | ftanh (h : Hd) (d a : Opnd) (n0 a0 : Bool)
  | fcvt (h : Hd) (d a : Opnd) (dfmt sfmt : Fmt) (sel : BitVec 3) (r : Rnd)
  | i2f (h : Hd) (d a : Opnd) (dfmt sfmt : Fmt) (sel : BitVec 3) (u : Bool) (r : Rnd)
  | f2i (h : Hd) (d a : Opnd) (dfmt sfmt : Fmt) (sel : BitVec 3) (u : Bool) (r : Rnd)
  | pfop (h : Hd) (d a b : Opnd) (op : POp) (bf : Bool) (r : Rnd) (m : SMod)
  | frnd (h : Hd) (d a : Opnd) (r : Rnd) (n0 a0 : Bool)
  | fscale (h : Hd) (d a n : Opnd) (r : Rnd) (n1 a1 : Bool)
  -- predicate and lane, R210
  | plop (h : Hd) (pd : Fin 8) (pa pb pc : Fin 8) (lut : BitVec 8)
  | pmov (h : Hd) (t : Sum Opnd (Opnd × BitVec 7))
  | vote (h : Hd) (mode : VMode) (pd : Fin 8) (d : Opnd) (ps : Fin 8) (psn : Bool)
  | shfl (h : Hd) (mode : ShMode) (wid : Wid) (pd : Fin 8) (d a b : Opnd)
  | match_ (h : Hd) (all w64 : Bool) (pd : Fin 8) (d a : Opnd)
  | cred (h : Hd) (op : COp) (u : Bool) (d a : Opnd)
  -- memory, R217
  | ld (h : Hd) (d : Opnd) (m : MemF) (sx : Bool)
  | st (h : Hd) (m : MemF) (a : Opnd)
  | ldc (h : Hd) (d : Opnd) (m : MemF) (sx : Bool)
  | atom (h : Hd) (op : AOp) (u : Bool) (d : Opnd) (m : MemF) (a : Opnd)
  | cas (h : Hd) (pd : Fin 8) (d : Opnd) (m : MemF) (cmp new : Opnd)
  | fence (h : Hd) (kind : FKind) (scope : Scope) (ro : Bool)
  | afence (h : Hd)
  | cinv (h : Hd)
  | pref (h : Hd) (m : MemF)
  | qpush (h : Hd) (n a : Opnd) (w64 : Bool)
  | qpop (h : Hd) (pd : Fin 8) (d n : Opnd) (w64 try_ : Bool)
  | queueDeliver (part queue : Nat)
  | rng (h : Hd) (cnt : RCnt) (d : Opnd) (ctr : Option Opnd)
  | probe (h : Hd) (pd : Fin 8) (d : Opnd) (m : MemF)
  | xbar (h : Hd) (op : XbarOp) (base : Opnd) (offs : BitVec 20)
  | xbarWaitProceed (core slot tl : Nat)
  -- stream, R264
  | sopen (h : Hd) (port : Fin 16) (desc off : Opnd) (ioff : Option Opnd) (o64 : Bool)
  | sclose (h : Hd) (port : Fin 16)
  | sskip (h : Hd) (port : Fin 16) (n : Opnd) (w : Bool)
  | spos (h : Hd) (port : Fin 16) (d : Opnd) (w : Bool)
  | stest (h : Hd) (port : Fin 16) (pd : Fin 8) (d : Opnd) (mode : StMode) (clr : Bool)
  | sseek (h : Hd) (port : Fin 16) (pos : Opnd) (w : Bool)
  | scfg (h : Hd) (port : Fin 16) (f : SField) (x : Opnd)
  | streamPrefetch (core slot tl : Nat) (port : Fin 16)
  | streamPushPerform (core slot : Nat) (n : Nat)
  -- accumulator, R296, R308
  | accz (h : Hd) (k : Opnd)
  | accadd (h : Hd) (k a : Opnd) (fa : Fmt) (sel : BitVec 3) (u neg : Bool)
  | accmac (h : Hd) (k a b : Opnd) (fa fb : Fmt) (sel : BitVec 3) (u neg : Bool)
  | accdot (h : Hd) (k a b : Opnd) (fa fb : Fmt) (u neg : Bool)
  | accneg (h : Hd) (kd ks : Opnd)
  | accscl (h : Hd) (kd ks n : Opnd)
  | accmov (h : Hd) (kd ks : Opnd)
  | accnorm (h : Hd) (kd ks : Opnd)
  | accrnd (h : Hd) (d k : Opnd) (dfmt : Fmt) (u : Bool) (r : Rnd)
  | accrds (h : Hd) (d k : Opnd) (sel : AccSel)
  | accwrs (h : Hd) (k a : Opnd) (sel : AccSel)
  | accred (h : Hd) (kd ks : Opnd) (wid : Wid)
  | accld (h : Hd) (k : Opnd) (m : MemF)
  | accst (h : Hd) (m : MemF) (k : Opnd)
  | aacc (h : Hd) (m : MemF) (t : AaccT)
  | amac (h : Hd) (m : MemF) (a b : Opnd) (fmt : Fmt) (neg : Bool)
  | acctest (h : Hd) (mode : AtMode) (pd : Fin 8) (d k : Opnd)
  | accaddk (h : Hd) (kd ks : Opnd) (neg : Bool)
  | aLineEvict (line die : Nat)
  -- copy, R274
  | cpy (h : Hd) (f : CpyF) (s d x : Opnd)
  | cpyg (h : Hd) (f : CpyF) (s d x : Opnd)
  | cpys (h : Hd) (f : CpyF) (s d x : Opnd)
  | cpym (h : Hd) (f : CpyF) (s r x : Opnd)
  | cpya (h : Hd) (f : CpyF) (t : CpyaT) (s d x : Opnd)
  | publish (h : Hd) (b n : Opnd) (x : Option Opnd)
  | cpyq (h : Hd) (d : Opnd) (wt : Bool)
  | cpyx (h : Hd) (f : CpyF) (esz : Fin 4) (s d x : Opnd)
  | copyLineArrival (copy : Nat) (recv : Nat) (line : Nat)
  | presenceWaitResume (core course : Nat)
  | copyStampWrite (copy : Nat)
  | copySlowPath (copy : Nat) (recv : Nat) (line : Nat)
  | publishSwap (copy : Nat)
  -- MCC scalar, R345
  | xadd (lit : Option W64) (d : Fin 32) (a b : MOpnd)
  | xsub (lit : Option W64) (d : Fin 32) (a b : MOpnd)
  | xmul (lit : Option W64) (d : Fin 32) (a b : MOpnd) (v : XmV)
  | xlog (lit : Option W64) (op : XlOp) (d : Fin 32) (a b : MOpnd)
  | xshf (lit : Option W64) (op : XsOp) (d : Fin 32) (a b : MOpnd)
  | xmov (lit : Option W64) (d : Fin 32) (a : MOpnd)
  | xmovl (d : Fin 32) (hi : Bool) (x : BitVec 32)
  | xcmp (lit : Option W64) (cmp : Cmp) (u : Bool) (d : Fin 32) (a b : MOpnd)
  | xbr (lit : Option W64) (cond : XCond) (a : MOpnd) (off : BitVec 32)
  | xloop (x : Fin 32) (off : BitVec 32)
  | xld (lit : Option W64) (d : Fin 32) (m : XMem) (sx : Bool)
  | xst (lit : Option W64) (m : XMem) (a : MOpnd)
  | xjmp (lit : Option W64) (link : Option (Fin 32)) (t : XjT)
  | xsig (lit : Option W64) (k : XsigK)
  | xwait (lit : Option W64) (a : XStamp) (x : MOpnd)
  -- tile, R350
  | tld (lit : Option W64) (t : TLatch) (off pitch : MOpnd) (rowb nrow : BitVec 13)
  | tgath (lit : Option W64) (f : Fus) (t : Fin 4) (off idx pitch : MOpnd) (rowb : BitVec 13)
  | mma (m : MulF) (t : Fin 2) (a b : Fin 4)
  | tmma (m : MulF) (t : Fin 2) (a b : Fin 4)
  | tzero (t : Fin 2) (r : Region)
  | tdrain (lit : Option W64) (t : Fin 2) (off pitch : MOpnd) (d : DrainT) (clr : Bool) (r : Region)
  | tcode (lit : Option W64) (t : Fin 4) (s : CodeSrc)
  | tscale (lit : Option W64) (t : Fin 2) (sp : Bool) (addr pitch : MOpnd)
  | tqnt (lit : Option W64) (t : Fin 2) (off soff pitch : MOpnd) (fmt : Fmt) (rnd : RMode) (clr : Bool) (r : Region)
  | twalk (lit : Option W64) (m : MulF) (t : Fin 2) (d : Fin 32) (desc budget : MOpnd)
  | tresume (lit : Option W64) (m : MulF) (t : Fin 2) (d : Fin 32) (desc budget : MOpnd)
  | tstate (lit : Option W64) (ld : Bool) (off : MOpnd)
  | tchk (d : Fin 32) (clr : Bool)
  | tacc (lit : Option W64) (t : Fin 2) (s : TaccSrc) (r : Region)
  | tsync
  | stagedMultiplyDrain (core : Nat) (fault : Option FlashFault)
  | walkStepStart (core step : Nat)
  | tmmaJoin (core : Nat)
  | tmmaComplete (core : Nat)
  -- recovery and observation instructions, R441, R465
  | rpopen (h : Hd) (d n : Opnd)
  | rpseal (h : Hd) (d n : Opnd)
  | sealReleaseDone (part : Nat)
  | plateSeal (part : Nat)
  | ctrrd (h : Hd) (d : Opnd) (act : Bool) (grp : BitVec 2) (ctr : BitVec 3)
  | pmark (h : Hd) (tag : BitVec 16) (a : Opnd)
  | tsrd (h : Hd) (d : Opnd) (ord : Bool)
  -- What follows until the next such line the machine also raises itself; what stands after that line comes from outside it.
  -- thread-engine events, R162, R163
  | binEmitAge (core bin : Nat)
  | binEmitIdle (core : Nat)
  | binEmitDeferred (core : Nat)
  | courseRefile (core course : Nat)
  -- launch engine, R373 to R397
  | dispatchUnit (part lnum : Nat) (binds : List Bind)
  | snapshotPageCopy (page : Nat)
  | underlayPoolWaitEnd (page : Nat)
  | blockRetire (core slot : Nat)
  | blockRestore (part lnum : Nat) (bind : Bind)
  | watchdog (part lnum : Nat)
  -- supervisor, R398 to R423, R491
  | trapFrameWaitEnd (core course : Nat)
  | supervisorTrapTake (core course : Nat)
  | page (core course : Nat)
  | gutterRecordWaitEnd
  -- errors, containment, recovery, R426 to R447
  | trelvyVote (core voteCore : Nat) (pass : Bool)
  | voteTimeout (core : Nat) (since : Nat)
  | containment (part lnum : Nat) (cause : BitVec 16)
  | suspectHalve
  | quarantineIdle (core : Nat)
  | eaveAccept
  | eaveDrain
  | infieldScan (core : Nat) (pass : Bool)
  | scanAbort (core : Nat)
  | spareRepair (core : Nat)
  -- translation, R417 to R419, R488
  | pageWalk (part : Nat) (va : Nat)
  | tlbinvComplete
  -- link engine, R451 to R462
  | hostHdmWrite (addr : Nat) (data : LinkData)
  | peerWriteRequest (peer : Nat) (addr : Nat) (bytes : List Byte)
  | peerAtomicRequest (peer : Nat) (op : AOp) (u : Bool) (w64 : Bool) (addr : Nat) (data : AtomicData)
  | accumulatorAtomic (peer : Nat) (addr : Nat) (payload : List Byte)
  | ualinkTimeout (req : Nat)
  | poisonMarkRequest (peer : Nat) (line : MarkLine)
  -- observation, R463 to R478
  | counterGroupRotate (part : Nat)
  | pcSample (part core quad : Nat) (reason : Byte)
  | debugHalt (core course : Nat)
  -- ownership, start-up, management, R397, R479 to R490
  | manifestCompareDone
  | throttleRecover (island : Nat)
  -- memory system, R130, R436, R437
  | accessPerformed (n : Nat)
  | lineWriteBack (line : Nat)
  -- From outside the machine.
  -- launch engine, R373 to R397
  | launchDoorbell (agent : AgentId) (part queue : Nat) (addr : Nat)
  | preemptVacate (part lnum : Nat) (requester : Nat) (units : List Nat) (images : List Nat)
  | ownerPreemptCmd (agent : AgentId) (part lnum : Nat) (units : List Nat) (images : List Nat)
  -- supervisor, R398 to R423, R491
  | gqackRetry (seq : W32)
  | gqackFatal (seq : W32)
  | gqhead (agent : AgentId) (expect new : W32)
  | gqbase (agent : AgentId) (addr : W64)
  | gqRingWriteFail
  -- errors, containment, recovery, R426 to R447
  | errorDetect (e : ErrInfo)
  | bankClearRead (agent : AgentId) (unit : BitVec 16)
  | dieReset (die : Nat)
  | dieReturnToService (die : Nat)
  -- translation, R417 to R419, R488
  | tlbinvAll (agent : AgentId) (part : Nat)
  | tlbinvPage (agent : AgentId) (part : Nat) (va : Nat)
  -- link engine, R451 to R462
  | hostHdmRead (addr : Nat) (n : Nat)
  | hostSnoop (line : Nat) (inv : Bool)
  | bisnpResponse (line : Nat)
  | spdmGetVersion
  | spdmGetCapabilities
  | spdmNegotiateAlgorithms
  | spdmGetDigests
  | spdmGetCertificate (slot : Nat)
  | spdmChallenge (slot : Nat)
  | spdmGetMeasurements (index : Nat)
  | spdmKeyExchange
  | spdmFinish
  | spdmEndSession
  | peerReadRequest (peer : Nat) (addr : Nat) (n : Nat)
  | peerResponse (req : Nat) (data : List Byte)
  | topologyUpdate (first : Nat × W64) (rest : List (Nat × W64))
  -- observation, R463 to R478
  | ctrsel (agent : AgentId) (part grp : Nat) (x : W64)
  | shadowRead (agent : AgentId) (name : List Byte) (opnd : BitVec 16) (sel : Byte)
  | dbgattAttach (agent : AgentId) (part lnum : Nat)
  | dbgattDetach (agent : AgentId)
  | debugSave (agent : AgentId) (core slot image : Nat)
  | debugRestore (agent : AgentId) (part lnum : Nat) (bind : Bind)
  | debugResume (agent : AgentId) (binds : List Bind)
  | dbgchk (agent : AgentId) (image : Nat)
  | ptpDiscipline (ppm : Int)
  | timeStep (agent : AgentId) (ns : Nat)
  -- ownership, start-up, management, R397, R479 to R490
  | claim (agent : AgentId) (expect : W32) (newid : BitVec 4)
  | ownerHandover (agent : AgentId) (expect : W32) (newid : BitVec 4)
  | ownerRelease (agent : AgentId) (expect : W32)
  | ownerLinkDrop
  | powerOn (c : StartCheck)
  | coldrst (agent : AgentId) (c : StartCheck)
  | warmrst (agent : AgentId) (c : StartCheck)
  | plateReset (c : StartCheck)
  | verify (agent : AgentId) (part : Nat) (addr : Nat)
  | mancmd (agent : AgentId)
  | powerCapExceed
  | tempExceed (island : Nat) (celsius : Nat)
  | dieOvertemp (die : Nat)
  | plateOvertemp
  | registerWrite (agent : AgentId) (off : Nat) (x : W64)
  -- memory system, R130, R436, R437
  | platePowerLoss
  deriving DecidableEq, Repr

end Sys2Proof
end

