-- ==== Sys2Proof/WellFormed.lean ====
section
/-!
DEFINITION. Well-formed instructions: the operand classes of each position (R36 to R42, R175, R217, R264, R274, R296, R308,
R344, R409, R441, R465), the literal rules (R25, R26) and the conditions on fields that an encoding cannot express.
-/

namespace Sys2Proof

/-! ### Operand classes -/

/-- A class of operand codes a position accepts, and the position's width in bits (R37, R38). A wide v, o, b or c operand
is an aligned pair or quad. `fc` says that the FP table is of the class; at 64 bits R40 then refuses it with a reason of its own. -/
structure Cls where
  w : Nat
  v : Bool := false
  o : Bool := false
  b : Bool := false
  c : Bool := false
  l : Bool := false
  q : Bool := false
  k : Bool := false
  imm : Bool := false
  fc : Bool := false
  lit : Bool := false
  deriving DecidableEq, Repr, Inhabited

/-- 32-bit sources of R175. -/
def Cls.s32 : Cls := ⟨32, true, true, true, true, true, true, false, true, true, true⟩
/-- 64-bit sources of R175. -/
def Cls.s64 : Cls := ⟨64, true, true, true, true, true, true, false, true, true, true⟩
/-- 32-bit destinations of R175. -/
def Cls.d32 : Cls := { w := 32, v := true, o := true, b := true, q := true }
/-- The destination of a compact form: its 8-bit field names a v register or a port (R29, R31). -/
def Cls.dC : Cls := { w := 32, v := true, q := true }
/-- 64-bit destinations of R175. -/
def Cls.d64 : Cls := { w := 64, v := true, o := true, b := true, q := true }
/-- R175's sources without a port. -/
def Cls.noq (c : Cls) : Cls := { c with q := false }
/-- A 32-bit scratchpad base, role, count or offset (R217, R274): no port, no FP table. -/
def Cls.off32 : Cls := { w := 32, v := true, o := true, b := true, c := true, l := true, imm := true, lit := true }
/-- A 64-bit base or address (R217). -/
def Cls.addr64 : Cls := { w := 64, v := true, o := true, b := true, c := true, l := true, imm := true, fc := true, lit := true }
/-- A global address of a copy (R274): a pair or a literal; a 64-bit operand may also be a latch. An FP constant is of no such class (reason 5). -/
def Cls.cpy64 : Cls := { w := 64, v := true, o := true, b := true, c := true, l := true, lit := true }
/-- The width in bits of a SIZE (R47). -/
def Sz.bits : Sz → Nat
  | .b8 => 8 | .b16 => 16 | .b32 => 32 | .b64 => 64 | .b128 => 128
/-- The width in bytes of a SIZE. -/
def Sz.bytes : Sz → Nat
  | .b8 => 1 | .b16 => 2 | .b32 => 4 | .b64 => 8 | .b128 => 16
/-- Destination of LD and LDC (R217). -/
def Cls.ldDst : Sz → Cls
  | .b128 => { w := 128, v := true }
  | .b64 => .d64
  | _ => .d32
/-- Data of ST (R217). -/
def Cls.stSrc : Sz → Cls
  | .b128 => { w := 128, v := true }
  | .b64 => .s64
  | _ => .s32
/-- Destination of ATOM and CAS (R217). -/
def Cls.atDst (s : Sz) : Cls := { w := if s = .b64 then 64 else 32, v := true, o := true }
/-- Operands of ATOM and CAS (R217). -/
def Cls.atSrc (s : Sz) : Cls := if s = .b64 then Cls.s64.noq else Cls.s32.noq
/-- A 32-bit v, o or b destination. -/
def Cls.vob : Cls := { w := 32, v := true, o := true, b := true }
/-- A v or o pair. -/
def Cls.vo64 : Cls := { w := 64, v := true, o := true }
/-- An accumulator field (R296). -/
def Cls.acc : Cls := { w := 640, k := true }

/-- The reason a code is refused in a position: 0 none, 5 class or alignment (R37, R38), 10 an FP constant in a 64-bit
position (R40). -/
def Cls.fault (c : Cls) (x : Opnd) : Nat :=
  let al (n : Nat) : Nat := if (c.w = 64 ∧ n % 2 ≠ 0) ∨ (c.w = 128 ∧ n % 4 ≠ 0) then 5 else 0
  let yes (b : Bool) (r : Nat) : Nat := if b then r else 5
  match x with
  | .v n => yes c.v (al n)
  | .o n => yes c.o (al n)
  | .b n => yes c.b (al n)
  | .c n => yes c.c (al n)
  | .l _ => yes c.l 0
  | .q _ => yes c.q 0
  | .k _ => yes c.k 0
  | .imm _ => yes c.imm 0
  | .fc _ => yes c.fc (if c.w = 64 then 10 else 0)
  | .lit => yes c.lit 0

/-- The position accepts the operand. -/
def Cls.ok (c : Cls) (x : Opnd) : Bool := c.fault x == 0

/-- A class of operands of an MCC position (R344). -/
inductive MCls where
  | xdst | scalar | ta | tb | tc | cb | sc
  deriving DecidableEq, Repr, Inhabited

/-- The MCC position accepts the operand. -/
def MCls.ok (c : MCls) (x : MOpnd) : Bool :=
  match c, x with
  | .xdst, .x _ => true
  | .scalar, .x _ => true
  | .scalar, .c n => n.val % 2 == 0
  | .scalar, .imm _ => true
  | .scalar, .lit => true
  | .ta, .ta _ => true
  | .tb, .tb _ => true
  | .tc, .tc _ => true
  | .cb, .cb _ => true
  | .sc, .sc _ => true
  | _, _ => false

/-! ### The positions of each instruction -/

/-- An operand in its position: the field of a thread instruction, with its class and whether it is DSTX. -/
structure Pos where
  x : Opnd
  cls : Cls
  dst : Bool := false
  deriving DecidableEq, Repr, Inhabited

/-- The random-bits operand of a rounding (R196). -/
def Rnd.pos : Rnd → List Pos
  | .mode _ => []
  | .sr r => [⟨r, .s32, false⟩]

/-- Base and per-lane role of an address (R217). -/
def MemF.pos (m : MemF) : List Pos :=
  match m.tgt with
  | .global => [⟨m.base, .addr64, false⟩]
  | .own => [⟨m.base, .off32, false⟩]
  | .role _ => [⟨m.base, .off32, false⟩]
  | .laneRole r => [⟨m.base, .off32, false⟩, ⟨r, .off32, false⟩]

/-- The class of a copy's address in a space (R274). -/
def CSpace.cls : CSpace → Cls
  | .global => .cpy64
  | _ => .off32

/-- The class of X of a copy (R274). -/
def CpyF.xcls (f : CpyF) : Cls := if f.long then .cpy64 else .off32

/-- The operands of a thread instruction with their classes (the tables of R175 to R216, R217, R232, R236, R242, R264, R274,
R296, R308, R409, R441, R465). MCC instructions and events have none here. -/
def Instr.pos : Instr → List Pos
  | .brx _ a => [⟨a, .s64, false⟩]
  | .call _ d (.direct _) => [⟨d, .vo64, true⟩]
  | .call _ d (.ind a) => [⟨d, .vo64, true⟩, ⟨a, .s64, false⟩]
  | .ret _ a => [⟨a, .s64, false⟩]
  | .retC _ => [⟨.v 0, .s64, false⟩]
  | .barC _ i => [⟨i, .s32, false⟩]
  | .bar _ i _ _ => [⟨i, .s32, false⟩]
  | .wait _ a x sp _ => [⟨a, if sp then .s32 else .s64, false⟩, ⟨x, .s64, false⟩]
  | .trap _ a => [⟨a, .s32, false⟩]
  | .rdsr _ d r => [⟨d, if (match r with | .rngctr | .time | .clock | .mdone => true | _ => false) then .vo64 else .vob, true⟩]
  | .wrsr _ r a => [⟨a, if (match r with | .rngctr => true | _ => false) then Cls.s64.noq else .s32, false⟩]
  | .rqset _ (.op _ _ a) _ => [⟨a, .s32, false⟩]
  | .rqset _ (.res _ a) _ => [⟨a, .s32, false⟩]
  | .dlaunch _ d a _ => [⟨d, .vob, true⟩, ⟨a, .s64, false⟩]
  | .iaddC _ d s | .isubC _ d s | .andC _ d s | .orC _ d s | .xorC _ d s | .shlC _ d s | .shrC _ d s
  | .faddC _ d s | .fmulC _ d s => [⟨d, .dC, true⟩, ⟨s, .s32, false⟩, ⟨d, .s32, false⟩]
  | .movC _ d s => [⟨d, .dC, true⟩, ⟨s, .s32, false⟩]
  | .iadd _ d a b _ _ | .isub _ d a b _ _ | .imul _ d a b _ _ => [⟨d, .d32, true⟩, ⟨a, .s32, false⟩, ⟨b, .s32, false⟩]
  | .imulh _ d a b _ | .imin _ d a b _ | .imax _ d a b _ | .idiv _ d a b _ | .irem _ d a b _ =>
    [⟨d, .d32, true⟩, ⟨a, .s32, false⟩, ⟨b, .s32, false⟩]
  | .imad _ d a b c _ _ => [⟨d, .d32, true⟩, ⟨a, .s32, false⟩, ⟨b, .s32, false⟩, ⟨c, .s32, false⟩]
  | .iabs _ d a _ => [⟨d, .d32, true⟩, ⟨a, .s32, false⟩]
  | .iadd64 _ d a b _ _ => [⟨d, .d64, true⟩, ⟨a, .s64, false⟩, ⟨b, .s64, false⟩]
  | .lea _ d a b _ _ => [⟨d, .d64, true⟩, ⟨a, .s64, false⟩, ⟨b, .s32, false⟩]
  | .and _ d a b _ | .or _ d a b _ | .xor _ d a b _ => [⟨d, .d32, true⟩, ⟨a, .s32, false⟩, ⟨b, .s32, false⟩]
  | .shl _ d a b | .shr _ d a b | .sar _ d a b => [⟨d, .d32, true⟩, ⟨a, .s32, false⟩, ⟨b, .s32, false⟩]
  | .shf _ d lo hi s _ => [⟨d, .d32, true⟩, ⟨lo, .s32, false⟩, ⟨hi, .s32, false⟩, ⟨s, .s32, false⟩]
  | .bfx _ d a pl _ => [⟨d, .d32, true⟩, ⟨a, .s32, false⟩, ⟨pl, .s32, false⟩]
  | .bfi _ d a ins pl => [⟨d, .d32, true⟩, ⟨a, .s32, false⟩, ⟨ins, .s32, false⟩, ⟨pl, .s32, false⟩]
  | .popc _ d a | .clz _ d a | .brev _ d a | .mov _ d a => [⟨d, .d32, true⟩, ⟨a, .s32, false⟩]
  | .movl _ d a => [⟨d, .d64, true⟩, ⟨a, .s64, false⟩]
  | .sel _ d a b _ _ => [⟨d, .d32, true⟩, ⟨a, .s32, false⟩, ⟨b, .s32, false⟩]
  | .icmp _ _ d a b _ _ => [⟨d, .d32, true⟩, ⟨a, .s32, false⟩, ⟨b, .s32, false⟩]
  | .prmt _ d a b c => [⟨d, .d32, true⟩, ⟨a, .s32, false⟩, ⟨b, .s32, false⟩, ⟨c, .s32, false⟩]
  | .fadd _ d a b r _ | .fsub _ d a b r _ | .fmul _ d a b r _ | .fdiv _ d a b r _ | .fmin _ d a b ⟨r, _⟩ | .fmax _ d a b ⟨r, _⟩ =>
    [⟨d, .d32, true⟩, ⟨a, .s32, false⟩, ⟨b, .s32, false⟩] ++ r.pos
  | .ffma _ d a b c r _ _ => [⟨d, .d32, true⟩, ⟨a, .s32, false⟩, ⟨b, .s32, false⟩, ⟨c, .s32, false⟩] ++ r.pos
  | .fcmp _ _ d a b _ _ => [⟨d, .d32, true⟩, ⟨a, .s32, false⟩, ⟨b, .s32, false⟩]
  | .fclass _ d ⟨a, r⟩ => [⟨d, .d32, true⟩, ⟨a, .s32, false⟩] ++ r.pos
  | .fsqrt _ d a r _ _ | .frnd _ d a r _ _ => [⟨d, .d32, true⟩, ⟨a, .s32, false⟩] ++ r.pos
  | .frcp _ d a _ _ | .frsq _ d a _ _ | .fexp2 _ d a _ _ | .flog2 _ d a _ _ | .fsin _ d a _ _ | .fcos _ d a _ _
  | .ftanh _ d a _ _ => [⟨d, .d32, true⟩, ⟨a, .s32, false⟩]
  | .fcvt _ d a _ _ _ r => [⟨d, .d32, true⟩, ⟨a, .s32, false⟩] ++ r.pos
  | .i2f _ d a _ _ _ _ r | .f2i _ d a _ _ _ _ r => [⟨d, .d32, true⟩, ⟨a, .s32, false⟩] ++ r.pos
  | .pfop _ d a b (.fma c _) _ r _ => [⟨d, .d32, true⟩, ⟨a, .s32, false⟩, ⟨b, .s32, false⟩, ⟨c, .s32, false⟩] ++ r.pos
  | .pfop _ d a b _ _ r _ => [⟨d, .d32, true⟩, ⟨a, .s32, false⟩, ⟨b, .s32, false⟩] ++ r.pos
  | .fscale _ d a n r _ _ => [⟨d, .d32, true⟩, ⟨a, .s32, false⟩, ⟨n, .s32, false⟩] ++ r.pos
  | .pmov _ (.inl d) => [⟨d, .d32, true⟩]
  | .pmov _ (.inr (a, _)) => [⟨a, .s32, false⟩]
  | .vote _ _ _ d _ _ => [⟨d, .d32, true⟩]
  | .shfl _ _ _ _ d a b => [⟨d, .d32, true⟩, ⟨a, .s32, false⟩, ⟨b, .s32, false⟩]
  | .match_ _ _ w64 _ d a => [⟨d, .d32, true⟩, ⟨a, if w64 then .s64 else .s32, false⟩]
  | .cred _ _ _ d a => [⟨d, { w := 64, v := true, o := true, b := true }, true⟩, ⟨a, .s32, false⟩]
  | .ld _ d m _ | .ldc _ d m _ => ⟨d, .ldDst m.size, true⟩ :: m.pos
  | .st _ m a => m.pos ++ [⟨a, .stSrc m.size, false⟩]
  | .atom _ _ _ d m a => ⟨d, .atDst m.size, true⟩ :: m.pos ++ [⟨a, .atSrc m.size, false⟩]
  | .cas _ _ d m x y => ⟨d, .atDst m.size, true⟩ :: m.pos ++ [⟨x, .atSrc m.size, false⟩, ⟨y, .atSrc m.size, false⟩]
  | .pref _ m => m.pos
  | .qpush _ n a w => [⟨n, .s32, false⟩, ⟨a, if w then .s64 else .s32, false⟩]
  | .qpop _ _ d n w _ => [⟨d, if w then .d64 else .d32, true⟩, ⟨n, .s32, false⟩]
  | .rng _ .n1 d c => ⟨d, { w := 32, v := true, o := true }, true⟩ :: (c.map fun a => ⟨a, .s64, false⟩).toList
  | .rng _ .n2 d c => ⟨d, .vo64, true⟩ :: (c.map fun a => ⟨a, .s64, false⟩).toList
  | .rng _ .n4 d c => ⟨d, { w := 128, v := true }, true⟩ :: (c.map fun a => ⟨a, .s64, false⟩).toList
  | .probe _ _ d m => ⟨d, .d32, true⟩ :: m.pos
  | .xbar _ (.init n) a _ => [⟨a, .off32, false⟩, ⟨n, .s32, false⟩]
  | .xbar _ (.arrive d) a _ => [⟨d, .d32, true⟩, ⟨a, .off32, false⟩]
  | .xbar _ (.expect d b) a _ => [⟨d, .d32, true⟩, ⟨a, .off32, false⟩, ⟨b, .s32, false⟩]
  | .xbar _ (.wait ph) a _ => [⟨a, .off32, false⟩, ⟨ph, .s32, false⟩]
  | .xbar _ (.test _ d ph) a _ => [⟨d, .d32, true⟩, ⟨a, .off32, false⟩, ⟨ph, .s32, false⟩]
  | .sopen _ _ a off io o64 =>
    let c := if o64 then Cls.s64.noq else Cls.s32.noq
    [⟨a, Cls.s64.noq, false⟩, ⟨off, c, false⟩] ++ (io.map fun x => ⟨x, c, false⟩).toList
  | .sskip _ _ n _ => [⟨n, Cls.s32.noq, false⟩]
  | .spos _ _ d _ => [⟨d, .vo64, true⟩]
  | .stest _ _ _ d _ _ => [⟨d, .vob, true⟩]
  | .sseek _ _ p _ => [⟨p, Cls.s64.noq, false⟩]
  | .scfg _ _ _ x => [⟨x, Cls.s64.noq, false⟩]
  | .accz _ k => [⟨k, .acc, true⟩]
  | .accadd _ k a _ _ _ _ => [⟨k, .acc, true⟩, ⟨a, .s32, false⟩]
  | .accmac _ k a b _ _ _ _ _ => [⟨k, .acc, true⟩, ⟨a, .s32, false⟩, ⟨b, .s32, false⟩]
  | .accdot _ k a b _ _ _ _ => [⟨k, .acc, true⟩, ⟨a, .s32, false⟩, ⟨b, .s32, false⟩]
  | .accneg _ d k | .accmov _ d k | .accnorm _ d k => [⟨d, .acc, true⟩, ⟨k, .acc, false⟩]
  | .accscl _ d k n => [⟨d, .acc, true⟩, ⟨k, .acc, false⟩, ⟨n, .s32, false⟩]
  | .accrnd _ d k _ _ r => [⟨d, .d32, true⟩, ⟨k, .acc, false⟩] ++ r.pos
  | .accrds _ d k _ => [⟨d, .vo64, true⟩, ⟨k, .acc, false⟩]
  | .accwrs _ k a _ => [⟨k, .acc, true⟩, ⟨a, .s64, false⟩]
  | .accred _ d k _ => [⟨d, .acc, true⟩, ⟨k, .acc, false⟩]
  | .accld _ k m => ⟨k, .acc, true⟩ :: m.pos
  | .accst _ m k => m.pos ++ [⟨k, .acc, false⟩]
  | .aacc _ m (.elem _ a) => m.pos ++ [⟨a, .s32, false⟩]
  | .aacc _ m (.acc k) => m.pos ++ [⟨k, .acc, false⟩]
  | .amac _ m a b _ _ => m.pos ++ [⟨a, .s32, false⟩, ⟨b, .s32, false⟩]
  | .acctest h _ _ d k => [⟨d, if h.wbs then .d32 else .vob, true⟩, ⟨k, .acc, false⟩]
  | .accaddk _ d k _ => [⟨d, .acc, true⟩, ⟨k, .acc, false⟩]
  | .cpy _ f s d x | .cpyg _ f s d x | .cpys _ f s d x | .cpya _ f _ s d x | .cpyx _ f _ s d x =>
    [⟨s, f.ssp.cls, false⟩, ⟨d, f.dsp.cls, false⟩, ⟨x, f.xcls, false⟩]
  | .cpym _ f s r x => [⟨s, f.ssp.cls, false⟩, ⟨r, .off32, false⟩, ⟨x, f.xcls, false⟩]
  | .publish _ b n x => [⟨b, .cpy64, false⟩, ⟨n, .cpy64, false⟩] ++
      (x.map fun y => ⟨y, .cpy64, false⟩).toList
  | .cpyq _ d _ => [⟨d, .vob, true⟩]
  | .rpopen _ d n | .rpseal _ d n => [⟨d, .vob, true⟩, ⟨n, Cls.s32.noq, false⟩]
  | .ctrrd _ d _ _ _ => [⟨d, .vo64, true⟩]
  | .pmark _ _ a => [⟨a, Cls.s32.noq, false⟩]
  | .tsrd _ d _ => [⟨d, .vo64, true⟩]
  | _ => []

/-- The scalar and register operands of an MCC instruction with their classes (R344, R345, R350). -/
def Instr.mpos : Instr → List (MOpnd × MCls)
  | .xadd _ _ a b | .xsub _ _ a b | .xmul _ _ a b _ | .xlog _ _ _ a b | .xshf _ _ _ a b | .xcmp _ _ _ _ a b =>
    [(a, .scalar), (b, .scalar)]
  | .xmov _ _ a => [(a, .scalar)]
  | .xbr _ _ a _ => [(a, .scalar)]
  | .xld _ _ m _ => [(m.base, .scalar)]
  | .xst _ m a => [(m.base, .scalar), (a, .scalar)]
  | .xjmp _ _ (.ind a) => [(a, .scalar)]
  | .xsig _ (.signal s x) | .xsig _ (.signalEnd s x) => [(s.base, .scalar), (x, .scalar)]
  | .xwait _ s x => [(s.base, .scalar), (x, .scalar)]
  | .tld _ _ o p _ _ => [(o, .scalar), (p, .scalar)]
  | .tgath _ _ _ o i p _ => [(o, .scalar), (i, .scalar), (p, .scalar)]
  | .tdrain _ _ o p _ _ _ => [(o, .scalar), (p, .scalar)]
  | .tcode _ _ (.global a) | .tcode _ _ (.own a) | .tcode _ _ (.lib a) => [(a, .scalar)]
  | .tscale _ _ _ a p => [(a, .scalar), (p, .scalar)]
  | .tqnt _ _ o s p _ _ _ _ => [(o, .scalar), (s, .scalar), (p, .scalar)]
  | .twalk _ _ _ _ d b | .tresume _ _ _ _ d b => [(d, .scalar), (b, .scalar)]
  | .tstate _ _ o => [(o, .scalar)]
  | .tacc _ _ (.lines o p) _ => [(o, .scalar), (p, .scalar)]
  | _ => []

/-- The header of an extended thread instruction. -/
def Instr.hd : Instr → Option Hd
  | .nop h | .bra h _ | .brx h _ | .call h _ _ | .ret h _ | .exit h | .reform h | .yield h | .bar h _ _ _ | .gbar h _
  | .wait h _ _ _ _ | .trap h _ | .brk h _ | .rft h | .rdsr h _ _ | .wrsr h _ _ | .rqset h _ _ | .dlaunch h _ _ _
  | .iadd h _ _ _ _ _ | .isub h _ _ _ _ _ | .imul h _ _ _ _ _ | .imulh h _ _ _ _ | .imad h _ _ _ _ _ _
  | .imin h _ _ _ _ | .imax h _ _ _ _ | .iabs h _ _ _ | .iadd64 h _ _ _ _ _ | .lea h _ _ _ _ _ | .and h _ _ _ _
  | .or h _ _ _ _ | .xor h _ _ _ _ | .shl h _ _ _ | .shr h _ _ _ | .sar h _ _ _ | .shf h _ _ _ _ _ | .bfx h _ _ _ _
  | .bfi h _ _ _ _ | .popc h _ _ | .clz h _ _ | .brev h _ _ | .mov h _ _ | .movl h _ _ | .sel h _ _ _ _ _
  | .icmp h _ _ _ _ _ _ | .idiv h _ _ _ _ | .irem h _ _ _ _ | .prmt h _ _ _ _
  | .fadd h _ _ _ _ _ | .fsub h _ _ _ _ _ | .fmul h _ _ _ _ _ | .ffma h _ _ _ _ _ _ _ | .fmin h _ _ _ _
  | .fmax h _ _ _ _ | .fcmp h _ _ _ _ _ _ | .fclass h _ _ | .fdiv h _ _ _ _ _ | .fsqrt h _ _ _ _ _ | .frcp h _ _ _ _
  | .frsq h _ _ _ _ | .fexp2 h _ _ _ _ | .flog2 h _ _ _ _ | .fsin h _ _ _ _ | .fcos h _ _ _ _ | .ftanh h _ _ _ _
  | .fcvt h _ _ _ _ _ _ | .i2f h _ _ _ _ _ _ _ | .f2i h _ _ _ _ _ _ _ | .pfop h _ _ _ _ _ _ _ | .frnd h _ _ _ _ _
  | .fscale h _ _ _ _ _ _ | .plop h _ _ _ _ _ | .pmov h _ | .vote h _ _ _ _ _ | .shfl h _ _ _ _ _ _
  | .match_ h _ _ _ _ _ | .cred h _ _ _ _ | .ld h _ _ _ | .st h _ _ | .ldc h _ _ _ | .atom h _ _ _ _ _
  | .cas h _ _ _ _ _ | .fence h _ _ _ | .afence h | .cinv h | .pref h _ | .qpush h _ _ _ | .qpop h _ _ _ _ _
  | .rng h _ _ _ | .probe h _ _ _ | .xbar h _ _ _ | .sopen h _ _ _ _ _ | .sclose h _ | .sskip h _ _ _ | .spos h _ _ _
  | .stest h _ _ _ _ _ | .sseek h _ _ _ | .scfg h _ _ _ | .accz h _ | .accadd h _ _ _ _ _ _ | .accmac h _ _ _ _ _ _ _ _
  | .accdot h _ _ _ _ _ _ _ | .accneg h _ _ | .accscl h _ _ _ | .accmov h _ _ | .accnorm h _ _ | .accrnd h _ _ _ _ _
  | .accrds h _ _ _ | .accwrs h _ _ _ | .accred h _ _ _ | .accld h _ _ | .accst h _ _ | .aacc h _ _ | .amac h _ _ _ _ _
  | .acctest h _ _ _ _ | .accaddk h _ _ _ | .cpy h _ _ _ _ | .cpyg h _ _ _ _ | .cpys h _ _ _ _ | .cpym h _ _ _ _
  | .cpya h _ _ _ _ _ | .publish h _ _ _ | .cpyq h _ _ | .cpyx h _ _ _ _ _ | .rpopen h _ _ | .rpseal h _ _
  | .ctrrd h _ _ _ _ | .pmark h _ _ | .tsrd h _ _ => some h
  | _ => none

/-- The header of a compact instruction. -/
def Instr.ch : Instr → Option Ch
  | .nopC h | .braC h _ | .retC h | .exitC h | .reformC h | .yieldC h | .barC h _ | .iaddC h _ _ | .isubC h _ _
  | .andC h _ _ | .orC h _ _ | .xorC h _ _ | .shlC h _ _ | .shrC h _ _ | .movC h _ _ | .faddC h _ _ | .fmulC h _ _ => some h
  | _ => none

/-- The literal an MCC instruction carries. -/
def Instr.mlit : Instr → Option W64
  | .xadd l _ _ _ | .xsub l _ _ _ | .xmul l _ _ _ _ | .xlog l _ _ _ _ | .xshf l _ _ _ _ | .xmov l _ _ | .xcmp l _ _ _ _ _
  | .xbr l _ _ _ | .xld l _ _ _ | .xst l _ _ | .xjmp l _ _ | .xsig l _ | .xwait l _ _ | .tld l _ _ _ _ _
  | .tgath l _ _ _ _ _ _ | .tdrain l _ _ _ _ _ _ | .tcode l _ _ | .tscale l _ _ _ _ | .tqnt l _ _ _ _ _ _ _ _
  | .twalk l _ _ _ _ _ | .tresume l _ _ _ _ _ | .tstate l _ _ | .tacc l _ _ _ => l
  | _ => none

/-- The opcode is one of the MCC's (R52). NOP is a thread constructor that the MCC also executes. -/
def Instr.isMcc : Instr → Bool
  | .xadd .. | .xsub .. | .xmul .. | .xlog .. | .xshf .. | .xmov .. | .xmovl .. | .xcmp .. | .xbr .. | .xloop .. | .xld ..
  | .xst .. | .xjmp .. | .xsig .. | .xwait .. | .tld .. | .tgath .. | .mma .. | .tmma .. | .tzero .. | .tdrain .. | .tcode ..
  | .tscale .. | .tqnt .. | .twalk .. | .tresume .. | .tstate .. | .tchk .. | .tacc .. | .tsync => true
  | _ => false

/-- The constructor has an encoding: a thread or MCC instruction, not an event. -/
def Instr.encodable (i : Instr) : Bool := i.hd.isSome || i.ch.isSome || i.isMcc

/-- The literal the instruction carries (R25). -/
def Instr.lit (i : Instr) : Option W64 :=
  match i.hd with
  | some h => h.lit
  | none => match i.ch with
    | some c => c.lit
    | none => i.mlit

/-- Bytes the instruction occupies (R24). -/
def Instr.size (i : Instr) : Nat :=
  match i.ch with
  | some c => if c.lit.isSome then 12 else 4
  | none => if i.lit.isSome then 20 else 12

/-- The guard (R43): PRED and PNEG. The MCC has none. -/
def Instr.guard (i : Instr) : Fin 8 × Bool :=
  match i.hd with
  | some h => (h.pred, h.pneg)
  | none => match i.ch with
    | some c => (c.pred, c.pneg)
    | none => (7, false)

/-- CHAIN (R46). -/
def Instr.chain (i : Instr) : Bool :=
  match i.hd with
  | some h => h.chain
  | none => match i.ch with
    | some c => c.chain
    | none => false

/-- WBS (R35). -/
def Instr.wbs (i : Instr) : Bool := match i.hd with | some h => h.wbs | none => false

/-! ### Conditions on fields -/

/-- Bits 63:32 of a literal in a 32-bit position are all zeros or all copies of bit 31 (R26). -/
def litOk32 (x : W64) : Bool :=
  let hi := x.toNat / 2 ^ 32
  hi == 0 || (hi == 2 ^ 32 - 1 && x.toNat / 2 ^ 31 % 2 == 1)

/-- The literal rules of R25 and R26 for a thread instruction's positions. -/
def litFault (lit : Option W64) (ps : List Pos) : Bool :=
  let used := ps.any fun p => p.x == .lit
  match lit with
  | none => used
  | some x => !used || (ps.any fun p => p.x == .lit && p.cls.w == 32) && !litOk32 x

/-- The literal rules for an MCC instruction: its scalar positions are 64 bits wide. -/
def mlitFault (lit : Option W64) (ps : List (MOpnd × MCls)) : Bool :=
  (ps.any fun p => p.1 == .lit) != lit.isSome

/-- An immediate has a code (R36). -/
def Opnd.codeable : Opnd → Bool
  | .imm x => decide (-32 ≤ x ∧ x ≤ 63)
  | _ => true

/-- An MCC immediate has a code (R42). -/
def MOpnd.codeable : MOpnd → Bool
  | .imm j => decide (-32 ≤ j ∧ j ≤ 63)
  | _ => true

/-- Element width in bits (R203). -/
def Fmt.bits : Fmt → Nat
  | .f32 | .i32 => 32
  | .f16 | .bf16 | .i16 => 16
  | .e4m3 | .e5m2 | .i8 => 8
  | .e3m2 | .e2m3 => 6
  | .e2m1 | .i4 | .cb4 => 4
  | .i2 => 2

/-- The format's FMT code (R92). -/
def Fmt.code : Fmt → Nat
  | .f32 => 0 | .f16 => 1 | .bf16 => 2 | .e4m3 => 3 | .e5m2 => 4 | .e3m2 => 5 | .e2m3 => 6 | .e2m1 => 7 | .i8 => 8
  | .i4 => 9 | .i2 => 10 | .cb4 => 11 | .i32 => 12 | .i16 => 13

/-- A floating format (codes 0x0 to 0x7). -/
def Fmt.isFloat (f : Fmt) : Bool := f.code ≤ 7

/-- An integer format. -/
def Fmt.isInt : Fmt → Bool
  | .i8 | .i4 | .i2 | .i32 | .i16 => true
  | _ => false

/-- Elements of a format in 32 bits (R203, R297). -/
def Fmt.per32 (f : Fmt) : Nat := 32 / f.bits

/-- The address fields are legal for every memory instruction (R47 to R49, R217). -/
def MemF.ok (m : MemF) (szs : List Sz) (ords : List Ord4) (scs : List Scope) : Bool :=
  szs.contains m.size && ords.contains m.order && scs.contains m.scope &&
  (m.scope != .recov || m.order == .rel) &&
  (m.tgt == .global || (m.scope == .dev && m.cache == .dflt))

/-- MemF names the global space. -/
def MemF.isGlobal (m : MemF) : Bool := m.tgt == .global

/-- Fusion factor as a number. -/
def Fus.val : Fus → Nat
  | .f1 => 1 | .f2 => 2 | .f4 => 4

/-- Bricks per side of a width code (R318). -/
def Fmt.bricks : Fmt → Nat
  | .f32 => 12 | .f16 => 6 | .bf16 => 4 | .e4m3 => 2 | .e5m2 => 2 | .e3m2 => 2 | .e2m3 => 2 | .e2m1 => 1 | .i8 => 4
  | .i4 => 2 | .i2 => 1 | .cb4 => 4 | .i32 => 0 | .i16 => 0

/-- A block scale is allowed for the width code (R318). -/
def Fmt.scalable : Fmt → Bool
  | .e4m3 | .e5m2 | .e3m2 | .e2m3 | .e2m1 | .i8 | .i4 | .i2 => true
  | _ => false

/-- A width code of a matrix operand: codes 0 to 11 (R318). -/
def Fmt.isWidth (f : Fmt) : Bool := f.code ≤ 11

/-- Products per cell and cycle (R319). -/
def MulF.kt (m : MulF) : Nat := (4 * m.f.val / m.wa.bricks) * (4 * m.f.val / m.wb.bricks)

/-- The K chunk (R319). -/
def MulF.kc (m : MulF) : Nat := 16 * m.kt

/-- Rows of the output tile (R319). -/
def MulF.side (m : MulF) : Nat := 32 / m.f.val

/-- Bytes of the packed A operand (R320). -/
def MulF.abytes (m : MulF) : Nat := (m.side * m.kc * m.wa.bits + 7) / 8

/-- Bytes of the packed B operand (R320). -/
def MulF.bbytes (m : MulF) : Nat := (m.side * m.kc * m.wb.bits + 7) / 8

/-- The checks of R355 on the fields of a multiply. -/
def MulF.ok (m : MulF) : Bool :=
  m.wa.isWidth && m.wb.isWidth && decide (1 ≤ m.kt) && decide (m.abytes ≤ 4096) && decide (m.bbytes ≤ 4096) &&
  m.row0.toNat % m.side == 0 && m.col0.toNat % m.side == 0 &&
  (m.cba.toNat == 0 || m.wa == .cb4) && (m.cbb.toNat == 0 || m.wb == .cb4) &&
  (!m.sa || m.wa.scalable) && (!m.sb || m.wb.scalable) && (m.kb.toNat == 0 || m.sa || m.sb)

/-- A region lies inside the tile (R350). -/
def Region.ok (r : Region) : Bool :=
  decide (r.row0.toNat + r.nrow.toNat + 1 ≤ 32) && decide (r.col0.toNat + r.ncol.toNat + 1 ≤ 32)

/-- The combinations of copy fields that R275 allows for every copy. -/
def CpyF.ok (f : CpyF) : Bool :=
  (f.role.toNat != 127 || f.long) &&
  (f.role.toNat == 0 || f.ssp == .role || f.dsp == .role) &&
  (!f.stamp || f.long) && (!f.shadow || f.dsp == .global)

/-- Formats ACCADD, ACCMAC, ACCDOT, AACC and AMAC accept (R297, R308). -/
def Fmt.accOk (f : Fmt) : Bool := f != .cb4

/-- Conditions on modifier fields and their combinations (each instruction's own rule): where they fail the encoding
raises ILLEGAL with reason 0x0009. -/
def Instr.nineOk : Instr → Bool
  | .bar _ _ _ c => decide (c.toNat ≤ 1024)
  | .reformC h | .yieldC h => h.pred == 7 && !h.pneg
  | .reform h | .yield h | .rft h => h.pred == 7 && !h.pneg
  | .wait _ _ _ sp sc => sc != .recov && (!sp || sc == .dev)
  | .wrsr _ r _ => match r with | .fpflags | .fptrap | .rngctr | .send _ => true | _ => false
  | .rqset _ (.op _ _ _) _ => true
  | .fcvt _ _ _ d s se _ => d.isFloat && s.isFloat && decide (se.toNat < s.per32)
  | .i2f _ _ _ d s se _ _ => d.isFloat && s.isInt && decide (se.toNat < s.per32)
  | .f2i _ _ _ d s se _ _ => d.isInt && s.isFloat && decide (se.toNat < s.per32)
  | .plop _ pd _ _ _ _ => pd != 7
  | .ld _ _ m sx => m.ok [.b8, .b16, .b32, .b64, .b128] [.rlx, .acq] [.dev, .sys] && (!sx || m.size == .b8 || m.size == .b16)
  | .st _ m _ => m.ok [.b8, .b16, .b32, .b64, .b128] [.rlx, .rel] [.dev, .sys, .recov]
  | .ldc _ _ m sx => m.ok [.b8, .b16, .b32, .b64, .b128] [.rlx] [.dev] && m.isGlobal &&
      (!sx || m.size == .b8 || m.size == .b16)
  | .atom _ _ _ _ m _ => m.ok [.b32, .b64] [.rlx, .acq, .rel, .ar] [.dev, .sys, .recov]
  | .cas _ _ _ m _ _ => m.ok [.b32, .b64] [.rlx, .acq, .rel, .ar] [.dev, .sys, .recov] &&
      (match m.tgt with | .laneRole _ => false | _ => true)
  | .pref _ m => m.ok [.b8] [.rlx] [.dev] && m.isGlobal
  | .probe _ _ _ m => m.ok [.b8] [.rlx, .acq] [.dev] && !m.isGlobal
  | .fence _ k sc _ => sc != .recov || k == .rel
  | .qpop _ pd _ _ _ t => pd == 7 || t
  | .stest _ _ _ _ _ _ => true
  | .accadd _ _ _ fa se _ _ => fa.accOk && decide (se.toNat < fa.per32)
  | .accmac _ _ _ _ fa fb se _ _ => fa.accOk && fb.accOk && decide (se.toNat < fa.per32) && decide (se.toNat < fb.per32)
  | .accdot _ _ _ _ fa fb _ _ => fa.accOk && fb.accOk && fa.per32 == fb.per32
  | .accrnd _ _ _ f _ _ => f != .cb4
  | .accld _ _ m => m.ok [.b8] [.rlx, .acq] [.dev, .sys]
  | .accst _ m _ => m.ok [.b8] [.rlx, .rel] [.dev, .sys, .recov]
  | .aacc _ m t => m.ok [.b8] [.rlx] [.dev, .sys] && m.isGlobal && (match t with | .elem f _ => f.accOk | .acc _ => true)
  | .amac _ m _ _ f _ => m.ok [.b8] [.rlx] [.dev, .sys] && m.isGlobal && f.accOk
  | .cpy _ f _ _ _ | .cpyg _ f _ _ _ | .cpys _ f _ _ _ | .cpyx _ f _ _ _ _ => f.ok
  | .cpym _ f _ _ _ => f.ok && f.dsp == .role && f.long && f.role.toNat == 0
  | .cpya _ f t _ _ _ => f.ok && f.dsp == .global &&
      (match t with | .line => true | .elem g => g.code ≤ 4 || g == .i8 || g == .i32 || g == .i16)
  | .mma m _ _ _ | .tmma m _ _ _ => m.ok
  | .xld _ _ m sx => m.size != .b128 && (!sx || m.size == .b8 || m.size == .b16)
  | .xst _ m _ => m.size != .b128
  | .tld _ _ _ _ rb nr => rb.toNat != 0 && nr.toNat != 0 && decide (rb.toNat * nr.toNat ≤ 4096)
  | .tgath _ f _ _ _ _ rb => rb.toNat != 0 && decide (rb.toNat * (32 / f.val) ≤ 4096)
  | .tzero _ r => r.ok
  | .tdrain _ _ _ _ d _ r => r.ok &&
      (match d with | .acc => true | .elem f _ _ => f.code ≤ 4 || f == .i8 || f == .i32 || f == .i16)
  | .tqnt _ _ _ _ _ f _ _ r => r.ok && r.col0.toNat == 0 && r.ncol.toNat == 31 && decide (3 ≤ f.code) && decide (f.code ≤ 10)
  | .twalk _ m _ _ _ _ | .tresume _ m _ _ _ _ => m.ok && m.kb.toNat == 0
  | .tacc _ _ _ r => r.ok
  | _ => true

/-- Conditions whose failure raises ILLEGAL with reason 0x0003 and that a constructor can express: U without an integer
format (R297) or with a floating one (R300, R358), a U that must be 0 (R223), WBS where no destination is defined (R35, R264, R273, R296), ACT with
another counter (R465), a rounding of an integer drain. -/
def Instr.threeOk : Instr → Bool
  | .atom _ op u _ _ _ => !u || op == .min || op == .max
  | .accadd _ _ _ fa _ u _ => !u || fa.isInt
  | .accmac _ _ _ _ fa fb _ u _ => !u || fa.isInt || fb.isInt
  | .accdot _ _ _ _ fa fb u _ => !u || fa.isInt || fb.isInt
  | .accrnd _ _ _ f u _ => !u || !f.isFloat
  | .ctrrd _ _ act _ ctr => !act || ctr.toNat == 0
  | .tdrain _ _ _ _ (.elem f u _) _ _ => !u || !f.isFloat
  | .xjmp _ _ _ => true
  | _ => true

/-- The instruction accepts WBS = 1 (R35): it defines a destination and no rule of its own forbids WBS. -/
def Instr.wbsOk : Instr → Bool
  | .pmov _ (.inl _) => true
  | .xbar _ (.arrive _) _ _ | .xbar _ (.expect _ _) _ _ | .xbar _ (.test _ _ _) _ _ => true
  | .accz .. | .accadd .. | .accmac .. | .accdot .. | .accneg .. | .accscl .. | .accmov .. | .accnorm .. | .accrnd ..
  | .accrds .. | .accwrs .. | .accred .. | .accaddk .. => false
  | i => i.pos.any fun p => p.dst

/-- CHAIN = 1 is legal (R46, R232, R236, R275, R441). -/
def Instr.chainOk : Instr → Bool
  | .braC .. | .bra .. | .brx .. | .call .. | .retC .. | .ret .. | .exitC .. | .exit .. | .reformC .. | .reform ..
  | .yieldC .. | .yield .. | .barC .. | .bar .. | .gbar .. | .wait .. | .trap .. | .brk .. | .rft .. | .rdsr .. | .wrsr ..
  | .rqset .. | .dlaunch .. => false
  | .xbar _ (.wait _) _ _ => false
  | .qpop _ _ _ _ _ t => t
  | .cpyq _ _ wt => !wt
  | .rpopen .. | .rpseal .. => false
  | _ => true

/-- The instruction is well-formed: every operand has a code and is of its position's class, the literal rules hold, and the
field conditions hold. An event is well-formed whatever its parameters. -/
def Instr.wf (i : Instr) : Bool :=
  (i.pos.all fun p => p.x.codeable && p.cls.ok p.x) &&
  (i.mpos.all fun p => p.1.codeable && p.2.ok p.1) &&
  (if i.isMcc then !mlitFault i.mlit i.mpos else if i.encodable then !litFault i.lit i.pos else true) &&
  (i.guard != (7, true)) && (i.chainOk || !i.chain) && (i.wbsOk || !i.wbs) && i.nineOk && i.threeOk

end Sys2Proof
end

