-- ==== Sys2Proof/Decode.lean ====
section
/-!
DEFINITION. The decoder of spec 02, total on any bytes: it answers an instruction or the reason of ILLEGAL (R53); after it
the encoder, written from the same tables, and decodeTableWord.
-/

namespace Sys2Proof

/-! ### Bit fields -/

/-- Bits hi:lo of a number. -/
def fld (n hi lo : Nat) : Nat := n / 2 ^ lo % 2 ^ (hi - lo + 1)

/-- Bit k of a number. -/
def bt (n k : Nat) : Bool := n / 2 ^ k % 2 == 1

/-- A bit as a number. -/
def bn (b : Bool) : Nat := if b then 1 else 0

/-! ### Operand codes (R36, R42) -/

/-- The operand a 9-bit code names; none for a reserved code (R36). -/
def Opnd.ofCode (n : Nat) : Option Opnd :=
  if h : n < 0xF0 then some (.v ⟨n, h⟩)
  else if h : n < 0x100 then some (.q ⟨n - 0xF0, by omega⟩)
  else if h : n < 0x108 then some (.o ⟨n - 0x100, by omega⟩)
  else if h : n < 0x10C then some (.l ⟨n - 0x108, by omega⟩)
  else if n < 0x110 then none
  else if h : n < 0x130 then some (.b ⟨n - 0x110, by omega⟩)
  else if h : n < 0x170 then some (.c ⟨n - 0x130, by omega⟩)
  else if h : n < 0x178 then some (.k ⟨n - 0x170, by omega⟩)
  else if n < 0x180 then none
  else if n < 0x1C0 then some (.imm (n - 0x180))
  else if n < 0x1E0 then some (.imm (n - 0x1E0))
  else if h : n < 0x1FF then some (.fc ⟨n - 0x1E0, by omega⟩)
  else some .lit

/-- The code of an operand (R36). -/
def Opnd.code : Opnd → Nat
  | .v n => n.val
  | .q n => 0xF0 + n.val
  | .o n => 0x100 + n.val
  | .l n => 0x108 + n.val
  | .b n => 0x110 + n.val
  | .c n => 0x130 + n.val
  | .k n => 0x170 + n.val
  | .imm x => if 0 ≤ x then 0x180 + x.toNat else (0x1E0 + x).toNat
  | .fc n => 0x1E0 + n.val
  | .lit => 0x1FF

/-- The operand of a code; a reserved code, refused elsewhere, stands as an immediate. -/
def Opnd.dec (n : Nat) : Opnd := (Opnd.ofCode n).getD (.imm 0)

/-- The operand an MCC code names; none for a code R42 does not list. -/
def MOpnd.ofCode (n : Nat) : Option MOpnd :=
  if h : n < 0x20 then some (.x ⟨n, h⟩)
  else if h : n < 0x24 then some (.ta ⟨n - 0x20, by omega⟩)
  else if h : n < 0x28 then some (.tb ⟨n - 0x24, by omega⟩)
  else if h : n < 0x2A then some (.tc ⟨n - 0x28, by omega⟩)
  else if h : n < 0x2E then some (.cb ⟨n - 0x2A, by omega⟩)
  else if h : n < 0x30 then some (.sc ⟨n - 0x2E, by omega⟩)
  else if n < 0x130 then none
  else if h : n < 0x170 then some (.c ⟨n - 0x130, by omega⟩)
  else if n < 0x180 then none
  else if n < 0x1C0 then some (.imm (n - 0x180))
  else if n < 0x1E0 then some (.imm (n - 0x1E0))
  else if n < 0x1FF then none
  else some .lit

/-- The code of an MCC operand (R42). -/
def MOpnd.code : MOpnd → Nat
  | .x n => n.val
  | .ta n => 0x20 + n.val
  | .tb n => 0x24 + n.val
  | .tc n => 0x28 + n.val
  | .cb n => 0x2A + n.val
  | .sc n => 0x2E + n.val
  | .c n => 0x130 + n.val
  | .imm j => if 0 ≤ j then 0x180 + j.toNat else (0x1E0 + j).toNat
  | .lit => 0x1FF

/-- The MCC operand of a code; an unlisted code stands as tb0, which no scalar position accepts. -/
def MOpnd.dec (n : Nat) : MOpnd := (MOpnd.ofCode n).getD (.tb 0)

/-! ### Field values -/

def RMode.ofCode : Nat → Option RMode
  | 0 => some .rn | 1 => some .rz | 2 => some .ru | 3 => some .rd | 4 => some .ra | _ => none
def RMode.code : RMode → Nat
  | .rn => 0 | .rz => 1 | .ru => 2 | .rd => 3 | .ra => 4
def Fmt.ofCode : Nat → Option Fmt
  | 0 => some .f32 | 1 => some .f16 | 2 => some .bf16 | 3 => some .e4m3 | 4 => some .e5m2 | 5 => some .e3m2
  | 6 => some .e2m3 | 7 => some .e2m1 | 8 => some .i8 | 9 => some .i4 | 10 => some .i2 | 11 => some .cb4
  | 12 => some .i32 | 13 => some .i16 | _ => none
def Cmp.ofCode : Nat → Option Cmp
  | 0 => some .eq | 1 => some .ne | 2 => some .lt | 3 => some .le | 4 => some .gt | 5 => some .ge | _ => none
def Cmp.code : Cmp → Nat
  | .eq => 0 | .ne => 1 | .lt => 2 | .le => 3 | .gt => 4 | .ge => 5
def FCmp.ofCode : Nat → FCmp
  | 0 => .eq | 1 => .ne | 2 => .lt | 3 => .le | 4 => .gt | 5 => .ge | 6 => .un | _ => .or
def FCmp.code : FCmp → Nat
  | .eq => 0 | .ne => 1 | .lt => 2 | .le => 3 | .gt => 4 | .ge => 5 | .un => 6 | .or => 7
def Sz.ofCode : Nat → Option Sz
  | 0 => some .b8 | 1 => some .b16 | 2 => some .b32 | 3 => some .b64 | 4 => some .b128 | _ => none
def Sz.code : Sz → Nat
  | .b8 => 0 | .b16 => 1 | .b32 => 2 | .b64 => 3 | .b128 => 4
def Ord4.ofCode : Nat → Ord4
  | 0 => .rlx | 1 => .acq | 2 => .rel | _ => .ar
def Ord4.code : Ord4 → Nat
  | .rlx => 0 | .acq => 1 | .rel => 2 | .ar => 3
def Scope.ofCode : Nat → Option Scope
  | 0 => some .dev | 1 => some .sys | 2 => some .recov | _ => none
def Scope.code : Scope → Nat
  | .dev => 0 | .sys => 1 | .recov => 2
def Cache.ofCode : Nat → Option Cache
  | 0 => some .dflt | 1 => some .first | 2 => some .last | 3 => some .bypass | 4 => some .na | _ => none
def Cache.code : Cache → Nat
  | .dflt => 0 | .first => 1 | .last => 2 | .bypass => 3 | .na => 4
def AOp.ofCode : Nat → Option AOp
  | 0 => some .add | 1 => some .min | 2 => some .max | 3 => some .and | 4 => some .or | 5 => some .xor | 6 => some .exch
  | _ => none
def AOp.code : AOp → Nat
  | .add => 0 | .min => 1 | .max => 2 | .and => 3 | .or => 4 | .xor => 5 | .exch => 6
def FKind.ofCode : Nat → Option FKind
  | 1 => some .acq | 2 => some .rel | 3 => some .ar | _ => none
def FKind.code : FKind → Nat
  | .acq => 1 | .rel => 2 | .ar => 3
def RCnt.ofCode : Nat → Option RCnt
  | 0 => some .n1 | 1 => some .n2 | 2 => some .n4 | _ => none
def RCnt.code : RCnt → Nat
  | .n1 => 0 | .n2 => 1 | .n4 => 2
def VMode.ofCode : Nat → VMode
  | 0 => .all | 1 => .any | 2 => .uni | _ => .ballot
def VMode.code : VMode → Nat
  | .all => 0 | .any => 1 | .uni => 2 | .ballot => 3
def ShMode.ofCode : Nat → ShMode
  | 0 => .idx | 1 => .up | 2 => .down | _ => .xor
def ShMode.code : ShMode → Nat
  | .idx => 0 | .up => 1 | .down => 2 | .xor => 3
def Wid.ofCode : Nat → Option Wid
  | 0 => some .w32 | 1 => some .w1 | 2 => some .w2 | 3 => some .w4 | 4 => some .w8 | 5 => some .w16 | _ => none
def Wid.code : Wid → Nat
  | .w32 => 0 | .w1 => 1 | .w2 => 2 | .w4 => 3 | .w8 => 4 | .w16 => 5
def COp.ofCode : Nat → Option COp
  | 0 => some .add | 1 => some .min | 2 => some .max | 3 => some .and | 4 => some .or | 5 => some .xor | _ => none
def COp.code : COp → Nat
  | .add => 0 | .min => 1 | .max => 2 | .and => 3 | .or => 4 | .xor => 5
def SField.ofCode : Nat → SField
  | 0 => .off | 1 => .ioff | 2 => .len | _ => .fill
def SField.code : SField → Nat
  | .off => 0 | .ioff => 1 | .len => 2 | .fill => 3
def CSpace.ofCode : Nat → Option CSpace
  | 0 => some .global | 1 => some .own | 2 => some .role | _ => none
def CSpace.code : CSpace → Nat
  | .global => 0 | .own => 1 | .role => 2
def Fus.ofCode : Nat → Option Fus
  | 0 => some .f1 | 1 => some .f2 | 2 => some .f4 | _ => none
def Fus.code : Fus → Nat
  | .f1 => 0 | .f2 => 1 | .f4 => 2
def XlOp.ofCode : Nat → XlOp
  | 0 => .and | 1 => .or | 2 => .xor | _ => .andn
def XlOp.code : XlOp → Nat
  | .and => 0 | .or => 1 | .xor => 2 | .andn => 3
def XsOp.ofCode : Nat → XsOp
  | 0 => .shl | 1 => .shr | 2 => .sar | _ => .rol
def XsOp.code : XsOp → Nat
  | .shl => 0 | .shr => 1 | .sar => 2 | .rol => 3
def XCond.ofCode : Nat → Option XCond
  | 0 => some .z | 1 => some .nz | 2 => some .ltz | 3 => some .gez | 4 => some .lez | 5 => some .gtz | _ => none
def XCond.code : XCond → Nat
  | .z => 0 | .nz => 1 | .ltz => 2 | .gez => 3 | .lez => 4 | .gtz => 5

/-- The special register of an SREG number; none if reserved (R412). -/
def SReg.ofCode (n : Nat) : Option SReg :=
  if n = 0 then some .lane
  else if h : n < 4 then some (.tid ⟨n - 1, by omega⟩)
  else if h : n < 7 then some (.bid ⟨n - 4, by omega⟩)
  else if n = 7 then some .launch
  else if n = 8 then some .role
  else if n = 0x10 then some .fpflags
  else if n = 0x11 then some .fptrap
  else if n = 0x12 then some .rngctr
  else if n < 0x20 then none
  else if h : n < 0x30 then some (.send ⟨n - 0x20, by omega⟩)
  else if n = 0x30 then some .trapcause
  else if n = 0x31 then some .trapmask
  else if n = 0x32 then some .trappc
  else if n = 0x33 then some .trappch
  else if h : n < 0x38 then some (.trapaux ⟨n - 0x34, by omega⟩)
  else if n = 0x40 then some .sdcsyn
  else if n = 0x41 then some .sdcunit
  else if n = 0x42 then some .sdctile
  else if n = 0x50 then some .rpc
  else if n = 0x51 then some .rps
  else if n = 0x52 then some .rpa
  else if n = 0x60 then some .time
  else if n = 0x61 then some .clock
  else if n = 0x70 then some .mrow
  else if n = 0x71 then some .mcol
  else if n = 0x72 then some .mdone
  else if n = 0x73 then some .mseg
  else if n < 0x100 then none
  else if h : n < 0x180 then
    if g : n % 16 < 12 then some (.rq ⟨(n - 0x100) / 16, by omega⟩ ⟨n % 16, g⟩) else none
  else none

/-- The SREG number of a special register (R412). -/
def SReg.code : SReg → Nat
  | .lane => 0
  | .tid i => 1 + i.val
  | .bid i => 4 + i.val
  | .launch => 7 | .role => 8
  | .fpflags => 0x10 | .fptrap => 0x11 | .rngctr => 0x12
  | .send n => 0x20 + n.val
  | .trapcause => 0x30 | .trapmask => 0x31 | .trappc => 0x32 | .trappch => 0x33
  | .trapaux n => 0x34 + n.val
  | .sdcsyn => 0x40 | .sdcunit => 0x41 | .sdctile => 0x42
  | .rpc => 0x50 | .rps => 0x51 | .rpa => 0x52
  | .time => 0x60 | .clock => 0x61
  | .mrow => 0x70 | .mcol => 0x71 | .mdone => 0x72 | .mseg => 0x73
  | .rq n f => 0x100 + 16 * n.val + f.val

/-! ### Extended fields -/

/-- The opcode-specific fields of the three extended words (R33). -/
structure XF where
  opc : Nat
  moda : Nat := 0   -- 7 bits, bit 25 first
  dx : Nat := 0
  modb : Nat := 0   -- 5 bits, bit 27 first
  s2 : Nat := 0
  s1 : Nat := 0
  s0 : Nat := 0
  modc : Nat := 0   -- 32 bits
  deriving DecidableEq, Repr, Inhabited

/-- What an opcode's description makes of the fields: the instruction (reserved values stand as a default), the operand
fields it uses, the MODA, MODB and MODC bits it defines, its RSRC code, and the reasons its own rule gives. -/
structure Arm where
  i : Instr
  ud : Bool := false
  u0 : Bool := false
  u1 : Bool := false
  u2 : Bool := false
  am : Nat := 0
  bm : Nat := 0
  cm : Nat := 0
  rs : Option Nat := none
  three : Bool := false
  nine : Bool := false
  five : Bool := false
  deriving DecidableEq, Repr

/-- Fin n of a number that is in range, else 0. -/
def fin (n : Nat) [NeZero n] (x : Nat) : Fin n := Fin.ofNat n x

/-- RND with RSRC (R196). -/
def Rnd.dec (m rsrc : Nat) : Rnd := if m = 5 then .sr (.dec rsrc) else .mode ((RMode.ofCode m).getD .rn)
/-- RND 6 and 7 are reserved (R196). -/
def Rnd.bad9 (m : Nat) : Bool := decide (5 < m)
/-- A nonzero RSRC under any RND other than sr (R196). -/
def Rnd.bad3 (m rsrc : Nat) : Bool := decide (m ≠ 5) && decide (rsrc ≠ 0)
/-- RND and RSRC of a rounding. -/
def Rnd.enc : Rnd → Nat × Nat
  | .mode m => (m.code, 0)
  | .sr r => (5, r.code)

/-- SMod of MODB (R196). -/
def SMod.dec (b : Nat) : SMod := ⟨bt b 0, bt b 1, bt b 3, bt b 4⟩
def SMod.enc (m : SMod) : Nat := bn m.n0 + 2 * bn m.n1 + 8 * bn m.a0 + 16 * bn m.a1

/-- The address fields of a memory instruction (R47, R48). -/
def MemF.dec (f : XF) : MemF where
  tgt := match fld f.modc 21 20 with
    | 0 => .global
    | 2 => if h : f.moda < 127 then .role ⟨f.moda, h⟩ else .laneRole (.dec f.s2)
    | _ => .own
  base := .dec f.s0
  offs := .ofNat 20 (fld f.modc 19 0)
  size := (Sz.ofCode (fld f.modc 24 22)).getD .b32
  order := .ofCode (fld f.modc 26 25)
  scope := (Scope.ofCode (fld f.modc 28 27)).getD .dev
  cache := (Cache.ofCode (fld f.modc 31 29)).getD .dflt

/-- Reserved values of the address fields, and a ROLE that must be 0 (R48, R49). -/
def MemF.bad9 (f : XF) : Bool :=
  fld f.modc 21 20 == 3 || (Sz.ofCode (fld f.modc 24 22)).isNone || (Scope.ofCode (fld f.modc 28 27)).isNone ||
  (Cache.ofCode (fld f.modc 31 29)).isNone || (fld f.modc 21 20 != 2 && f.moda != 0)

/-- MODC of the address fields. -/
def MemF.modc (m : MemF) : Nat :=
  m.offs.toNat + 2 ^ 20 * (match m.tgt with | .global => 0 | .own => 1 | _ => 2) + 2 ^ 22 * m.size.code +
  2 ^ 25 * m.order.code + 2 ^ 27 * m.scope.code + 2 ^ 29 * m.cache.code

/-- ROLE of the address fields. -/
def MemF.role (m : MemF) : Nat := match m.tgt with | .role n => n.val | .laneRole _ => 127 | _ => 0

/-- SRC2 of the address fields. -/
def MemF.s2 (m : MemF) : Nat := match m.tgt with | .laneRole r => r.code | _ => 0

/-- The shared fields of a copy (R273). -/
def CpyF.dec (f : XF) : CpyF where
  cache := (Cache.ofCode (fld f.moda 4 2)).getD .dflt
  scope := (Scope.ofCode (fld f.moda 1 0)).getD .dev
  rel := bt f.modc 31
  shadow := bt f.modc 30
  stamp := bt f.modc 29
  xb := if bt f.modc 28 then some (.ofNat 15 (fld f.modc 14 0)) else none
  ssp := (CSpace.ofCode (fld f.modc 27 26)).getD .own
  dsp := (CSpace.ofCode (fld f.modc 25 24)).getD .own
  role := .ofNat 7 (fld f.modc 23 17)
  long := bt f.modc 16

/-- Reserved values of the copy fields (R275). -/
def CpyF.bad9 (f : XF) : Bool :=
  (Cache.ofCode (fld f.moda 4 2)).isNone || (Scope.ofCode (fld f.moda 1 0)).isNone ||
  (CSpace.ofCode (fld f.modc 27 26)).isNone || (CSpace.ofCode (fld f.modc 25 24)).isNone ||
  (!bt f.modc 28 && fld f.modc 14 0 != 0)

def CpyF.moda (f : CpyF) : Nat := f.scope.code + 4 * f.cache.code
def CpyF.modc (f : CpyF) : Nat :=
  (match f.xb with | some x => x.toNat + 2 ^ 28 | none => 0) + 2 ^ 16 * bn f.long + 2 ^ 17 * f.role.toNat +
  2 ^ 24 * f.dsp.code + 2 ^ 26 * f.ssp.code + 2 ^ 29 * bn f.stamp + 2 ^ 30 * bn f.shadow + 2 ^ 31 * bn f.rel

/-- The multiply fields of MODA and MODC (R350). -/
def MulF.dec (f : XF) : MulF where
  f := (Fus.ofCode (fld f.moda 1 0)).getD .f1
  sa := bt f.moda 2
  sb := bt f.moda 3
  wa := (Fmt.ofCode (fld f.modc 3 0)).getD .f32
  wb := (Fmt.ofCode (fld f.modc 7 4)).getD .f32
  row0 := .ofNat 5 (fld f.modc 12 8)
  col0 := .ofNat 5 (fld f.modc 17 13)
  cba := .ofNat 2 (fld f.modc 19 18)
  cbb := .ofNat 2 (fld f.modc 21 20)
  kb := .ofNat 5 (fld f.modc 26 22)

def MulF.bad9 (f : XF) : Bool :=
  (Fus.ofCode (fld f.moda 1 0)).isNone || (Fmt.ofCode (fld f.modc 3 0)).isNone || (Fmt.ofCode (fld f.modc 7 4)).isNone

def MulF.moda (m : MulF) : Nat := m.f.code + 4 * bn m.sa + 8 * bn m.sb
def MulF.modc (m : MulF) : Nat :=
  m.wa.code + 16 * m.wb.code + 2 ^ 8 * m.row0.toNat + 2 ^ 13 * m.col0.toNat + 2 ^ 18 * m.cba.toNat +
  2 ^ 20 * m.cbb.toNat + 2 ^ 22 * m.kb.toNat

/-- The region fields of MODC (R350). -/
def Region.dec (c : Nat) : Region := ⟨.ofNat 5 (fld c 4 0), .ofNat 5 (fld c 9 5), .ofNat 5 (fld c 14 10), .ofNat 5 (fld c 19 15)⟩
def Region.modc (r : Region) : Nat :=
  r.row0.toNat + 2 ^ 5 * r.nrow.toNat + 2 ^ 10 * r.col0.toNat + 2 ^ 15 * r.ncol.toNat

/-- The address of XLD and XST (R348). -/
def XMem.dec (f : XF) : XMem where
  own := fld f.modc 21 20 == 1
  base := .dec f.s0
  offs := .ofNat 20 (fld f.modc 19 0)
  size := (Sz.ofCode (fld f.modc 24 22)).getD .b64
  cache := (Cache.ofCode (fld f.modc 31 29)).getD .dflt

/-- R348: SPACE 2 or 3, ORDER other than relaxed, SCOPE other than dev, SIZE 5 to 7, CACHE 5 to 7; ROLE must be 0 (R48). -/
def XMem.bad9 (f : XF) : Bool :=
  decide (2 ≤ fld f.modc 21 20) || fld f.modc 26 25 != 0 || fld f.modc 28 27 != 0 ||
  (Sz.ofCode (fld f.modc 24 22)).isNone || (Cache.ofCode (fld f.modc 31 29)).isNone || f.moda != 0

def XMem.modc (m : XMem) : Nat :=
  m.offs.toNat + 2 ^ 20 * bn m.own + 2 ^ 22 * m.size.code + 2 ^ 29 * m.cache.code

/-- The stamp address of XSIG and XWAIT (R349). -/
def XStamp.dec (f : XF) : XStamp := ⟨fld f.modc 21 20 == 1, .dec f.s0, .ofNat 20 (fld f.modc 19 0)⟩
def XStamp.modc (a : XStamp) : Nat := a.offs.toNat + 2 ^ 20 * bn a.own

def AccSel.ofCode (n : Nat) : Option AccSel :=
  if h : n < 10 then some (.seg ⟨n, h⟩) else if n = 10 then some .flg else if n = 11 then some .cnt else none
def AccSel.code : AccSel → Nat
  | .seg n => n.val | .flg => 10 | .cnt => 11

/-- A tile register of one kind, by its code (R42, R344). -/
def tcOf (n : Nat) : Option (Fin 2) := match MOpnd.ofCode n with | some (.tc t) => some t | _ => none
def taOf (n : Nat) : Option (Fin 4) := match MOpnd.ofCode n with | some (.ta t) => some t | _ => none
def tbOf (n : Nat) : Option (Fin 4) := match MOpnd.ofCode n with | some (.tb t) => some t | _ => none
def cbOf (n : Nat) : Option (Fin 4) := match MOpnd.ofCode n with | some (.cb t) => some t | _ => none
def scOf (n : Nat) : Option (Fin 2) := match MOpnd.ofCode n with | some (.sc t) => some t | _ => none
def xOf (n : Nat) : Option (Fin 32) := match MOpnd.ofCode n with | some (.x t) => some t | _ => none

/-! ### The arms of the opcode map -/

/-- 0x01 to 0x12 (R178, R409). -/
def armControl (h : Hd) (f : XF) : Option Arm :=
  match f.opc with
  | 0x01 => some { i := .nop h }
  | 0x02 => some { i := .bra h (.ofNat 32 f.modc), cm := 0xFFFFFFFF }
  | 0x03 => some { i := .brx h (.dec f.s0), u0 := true }
  | 0x04 => some (if bt f.moda 0 then { i := .call h (.dec f.dx) (.ind (.dec f.s0)), ud := true, u0 := true, am := 1 }
      else { i := .call h (.dec f.dx) (.direct (.ofNat 32 f.modc)), ud := true, am := 1, cm := 0xFFFFFFFF })
  | 0x05 => some { i := .ret h (.dec f.s0), u0 := true }
  | 0x06 => some { i := .exit h }
  | 0x07 => some { i := .reform h }
  | 0x08 => some { i := .yield h }
  | 0x09 => some { i := .bar h (.dec f.s0) (bt f.moda 0) (.ofNat 11 (fld f.modc 10 0)), u0 := true, am := 1, cm := 0x7FF }
  | 0x0A => some { i := .gbar h (bt f.moda 0), am := 1 }
  | 0x0B => some { i := .wait h (.dec f.s0) (.dec f.s1) (bt f.moda 0) ((Scope.ofCode (fld f.moda 2 1)).getD .dev),
                   u0 := true, u1 := true, am := 7, nine := (Scope.ofCode (fld f.moda 2 1)).isNone }
  | 0x0C => some { i := .trap h (.dec f.s0), u0 := true }
  | 0x0D => some { i := .brk h (.ofNat 16 (fld f.modc 15 0)), cm := 0xFFFF }
  | 0x0E => some { i := .rft h }
  | 0x0F => some { i := .rdsr h (.dec f.dx) ((SReg.ofCode (fld f.modc 9 0)).getD .lane), ud := true, cm := 0x3FF,
                   nine := (SReg.ofCode (fld f.modc 9 0)).isNone }
  | 0x10 => some { i := .wrsr h ((SReg.ofCode (fld f.modc 9 0)).getD .lane) (.dec f.s0), u0 := true, cm := 0x3FF,
                   nine := (SReg.ofCode (fld f.modc 9 0)).isNone }
  | 0x11 =>
    let w := fld f.modc 4 3
    let n := fld f.modc 6 5
    let mk (op : RqOp) (u9 u0 : Bool) : Arm :=
      { i := .rqset h op (fin 8 (fld f.modc 2 0)), u0 := u0, am := 7, cm := 0x7F, nine := u9 }
    some (match fld f.moda 2 0 with
    | 0 => mk .cancel (w != 0 || n != 0) false
    | 1 => mk .done (w != 0 || n != 0) false
    | 2 => mk (.op (bt w 0) (fin 3 n) (.dec f.s0)) (decide (2 ≤ w) || n == 3) true
    | 3 => mk (.res (fin 4 w) (.dec f.s0)) (n != 0) true
    | _ => mk .cancel true true)
  | 0x12 => some { i := .dlaunch h (.dec f.dx) (.dec f.s0) (.ofNat 6 (fld f.modc 5 0)), ud := true, u0 := true, cm := 0x3F }
  | _ => none

/-- 0x20 to 0x3C (R189, R190). -/
def armInteger (h : Hd) (f : XF) : Option Arm :=
  let d := Opnd.dec f.dx
  let a0 := Opnd.dec f.s0
  let a1 := Opnd.dec f.s1
  let a2 := Opnd.dec f.s2
  let u := bt f.moda 3
  let sat := bt f.moda 4
  let one (i : Instr) (am : Nat) : Arm := { i := i, ud := true, u0 := true, am := am }
  let two (i : Instr) (am : Nat) : Arm := { i := i, ud := true, u0 := true, u1 := true, am := am }
  let thr (i : Instr) (am : Nat) : Arm := { i := i, ud := true, u0 := true, u1 := true, u2 := true, am := am }
  match f.opc with
  | 0x20 => some (two (.iadd h d a1 a0 u sat) 0x18)
  | 0x21 => some (two (.isub h d a1 a0 u sat) 0x18)
  | 0x22 => some (two (.imul h d a1 a0 u sat) 0x18)
  | 0x23 => some (two (.imulh h d a1 a0 u) 0x08)
  | 0x24 => some (thr (.imad h d a0 a1 a2 u sat) 0x18)
  | 0x25 => some (two (.imin h d a1 a0 u) 0x08)
  | 0x26 => some (two (.imax h d a1 a0 u) 0x08)
  | 0x27 => some (one (.iabs h d a0 sat) 0x10)
  | 0x28 => some (two (.iadd64 h d a1 a0 u sat) 0x18)
  | 0x29 => some (two (.lea h d a1 a0 u (.ofNat 3 (fld f.moda 2 0))) 0x0F)
  | 0x2A => some (two (.and h d a1 a0 (bt f.moda 0)) 0x01)
  | 0x2B => some (two (.or h d a1 a0 (bt f.moda 0)) 0x01)
  | 0x2C => some (two (.xor h d a1 a0 (bt f.moda 0)) 0x01)
  | 0x2D => some (two (.shl h d a1 a0) 0)
  | 0x2E => some (two (.shr h d a1 a0) 0)
  | 0x2F => some (two (.sar h d a1 a0) 0)
  | 0x30 => some (thr (.shf h d a0 a1 a2 (bt f.moda 0)) 0x01)
  | 0x31 => some (two (.bfx h d a1 a0 u) 0x08)
  | 0x32 => some (thr (.bfi h d a0 a1 a2) 0)
  | 0x33 => some (one (.popc h d a0) 0)
  | 0x34 => some (one (.clz h d a0) 0)
  | 0x35 => some (one (.brev h d a0) 0)
  | 0x36 => some (one (.mov h d a0) 0)
  | 0x37 => some (one (.movl h d a0) 0)
  | 0x38 => some (two (.sel h d a1 a0 (fin 8 (fld f.moda 2 0)) u) 0x0F)
  | 0x39 => some { two (.icmp h (fin 8 (fld f.moda 6 4)) d a1 a0 u ((Cmp.ofCode (fld f.moda 2 0)).getD .eq)) 0x7F with
      nine := (Cmp.ofCode (fld f.moda 2 0)).isNone }
  | 0x3A => some (two (.idiv h d a1 a0 u) 0x08)
  | 0x3B => some (two (.irem h d a1 a0 u) 0x08)
  | 0x3C => some (thr (.prmt h d a0 a1 a2) 0)
  | _ => none

/-- 0x40 to 0x56 (R196 to R209). -/
def armFloat (h : Hd) (f : XF) : Option Arm :=
  let d := Opnd.dec f.dx
  let a0 := Opnd.dec f.s0
  let a1 := Opnd.dec f.s1
  let a2 := Opnd.dec f.s2
  let m := fld f.moda 2 0
  let rc := fld f.modc 8 0
  let r := Rnd.dec m rc
  let n0 := bt f.modb 0
  let n1 := bt f.modb 1
  let ab0 := bt f.modb 3
  let ab1 := bt f.modb 4
  let sm : SMod := .dec f.modb
  let one (i : Instr) (am bm cm : Nat) : Arm := { i := i, ud := true, u0 := true, am := am, bm := bm, cm := cm }
  let two (i : Instr) (am bm cm : Nat) : Arm := { i := i, ud := true, u0 := true, u1 := true, am := am, bm := bm, cm := cm }
  let rnd (a : Arm) : Arm := { a with rs := some rc, three := Rnd.bad3 m rc, nine := a.nine || Rnd.bad9 m }
  let cvt (i : Fmt → Fmt → BitVec 3 → Instr) (am : Nat) : Arm :=
    let df := Fmt.ofCode (fld f.modc 19 16)
    let sf := Fmt.ofCode (fld f.modc 15 12)
    rnd { one (i (df.getD .f32) (sf.getD .f32) (.ofNat 3 (fld f.modc 23 21))) am 0 0x00EFF1FF with
      nine := df.isNone || sf.isNone }
  match f.opc with
  | 0x40 => some (rnd (two (.fadd h d a1 a0 r sm) 7 0x1B 0x1FF))
  | 0x41 => some (rnd (two (.fsub h d a1 a0 r sm) 7 0x1B 0x1FF))
  | 0x42 => some (rnd (two (.fmul h d a1 a0 r sm) 7 0x1B 0x1FF))
  | 0x43 => some (rnd { two (.ffma h d a0 a1 a2 r sm (bt f.modb 2)) 7 0x1F 0x1FF with u2 := true })
  | 0x44 => some (rnd (two (.fmin h d a1 a0 ⟨r, sm⟩) 7 0x1B 0x1FF))
  | 0x45 => some (rnd (two (.fmax h d a1 a0 ⟨r, sm⟩) 7 0x1B 0x1FF))
  | 0x46 => some (two (.fcmp h (fin 8 (fld f.moda 6 4)) d a1 a0 (.ofCode m) sm) 0x77 0x1B 0)
  | 0x47 => some (rnd (one (.fclass h d ⟨a0, r⟩) 7 0 0x1FF))
  | 0x48 => some (rnd (two (.fdiv h d a1 a0 r sm) 7 0x1B 0x1FF))
  | 0x49 => some (rnd (one (.fsqrt h d a0 r n0 ab0) 7 0x09 0x1FF))
  | 0x4A => some (one (.frcp h d a0 n0 ab0) 0 0x09 0)
  | 0x4B => some (one (.frsq h d a0 n0 ab0) 0 0x09 0)
  | 0x4C => some (one (.fexp2 h d a0 n0 ab0) 0 0x09 0)
  | 0x4D => some (one (.flog2 h d a0 n0 ab0) 0 0x09 0)
  | 0x4E => some (one (.fsin h d a0 n0 ab0) 0 0x09 0)
  | 0x4F => some (one (.fcos h d a0 n0 ab0) 0 0x09 0)
  | 0x50 => some (one (.ftanh h d a0 n0 ab0) 0 0x09 0)
  | 0x51 => some (cvt (fun df sf e => .fcvt h d a0 df sf e r) 7)
  | 0x52 => some (cvt (fun df sf e => .i2f h d a0 df sf e (bt f.moda 3) r) 0x0F)
  | 0x53 => some (cvt (fun df sf e => .f2i h d a0 df sf e (bt f.moda 3) r) 0x0F)
  | 0x54 =>
    let bf := bt f.modc 12
    some (match fld f.modc 11 9 with
    | 2 => rnd { two (.pfop h d a0 a1 (.fma a2 (bt f.modb 2)) bf r sm) 7 0x1F 0x1FFF with u2 := true }
    | 0 => rnd (two (.pfop h d a1 a0 .add bf r sm) 7 0x1B 0x1FFF)
    | 1 => rnd (two (.pfop h d a1 a0 .mul bf r sm) 7 0x1B 0x1FFF)
    | 3 => rnd (two (.pfop h d a1 a0 .min bf r sm) 7 0x1B 0x1FFF)
    | 4 => rnd (two (.pfop h d a1 a0 .max bf r sm) 7 0x1B 0x1FFF)
    | _ => rnd { two (.pfop h d a1 a0 .add bf r sm) 7 0x1F 0x1FFF with u2 := true, nine := true })
  | 0x55 => some (rnd (one (.frnd h d a0 r n0 ab0) 7 0x09 0x1FF))
  | 0x56 => some (rnd (two (.fscale h d a1 a0 r n1 ab1) 7 0x12 0x1FF))
  | _ => none

/-- 0x60 to 0x65 (R210). -/
def armLane (h : Hd) (f : XF) : Option Arm :=
  let d := Opnd.dec f.dx
  let pd := fin 8 (fld f.moda 6 4)
  match f.opc with
  | 0x60 =>
    let p (hi lo : Nat) : Fin 8 := fin 8 (fld f.modc hi lo)
    some { i := .plop h pd (p 10 8) (p 13 11) (p 16 14) (.ofNat 8 (fld f.modc 7 0)), am := 0x70, cm := 0x1FFFF }
  | 0x61 => some (if bt f.moda 0 then
      { i := .pmov h (.inr (.dec f.s0, .ofNat 7 (fld f.modc 6 0))), u0 := true, am := 1, cm := 0x7F }
      else { i := .pmov h (.inl d), ud := true, am := 1 })
  | 0x62 => some { i := .vote h (.ofCode (fld f.moda 1 0)) pd d (fin 8 (fld f.modc 2 0)) (bt f.modc 3), ud := true,
                   am := 0x73, cm := 0x0F }
  | 0x63 => some { i := .shfl h (.ofCode (fld f.moda 1 0)) ((Wid.ofCode (fld f.modc 2 0)).getD .w32) pd d (.dec f.s1) (.dec f.s0),
                   ud := true, u0 := true, u1 := true, am := 0x73, cm := 7, nine := (Wid.ofCode (fld f.modc 2 0)).isNone }
  | 0x64 => some { i := .match_ h (bt f.moda 1) (bt f.moda 0) pd d (.dec f.s0), ud := true, u0 := true, am := 0x73 }
  | 0x65 => some { i := .cred h ((COp.ofCode (fld f.moda 2 0)).getD .add) (bt f.moda 3) d (.dec f.s0), ud := true, u0 := true,
                   am := 0x0F, nine := (COp.ofCode (fld f.moda 2 0)).isNone }
  | _ => none

/-- 0x70 to 0x7D (R217, R226, R232, R236, R242). -/
def armMemory (h : Hd) (f : XF) : Option Arm :=
  let d := Opnd.dec f.dx
  let a0 := Opnd.dec f.s0
  let a1 := Opnd.dec f.s1
  let a2 := Opnd.dec f.s2
  let m := MemF.dec f
  let role : Bool := f.moda == 127
  let mem (i : Instr) (ud u1 u2 : Bool) (bm : Nat) (nine : Bool) : Arm :=
    { i := i, ud := ud, u0 := true, u1 := u1, u2 := u2, am := 0x7F, bm := bm, cm := 0xFFFFFFFF, nine := nine || MemF.bad9 f }
  match f.opc with
  | 0x70 => some (mem (.ld h d m (bt f.modb 0)) true false role 1 false)
  | 0x71 => some (mem (.st h m a1) false true role 0 false)
  | 0x72 => some (mem (.ldc h d m (bt f.modb 0)) true false false 1 false)
  | 0x73 => some (mem (.atom h ((AOp.ofCode (fld f.modb 2 0)).getD .min) (bt f.modb 3) d m a1) true true role 0x0F
      (AOp.ofCode (fld f.modb 2 0)).isNone)
  | 0x74 => some (mem (.cas h (fin 8 (fld f.modb 2 0)) d m a1 a2) true true true 0x07 false)
  | 0x75 => some { i := .fence h ((FKind.ofCode (fld f.moda 1 0)).getD .rel) ((Scope.ofCode (fld f.moda 3 2)).getD .dev) (bt f.moda 4),
                   am := 0x1F, nine := (FKind.ofCode (fld f.moda 1 0)).isNone || (Scope.ofCode (fld f.moda 3 2)).isNone }
  | 0x76 => some { i := .afence h }
  | 0x77 => some { i := .cinv h }
  | 0x78 => some (mem (.pref h m) false false false 0 false)
  | 0x79 => some { i := .qpush h a0 a1 (bt f.moda 0), u0 := true, u1 := true, am := 1 }
  | 0x7A => some { i := .qpop h (fin 8 (fld f.moda 6 4)) d a0 (bt f.moda 0) (bt f.moda 1), ud := true, u0 := true, am := 0x73 }
  | 0x7B =>
    let ex := bt f.moda 2
    some { i := .rng h ((RCnt.ofCode (fld f.moda 1 0)).getD .n1) d (if ex then some a0 else none), ud := true, u0 := ex,
           am := 7, nine := (RCnt.ofCode (fld f.moda 1 0)).isNone }
  | 0x7C => some (mem (.probe h (fin 8 (fld f.modb 2 0)) d m) true false role 0x07 false)
  | 0x7D =>
    let pd := fld f.moda 6 4
    let off : BitVec 20 := .ofNat 20 (fld f.modc 19 0)
    let mk (op : XbarOp) (ud u1 nine : Bool) : Arm :=
      { i := .xbar h op a0 off, ud := ud, u0 := true, u1 := u1, am := 0x77, cm := 0xFFFFF, nine := nine }
    some (match fld f.moda 2 0 with
    | 0 => mk (.init a1) false true (pd != 7)
    | 1 => mk (.arrive d) true false false
    | 2 => mk (.expect d a1) true true false
    | 3 => mk (.wait a1) false true (pd != 7)
    | 4 => mk (.test (fin 8 pd) d a1) true true false
    | _ => mk (.test (fin 8 pd) d a1) true true true)
  | _ => none

/-- 0x80 to 0x86 (R264). -/
def armStream (h : Hd) (f : XF) : Option Arm :=
  let d := Opnd.dec f.dx
  let a0 := Opnd.dec f.s0
  let p := fin 16 (fld f.modc 3 0)
  let w := bt f.moda 2
  match f.opc with
  | 0x80 =>
    let ix := bt f.moda 1
    some { i := .sopen h p a0 (.dec f.s1) (if ix then some (.dec f.s2) else none) (bt f.moda 0), u0 := true, u1 := true, u2 := ix,
           am := 3, cm := 0x0F }
  | 0x81 => some { i := .sclose h p, cm := 0x0F }
  | 0x82 => some { i := .sskip h p a0 w, u0 := true, am := 4, cm := 0x0F }
  | 0x83 => some { i := .spos h p d w, ud := true, am := 4, cm := 0x0F }
  | 0x84 =>
    let mk (mode : StMode) (nine : Bool) : Arm :=
      { i := .stest h p (fin 8 (fld f.moda 6 4)) d mode (bt f.moda 3), ud := true, am := 0x7F, cm := 0x0F, nine := nine }
    some (match fld f.moda 1 0 with
    | 0 => mk .eos w
    | 1 => mk (.left w) false
    | _ => mk .eos true)
  | 0x85 => some { i := .sseek h p a0 w, u0 := true, am := 4, cm := 0x0F }
  | 0x86 => some { i := .scfg h p (.ofCode (fld f.moda 1 0)) a0, u0 := true, am := 3, cm := 0x0F }
  | _ => none

/-- 0x88 to 0x99 (R296, R308). -/
def armAcc (h : Hd) (f : XF) : Option Arm :=
  let d := Opnd.dec f.dx
  let a0 := Opnd.dec f.s0
  let a1 := Opnd.dec f.s1
  let neg := bt f.moda 0
  let fa := Fmt.ofCode (fld f.modc 15 12)
  let fb := Fmt.ofCode (fld f.modc 19 16)
  let u := bt f.modc 20
  let e : BitVec 3 := .ofNat 3 (fld f.modc 23 21)
  let m := MemF.dec f
  let role : Bool := f.moda == 127
  let mem (i : Instr) (ud u1 u2 : Bool) (bm : Nat) (nine : Bool) : Arm :=
    { i := i, ud := ud, u0 := true, u1 := u1, u2 := u2, am := 0x7F, bm := bm, cm := 0xFFFFFFFF, nine := nine || MemF.bad9 f }
  match f.opc with
  | 0x88 => some { i := .accz h d, ud := true }
  | 0x89 => some { i := .accadd h d a0 (fa.getD .f32) e u neg, ud := true, u0 := true, am := 1, cm := 0xF0F000, nine := fa.isNone }
  | 0x8A => some { i := .accmac h d a0 a1 (fa.getD .f32) (fb.getD .f32) e u neg, ud := true, u0 := true, u1 := true,
                   am := 1, cm := 0xFFF000, nine := fa.isNone || fb.isNone }
  | 0x8B => some { i := .accdot h d a0 a1 (fa.getD .f32) (fb.getD .f32) u neg, ud := true, u0 := true, u1 := true,
                   am := 1, cm := 0x1FF000, nine := fa.isNone || fb.isNone }
  | 0x8C => some { i := .accneg h d a0, ud := true, u0 := true }
  | 0x8D => some { i := .accscl h d a0 a1, ud := true, u0 := true, u1 := true }
  | 0x8E => some { i := .accmov h d a0, ud := true, u0 := true }
  | 0x8F => some { i := .accnorm h d a0, ud := true, u0 := true }
  | 0x90 =>
    let rm := fld f.moda 2 0
    let rc := fld f.modc 8 0
    some { i := .accrnd h d a0 (fb.getD .i32) (bt f.moda 3) (Rnd.dec rm rc), ud := true, u0 := true, am := 0x0F, cm := 0xF01FF,
           rs := some rc, three := Rnd.bad3 rm rc, nine := Rnd.bad9 rm || fb.isNone }
  | 0x91 => some { i := .accrds h d a0 ((AccSel.ofCode (fld f.modc 3 0)).getD .flg), ud := true, u0 := true, cm := 0x0F,
                   nine := (AccSel.ofCode (fld f.modc 3 0)).isNone }
  | 0x92 => some { i := .accwrs h d a0 ((AccSel.ofCode (fld f.modc 3 0)).getD .flg), ud := true, u0 := true, cm := 0x0F,
                   nine := (AccSel.ofCode (fld f.modc 3 0)).isNone }
  | 0x93 => some { i := .accred h d a0 ((Wid.ofCode (fld f.modc 2 0)).getD .w32), ud := true, u0 := true, cm := 7,
                   nine := (Wid.ofCode (fld f.modc 2 0)).isNone }
  | 0x94 => some (mem (.accld h d m) true false role 0 false)
  | 0x95 => some (mem (.accst h m a1) false true role 0 false)
  | 0x96 =>
    let ft := Fmt.ofCode (fld f.modb 3 0)
    some (if bt f.modb 4 then mem (.aacc h m (.acc a1)) false true false 0x1F (fld f.modb 3 0 != 0)
      else mem (.aacc h m (.elem (ft.getD .f32) a1)) false true false 0x1F ft.isNone)
  | 0x97 =>
    let ft := Fmt.ofCode (fld f.modb 3 0)
    some (mem (.amac h m a1 (.dec f.s2) (ft.getD .f32) (bt f.modb 4)) false true true 0x1F ft.isNone)
  | 0x98 =>
    let k : BitVec 6 := .ofNat 6 (fld f.modc 5 0)
    let mk (mode : AtMode) (nine : Bool) : Arm :=
      { i := .acctest h mode (fin 8 (fld f.moda 6 4)) d a0, ud := true, u0 := true, am := 0x73, cm := 0x3F, nine := nine }
    some (match fld f.moda 1 0 with
    | 0 => mk (.flg k) false
    | 1 => mk .neg (fld f.modc 5 0 != 0)
    | 2 => mk .zero (fld f.modc 5 0 != 0)
    | _ => mk .zero true)
  | 0x99 => some { i := .accaddk h d a0 neg, ud := true, u0 := true, am := 1 }
  | _ => none

/-- 0xA0 to 0xA7 (R273, R274) and 0xE0 to 0xE4 (R441, R465). -/
def armCopy (h : Hd) (f : XF) : Option Arm :=
  let d := Opnd.dec f.dx
  let a0 := Opnd.dec f.s0
  let a1 := Opnd.dec f.s1
  let a2 := Opnd.dec f.s2
  let g := CpyF.dec f
  let cpy (i : Instr) (bm : Nat) (nine : Bool) : Arm :=
    { i := i, u0 := true, u1 := true, u2 := true, am := 0x1F, bm := bm, cm := 0xFFFF7FFF, nine := nine || CpyF.bad9 f }
  match f.opc with
  | 0xA0 => some (cpy (.cpy h g a0 a1 a2) 0 false)
  | 0xA1 => some (cpy (.cpyg h g a0 a1 a2) 0 false)
  | 0xA2 => some (cpy (.cpys h g a0 a1 a2) 0 false)
  | 0xA3 => some (cpy (.cpym h g a0 a1 a2) 0 false)
  | 0xA4 =>
    let ft := Fmt.ofCode (fld f.modb 3 0)
    some (if bt f.modb 4 then cpy (.cpya h g .line a0 a1 a2) 0x1F (fld f.modb 3 0 != 0)
      else cpy (.cpya h g (.elem (ft.getD .f32)) a0 a1 a2) 0x1F ft.isNone)
  | 0xA5 =>
    let stamp := bt f.modc 29
    some { i := .publish h a0 a1 (if stamp then some a2 else none), u0 := true, u1 := true, u2 := stamp,
           am := 0x7F, bm := 0x1F, cm := 0xFFFFFFFF,
           nine := f.moda != 0 || f.modb != 0 || f.modc != (if stamp then 2 ^ 29 + 2 ^ 16 else 0) }
  | 0xA6 => some { i := .cpyq h d (bt f.moda 0), ud := true, am := 1, cm := 0xFFFFFFFF, nine := f.modc != 0 }
  | 0xA7 => some (cpy (.cpyx h g (fin 4 (fld f.modb 1 0)) a0 a1 a2) 3 false)
  | 0xE0 => some { i := .rpopen h d a0, ud := true, u0 := true }
  | 0xE1 => some { i := .rpseal h d a0, ud := true, u0 := true }
  | 0xE2 => some { i := .ctrrd h d (bt f.moda 0) (.ofNat 2 (fld f.modc 4 3)) (.ofNat 3 (fld f.modc 2 0)), ud := true,
                   am := 1, cm := 0x1F }
  | 0xE3 => some { i := .pmark h (.ofNat 16 (fld f.modc 15 0)) a0, u0 := true, cm := 0xFFFF }
  | 0xE4 => some { i := .tsrd h d (bt f.moda 0), ud := true, am := 1 }
  | _ => none

/-- 0xB0 to 0xBE (R345 to R349). -/
def armXScalar (lit : Option W64) (f : XF) : Option Arm :=
  let a0 := MOpnd.dec f.s0
  let a1 := MOpnd.dec f.s1
  let d := (xOf f.dx).getD 0
  let nd := (xOf f.dx).isNone
  let two (i : Instr) (am : Nat) : Arm := { i := i, ud := true, u0 := true, u1 := true, am := am, five := nd }
  match f.opc with
  | 0xB0 => some (two (.xadd lit d a1 a0) 0)
  | 0xB1 => some (two (.xsub lit d a1 a0) 0)
  | 0xB2 =>
    let hi := bt f.moda 1
    some { two (.xmul lit d a1 a0 (if hi then .hi (bt f.moda 0) else .lo)) 3 with three := !hi && bt f.moda 0 }
  | 0xB3 => some (two (.xlog lit (.ofCode (fld f.moda 1 0)) d a1 a0) 3)
  | 0xB4 => some (two (.xshf lit (.ofCode (fld f.moda 1 0)) d a1 a0) 3)
  | 0xB5 => some { i := .xmov lit d a0, ud := true, u0 := true, five := nd }
  | 0xB6 => some { i := .xmovl d (bt f.moda 0) (.ofNat 32 f.modc), ud := true, am := 1, cm := 0xFFFFFFFF, five := nd }
  | 0xB7 => some { two (.xcmp lit ((Cmp.ofCode (fld f.moda 2 0)).getD .eq) (bt f.moda 3) d a1 a0) 0x0F with
      nine := (Cmp.ofCode (fld f.moda 2 0)).isNone }
  | 0xB8 => some { i := .xbr lit ((XCond.ofCode (fld f.moda 2 0)).getD .z) a0 (.ofNat 32 f.modc), u0 := true, am := 7,
                   cm := 0xFFFFFFFF, nine := (XCond.ofCode (fld f.moda 2 0)).isNone }
  | 0xB9 => some { i := .xloop d (.ofNat 32 f.modc), ud := true, u0 := true, cm := 0xFFFFFFFF, five := nd || f.s0 != f.dx }
  | 0xBA => some { i := .xld lit d (.dec f) (bt f.modb 0), ud := true, u0 := true, am := 0x7F, bm := 1, cm := 0xFFFFFFFF,
                   five := nd, nine := XMem.bad9 f }
  | 0xBB => some { i := .xst lit (.dec f) a1, u0 := true, u1 := true, am := 0x7F, cm := 0xFFFFFFFF, nine := XMem.bad9 f }
  | 0xBC =>
    let link := bt f.moda 1
    let ind := bt f.moda 0
    some { i := .xjmp lit (if link then some d else none) (if ind then .ind a0 else .direct (.ofNat 32 f.modc)),
           ud := link, u0 := ind, am := 3, cm := if ind then 0 else 0xFFFFFFFF, five := link && nd }
  | 0xBD =>
    let s := XStamp.dec f
    let mk (k : XsigK) (nine : Bool) : Arm :=
      { i := .xsig lit k, u0 := true, u1 := true, am := 3, cm := 0x3FFFFF, nine := nine || decide (2 ≤ fld f.modc 21 20) }
    some (match fld f.moda 1 0 with
    | 0 => mk (.signal s a1) false
    | 1 => mk (.signalEnd s a1) false
    | 2 => { i := .xsig lit .halt, u0 := true, u1 := true, am := 3, three := f.s0 != 0 || f.s1 != 0 }   -- R349
    | _ => mk (.signal s a1) true)
  | 0xBE => some { i := .xwait lit (.dec f) a1, u0 := true, u1 := true, cm := 0x3FFFFF, nine := decide (2 ≤ fld f.modc 21 20) }
  | _ => none

/-- 0xC0 to 0xCE (R350). -/
def armTile (lit : Option W64) (f : XF) : Option Arm :=
  let a0 := MOpnd.dec f.s0
  let a1 := MOpnd.dec f.s1
  let a2 := MOpnd.dec f.s2
  let t := (tcOf f.dx).getD 0
  let nt := (tcOf f.dx).isNone
  let reg := Region.dec f.modc
  let mul (i : MulF → Fin 2 → Fin 4 → Fin 4 → Instr) : Arm :=
    { i := i (.dec f) t ((taOf f.s0).getD 0) ((tbOf f.s1).getD 0), ud := true, u0 := true, u1 := true, am := 0x0F, cm := 0x07FFFFFF,
      five := nt || (taOf f.s0).isNone || (tbOf f.s1).isNone, nine := MulF.bad9 f }
  let walk (i : MulF → Fin 2 → Fin 32 → MOpnd → MOpnd → Instr) : Arm :=
    { i := i (.dec f) (fin 2 (fld f.modb 0 0)) ((xOf f.dx).getD 0) a0 a1, ud := true, u0 := true, u1 := true, am := 0x0F, bm := 1,
      cm := 0x07FFFFFF, five := (xOf f.dx).isNone, nine := MulF.bad9 f }
  match f.opc with
  | 0xC0 =>
    let tl : Option TLatch := match taOf f.dx, tbOf f.dx with
      | some n, _ => some (.ta n)
      | _, some n => some (.tb n)
      | _, _ => none
    some { i := .tld lit (tl.getD (.ta 0)) a0 a1 (.ofNat 13 (fld f.modc 12 0)) (.ofNat 13 (fld f.modc 25 13)), ud := true,
           u0 := true, u1 := true, cm := 0x03FFFFFF, five := tl.isNone }
  | 0xC1 => some { i := .tgath lit ((Fus.ofCode (fld f.moda 1 0)).getD .f1) ((taOf f.dx).getD 0) a0 a1 a2 (.ofNat 13 (fld f.modc 12 0)),
                   ud := true, u0 := true, u1 := true, u2 := true, am := 3, cm := 0x1FFF, five := (taOf f.dx).isNone,
                   nine := (Fus.ofCode (fld f.moda 1 0)).isNone }
  | 0xC2 => some (mul .mma)
  | 0xC3 => some (mul .tmma)
  | 0xC4 => some { i := .tzero t reg, ud := true, cm := 0xFFFFF, five := nt }
  | 0xC5 =>
    let df := Fmt.ofCode (fld f.moda 6 3)
    let rm := RMode.ofCode (fld f.modb 2 0)
    let mk (dr : DrainT) (nine : Bool) : Arm :=
      { i := .tdrain lit t a0 a1 dr (bt f.moda 1) reg, ud := true, u0 := true, u1 := true, am := 0x7F, bm := 7, cm := 0xFFFFF,
        five := nt, nine := nine }
    some (if bt f.moda 0 then mk .acc (fld f.moda 6 3 != 0 || bt f.moda 2 || fld f.modb 2 0 != 0)
      else mk (.elem (df.getD .i32) (bt f.moda 2) (rm.getD .rn)) (df.isNone || rm.isNone))
  | 0xC6 =>
    let lib := bt f.moda 1
    let sp := bt f.moda 0
    some { i := .tcode lit ((cbOf f.dx).getD 0) (if lib then .lib a0 else if sp then .own a0 else .global a0), ud := true,
           u0 := true, am := 3, five := (cbOf f.dx).isNone, nine := lib && sp }
  | 0xC7 => some { i := .tscale lit ((scOf f.dx).getD 0) (bt f.moda 0) a0 a1, ud := true, u0 := true, u1 := true, am := 1,
                   five := (scOf f.dx).isNone }
  | 0xC8 =>
    let df := Fmt.ofCode (fld f.moda 6 3)
    let rm := RMode.ofCode (fld f.modb 2 0)
    some { i := .tqnt lit t a0 a1 a2 (df.getD .f32) (rm.getD .rn) (bt f.moda 1) reg, ud := true, u0 := true, u1 := true,
           u2 := true, am := 0x7A, bm := 7, cm := 0xFFFFF, five := nt, nine := df.isNone || rm.isNone }
  | 0xC9 => some (walk (.twalk lit))
  | 0xCA => some (walk (.tresume lit))
  | 0xCB => some { i := .tstate lit (bt f.moda 0) a0, u0 := true, am := 1 }
  | 0xCC => some { i := .tchk ((xOf f.dx).getD 0) (bt f.moda 0), ud := true, am := 1, five := (xOf f.dx).isNone }
  | 0xCD =>
    if bt f.moda 0 then
      some { i := .tacc lit t (.lines a0 a1) reg, ud := true, u0 := true, u1 := true, am := 1, cm := 0xFFFFF, five := nt }
    else
      some { i := .tacc lit t (.tile ((tcOf f.s0).getD 0)) reg, ud := true, u0 := true, am := 1, cm := 0xFFFFF,
             five := nt || (tcOf f.s0).isNone }
  | 0xCE => some { i := .tsync }
  | _ => none

/-- The arm of a thread opcode. -/
def armThread (h : Hd) (f : XF) : Option Arm :=
  if f.opc < 0x20 then armControl h f
  else if f.opc < 0x40 then armInteger h f
  else if f.opc < 0x60 then armFloat h f
  else if f.opc < 0x70 then armLane h f
  else if f.opc < 0x80 then armMemory h f
  else if f.opc < 0x88 then armStream h f
  else if f.opc < 0xA0 then armAcc h f
  else armCopy h f

/-- The arm of an MCC opcode; NOP is the thread's (R52). -/
def armMcc (lit : Option W64) (f : XF) : Option Arm :=
  if f.opc = 1 then some { i := .nop ⟨false, false, 7, false, lit⟩ }
  else if f.opc < 0xC0 then armXScalar lit f else armTile lit f

/-- The compact forms of R30: the instruction, and whether a field marked zero is not zero. c is bits 31:15. -/
def armCompact (h : Ch) (opc c : Nat) : Option (Instr × Bool) :=
  let d := Opnd.dec (c % 256)
  let s := Opnd.dec (c / 256)
  match opc with
  | 0x01 => some (.nopC h, c != 0)
  | 0x02 => some (.braC h (.ofNat 17 c), false)
  | 0x05 => some (.retC h, c != 0)
  | 0x06 => some (.exitC h, c != 0)
  | 0x07 => some (.reformC h, c != 0)
  | 0x08 => some (.yieldC h, c != 0)
  | 0x09 => some (.barC h s, c % 256 != 0)
  | 0x20 => some (.iaddC h d s, false)
  | 0x21 => some (.isubC h d s, false)
  | 0x2A => some (.andC h d s, false)
  | 0x2B => some (.orC h d s, false)
  | 0x2C => some (.xorC h d s, false)
  | 0x2D => some (.shlC h d s, false)
  | 0x2E => some (.shrC h d s, false)
  | 0x36 => some (.movC h d s, false)
  | 0x40 => some (.faddC h d s, false)
  | 0x42 => some (.fmulC h d s, false)
  | _ => none

/-- The opcode has an assignment (R51). -/
def opcAssigned (n : Nat) : Bool :=
  (decide (0x01 ≤ n) && decide (n ≤ 0x12)) || (decide (0x20 ≤ n) && decide (n ≤ 0x3C)) || (decide (0x40 ≤ n) && decide (n ≤ 0x56)) ||
  (decide (0x60 ≤ n) && decide (n ≤ 0x65)) || (decide (0x70 ≤ n) && decide (n ≤ 0x7D)) || (decide (0x80 ≤ n) && decide (n ≤ 0x86)) ||
  (decide (0x88 ≤ n) && decide (n ≤ 0x99)) || (decide (0xA0 ≤ n) && decide (n ≤ 0xA7)) || (decide (0xB0 ≤ n) && decide (n ≤ 0xBE)) ||
  (decide (0xC0 ≤ n) && decide (n ≤ 0xCE)) || (decide (0xE0 ≤ n) && decide (n ≤ 0xE4))

/-- The opcode belongs to the MCC alone (R52). -/
def opcMcc (n : Nat) : Bool := (decide (0xB0 ≤ n) && decide (n ≤ 0xBE)) || (decide (0xC0 ≤ n) && decide (n ≤ 0xCE))

/-- The opcode has a compact form (R30). -/
def opcCompact (n : Nat) : Bool :=
  [0x01, 0x02, 0x05, 0x06, 0x07, 0x08, 0x09, 0x20, 0x21, 0x2A, 0x2B, 0x2C, 0x2D, 0x2E, 0x36, 0x40, 0x42].contains n

/-! ### Where the instruction is decoded -/

/-- What decoding depends on beside the words: the agent (R52), the kernel's REGS and ACCS (R158), whether the course runs
a handler and whether its lanes' guards differ (R406), the instruction's place in its chain (R46), and whether the kernel
has a gang, and one that tiles into trusses (R186, R356). -/
structure DCtx where
  mcc : Bool := false
  regs : Nat := 240
  accs : Nat := 8
  handler : Bool := false
  diverges : Bool := false
  chainPos : Nat := 0
  gang : Bool := true
  truss : Bool := true
  deriving DecidableEq, Repr, Inhabited

/-- R158: an operand names a register beyond REGS or ACCS. -/
def Opnd.beyond (c : DCtx) (w : Nat) : Opnd → Bool
  | .v n => decide (c.regs ≤ n.val + (w / 32 - 1))
  | .k n => decide (c.accs ≤ n.val)
  | _ => false

/-- R406: what a handler may not execute. RFT and RQSET are refused outside one. -/
def Instr.handlerBad (c : DCtx) : Instr → Bool
  | .rft .. | .rqset .. => !c.handler
  | .reform .. | .reformC .. | .yield .. | .yieldC .. | .bar .. | .barC .. | .gbar .. | .wait .. | .exit .. | .exitC ..
  | .dlaunch .. | .qpush .. => c.handler
  | .xbar _ (.wait _) _ _ => c.handler
  | .qpop _ _ _ _ _ t => c.handler && !t
  | .bra .. | .braC .. | .brx .. | .call .. | .ret .. | .retC .. => c.handler && c.diverges
  | _ => false

/-- What a kernel's gang makes illegal: GBAR without a gang (R186), TMMA and TSYNC without whole trusses (R356). -/
def Instr.gangBad (c : DCtx) : Instr → Bool
  | .gbar .. => !c.gang
  | .tmma .. | .tsync => !c.truss
  | _ => false

/-- The first reason of a list that holds (R53). -/
def firstReason : List (Nat × Bool) → Option Nat
  | [] => none
  | (n, true) :: _ => some n
  | (_, false) :: l => firstReason l

/-- A bit outside the defined ones is set (R34). -/
def extraBits (n mask w : Nat) : Bool := n &&& (2 ^ w - 1 - mask) != 0

/-- The operand fields of the words hold code 0x1FF (R25). -/
def hasLit (f : XF) (rs : Option Nat) : Bool := f.dx == 0x1FF || f.s0 == 0x1FF || f.s1 == 0x1FF || f.s2 == 0x1FF || rs == some 0x1FF

/-- The literal's upper half is ill-formed in a 32-bit position (R26). -/
def litBad32 (lit : Option W64) (ps : List Pos) : Bool :=
  match lit with
  | none => false
  | some x => (ps.any fun p => p.x == .lit && p.cls.w == 32 && !p.dst) && !litOk32 x

/-- An operand field holds a reserved code (R36). -/
def hasReserved (f : XF) (rs : Option Nat) : Bool :=
  (Opnd.ofCode f.dx).isNone || (Opnd.ofCode f.s0).isNone || (Opnd.ofCode f.s1).isNone || (Opnd.ofCode f.s2).isNone ||
  (match rs with | some r => (Opnd.ofCode r).isNone | none => false)

/-- A position takes no such operand (R37, R38, R158). -/
def Pos.five (c : DCtx) (p : Pos) : Bool :=
  p.cls.fault p.x == 5 || p.x.beyond c p.cls.w

/-- R264: a stream instruction names its port in MODC, and a q code in any operand field is ILLEGAL, one it does not use too. -/
def streamQ (f : XF) : Bool :=
  decide (0x80 ≤ f.opc) && decide (f.opc ≤ 0x86) && [f.dx, f.s0, f.s1, f.s2].any fun n =>
    match Opnd.ofCode n with | some (.q _) => true | _ => false

/-- The reason an extended thread instruction is ILLEGAL, if it is (R53); 1 and 6 are tested before. -/
def threadReason (c : DCtx) (h : Hd) (f : XF) (a : Arm) : Option Nat :=
  let ps := a.i.pos
  firstReason [
    (7, (h.lit.isSome != hasLit f a.rs) || litBad32 h.lit ps),
    (8, h.chain && (!a.i.chainOk || decide (15 ≤ c.chainPos))),
    (0xB, a.i.handlerBad c),
    (4, hasReserved f a.rs),
    (5, ps.any (Pos.five c) || streamQ f),
    (0xA, ps.any fun p => p.cls.fault p.x == 10),
    (3, (!a.ud && f.dx != 0) || (!a.u0 && f.s0 != 0) || (!a.u1 && f.s1 != 0) || (!a.u2 && f.s2 != 0) || extraBits f.moda a.am 7 ||
        extraBits f.modb a.bm 5 || extraBits f.modc a.cm 32 || (h.wbs && !a.i.wbsOk) || a.three || !a.i.threeOk),
    (9, (h.pred == 7 && h.pneg) || a.nine || !a.i.nineOk || a.i.gangBad c)]

/-- Reason 5 of an MCC instruction's fields: a code that R42 does not list, in any of them, or another code than 0x000 where a row of the tables of
R345 and R350 writes 0 (R344). The tables of R345 have no column for SRC2, and NOP has no row: their unused fields are of R34. -/
def mccFive (f : XF) (a : Arm) : Bool :=
  [f.dx, f.s0, f.s1, f.s2].any (fun n => (MOpnd.ofCode n).isNone) ||
  (f.opc != 1 && ((!a.ud && f.dx != 0) || (!a.u0 && f.s0 != 0) || (!a.u1 && f.s1 != 0))) || (decide (0xC0 ≤ f.opc) && !a.u2 && f.s2 != 0)

/-- The reason an MCC instruction is ILLEGAL, if it is. -/
def mccReason (c : DCtx) (lit : Option W64) (f : XF) (a : Arm) : Option Nat :=
  firstReason [
    (7, lit.isSome != hasLit f none),
    (5, a.five || mccFive f a || a.i.mpos.any fun p => !p.2.ok p.1),
    (3, (!a.ud && f.dx != 0) || (!a.u0 && f.s0 != 0) || (!a.u1 && f.s1 != 0) || (!a.u2 && f.s2 != 0) || extraBits f.moda a.am 7 ||
        extraBits f.modb a.bm 5 || extraBits f.modc a.cm 32 || a.three || !a.i.threeOk),
    (9, a.nine || !a.i.nineOk || a.i.gangBad c)]

/-- The reason a compact instruction is ILLEGAL, if it is; 1, 6 and 2 are tested before. Bits 31:23 are
SRC0 in every form but BRA (R29), whether the form uses it or marks it zero. -/
def compactReason (c : DCtx) (h : Ch) (i : Instr) (bad3 : Bool) (opc src : Nat) : Option Nat :=
  let ps := i.pos
  let uses : Bool := opc != 2
  firstReason [
    (7, (h.lit.isSome != (uses && src == 0x1FF)) || litBad32 h.lit ps),
    (8, h.chain && (!i.chainOk || decide (15 ≤ c.chainPos))),
    (0xB, i.handlerBad c),
    (4, uses && !c.mcc && (Opnd.ofCode src).isNone),
    (5, ps.any (Pos.five c) || (c.mcc && (MOpnd.ofCode src).isNone)),
    (0xA, ps.any fun p => p.cls.fault p.x == 10),
    (3, bad3),
    (9, (h.pred == 7 && h.pneg) || !i.nineOk)]

/-- What decoding answers: an instruction, the reason of ILLEGAL (R53), or too few bytes for the length of R24. -/
inductive Dec where
  | ok (i : Instr)
  | illegal (reason : Nat)
  | short
  deriving DecidableEq, Repr

/-- Extended words decoded: w0, w1, w2 and the literal. -/
def decodeExt (c : DCtx) (w0 w1 w2 : Nat) (lit : Option W64) : Dec :=
  let f : XF := { opc := fld w0 9 2, moda := fld w0 31 25, dx := fld w0 24 16, modb := fld w1 31 27, s2 := fld w1 26 18,
                  s1 := fld w1 17 9, s0 := fld w1 8 0, modc := w2 }
  let h : Hd := ⟨bt w0 14, bt w0 13, fin 8 (fld w0 12 10), bt w0 15, lit⟩
  if c.mcc then
    if h.pred != 7 || h.pneg || h.chain || h.wbs then .illegal 6
    else match armMcc lit f with
      | none => .illegal 1
      | some a => match mccReason c lit f a with
        | some r => .illegal r
        | none => .ok a.i
  else match armThread h f with
    | none => .illegal 1
    | some a => match threadReason c h f a with
      | some r => .illegal r
      | none => .ok a.i

/-- A compact word decoded. -/
def decodeCompact (c : DCtx) (w0 : Nat) (lit : Option W64) : Dec :=
  let h : Ch := ⟨bt w0 14, bt w0 13, fin 8 (fld w0 12 10), lit⟩
  let opc := fld w0 9 2
  if c.mcc && (h.pred != 7 || h.pneg || h.chain) then .illegal 6
  else match armCompact h opc (fld w0 31 15) with
    | none => .illegal 2
    | some (i, bad3) => match compactReason c h i bad3 opc (fld w0 31 23) with
      | some r => .illegal r
      | none => .ok i

/-- Instruction words decoded (R24, R25, R53). -/
def decodeWords (c : DCtx) (ws : List Nat) : Dec :=
  match ws with
  | [] => .short
  | w0 :: rest =>
    let opc := fld w0 9 2
    let l (a b : Nat) : W64 := .ofNat 64 (a + 2 ^ 32 * b)
    let bad : Option Nat := firstReason [(1, !opcAssigned opc), (6, opc != 1 && opcMcc opc != c.mcc)]
    match fld w0 1 0, rest with
    | 0, _ => match bad with
      | some r => .illegal r
      | none => decodeCompact c w0 none
    | 2, a :: b :: _ => match bad with
      | some r => .illegal r
      | none => decodeCompact c w0 (some (l a b))
    | 1, w1 :: w2 :: _ => match bad with
      | some r => .illegal r
      | none => decodeExt c w0 w1 w2 none
    | 3, w1 :: w2 :: a :: b :: _ => match bad with
      | some r => .illegal r
      | none => decodeExt c w0 w1 w2 (some (l a b))
    | _, _ => .short

/-- The words of a LEN field (R24). -/
def lenWords (w0 : Nat) : Nat :=
  match fld w0 1 0 with
  | 0 => 1
  | 3 => 5
  | _ => 3

/-- A 32-bit little-endian word of four bytes (R24). -/
def wordOf (b : List Byte) : Nat :=
  match b with
  | [a, b, c, d] => a.toNat + 2 ^ 8 * b.toNat + 2 ^ 16 * c.toNat + 2 ^ 24 * d.toNat
  | _ => 0

/-- The words of a list of bytes; a last incomplete word is dropped. -/
def wordsOf : List Byte → List Nat
  | a :: b :: c :: d :: t => wordOf [a, b, c, d] :: wordsOf t
  | _ => []

/-- Instruction bytes decoded, in the place c describes. -/
def decode (c : DCtx) (bs : List Byte) : Dec := decodeWords c (wordsOf bs)

/-! ### The encoder -/

/-- The opcode, and bits 31:15, of a compact instruction (R29, R30). -/
def encCompact : Instr → Option (Nat × Nat)
  | .nopC _ => some (0x01, 0)
  | .braC _ off => some (0x02, off.toNat)
  | .retC _ => some (0x05, 0)
  | .exitC _ => some (0x06, 0)
  | .reformC _ => some (0x07, 0)
  | .yieldC _ => some (0x08, 0)
  | .barC _ s => some (0x09, 256 * s.code)
  | .iaddC _ d s => some (0x20, d.code + 256 * s.code)
  | .isubC _ d s => some (0x21, d.code + 256 * s.code)
  | .andC _ d s => some (0x2A, d.code + 256 * s.code)
  | .orC _ d s => some (0x2B, d.code + 256 * s.code)
  | .xorC _ d s => some (0x2C, d.code + 256 * s.code)
  | .shlC _ d s => some (0x2D, d.code + 256 * s.code)
  | .shrC _ d s => some (0x2E, d.code + 256 * s.code)
  | .movC _ d s => some (0x36, d.code + 256 * s.code)
  | .faddC _ d s => some (0x40, d.code + 256 * s.code)
  | .fmulC _ d s => some (0x42, d.code + 256 * s.code)
  | _ => none

/-- MODA of a signed, saturating integer instruction (R189). -/
def usMod (u sat : Bool) : Nat := 8 * bn u + 16 * bn sat

/-- The address fields of a memory instruction placed in the words. -/
def memX (opc : Nat) (m : MemF) (d s1 s2 modb : Nat) : XF :=
  { opc := opc, moda := m.role, dx := d, modb := modb, s2 := s2, s1 := s1, s0 := m.base.code, modc := m.modc }

/-- A conversion's fields (R203). -/
def cvtX (opc : Nat) (d a : Opnd) (df sf : Fmt) (e : BitVec 3) (u : Bool) (r : Rnd) : XF :=
  { opc := opc, moda := r.enc.1 + 8 * bn u, dx := d.code, s0 := a.code,
    modc := r.enc.2 + 2 ^ 12 * sf.code + 2 ^ 16 * df.code + 2 ^ 21 * e.toNat }

/-- The fields of a copy (R273, R274). -/
def cpyX (opc : Nat) (f : CpyF) (s d x : Opnd) (modb : Nat) : XF :=
  { opc := opc, moda := f.moda, modb := modb, s0 := s.code, s1 := d.code, s2 := x.code, modc := f.modc }

/-- The fields of an extended instruction: 0x01 to 0x65. -/
def encCompute : Instr → Option XF
  | .nop _ => some { opc := 0x01 }
  | .bra _ off => some { opc := 0x02, modc := off.toNat }
  | .brx _ a => some { opc := 0x03, s0 := a.code }
  | .call _ d (.direct off) => some { opc := 0x04, dx := d.code, modc := off.toNat }
  | .call _ d (.ind a) => some { opc := 0x04, moda := 1, dx := d.code, s0 := a.code }
  | .ret _ a => some { opc := 0x05, s0 := a.code }
  | .exit _ => some { opc := 0x06 }
  | .reform _ => some { opc := 0x07 }
  | .yield _ => some { opc := 0x08 }
  | .bar _ i arv c => some { opc := 0x09, moda := bn arv, s0 := i.code, modc := c.toNat }
  | .gbar _ arv => some { opc := 0x0A, moda := bn arv }
  | .wait _ a x sp sc => some { opc := 0x0B, moda := bn sp + 2 * sc.code, s0 := a.code, s1 := x.code }
  | .trap _ a => some { opc := 0x0C, s0 := a.code }
  | .brk _ n => some { opc := 0x0D, modc := n.toNat }
  | .rft _ => some { opc := 0x0E }
  | .rdsr _ d r => some { opc := 0x0F, dx := d.code, modc := r.code }
  | .wrsr _ r a => some { opc := 0x10, s0 := a.code, modc := r.code }
  | .rqset _ .cancel i => some { opc := 0x11, moda := 0, modc := i.val }
  | .rqset _ .done i => some { opc := 0x11, moda := 1, modc := i.val }
  | .rqset _ (.op w n a) i => some { opc := 0x11, moda := 2, s0 := a.code, modc := i.val + 8 * bn w + 32 * n.val }
  | .rqset _ (.res w a) i => some { opc := 0x11, moda := 3, s0 := a.code, modc := i.val + 8 * w.val }
  | .dlaunch _ d a n => some { opc := 0x12, dx := d.code, s0 := a.code, modc := n.toNat }
  | .iadd _ d a b u s => some { opc := 0x20, moda := usMod u s, dx := d.code, s1 := a.code, s0 := b.code }
  | .isub _ d a b u s => some { opc := 0x21, moda := usMod u s, dx := d.code, s1 := a.code, s0 := b.code }
  | .imul _ d a b u s => some { opc := 0x22, moda := usMod u s, dx := d.code, s1 := a.code, s0 := b.code }
  | .imulh _ d a b u => some { opc := 0x23, moda := usMod u false, dx := d.code, s1 := a.code, s0 := b.code }
  | .imad _ d a b c u s => some { opc := 0x24, moda := usMod u s, dx := d.code, s0 := a.code, s1 := b.code, s2 := c.code }
  | .imin _ d a b u => some { opc := 0x25, moda := usMod u false, dx := d.code, s1 := a.code, s0 := b.code }
  | .imax _ d a b u => some { opc := 0x26, moda := usMod u false, dx := d.code, s1 := a.code, s0 := b.code }
  | .iabs _ d a s => some { opc := 0x27, moda := usMod false s, dx := d.code, s0 := a.code }
  | .iadd64 _ d a b u s => some { opc := 0x28, moda := usMod u s, dx := d.code, s1 := a.code, s0 := b.code }
  | .lea _ d a b u sh => some { opc := 0x29, moda := usMod u false + sh.toNat, dx := d.code, s1 := a.code, s0 := b.code }
  | .and _ d a b nb => some { opc := 0x2A, moda := bn nb, dx := d.code, s1 := a.code, s0 := b.code }
  | .or _ d a b nb => some { opc := 0x2B, moda := bn nb, dx := d.code, s1 := a.code, s0 := b.code }
  | .xor _ d a b nb => some { opc := 0x2C, moda := bn nb, dx := d.code, s1 := a.code, s0 := b.code }
  | .shl _ d a b => some { opc := 0x2D, dx := d.code, s1 := a.code, s0 := b.code }
  | .shr _ d a b => some { opc := 0x2E, dx := d.code, s1 := a.code, s0 := b.code }
  | .sar _ d a b => some { opc := 0x2F, dx := d.code, s1 := a.code, s0 := b.code }
  | .shf _ d lo hi s l => some { opc := 0x30, moda := bn l, dx := d.code, s0 := lo.code, s1 := hi.code, s2 := s.code }
  | .bfx _ d a pl u => some { opc := 0x31, moda := usMod u false, dx := d.code, s1 := a.code, s0 := pl.code }
  | .bfi _ d a ins pl => some { opc := 0x32, dx := d.code, s0 := a.code, s1 := ins.code, s2 := pl.code }
  | .popc _ d a => some { opc := 0x33, dx := d.code, s0 := a.code }
  | .clz _ d a => some { opc := 0x34, dx := d.code, s0 := a.code }
  | .brev _ d a => some { opc := 0x35, dx := d.code, s0 := a.code }
  | .mov _ d a => some { opc := 0x36, dx := d.code, s0 := a.code }
  | .movl _ d a => some { opc := 0x37, dx := d.code, s0 := a.code }
  | .sel _ d a b ps psn => some { opc := 0x38, moda := ps.val + 8 * bn psn, dx := d.code, s1 := a.code, s0 := b.code }
  | .icmp _ pd d a b u cmp =>
    some { opc := 0x39, moda := cmp.code + 8 * bn u + 16 * pd.val, dx := d.code, s1 := a.code, s0 := b.code }
  | .idiv _ d a b u => some { opc := 0x3A, moda := usMod u false, dx := d.code, s1 := a.code, s0 := b.code }
  | .irem _ d a b u => some { opc := 0x3B, moda := usMod u false, dx := d.code, s1 := a.code, s0 := b.code }
  | .prmt _ d a b c => some { opc := 0x3C, dx := d.code, s0 := a.code, s1 := b.code, s2 := c.code }
  | .fadd _ d a b r m =>
    some { opc := 0x40, moda := r.enc.1, dx := d.code, modb := m.enc, s1 := a.code, s0 := b.code, modc := r.enc.2 }
  | .fsub _ d a b r m =>
    some { opc := 0x41, moda := r.enc.1, dx := d.code, modb := m.enc, s1 := a.code, s0 := b.code, modc := r.enc.2 }
  | .fmul _ d a b r m =>
    some { opc := 0x42, moda := r.enc.1, dx := d.code, modb := m.enc, s1 := a.code, s0 := b.code, modc := r.enc.2 }
  | .ffma _ d a b c r m n2 =>
    some { opc := 0x43, moda := r.enc.1, dx := d.code, modb := m.enc + 4 * bn n2, s0 := a.code, s1 := b.code, s2 := c.code,
           modc := r.enc.2 }
  | .fmin _ d a b ⟨r, m⟩ =>
    some { opc := 0x44, dx := d.code, moda := r.enc.1, modb := m.enc, s1 := a.code, s0 := b.code, modc := r.enc.2 }
  | .fmax _ d a b ⟨r, m⟩ =>
    some { opc := 0x45, dx := d.code, moda := r.enc.1, modb := m.enc, s1 := a.code, s0 := b.code, modc := r.enc.2 }
  | .fcmp _ pd d a b cmp m =>
    some { opc := 0x46, moda := cmp.code + 16 * pd.val, dx := d.code, modb := m.enc, s1 := a.code, s0 := b.code }
  | .fclass _ d ⟨a, r⟩ => some { opc := 0x47, dx := d.code, moda := r.enc.1, s0 := a.code, modc := r.enc.2 }
  | .fdiv _ d a b r m =>
    some { opc := 0x48, moda := r.enc.1, dx := d.code, modb := m.enc, s1 := a.code, s0 := b.code, modc := r.enc.2 }
  | .fsqrt _ d a r n0 a0 =>
    some { opc := 0x49, moda := r.enc.1, dx := d.code, modb := bn n0 + 8 * bn a0, s0 := a.code, modc := r.enc.2 }
  | .frcp _ d a n0 a0 => some { opc := 0x4A, dx := d.code, modb := bn n0 + 8 * bn a0, s0 := a.code }
  | .frsq _ d a n0 a0 => some { opc := 0x4B, dx := d.code, modb := bn n0 + 8 * bn a0, s0 := a.code }
  | .fexp2 _ d a n0 a0 => some { opc := 0x4C, dx := d.code, modb := bn n0 + 8 * bn a0, s0 := a.code }
  | .flog2 _ d a n0 a0 => some { opc := 0x4D, dx := d.code, modb := bn n0 + 8 * bn a0, s0 := a.code }
  | .fsin _ d a n0 a0 => some { opc := 0x4E, dx := d.code, modb := bn n0 + 8 * bn a0, s0 := a.code }
  | .fcos _ d a n0 a0 => some { opc := 0x4F, dx := d.code, modb := bn n0 + 8 * bn a0, s0 := a.code }
  | .ftanh _ d a n0 a0 => some { opc := 0x50, dx := d.code, modb := bn n0 + 8 * bn a0, s0 := a.code }
  | .fcvt _ d a df sf e r => some (cvtX 0x51 d a df sf e false r)
  | .i2f _ d a df sf e u r => some (cvtX 0x52 d a df sf e u r)
  | .f2i _ d a df sf e u r => some (cvtX 0x53 d a df sf e u r)
  | .pfop _ d a b op bf r m =>
    let base : Nat := r.enc.2 + 2 ^ 12 * bn bf
    let two (n : Nat) : XF := { opc := 0x54, moda := r.enc.1, dx := d.code, modb := m.enc, s1 := a.code, s0 := b.code,
                                modc := base + 512 * n }
    some (match op with
    | .add => two 0
    | .mul => two 1
    | .min => two 3
    | .max => two 4
    | .fma c n2 => { opc := 0x54, moda := r.enc.1, dx := d.code, modb := m.enc + 4 * bn n2, s0 := a.code, s1 := b.code,
                     s2 := c.code, modc := base + 512 * 2 })
  | .frnd _ d a r n0 a0 =>
    some { opc := 0x55, moda := r.enc.1, dx := d.code, modb := bn n0 + 8 * bn a0, s0 := a.code, modc := r.enc.2 }
  | .fscale _ d a n r n1 a1 =>
    some { opc := 0x56, moda := r.enc.1, dx := d.code, modb := 2 * bn n1 + 16 * bn a1, s1 := a.code, s0 := n.code, modc := r.enc.2 }
  | .plop _ pd pa pb pc lut =>
    some { opc := 0x60, moda := 16 * pd.val, modc := lut.toNat + 2 ^ 8 * pa.val + 2 ^ 11 * pb.val + 2 ^ 14 * pc.val }
  | .pmov _ (.inl d) => some { opc := 0x61, dx := d.code }
  | .pmov _ (.inr (a, m)) => some { opc := 0x61, moda := 1, s0 := a.code, modc := m.toNat }
  | .vote _ mo pd d ps psn => some { opc := 0x62, moda := mo.code + 16 * pd.val, dx := d.code, modc := ps.val + 8 * bn psn }
  | .shfl _ mo w pd d a b =>
    some { opc := 0x63, moda := mo.code + 16 * pd.val, dx := d.code, s1 := a.code, s0 := b.code, modc := w.code }
  | .match_ _ all w pd d a => some { opc := 0x64, moda := bn w + 2 * bn all + 16 * pd.val, dx := d.code, s0 := a.code }
  | .cred _ op u d a => some { opc := 0x65, moda := op.code + 8 * bn u, dx := d.code, s0 := a.code }
  | _ => none

/-- The fields of an extended instruction: 0x70 to 0xA7 and 0xE0 to 0xE4. -/
def encMemory : Instr → Option XF
  | .ld _ d m sx => some (memX 0x70 m d.code 0 m.s2 (bn sx))
  | .st _ m a => some (memX 0x71 m 0 a.code m.s2 0)
  | .ldc _ d m sx => some (memX 0x72 m d.code 0 m.s2 (bn sx))
  | .atom _ op u d m a => some (memX 0x73 m d.code a.code m.s2 (op.code + 8 * bn u))
  | .cas _ pd d m x y => some (memX 0x74 m d.code x.code y.code pd.val)
  | .fence _ k sc ro => some { opc := 0x75, moda := k.code + 4 * sc.code + 16 * bn ro }
  | .afence _ => some { opc := 0x76 }
  | .cinv _ => some { opc := 0x77 }
  | .pref _ m => some (memX 0x78 m 0 0 m.s2 0)
  | .qpush _ n a w => some { opc := 0x79, moda := bn w, s0 := n.code, s1 := a.code }
  | .qpop _ pd d n w t => some { opc := 0x7A, moda := bn w + 2 * bn t + 16 * pd.val, dx := d.code, s0 := n.code }
  | .rng _ c d x =>
    some { opc := 0x7B, moda := c.code + 4 * bn x.isSome, dx := d.code, s0 := match x with | some a => a.code | none => 0 }
  | .probe _ pd d m => some (memX 0x7C m d.code 0 m.s2 pd.val)
  | .xbar _ (.init n) a off => some { opc := 0x7D, moda := 0x70, s0 := a.code, s1 := n.code, modc := off.toNat }
  | .xbar _ (.arrive d) a off => some { opc := 0x7D, moda := 0x71, dx := d.code, s0 := a.code, modc := off.toNat }
  | .xbar _ (.expect d b) a off =>
    some { opc := 0x7D, moda := 0x72, dx := d.code, s0 := a.code, s1 := b.code, modc := off.toNat }
  | .xbar _ (.wait ph) a off => some { opc := 0x7D, moda := 0x73, s0 := a.code, s1 := ph.code, modc := off.toNat }
  | .xbar _ (.test pd d ph) a off =>
    some { opc := 0x7D, moda := 4 + 16 * pd.val, dx := d.code, s0 := a.code, s1 := ph.code, modc := off.toNat }
  | .sopen _ p a off io o64 =>
    some { opc := 0x80, moda := bn o64 + 2 * bn io.isSome, s0 := a.code, s1 := off.code,
           s2 := (match io with | some x => x.code | none => 0), modc := p.val }
  | .sclose _ p => some { opc := 0x81, modc := p.val }
  | .sskip _ p n w => some { opc := 0x82, moda := 4 * bn w, s0 := n.code, modc := p.val }
  | .spos _ p d w => some { opc := 0x83, moda := 4 * bn w, dx := d.code, modc := p.val }
  | .stest _ p pd d .eos clr => some { opc := 0x84, moda := 8 * bn clr + 16 * pd.val, dx := d.code, modc := p.val }
  | .stest _ p pd d (.left w) clr =>
    some { opc := 0x84, moda := 1 + 4 * bn w + 8 * bn clr + 16 * pd.val, dx := d.code, modc := p.val }
  | .sseek _ p x w => some { opc := 0x85, moda := 4 * bn w, s0 := x.code, modc := p.val }
  | .scfg _ p f x => some { opc := 0x86, moda := f.code, s0 := x.code, modc := p.val }
  | .accz _ k => some { opc := 0x88, dx := k.code }
  | .accadd _ k a fa e u neg =>
    some { opc := 0x89, moda := bn neg, dx := k.code, s0 := a.code, modc := 2 ^ 12 * fa.code + 2 ^ 20 * bn u + 2 ^ 21 * e.toNat }
  | .accmac _ k a b fa fb e u neg =>
    some { opc := 0x8A, moda := bn neg, dx := k.code, s0 := a.code, s1 := b.code,
           modc := 2 ^ 12 * fa.code + 2 ^ 16 * fb.code + 2 ^ 20 * bn u + 2 ^ 21 * e.toNat }
  | .accdot _ k a b fa fb u neg =>
    some { opc := 0x8B, moda := bn neg, dx := k.code, s0 := a.code, s1 := b.code,
           modc := 2 ^ 12 * fa.code + 2 ^ 16 * fb.code + 2 ^ 20 * bn u }
  | .accneg _ d k => some { opc := 0x8C, dx := d.code, s0 := k.code }
  | .accscl _ d k n => some { opc := 0x8D, dx := d.code, s0 := k.code, s1 := n.code }
  | .accmov _ d k => some { opc := 0x8E, dx := d.code, s0 := k.code }
  | .accnorm _ d k => some { opc := 0x8F, dx := d.code, s0 := k.code }
  | .accrnd _ d k f u r =>
    some { opc := 0x90, moda := r.enc.1 + 8 * bn u, dx := d.code, s0 := k.code, modc := r.enc.2 + 2 ^ 16 * f.code }
  | .accrds _ d k s => some { opc := 0x91, dx := d.code, s0 := k.code, modc := s.code }
  | .accwrs _ k a s => some { opc := 0x92, dx := k.code, s0 := a.code, modc := s.code }
  | .accred _ d k w => some { opc := 0x93, dx := d.code, s0 := k.code, modc := w.code }
  | .accld _ k m => some (memX 0x94 m k.code 0 m.s2 0)
  | .accst _ m k => some (memX 0x95 m 0 k.code m.s2 0)
  | .aacc _ m (.elem f a) => some (memX 0x96 m 0 a.code m.s2 f.code)
  | .aacc _ m (.acc k) => some (memX 0x96 m 0 k.code m.s2 16)
  | .amac _ m a b f neg => some (memX 0x97 m 0 a.code b.code (f.code + 16 * bn neg))
  | .acctest _ (.flg k) pd d a => some { opc := 0x98, moda := 16 * pd.val, dx := d.code, s0 := a.code, modc := k.toNat }
  | .acctest _ .neg pd d a => some { opc := 0x98, moda := 1 + 16 * pd.val, dx := d.code, s0 := a.code }
  | .acctest _ .zero pd d a => some { opc := 0x98, moda := 2 + 16 * pd.val, dx := d.code, s0 := a.code }
  | .accaddk _ d k neg => some { opc := 0x99, moda := bn neg, dx := d.code, s0 := k.code }
  | .cpy _ f s d x => some (cpyX 0xA0 f s d x 0)
  | .cpyg _ f s d x => some (cpyX 0xA1 f s d x 0)
  | .cpys _ f s d x => some (cpyX 0xA2 f s d x 0)
  | .cpym _ f s r x => some (cpyX 0xA3 f s r x 0)
  | .cpya _ f .line s d x => some (cpyX 0xA4 f s d x 16)
  | .cpya _ f (.elem g) s d x => some (cpyX 0xA4 f s d x g.code)
  | .publish _ b n x =>
    some { opc := 0xA5, s0 := b.code, s1 := n.code, s2 := (match x with | some y => y.code | none => 0),
           modc := if x.isSome then 2 ^ 29 + 2 ^ 16 else 0 }
  | .cpyq _ d w => some { opc := 0xA6, moda := bn w, dx := d.code }
  | .cpyx _ f e s d x => some (cpyX 0xA7 f s d x e.val)
  | .rpopen _ d n => some { opc := 0xE0, dx := d.code, s0 := n.code }
  | .rpseal _ d n => some { opc := 0xE1, dx := d.code, s0 := n.code }
  | .ctrrd _ d act g c => some { opc := 0xE2, moda := bn act, dx := d.code, modc := c.toNat + 8 * g.toNat }
  | .pmark _ t a => some { opc := 0xE3, s0 := a.code, modc := t.toNat }
  | .tsrd _ d o => some { opc := 0xE4, moda := bn o, dx := d.code }
  | _ => none

/-- The codes of the tile registers and of x registers (R42). -/
def xc (n : Fin 32) : Nat := n.val
def tcc (n : Fin 2) : Nat := 0x28 + n.val
def tac (n : Fin 4) : Nat := 0x20 + n.val
def tbc (n : Fin 4) : Nat := 0x24 + n.val

/-- The fields of an MCC instruction: 0xB0 to 0xCE. -/
def encMcc : Instr → Option XF
  | .xadd _ d a b => some { opc := 0xB0, dx := xc d, s1 := a.code, s0 := b.code }
  | .xsub _ d a b => some { opc := 0xB1, dx := xc d, s1 := a.code, s0 := b.code }
  | .xmul _ d a b .lo => some { opc := 0xB2, dx := xc d, s1 := a.code, s0 := b.code }
  | .xmul _ d a b (.hi u) => some { opc := 0xB2, moda := bn u + 2, dx := xc d, s1 := a.code, s0 := b.code }
  | .xlog _ op d a b => some { opc := 0xB3, moda := op.code, dx := xc d, s1 := a.code, s0 := b.code }
  | .xshf _ op d a b => some { opc := 0xB4, moda := op.code, dx := xc d, s1 := a.code, s0 := b.code }
  | .xmov _ d a => some { opc := 0xB5, dx := xc d, s0 := a.code }
  | .xmovl d hi x => some { opc := 0xB6, moda := bn hi, dx := xc d, modc := x.toNat }
  | .xcmp _ cmp u d a b => some { opc := 0xB7, moda := cmp.code + 8 * bn u, dx := xc d, s1 := a.code, s0 := b.code }
  | .xbr _ c a off => some { opc := 0xB8, moda := c.code, s0 := a.code, modc := off.toNat }
  | .xloop x off => some { opc := 0xB9, dx := xc x, s0 := xc x, modc := off.toNat }
  | .xld _ d m sx => some { opc := 0xBA, dx := xc d, modb := bn sx, s0 := m.base.code, modc := m.modc }
  | .xst _ m a => some { opc := 0xBB, s0 := m.base.code, s1 := a.code, modc := m.modc }
  | .xjmp _ l (.direct off) =>
    some { opc := 0xBC, moda := 2 * bn l.isSome, dx := (match l with | some d => xc d | none => 0), modc := off.toNat }
  | .xjmp _ l (.ind a) =>
    some { opc := 0xBC, moda := 1 + 2 * bn l.isSome, dx := (match l with | some d => xc d | none => 0), s0 := a.code }
  | .xsig _ (.signal a x) => some { opc := 0xBD, s0 := a.base.code, s1 := x.code, modc := a.modc }
  | .xsig _ (.signalEnd a x) => some { opc := 0xBD, moda := 1, s0 := a.base.code, s1 := x.code, modc := a.modc }
  | .xsig _ .halt => some { opc := 0xBD, moda := 2 }
  | .xwait _ a x => some { opc := 0xBE, s0 := a.base.code, s1 := x.code, modc := a.modc }
  | .tld _ t o p rb nr =>
    some { opc := 0xC0, dx := (match t with | .ta n => tac n | .tb n => tbc n), s0 := o.code, s1 := p.code,
           modc := rb.toNat + 2 ^ 13 * nr.toNat }
  | .tgath _ f t o i p rb => some { opc := 0xC1, moda := f.code, dx := tac t, s0 := o.code, s1 := i.code, s2 := p.code, modc := rb.toNat }
  | .mma m t a b => some { opc := 0xC2, moda := m.moda, dx := tcc t, s0 := tac a, s1 := tbc b, modc := m.modc }
  | .tmma m t a b => some { opc := 0xC3, moda := m.moda, dx := tcc t, s0 := tac a, s1 := tbc b, modc := m.modc }
  | .tzero t r => some { opc := 0xC4, dx := tcc t, modc := r.modc }
  | .tdrain _ t o p .acc clr r =>
    some { opc := 0xC5, moda := 1 + 2 * bn clr, dx := tcc t, s0 := o.code, s1 := p.code, modc := r.modc }
  | .tdrain _ t o p (.elem f u rm) clr r =>
    some { opc := 0xC5, moda := 2 * bn clr + 4 * bn u + 8 * f.code, dx := tcc t, modb := rm.code, s0 := o.code, s1 := p.code,
           modc := r.modc }
  | .tcode _ t (.global a) => some { opc := 0xC6, dx := 0x2A + t.val, s0 := a.code }
  | .tcode _ t (.own a) => some { opc := 0xC6, moda := 1, dx := 0x2A + t.val, s0 := a.code }
  | .tcode _ t (.lib a) => some { opc := 0xC6, moda := 2, dx := 0x2A + t.val, s0 := a.code }
  | .tscale _ t sp a p => some { opc := 0xC7, moda := bn sp, dx := 0x2E + t.val, s0 := a.code, s1 := p.code }
  | .tqnt _ t o s p f rm clr r =>
    some { opc := 0xC8, moda := 2 * bn clr + 8 * f.code, dx := tcc t, modb := rm.code, s0 := o.code, s1 := s.code, s2 := p.code,
           modc := r.modc }
  | .twalk _ m t d a b => some { opc := 0xC9, moda := m.moda, dx := xc d, modb := t.val, s0 := a.code, s1 := b.code, modc := m.modc }
  | .tresume _ m t d a b => some { opc := 0xCA, moda := m.moda, dx := xc d, modb := t.val, s0 := a.code, s1 := b.code, modc := m.modc }
  | .tstate _ ld o => some { opc := 0xCB, moda := bn ld, s0 := o.code }
  | .tchk d clr => some { opc := 0xCC, moda := bn clr, dx := xc d }
  | .tacc _ t (.tile u) r => some { opc := 0xCD, dx := tcc t, s0 := tcc u, modc := r.modc }
  | .tacc _ t (.lines o p) r => some { opc := 0xCD, moda := 1, dx := tcc t, s0 := o.code, s1 := p.code, modc := r.modc }
  | .tsync => some { opc := 0xCE }
  | _ => none

/-- A first word: LEN, OPC, guard, CHAIN, and what stands above (R29, R33). -/
def firstWord (len opc pred : Nat) (pneg chain : Bool) (top : Nat) : Nat :=
  len + 4 * opc + 2 ^ 10 * pred + 2 ^ 13 * bn pneg + 2 ^ 14 * bn chain + 2 ^ 15 * top

/-- The literal's two words (R25). -/
def litWords : Option W64 → List Nat
  | none => []
  | some x => [x.toNat % 2 ^ 32, x.toNat / 2 ^ 32]

/-- The three words of extended fields (R33), with the literal. -/
def XF.words (f : XF) (h : Hd) : List Nat :=
  [firstWord (if h.lit.isSome then 3 else 1) f.opc h.pred.val h.pneg h.chain (bn h.wbs + 2 * f.dx + 2 ^ 10 * f.moda),
   f.s0 + 2 ^ 9 * f.s1 + 2 ^ 18 * f.s2 + 2 ^ 27 * f.modb, f.modc] ++ litWords h.lit

/-- The words of an instruction; none for an event. -/
def encode (i : Instr) : Option (List Nat) :=
  match i.ch, i.hd with
  | some c, _ => (encCompact i).map fun (opc, top) =>
      firstWord (if c.lit.isSome then 2 else 0) opc c.pred.val c.pneg c.chain top :: litWords c.lit
  | _, some h => ((encCompute i).orElse fun _ => encMemory i).map fun f => f.words h
  | _, _ => (encMcc i).map fun f => f.words ⟨false, false, 7, false, i.mlit⟩

/-- The bytes of words as memory holds them: little-endian (R24). -/
def bytesOf : List Nat → List Byte
  | [] => []
  | w :: t => [.ofNat 8 w, .ofNat 8 (w / 2 ^ 8), .ofNat 8 (w / 2 ^ 16), .ofNat 8 (w / 2 ^ 24)] ++ bytesOf t

/-! ### The opcode table's words -/

/-- The agent that runs an opcode, with every kernel limit at its widest and a handler where one is required. -/
def tableCtx (w : Nat) : DCtx :=
  let opc := fld w 9 2
  { mcc := opcMcc opc, handler := opc == 0x0E || opc == 0x11 }

/-- The words of a number, first word least significant, zeros above nbits, five words. -/
def tableWords (nbits w : Nat) : List Nat :=
  let n := w % 2 ^ nbits
  [n % 2 ^ 32, n / 2 ^ 32 % 2 ^ 32, n / 2 ^ 64 % 2 ^ 32, n / 2 ^ 96 % 2 ^ 32, n / 2 ^ 128 % 2 ^ 32]

/-- The instruction the decoder reads from an instruction whose bits are w, numbered as spec/opcode_table.json numbers
them. -/
def decodeTableWord (nbits w : Nat) : Option Instr :=
  match decode (tableCtx w) (bytesOf (tableWords nbits w)) with
  | .ok i => some i
  | _ => none

end Sys2Proof
end

