-- ==== Sys2Proof/Config.lean ====
section
/-!
DEFINITION. What one implementation fixes and the spec leaves open: the free values. Each is an opaque constant, applied to
what it may depend on or to a counter of the state (State.free), so that no proof can see its value.
-/

namespace Sys2Proof.Config

/-- R104: whether an accumulator is left with every carry zero after an operation that may leave any raw form; applied
to a counter of the state (log 7). -/
opaque rawNorm : Nat → Bool

/-- R129: whether a load that meets a word its core does not own returns that word (log 8). -/
opaque staleL1 : Nat → Bool

/-- R136: whether an LDC that meets a read-only copy newer than the thread's read-only point returns the copy (log 9). -/
opaque staleRo : Nat → Bool

/-- R419: whether a translation cached before a table changed is used until the invalidation completes (log 10). -/
opaque staleXlat : Nat → Bool

/-- R139: the die of a line's home slice (log 11). -/
opaque homeDie : Nat → Fin 4

/-- R304: whether the near slice of a die for a line is the line's home slice (log 11). -/
opaque nearIsHome : Nat → Nat → Bool

/-- A byte whose value the spec leaves open, applied to a counter of the state and the byte's place (log 12). -/
opaque freeByte : Nat → Nat → Byte

/-- A 64-bit value the spec leaves open, applied to a counter of the state: counters of timing events (log 13). -/
opaque freeW64 : Nat → W64

/-- A Boolean the spec leaves open, applied to a counter of the state (log 12). -/
opaque freeBool : Nat → Bool

/-- The data a UALink peer holds, applied to a counter of the state and the address (log 14). -/
opaque peerByte : Nat → Nat → Byte

/-- ECDSA P-384 of R480 and R482, on the hash of the public key, the digest, r and s (log 15). -/
opaque ecdsaVerifies : Nat → List Byte → List Byte → List Byte → Bool

/-- The measurement digests 0x01 to 0x05 of R456 (log 16). -/
opaque measurement : Nat → List Byte

/-- SPDM payloads whose bytes the spec leaves to SPDM 1.3 (certificates, signatures, key exchange), applied to a counter
(log 16). -/
opaque spdmPayload : Nat → List Byte

/-- R387, R390: where firmware places the image of a block it vacates, in units of 64 bytes; applied to a counter of the state and the
block's place in the unit (log 28). -/
opaque imagePlace : Nat → Nat → Nat

/-- R379: the address of the engine's copy of a launch, by partition and launch number (log 47). -/
opaque engineCopy : Nat → Nat → W64

/-- R467, R469: a counter of a timing event, by counter and active cycles of its group (log 13). -/
opaque freeCount : Nat → Nat → W64

end Sys2Proof.Config
end

