-- ==== Sys2Proof/Machine/State.lean ====
section
/-!
DEFINITION. The state of the KW-P4 as plain data: every register, mark, queue and table the spec names, and State.reset, the
device right after a cold start (R479). Files and memories are sparse lists in ascending key order; what is not listed reads
as zero. Cores are numbered 32 * y + x over the logical mesh (R418).
-/

namespace Sys2Proof.Machine

/-! ### Sparse files -/

/-- Bytes by address: the pairs stand in strictly rising order of address, and none holds `Memory.unlisted`. -/
abbrev Memory := List Host.Cell

/-- What a byte that no list names reads as: R479 step 4 scrubs device memory to zero and R167 clears a scratchpad; host
memory follows log 6. -/
def Memory.unlisted : Byte := 0

/-- Words by number, in strictly rising order, none of them zero; a number that is not listed reads as zero. -/
abbrev File (w : Nat) := List (Nat × BitVec w)

/-! ### Long accumulators (R102 to R106) -/

/-- A long accumulator: V as the integer V * 2^320, its flags, and COUNT. The raw carry-save form is not held: R104 leaves it
open, and NORM stands for whether every carry is zero. -/
structure Acc where
  val : Int
  nan : Bool
  pinf : Bool
  ninf : Bool
  ovf : Bool
  poison : Bool
  norm : Bool
  count : W32
  deriving DecidableEq, Repr, Inhabited

/-- The accumulator of a new thread or cell: zero with NORM set (R106). -/
def Acc.zero : Acc :=
  { val := 0, nan := false, pinf := false, ninf := false, ovf := false, poison := false, norm := true, count := 0 }

/-! ### Where an access goes -/

/-- A block by its logical names (R157): partition, launch number, block linear index. -/
structure BKey where
  part : Nat
  lnum : Nat
  bl : Nat
  deriving DecidableEq, Repr, Inhabited

/-- An agent inside the package whose accesses have a program order (R114): a thread, or the MCC of a block. The writes of TDRAIN and, under
`quant`, of TQNT stand apart from the MCC's other accesses, which are not ordered after them (R367). -/
inductive Agent where
  | thread (b : BKey) (tl : Nat)
  | mcc (b : BKey)
  | tile (b : BKey) (quant : Bool)
  deriving DecidableEq, Repr, Inhabited

/-- A location after translation: device memory by the physical address that entries name (the live frame is looked up when
the access is performed, R21), the publication shadow of its page (R287), host memory, a peer (R451), or a byte of a block's
scratchpad. -/
inductive Loc where
  | dev (a : Nat)
  | shadow (a : Nat)
  | host (a : Nat)
  | peer (m : Nat) (a : Nat)
  | scr (b : BKey) (off : Nat)
  deriving DecidableEq, Repr, Inhabited

/-- Data that a peer has answered to a request (R457): the request's number, where it read, the data, and whether it is POISON. -/
structure Resp where
  req : Nat
  loc : Loc
  data : List Byte
  bad : Bool
  deriving DecidableEq, Repr, Inhabited

/-! ### Threads -/

/-- One stream port of a thread (R247). -/
structure Port where
  bound : Bool
  desc : W64
  off : W64
  ioff : W64
  rpos : W64
  wpos : W64
  leno : W64
  fillo : Option W64
  send : W32
  pre : List (W64 × W64)   -- prefetched elements by position (R260)
  deriving DecidableEq, Repr, Inhabited

/-- A port of a new thread (R158). -/
def Port.unbound : Port :=
  { bound := false, desc := 0, off := 0, ioff := 0, rpos := 0, wpos := 0, leno := 0, fillo := none, send := 0,
    pre := [] }

/-- What a thread outside every course waits at (R161, R391). -/
inductive WKind where
  | bar | gbar | wait | xbar | qpop | rpopen | rpseal | cpyq
  deriving DecidableEq, Repr, Inhabited

/-- A waiting thread: its instruction, the operand values it waits with, and the cycle its wait began. `bar` is the barrier
index of a BAR (R391). -/
structure Wait where
  kind : WKind
  i : Instr
  a : W64
  x : W64
  bar : Fin 16
  loc : Option Loc
  since : Nat
  deriving DecidableEq, Repr

/-- Where a thread stands (R161 to R166). -/
inductive TStat where
  | course (id : Nat)
  | bin
  | unfiled
  | waiting (w : Wait)
  | exited
  deriving DecidableEq, Repr

/-- One thread (R158). `poison` holds the marks of R428: v register n as n, o register n as 240 + n. `roPoint` is the event
count at its latest read-only point (R136). -/
structure Thread where
  tl : Nat
  pc : W64
  v : File 32
  o : File 32
  k : List Acc
  preds : BitVec 7
  fpflags : W32
  fptrap : W32
  rngctr : W64
  ports : List Port
  trapcause : W32
  trapmask : W32
  trappc : W32
  trappch : W32
  trapaux : List W32
  poison : List Nat
  roPoint : Nat
  stat : TStat
  deriving DecidableEq, Repr

/-! ### Courses, frames and the replay queue -/

/-- A latch of a course (R44, R45): 64 bits a lane, its validity, and the lanes whose value is poisoned (R428). -/
structure Latch where
  val : List W64
  valid : Bool
  poison : LaneMask
  deriving DecidableEq, Repr, Inhabited

/-- A latch that holds nothing (R158). -/
def Latch.empty : Latch := { val := [], valid := false, poison := 0 }

/-- A push that FPE deferred (R101, R261): its port, its assigned position, its location and its element size. -/
structure Deferred where
  port : Fin 16
  pos : W64
  loc : Loc
  size : Nat
  deriving DecidableEq, Repr, Inhabited

/-- One lane's record of a replay-queue entry (R403). -/
structure LaneEnt where
  member : Bool
  resv : Bool
  isDone : Bool
  cancel : Bool
  effd : Bool
  opcap : BitVec 3
  ops : List W64
  res : BitVec 128
  push : Option Deferred
  deriving DecidableEq, Repr, Inhabited

/-- A lane that was not active for the entry. -/
def LaneEnt.none : LaneEnt :=
  { member := false, resv := false, isDone := false, cancel := false, effd := false, opcap := 0, ops := [], res := 0,
    push := Option.none }

/-- One replay-queue entry (R402). -/
structure RqEntry where
  pc : W64
  words : List W32
  i : Instr
  lanes : List LaneEnt
  deriving DecidableEq, Repr

/-- Handler classes (R399, R403). -/
inductive HClass where
  | none | fp | sdc | trap | sover
  deriving DecidableEq, Repr, Inhabited

/-- The frame of a course (R402). `wait` is the wait to which a thread woken for an SDC returns, and `bin` says that it came
from a bin (R341). -/
structure Frame where
  resume : List W64
  latches : List Latch
  entries : List RqEntry
  hclass : HClass
  inh : Bool
  chain : Nat
  wait : Option Wait
  bin : Bool
  deriving DecidableEq, Repr

/-- A trap on its way to its handler (R400): cause code, lanes, the address of I, the auxiliary words (`aux0` by lane, R410),
whether it was raised inside a handler (R407), and, when I has an entry or does not issue again, its frame's entries and
whether the lanes resume after I; `va` is the address of a stream element that faulted. -/
structure TrapInfo where
  code : Nat
  mask : LaneMask
  pc : W64
  aux0 : List W32
  aux1 : W32
  aux2 : W32
  aux3 : W32
  entries : List RqEntry
  after : Bool
  va : W64 := 0
  deriving DecidableEq, Repr

/-- What holds a course (R163, R399, R402, R408, R457, R477). -/
inductive CStat where
  | ready
  | presence (b : BKey) (line : Nat)            -- R17, R220
  | qpush (q : Nat)                             -- R240: the queue whose entries are all occupied
  | copyEntries (n : Nat)                       -- R272
  | peer (reqs : List Nat)                      -- R457: the responses still awaited
  | pool (page : Nat)                           -- R433: a shadow frame awaited
  | snoop (line : Nat)                          -- R454: the host's response to a BISnpInv awaited
  | drain (sc : Scope)                          -- earlier accesses of its threads still to be performed (R127, R129)
  | frame (t : TrapInfo)                        -- R402: all frames in use
  | trap (t : TrapInfo)                         -- R399: for the supervisor
  | fault (t : TrapInfo) (seq : Option W32)     -- R408: the gutter record, once written
  | debug (t : TrapInfo)                        -- R477
  deriving DecidableEq, Repr

/-- One course (R160 to R163). `chain` counts the instructions of the chain so far (R46); `reinj` are the entries that RFT
still has to run, with `resume` the PCs that follow them (R404); `skipCmp` marks that a comparator DEBUG does not hit again here (R477); `resp` holds peer data that
has arrived for the instruction (R457); `part` the lanes of a waiting QPUSH that have pushed (R240); `again` that its next instruction has issued and waits, so that its next
issue is the same one (R467, R475); `quad` is the quadrant on which it last issued, none since a trap or a restore took it off (R46), `keep` that the
instruction it last issued has CHAIN = 1 (R220), and `flight` that this instruction, or its entry into the pool, is still under way (log 1). -/
structure Course where
  core : Nat
  id : Nat
  slot : Nat
  lanes : List (Option Nat)
  age : Nat
  latches : List Latch
  chain : Nat
  stat : CStat
  frame : Option Frame
  reinj : List RqEntry
  resume : List W64
  yielded : Bool
  skipCmp : Bool
  resp : List Resp
  part : LaneMask
  again : Bool := false
  quad : Option Nat := none
  keep : Bool := false
  flight : Bool := false
  deriving DecidableEq, Repr

/-- One reform bin (R161): the block's slot, the class, the key, its threads with their filing cycles. -/
structure Bin where
  core : Nat
  id : Nat
  slot : Nat
  producer : Bool
  key : W64
  threads : List (Nat × Nat)
  full : Bool            -- an emission of it is due and waits for a course record (R162)
  deriving DecidableEq, Repr, Inhabited

/-! ### Blocks -/

/-- A barrier phase (R393): arrivals, expected count, COUNT, phase open. -/
structure Barrier where
  arr : Nat
  exp : Nat
  cnt : Nat
  isOpen : Bool
  deriving DecidableEq, Repr, Inhabited

/-- No phase open. -/
def Barrier.idle : Barrier := { arr := 0, exp := 0, cnt := 0, isOpen := false }

/-- A live descriptor entry of a block (R251): its address and the 64 bytes as read. -/
structure DescEnt where
  addr : W64
  bytes : List Byte
  deriving DecidableEq, Repr, Inhabited

/-- A push assigned and not yet performed (R257); `n` places it among its thread's outstanding accesses, `grp` is the step that made it (R118),
`thru` that its descriptor's hint keeps a host line out of the near slice (R453). -/
structure Push where
  n : Nat
  grp : Nat := 0
  thru : Bool := false
  tl : Nat
  port : Fin 16
  loc : Loc
  bytes : List Byte
  deriving DecidableEq, Repr, Inhabited

/-- One block, resident (R167, R379). `absent` lists the lines whose presence bit is clear with the copy that cleared each
last (R16, R18). -/
structure Block where
  key : BKey
  core : Nat
  slot : Nat
  role : W32
  gx0 : Nat
  gy0 : Nat
  unit : Nat
  seq : Nat
  b : File 32
  bars : List Barrier
  scratch : Memory
  absent : List (Nat × Nat)
  poison : List Nat
  descs : List DescEnt
  pushes : List Push
  threads : List Thread
  hasMcc : Bool
  sdcsyn : W32
  sdcunit : W32
  sdctile : W32
  deriving DecidableEq, Repr

/-! ### The matrix engine -/

/-- A staged multiply (R329): its fields and origin, and what it reads as it stood at issue: the packed operands, the scale latches
and the tables, with the fields of the core that supplied each side (`fa`, `fb`, R332) and its first K index for the scales. `joint` is the
count of a TMMA, `joined` that its truss has issued it, `step` the walk step. -/
structure Staged where
  m : MulF
  t : Fin 2
  row0 : Nat
  col0 : Nat
  fa : MulF
  fb : MulF
  ka : Nat
  kb : Nat
  a : Memory
  b : Memory
  sa : Memory
  sb : Memory
  cba : File 16
  cbb : File 16
  joint : Option W32
  joined : Bool
  step : Option Nat
  pc : W64
  deriving DecidableEq, Repr, Inhabited

/-- A walk in progress (R334, R362 to R365): the multiply, the tile, the descriptor's bytes and address, the destination and
the budget, and the PCs of the walk and of what follows it. -/
structure Walk where
  m : MulF
  t : Fin 2
  d : Fin 32
  addr : W64
  bytes : List Byte
  budget : W64
  pc : W64
  next : W64
  deriving DecidableEq, Repr, Inhabited

/-- What the MCC does (R325, R342, R394). -/
inductive MStat where
  | running
  | ended
  | xwait (off : Loc) (x : W64)       -- R349
  | tsync                             -- R333
  | stage                             -- R329: a third multiply waits
  | tchk                              -- R366
  | presence (line : Nat)             -- R328
  | peer (reqs : List Nat)            -- R457
  | pool (page : Nat)                 -- R433
  | drain                             -- R327
  | walk                              -- R334
  | fault (seq : Option W32)          -- R342: fault frame filled; the gutter record once written
  | sdc (delivered : Bool)            -- R341
  | vote                              -- R430
  deriving DecidableEq, Repr, Inhabited

/-- The matrix fault frame (R342). -/
structure MFault where
  pc : W64
  cause : Nat
  aux0 : W64
  aux1 : W64
  deriving DecidableEq, Repr, Inhabited

/-- One matrix control core with its engine (R325, R394). Scale latches are kept as the difference from 0x7F modulo 256, so
that what is not listed reads as the start value of R322. -/
structure Mcc where
  core : Nat
  key : BKey
  pc : W64
  x : File 64
  ta : List Memory
  tb : List Memory
  tc : List (List (Nat × Acc))
  cb : List (File 16)
  sc : List Memory
  staging : List Staged
  walk : Option Walk
  mrow : W32
  mcol : W32
  mseg : W32
  mdone : W64
  wip : Bool
  budgetDone : W64
  fault : MFault
  mflags : BitVec 5
  corr : BitVec 16
  mulcnt : BitVec 16
  drained : W32
  tmmacnt : W32
  fin : Bool            -- the program has ended, whatever stops the engine meanwhile
  stat : MStat
  resp : List Resp
  deriving DecidableEq, Repr, Inhabited

/-! ### Copies -/

/-- Which copy (R274). -/
inductive CKind where
  | cpy | cpyg | cpys | cpym | cpyx
  | cpya (t : CpyaT)
  | publish
  deriving DecidableEq, Repr, Inhabited

/-- A run of consecutive bytes a copy moves (R278): source, destination, length. -/
structure Run where
  s : Nat
  d : Nat
  n : Nat
  deriving DecidableEq, Repr, Inhabited

/-- The stamp of a copy (R285): its address in the space `own` names, and its value. -/
structure CStamp where
  own : Bool
  addr : W64
  val : W64
  deriving DecidableEq, Repr, Inhabited

/-- One copy entry (R272). `dsts` are the receivers' blocks for scratchpad destinations; `todo` pairs a receiver with a
destination line not yet delivered; `slow` lists those that the purlin slow path holds, with the gutter record of each (R290).
`base` and `len` are the range of a PUBLISH. Copies are numbered in issue order (R285); `rel` is the number of the outstanding
access before which the issuer's stores must be performed (R152); `acks` the writes to peers still unacknowledged, with their
payload bytes. -/
structure Copy where
  id : Nat
  core : Nat
  key : BKey
  tl : Nat
  kind : CKind
  runs : List Run
  ssp : CSpace
  dsp : CSpace
  src : Option BKey
  dsts : List BKey
  cache : Cache
  scope : Scope
  rel : Option Nat
  shadow : Bool
  stamp : Option CStamp
  xb : Option Nat
  todo : List (Nat × Nat)
  slow : List (Nat × Nat × Option W32)
  err : Bool
  swapped : Bool
  base : Nat
  len : Nat
  resp : List Resp
  acks : List (Nat × Nat)
  deriving DecidableEq, Repr, Inhabited

/-! ### Memory beyond the core -/

/-- What an outstanding access is (R128 to R138, R151). A release is performed after every earlier access of its agent; a fence
keeps later stores of its agent behind every earlier access; `ro` is a read-only point that dates what its agent did before it (R136) and
orders nothing (R228). -/
inductive PKind where
  | store
  | release (scope : Scope)
  | fence (scope : Scope)
  | add (term : Acc) (sys : Bool)
  | ro
  deriving DecidableEq, Repr, Inhabited

/-- An access issued and not yet performed (R130). `core` is where it was issued, `va` its virtual address, `grp` the step that
issued it (R118); `sent` marks a peer request on its way (R457); `thru` that the store leaves no line of host memory in the near slice (R453),
and `home` that it is performed at its home, so that no die holds the line modified for its core (R146). -/
structure Pend where
  n : Nat
  ag : Agent
  core : Nat
  loc : Loc
  va : Nat
  bytes : List Byte
  kind : PKind
  grp : Nat
  sent : Option Nat
  thru : Bool := false
  home : Bool := false
  deriving DecidableEq, Repr, Inhabited

/-- A word pair that a core's L1 holds (R129): partition, 8-byte granule of the virtual address, its location, its value as
loaded, the cycle since which it is stale, and which of its two words are still held. -/
structure L1Word where
  core : Nat
  part : Nat
  gran : Nat
  loc : Loc
  val : W64
  stale : Option Nat
  has : BitVec 2 := 3
  deriving DecidableEq, Repr, Inhabited

/-- A copy on the read-only path of a core (R136), with its location and the event count at which it was read. -/
structure RoCopy where
  core : Nat
  part : Nat
  gran : Nat
  loc : Loc
  val : W64
  at_ : Nat
  deriving DecidableEq, Repr, Inhabited

/-- A durable store registered at its home and not yet accepted by the eave buffer (R145, R437): its maker, the storage
address, the bytes, the tag of its line, and the die of the core that made it (R146). -/
structure DurStore where
  ag : Option Agent
  addr : Nat
  bytes : List Byte
  tag : W32
  die : Option Nat := none
  deriving DecidableEq, Repr, Inhabited

/-- A partial in state A (R140): the home's line, the die, the sum. -/
structure Partial where
  line : Nat
  die : Nat
  acc : Acc
  deriving DecidableEq, Repr, Inhabited

/-- An entry of the underlay table (R21): the page's frame as the translation names it, its size, the primary, and the shadow
frame of each use. A snapshot names its launch; a page in a point names partition and point. `under` says that an entry with the underlay
attribute maps it, `durable` that one with D does, and `maps` lists those mappings as partition and virtual page (R145). -/
structure UEnt where
  base : Nat
  size : Nat
  prim : Nat
  snapOf : Option (Nat × Nat)
  snap : Option Nat
  pub : Option Nat
  point : Option (Nat × Nat × Nat)     -- partition, point, shadow frame
  va : Nat
  under : Bool
  durable : Bool
  maps : List (Nat × Nat)
  swapped : Bool
  deriving DecidableEq, Repr, Inhabited

/-- State of a host line in a near slice (R453). -/
inductive Mesi where
  | m | e | s
  deriving DecidableEq, Repr, Inhabited

/-- Who made a peer request (R457). -/
inductive ReqBy where
  | course (core id : Nat)
  | mcc (core : Nat)
  | copy (id : Nat)
  | pend (n : Nat)
  deriving DecidableEq, Repr, Inhabited

/-- What a peer request asks (R457, R458, R461). -/
inductive ReqOp where
  | read (n : Nat)
  | write (bytes : List Byte)
  | atomic (op : AOp) (u w64 : Bool) (x : W64)
  | cas (w64 : Bool) (cmp new : W64)
  | accAtomic (payload : List Byte)
  | poisonMark
  deriving DecidableEq, Repr, Inhabited

/-- A request in flight to a peer (R457). -/
structure PeerReq where
  id : Nat
  peer : Nat
  addr : Nat
  op : ReqOp
  by_ : Option ReqBy
  since : Nat
  held : Bool := false   -- behind the mark of a lost line (R461)
  deriving DecidableEq, Repr, Inhabited

/-! ### Launches and partitions -/

/-- The fields of a launch descriptor (R374). -/
structure LDesc where
  entry : W64
  tileent : W64
  seed : W64
  regs : Nat
  accs : Nat
  producer : Nat
  gangw : Nat
  gangh : Nat
  cls : Nat
  fptrap : BitVec 8
  prio : Nat
  determ : Bool
  trelvy : Bool
  scratch : Nat
  age : Nat
  bx : Nat
  by_ : Nat
  bz : Nat
  gx : Nat
  gy : Nat
  gz : Nat
  rx0 : Nat
  ry0 : Nat
  rw : Nat
  rh : Nat
  qmask : W64
  deps : List (W64 × W64)
  doneAddr : W64
  doneVal : W64
  handlers : List W64
  mincores : Nat
  wdog : Nat
  deriving DecidableEq, Repr, Inhabited

/-- A range entry (R81): base, length, kind. -/
structure Range where
  base : W64
  len : W64
  kind : Nat
  deriving DecidableEq, Repr, Inhabited

/-- A member of a course saved in a QPUSH wait (R240): the queue, the PC of the QPUSH and the PC that its image gives it, which lies behind the QPUSH
where the lane has pushed. -/
structure QWait where
  tl : Nat
  queue : Nat
  pc : W64
  next : W64
  pushed : Bool
  deriving DecidableEq, Repr

/-- A block of a launch that pre-emption saved, with its image (R390), and what the image does not hold (log 23): its threads that had not
exited, for the lines whose presence bit is clear the copy that cleared each last (R291), the lanes of each course, the waits of waiting threads with the operands they
wait with, the flashing report, the threads that a comparator holds for the debugger (R477), the positions that FPE assigned to the pushes of saved entries (R261), by thread and entry, the place that a course has in its chain (R46), by thread,
the members of courses that wait in QPUSH, the multiplies that are saved
as not yet joined (R333) or as stopped on an error (R341) with the address that the program had run ahead to and whether it had ended, and the
gutter record, once written, that waits for the answer to its MCC's fault (R394). -/
structure Saved where
  bl : Nat
  image : Nat
  live : List Nat
  absent : List (Nat × Nat)
  crews : List (List (Option Nat))
  waits : List (Nat × Wait)
  report : W32 × W32 × W32
  held : List Nat
  pushes : List (Nat × Nat × Deferred)
  chains : List (Nat × Nat) := []
  qwaits : List QWait := []
  staged : List Staged := []
  mfault : Option (Option W32) := none
  runPc : W64 := 0
  ended : Bool := false
  deriving DecidableEq, Repr

/-- The device's memory as it stood when a launch was dispatched, from which the launch's instructions are fetched (R28). -/
structure TextSnap where
  dev : Memory
  host : Memory
  und : List UEnt
  deriving DecidableEq, Repr, Inhabited

/-- How far a launch is (R372, R377, R378, R389, R399). -/
inductive LStat where
  | queued
  | started
  | held          -- stopped and awaiting its replay (R432)
  | retired
  | ended         -- ended as fatal (R399)
  deriving DecidableEq, Repr, Inhabited

/-- One launch (R373). Units: those from `next` on have not started, `saved` are vacated, `placed` running with the cores of each, `finished`
under determ and not yet retired (R384). `wdog12` is the watchdog's count in twelfths of a nanosecond (R396). `gbars` holds the phase of each gang (R393); `delivered` the tickets of its pushes
that its queues have delivered and `pushed` how many pushes each thread made, as queue, block, thread, number (R237, R241); `badRead` that firmware read POISON for it at its
submission (R434); `stopping` names units that come to rest to be vacated, with the images they go to (R388). -/
structure Launch where
  part : Nat
  lnum : Nat
  queue : Nat
  addr : Nat
  d : LDesc
  consts : File 32
  ranges : List Range
  roles : List (Nat × Nat)
  stat : LStat
  status : W32
  next : Nat
  saved : List Saved
  placed : List (Nat × List Nat)
  finished : List Nat
  retired : List Nat
  scanPos : Nat          -- the position where the next scan starts (R382)
  curveLost : Nat        -- last curve positions given up to pre-emption (R388)
  text : TextSnap
  wdog12 : Nat
  contained : Nat
  halted : Bool
  point : Option Nat
  sealer : Option Nat
  gbars : List (Nat × Barrier)
  switchedOut : Bool
  delivered : List (Nat × Nat × Nat × Nat)
  pushed : List (Nat × Nat × Nat × Nat)
  seqNext : Nat
  images : List Nat
  badRead : Bool := false
  stopping : Option (List Nat × List Nat) := none
  deriving DecidableEq, Repr, Inhabited

/-- A hardware-queue element (R236): its ticket (R237), its value, its delivery. -/
structure QElem where
  lnum : Nat
  bl : Nat
  tl : Nat
  n : Nat
  val : W64
  delivered : Bool
  deriving DecidableEq, Repr, Inhabited

/-- A seal in progress (R443): the point, the ring's location, the sealing launch. -/
structure Seal where
  n : Nat
  ring : List Nat
  lnum : Nat
  deriving DecidableEq, Repr, Inhabited

/-- A cached translation (R419): virtual page, size, its leaf entry, and the dies whose TLBs hold it, 4 for the Plate's walkers (R13). -/
structure Xlat where
  va : Nat
  size : Nat
  pte : W64
  dies : List Nat := [0, 1, 2, 3, 4]
  deriving DecidableEq, Repr, Inhabited

/-- One partition (R371, R438). -/
structure Partition where
  id : Nat
  nextLnum : Nat
  queues : List (Nat × List Nat)
  hwq : List (Nat × List QElem)
  rpc : W32
  rps : W32
  rpa : W32
  sealing : Bool
  sealNow : Option Seal
  xlat : List Xlat
  group : Nat
  rot : Nat              -- counter-group rotations so far (R467)
  deriving DecidableEq, Repr, Inhabited

/-! ### The Plate -/

/-- Who raised a gutter record and resumes at its answer (R408, R290, R342). -/
inductive GSrc where
  | none
  | course (core id : Nat)
  | mcc (key : BKey)
  | copy (id recv line : Nat)
  deriving DecidableEq, Repr, Inhabited

/-- A gutter record before its SEQ and TIME are filled (R421). -/
structure GRec where
  type : Nat
  flags : BitVec 8
  src : Nat
  part : Nat
  core : Nat
  aux2 : W32
  aux3 : W32
  addr : W64
  pc : W64
  mask : W32
  tl : W32
  bl : W64
  lnum : W32
  by_ : GSrc
  deriving DecidableEq, Repr, Inhabited

/-- A gutter record that the host can answer (R422). -/
structure GOpen where
  seq : W32
  by_ : GSrc
  answered : Bool
  deriving DecidableEq, Repr, Inhabited

/-- One error bank (R426), with its read buffer (R427). -/
structure Bank where
  unit : BitVec 16
  valid : Bool
  uc : Bool
  ovf : Bool
  poisoned : Bool
  kind : BitVec 3
  count : Nat
  time : W64
  addr : W64
  synd : W64
  buf : List Byte
  corr : Nat            -- corrected events toward the next point of R431
  deriving DecidableEq, Repr, Inhabited

/-- A decision of the Trelvy vote (R430), in table order. -/
inductive Vote where
  | checksumWrong | arrayWrong | undecided
  deriving DecidableEq, Repr, Inhabited

/-- A bind record of the slot table (R379), with the partition of its launch; X, Y, SLOT are the record's place in the table. -/
structure BindRec where
  part : Nat
  bl : Nat
  lnum : Nat
  core : Nat
  slot : Nat
  valid : Bool
  restore : Bool
  role : W32
  gx0 : Nat
  gy0 : Nat
  lref : W64
  image : Nat
  seq : Nat
  deriving DecidableEq, Repr, Inhabited

/-- How far the SPDM responder is (R456). -/
structure Spdm where
  version : Bool
  caps : Bool
  algs : Bool
  keyex : Bool
  session : Bool
  deriving DecidableEq, Repr, Inhabited

/-- A Trelvy vote in progress (R430): the stopped core, since when, the staged multiply, and whether the array's product P is wrong in a cell. -/
structure VoteSt where
  core : Nat
  since : Nat
  op : Staged
  arrayBad : Bool
  deriving DecidableEq, Repr, Inhabited

/-- One voltage and frequency island (R487). -/
structure Island where
  freq : Nat
  temp : Nat
  reason : Nat
  throt : Bool
  us : Nat
  deriving DecidableEq, Repr, Inhabited

/-- What the device sends out: the model's own log of it (log 3). -/
inductive Msg where
  | msix (v : Nat)
  | peer (r : PeerReq)
  | hostData (bytes : List Byte) (poison : Bool)
  | hostUr
  | hostDone
  | bisnp (line : Nat)
  | peerData (peer : Nat) (bytes : List Byte) (poison : Bool)
  | peerAck (peer : Nat)
  | peerErr (peer : Nat)
  | spdm (code : Nat) (payload : List Byte)
  | doe (protocol next : Nat)
  | mgmt (agent : Nat) (x : W64)
  deriving DecidableEq, Repr, Inhabited

/-- What is programmed from outside by no event of the table (log 48): a key of Link IDE, by IDE_KM over the SPDM session; the size of the HDM
decoder; a question of DOE discovery (R452); the link encryption of a UALink port, which the owner enables (R457). -/
inductive Control where
  | ideKey (stream : Nat) (key : List Byte)
  | hdmDecoder (size : Nat)
  | doeDiscovery (index : Nat)
  | encrypt (agent : AgentId) (port : Nat) (on : Bool)
  deriving DecidableEq, Repr

/-- Which agent moves next (log 1): an event of the table, the issue of a course, the MCC of a core, or the link engine with the request
at the head of its line; or what is programmed from outside. -/
inductive Item where
  | control (c : Control)
  | event (i : Instr)
  | issue (core id : Nat)
  | mcc (core : Nat)
  | link
  | cycle                        -- the core cycle ends
  deriving DecidableEq, Repr

/-- Whose instruction `exec` runs (log 1). -/
inductive Cur where
  | none
  | course (core id : Nat)
  | mcc (core : Nat)
  | link
  deriving DecidableEq, Repr, Inhabited

/-- A trace record of the present cycle (R471), written when the cycle ends; `kept` marks one that waits for its place in the ring. -/
structure TraceRec where
  core : Nat
  part : Nat
  name : List Byte
  time : Nat
  pc : W64
  aux0 : W32
  aux1 : W32
  type : Nat
  reason : Nat
  elig : Nat
  quad : Nat
  mask : W32
  kept : Bool := false
  deriving DecidableEq, Repr

/-- A containment on its way (R432): the launches, the partitions whose open points go, the cause and AUX2 of its records. It waits in State where
the host may cache lines of the pages that it exchanges (R21). -/
structure Rollback where
  launches : List (Nat × Nat)
  discard : List Nat
  cause : BitVec 16
  aux2 : W32
  deriving DecidableEq, Repr

/-- The state of the KW-P4. `fwWait` holds the stores of the Plate's firmware that wait for a shadow frame or for the host (R433, R454),
`cover` the bytes of a marked line that the stores of one step have overwritten so far (R147), `owner` the core that owns a word at its home
(R129), `hostLines` the state of a host line in the near slice of each die (R453), `binds` the slot table (R379), `rollbacks` the containments that wait for the host (R432),
`vacated` the cores that pre-emption took, by partition and requester (R387), `ideKeys` the keys of Link IDE by
stream (R452), `scanned` when each core was last scanned, in ns (R445), `badCores` the physical cores that failed the scan of the last start
(R479), `fuses` the fused security versions of the firmware images and `rootHash` the fused hash of the root key (R480), `encrypted` the UALink ports
whose link encryption is on (R457), `slew` the rate correction of global time in ppm and `timeFrac` its
fraction in millionths of a twelfth of a nanosecond (R464), `samples` the quadrants, by core, whose PC sample of this cycle is still to be made (R470),
`recs` the trace records of this cycle, written as it ends (R471), `used` what has issued in this cycle, as core, quadrant and course, quadrant 4 for a core's
MCC (R385, R326), `moved` how many due events this cycle has taken and `turn` how many there have been (log 1), `dieCycle` the cycle in which a die was last
reset (R470). -/
structure State where
  -- the model's own: schedule, free values, messages, numbers for names
  inbox : List Item
  cur : Cur
  free : Nat
  out : List Msg
  events : Nat
  nextId : Nat
  -- cores
  blocks : List Block
  courses : List Course
  bins : List Bin
  mccs : List Mcc
  copies : List Copy
  -- memory
  mem : Memory
  eave : List (Nat × List Byte)
  durp : List DurStore
  fwWait : List (Loc × List Byte)
  host : Memory
  tags : File 32
  poison : List Nat
  hostPoison : List Nat
  dirty : List (Nat × Nat)
  parts : List Partial
  cover : List (Loc × Nat × Nat)
  pend : List Pend
  l1 : List L1Word
  owner : List (Loc × Nat)
  ro : List RoCopy
  und : List UEnt
  poolFree : List (Nat × Nat)
  poolWait : List Nat
  hostLines : List (Nat × Nat × Mesi)
  hdmSize : Nat
  hdmHost : List Nat
  bisnp : List Nat
  linkWait : List Instr
  -- link
  reqs : List PeerReq
  lost : List (Nat × Nat)
  spdm : Spdm
  ideKeys : List (Nat × List Byte)
  -- launches
  launches : List Launch
  partitions : List Partition
  binds : List BindRec
  rollbacks : List Rollback
  vacated : List (Nat × Nat × List Nat)
  -- supervisor
  gwait : List GRec
  gheld : List GRec
  gopen : List GOpen
  gqBroken : Bool
  banks : List Bank
  votes : List VoteSt
  scores : File 8
  halved : Nat
  coreMap : List (Nat × Nat)
  degraded : List Nat
  quarantine : List Nat
  repairs : List Nat
  spares : List (Nat × Nat)
  scanning : List Nat
  scanned : List (Nat × Nat)
  badCores : List Nat
  fuses : File 32
  rootHash : List Byte
  encrypted : List Nat
  diesOut : List Nat
  -- management
  regs : File 64
  topo : List (Nat × W64)
  claims : List (Nat × Bool)
  tlbinv : List (Nat × Option Nat)
  manBusy : Option (List Byte × List (Nat × List Byte))
  manVal : List Byte
  measured : List (Nat × List Byte)
  islands : List (Nat × Island)
  power : Bool
  -- observation and time
  ctr : File 64
  actcyc : File 64
  trig : List Nat
  trigHit : List Nat
  trigStop : List Nat
  trigWr : List (Nat × Nat)
  cycle : Nat
  time12 : Nat
  timeFrac : Nat
  slew : Int
  samples : List (Nat × Nat)
  recs : List TraceRec
  used : List (Nat × Nat × Nat)
  moved : Nat
  turn : Nat
  dieCycle : List (Nat × Nat)
  deriving DecidableEq, Repr

/-- How a run stops. -/
inductive Fault where
  /-- A thread instruction given to `exec` while no course issues: no step does this. Raised by every meaning of a thread
  instruction. Safe. -/
  | noCourse
  /-- An MCC instruction given to `exec` while no MCC runs: no step does this. Raised by every meaning of an MCC instruction.
  Safe. -/
  | noMcc
  deriving DecidableEq, Repr

/-- Why an instruction has no meaning. -/
inductive Refusal where
  /-- An instruction without a meaning in this model, by its mnemonic: raised by Dispatch alone. Safe. -/
  | notModelled (mnemonic : String)
  deriving DecidableEq, Repr

/-- What a step answers. -/
abbrev Res := Host.Outcome State Fault Refusal

/-- A partition after a cold start (R479): queues empty, no point, next launch number 1 (log 5). -/
def Partition.fresh (p : Nat) : Partition :=
  { id := p, nextLnum := 1, queues := [], hwq := [], rpc := 0, rps := 0, rpa := 0, sealing := false, sealNow := none,
    xlat := [], group := 0, rot := 0 }

/-- The management registers after a cold start (R479, R488), by offset: READY, LTO, PWRCAP, SCANPER, each partition's RBLIMIT
and WDOGDEF, and each island's FMAX; every other register is zero (log 5). -/
def State.resetRegs : File 64 :=
  [(0x400, 1), (0x2010, 100), (0x2018, 3200), (0x2020, 24)]
  ++ (List.range 8).flatMap (fun p => [(0x3010 + 0x100 * p, 3), (0x3018 + 0x100 * p, 10000000)])
  ++ (List.range 36).map (fun i => (0x710000 + 8 * i, 2400))

/-- The machine right after a cold start has completed (R479): every queue and table cleared, memory zero, READY set. -/
def State.reset : State :=
  { inbox := [], cur := .none, free := 0, out := [], events := 0, nextId := 1,
    blocks := [], courses := [], bins := [], mccs := [], copies := [],
    mem := [], eave := [], durp := [], fwWait := [], host := [], tags := [], poison := [], hostPoison := [], dirty := [], parts := [], cover := [],
    pend := [], l1 := [], owner := [], ro := [], und := [], poolFree := [], poolWait := [], hostLines := [], hdmSize := 512175210496, hdmHost := [],
    bisnp := [], linkWait := [], reqs := [], lost := [],
    spdm := { version := false, caps := false, algs := false, keyex := false, session := false }, ideKeys := [],
    launches := [],
    partitions := [Partition.fresh 0, Partition.fresh 1, Partition.fresh 2, Partition.fresh 3,
      Partition.fresh 4, Partition.fresh 5, Partition.fresh 6, Partition.fresh 7], binds := [], rollbacks := [], vacated := [],
    gwait := [], gheld := [], gopen := [], gqBroken := false, banks := [], votes := [], scores := [], halved := 0, coreMap := [],
    degraded := [], quarantine := [], repairs := [], spares := [], scanning := [], scanned := [], badCores := [], fuses := [], rootHash := List.replicate 48 0, encrypted := [], diesOut := [],
    regs := State.resetRegs, topo := [], claims := [], tlbinv := [], manBusy := none, manVal := [], measured := [], islands := [], power := true,
    ctr := [], actcyc := [], trig := [], trigHit := [], trigStop := [], trigWr := [], cycle := 0, time12 := 0, timeFrac := 0, slew := 0,
    samples := [], recs := [], used := [], moved := 0, turn := 0, dieCycle := [] }

end Sys2Proof.Machine
end

