-- ==== Sys2Proof/Machine/Bytes.lean ====
section
/-!
DEFINITION. Byte order, bit fields, and the sparse files and memories of the state: reading, writing and their byte runs. Every
multi-byte quantity is little-endian (R24).
-/

namespace Sys2Proof.Machine

/-! ### Byte order -/

/-- The number that bytes hold, the lowest first (R24). -/
def leNat : List Byte → Nat
  | [] => 0
  | b :: bs => b.toNat + 256 * leNat bs

/-- The `k` bytes of a number, the lowest first. -/
def natLE : Nat → Nat → List Byte
  | 0, _ => []
  | k + 1, x => BitVec.ofNat 8 x :: natLE k (x / 256)

/-- The number in bytes lo..lo+n-1 of a record. -/
def fieldLE (bs : List Byte) (lo n : Nat) : Nat := leNat ((bs.drop lo).take n)

/-- Bits hi..lo of a number. -/
def bitsOf (x hi lo : Nat) : Nat := x / 2 ^ lo % 2 ^ (hi + 1 - lo)

/-- `n` zero bytes. -/
def zeros (n : Nat) : List Byte := List.replicate n 0

/-- Padding to a multiple of `k` bytes. -/
def padTo (k : Nat) (bs : List Byte) : List Byte := bs ++ zeros ((k - bs.length % k) % k)

/-- Whether bytes lo..lo+n-1 are all zero. -/
def zeroAt (bs : List Byte) (lo n : Nat) : Bool := fieldLE bs lo n == 0

/-- Sign extension of the low `n` bits to an integer. -/
def sintOf (n x : Nat) : Int :=
  let y := x % 2 ^ n
  if 2 * y < 2 ^ n then (y : Int) else (y : Int) - (2 : Int) ^ n

/-! ### Sparse lists -/

/-- What a sparse list holds at a key. -/
def sget {α : Type} (d : α) : List (Nat × α) → Nat → α
  | [], _ => d
  | (k, x) :: m, a => if a = k then x else sget d m a

/-- Writing a key of a sparse list: the order stays rising, and a value equal to the default is not listed. -/
def sset {α : Type} [DecidableEq α] (d : α) : List (Nat × α) → Nat → α → List (Nat × α)
  | [], a, x => if x = d then [] else [(a, x)]
  | (k, y) :: m, a, x =>
    if a < k then (if x = d then (k, y) :: m else (a, x) :: (k, y) :: m)
    else if a = k then (if x = d then m else (a, x) :: m)
    else (k, y) :: sset d m a x

/-- Reading a register file. -/
def File.get {w : Nat} (f : File w) (n : Nat) : BitVec w := sget 0 f n

/-- Writing a register file. -/
def File.set {w : Nat} (f : File w) (n : Nat) (x : BitVec w) : File w := sset 0 f n x

/-! ### Memories -/

/-- Reading one byte. -/
def Memory.get (m : Memory) (a : Nat) : Byte := sget Memory.unlisted m a

/-- Writing one byte. -/
def Memory.set (m : Memory) (a : Nat) (x : Byte) : Memory := sset Memory.unlisted m a x

/-- `n` bytes from address `a`. -/
def Memory.read (m : Memory) (a : Nat) : Nat → List Byte
  | 0 => []
  | n + 1 => m.get a :: Memory.read m (a + 1) n

/-- Bytes stored from address `a`. -/
def Memory.write (m : Memory) (a : Nat) : List Byte → Memory
  | [] => m
  | b :: bs => Memory.write (m.set a b) (a + 1) bs

/-- The canonical form of a sparse list with default `d`: keys strictly rising, no value the default. -/
def swf {α : Type} [DecidableEq α] (d : α) : List (Nat × α) → Bool
  | [] => true
  | [(_, x)] => decide (x ≠ d)
  | (k, x) :: (j, y) :: m => decide (x ≠ d) && decide (k < j) && swf d ((j, y) :: m)

/-- The canonical form of a memory. -/
def Memory.wf (m : Memory) : Bool := swf Memory.unlisted m

/-- Dropping the bytes of a range, so that they read as unlisted. -/
def Memory.clear (m : Memory) (a n : Nat) : Memory := m.filter (fun c => c.1 < a || a + n ≤ c.1)

/-- The bytes of `m` in a range moved to start at `b`, over what `t` holds there. -/
def Memory.copyRange (m : Memory) (a n : Nat) (t : Memory) (b : Nat) : Memory :=
  (m.filter (fun c => a ≤ c.1 && c.1 < a + n)).foldl (fun t c => t.set (c.1 - a + b) c.2) (t.clear b n)

/-- Laying `over` on top of a memory. -/
def Memory.overlay (m top : Memory) : Memory := top.foldl (fun t c => t.set c.1 c.2) m

/-! ### Association lists -/

/-- The value of a key. -/
def aget? {α : Type} (l : List (Nat × α)) (k : Nat) : Option α := (l.find? (fun p => p.1 == k)).map (·.2)

/-- The list with a key set. -/
def aput {α : Type} (l : List (Nat × α)) (k : Nat) (x : α) : List (Nat × α) :=
  if l.any (fun p => p.1 == k) then l.map (fun p => if p.1 == k then (k, x) else p) else l ++ [(k, x)]

/-- The list without a key. -/
def adel {α : Type} (l : List (Nat × α)) (k : Nat) : List (Nat × α) := l.filter (fun p => p.1 != k)

/-- `l` with `f` applied at position `i`. -/
def modifyAt {α : Type} (f : α → α) : List α → Nat → List α
  | [], _ => []
  | x :: xs, 0 => f x :: xs
  | x :: xs, n + 1 => x :: modifyAt f xs n

/-- `l` with position `i` set, extended by `d` where it is shorter. -/
def setAt {α : Type} (d : α) : List α → Nat → α → List α
  | [], 0, x => [x]
  | [], n + 1, x => d :: setAt d [] n x
  | _ :: xs, 0, x => x :: xs
  | y :: xs, n + 1, x => y :: setAt d xs n x

/-- Adding an element to a list kept without repeats. -/
def insertNew {α : Type} [DecidableEq α] (l : List α) (x : α) : List α := if x ∈ l then l else l ++ [x]

/-- Insertion into a list that rises by a key. -/
def insertBy {α : Type} (key : α → Nat) (x : α) : List α → List α
  | [] => [x]
  | y :: ys => if key x < key y then x :: y :: ys else y :: insertBy key x ys

/-- Sorting by a key, earlier elements first among equals. -/
def sortBy {α : Type} (key : α → Nat) (l : List α) : List α := l.foldl (fun t x => insertBy key x t) []

/-- The lanes 0 to 31. -/
def lanes32 : List Nat := List.range 32

/-- The lanes of a mask, ascending. -/
def maskLanes (m : LaneMask) : List Nat := lanes32.filter (fun l => m.getLsbD l)

/-- The mask of the lanes that a test picks. -/
def maskOf (p : Nat → Bool) : LaneMask := lanes32.foldl (fun m l => if p l then m ||| (1 <<< l : BitVec 32) else m) 0

/-- `l` is among the lanes of the mask. -/
def maskHas (m : LaneMask) (l : Nat) : Bool := m.getLsbD l

end Sys2Proof.Machine
end

