-- ==== Sys2Proof/Machine/Num.lean ====
section
/-!
DEFINITION. Element formats, decoding and rounding (R87 to R101), and exact arithmetic on decoded values (R112). A finite value
is kept as sign, integer significand and exponent of two, so every operation before the one rounding is exact; a quotient, a
root or an enclosed value carries a sticky mark instead of its endless tail.
-/

namespace Sys2Proof

/-! ### Values -/

/-- A `real` of R110: NaN, an infinity, or (-1)^neg * m * 2^e; m = 0 is a signed zero. -/
inductive FVal where
  | nan
  | inf (neg : Bool)
  | fin (neg : Bool) (m : Nat) (e : Int)
  deriving DecidableEq, Repr, Inhabited

def FVal.zero : FVal := .fin false 0 0
def FVal.isNan : FVal → Bool | .nan => true | _ => false
def FVal.isZero : FVal → Bool | .fin _ 0 _ => true | _ => false
def FVal.neg : FVal → FVal
  | .nan => .nan
  | .inf s => .inf (!s)
  | .fin s m e => .fin (!s) m e
def FVal.abs : FVal → FVal
  | .nan => .nan
  | .inf _ => .inf false
  | .fin _ m e => .fin false m e
def FVal.sign : FVal → Bool
  | .nan => false
  | .inf s => s
  | .fin s _ _ => s

/-- The value of an integer at weight 2^e. -/
def FVal.ofInt (x : Int) (e : Int := 0) : FVal := .fin (decide (x < 0)) x.natAbs e

/-- The flags of R99: INV 0, DZ 1, OVF 2, UNF 3, INX 4. -/
abbrev FFlags := BitVec 5
def flInv : FFlags := 1
def flDz : FFlags := 2
def flOvf : FFlags := 4
def flUnf : FFlags := 8
def flInx : FFlags := 16

/-! ### Formats -/

/-- A floating-point element format (R87): stored bits, significand bits with the hidden bit, bias, the encodings of the largest
finite value, of +Inf and of the canonical NaN. -/
structure FFmt where
  w : Nat
  p : Nat
  bias : Nat
  maxEnc : Nat
  infEnc : Option Nat
  nanEnc : Option Nat
  deriving DecidableEq, Repr

def fp32 : FFmt := ⟨32, 24, 127, 0x7F7FFFFF, some 0x7F800000, some 0x7FC00000⟩
def fp16 : FFmt := ⟨16, 11, 15, 0x7BFF, some 0x7C00, some 0x7E00⟩
def fpB16 : FFmt := ⟨16, 8, 127, 0x7F7F, some 0x7F80, some 0x7FC0⟩
def fpE4m3 : FFmt := ⟨8, 4, 7, 0x7E, none, some 0x7F⟩
def fpE5m2 : FFmt := ⟨8, 3, 15, 0x7B, some 0x7C, some 0x7E⟩
def fpE3m2 : FFmt := ⟨6, 3, 3, 0x1F, none, none⟩
def fpE2m3 : FFmt := ⟨6, 4, 1, 0x1F, none, none⟩
def fpE2m1 : FFmt := ⟨4, 2, 1, 0x7, none, none⟩

/-- The floating-point format of a FMT code, none for integers and CB4 (R92). -/
def Fmt.fp : Fmt → Option FFmt
  | .f32 => some fp32
  | .f16 => some fp16
  | .bf16 => some fpB16
  | .e4m3 => some fpE4m3
  | .e5m2 => some fpE5m2
  | .e3m2 => some fpE3m2
  | .e2m3 => some fpE2m3
  | .e2m1 => some fpE2m1
  | _ => none

/-- sint of the low `w` bits of `x`. -/
def sintN (w x : Nat) : Int :=
  let y := x % 2 ^ w
  if 2 * y < 2 ^ w then y else (y : Int) - 2 ^ w

/-- The value of a floating-point encoding (R87, R88). -/
def FFmt.decode (f : FFmt) (x : Nat) : FVal :=
  let mag := x % 2 ^ (f.w - 1)
  let neg := x.testBit (f.w - 1)
  if f.infEnc = some mag then .inf neg
  else if mag > f.maxEnc then .nan
  else
    let ex := mag / 2 ^ (f.p - 1)
    let man := mag % 2 ^ (f.p - 1)
    if ex = 0 then .fin neg man (2 - f.bias - f.p : Int)
    else .fin neg (man + 2 ^ (f.p - 1)) (ex + 1 - f.bias - f.p : Int)

/-- `decode` of R112; integers stand at weight 2^0 as signed or, under `u`, unsigned values, and CB4 reads table `cb`. -/
def Fmt.decode (f : Fmt) (x : Nat) (cb : Machine.File 16) (u : Bool := false) : FVal :=
  match f.fp with
  | some g => g.decode x
  | none =>
    if f = .cb4 then
      fpB16.decode ((cb.find? (fun p => p.1 == x % 16)).elim 0 (fun p => p.2.toNat))
    else if u then FVal.ofInt ((x % 2 ^ f.bits : Nat) : Int) else FVal.ofInt (sintN f.bits x)

/-! ### Rounding -/

/-- A rounding mode with the random bits of sr (R94, R96). -/
inductive RM where
  | mode (m : RMode)
  | sr (r : Nat)
  deriving DecidableEq, Repr, Inhabited

/-- A magnitude to be rounded: m * 2^e, or strictly between it and (m+1) * 2^e under `sticky`. -/
structure Mag where
  m : Nat
  e : Int
  sticky : Bool
  deriving DecidableEq, Repr

/-- The magnitude with at least `k` bits below exponent `q`. -/
def Mag.below (g : Mag) (q : Int) (k : Nat) : Mag :=
  if g.e ≤ q - k then g
  else { g with m := g.m * 2 ^ (g.e - (q - k)).toNat, e := q - k }

/-- Rounding a magnitude to a multiple of 2^q under R94 and R96: the multiple, and whether it differs from the magnitude. -/
def Mag.roundAt (g0 : Mag) (rm : RM) (neg : Bool) (q : Int) : Nat × Bool :=
  let g := g0.below q 17
  let sh := (q - g.e).toNat
  let n := g.m / 2 ^ sh
  let rem := g.m % 2 ^ sh
  let half := 2 ^ (sh - 1)
  let inex := decide (rem ≠ 0) || g.sticky
  let up := match rm with
    | .mode .rn => decide (rem > half) || (decide (rem = half) && (g.sticky || n % 2 == 1))
    | .mode .ra => decide (rem ≥ half)
    | .mode .rz => false
    | .mode .ru => !neg && inex
    | .mode .rd => neg && inex
    | .sr r => decide (rem * 65536 / 2 ^ sh + r % 65536 ≥ 65536)
  (if inex && up then n + 1 else n, inex)

/-- The encoding of n * 2^q with the exponent field unbounded above; q is the subnormal spacing or n has p bits. -/
def FFmt.encode (f : FFmt) (n : Nat) (q : Int) : Nat :=
  -- n < 2^(p-1) only at the subnormal spacing; n = 2^p carries into the exponent field by itself
  n + 2 ^ (f.p - 1) * (q + f.bias + f.p - 2).toNat

/-- The sign bit of a format. -/
def FFmt.signed (f : FFmt) (neg : Bool) (mag : Nat) : Nat := if neg then mag + 2 ^ (f.w - 1) else mag

/-- What an overflow gives (R97). -/
def FFmt.overflow (f : FFmt) (rm : RM) (neg : Bool) : Nat :=
  let big := match rm with
    | .mode .rz => f.maxEnc
    | .mode .ru => if neg then f.maxEnc else f.infEnc.getD f.maxEnc
    | .mode .rd => if neg then f.infEnc.getD f.maxEnc else f.maxEnc
    | _ => f.infEnc.getD f.maxEnc
  f.signed neg big

/-- A NaN result: the canonical NaN, or +0 with INV in a format without NaN (R88, R98). -/
def FFmt.nanRes (f : FFmt) : Nat × FFlags :=
  match f.nanEnc with
  | some x => (x, 0)
  | none => (0, flInv)

/-- Rounding a nonzero magnitude with its sign (R95 to R97, R100). -/
def FFmt.roundMag (f : FFmt) (rm : RM) (neg : Bool) (g : Mag) : Nat × FFlags :=
  let ex : Int := g.e + (Nat.log2 g.m : Int)
  let emin : Int := 1 - f.bias
  let qu := ex - (f.p - 1 : Nat)
  let q := max qu (emin - (f.p - 1 : Nat))
  let (n, inex) := g.roundAt rm neg q
  let (nu, _) := g.roundAt rm neg qu
  let tiny := decide (qu < emin - (f.p - 1 : Nat)) &&
    decide ((nu : Int) < 2 ^ (emin - qu).toNat)
  let enc := if n = 0 then 0 else f.encode n q
  if enc > f.maxEnc then (f.overflow rm neg, flOvf ||| flInx)
  else
    (f.signed neg enc, (if inex then flInx else 0) ||| (if inex && tiny then flUnf else 0))

/-- round(x, fmt, mode, r) for a floating-point format (R95 to R98). -/
def FFmt.round (f : FFmt) (rm : RM) (x : FVal) : Nat × FFlags :=
  match x with
  | .nan => f.nanRes
  | .inf neg =>
    match f.infEnc with
    | some i => (f.signed neg i, 0)
    | none => (f.signed neg f.maxEnc, flInv)
  | .fin neg m e => if m = 0 then (f.signed neg 0, 0) else f.roundMag rm neg ⟨m, e, false⟩

/-- A finite value as a rounded integer (R98, u = 1 for sr), and whether it differs. -/
def FVal.toInt (rm : RM) (neg : Bool) (g : Mag) : Int × Bool :=
  let (n, inex) := g.roundAt rm neg 0
  (if neg then -(n : Int) else n, inex)

/-- round into an integer target of range lo..hi (R98). -/
def roundInt (lo hi : Int) (rm : RM) (x : FVal) : Int × FFlags :=
  match x with
  | .nan => (0, flInv)
  | .inf neg => (if neg then lo else hi, flInv)
  | .fin neg m e =>
    let (n, inex) := FVal.toInt rm neg ⟨m, e, false⟩
    if n < lo then (lo, flInv)
    else if n > hi then (hi, flInv)
    else (n, if inex then flInx else 0)

/-- The range of an integer format, signed or unsigned. -/
def intRange (w : Nat) (u : Bool) : Int × Int :=
  if u then (0, 2 ^ w - 1) else (-(2 ^ (w - 1)), 2 ^ (w - 1) - 1)

/-- round(x, fmt, mode, r) for any target of R92 but CB4 (R93): the element's bits and the exceptions. -/
def Fmt.round (f : Fmt) (rm : RM) (x : FVal) (u : Bool := false) : Nat × FFlags :=
  match f.fp with
  | some g => g.round rm x
  | none =>
    let (lo, hi) := intRange f.bits u
    let (n, fl) := roundInt lo hi rm x
    ((BitVec.ofInt f.bits n).toNat, fl)

/-! ### Exact operations -/

/-- The finite value of a signed integer at weight 2^e, keeping the sign `z` when it is zero. -/
def FVal.ofSum (n : Int) (e : Int) (z : Bool) : FVal :=
  if n = 0 then .fin z 0 0 else .fin (decide (n < 0)) n.natAbs e

/-- Signed significand at exponent `e` of a finite value whose exponent is not below it. -/
def scaled (neg : Bool) (m : Nat) (e0 e : Int) : Int :=
  let x : Int := (m : Int) * 2 ^ (e0 - e).toNat
  if neg then -x else x

/-- IEEE addition, exact; `rd` gives the sign of an exact zero sum of opposite signs (R113). The Bool is INV. -/
def FVal.add (rd : Bool) (a b : FVal) : FVal × Bool :=
  match a, b with
  | .nan, _ => (.nan, false)
  | _, .nan => (.nan, false)
  | .inf s, .inf t => if s = t then (.inf s, false) else (.nan, true)
  | .inf s, _ => (.inf s, false)
  | _, .inf t => (.inf t, false)
  | .fin s m e, .fin t n d =>
    if m = 0 ∧ n = 0 then (.fin (if s = t then s else rd) 0 0, false)
    else if m = 0 then (.fin t n d, false)
    else if n = 0 then (.fin s m e, false)
    else
      let q := min e d
      (FVal.ofSum (scaled s m e q + scaled t n d q) q rd, false)

/-- exact_product of R112; the Bool is INV. -/
def FVal.mul (a b : FVal) : FVal × Bool :=
  match a, b with
  | .nan, _ => (.nan, false)
  | _, .nan => (.nan, false)
  | .inf s, .inf t => (.inf (s != t), false)
  | .inf s, .fin t n _ => if n = 0 then (.nan, true) else (.inf (s != t), false)
  | .fin s m _, .inf t => if m = 0 then (.nan, true) else (.inf (s != t), false)
  | .fin s m e, .fin t n d => (.fin (s != t) (m * n) (e + d), false)

/-- Numerical comparison of two values that are not NaN: -1, 0 or 1; the zeros are equal. -/
def FVal.cmp (a b : FVal) : Int :=
  let key : FVal → FVal → Int := fun x y =>
    match x, y with
    | .inf s, .inf t => if s = t then 0 else if s then -1 else 1
    | .inf s, _ => if s then -1 else 1
    | _, .inf t => if t then 1 else -1
    | .fin s m e, .fin t n d =>
      let q := min e d
      let u := scaled s m e q
      let v := scaled t n d q
      if u < v then -1 else if u = v then 0 else 1
    | _, _ => 0
  key a b

/-- The quotient of two nonzero finite magnitudes with `k` bits or more and its sticky mark. -/
def magDiv (m : Nat) (e : Int) (n : Nat) (d : Int) (k : Nat) : Mag :=
  let sh := k + Nat.log2 n + 1
  let num := m * 2 ^ sh
  ⟨num / n, e - d - sh, decide (num % n ≠ 0)⟩

/-- One step of the integer square root by bits. -/
def isqrtGo : Nat → Nat → Nat → Nat
  | 0, _, r => r
  | k + 1, x, r =>
    let t := r + 2 ^ k
    if t * t ≤ x then isqrtGo k x t else isqrtGo k x r

/-- The integer square root. -/
def isqrt (x : Nat) : Nat := isqrtGo (Nat.log2 x / 2 + 1) x 0

/-- The square root of a nonzero finite magnitude with `k` bits or more. -/
def magSqrt (m : Nat) (e : Int) (k : Nat) : Mag :=
  let sh := 2 * k + (if e % 2 = 0 then 0 else 1)
  let x := m * 2 ^ sh
  let r := isqrt x
  ⟨r, (e - sh) / 2, decide (r * r ≠ x)⟩

/-- The reciprocal square root of a nonzero finite magnitude with `k` bits or more. -/
def magRsqrt (m : Nat) (e : Int) (k : Nat) : Mag :=
  let l := Nat.log2 m + 1
  let sh := 2 * (k + l) + (if e % 2 = 0 then 0 else 1)
  let num := 2 ^ sh
  let x := num / m
  let r := isqrt x
  ⟨r, (-e - sh) / 2, decide (r * r * m ≠ num)⟩

/-- Rounding a signed magnitude that may carry a sticky mark. -/
def roundSigned (f : FFmt) (rm : RM) (neg : Bool) (g : Mag) : Nat × FFlags :=
  if g.m = 0 ∧ !g.sticky then (f.signed neg 0, 0) else f.roundMag rm neg g

end Sys2Proof
end

