-- ==== Sys2Proof/Machine/LongAcc.lean ====
section
/-!
DEFINITION. The long accumulator (R102 to R109): exact addition, the operations of R299 to R302, the 128-byte line, the trimmed
form, the record of a save image, and rounding. `norm` parameters say whether the operation leaves every carry zero; callers
pass a free value where R104 leaves the raw form open.
-/

namespace Sys2Proof.Machine

/-- An integer reduced modulo 2^640 into the range of R102. -/
def accWrap (x : Int) : Int := (BitVec.ofInt 640 x).toInt

/-- `hold` of R299: the value reduced into the range, OVF set where it lay outside. -/
def Acc.hold (k : Acc) (x : Int) (count : W32) (norm : Bool) : Acc :=
  let y := accWrap x
  { k with val := y, ovf := k.ovf || decide (y ≠ x), count := count, norm := norm }

/-- A finite term at the resolution 2^-320. -/
def termOf (neg : Bool) (m : Nat) (e : Int) : Int :=
  let s := e + 320
  let x : Int := if s ≥ 0 then (m : Int) * 2 ^ s.toNat else (m : Int) / 2 ^ (-s).toNat
  if neg then -x else x

/-- acc_add of R112: a finite term is added exactly, a special one sets its flag (R103); COUNT grows by one. -/
def Acc.add (k : Acc) (t : FVal) (norm : Bool) : Acc :=
  match t with
  | .nan => { k with nan := true, count := k.count + 1 }
  | .inf false => { k with pinf := true, count := k.count + 1 }
  | .inf true => { k with ninf := true, count := k.count + 1 }
  | .fin s m e => k.hold (k.val + termOf s m e) (k.count + 1) norm

/-- The union of the flags (U5 of R299) of two accumulators, in the first. -/
def Acc.orFlags (k a : Acc) : Acc :=
  { k with nan := k.nan || a.nan, pinf := k.pinf || a.pinf, ninf := k.ninf || a.ninf, ovf := k.ovf || a.ovf,
           poison := k.poison || a.poison }

/-- swapinf of R299. -/
def Acc.swapInf (k : Acc) : Acc := { k with pinf := k.ninf, ninf := k.pinf }

/-- The exact sum of two accumulators with their flags and counts (R299, R306). -/
def Acc.plus (k a : Acc) (norm : Bool) : Acc := (k.orFlags a).hold (k.val + a.val) (k.count + a.count) norm

/-- The exact sum of several accumulators, normalized: one reduction of the whole sum, so that its OVF depends on no order (R302). -/
def Acc.sumOf (l : List Acc) : Acc :=
  (l.foldl Acc.orFlags Acc.zero).hold (l.map (·.val)).sum ((l.map (·.count)).foldl (· + ·) 0) true

/-- ACCNEG (R299). -/
def Acc.negate (a : Acc) (norm : Bool) : Acc := a.swapInf.hold (-a.val) a.count norm

/-- ACCSCL (R299): scaling by 2^t, toward minus infinity. -/
def Acc.scale (a : Acc) (t : Int) (norm : Bool) : Acc :=
  a.hold (if t ≥ 0 then (if a.val = 0 then 0 else a.val * 2 ^ t.toNat) else a.val / 2 ^ (-t).toNat) a.count norm

/-- acc_norm of R112. -/
def Acc.normalized (a : Acc) : Acc := { a with norm := true }

/-- The 640 bits of the normalized form (R104). -/
def Acc.bits (a : Acc) : Nat := (BitVec.ofInt 640 a.val).toNat

/-- seg[s] of the normalized form. -/
def Acc.seg (a : Acc) (s : Nat) : W64 := BitVec.ofNat 64 (a.bits / 2 ^ (64 * s))

/-- FLAGS bits 5:0 (R107). -/
def Acc.flags (a : Acc) : BitVec 6 :=
  BitVec.ofNat 6 (a.nan.toNat + 2 * a.pinf.toNat + 4 * a.ninf.toNat + 8 * a.ovf.toNat + 16 * a.poison.toNat
    + 32 * a.norm.toNat)

/-- The accumulator with the five sticky flags set from bits 4:0. -/
def Acc.withFlags (a : Acc) (f : Nat) : Acc :=
  { a with nan := f.testBit 0, pinf := f.testBit 1, ninf := f.testBit 2, ovf := f.testBit 3, poison := f.testBit 4 }

/-- seg[s] replaced in the normalized form (R301). -/
def Acc.setSeg (a : Acc) (s : Nat) (x : W64) : Acc :=
  let b := a.bits
  let c := b - (b / 2 ^ (64 * s) % 2 ^ 64) * 2 ^ (64 * s) + x.toNat * 2 ^ (64 * s)
  { a with val := (BitVec.ofNat 640 c).toInt, norm := true }

/-! ### The line in memory (R107) -/

/-- Carry c[i] of a line. -/
def lineCarry (bs : List Byte) (i : Nat) : Int := sintOf 8 (fieldLE bs (80 + i) 1)

/-- The V * 2^320 of a line's SEG and CARRY, before any reduction (R102). -/
def lineSum (bs : List Byte) : Int :=
  sintOf 640 (fieldLE bs 0 80)
    + (List.range 9).foldl (fun t i => t + lineCarry bs i * 2 ^ (64 * i + 64)) 0

/-- A line as every device read takes it (R107, R310). -/
def Acc.ofLine (bs : List Byte) : Acc :=
  let x := lineSum bs
  let base : Acc := Acc.zero.withFlags (fieldLE bs 90 1)
  let k := base.hold x (BitVec.ofNat 32 (fieldLE bs 92 4)) true
  { k with norm := (List.range 9).all (fun i => lineCarry bs i == 0) }

/-- The normalized line (R310). -/
def Acc.toLine (a : Acc) : List Byte :=
  natLE 80 a.bits ++ zeros 10 ++ natLE 2 (a.normalized.flags.toNat) ++ natLE 4 a.count.toNat ++ zeros 32

/-! ### The trimmed form (R108) and the record of R312 -/

/-- How many segments a writer omits at the top: those that repeat the sign of the one below. -/
def trimTop (a : Acc) : Nat → Nat
  | 0 => 0
  | n + 1 =>
    -- segments 0 .. n are kept so far
    let top := (a.seg n).toNat
    let below := if n = 0 then 0 else (a.seg (n - 1)).toNat / 2 ^ 63
    if (top = 0 ∧ below = 0) ∨ (n > 0 ∧ top = 2 ^ 64 - 1 ∧ below = 1) then trimTop a n else n + 1

/-- How many segments a writer omits at the bottom: the zero ones. -/
def trimLow (a : Acc) : Nat → Nat → Nat
  | 0, l => l
  | k + 1, l => if (a.seg l).toNat = 0 then trimLow a k (l + 1) else l

/-- The trimmed form with the fewest segments (R108). -/
def Acc.trim (a : Acc) : List Byte :=
  let fl := natLE 1 (a.flags.toNat % 32)
  if a.val = 0 then 0 :: fl
  else
    let hi := trimTop a 10
    let l := trimLow a 9 0
    let n := hi - l
    natLE 1 (16 * n + l) ++ fl ++ natLE (8 * n) (a.bits / 2 ^ (64 * l))

/-- The bytes a trimmed value takes, from its header. -/
def trimSize (bs : List Byte) : Nat := 2 + 8 * (fieldLE bs 0 1 / 16)

/-- Whether a trimmed value is malformed (R108). -/
def trimBad (bs : List Byte) : Bool :=
  let h := fieldLE bs 0 1
  let n := h / 16
  let l := h % 16
  decide (l + n > 10) || decide (fieldLE bs 1 1 / 32 ≠ 0) || (decide (n = 0) && decide (l ≠ 0))

/-- Reading a trimmed value; a malformed one is zero with POISON (R108). -/
def Acc.ofTrim (bs : List Byte) : Acc :=
  if trimBad bs then { Acc.zero with poison := true }
  else
    let h := fieldLE bs 0 1
    let n := h / 16
    let l := h % 16
    let x := sintOf (64 * n) (fieldLE bs 2 (8 * n)) * 2 ^ (64 * l)
    { (Acc.zero.withFlags (fieldLE bs 1 1)) with val := if n = 0 then 0 else accWrap x }

/-- The record of R312. -/
def Acc.record (a : Acc) : List Byte := a.trim ++ zeros 2 ++ natLE 4 a.count.toNat

/-- The bytes a record takes, from its header. -/
def recordSize (bs : List Byte) : Nat := 6 + trimSize bs

/-- Restoring a record (R312). -/
def Acc.ofRecord (bs : List Byte) : Acc :=
  { Acc.ofTrim bs with count := BitVec.ofNat 32 (fieldLE bs (trimSize bs + 2) 4) }

/-! ### Rounding (R109) -/

/-- The rounded operand of acc_round and its further flags; none when POISON is set. -/
def Acc.operand (a : Acc) : Option (FVal × FFlags) :=
  if a.poison then none
  else if a.nan || (a.pinf && a.ninf) then some (.nan, 0)
  else if a.pinf then some (.inf false, 0)
  else if a.ninf then some (.inf true, 0)
  else if a.ovf then some (.inf (decide (a.val < 0)), flOvf ||| flInx)
  else if a.val = 0 then some (.fin false 0 0, 0)
  else some (FVal.ofInt a.val (-320), 0)

/-- acc_round of R109, for an accumulator without POISON. -/
def Acc.round (a : Acc) (f : Fmt) (rm : RM) (u : Bool) : Nat × FFlags :=
  match a.operand with
  | none => (0, 0)
  | some (x, fl) =>
    let (y, g) := f.round rm x u
    (y, fl ||| g)

end Sys2Proof.Machine
end

