-- ==== Sys2Proof/Machine/Access.lean ====
section
/-!
DEFINITION. Reading and updating the parts of the state: management registers, partitions, launches, blocks, threads, courses,
copies and the MCC, each found by its name and updated in one place.
-/

namespace Sys2Proof.Machine

/-! ### Places (R2, R3) -/

/-- The die of a logical core (R3). -/
def dieOf (core : Nat) : Nat := core % 32 / 16 + 2 * (core / 32 / 12)

/-- Whether a core lies in a rectangle. -/
def inRect (core x0 y0 w h : Nat) : Bool :=
  decide (x0 ≤ core % 32) && decide (core % 32 < x0 + w) && decide (y0 ≤ core / 32) && decide (core / 32 < y0 + h)

/-! ### Registers of the management space -/

/-- A management register by its offset. -/
def State.reg (s : State) (off : Nat) : W64 := s.regs.get off

/-- The state with a management register set. -/
def State.setReg (s : State) (off : Nat) (x : W64) : State := { s with regs := s.regs.set off x }

/-- A partition register of R488. -/
def State.preg (s : State) (p off : Nat) : W64 := s.reg (0x3000 + 0x100 * p + off)

/-- An observation register of a partition (R468). -/
def State.oreg (s : State) (p off : Nat) : W64 := s.reg (0x200000 + 0x1000 * p + off)

/-- ENABLE of PARTRECT (R488). -/
def State.partOn (s : State) (p : Nat) : Bool := (s.preg p 0).getLsbD 32

/-- x0, y0, width and height of PARTRECT (R488). -/
def State.partRect (s : State) (p : Nat) : Nat × Nat × Nat × Nat :=
  let r := (s.preg p 0).toNat
  (bitsOf r 7 0, bitsOf r 15 8, bitsOf r 23 16, bitsOf r 31 24)

/-- Whether a core belongs to an enabled partition. -/
def State.coreIn (s : State) (p core : Nat) : Bool :=
  let (x0, y0, w, h) := s.partRect p
  s.partOn p && inRect core x0 y0 w h

/-- Global time in nanoseconds (R464). -/
def State.ns (s : State) : Nat := s.time12 / 12

/-- The next number for the free values, consumed (log 2). -/
def State.burn (s : State) (n : Nat := 1) : State := { s with free := s.free + n }

/-- A message to the outside (log 3). -/
def State.send (s : State) (m : Msg) : State := { s with out := s.out ++ [m] }

/-- A fresh name. -/
def State.bumpId (s : State) : State := { s with nextId := s.nextId + 1 }

/-! ### Partitions and launches -/

def State.part? (s : State) (p : Nat) : Option Partition := s.partitions.find? (fun x => x.id == p)

def State.updPart (s : State) (p : Nat) (f : Partition → Partition) : State :=
  { s with partitions := s.partitions.map (fun x => if x.id == p then f x else x) }

def State.launch? (s : State) (p n : Nat) : Option Launch := s.launches.find? (fun l => l.part == p && l.lnum == n)

def State.updLaunch (s : State) (p n : Nat) (f : Launch → Launch) : State :=
  { s with launches := s.launches.map (fun l => if l.part == p && l.lnum == n then f l else l) }

/-- Whether a launch is still alive. -/
def Launch.live (l : Launch) : Bool := decide (l.stat ≠ .retired) && decide (l.stat ≠ .ended)

/-- Threads of one block. -/
def LDesc.threads (d : LDesc) : Nat := d.bx * d.by_ * d.bz

/-- Blocks of the grid. -/
def LDesc.blocks (d : LDesc) : Nat := d.gx * d.gy * d.gz

/-- Blocks of one placement unit (R381). -/
def LDesc.unitSize (d : LDesc) : Nat := if d.gangw = 0 then 1 else d.gangw * d.gangh

/-- Whether a thread belongs to the producer group (R164). -/
def LDesc.isProducer (d : LDesc) (tl : Nat) : Bool := decide (d.producer ≠ 255) && decide (tl / 32 = d.producer)

/-- The logical thread index of R156. -/
def LDesc.lti (d : LDesc) (bl tl : Nat) : Nat := bl * d.threads + tl

/-- Serial comparison of launch numbers (R156): `a` precedes `b`. -/
def lnumBefore (a b : Nat) : Bool := let x := (b + 2 ^ 32 - a % 2 ^ 32) % 2 ^ 32; decide (1 ≤ x) && decide (x < 2 ^ 31)

/-! ### Blocks and threads -/

def State.block? (s : State) (k : BKey) : Option Block := s.blocks.find? (fun b => decide (b.key = k))

def State.blockAt? (s : State) (core slot : Nat) : Option Block :=
  s.blocks.find? (fun b => b.core == core && b.slot == slot)

def State.updBlock (s : State) (k : BKey) (f : Block → Block) : State :=
  { s with blocks := s.blocks.map (fun b => if b.key = k then f b else b) }

def Block.thread? (b : Block) (tl : Nat) : Option Thread := b.threads.find? (fun t => t.tl == tl)

def Block.updThread (b : Block) (tl : Nat) (f : Thread → Thread) : Block :=
  { b with threads := b.threads.map (fun t => if t.tl == tl then f t else t) }

def State.thread? (s : State) (k : BKey) (tl : Nat) : Option Thread := (s.block? k).bind (fun b => b.thread? tl)

def State.updThread (s : State) (k : BKey) (tl : Nat) (f : Thread → Thread) : State :=
  s.updBlock k (fun b => b.updThread tl f)

/-- Threads of a block that have not exited. -/
def Block.alive (b : Block) : List Thread := b.threads.filter (fun t => decide (t.stat ≠ .exited))

def Thread.port (t : Thread) (q : Fin 16) : Port := t.ports.getD q.val Port.unbound

def Thread.setPort (t : Thread) (q : Fin 16) (p : Port) : Thread := { t with ports := setAt Port.unbound t.ports q.val p }

def Thread.acc (t : Thread) (k : Nat) : Acc := t.k.getD k Acc.zero

def Thread.setAcc (t : Thread) (k : Nat) (a : Acc) : Thread := { t with k := setAt Acc.zero t.k k a }

/-- The value of a predicate; 7 is pt (R29, R158). -/
def Thread.pred (t : Thread) (p : Fin 8) : Bool := if p.val = 7 then true else t.preds.getLsbD p.val

/-- Writing a predicate; 7 writes none. -/
def Thread.setPred (t : Thread) (p : Fin 8) (x : Bool) : Thread :=
  if p.val = 7 then t
  else { t with preds := if x then t.preds ||| (1 <<< p.val : BitVec 7) else t.preds &&& ~~~(1 <<< p.val : BitVec 7) }

/-! ### Courses -/

def State.course? (s : State) (core id : Nat) : Option Course := s.courses.find? (fun c => c.core == core && c.id == id)

def State.updCourse (s : State) (core id : Nat) (f : Course → Course) : State :=
  { s with courses := s.courses.map (fun c => if c.core == core && c.id == id then f c else c) }

def State.delCourse (s : State) (core id : Nat) : State :=
  { s with courses := s.courses.filter (fun c => !(c.core == core && c.id == id)) }

/-- The threads of a course as lane and thread index, ascending by lane. -/
def Course.members (c : Course) : List (Nat × Nat) :=
  (lanes32.zip c.lanes).filterMap (fun p => p.2.map (fun t => (p.1, t)))

/-- The lanes that hold a thread. -/
def Course.mask (c : Course) : LaneMask := maskOf (fun l => (c.lanes.getD l none).isSome)

def Course.latch (c : Course) (n : Nat) : Latch := c.latches.getD n Latch.empty

def Course.setLatch (c : Course) (n : Nat) (x : Latch) : Course := { c with latches := setAt Latch.empty c.latches n x }

/-- A latch's value in a lane. -/
def Latch.get (x : Latch) (l : Nat) : W64 := x.val.getD l 0

/-- Every latch invalid: the end of a chain (R45). -/
def Course.endChain (c : Course) : Course :=
  { c with chain := 0, latches := c.latches.map (fun _ => Latch.empty) }

/-- Whether a user handler runs in the course (R405). -/
def Course.inHandler (c : Course) : Bool := c.frame.any (fun f => f.inh)

/-! ### The MCC, copies -/

def State.mcc? (s : State) (core : Nat) : Option Mcc := s.mccs.find? (fun m => m.core == core)

def State.updMcc (s : State) (core : Nat) (f : Mcc → Mcc) : State :=
  { s with mccs := s.mccs.map (fun m => if m.core == core then f m else m) }

def State.copy? (s : State) (id : Nat) : Option Copy := s.copies.find? (fun c => c.id == id)

def State.updCopy (s : State) (id : Nat) (f : Copy → Copy) : State :=
  { s with copies := s.copies.map (fun c => if c.id == id then f c else c) }

/-! ### Who issues -/

/-- The course that issues, with its block and launch (R160). -/
structure Ctx where
  core : Nat
  id : Nat
  c : Course
  b : Block
  l : Launch

/-- What `exec` of a thread instruction acts for (log 1). -/
def State.issuing (s : State) : Option Ctx :=
  match s.cur with
  | .course core id =>
    (s.course? core id).bind (fun c =>
      (s.blockAt? core c.slot).bind (fun b =>
        (s.launch? b.key.part b.key.lnum).map (fun l => ⟨core, id, c, b, l⟩)))
  | _ => none

/-- The meaning of a thread instruction from what it does to the state for its course. -/
def State.onCourse (s : State) (f : Ctx → State) : Res :=
  match s.issuing with
  | none => .fault .noCourse
  | some x => .next (f x)

/-- The MCC that runs, with its block and launch (R325). -/
structure MCtx where
  core : Nat
  m : Mcc
  b : Block
  l : Launch

def State.running (s : State) : Option MCtx :=
  match s.cur with
  | .mcc core =>
    (s.mcc? core).bind (fun m =>
      (s.block? m.key).bind (fun b =>
        (s.launch? b.key.part b.key.lnum).map (fun l => ⟨core, m, b, l⟩)))
  | _ => none

/-- The meaning of an MCC instruction from what it does to the state. -/
def State.onMcc (s : State) (f : MCtx → State) : Res :=
  match s.running with
  | none => .fault .noMcc
  | some x => .next (f x)

/-- The agent of a thread of the course. -/
def Ctx.agent (x : Ctx) (tl : Nat) : Agent := .thread x.b.key tl

/-- Whether the entry still has to be executed for a lane (R404). -/
def LaneEnt.runs (e : LaneEnt) : Bool := e.member && !e.cancel && !e.isDone && !e.effd && !e.resv

/-- The lane record of the entry that RFT re-injects, if one is being executed. -/
def Ctx.replay (x : Ctx) (lane : Nat) : Option LaneEnt := (x.c.reinj.head?).map (fun e => e.lanes.getD lane LaneEnt.none)

/-- Whether an instruction with this guard acts for a lane: the guard of R43, or under re-injection the entry's own lanes. -/
def Ctx.acts (x : Ctx) (pneg : Bool) (pred : Fin 8) (lane : Nat) (t : Thread) : Bool :=
  match x.replay lane with
  | some e => e.runs
  | none => t.pred pred != pneg

/-- The threads of the course that an instruction with this guard acts for (R43): lane and thread, ascending by lane. -/
def Ctx.active (x : Ctx) (pneg : Bool) (pred : Fin 8) : List (Nat × Thread) :=
  x.c.members.filterMap (fun p =>
    (x.b.thread? p.2).bind (fun t => if x.acts pneg pred p.1 t then some (p.1, t) else none))

/-- Every thread of the course with its lane. -/
def Ctx.all (x : Ctx) : List (Nat × Thread) := x.c.members.filterMap (fun p => (x.b.thread? p.2).map (fun t => (p.1, t)))

/-- The same lanes in ascending logical thread index (R118). -/
def byThread (l : List (Nat × Thread)) : List (Nat × Thread) := sortBy (fun p => p.2.tl) l

/-- The mask of a list of lanes. -/
def maskOfLanes (l : List Nat) : LaneMask := maskOf (fun x => l.contains x)

/-- Bytes of an extended thread instruction (R24). -/
def hdSize (h : Hd) : Nat := if h.lit.isSome then 20 else 12

/-- Bytes of a compact thread instruction (R24). -/
def chSize (h : Ch) : Nat := if h.lit.isSome then 12 else 4

/-! ### Event counters (R467) -/

/-- An event counted `n` times by the counters of its core that select it in the active group (R467). -/
def State.count (s : State) (core code n : Nat) : State :=
  match s.partitions.find? (fun p => s.coreIn p.id core) with
  | none => s
  | some p =>
    let sel := s.oreg p.id (8 * p.group)
    (List.range 8).foldl (fun t i =>
      if (sel.toNat / 2 ^ (8 * i)) % 256 = code then
        let key := (core * 4 + p.group) * 8 + i
        { t with ctr := t.ctr.set key (t.ctr.get key + BitVec.ofNat 64 n) }
      else t) s

/-- Events whose count depends on timing alone (R467): misses, merges by home slice, bank conflicts, stall reasons, histogram bins. -/
def timingEvent (c : Nat) : Bool :=
  c == 0x06 || c == 0x07 || c == 0x08 || c == 0x0F || (decide (0x20 ≤ c) && decide (c ≤ 0x2E)) || (decide (0x30 ≤ c) && decide (c ≤ 0x38))

/-- Counter `i` of group `g` of a core (R467). One of a timing event is free, but zero when cleared and still while its group is not active (log 13). -/
def State.counter (s : State) (part core g i : Nat) : W64 :=
  let key := (core * 4 + g) * 8 + i
  if timingEvent ((s.oreg part (8 * g)).toNat / 2 ^ (8 * i) % 256) then
    (let n := (s.actcyc.get (4 * part + g)).toNat; if n = 0 then 0 else Config.freeCount key n)
  else s.ctr.get key

/-! ### New threads and MCCs -/

/-- The thread of a new block (R158). -/
def Thread.fresh (tl : Nat) (pc : W64) (fptrap : BitVec 8) (accs : Nat) (roPoint : Nat) (st : TStat) : Thread :=
  { tl := tl, pc := pc, v := [], o := [], k := List.replicate accs Acc.zero, preds := 0, fpflags := 0,
    fptrap := fptrap.setWidth 32 &&& 31, rngctr := 0, ports := [], trapcause := 0, trapmask := 0, trappc := 0, trappch := 0,
    trapaux := [0, 0, 0, 0], poison := [], roPoint := roPoint, stat := st }

/-- A fresh MCC (R325). -/
def Mcc.fresh (core : Nat) (key : BKey) (pc : W64) : Mcc :=
  { core := core, key := key, pc := pc, x := [], ta := [], tb := [], tc := [], cb := [], sc := [], staging := [], walk := none,
    mrow := 0, mcol := 0, mseg := 0, mdone := 0, wip := false, budgetDone := 0,
    fault := { pc := 0, cause := 0, aux0 := 0, aux1 := 0 }, mflags := 0, corr := 0, mulcnt := 0, drained := 0, tmmacnt := 0, fin := false, stat := .running, resp := [] }

end Sys2Proof.Machine
end

