-- ==== Sys2Proof/Machine/Mem.lean ====
section
/-!
DEFINITION. Memory: physical targets and live frames (R21, R451), the underlay table, the eave buffer, accumulator partials and
their merge (R140, R304 to R306), translation (R417 to R419), outstanding accesses and what a load returns (R114 to R138).
-/

namespace Sys2Proof.Machine

/-! ### Locations -/

/-- The location `n` bytes on. -/
def Loc.plus : Loc → Nat → Loc
  | .dev a, n => .dev (a + n)
  | .shadow a, n => .shadow (a + n)
  | .host a, n => .host (a + n)
  | .peer m a, n => .peer m (a + n)
  | .scr b o, n => .scr b (o + n)

/-- End of installed device memory (R451). -/
def devEnd : Nat := 512000000000

/-- The target of a physical address (R451); a peer address that names the module itself is local. -/
def State.physLoc (s : State) (pa : Nat) : Loc :=
  let t := pa / 2 ^ 48 % 4
  if t = 0 then .dev (pa % 2 ^ 48)
  else if t = 1 then .host (pa % 2 ^ 48)
  else
    let m := pa / 2 ^ 39 % 1024
    if m = (s.reg 0x300).toNat % 1024 then .dev (pa % 2 ^ 39) else .peer m (pa % 2 ^ 39)

/-! ### The underlay table (R21) -/

/-- The frame that accesses are served from: the point shadow while the page is in a point, else the primary. -/
def UEnt.live (u : UEnt) : Nat :=
  match u.point with
  | some (_, _, f) => f
  | none => u.prim

/-- The entry with its live frame replaced. -/
def UEnt.setLive (u : UEnt) (f : Nat) : UEnt :=
  match u.point with
  | some (p, n, _) => { u with point := some (p, n, f) }
  | none => { u with prim := f }

/-- Whether an entry's page holds a device address. -/
def UEnt.covers (u : UEnt) (a : Nat) : Bool := decide (u.base ≤ a) && decide (a < u.base + u.size)

/-- The entry of the page that holds a device address: where pages of several sizes name it, the one with the underlay attribute (log 53). -/
def undOf (und : List UEnt) (a : Nat) : Option UEnt :=
  (und.find? (fun u => u.covers a && u.under)).orElse (fun _ => und.find? (fun u => u.covers a))

/-- Whether a device address lies in a durable frame (R145). -/
def durableIn (und : List UEnt) (a : Nat) : Bool := und.any (fun u => u.covers a && u.durable)

/-- The storage address that serves a device address. -/
def liveIn (und : List UEnt) (a : Nat) : Nat :=
  match undOf und a with
  | some u => u.live + (a - u.base)
  | none => a

def State.live (s : State) (a : Nat) : Nat := liveIn s.und a

def State.updUnd (s : State) (base : Nat) (f : UEnt → UEnt) : State :=
  { s with und := s.und.map (fun u => if u.base == base then f u else u) }

/-- Taking a frame of the underlay pool, aligned to its size (R21): the first free region that holds one. -/
def poolTake (size : Nat) : List (Nat × Nat) → Option (Nat × List (Nat × Nat))
  | [] => none
  | (b, n) :: rest =>
    let a := (b + size - 1) / size * size
    if a + size ≤ b + n ∧ size ≠ 0 then
      some (a, (if a > b then [(b, a - b)] else []) ++ (if a + size < b + n then [(a + size, b + n - (a + size))] else []) ++ rest)
    else (poolTake size rest).map (fun r => (r.1, (b, n) :: r.2))

/-- The bytes of the pool that are free (R488). -/
def State.poolBytes (s : State) : Nat := s.poolFree.foldl (fun t r => t + r.2) 0

/-- Whether a storage line lies in a frame. -/
def inFrame (f size line : Nat) : Bool := decide (f / 128 ≤ line) && decide (line < (f + size) / 128)

/-- Whether a storage line lies in a durable frame, live or shadow (R145). -/
def State.durableLine (s : State) (line : Nat) : Bool :=
  s.und.any (fun u => u.durable &&
    ([some u.prim, u.snap, u.pub, u.point.map (fun p => p.2.2)].any (fun f => f.any (fun b => inFrame b u.size line))))

/-- Returning a frame: it loses its marks (R147), and nothing that waits above it in the eave buffer, in an L2 or as a partial is left for
the frame's next use. -/
def State.poolGive (s : State) (f size : Nat) : State :=
  { s with poolFree := s.poolFree ++ [(f, size)],
           poison := s.poison.filter (fun l => !inFrame f size l),
           durp := s.durp.filter (fun d => !inFrame f size (d.addr / 128)),
           eave := s.eave.filter (fun e => !inFrame f size e.1),
           tags := s.tags.filter (fun t => !inFrame f size t.1),
           parts := s.parts.filter (fun p => !inFrame f size p.line),
           dirty := s.dirty.filter (fun d => !inFrame f size d.1) }

/-! ### Bytes as stored -/

/-- The byte of a durable store not yet accepted, the latest first. -/
def durByte (l : List DurStore) (a : Nat) : Option Byte :=
  l.foldl (fun r d => if d.addr ≤ a ∧ a < d.addr + d.bytes.length then d.bytes[a - d.addr]? else r) none

/-- The byte at a storage address: the latest durable store, the eave buffer, or the memory behind it (R145, R437). -/
def State.stored (s : State) (a : Nat) : Byte :=
  match durByte s.durp a with
  | some b => b
  | none =>
    match aget? s.eave (a / 128) with
    | some l => l.getD (a % 128) 0
    | none => s.mem.get a

/-- A byte of device memory as it will stand once the firmware's waiting stores are performed. -/
def State.fwByte (s : State) (a : Nat) : Byte :=
  (s.fwWait.foldl (fun r e => match e.1 with
    | .dev b => if b ≤ a ∧ a < b + e.2.length then e.2[a - b]? else r
    | _ => r) none).getD (s.stored (s.live a))

/-- `n` bytes from a storage address. -/
def State.storedRun (s : State) (a : Nat) : Nat → List Byte
  | 0 => []
  | n + 1 => s.stored a :: State.storedRun s (a + 1) n

/-- A saved block of a launch (R390). -/
def State.savedOf (s : State) (b : BKey) : Option Saved :=
  (s.launch? b.part b.lnum).bind (fun l => l.saved.find? (fun v => v.bl == b.bl))

/-- Where a saved block's image stands, if the block is saved (R390). -/
def State.imageOf (s : State) (b : BKey) : Option Nat := (s.savedOf b).map (·.image)

/-- A field of an image header. -/
def State.imageField (s : State) (img off n : Nat) : Nat := leNat (s.storedRun (s.live (img + off)) n)

/-- The address in a saved block's image of a byte of its scratchpad (R390). -/
def State.imageScratch (s : State) (img off : Nat) : Nat := img + s.imageField img 40 8 + off

/-- The byte of an image that holds the presence bit of a line, or with `poison` its POISON bit (R393). -/
def State.imageBitAt (s : State) (img lines line : Nat) (poison : Bool) : Nat :=
  img + s.imageField img 32 8 + 272 + (if poison then (lines + 7) / 8 else 0) + line / 8

/-- Lines of a block's scratchpad allocation. -/
def State.scratchLines (s : State) (b : BKey) : Nat := ((s.launch? b.part b.lnum).map (fun l => l.d.scratch / 128)).getD 0

/-- The copy that cleared a line's presence bit last, while the bit is clear (R16, R18), in the scratchpad or in the image of a saved
block. -/
def State.clearedBy (s : State) (b : BKey) (line : Nat) : Option Nat :=
  match s.block? b with
  | some k => aget? k.absent line
  | none => (s.savedOf b).bind (fun v => aget? v.absent line)

/-- The byte at a location; peer data never stands here (R457). -/
def State.byteAt (s : State) : Loc → Byte
  | .dev a => s.stored (s.live a)
  | .shadow a =>
    match undOf s.und a with
    | some u => (match u.pub with | some f => s.stored (f + (a - u.base)) | none => s.stored (u.live + (a - u.base)))
    | none => s.stored a
  | .host a => s.host.get a
  | .peer _ a => Config.peerByte s.free a
  | .scr b o =>
    match s.block? b with
    | some k => k.scratch.get o
    | none => (match s.imageOf b with | some img => s.stored (s.live (s.imageScratch img o)) | none => Config.freeByte s.free o)

/-- `n` bytes from a location, as they stand in memory. -/
def State.bytesAt (s : State) (l : Loc) : Nat → List Byte
  | 0 => []
  | n + 1 => s.byteAt l :: State.bytesAt s (l.plus 1) n

/-- Whether the line of a location is marked POISON (R147). -/
def State.poisonAt (s : State) : Loc → Bool
  | .dev a => s.poison.contains (s.live a / 128)
  | .shadow a =>
    (match undOf s.und a with
     | some u => (match u.pub with | some f => s.poison.contains ((f + (a - u.base)) / 128) | none => false)
     | none => false)
  | .host a => s.hostPoison.contains (a / 128)
  | .peer _ _ => false
  | .scr b o =>
    (match s.block? b with
     | some k => k.poison.contains (o / 128)
     | none => (s.imageOf b).any (fun img =>
        (s.fwByte (s.imageBitAt img (s.scratchLines b) (o / 128) true)).toNat.testBit (o / 128 % 8)))

/-- Whether any line of a run is marked. -/
def State.poisonRun (s : State) (l : Loc) (n : Nat) : Bool :=
  s.poisonAt l || (decide (n > 0) && s.poisonAt (l.plus (n - 1)))

/-- The start of the 128-byte line of a location, and the location's place in it. -/
def Loc.line : Loc → Loc × Nat
  | .dev a => (.dev (a / 128 * 128), a % 128)
  | .shadow a => (.shadow (a / 128 * 128), a % 128)
  | .host a => (.host (a / 128 * 128), a % 128)
  | .peer m a => (.peer m (a / 128 * 128), a % 128)
  | .scr b o => (.scr b (o / 128 * 128), o % 128)

/-! ### Lines that the L2 slices hold (R1, R436) -/

/-- The die that holds the modified copy after a store: the storing core's, or the home's for an engine of the Plate. -/
def State.dieFor (core : Option Nat) (line : Nat) : Nat :=
  match core with
  | some c => dieOf c
  | none => (Config.homeDie line).val

/-- Units of 64 bytes in a die's L2: 32 slices of 2 MiB (R1). -/
def l2Units : Nat := 32 * 2 ^ 21 / 64

/-- Units that a die's L2 holds of modified lines, of partials and of host lines (R453). -/
def State.l2Used (s : State) (die : Nat) : Nat :=
  2 * (s.dirty.filter (fun e => e.2 == die)).length + 2 * (s.parts.filter (fun p => p.die == die)).length +
    (s.hostLines.filter (fun e => e.2.1 == die)).length

/-- Writing bytes at a storage address of a page that is not durable. -/
def State.putMem (s : State) (a : Nat) (bs : List Byte) : State := { s with mem := s.mem.write a bs }

/-- The partials of a storage line added exactly to its home copy, and their registrations removed (R140). -/
def State.mergeLine (s : State) (line : Nat) : State :=
  let ps := s.parts.filter (fun p => p.line == line)
  let k := ps.foldl (fun k p => k.plus p.acc true) (Acc.ofLine (s.storedRun (128 * line) 128))
  { (s.putMem (128 * line) k.toLine) with parts := s.parts.filter (fun p => p.line != line) }

/-- The oldest of what a die's L2 holds leaves it: a modified line is written back, else a host line is given up, else a partial merges at its
home and the merged line is written back (R306; log 45). -/
def State.evictOne (s : State) (die : Nat) : State :=
  match s.dirty.find? (fun e => e.2 == die), s.hostLines.find? (fun e => e.2.1 == die), s.parts.find? (fun p => p.die == die) with
  | some e, _, _ => { s with dirty := s.dirty.filter (fun x => decide (x ≠ e)) }
  | none, some e, _ => { s with hostLines := s.hostLines.erase e }
  | none, none, some p => s.mergeLine p.line
  | none, none, none => s

/-- Room for `n` more units, at most two, in a die's L2 (R1; log 45). -/
def State.l2Room (s : State) (die n : Nat) : State :=
  let full : State → Bool := fun t =>
    decide (2 * t.dirty.length + 2 * t.parts.length + t.hostLines.length + n > l2Units) && decide (t.l2Used die + n > l2Units)
  if full s then (let t := s.evictOne die; if full t then t.evictOne die else t) else s

/-- A line held modified in a die's L2, and from then on in no other (R146); a line homed on a die that is out is served by its proxy home, which
caches nothing (R436). -/
def State.setDirty (s : State) (line : Nat) (core : Option Nat) : State :=
  if s.diesOut.contains (Config.homeDie line).val then s
  else
    let die := State.dieFor core line
    let s1 := ({ s with dirty := s.dirty.filter (fun e => e.1 != line) }).l2Room die 2
    { s1 with dirty := s1.dirty ++ [(line, die)] }

/-! ### Accumulator lines (R140, R306) -/

/-- The merge of R140 at the home of a storage line, whose slice then holds it modified. -/
def State.homeMerge (s : State) (line : Nat) : State :=
  if s.parts.any (fun p => p.line == line) then (s.mergeLine line).setDirty line none else s

/-- The merges of every line of a frame. -/
def State.mergeFrame (s : State) (f size : Nat) : State :=
  (s.parts.filter (fun p => inFrame f size p.line)).foldl (fun t p => t.homeMerge p.line) s

/-- A frame becomes durable: its partials merge, for a durable line holds none (R304), and no die's cache holds a line of it that the eave buffer
lacks (R145). -/
def State.makeDurable (s : State) (f size : Nat) : State :=
  let s1 := s.mergeFrame f size
  { s1 with dirty := s1.dirty.filter (fun d => !inFrame f size d.1) }

/-- The record of a page in the underlay table, made when a translation with U or D is first used (R21, R145). -/
def State.notePage (s : State) (base size part va : Nat) (under durable : Bool) : State :=
  if !under && !durable then s
  else
    match s.und.find? (fun u => u.base == base) with
    | some v =>
      (if durable && !v.durable then
        ([some v.prim, v.snap, v.pub, v.point.map (fun p => p.2.2)].filterMap (fun f => f)).foldl (fun t f => t.makeDurable f v.size) s
       else s).updUnd base (fun u =>
        { u with under := u.under || under, durable := u.durable || durable,
                 maps := if durable then insertNew u.maps (part, va) else u.maps })
    | none =>
      let u : UEnt :=
        { base := base, size := size, prim := base, snapOf := none, snap := none, pub := none, point := none, va := va,
          under := under, durable := durable, maps := if durable then [(part, va)] else [], swapped := false }
      let s1 := if durable then s.makeDurable base size else s
      { s1 with und := s1.und ++ [u] }

/-- The merges of the storage lines that `n` bytes from an address touch. -/
def State.mergeAt (s : State) (b n : Nat) : State := (s.homeMerge (b / 128)).homeMerge ((b + n - 1) / 128)

/-- The merges that an access to `n` bytes of a location triggers. -/
def State.mergeFor (s : State) (l : Loc) (n : Nat) : State :=
  match l with
  | .dev a => s.mergeAt (s.live a) n
  | _ => s

/-! ### Stores at their home -/

/-- The page whose shadow frame the empty pool cannot give, for want of which a write waits (R433). -/
abbrev NeedPage := Nat

/-- What keeps a store from being performed: a page that needs a shadow frame, or a line that the host may cache, whose response to a BISnpInv
comes first (R454). -/
inductive Await where
  | page (base : Nat)
  | snoop (line : Nat)
  deriving DecidableEq, Repr

/-- The result of a page's preparation as one of a store. -/
def asAwait {α : Type} (r : Except NeedPage α) : Except Await α := r.mapError Await.page

/-- The bytes, tags and marks of one frame copied to another; the partials of its lines merge first (R140). -/
def State.copyFrame (s0 : State) (f size t : Nat) : State :=
  let s := s0.mergeFrame f size
  let tagged := (s.tags.filter (fun e => inFrame f size e.1)).map (fun e => (e.1 - f / 128 + t / 128, e.2))
  let moved := (s.durp.filter (fun d => decide (f ≤ d.addr) && decide (d.addr < f + size))).map
    (fun d => { d with addr := d.addr - f + t })
  let lines := (s.eave.filter (fun e => decide (f ≤ 128 * e.1) && decide (128 * e.1 < f + size))).map
    (fun e => (e.1 - f / 128 + t / 128, e.2))
  let marks := (s.poison.filter (fun l => decide (f / 128 ≤ l) && decide (l < (f + size) / 128))).map
    (fun l => l - f / 128 + t / 128)
  { s with mem := s.mem.copyRange f size s.mem t,
           eave := lines.foldl (fun m e => aput m e.1 e.2) s.eave,
           durp := s.durp ++ moved,
           tags := tagged.foldl (fun m e => m.set e.1 e.2) s.tags,
           poison := s.poison ++ marks.filter (fun l => !s.poison.contains l) }

/-- A durable store of partition `p` at an address makes its page enter the open point (R439). -/
def State.enterPoint (s : State) (p : Nat) (u : UEnt) (a : Nat) : Except NeedPage State :=
  match s.part? p with
  | none => .ok s
  | some q =>
    if q.rpc = 0 || !u.under || !durableIn s.und a || u.point.isSome then .ok s
    else
      match poolTake u.size s.poolFree with
      | none => .error u.base
      | some (f, rest) =>
        let s1 := ({ s with poolFree := rest }).copyFrame u.prim u.size f
        .ok (s1.updUnd u.base (fun v => { v with point := some (p, q.rpc.toNat, f), swapped := false }))

/-- The snapshot copy that must precede the first write to a page (R433, R440). -/
def State.snapCopy (s : State) (base : Nat) : Except NeedPage State :=
  match s.und.find? (fun u => u.base == base) with
  | none => .ok s
  | some u =>
    if u.snapOf.isNone || u.snap.isSome then .ok s
    else
      match poolTake u.size s.poolFree with
      | none => .error u.base
      | some (f, rest) =>
        let s1 := ({ s with poolFree := rest }).copyFrame u.live u.size f
        .ok (s1.updUnd base (fun v => { v with snap := some f }))

/-- What must happen to a page before a write by an agent of partition `p` (none: the host or a peer). -/
def State.prepWrite (s : State) (a : Nat) (p : Option Nat) : Except NeedPage State :=
  match undOf s.und a with
  | none => .ok s
  | some u =>
    (match p with
     | some q => s.enterPoint q u a
     | none => .ok s).bind (fun s1 => s1.snapCopy u.base)

/-- The partition of an agent. -/
def Agent.part : Agent → Nat
  | .thread b _ => b.part
  | .mcc b => b.part
  | .tile b _ => b.part

def Agent.key : Agent → BKey
  | .thread b _ => b
  | .mcc b => b
  | .tile b _ => b

/-- Launches that store into the pages of their own partition's point take part in it (R489). -/
def State.touchPoint (s : State) (ag : Option Agent) (a : Nat) : State :=
  match ag, undOf s.und a with
  | some g, some u =>
    (match u.point with
     | some (p, n, _) => if p = g.part then s.updLaunch g.part g.key.lnum (fun l => { l with point := some n }) else s
     | none => s)
  | _, _ => s

/-- The words of 4 bytes that `n` bytes of global memory touch, by their locations. -/
def wordsOf (l : Loc) (n : Nat) : List Loc :=
  let k : Nat → List Nat := fun a => if n = 0 then [] else (List.range ((a + n - 1) / 4 - a / 4 + 1)).map (fun i => 4 * (a / 4 + i))
  match l with
  | .dev a => (k a).map Loc.dev
  | .host a => (k a).map Loc.host
  | _ => []

/-- Which words of an L1 entry are among these. -/
def L1Word.hits (w : L1Word) (ws : List Loc) : BitVec 2 :=
  (if ws.contains w.loc then 1 else 0) ||| (if ws.contains (w.loc.plus 4) then 2 else 0)

/-- The words of a store registered at their home with the storing core as owner (R129), with no owner where none stores: what their
former owner held of them leaves its L1, and so does what the storing core held, which reads its own at the home; a core that holds a word without
owning it keeps the old value, stale from now on. -/
def State.l1Stale (s : State) (core : Option Nat) (l : Loc) (n : Nat) : State :=
  let ws := wordsOf l n
  let owned : L1Word → BitVec 2 := fun w =>
    w.hits (ws.filter (fun v => decide (some w.core = core) || s.owner.any (fun e => decide (e = (v, w.core)))))
  let kept := (s.l1.map (fun w => { w with has := w.has &&& ~~~(owned w) })).filter (fun w => decide (w.has ≠ 0))
  { s with
      l1 := kept.map (fun w => if w.hits ws &&& w.has ≠ 0 ∧ w.stale.isNone then { w with stale := some s.cycle } else w),
      owner := s.owner.filter (fun e => !ws.contains e.1) ++ (match core with | some c => ws.map (fun v => (v, c)) | none => []) }

/-- An accumulator line whose adds a near slice holds is served at its home alone (R140): no core keeps a copy of its words. -/
def State.l1Drop (s : State) (l : Loc) (n : Nat) : State :=
  let ws := wordsOf l n
  { s with l1 := s.l1.filter (fun w => decide (w.hits ws = 0)),
           ro := s.ro.filter (fun w => !(ws.contains w.loc || ws.contains (w.loc.plus 4))),
           owner := s.owner.filter (fun e => !ws.contains e.1) }

/-- BISnpInv for lines that the host may cache (R454). -/
def State.snoopHost (s : State) (ls : List Nat) : State :=
  ls.foldl (fun t l => if t.hdmHost.contains l && !t.bisnp.contains l then ({ t with bisnp := t.bisnp ++ [l] }).send (.bisnp l) else t) s

/-- The first of the lines of `n` bytes of device memory that the host may cache. -/
def State.hostMayCache (s : State) (a n : Nat) : Option Nat :=
  if n = 0 then none
  else if s.hdmHost.contains (a / 128) then some (a / 128)
  else if s.hdmHost.contains ((a + n - 1) / 128) then some ((a + n - 1) / 128)
  else none

/-- The lines of pages about to be exchanged that the host may cache: it gives them up first, so that it too reads the new frames from the exchange
on (R21, R142, R454). -/
def State.hostIn (s : State) (bases : List Nat) : List Nat :=
  s.hdmHost.filter (fun l => (undOf s.und (128 * l)).any (fun u => bases.contains u.base))

/-- Cached words of a page dropped at an exchange of its frames, so that no later load returns what it held before (R154): the L1 and read-only
copies here, and the host's by BISnpInv (R21, R142). -/
def State.dropPage (s : State) (base size : Nat) : State :=
  let inPage : Loc → Bool := fun l => match l with | .dev a => decide (base ≤ a) && decide (a < base + size) | _ => false
  ({ s with l1 := s.l1.filter (fun w => !inPage w.loc), ro := s.ro.filter (fun w => !inPage w.loc),
            owner := s.owner.filter (fun e => !inPage e.1) }).snoopHost (s.hdmHost.filter (fun l => inPage (.dev (128 * l))))

/-- A near slice holds a host line in a state (R453): modified or exclusive alone, shared beside others, in the room that its L2 has (R1). -/
def State.holdHost (s : State) (die line : Nat) (st : Mesi) : State :=
  let others := s.hostLines.filter (fun e => e.1 == line && e.2.1 != die)
  let kept : State := { s with hostLines := s.hostLines.filter (fun e => e.1 != line) ++
      (if st = .s then others.map (fun e => (e.1, e.2.1, Mesi.s)) else []) }
  let s1 := kept.l2Room die 1
  { s1 with hostLines := s1.hostLines ++ [(line, die, st)] }

/-- No near slice holds a host line. -/
def State.freeHost (s : State) (line : Nat) : State := { s with hostLines := adel s.hostLines line }

/-- The host lines that a write leaves to nobody: one past the near slices (R453). -/
def State.thruHost (s : State) (l : Loc) (n : Nat) : State :=
  match l with
  | .host a => (s.freeHost (a / 64)).freeHost ((a + n - 1) / 64)
  | _ => s

/-- The host lines that a near slice holds modified after a write (R453). -/
def State.ownHost (s : State) (die : Nat) (l : Loc) (n : Nat) : State :=
  match l with
  | .host a => (s.holdHost die (a / 64) .m).holdHost die ((a + n - 1) / 64) .m
  | _ => s

/-- A host line read by way of a die's near slice (R453): held shared, or exclusive where no other holds it and the host grants it, which is open
(log 26). -/
def State.readHostLine (s : State) (core line : Nat) : State :=
  let held := s.hostLines.filter (fun e => e.1 == line)
  if held.any (fun e => e.2.1 == dieOf core) then s
  else s.burn.holdHost (dieOf core) line (if held.isEmpty && Config.freeBool s.free then .e else .s)

/-- The host lines of `n` bytes read by way of a die's near slice. -/
def State.readHost (s : State) (core : Nat) (l : Loc) (n : Nat) : State :=
  match l with
  | .host a => (List.range ((a + max 1 n - 1) / 64 + 1 - a / 64)).foldl (fun t i => t.readHostLine core (a / 64 + i)) s
  | _ => s

/-- Bytes stored at a storage address: those of a durable page wait for the eave buffer with their tag (R145, R437), the others stand in memory, the
line modified in an L2 (R436); a write of a whole line clears its mark (R147). -/
def State.putFrame (s : State) (ag : Option Agent) (core : Option Nat) (b : Nat) (bs : List Byte) (durable : Bool) (tag : W32) : State :=
  let s1 : State :=
    if durable then { s with durp := s.durp ++ [{ ag := ag, addr := b, bytes := bs, tag := tag, die := core.map dieOf }] }
    else (s.putMem b bs).setDirty (b / 128) core
  if bs.length = 128 ∧ b % 128 = 0 then { s1 with poison := s1.poison.filter (· != b / 128) } else s1

/-- The tag of a line that an agent writes outside every open point (R437): its partition's %rps, or for the host and peers the tag it has. -/
def State.tagOf (s : State) (ag : Option Agent) (b : Nat) : W32 :=
  match ag with
  | some g => ((s.part? g.part).map (·.rps)).getD 0
  | none => s.tags.get (b / 128)

/-- A write of bytes at a device address by an agent on a core, performed at its home: a line that the host may cache waits for its response (R454);
then the page's shadows, the merge, the bytes with their tag and mark, and the L1 copies (R129). -/
def State.storeDev (s : State) (ag : Option Agent) (core : Option Nat) (a : Nat) (bs : List Byte) : Except Await State :=
  match s.hostMayCache a bs.length with
  | some line => .error (.snoop line)
  | none =>
    (asAwait (s.prepWrite a (ag.map Agent.part))).bind (fun s0 =>
      let s1 := (s0.mergeFor (.dev a) bs.length).touchPoint ag a
      let b := s1.live a
      let tag : W32 := match (undOf s1.und a).bind (·.point) with
        | some (_, k, _) => BitVec.ofNat 32 k
        | none => s1.tagOf ag b
      .ok ((s1.putFrame ag core b bs (durableIn s1.und a) tag).l1Stale core (.dev a) bs.length))

/-- A write into the publication shadow of a page (R287), which takes a frame where it has none; partials of a frame that was live before merge first
(R140). -/
def State.storeShadow (s : State) (ag : Option Agent) (core : Option Nat) (a : Nat) (bs : List Byte) : Except Await State :=
  match undOf s.und a with
  | none => .ok (s.putMem a bs)
  | some u =>
    let put : State → Nat → State := fun t f =>
      let b := f + (a - u.base)
      let t1 := t.mergeAt b bs.length
      t1.putFrame ag core b bs (durableIn t1.und a) (t1.tagOf ag b)
    match u.pub with
    | some f => .ok (put s f)
    | none =>
      match poolTake u.size s.poolFree with
      | none => .error (.page u.base)
      | some (f, rest) => .ok (put (({ s with poolFree := rest }).updUnd u.base (fun v => { v with pub := some f })) f)

/-- A store of the Plate's firmware into device memory, behind those that wait: what a page's shadow or the host's copies hold back waits, in
order, and loses nothing (R433, R454). -/
def State.fwDev (s : State) (a : Nat) (bs : List Byte) : State :=
  let l : Loc := .dev a
  if s.fwWait.any (fun e => decide (e.1.line.1 = l.line.1)) then { s with fwWait := s.fwWait ++ [(l, bs)] }
  else
    match s.storeDev none none a bs with
    | .ok t => t
    | .error (.snoop line) => ({ s with fwWait := s.fwWait ++ [(l, bs)] }).snoopHost [line]
    | .error (.page _) => { s with fwWait := s.fwWait ++ [(l, bs)] }

/-- Setting a presence or POISON bit of an image. -/
def State.setImageBit (s : State) (b : BKey) (img line : Nat) (poison x : Bool) : State :=
  let a := s.imageBitAt img (s.scratchLines b) line poison
  let m : Byte := 1 <<< (line % 8)
  s.fwDev a [if x then s.fwByte a ||| m else s.fwByte a &&& ~~~m]

/-- Marking the line of a location POISON; what was overwritten of an earlier mark counts no more. -/
def State.markPoison (s0 : State) (l : Loc) : State :=
  let s : State := { s0 with cover := s0.cover.filter (fun e => decide (e.1 ≠ l.line.1)) }
  match l with
  | .dev a => { s with poison := insertNew s.poison (s.live a / 128) }
  | .shadow a =>
    (match undOf s.und a with
     | some u => (match u.pub with
        | some f => { s with poison := insertNew s.poison ((f + (a - u.base)) / 128) }
        | none => s)
     | none => s)
  | .host a => { s with hostPoison := insertNew s.hostPoison (a / 128) }
  | .peer _ _ => s
  | .scr b o =>
    (match s.block? b with
     | some _ => s.updBlock b (fun k => { k with poison := insertNew k.poison (o / 128) })
     | none => (match s.imageOf b with
        | some img => s.setImageBit b img (o / 128) true true
        | none => s))

/-- Clearing the mark of the line of a location (R147). -/
def State.clearMark (s : State) (l : Loc) : State :=
  match l with
  | .dev a => { s with poison := s.poison.filter (· != s.live a / 128) }
  | .shadow a =>
    (match (undOf s.und a).bind (fun u => u.pub.map (fun f => f + (a - u.base))) with
     | some b => { s with poison := s.poison.filter (· != b / 128) }
     | none => s)
  | .host a => { s with hostPoison := s.hostPoison.filter (· != a / 128) }
  | .peer _ _ => s
  | .scr b o =>
    (match s.block? b with
     | some _ => s.updBlock b (fun k => { k with poison := k.poison.filter (· != o / 128) })
     | none => (match s.imageOf b with
        | some img => s.setImageBit b img (o / 128) true false
        | none => s))

/-- What the stores of one step, `grp`, have overwritten of a marked line: once they have overwritten every byte, the mark is cleared, as
by one write (R147): the lanes of an instruction may do it together. -/
def State.coverMark (s : State) (l : Loc) (n grp : Nat) : State :=
  if n = 0 || !s.poisonAt l then s
  else
    let k := l.line
    let old := ((s.cover.find? (fun e => decide (e.1 = k.1) && e.2.1 == grp)).map (·.2.2)).getD 0
    let m := (old ||| (2 ^ n - 1) * 2 ^ k.2) % 2 ^ 128
    let rest := s.cover.filter (fun e => !(decide (e.1 = k.1) && e.2.1 == grp) &&
      (s.pend.any (fun p => p.grp == e.2.1) || s.blocks.any (fun b => b.pushes.any (fun p => p.grp == e.2.1))))
    if m = 2 ^ 128 - 1 then ({ s with cover := rest.filter (fun e => decide (e.1 ≠ k.1)) }).clearMark l
    else { s with cover := rest ++ [(k.1, grp, m)] }

/-- A write of bytes at a location by an agent on a core, performed at its home: in device memory or a shadow, in host memory by way of the near
slice (R453), in a scratchpad, or in the image of a saved block (R291). A write to the scratchpad of a block that is neither resident nor saved is
dropped (R436, log 46). -/
def State.storeAt (s : State) (ag : Option Agent) (core : Option Nat) (l : Loc) (bs : List Byte) : Except Await State :=
  let n := bs.length
  match l with
  | .dev a => s.storeDev ag core a bs
  | .shadow a => s.storeShadow ag core a bs
  | .host a =>
    let s1 : State := { s with host := s.host.write a bs }
    let s2 : State := if n = 128 ∧ a % 128 = 0 then { s1 with hostPoison := s1.hostPoison.filter (· != a / 128) } else s1
    let s3 := match core with
      | some c => s2.ownHost (dieOf c) l n
      | none => s2.thruHost l n
    .ok (s3.l1Stale core (.host a) n)
  | .peer _ _ => .ok s
  | .scr b o =>
    (match s.block? b with
     | some _ => .ok (s.updBlock b (fun k =>
          { k with scratch := k.scratch.write o bs,
                   poison := if n = 128 ∧ o % 128 = 0 then k.poison.filter (· != o / 128) else k.poison }))
     | none => (match s.imageOf b with
        | some img =>
          (s.storeDev none none (s.imageScratch img o) bs).map (fun s1 =>
            if n = 128 ∧ o % 128 = 0 then s1.setImageBit b img (o / 128) true false else s1)
        | none => .ok s))

/-- A store of the Plate's firmware. -/
def State.storeFw (s : State) (l : Loc) (bs : List Byte) : State :=
  match l with
  | .dev a => s.fwDev a bs
  | _ =>
    match s.storeAt none none l bs with
    | .ok t => t
    | .error _ => { s with fwWait := s.fwWait ++ [(l, bs)] }

/-- The firmware's waiting stores tried again. -/
def State.retryFw (s : State) : State := s.fwWait.foldl (fun t e => t.storeFw e.1 e.2) { s with fwWait := [] }

/-! ### Accumulator adds (R155, R304, R307) -/

/-- One add into a line at its home: the line of the merge order (R141), written back normalized. The home's die holds it then (R146), and no core
owns its words. -/
def State.addHome (s : State) (ag : Option Agent) (l : Loc) (t : Acc) : Except Await State :=
  let s1 := s.mergeFor l 128
  let marked := s1.poisonAt l
  let k := (Acc.ofLine (s1.bytesAt l 128)).plus t true
  (s1.storeAt ag none l k.toLine).map (fun s2 => if marked then s2.markPoison l else s2)

/-- One add by a core: into its die's partial, or at the home for a durable line, a near slice that is the home, or `.sys`, and at the proxy home
of a line whose home die is out, where R304 and R436 leave open when such adds merge (DESIGN CHOICE, log 37). The line is then served at its home alone:
the host's copy and every L1 copy of it go first (R140, R454). -/
def State.addLine (s : State) (ag : Option Agent) (core : Nat) (l : Loc) (t : Acc) (sys : Bool) : Except Await State :=
  match l with
  | .dev a =>
    (match s.hostMayCache a 128 with
     | some line => .error (.snoop line)
     | none =>
       (asAwait (s.prepWrite a (ag.map Agent.part))).bind (fun s0 =>
         let line := s0.live a / 128
         let die := dieOf core
         if sys || durableIn s0.und a || Config.nearIsHome die line || s0.diesOut.contains (Config.homeDie line).val then
           s0.addHome ag l t
         else
           let s1 := (s0.l1Drop (.dev (a / 128 * 128)) 128).count core 0x09 1
           match s1.parts.find? (fun p => p.line == line && p.die == die) with
           | some _ => .ok { s1 with parts := s1.parts.map (fun p =>
               if p.line == line && p.die == die then { p with acc := p.acc.plus t true } else p) }
           | none =>
             let s2 := s1.l2Room die 2
             .ok { s2 with parts := s2.parts ++ [{ line := line, die := die, acc := Acc.zero.plus t true }] }))
  | _ => s.addHome ag l t

/-! ### Translation (R417 to R420, R451) -/

/-- What a walk finds: a leaf entry with the page's first virtual address, its size and its first physical address; no valid
entry; or a malformed one. -/
inductive PWalk where
  | leaf (pte : Nat) (va size pa : Nat)
  | missing
  | bad
  deriving DecidableEq, Repr

/-- Bytes of a page by its SIZE code (R418). -/
def pageSize (c : Nat) : Nat :=
  [12, 14, 16, 18, 20, 21, 24, 26, 29, 30].map (fun k => 2 ^ k) |>.getD c 0

/-- The SIZE codes that an entry of a level can form (R417). -/
def sizeOk (level c : Nat) : Bool :=
  if level = 0 then decide (c ≤ 4) else if level = 1 then decide (5 ≤ c) && decide (c ≤ 8) else if level = 2 then c == 9 else false

/-- The checks of R418 and R451 on the leaf entry at place `idx` of its group, and the page it maps. -/
def leafPage (level pte va idx : Nat) : PWalk :=
  let c := bitsOf pte 53 50
  let size := pageSize c
  let gran := 2 ^ (12 + 9 * level)
  let pa := bitsOf pte 49 12 * 4096
  let t := pa / 2 ^ 48
  let first := (pa : Int) - (idx * gran : Nat)
  let home := bitsOf pte 9 8
  if !sizeOk level c || decide (bitsOf pte 11 10 ≠ 0) || (decide (home < 2) && decide (bitsOf pte 63 54 ≠ 0))
      || decide (first < 0)
      || (decide (t = 0) && (decide (first.toNat / 2 ^ 39 ≠ 0) || decide (first.toNat + size > devEnd)))
      || (decide (t = 1) && !pte.testBit 7) then .bad
  else .leaf pte (va / size * size) size first.toNat

/-- `n` bytes of a location as its home serves them: after the merge that the access triggers (R140). -/
def State.homeBytes (s : State) (l : Loc) (n : Nat) : List Byte := (s.mergeFor l n).bytesAt l n

/-- The 8-byte entry at a physical address, read as a relaxed load at sys scope (R419). -/
def State.readEntry (s : State) (pa : Nat) : Nat := leNat (s.homeBytes (s.physLoc pa) 8)

/-- The entry of a table by which an access translates, with its place, where its own entry `e` at place `i` is a leaf: the entries of its group agree
in every field and their page numbers follow each other, or else any one of them translates, which is open (R418). -/
def State.groupPick (s : State) (level table e i : Nat) : Nat × Nat :=
  let gran := 2 ^ (12 + 9 * level)
  let g := pageSize (bitsOf e 53 50) / gran
  if !sizeOk level (bitsOf e 53 50) then (e, i)
  else
    let lead := i / g * g
    let es := (List.range g).map (fun k => if lead + k = i then e else s.readEntry (table + 8 * (lead + k)))
    if ((List.range g).zip es).all (fun p => decide (p.2 + i % g * gran = e + p.1 * gran)) then (e, i)
    else
      let k := (Config.freeW64 s.free).toNat % g
      (es.getD k e, lead + k)

/-- What a leaf entry at a place of a table comes to: the first entry of its group must be aligned to the page (R418). -/
def State.leafAt (s : State) (level table va e j : Nat) : PWalk :=
  let size := pageSize (bitsOf e 53 50)
  let g := size / 2 ^ (12 + 9 * level)
  if !sizeOk level (bitsOf e 53 50) then .bad
  else
    let first := if j % g = 0 then e else s.readEntry (table + 8 * (j / g * g))
    if bitsOf first 49 12 * 4096 % size ≠ 0 then .bad else leafPage level e va (j % g)

/-- The walk from a table of a level (R417, R418). -/
def State.walkFrom (s : State) (va : Nat) : Nat → Nat → PWalk
  | level, table =>
    let i := va / 2 ^ (12 + 9 * level) % 512
    let own := s.readEntry (table + 8 * i)
    let r := if own.testBit 0 && own.testBit 1 then s.groupPick level table own i else (own, i)
    let e := r.1
    if !e.testBit 0 then .missing
    else if e.testBit 1 then (if level ≥ 3 then .bad else s.leafAt level table va e r.2)
    else
      match level with
      | 0 => .bad
      | k + 1 =>
        if decide (bitsOf e 63 50 ≠ 0) || decide (bitsOf e 11 2 ≠ 0) then .bad
        else State.walkFrom s va k (bitsOf e 49 12 * 4096)

/-- The walk of a partition's tables for an address. -/
def State.walk (s : State) (p va : Nat) : PWalk := s.walkFrom va 4 (s.preg p 8).toNat

/-- The die whose TLBs the acting core uses; 4 for the Plate (R419). -/
def State.curDie (s : State) : Nat :=
  match s.cur with
  | .course core _ => dieOf core
  | .mcc core => dieOf core
  | _ => 4

/-- Whether a cached translation of a die covers an address. -/
def Xlat.serves (x : Xlat) (va die : Nat) : Bool := x.dies.contains die && decide (x.va ≤ va) && decide (va < x.va + x.size)

/-- The translation in use (R419): a cached one that covers the page may stand for the table's until its invalidation
completes; which is free. -/
def State.xlate (s : State) (p va : Nat) (die : Nat := s.curDie) : PWalk :=
  match (s.part? p).bind (fun q => q.xlat.find? (fun x => x.serves va die)) with
  | none => s.walk p va
  | some x =>
    let fresh := s.walk p va
    let old : PWalk := leafPage (if x.size ≤ 2 ^ 20 then 0 else if x.size ≤ 2 ^ 29 then 1 else 2) x.pte.toNat x.va 0
    let oldHere : PWalk := match old with
      | .leaf e _ size pa => .leaf e x.va size pa
      | w => w
    if fresh = oldHere then fresh else if Config.staleXlat s.free then oldHere else fresh

/-- Permission and attribute bits of a leaf entry (R418). -/
def pteR (e : Nat) : Bool := e.testBit 2
def pteW (e : Nat) : Bool := e.testBit 3
def pteX (e : Nat) : Bool := e.testBit 4
def pteD (e : Nat) : Bool := e.testBit 5
def pteU (e : Nat) : Bool := e.testBit 6
def pteCH (e : Nat) : Bool := e.testBit 7

/-- The location of a virtual address within a mapped page. -/
def State.locIn (s : State) (pa base va : Nat) : Loc := s.physLoc (pa + (va - base))

/-- A leaf entry with the page number of its group's first entry. -/
def firstEntry (e pa : Nat) : Nat := e - bitsOf e 49 12 * 4096 + pa / 4096 % 2 ^ 38 * 4096

/-- A translation used by a die: its TLB holds it (R419), and its page stands in the underlay table (R21, R145). -/
def State.noteLeaf (s : State) (p : Nat) (w : PWalk) (dies : List Nat := [s.curDie]) : State :=
  match w with
  | .leaf e va size pa =>
    let held : Nat → Bool := fun d => (s.part? p).any (fun q => q.xlat.any (fun x => x.serves va d))
    let new := dies.filter (fun d => !held d)
    let x : Xlat := { va := va, size := size, pte := BitVec.ofNat 64 (firstEntry e pa), dies := new }
    let s1 := if new.isEmpty then s else s.updPart p (fun q => { q with xlat := q.xlat ++ [x] })
    (match s.physLoc pa with
     | .dev a => s1.notePage a size p va (pteU e) (pteD e)
     | _ => s1)
  | _ => s

/-- Canonical form of R218. -/
def canonical (a : Nat) : Bool := let t := a / 2 ^ 56; t == 0 || t == 255

/-- Virtual addresses are walked by bits 56:0 (R417). -/
def vaBits (a : Nat) : Nat := a % 2 ^ 57

/-- A walk for an address that comes to nothing more: the entry it loaded stays known (R145, R419). -/
def State.noteVa (s : State) (p va : Nat) : State := if canonical va then s.noteLeaf p (s.xlate p (vaBits va)) else s

/-- What an access to a virtual address meets (R219, R401). -/
inductive Found where
  | ok (l : Loc) (w : PWalk)
  | noncanonical
  | missing
  | bad
  | denyRead
  | denyWrite
  deriving DecidableEq, Repr

/-- The translation of an access with its permission checks (R219). -/
def State.resolve (s : State) (p va : Nat) (rd wr : Bool) (die : Nat := s.curDie) : Found :=
  if !canonical va then .noncanonical
  else
    match s.xlate p (vaBits va) die with
    | .missing => .missing
    | .bad => .bad
    | .leaf e b n pa =>
      if rd && !pteR e then .denyRead
      else if wr && !pteW e then .denyWrite
      else .ok (s.locIn pa b (vaBits va)) (.leaf e b n pa)

/-- Bytes of the partition's address space as firmware reads them; none where a page is missing or not readable. -/
def State.readVirt (s : State) (p va : Nat) : Nat → Option (List Byte)
  | 0 => some []
  | n + 1 =>
    if !canonical va then none
    else
      match s.xlate p (vaBits va) with
      | .leaf e b _ pa =>
        if pteR e then (State.readVirt s p (va + 1) n).map (fun r => s.homeBytes (s.locIn pa b (vaBits va)) 1 ++ r) else none
      | _ => none

/-! ### Outstanding accesses -/

/-- The accesses of an agent that are still outstanding. -/
def State.pendOf (s : State) (ag : Agent) : List Pend := s.pend.filter (fun p => decide (p.ag = ag))

/-- Whether two byte runs of one space meet. -/
def Loc.meets (a : Loc) (n : Nat) (b : Loc) (m : Nat) : Bool :=
  match a, b with
  | .dev x, .dev y => decide (x < y + m) && decide (y < x + n)
  | .shadow x, .shadow y => decide (x < y + m) && decide (y < x + n)
  | .host x, .host y => decide (x < y + m) && decide (y < x + n)
  | .peer p x, .peer q y => p == q && decide (x < y + m) && decide (y < x + n)
  | .scr k x, .scr l y => decide (k = l) && decide (x < y + m) && decide (y < x + n)
  | _, _ => false

/-- Whether the eave buffer still lacks a durable store of the agent (R145). -/
def State.unaccepted (s : State) (ag : Agent) : Bool := s.durp.any (fun d => decide (d.ag = some ag))

/-- What a kind of access stores. -/
def PKind.stores : PKind → Bool
  | .store => true
  | .release _ => true
  | _ => false

/-- Whether the host still has to answer the BISnpInv that an access waits for (R142, R454). -/
def State.snooping (s : State) (p : Pend) : Bool :=
  match p.loc with
  | .dev a => s.bisnp.any (fun l => decide (128 * l < a + max 1 p.bytes.length) && decide (a < 128 * l + 128))
  | _ => false

/-- The pushes of an agent that are not performed yet. -/
def State.pushesOf (s : State) (ag : Agent) : List Push :=
  match ag with
  | .thread k tl => ((s.block? k).map (fun b => b.pushes.filter (fun p => p.tl == tl))).getD []
  | _ => []

/-- Whether an earlier access stands before one in its agent's order. The writes of a block's tiles are stores of its MCC, so that one of them meets an
earlier store of the MCC or of another tile in order (R367), though no later access of the MCC waits for it. -/
def Pend.precedes (q p : Pend) : Bool :=
  decide (q.n < p.n) && (decide (q.ag = p.ag) ||
    (match p.ag, q.ag with
     | .tile b _, .mcc c => decide (b = c) && q.loc.meets q.bytes.length p.loc p.bytes.length
     | .tile b _, .tile c _ => decide (b = c) && q.loc.meets q.bytes.length p.loc p.bytes.length
     | _, _ => false))

/-- Whether an outstanding access may be performed now: no earlier access of its agent meets its bytes, no earlier fence stands,
and for a release or a fence no earlier access is left (R129, R135, R145); the stores of one instruction to one location keep
the order of its threads (R118). -/
def State.mayPerform (s : State) (p : Pend) : Bool :=
  let before := s.pend.filter (fun q => q.precedes p)
  let pushed := (s.pushesOf p.ag).all (fun q => decide (p.n < q.n))
  let scopeOk : Scope → Bool := fun sc => match sc with | .recov => !s.unaccepted p.ag | _ => true
  p.sent.isNone && !s.snooping p &&
  s.pend.all (fun q => !(q.grp == p.grp && decide (q.n < p.n) && q.loc.meets q.bytes.length p.loc p.bytes.length)) &&
  (match p.kind with
   | .release sc => before.isEmpty && pushed && scopeOk sc
   | .fence sc => before.isEmpty && pushed && scopeOk sc
   | .ro => before.isEmpty && pushed
   | _ => before.all (fun q =>
      match q.kind with
      | .fence _ => false
      | _ => !(q.loc.meets q.bytes.length p.loc p.bytes.length)))

/-- Removing an outstanding access. -/
def State.dropPend (s : State) (n : Nat) : State := { s with pend := s.pend.filter (fun p => p.n != n) }

/-- Whether a route to a peer works: its topology entry does not say unreachable (R462). -/
def State.reachable (s : State) (peer : Nat) : Bool := ((aget? s.topo peer).getD 0).toNat % 16 != 15

/-- Sending a request to a peer (R457); one to a line whose poison mark is still to be sent goes out behind the mark, and with no route to the peer none
goes out (R461). -/
def State.request (s : State) (peer addr : Nat) (op : ReqOp) (by_ : Option ReqBy) : State :=
  let held := s.lost.contains (peer, addr / 128)
  let r : PeerReq := { id := s.nextId, peer := peer, addr := addr, op := op, by_ := by_, since := s.ns, held := held }
  let s1 := ({ s with reqs := s.reqs ++ [r] }).bumpId
  if held || !s.reachable peer then s1 else s1.send (.peer r)

/-- An outstanding access marked as sent under the request just made. -/
def State.markSent (s : State) (n : Nat) : State :=
  { s with pend := s.pend.map (fun p => if p.n == n then { p with sent := some (s.nextId - 1) } else p) }

/-- An access kept waiting: the host is asked where its copy stands in the way (R454). -/
def State.asked (s : State) (w : Await) : State :=
  match w with
  | .snoop line => s.snoopHost [line]
  | .page _ => s

/-- The core that holds what an access has written: none where a line of device memory is served whole at its home (R140, R310). -/
def Pend.holder (p : Pend) (l : Loc) : Option Nat :=
  match l with
  | .dev _ => if p.home then none else some p.core
  | _ => some p.core

/-- Performing one outstanding access that may be performed (R130); a write to a peer is sent and completes at its
acknowledgement (R142). What the empty pool or the host's copy holds back stays (R433, R454). A read-only point is dated once everything before
it has been performed (R136). -/
def State.perform (s : State) (p : Pend) : State :=
  match p.kind with
  | .fence _ => s.dropPend p.n
  | .ro =>
    (match p.ag with
     | .thread k tl => (s.dropPend p.n).updThread k tl (fun t => { t with roPoint := s.events })
     | _ => s.dropPend p.n)
  | .add t sys =>
    (match p.loc with
     | .peer m a =>
        (s.request m a (.accAtomic (padTo 32 t.record)) (some (.pend p.n))).markSent p.n
     | l => (match s.addLine (some p.ag) p.core l t sys with
        | .ok s1 => s1.dropPend p.n
        | .error w => s.asked w))
  | _ =>
    (match p.loc with
     | .peer m a => (s.request m a (.write p.bytes) (some (.pend p.n))).markSent p.n
     | l => (match s.storeAt (some p.ag) (p.holder l) l p.bytes with
        | .ok s1 =>
          let s2 := (if p.thru then s1.thruHost l p.bytes.length else s1).dropPend p.n
          s2.coverMark l p.bytes.length p.grp
        | .error w => s.asked w))

/-- Performing every outstanding access of an agent that can be performed now, in order. -/
def State.drain (s : State) (ag : Agent) : State :=
  (s.pendOf ag).foldl (fun t p =>
    match t.pend.find? (fun q => q.n == p.n) with
    | some q => if t.mayPerform q then t.perform q else t
    | none => t) s

/-- A new outstanding access. -/
def State.issueAccess (s : State) (ag : Agent) (core : Nat) (l : Loc) (va : Nat) (bs : List Byte) (k : PKind) (thru : Bool := false)
    (home : Bool := false) : State :=
  let p : Pend := { n := s.nextId, ag := ag, core := core, loc := l, va := va, bytes := bs, kind := k, grp := s.events, sent := none, thru := thru, home := home }
  ({ s with pend := s.pend ++ [p] }).bumpId

/-- Whether a push may be performed now (R118, R135, R151): no earlier push of its thread is left, none of the block meets its
bytes, and no earlier fence of the thread stands. -/
def State.mayPush (s : State) (b : Block) (p : Push) : Bool :=
  b.pushes.all (fun q => !(decide (q.n < p.n) && (q.tl == p.tl || q.loc.meets q.bytes.length p.loc p.bytes.length))) &&
  (s.pendOf (.thread b.key p.tl)).all (fun q => match q.kind with | .fence _ => decide (p.n < q.n) | _ => true)

/-- Performing one push (R151); one to a peer goes on as an outstanding store in its place among its thread's accesses, so that a release waits
for its acknowledgement (R460). -/
def State.performPush (s : State) (b : Block) (p : Push) : State :=
  let gone : State → State := fun t => t.updBlock b.key (fun c => { c with pushes := c.pushes.filter (fun q => q.n != p.n) })
  match p.loc with
  | .peer _ a =>
    let q : Pend := { n := p.n, ag := .thread b.key p.tl, core := b.core, loc := p.loc, va := a, bytes := p.bytes, kind := .store, grp := p.grp,
                      sent := none }
    gone { s with pend := insertBy (·.n) q s.pend }
  | _ =>
    match s.storeAt (some (.thread b.key p.tl)) (some b.core) p.loc p.bytes with
    | .ok t => (gone (if p.thru then t.thruHost p.loc p.bytes.length else t)).coverMark p.loc p.bytes.length p.grp
    | .error w => s.asked w

/-- The pushes of a thread performed in their order, as far as they can be now. -/
def State.drainPushes (s : State) (k : BKey) (tl : Nat) : State :=
  (s.pushesOf (.thread k tl)).foldl (fun t p =>
    match t.block? k with
    | some b => if t.mayPush b p then t.performPush b p else t
    | none => t) s

/-- Everything a release of the agent waits for, performed as far as it can be now (R129, R151). -/
def State.settle (s : State) (ag : Agent) : State :=
  match ag with
  | .thread k tl => (((s.drainPushes k tl).drain ag).drainPushes k tl).drain ag
  | _ => s.drain ag

/-- Whether nothing that a release of the agent waits for is left. -/
def State.settled (s : State) (ag : Agent) : Bool :=
  (s.pendOf ag).isEmpty && (s.pushesOf ag).isEmpty

/-- Acceptance of every durable store by the eave buffer (R437), of those whose maker passes the test. -/
def acceptInto (eave : List (Nat × List Byte)) (mem : Memory) (d : DurStore) : List (Nat × List Byte) :=
  let l0 := d.addr / 128
  let l1 := (d.addr + d.bytes.length - 1) / 128
  let put : List (Nat × List Byte) → Nat → List (Nat × List Byte) := fun e line =>
    let old := (aget? e line).getD (mem.read (128 * line) 128)
    let new := (List.range 128).map (fun i =>
      let a := 128 * line + i
      if d.addr ≤ a ∧ a < d.addr + d.bytes.length then d.bytes.getD (a - d.addr) 0 else old.getD i 0)
    aput e line new
  if l0 = l1 then put eave l0 else put (put eave l0) l1

/-- Lines the eave buffer holds at most (R437). -/
def eaveLines : Nat := 32 * 1024 * 1024 / 128

/-- The oldest durable store accepted, with the tag of its line. -/
def State.acceptOne (s : State) : State :=
  match s.durp with
  | [] => s
  | d :: rest =>
    if s.eave.length ≥ eaveLines ∧ (aget? s.eave (d.addr / 128)).isNone then s
    else { s with durp := rest, eave := acceptInto s.eave s.mem d,
                  tags := (s.tags.set (d.addr / 128) d.tag).set ((d.addr + d.bytes.length - 1) / 128) d.tag }

/-- Every durable store accepted, as far as the buffer has room. -/
def State.acceptAll (s : State) : State := (List.range s.durp.length).foldl (fun t _ => t.acceptOne) s

/-- One line drained to HBM (R437). -/
def State.drainLine (s : State) : State :=
  match s.eave with
  | [] => s
  | (l, bs) :: rest => { (s.putMem (128 * l) bs) with eave := rest }

/-! ### What a load returns -/

/-- Bytes stored at a location laid over a run of bytes read from another. -/
def overlaid (l : Loc) (r : List Byte) (at_ : Loc) (bytes : List Byte) : List Byte :=
  (List.range r.length).map (fun i =>
    let a := l.plus i
    if at_.meets bytes.length a 1 then
      bytes.getD (match a, at_ with
        | .dev x, .dev y => x - y
        | .shadow x, .shadow y => x - y
        | .host x, .host y => x - y
        | .peer _ x, .peer _ y => x - y
        | .scr _ x, .scr _ y => x - y
        | _, _ => 0) 0
    else r.getD i 0)

/-- The agent's own stores not yet performed, laid over bytes read from a location (R116). -/
def State.forward (s : State) (ag : Agent) (l : Loc) (bs : List Byte) : List Byte :=
  (s.pendOf ag).foldl (fun r p => if p.kind.stores then overlaid l r p.loc p.bytes else r) bs

/-- The number of the last of an agent's accesses that a release of it orders: its latest fence, release or released copy still under way. -/
def State.lastRelease (s : State) (ag : Agent) : Nat :=
  let ends := (s.pendOf ag).filterMap (fun p => match p.kind with | .release _ => some p.n | .fence _ => some p.n | _ => none)
  let rels := (s.copies.filter (fun c => decide (Agent.thread c.key c.tl = ag))).filterMap (·.rel)
  (ends ++ rels).foldl max 0

/-- What a pop of an agent reads: the agent's own stores and pushes that a release of it stands behind lie over the element, so that a pop after a
FENCE.ar, or after a release and an acquire, returns them (R150); others are not forwarded. -/
def State.forwardReleased (s : State) (ag : Agent) (l : Loc) (bs : List Byte) : List Byte :=
  let last := s.lastRelease ag
  let own : List (Nat × Loc × List Byte) :=
    ((s.pendOf ag).filter (fun p => p.kind.stores)).map (fun p => (p.n, p.loc, p.bytes)) ++ (s.pushesOf ag).map (fun p => (p.n, p.loc, p.bytes))
  (sortBy (fun e => e.1) (own.filter (fun e => decide (e.1 ≤ last)))).foldl (fun r e => overlaid l r e.2.1 e.2.2) bs

/-- Whether a store of the agent not performed yet overwrites the whole line of a run, and with it the line's mark (R147). -/
def State.overwritten (s : State) (ag : Agent) (l : Loc) (n : Nat) : Bool :=
  (s.pendOf ag).any (fun p => p.kind.stores && p.bytes.length == 128 && p.loc.meets 128 l 1 && p.loc.meets 128 (l.plus (n - 1)) 1)

/-- Whether a load of the agent consumes a POISON line: its own store of the whole line stands before it. -/
def State.poisonLoad (s : State) (ag : Agent) (l : Loc) (n : Nat) : Bool := s.poisonRun l n && !s.overwritten ag l n

/-- Granules of 8 bytes that a core's L1 of 128 KiB holds (R1). -/
def l1Grans : Nat := 128 * 1024 / 8

/-- A word pair taken into a core's L1, whose oldest goes where it is full, and gives its ownership up (R1, R129; log 45). -/
def State.l1Take (s : State) (w : L1Word) : State :=
  if s.l1.length < l1Grans ∨ (s.l1.filter (fun v => v.core == w.core)).length < l1Grans then { s with l1 := s.l1 ++ [w] }
  else
    match s.l1.find? (fun v => v.core == w.core) with
    | some v => { s with l1 := s.l1.erase v ++ [w],
                         owner := s.owner.filter (fun e => !(e.2 == v.core && (decide (e.1 = v.loc) || decide (e.1 = v.loc.plus 4)))) }
    | none => { s with l1 := s.l1 ++ [w] }

/-- The words of a granule that `n` bytes from place `off` touch. -/
def granWords (off n : Nat) : BitVec 2 := (if off < 4 then 1 else 0) ||| (if off + n > 4 then 2 else 0)

/-- A granule of the L1 read by a core, of which the words `need` are wanted (R129, R130): a word it holds stale may still be returned, for 4,096
cycles; otherwise it is read at its home and held. -/
def State.readGran (s : State) (core part : Nat) (va : Nat) (l : Loc) (need : BitVec 2) : List Byte × State :=
  let g := va / 8
  match s.l1.find? (fun w => w.core == core && w.part == part && w.gran == g) with
  | some w =>
    let keep := decide (w.has &&& need = need) && (match w.stale with
      | none => decide (w.loc = l)
      | some c => decide (w.loc = l) && decide (s.cycle ≤ c + 4096) && Config.staleL1 s.free)
    if keep then (natLE 8 w.val.toNat, s.burn)
    else
      let bs := s.bytesAt l 8
      let x : W64 := BitVec.ofNat 64 (leNat bs)
      (bs, { s.burn with
        l1 := s.l1.map (fun v =>
          if v.core == core && v.part == part && v.gran == g then { v with loc := l, val := x, stale := none, has := 3 } else v) })
  | none =>
    let bs := s.bytesAt l 8
    (bs, s.l1Take { core := core, part := part, gran := g, loc := l, val := BitVec.ofNat 64 (leNat bs), stale := none })

/-- A core's L1 without its words of some bytes: they have been read at their home. -/
def State.dropL1 (s : State) (core part va n : Nat) : State :=
  { s with l1 := s.l1.filter (fun w =>
      !(w.core == core && w.part == part && decide (va / 8 ≤ w.gran) && decide (w.gran ≤ (va + n - 1) / 8))) }

/-- A load of 1 to 16 aligned bytes made for a partition on a core, not from a peer: the merge it triggers, the near slice for a host line unless
the access leaves none there (`cur`, R453), and the L1 for a dev-scope access to global memory. -/
def State.loadHeld (s : State) (core part : Nat) (va : Nat) (l : Loc) (n : Nat) (bypass : Bool) (cur : Bool := bypass) : List Byte × State :=
  let s0 := s.mergeFor l n
  let s1 := if cur then s0 else s0.readHost core l n
  match l with
  | .scr _ _ => (s1.bytesAt l n, s1)
  | .peer _ _ => (s1.bytesAt l n, s1)
  | _ =>
    if bypass then (s1.bytesAt l n, s1.dropL1 core part va n)
    else if n = 16 then
      let (b0, s2) := s1.readGran core part va l 3
      let (b1, s3) := s2.readGran core part (va + 8) (l.plus 8) 3
      (b0 ++ b1, s3)
    else
      let off := va % 8
      let base : Loc := match l with
        | .dev a => .dev (a - off)
        | .host a => .host (a - off)
        | x => x
      let (b, s2) := s1.readGran core part (va - off) base (granWords off n)
      ((b.drop off).take n, s2)

/-- A load by an agent: what it is held or read as, with the agent's own stores on top (R116). -/
def State.load (s : State) (ag : Agent) (core : Nat) (va : Nat) (l : Loc) (n : Nat) (bypass : Bool) (cur : Bool := bypass) :
    List Byte × State :=
  let (bs, s1) := s.loadHeld core ag.part va l n bypass cur
  (s1.forward ag l bs, s1)

/-- What an acquire of a thread does at once (R129, R149): its core's L1 words are invalidated and its prefetched elements
discarded. -/
def State.acquire (s : State) (ag : Agent) (core : Nat) : State :=
  let s1 : State := { s with l1 := s.l1.filter (fun w => w.core != core) }
  match ag with
  | .thread k tl => s1.updThread k tl (fun t => { t with ports := t.ports.map (fun p => { p with pre := [] }) })
  | _ => s1

/-- A load on the read-only path (R136): a copy read since the thread's read-only point may be returned, unless accesses before that point
are still to be performed. A host line passes the near slice unless `cur` says that none is held (R453). -/
def State.loadRo (s : State) (ag : Agent) (core : Nat) (point : Nat) (va : Nat) (l : Loc) (n : Nat) (cur : Bool := false) :
    List Byte × State :=
  let g := va / 8
  let roPoint := if (s.pendOf ag).any (fun p => decide (p.kind = .ro)) then s.events + 1 else point
  let one : State → Nat → Loc → List Byte × State := fun s g l =>
    match s.ro.find? (fun w => w.core == core && w.part == ag.part && w.gran == g) with
    | some w =>
      if decide (w.loc = l) && decide (w.at_ ≥ roPoint) && Config.staleRo s.free then (natLE 8 w.val.toNat, s.burn)
      else
        let bs := s.bytesAt l 8
        let x : W64 := BitVec.ofNat 64 (leNat bs)
        (bs, { s.burn with
          ro := s.ro.map (fun v =>
            if v.core == core && v.part == ag.part && v.gran == g then { v with loc := l, val := x, at_ := s.events } else v) })
    | none =>
      let bs := s.bytesAt l 8
      let w : RoCopy := { core := core, part := ag.part, gran := g, loc := l, val := BitVec.ofNat 64 (leNat bs), at_ := s.events }
      (bs, { s with ro := s.ro ++ [w] })
  let s0 := s.mergeFor l n
  let s1 := if cur then s0 else s0.readHost core l n
  let off := va % 8
  let base : Loc := match l with
    | .dev a => .dev (a - off)
    | .host a => .host (a - off)
    | x => x
  let (b0, s2) := one s1 g base
  if n = 16 then
    let (b1, s3) := one s2 (g + 1) (base.plus 8)
    (s3.forward ag l (b0 ++ b1), s3)
  else (s2.forward ag l ((b0.drop off).take n), s2)

end Sys2Proof.Machine
end

