-- ==== Sys2Proof/Machine/Ops.lean ====
section
/-!
DEFINITION. The named operations of the supervisor and the thread engine: gutter records (R421 to R423, R491), ending a launch
(R399), filing threads into bins (R161 to R163), taking a trap and returning from one (R399 to R408).
-/

namespace Sys2Proof.Machine

/-! ### The gutter queue -/

/-- The 64 bytes of a record (R421). -/
def GRec.bytes (r : GRec) (seq : W32) (ns : Nat) : List Byte :=
  natLE 2 r.type ++ natLE 1 r.flags.toNat ++ natLE 1 r.src ++ natLE 4 r.lnum.toNat ++ natLE 8 ns ++ natLE 8 r.bl.toNat
    ++ natLE 4 r.tl.toNat ++ natLE 4 r.mask.toNat ++ natLE 8 r.pc.toNat ++ natLE 8 r.addr.toNat ++ natLE 4 r.aux3.toNat
    ++ natLE 4 r.aux2.toNat ++ natLE 1 (r.core % 32) ++ natLE 1 (r.core / 32) ++ natLE 1 r.part ++ natLE 1 0
    ++ natLE 4 seq.toNat

/-- The core number that stands for the Plate: both coordinate bytes 0xFF (R421). -/
def plateCore : Nat := 255 * 32 + 31

/-- A record of the Plate's firmware with everything zero but its type. -/
def GRec.plate (type : Nat) : GRec :=
  { type := type, flags := 0, src := 4, part := 0, core := plateCore, aux2 := 0, aux3 := 0, addr := 0, pc := 0, mask := 0,
    tl := 0, bl := 0, lnum := 0, by_ := .none }

def GRec.isFatal (r : GRec) : Bool := r.flags.getLsbD 0
def GRec.isRepl (r : GRec) : Bool := r.flags.getLsbD 1

def gqBase (s : State) : W64 := s.reg 0x100
def gqTail (s : State) : W32 := (s.reg 0x108).setWidth 32
def gqHead (s : State) : W32 := (s.reg 0x110).setWidth 32

/-- Entries of the ring in use (R422). -/
def State.gqUsed (s : State) : Nat := (gqTail s - gqHead s).toNat

/-- Whether the queue cannot be written (R491). -/
def State.gqUnusable (s : State) : Bool := decide (gqBase s = 0) || s.gqBroken

/-- The Plate's write of a ring at a physical address (R471, R491). -/
def State.putPhys (s : State) (pa : Nat) (bs : List Byte) : State := s.storeFw (s.physLoc pa) bs

/-- A saved block of a launch changed. -/
def State.updSaved (s : State) (k : BKey) (f : Saved → Saved) : State :=
  s.updLaunch k.part k.lnum (fun l => { l with saved := l.saved.map (fun v => if v.bl == k.bl then f v else v) })

/-- The MCC of a block, where the block is resident. -/
def State.mccOf (s : State) (k : BKey) : Option Mcc := s.mccs.find? (fun m => decide (m.key = k))

/-- The fault of a block's MCC changed: that of its core, or what its save keeps of it (R394). -/
def State.updFault (s : State) (k : BKey) (f : Mcc → Mcc) (g : Option W32 → Option (Option W32)) : State :=
  match s.mccOf k with
  | some m => s.updMcc m.core f
  | none => s.updSaved k (fun v => { v with mfault := v.mfault.bind g })

/-- A course, MCC or copy told the number of its record (R408). -/
def State.noteSeq (s : State) (by_ : GSrc) (seq : W32) : State :=
  match by_ with
  | .course core id => s.updCourse core id (fun c =>
      match c.stat with
      | .fault t none => { c with stat := .fault t (some seq) }
      | _ => c)
  | .mcc k => s.updFault k (fun m =>
      match m.stat with
      | .fault none => { m with stat := .fault (some seq) }
      | _ => m) (fun _ => some (some seq))
  | .copy id recv line => s.updCopy id (fun c =>
      { c with slow := c.slow.map (fun e => if e.1 == recv && e.2.1 == line then (e.1, e.2.1, some seq) else e) })
  | .none => s

/-- Why a record of 64 bytes cannot be written at a place of device memory yet: the host may cache its line, its page lacks a shadow, or an earlier
store of the firmware to its line waits (R433, R454). No tail runs ahead of a record (R421, R471). -/
def State.recordStop (s : State) (l : Loc) : Option Await :=
  match l with
  | .dev a =>
    if s.fwWait.any (fun e => decide (e.1.line.1 = (Loc.dev a).line.1)) then some (.snoop (a / 128))
    else
      match s.storeDev none none a (zeros 64) with
      | .ok _ => none
      | .error e => some e
  | _ => none

/-- Why the next record of the queue cannot be written yet. -/
def State.ringStop (s : State) : Option Await := s.recordStop (s.physLoc ((gqBase s).toNat + 64 * ((gqTail s).toNat % 4096)))

/-- The host asked for a line that a record waits for. -/
def State.askFor (s : State) (w : Option Await) : State :=
  match w with
  | some (.snoop l) => s.snoopHost [l]
  | _ => s

/-- The host asked for the line of the ring that it may cache. -/
def State.ringAsk (s : State) : State := s.askFor s.ringStop

/-- Whether the host has still to be asked for it. -/
def State.ringUnasked (s : State) : Bool :=
  match s.ringStop with
  | some (.snoop l) => s.hdmHost.contains l && !s.bisnp.contains l
  | _ => false

/-- Writing a record at the tail (R421): the record, then GQTAIL, then the MSI-X message (R455). The number of the Plate's core
is 0xFFFF. -/
def State.gqWrite (s : State) (r : GRec) : State :=
  let seq := gqTail s
  let bs := r.bytes seq s.ns
  let bs' := if r.core = plateCore then bs.take 56 ++ [255, 255] ++ bs.drop 58 else bs
  let s1 := s.putPhys ((gqBase s).toNat + 64 * (seq.toNat % 4096)) bs'
  let s2 := s1.setReg 0x108 ((seq + 1).setWidth 64)
  let s3 : State := if r.isRepl then { s2 with gopen := s2.gopen ++ [{ seq := seq, by_ := r.by_, answered := false }] } else s2
  (s3.noteSeq r.by_ seq).send (.msix 0)

/-- What a retry answer resumes: the course issues again at its trapping instruction with its latches (R408), the MCC re-executes
(R342, after its restore where its block is saved, R394), the copy walks again (R290). -/
def State.retrySrc (s : State) (by_ : GSrc) : State :=
  match by_ with
  | .course core id => s.updCourse core id (fun c =>
      match c.stat, c.frame with
      | .fault _ _, some f => { c with stat := .ready, latches := f.latches, chain := f.chain, frame := none, quad := none }
      | .fault _ _, none => { c with stat := .ready, quad := none }
      | _, _ => c)
  | .mcc k => s.updFault k (fun m =>
      match m.stat with
      | .fault _ => { m with stat := .running, fault := { pc := 0, cause := 0, aux0 := 0, aux1 := 0 } }
      | _ => m) (fun _ => none)
  | .copy id recv line => s.updCopy id (fun c =>
      { c with slow := c.slow.map (fun e => if e.1 == recv && e.2.1 == line then (e.1, e.2.1, none) else e) })
  | .none => s

/-- One REPL record dropped from the head: REFAULT set, GQDROP counted, its source retried (R423). -/
def State.gqDropOne (s : State) (g : GOpen) : State :=
  let h := gqHead s
  let at_ := (gqBase s).toNat + 64 * (h.toNat % 4096) + 2
  let old := match s.physLoc at_ with
    | .dev a => s.fwByte a
    | l => s.byteAt l
  let s1 := s.putPhys at_ [old ||| 4]
  let s2 := (s1.setReg 0x110 ((h + 1).setWidth 64)).setReg 0x120 ((((s1.reg 0x120).setWidth 32 : W32) + 1).setWidth 64)
  let s3 : State := { s2 with gopen := s2.gopen.filter (fun x => x.seq != g.seq) }
  if g.answered then s3 else s3.retrySrc g.by_

/-- The ring with room for a FATAL record: it takes the last free entry, or drops the oldest record if that has REPL set (R423). -/
def State.gqRoom (s : State) : Option State :=
  if s.ringStop.isSome then none
  else if s.gqUsed < 4096 then some s
  else (s.gopen.find? (fun g => g.seq == gqHead s)).map s.gqDropOne

/-- A FATAL record that finds no room is held, up to 256 of them in the order raised; one more is dropped and counted (R423, R491). -/
def State.gqFatal (s : State) (r : GRec) : State :=
  let hold : State → State := fun s =>
    if s.gheld.length < 256 then { s with gheld := s.gheld ++ [r] }
    else s.setReg 0x120 ((((s.reg 0x120).setWidth 32 : W32) + 1).setWidth 64)
  if s.gqUnusable || !s.gheld.isEmpty then hold s
  else
    match s.gqRoom with
    | some t => t.gqWrite r
    | none => (hold s).ringAsk

/-- Raising a record (R421 to R423, R491): one without FATAL waits while fewer than two entries are free or others wait. One that waits counts as raised
once it is written, as its source does (log 51). -/
def State.gutter (s : State) (r : GRec) : State :=
  if r.isFatal then s.gqFatal r
  else if s.gqUnusable || decide (s.gqUsed + 2 > 4096) || !s.gwait.isEmpty || !s.gheld.isEmpty then { s with gwait := s.gwait ++ [r] }
  else if s.ringStop.isSome then ({ s with gwait := s.gwait ++ [r] }).ringAsk
  else s.gqWrite r

/-- What waits for the ring, written as far as it fits: held FATAL records first (R491), then one waiting record (R423). -/
def State.gutterPump (s : State) : State :=
  if s.gqUnusable then s
  else
    match s.gheld, s.gwait with
    | r :: rest, _ =>
      (match s.gqRoom with
       | some t => ({ t with gheld := rest }).gqWrite r
       | none => s.ringAsk)
    | [], r :: rest =>
      if s.gqUsed + 2 > 4096 then s
      else if s.ringStop.isSome then s.ringAsk
      else ({ s with gwait := rest }).gqWrite r
    | [], [] => s

/-- Whether `gutterPump` would write a record, or ask the host for its line. -/
def State.gutterReady (s : State) : Bool :=
  !s.gqUnusable &&
  (match s.gheld, s.gwait with
   | _ :: _, _ => s.gqRoom.isSome || s.ringUnasked
   | [], _ :: _ => decide (s.gqUsed + 2 ≤ 4096) && (s.ringStop.isNone || s.ringUnasked)
   | [], [] => false)

/-! ### Error banks (R426, R427) -/

def Bank.empty (u : BitVec 16) : Bank :=
  { unit := u, valid := false, uc := false, ovf := false, poisoned := false, kind := 0, count := 0, time := 0, addr := 0,
    synd := 0, buf := zeros 32, corr := 0 }

/-- STATUS of a bank (R426). -/
def Bank.status (b : Bank) : Nat :=
  b.valid.toNat + 2 * b.uc.toNat + 4 * b.ovf.toNat + 8 * b.poisoned.toNat + 16 * b.kind.toNat

/-- The record of a bank (R426). -/
def Bank.bytes (b : Bank) : List Byte :=
  natLE 2 b.status ++ natLE 2 b.count ++ natLE 2 b.unit.toNat ++ zeros 2 ++ natLE 8 b.synd.toNat ++ natLE 8 b.addr.toNat
    ++ natLE 8 b.time.toNat

/-- A new error in a bank (R427). -/
def Bank.record (b : Bank) (uc : Bool) (kind : BitVec 3) (addr synd : W64) (ns : Nat) (poisoned : Bool) : Bank :=
  let cnt := min 65535 (b.count + 1)
  if !b.valid then
    { b with valid := true, uc := uc, ovf := false, poisoned := poisoned, kind := kind, count := 1, time := BitVec.ofNat 64 ns,
             addr := addr, synd := synd }
  else if !b.uc && uc then
    { b with uc := true, poisoned := poisoned, kind := kind, count := cnt, time := BitVec.ofNat 64 ns, addr := addr, synd := synd }
  else if b.uc && uc then { b with ovf := true, count := cnt, poisoned := b.poisoned || poisoned }
  else { b with count := cnt }

def State.bank (s : State) (u : BitVec 16) : Bank := (s.banks.find? (fun b => b.unit == u)).getD (Bank.empty u)

def State.setBank (s : State) (b : Bank) : State :=
  { s with banks := if s.banks.any (fun x => x.unit == b.unit) then s.banks.map (fun x => if x.unit == b.unit then b else x)
                    else s.banks ++ [b] }

/-- An error recorded in a unit's bank; an uncorrectable one emits a gutter record of TYPE 0x0300 (R427). -/
def State.bankError (s : State) (u : BitVec 16) (uc : Bool) (kind : BitVec 3) (addr synd : W64) (poisoned : Bool) : State :=
  let b := (s.bank u).record uc kind addr synd s.ns poisoned
  let s1 := s.setBank b
  if uc then
    ((s1.gutter { GRec.plate 0x0300 with aux2 := u.setWidth 32, aux3 := BitVec.ofNat 32 b.status })).send (.msix 2)
  else s1

/-- UNITID of a link controller of the Plate (R426). -/
def unitLink : BitVec 16 := BitVec.ofNat 16 (4 * 2 ^ 13 + 7 * 2 ^ 10)

/-- The physical core of a logical core, as die and index (R23): the identity but for repairs. -/
def State.physCore (s : State) (core : Nat) : Nat := (aget? s.coreMap core).getD
  (208 * dieOf core + (core % 32 % 16 + 16 * (core / 32 % 12)))

/-- UNITID of a core (R426). -/
def State.unitCore (s : State) (core : Nat) : BitVec 16 :=
  let p := s.physCore core
  BitVec.ofNat 16 (p / 208 * 2 ^ 13 + p % 208)

/-! ### Filing threads into bins (R161 to R163) -/

/-- Live courses of a core. -/
def State.courseCount (s : State) (core : Nat) : Nat := (s.courses.filter (fun c => c.core == core)).length

/-- A new course of threads in lanes 0 upward, ascending (R162). -/
def State.newCourse (s : State) (core slot : Nat) (tls : List Nat) : State :=
  let key := (s.blockAt? core slot).map (·.key)
  let c : Course :=
    { core := core, id := s.nextId, slot := slot, lanes := tls.map some, age := s.cycle, latches := [], chain := 0,
      stat := .ready, frame := none, reinj := [], resume := [], yielded := false, skipCmp := false, resp := [], part := 0, flight := true }
  let s1 := ({ s with courses := s.courses ++ [c] }).bumpId
  match key with
  | none => s1
  | some k => tls.foldl (fun t tl => t.updThread k tl (fun u => { u with stat := .course c.id })) s1

/-- Emitting a bin as a fresh course, where the core has a course record free (R162). -/
def State.emitBin (s : State) (b : Bin) : State :=
  if s.courseCount b.core ≥ 128 then
    { s with bins := s.bins.map (fun x => if x.core == b.core && x.id == b.id then { x with full := true } else x) }
  else
    let s1 : State := { s with bins := s.bins.filter (fun x => !(x.core == b.core && x.id == b.id)) }
    let s2 := s1.newCourse b.core b.slot (sortBy (fun x => x) (b.threads.map (·.1)))
    s2.count b.core 0x0E 1

/-- The cycle at which a bin's oldest thread was filed. -/
def Bin.oldest (b : Bin) : Nat := b.threads.foldl (fun t p => min t p.2) (b.threads.head?.elim 0 (·.2))

/-- The oldest bin of a core. -/
def State.oldestBin (s : State) (core : Nat) : Option Bin :=
  (s.bins.filter (fun b => b.core == core)).foldl (fun r b =>
    match r with
    | none => some b
    | some x => if b.oldest < x.oldest then some b else r) none

/-- Filing one thread at its PC (R161, R162): a bin with its key and room, a free bin, the oldest bin emitted first, or unfiled. -/
def State.fileOne (s : State) (k : BKey) (tl : Nat) : State :=
  match s.block? k, s.thread? k tl, s.launch? k.part k.lnum with
  | some b, some t, some l =>
    let prod := l.d.isProducer tl
    let fits : Bin → Bool := fun x =>
      x.core == b.core && x.slot == b.slot && x.producer == prod && x.key == t.pc && decide (x.threads.length < 32)
    let inBin := s.updThread k tl (fun u => { u with stat := .bin })
    let fresh : State → State := fun s1 =>
      let x : Bin := { core := b.core, id := s1.nextId, slot := b.slot, producer := prod, key := t.pc,
                       threads := [(tl, s1.cycle)], full := false }
      ({ s1 with bins := s1.bins ++ [x] }).bumpId
    match s.bins.find? fits with
    | some x =>
      let y : Bin := { x with threads := x.threads ++ [(tl, s.cycle)] }
      let s1 : State := { inBin with bins := inBin.bins.map (fun z => if z.core == x.core && z.id == x.id then y else z) }
      if y.threads.length = 32 then s1.emitBin y else s1
    | none =>
      if (s.bins.filter (fun x => x.core == b.core)).length < 16 then fresh inBin
      else
        match s.oldestBin b.core with
        | some x =>
          let s1 := inBin.emitBin x
          if (s1.bins.filter (fun x => x.core == b.core)).length < 16 then fresh s1
          else s.updThread k tl (fun u => { u with stat := .unfiled })
        | none => fresh inBin
  | _, _, _ => s

/-- A number that orders the threads of a partition's present launches by their logical index (R156): launch number, serially, from half the range
before `ref`; block; thread. -/
def logicalKey (ref : Nat) (k : BKey) (tl : Nat) : Nat :=
  ((k.lnum + 2 ^ 32 + 2 ^ 31 - ref % 2 ^ 32) % 2 ^ 32) * 2 ^ 59 + k.bl * 2 ^ 11 + tl

/-- The unfiled threads of a core in ascending logical thread index. -/
def State.unfiledOn (s : State) (core : Nat) : List (BKey × Nat) :=
  let l := (s.blocks.filter (fun b => b.core == core)).flatMap (fun b =>
    (b.threads.filter (fun u => decide (u.stat = .unfiled))).map (fun u => (b.key, u.tl)))
  let ref := (l.head?.map (fun e => e.1.lnum)).getD 0
  sortBy (fun e => logicalKey ref e.1 e.2) l

/-- Threads of a core that wait unfiled, filed in ascending logical thread index (R162). -/
def State.fileUnfiled (s : State) (core : Nat) : State := (s.unfiledOn core).foldl (fun t e => t.fileOne e.1 e.2) s

/-- A thread that must be filed (R161, R162): where others of its core wait unfiled and no bin with its key has room, it waits among them, and a bin
that an emission frees goes to the one with the least index. -/
def State.fileThread (s : State) (k : BKey) (tl : Nat) : State :=
  match s.block? k, s.thread? k tl, s.launch? k.part k.lnum with
  | some b, some t, some l =>
    if (s.unfiledOn b.core).isEmpty || s.bins.any (fun x =>
        x.core == b.core && x.slot == b.slot && x.producer == l.d.isProducer tl && x.key == t.pc && decide (x.threads.length < 32)) then
      s.fileOne k tl
    else (s.updThread k tl (fun u => { u with stat := .unfiled })).fileUnfiled b.core
  | _, _, _ => s

/-- Filing several threads at a PC, ascending. -/
def State.fileAt (s : State) (k : BKey) (tls : List Nat) (pc : W64) : State :=
  (sortBy (fun x => x) tls).foldl (fun t tl => (t.updThread k tl (fun u => { u with pc := pc })).fileThread k tl) s

/-- Lanes leaving a course; a course without threads ends. -/
def State.leaveCourse (s : State) (core id : Nat) (lanes : List Nat) : State :=
  match s.course? core id with
  | none => s
  | some c =>
    let l := (lanes32.zip c.lanes).map (fun p => if lanes.contains p.1 then none else p.2)
    if l.all (·.isNone) then s.delCourse core id
    else s.updCourse core id (fun c => { c with lanes := l })

/-! ### Ending a launch (R399) -/

/-- DONE written as a sys release of every store of the launch, with bit 63 set where it failed (R378, R399); a page that does
not translate leaves it unwritten (log 20). -/
def State.writeDone (s : State) (l : Launch) (failed : Bool) : State :=
  if l.d.doneAddr = 0 then s
  else
    let v : W64 := if failed then l.d.doneVal ||| (1 <<< 63) else l.d.doneVal
    match s.xlate l.part (vaBits l.d.doneAddr.toNat) with
    | .leaf _ b _ pa =>
      let loc := s.locIn pa b (vaBits l.d.doneAddr.toNat)
      let s0 := s.noteLeaf l.part (s.xlate l.part (vaBits l.d.doneAddr.toNat)) []
      let s1 := match loc with
        | .peer m a => s0.request m a (.write (natLE 8 v.toNat)) none
        | _ => s0.storeFw loc (natLE 8 v.toNat)
      if (s.preg l.part 0x30).getLsbD 0 then s1.send (.msix 1) else s1
    | _ => s

/-- Whether an agent belongs to a launch. -/
def Agent.ofLaunch (ag : Agent) (p n : Nat) : Bool := ag.key.part == p && ag.key.lnum == n

/-- The agents of a launch with accesses or pushes under way. -/
def State.agentsOf (s : State) (p n : Nat) : List Agent :=
  let ofPend := (s.pend.filter (fun q => q.ag.ofLaunch p n)).map (·.ag)
  let ofPush := (s.blocks.filter (fun b => b.key.part == p && b.key.lnum == n)).flatMap (fun b => b.pushes.map (fun q => Agent.thread b.key q.tl))
  (ofPend ++ ofPush).eraseDups

/-- What a launch's agents have under way, performed as its stop finds it: in order as far as that goes, then the rest. What the empty pool or the
host still holds back is lost with the blocks (R447; log 42). -/
def State.flushLaunch (s : State) (p n : Nat) : State :=
  let s1 := (s.agentsOf p n).foldl (fun t ag => t.settle ag) s
  let s2 := (s1.pend.filter (fun q => q.ag.ofLaunch p n)).foldl (fun t q =>
    match t.pend.find? (fun r => r.n == q.n) with
    | some r => if r.sent.isNone then t.perform r else t
    | none => t) s1
  { s2 with pend := s2.pend.filter (fun q => !q.ag.ofLaunch p n) }

/-- A launch's gutter records left without a source: they are written and can be dropped, and no answer resumes anything. -/
def GRec.orphan (r : GRec) (p n : Nat) : GRec :=
  if r.part = p ∧ r.lnum = BitVec.ofNat 32 n then { r with by_ := .none } else r

/-- Stopping every block of a launch and discarding its state (R399, R432): its outstanding accesses are performed first, its
copies stop (R292), its gutter records lose their sources (R423). -/
def State.stopBlocks (s : State) (p n : Nat) : State :=
  let mine : BKey → Bool := fun k => k.part == p && k.lnum == n
  let s1 := s.flushLaunch p n
  let gone := s1.blocks.filter (fun b => mine b.key)
  let cores := gone.map (·.core)
  let here : Nat → Nat → Bool := fun core slot => gone.any (fun b => b.core == core && b.slot == slot)
  { s1 with
      blocks := s1.blocks.filter (fun b => !mine b.key),
      courses := s1.courses.filter (fun c => !here c.core c.slot),
      bins := s1.bins.filter (fun b => !here b.core b.slot),
      mccs := s1.mccs.filter (fun m => !mine m.key),
      copies := s1.copies.filter (fun c => !mine c.key),
      binds := s1.binds.filter (fun r => !(r.part == p && r.lnum == n)),
      votes := s1.votes.filter (fun v => !(cores.contains v.core && !(s1.mccs.any (fun m => m.core == v.core && !mine m.key)))),
      gwait := s1.gwait.map (fun r => r.orphan p n), gheld := s1.gheld.map (fun r => r.orphan p n),
      gopen := s1.gopen.map (fun g =>
        let ends : Bool := match g.by_ with
          | .course core id => s1.courses.any (fun c => c.core == core && c.id == id && here core c.slot)
          | .mcc k => mine k
          | .copy id _ _ => s1.copies.any (fun c => c.id == id && mine c.key)
          | .none => false
        if ends then { g with by_ := .none } else g) }

/-- Returning the snapshot frames of a launch to the pool (R433). -/
def State.dropSnapshot (s : State) (p n : Nat) : State :=
  s.und.foldl (fun t u =>
    if u.snapOf = some (p, n) then
      let t1 := match u.snap with
        | some f => t.poolGive f u.size
        | none => t
      t1.updUnd u.base (fun v => { v with snapOf := none, snap := none })
    else t) s

/-- Ending a launch as fatal (R399): every block stopped, the record already written by the caller, cores freed, DONE with bit
63. -/
def State.endFatal (s : State) (p n : Nat) : State :=
  match s.launch? p n with
  | none => s
  | some l =>
    let s1 := (s.stopBlocks p n).dropSnapshot p n
    let s2 := s1.writeDone l true
    let s3 := s2.updLaunch p n (fun l => { l with stat := .ended, placed := [], saved := [], finished := [], stopping := none })
    s3.updPart p (fun q =>
      { q with queues := q.queues.map (fun x => (x.1, x.2.filter (· != n))) })

/-! ### Traps (R398 to R408) -/

/-- Cause codes (R398). -/
def cIllegal : Nat := 0x0001
def cMisalign : Nat := 0x0002
def cBounds : Nat := 0x0003
def cPage : Nat := 0x0004
def cProtect : Nat := 0x0005
def cStreamFault : Nat := 0x0006
def cStreamUnbound : Nat := 0x0007
def cCopyRights : Nat := 0x0008
def cLatchLost : Nat := 0x0009
def cRngWrap : Nat := 0x000A
def cPoison : Nat := 0x000B
def cDebug : Nat := 0x000C
def cWatchdog : Nat := 0x000D
def cFpe : Nat := 0x0100
def cSdc : Nat := 0x0101
def cTrap : Nat := 0x0102
def cStreamOver : Nat := 0x0103

/-- The handler class of a user-level cause (R399). -/
def classOf (code : Nat) : HClass :=
  if code = cFpe then .fp else if code = cSdc then .sdc else if code = cTrap then .trap
  else if code = cStreamOver then .sover else .none

/-- The position of a class in HANDLERS (R374). -/
def HClass.index : HClass → Nat
  | .none => 0 | .fp => 0 | .sdc => 1 | .trap => 2 | .sover => 3

/-- The handler of a launch for a class, 0 where there is none. -/
def Launch.handler (l : Launch) (h : HClass) : W64 := if h = .none then 0 else l.d.handlers.getD h.index 0

/-- Whether a cause is replayable when the supervisor takes it (R398). -/
def TrapInfo.replayable (t : TrapInfo) : Bool := t.code == cPage || (t.code == cStreamFault && t.aux3 == 0)

/-- A trap of a cause in lanes, every auxiliary word zero. -/
def TrapInfo.simple (code : Nat) (mask : LaneMask) (pc : W64) : TrapInfo :=
  { code := code, mask := mask, pc := pc, aux0 := [], aux1 := 0, aux2 := 0, aux3 := 0, entries := [], after := false }

/-- The same word in every lane. -/
def everyLane (x : W32) : List W32 := List.replicate 32 x

/-- %trapcause (R400). -/
def trapCauseWord (code : Nat) (repl inh : Bool) : W32 :=
  BitVec.ofNat 32 (code + (if 0x0100 ≤ code ∧ code ≤ 0x0103 then 2 ^ 16 else 0) + (if repl then 2 ^ 17 else 0)
    + (if inh then 2 ^ 18 else 0))

/-- The trap registers written for every thread of the course (R400). -/
def State.setTrapRegs (s : State) (k : BKey) (c : Course) (t : TrapInfo) (inh : Bool) : State :=
  c.members.foldl (fun u p => u.updThread k p.2 (fun th =>
    { th with trapcause := trapCauseWord t.code t.replayable inh, trapmask := t.mask, trappc := t.pc.setWidth 32,
              trappch := (t.pc >>> 32).setWidth 32,
              trapaux := [t.aux0.getD p.1 0, t.aux1, t.aux2, t.aux3] })) s

/-- The frame of a course for a trap (R402); one raised by an entry that RFT re-injects keeps the
entries that remain (R404). After an instruction that resumes behind itself its chain has ended (R45). `next` is the address
after I. -/
def Course.frameFor (c : Course) (t : TrapInfo) (next : W64) (h : HClass) (inh : Bool) : Frame :=
  { resume := if !c.reinj.isEmpty then c.resume
              else List.replicate 32 (if t.after || !t.entries.isEmpty then next else t.pc),
    latches := if t.after then [] else c.latches,
    entries := if t.entries.isEmpty then (if t.after then c.reinj.drop 1 else c.reinj) else t.entries ++ c.reinj.drop 1,
    hclass := h, inh := inh, chain := if t.after then 0 else c.chain, wait := none, bin := false }

/-- Frames of a core in use (R402). -/
def State.frameCount (s : State) (core : Nat) : Nat := (s.courses.filter (fun c => c.core == core && c.frame.isSome)).length

/-- Whether a release at a scope may complete now: every earlier access of the agent performed (R129, R142, R145). -/
def State.releasable (s : State) (ag : Agent) (sc : Scope) : Bool :=
  s.settled ag && (match sc with | .recov => !s.unaccepted ag | _ => true)

/-- Whether a block belongs to a unit that comes to rest to be vacated (R388). -/
def State.stopsUnit (s : State) (k : BKey) : Bool :=
  (s.launch? k.part k.lnum).any (fun l => l.stopping.any (fun e => e.1.contains (k.bl / l.d.unitSize)))

/-- Whether a course is at rest: at a chain's end or held with its frame, with nothing that its save could not hold. -/
def Course.atRest (c : Course) : Bool :=
  match c.stat with
  | .frame _ => false
  | .trap _ => false
  | .peer _ => false
  | .fault _ _ => true
  | .debug _ => true
  | _ => decide (c.chain = 0) && c.reinj.isEmpty && c.resp.isEmpty

/-- Whether a course may issue now. -/
def State.eligible (s : State) (c : Course) : Bool :=
  match s.blockAt? c.core c.slot with
  | none => false
  | some b =>
    let halted := (s.launch? b.key.part b.key.lnum).all (fun l => l.halted)
    let st := match c.stat with
      | .ready => true
      | .qpush q => ((s.part? b.key.part).bind (fun p => aget? p.hwq q)).all (fun l => decide (l.length < 1024))
      | .copyEntries n => decide ((s.copies.filter (fun k => k.core == c.core)).length + n ≤ 256)
      | .drain sc => c.members.all (fun p => s.releasable (.thread b.key p.2) sc)
      | .snoop line => !s.hdmHost.contains line
      | _ => false
    st && decide (c.age ≤ s.cycle) && (!halted || decide (c.chain ≠ 0)) &&
    !(s.stopsUnit b.key && c.atRest && !(s.courses.any (fun d => d.core == c.core && (match d.stat with | .frame _ => c.frame.isSome | _ => false))))

/-- Whether a trigger descriptor of a partition holds on a core in this cycle (R473): `which` is 0 for TRSTART, 1 for TRSTOP; `tags` are
the PMARK tags and `comps` the comparators that hit there. -/
def State.trigHolds (s : State) (part which core : Nat) (tags comps : List Nat) : Bool :=
  let v := (s.oreg part (0x80 + 16 * which)).toNat
  let k := (s.oreg part (0x88 + 16 * which)).toNat
  let arg := k / 256 % 256
  match k % 256 with
  | 1 => decide (aget? s.trigWr (2 * part + which) = some (s.cycle - 1)) && decide (s.cycle > 0)
  | 2 => decide (s.ns ≥ v)
  | 3 => tags.contains (v % 65536)
  | 4 => comps.contains (v % 8)
  | 5 => decide ((s.counter part core (arg / 8 % 4) (arg % 8)).toNat ≥ v)
  | _ => false

/-- The courses of a core that are eligible in this cycle (R471; log 39): those that have issued in it, and those that may issue now. -/
def State.eligibleOn (s : State) (core : Nat) : Nat :=
  (s.used.filter (fun e => e.1 == core && decide (e.2.1 < 4))).length +
    (s.courses.filter (fun c => c.core == core && s.eligible c && !s.used.any (fun e => e.1 == core && e.2.1 < 4 && e.2.2 == c.id))).length

/-- A trace record of this cycle (R471); without TREN there is none (R472). -/
def State.trace (s : State) (core part : Nat) (name : List Byte) (type : Nat) (reason quad : Nat) (mask : W32)
    (pc : W64) (aux0 aux1 : W32) : State :=
  if !(s.oreg part 0x20).getLsbD 16 then s
  else
    { s with recs := s.recs ++ [{ core := core, part := part, name := name, time := s.ns, pc := pc, aux0 := aux0, aux1 := aux1, type := type,
                                  reason := reason, elig := min 8 (s.eligibleOn core), quad := quad, mask := mask }] }

/-- The 64 bytes of a trace record (R471). -/
def TraceRec.bytes (r : TraceRec) : List Byte :=
  r.name ++ natLE 8 r.time ++ natLE 8 r.pc.toNat ++ natLE 4 r.aux0.toNat ++ natLE 4 r.aux1.toNat ++ natLE 1 r.type
    ++ natLE 1 r.reason ++ natLE 1 r.elig ++ natLE 1 r.quad ++ natLE 4 r.mask.toNat ++ zeros 16

/-- Whether the records of this cycle are written for a core: its trigger state is on, or its start condition holds (R472). -/
def State.captures (s : State) (part core : Nat) : Bool :=
  (s.oreg part 0x20).getLsbD 16 && (s.trig.contains core || s.trigHit.contains core || s.trigHolds part 0 core [] [])

/-- Where a partition's next trace record goes. -/
def State.traceAt (s : State) (part : Nat) : Nat :=
  (s.oreg part 0x40).toNat + 64 * ((s.oreg part 0x50).toNat % 2 ^ 32 % max 1 ((s.oreg part 0x48).toNat % 2 ^ 32))

/-- Why a partition's next trace record cannot be written yet, behind one that waits. -/
def State.traceStop (s : State) (part : Nat) : Option Await := s.recordStop (s.physLoc (s.traceAt part))

/-- A trace record written to its partition's ring, kept while it cannot be, or dropped where the ring is full (R471). -/
def State.writeRec (s : State) (r : TraceRec) : State :=
  let size := (s.oreg r.part 0x48).toNat % 2 ^ 32
  let tail := ((s.oreg r.part 0x50).setWidth 32 : W32)
  let head := ((s.oreg r.part 0x58).setWidth 32 : W32)
  let off := 0x200000 + 0x1000 * r.part
  if size = 0 ∨ (tail - head).toNat ≥ size then
    let lost := ((s.oreg r.part 0x60).setWidth 32 : W32)
    let s1 := s.setReg (off + 0x60) ((lost + 1).setWidth 64)
    if lost = 0 then s1.gutter { GRec.plate 0x0401 with part := r.part, tl := 0xFFFF } else s1
  else if s.recs.any (fun k => k.part == r.part) || (s.traceStop r.part).isSome then
    ({ s with recs := s.recs ++ [{ r with kept := true }] }).askFor (s.traceStop r.part)
  else (s.putPhys (s.traceAt r.part) r.bytes).setReg (off + 0x50) ((tail + 1).setWidth 64)

/-- The place of a record among those of its core's cycle: PC samples, PMARKs in ascending lane then quadrant, comparator hits, traps (R471), and
behind them, where the spec names no place, dispatches and retirements (log 39). -/
def TraceRec.rank (r : TraceRec) : Nat :=
  match r.type with
  | 1 => 0
  | 2 => 1 + 4 * (maskLanes r.mask).headD 0 + r.quad
  | 3 => 200
  | 6 => 201
  | _ => 202

/-- The records of a cycle, written in order as it ends where they are captured, behind those that waited. -/
def State.writeRecs (s : State) : State :=
  (s.recs.filter (·.kept) ++ sortBy TraceRec.rank (s.recs.filter (fun r => !r.kept && s.captures r.part r.core))).foldl
    (fun t r => t.writeRec r) { s with recs := [] }

/-- NAME of R463. -/
def nameOf (k : BKey) (tl core : Nat) : List Byte :=
  natLE 4 k.lnum ++ natLE 6 k.bl ++ natLE 2 tl ++ natLE 1 k.part ++ zeros 1 ++ natLE 1 (core % 32) ++ natLE 1 (core / 32)

/-- The lowest thread index among the lanes of a mask. -/
def Course.lowestTl (c : Course) (m : LaneMask) : Nat :=
  let l := (c.members.filter (fun p => maskHas m p.1)).map (·.2)
  l.foldl min (l.head?.getD 0)

/-- Taking a trap at an instruction of the issuing course (R399 to R405), the one operation every cause goes through: where all
frames are in use the trap waits (R402); the trap registers are written for every thread of the course; a user-level cause with
a handler enters it in the same course with every latch invalid; anything else is left to the supervisor. A trap inside a handler
goes to the supervisor with INH (R407). `next` is the address after I. -/
def State.takeTrap (s : State) (x : Ctx) (t : TrapInfo) (next : W64) : State :=
  let inh := x.c.inHandler
  if !inh && x.c.frame.isNone && s.frameCount x.core ≥ 32 then
    s.updCourse x.core x.id (fun c => { c with stat := .frame t, again := false, resume := if c.reinj.isEmpty then [next] else c.resume })
  else
    let s0 := s.trace x.core x.b.key.part (nameOf x.b.key (x.c.lowestTl t.mask) x.core) 0x06 0 (x.c.quad.getD 0) t.mask t.pc 0
      (BitVec.ofNat 32 t.code)
    let s1 := s0.setTrapRegs x.b.key x.c t inh
    let h := classOf t.code
    let addr := x.l.handler h
    if !inh && decide (addr ≠ 0) && !(t.code == cSdc && x.l.d.trelvy) then
      let f := x.c.frameFor t next h true
      let s2 := s1.updCourse x.core x.id (fun c =>
        { c with frame := some f, latches := [], chain := 0, stat := .ready, again := false, reinj := [], resume := [], skipCmp := false })
      x.c.members.foldl (fun u p => u.updThread x.b.key p.2 (fun th => { th with pc := addr })) s2
    else
      s1.updCourse x.core x.id (fun c =>
        { c with again := false, frame := some ((if inh then c.frame else none).getD (x.c.frameFor t next .none false)), stat := .trap t })

/-- Bytes 15:0 of an instruction's result in a destination of the course's lanes are written by Operands; here: the PCs of every
thread of the course set by lane. -/
def State.setPcs (s : State) (k : BKey) (c : Course) (pcs : List W64) : State :=
  c.members.foldl (fun u p => u.updThread k p.2 (fun th => { th with pc := pcs.getD p.1 th.pc })) s

/-- Every thread of the course moved past an instruction of `n` bytes; where an entry is re-injected, its RESUMEPC governs (R404). -/
def State.advance (s : State) (x : Ctx) (n : Nat) : State :=
  if x.c.reinj.isEmpty then
    x.c.members.foldl (fun u p => u.updThread x.b.key p.2 (fun th => { th with pc := th.pc + BitVec.ofNat 64 n })) s
  else s

/-- The PC of the issuing instruction. -/
def Ctx.pc (x : Ctx) : W64 :=
  match x.c.reinj.head? with
  | some e => e.pc
  | none => ((x.c.members.head?.bind (fun p => x.b.thread? p.2)).map (·.pc)).getD 0

/-- A course left waiting with no effect of its instruction (R163), which issues again. -/
def State.hold (s : State) (x : Ctx) (st : CStat) : State := s.updCourse x.core x.id (fun c => { c with stat := st, again := true })

end Sys2Proof.Machine
end

