-- ==== Sys2Proof/Machine/Streams.lean ====
section
/-!
DEFINITION. Stream ports (11): descriptors, element addresses and lengths, one pop and one push of a lane, and how what stops the
lanes of an instruction is resolved into one trap or wait (R54, R219, R259).
-/

namespace Sys2Proof.Machine

/-! ### What stops a lane -/

/-- A trap that one lane meets: the place of its cause in the instruction's order, the cause and its auxiliary words, and the address of a
stream element that faulted. -/
structure LStop where
  rank : Nat
  code : Nat
  aux0 : W32
  aux1 : W32
  aux2 : W32
  aux3 : W32
  va : Nat := 0
  deriving DecidableEq, Repr

/-- Why a lane does not complete: a trap, a wait of its course, or data awaited from a peer (R457). -/
inductive Stop where
  | trap (t : LStop)
  | wait (st : CStat)
  | peer (l : Loc) (op : ReqOp)
  deriving DecidableEq, Repr

/-- The causes of 02 R54 and 11 R259 stand before an instruction's own. -/
def rankLatch : Nat := 0
def rankUnbound : Nat := 1
def rankDir : Nat := 2
def rankPop : Nat := 3
def rankPopPoison : Nat := 5
def rankOver : Nat := 6
def rankPush : Nat := 7
def rankPushPoison : Nat := 9
def rankOperand : Nat := 10
def rankExec : Nat := 12

/-- The place of PROTECT 12, a malformed entry that an element's walk meets: R259 does not rank it, and the model puts it right after the
STREAM_FAULT of the same access (DESIGN CHOICE, log 30). -/
def rankMalformed (rank : Nat) : Nat := rank + 1

/-- What the stops of the lanes come to: the first cause that holds in any lane, in the lanes in which it holds, with the
auxiliary words of the lowest (R219); else the first wait; else the requests to peers. -/
inductive Verdict where
  | go
  | trap (t : LStop) (mask : LaneMask)
  | wait (st : CStat)
  | peer (l : List (Loc × ReqOp))
  deriving DecidableEq, Repr

/-- The traps among stops, by lane. -/
def trapsOf (l : List (Nat × Stop)) : List (Nat × LStop) :=
  l.filterMap (fun p => match p.2 with | .trap t => some (p.1, t) | _ => none)

/-- The lowest rank among traps. -/
def leastRank (l : List (Nat × LStop)) : Option Nat :=
  l.foldl (fun r p => match r with | none => some p.2.rank | some k => some (min k p.2.rank)) none

def verdict (stops : List (Nat × Stop)) : Verdict :=
  let ts := trapsOf stops
  match leastRank ts with
  | some k =>
    let hit := sortBy (fun p => p.1) (ts.filter (fun p => p.2.rank == k))
    (match hit with
     | [] => .go
     | p :: _ => .trap p.2 (maskOfLanes ((hit.filter (fun q => q.2.code == p.2.code)).map (·.1))))
  | none =>
    match stops.findSome? (fun p => match p.2 with | .wait st => some st | _ => none) with
    | some st => .wait st
    | none =>
      match stops.filterMap (fun p => match p.2 with | .peer l op => some (l, op) | _ => none) with
      | [] => .go
      | l => .peer l

/-- The page that a lane's access was denied, where its trap names it. -/
def LStop.denied (t : LStop) : Option Nat :=
  if t.va ≠ 0 then some t.va
  else if t.code = 0x0005 ∧ (t.aux3 = 1 ∨ t.aux3 = 2 ∨ t.aux3 = 9) then some (t.aux0.toNat + 2 ^ 32 * t.aux1.toNat)
  else none

/-- The walks of an instruction that goes no further: `t` is the state that its lanes came to. The entries they loaded stay known (R145, R419). -/
def State.walked (s t : State) (p : Nat) (stops : List (Nat × Stop)) : State :=
  let held := ((s.part? p).map (·.xlat)).getD []
  let s1 := ((((t.part? p).map (·.xlat)).getD []).filter (fun x => !held.contains x)).foldl (fun u x => u.noteVa p x.va) s
  (trapsOf stops).foldl (fun u e => match e.2.denied with | some a => u.noteVa p a | none => u) s1

/-- The requests that a lane's access to a peer makes: a load of more than 64 bits is one read for each 64 (R457); a whole accumulator line is
read in one step (R310). -/
def readsOf (l : Loc) (op : ReqOp) : List (Loc × ReqOp) :=
  match op with
  | .read n => if n > 64 then [(l, op)] else (List.range ((n + 7) / 8)).map (fun i => (l.plus (8 * i), .read (min 8 (n - 8 * i))))
  | o => [(l, o)]

/-- Acting on a verdict for the issuing course: nothing else of the instruction happens. -/
def State.stopFor (s : State) (x : Ctx) (next : W64) (v : Verdict) : State :=
  match v with
  | .go => s
  | .trap t m =>
    s.takeTrap x { code := t.code, mask := m, pc := x.pc, aux0 := everyLane t.aux0, aux1 := t.aux1, aux2 := t.aux2,
                   aux3 := t.aux3, entries := [], after := false, va := BitVec.ofNat 64 t.va } next
  | .wait (.drain sc) =>
    -- the accesses awaited are performed as far as they can be now
    (x.c.members.foldl (fun t p => t.settle (x.agent p.2)) s).hold x (.drain sc)
  | .wait (.snoop line) => (s.snoopHost [line]).hold x (.snoop line)
  | .wait st => s.hold x st
  | .peer l =>
    let first := s.nextId
    let s1 := (l.flatMap (fun p => readsOf p.1 p.2)).foldl (fun t p =>
      match p.1 with
      | .peer m a => t.request m a p.2 (some (.course x.core x.id))
      | _ => t) s
    s1.hold x (.peer ((List.range (s1.nextId - first)).map (· + first)))

/-- Two address words (R219). -/
def lowWord (a : Nat) : W32 := BitVec.ofNat 32 a
def highWord (a : Nat) : W32 := BitVec.ofNat 32 (a / 2 ^ 32)

/-! ### Descriptors (R248 to R255) -/

/-- The fields of a descriptor. -/
structure SDesc where
  base : W64
  len : W64
  fill : W64
  levels : List (W32 × W32)     -- COUNT, STRIDE of levels 0 to 3
  esz : Nat                     -- log2 of the element size
  sx : Bool
  dir : Nat
  idx : Bool
  own : Bool
  nlev : Nat
  cache : Nat
  idxDesc : W64
  deriving DecidableEq, Repr

/-- Reading 64 bytes as a descriptor. -/
def SDesc.of (bs : List Byte) : SDesc :=
  let w : Nat → Nat → W32 := fun lo n => BitVec.ofNat 32 (fieldLE bs lo n)
  let el := fieldLE bs 56 1
  let md := fieldLE bs 57 1
  { base := BitVec.ofNat 64 (fieldLE bs 0 8), len := BitVec.ofNat 64 (fieldLE bs 8 8),
    fill := BitVec.ofNat 64 (fieldLE bs 16 8),
    levels := [(w 24 4, w 28 4), (w 32 4, w 36 4), (w 40 4, w 44 4), (w 48 4, w 52 4)],
    esz := el % 4, sx := el.testBit 2, dir := md % 4, idx := md.testBit 2, own := md.testBit 3, nlev := fieldLE bs 58 1,
    cache := fieldLE bs 59 1, idxDesc := BitVec.ofNat 64 (fieldLE bs 32 8) }

/-- Element size in bytes. -/
def SDesc.size (d : SDesc) : Nat := 2 ^ d.esz

def SDesc.count (d : SDesc) (j : Nat) : Nat := (d.levels.getD j (0, 0)).1.toNat
def SDesc.stride (d : SDesc) (j : Nat) : Int := (d.levels.getD j (0, 0)).2.toInt

/-- Whether the bytes are an invalid descriptor (R249). -/
def descBad (bs : List Byte) : Bool :=
  let d := SDesc.of bs
  !zeroAt bs 60 4 || decide (fieldLE bs 56 1 ≥ 8) || decide (fieldLE bs 57 1 ≥ 16) || decide (d.dir = 3)
    || decide (d.cache > 4) || decide (d.nlev = 0) || decide (d.nlev > 4)
    || decide (d.fill.toNat ≥ 2 ^ (8 * d.size))
    || (d.own && decide (d.base.toNat ≥ 2 ^ 32))
    || (if d.idx then decide (d.nlev ≠ 1) || decide (d.count 0 ≠ 0) || !zeroAt bs 40 16
        else (List.range 4).any (fun j =>
          if j < d.nlev then d.count j == 0 else !zeroAt bs (24 + 8 * j) 8))

/-- Whether the bytes are an invalid index descriptor of `d` (R249). -/
def indexBad (d : SDesc) (bs : List Byte) : Bool :=
  let i := SDesc.of bs
  descBad bs || decide (i.dir ≠ 0) || i.idx || decide (i.own ≠ d.own)

/-- LEN, or the product of the counts saturated (R254). -/
def SDesc.ownLength (d : SDesc) : Nat :=
  if d.len ≠ 0 then d.len.toNat
  else min (2 ^ 64 - 1) ((List.range d.nlev).foldl (fun p j => p * d.count j) 1)

/-- A live descriptor of the block by address (R251). -/
def Block.desc (b : Block) (a : W64) : Option SDesc := (b.descs.find? (fun e => e.addr == a)).map (fun e => SDesc.of e.bytes)

/-- The length of a bound stream (R254). -/
def streamLength (b : Block) (d : SDesc) (p : Port) : Nat :=
  if p.leno ≠ 0 then p.leno.toNat
  else if d.len ≠ 0 then d.len.toNat
  else if d.idx then ((b.desc d.idxDesc).map SDesc.ownLength).getD 0
  else d.ownLength

/-- Where a pattern's element lies (R252): under SPACE 0 modulo 2^64, under SPACE 1 an exact integer. -/
def patternAddr (d : SDesc) (off : W64) (n : Nat) : Int :=
  let r := (List.range d.nlev).foldl (fun (t : Int × Nat) j =>
    (t.1 + d.stride j * ((n / t.2 % d.count j : Nat) : Int), t.2 * d.count j)) ((d.base.toNat : Int) + off.toInt, 1)
  if d.own then r.1 else r.1 % 2 ^ 64

/-- Whether every address of a pattern is a multiple of the element size (R255). -/
def patternAligned (d : SDesc) (off : W64) : Bool :=
  let k : Int := (d.size : Nat)
  decide (((d.base + off).toNat : Int) % k = 0) && (List.range d.nlev).all (fun j => decide (d.stride j % k = 0))

/-! ### Reading and placing elements -/

/-- %trapaux0 of a STREAM_FAULT (R259). -/
def streamAux (q : Fin 16) (write index : Bool) : W32 :=
  BitVec.ofNat 32 (q.val + (if write then 16 else 0) + (if index then 32 else 0))

/-- A STREAM_FAULT at a position. -/
def streamStop (rank : Nat) (q : Fin 16) (write index : Bool) (pos : Nat) (sub : Nat) (va : Nat := 0) : Stop :=
  .trap { rank := rank, code := cStreamFault, aux0 := streamAux q write index, aux1 := lowWord pos, aux2 := highWord pos,
          aux3 := BitVec.ofNat 32 sub, va := va }

def plainStop (rank code : Nat) (aux3 : Nat := 0) (va : Nat := 0) : Stop :=
  .trap { rank := rank, code := code, aux0 := 0, aux1 := 0, aux2 := 0, aux3 := BitVec.ofNat 32 aux3, va := va }

/-- Where an element lies, with the checks of R259 for a read or a write. -/
def elemLoc (s : State) (b : Block) (l : Launch) (rank : Nat) (q : Fin 16) (write index : Bool) (pos : Nat) (own : Bool)
    (a : Int) (size : Nat) : Except Stop (Loc × PWalk) :=
  if own then
    if a < 0 ∨ a.toNat + size > l.d.scratch then .error (streamStop rank q write index pos 4 a.toNat)
    else .ok (.scr b.key a.toNat, .missing)
  else
    match s.resolve b.key.part a.toNat (index || !write) (write && !index) with
    | .ok loc w => .ok (loc, w)
    | .noncanonical => .error (streamStop rank q write index pos 3 a.toNat)
    | .missing => .error (streamStop rank q write index pos 0 a.toNat)
    | .bad => .error (plainStop (rankMalformed rank) cProtect 12 a.toNat)
    | .denyRead => .error (streamStop rank q write index pos 1 a.toNat)
    | .denyWrite => .error (streamStop rank q write index pos 2 a.toNat)

/-- Whether a page is never held in L1 (R418). -/
def uncached (w : PWalk) : Bool := match w with | .leaf e _ _ _ => bitsOf e 9 8 == 1 | _ => false

/-- The agent's own adds to a line stand before its reads of the line (R155). -/
def ownAdds (s : State) (ag : Agent) (l : Loc) (n : Nat) : Except Stop Unit :=
  if (s.pendOf ag).any (fun q => match q.kind with | .add _ _ => q.loc.meets q.bytes.length l n | _ => false) then
    .error (.wait (.drain .dev))
  else .ok ()

/-- The bytes of an element of thread `tl`: a wait for its line's presence bit (R17), or for the thread's own adds to the line (R155), POISON, a peer's
data, or the load of R149. It is not ordered after the thread's own stores, but for those that a release of the thread stands behind (R150). `cur` is a
hint of CACHE 3 or 4. -/
def readElem (s : State) (x : Ctx) (tl : Nat) (poisonRank : Nat) (l : Loc) (w : PWalk) (va n : Nat) (cur : Bool) :
    Except Stop (List Byte × State) :=
  let own : List Byte × State → List Byte × State := fun r => (s.forwardReleased (x.agent tl) l r.1, r.2)
  match l with
  | .scr k o =>
    if (s.block? k).any (fun b => b.absent.any (fun e => e.1 == o / 128)) then .error (.wait (.presence k (o / 128)))
    else if s.poisonRun l n then .error (plainStop poisonRank cPoison 0 va)
    else .ok (own (s.bytesAt l n, s))
  | .peer _ _ =>
    (ownAdds s (x.agent tl) l n).bind (fun _ =>
      match x.c.resp.find? (fun r => decide (r.loc = l)) with
      | some r => if r.bad then .error (plainStop poisonRank cPoison 0 va) else .ok (own (r.data, s))
      | none => .error (.peer l (.read n)))
  | _ =>
    (ownAdds s (x.agent tl) l n).bind (fun _ =>
    let s1 := s.mergeFor l n
    if s1.poisonRun l n then .error (plainStop poisonRank cPoison 0 va)
    else .ok (own (s1.loadHeld x.core x.b.key.part va l n (cur || uncached w) cur)))

/-- The index element of position `n` (R253): its value and whether the index stream had ended. -/
def indexOf (s : State) (x : Ctx) (tl : Nat) (rank poisonRank : Nat) (q : Fin 16) (write : Bool) (d : SDesc) (p : Port)
    (n : Nat) : Except Stop (Int × Bool × State) :=
  match x.b.desc d.idxDesc with
  | none => .ok (0, true, s)
  | some i =>
    if n ≥ i.ownLength then .ok (sintOf (8 * i.size) i.fill.toNat, true, s)
    else
      let a := patternAddr i p.ioff n
      (elemLoc s x.b x.l rank q write true n i.own a i.size).bind (fun r =>
          (readElem (s.noteLeaf x.b.key.part r.2) x tl poisonRank r.1 r.2 a.toNat i.size (i.cache ≥ 3)).bind (fun e =>
            .ok (sintOf (8 * i.size) (leNat e.1), false, e.2)))

/-- The address of element `n` of a bound stream, reading the index stream where there is one (R252, R253). -/
def elemAddr (s : State) (x : Ctx) (tl : Nat) (rank poisonRank : Nat) (q : Fin 16) (write : Bool) (d : SDesc) (p : Port)
    (n : Nat) : Except Stop (Int × Bool × State) :=
  if d.idx then
    (indexOf s x tl rank poisonRank q write d p n).map (fun r =>
      let a := (d.base.toNat : Int) + p.off.toInt + r.1 * d.stride 0
      (if d.own then a else a % 2 ^ 64, r.2.1, r.2.2))
  else .ok (patternAddr d p.off n, false, s)

/-- An element widened to 64 bits (R256); a narrower position takes the low bits. -/
def widen (d : SDesc) (e : Nat) : W64 :=
  if d.sx then BitVec.ofInt 64 (sintOf (8 * d.size) e) else BitVec.ofNat 64 (e % 2 ^ (8 * d.size))

/-- fill(s) of R256. -/
def fillOf (d : SDesc) (p : Port) : W64 := widen d ((p.fillo.getD d.fill).toNat)

/-- One pop of a lane (R256): the widened element, the port after it, the state after its reads. -/
def popLane (s : State) (x : Ctx) (t : Thread) (q : Fin 16) : Except Stop (W64 × Port × State) :=
  let p := t.port q
  if !p.bound then
    .error (.trap { rank := rankUnbound, code := cStreamUnbound, aux0 := BitVec.ofNat 32 q.val, aux1 := 0, aux2 := 0, aux3 := 0 })
  else
    match x.b.desc p.desc with
    | none => .error (streamStop rankPop q false false p.rpos.toNat 6)
    | some d =>
      if d.dir = 1 then .error (streamStop rankDir q false false p.rpos.toNat 8)
      else if p.rpos.toNat ≥ streamLength x.b d p then .ok (fillOf d p, { p with send := p.send ||| 1 }, s)
      else
        match p.pre.find? (fun e => e.1 == p.rpos) with
        | some e =>
          let ended := d.idx && ((x.b.desc d.idxDesc).any (fun i => decide (p.rpos.toNat ≥ i.ownLength)))
          .ok (e.2, { p with rpos := p.rpos + 1, pre := p.pre.filter (fun e => e.1 != p.rpos),
                             send := if ended then p.send ||| 2 else p.send }, s.count x.core 0x0B 1)
        | none =>
          (elemAddr s x t.tl rankPop rankPopPoison q false d p p.rpos.toNat).bind (fun r =>
            (elemLoc r.2.2 x.b x.l rankPop q false false p.rpos.toNat d.own r.1 d.size).bind (fun lw =>
              (readElem (r.2.2.noteLeaf x.b.key.part lw.2) x t.tl rankPopPoison lw.1 lw.2 r.1.toNat d.size (d.cache ≥ 3)).bind (fun e =>
                .ok (widen d (leNat e.1),
                  { p with rpos := p.rpos + 1, send := if r.2.1 then p.send ||| 2 else p.send }, e.2.count x.core 0x0B 1))))

/-- The checks of one push of a lane at WPOS (R257, R259): the port after it and the push without its data; none where STREAM_OVER
is masked (R405). -/
def pushLane (s : State) (x : Ctx) (t : Thread) (q : Fin 16) : Except Stop (Option (Port × Deferred) × State) :=
  let p := t.port q
  if !p.bound then
    .error (.trap { rank := rankUnbound, code := cStreamUnbound, aux0 := BitVec.ofNat 32 q.val, aux1 := 0, aux2 := 0, aux3 := 0 })
  else
    match x.b.desc p.desc with
    | none => .error (streamStop rankPush q true false p.wpos.toNat 6)
    | some d =>
      let n := p.wpos.toNat
      if d.dir = 0 then .error (streamStop rankDir q true false n 8)
      else if n ≥ streamLength x.b d p then
        if x.c.frame.any (fun f => f.inh && decide (f.hclass = .sover)) then .ok (none, s)
        else .error (.trap { rank := rankOver, code := cStreamOver, aux0 := BitVec.ofNat 32 q.val, aux1 := lowWord n,
                             aux2 := highWord n, aux3 := 0 })
      else
        (elemAddr s x t.tl rankPush rankPushPoison q true d p n).bind (fun r =>
          (elemLoc r.2.2 x.b x.l rankPush q true false n d.own r.1 d.size).bind (fun lw =>
            .ok (some ({ p with wpos := p.wpos + 1, send := if r.2.1 then p.send ||| 2 else p.send },
                       { port := q, pos := p.wpos, loc := lw.1, size := d.size }),
                 r.2.2.noteLeaf x.b.key.part lw.2)))

/-- Whether a thread's port has a descriptor whose hint keeps host lines out of the near slice (R453). -/
def Block.portThru (b : Block) (tl : Nat) (q : Fin 16) : Bool :=
  (b.thread? tl).any (fun t => (b.desc (t.port q).desc).any (fun d => decide (d.cache ≥ 3)))

/-- A push with its data, pending (R257). An element of 8 bytes takes a 32-bit result extended with zeros: R257 does not say what its upper bytes are
(DESIGN CHOICE, log 31). -/
def State.addPush (s : State) (k : BKey) (tl : Nat) (d : Deferred) (x : Nat) : State :=
  (s.updBlock k (fun b =>
    { b with pushes := b.pushes ++ [{ n := s.nextId, grp := s.events, thru := b.portThru tl d.port, tl := tl, port := d.port, loc := d.loc,
                                      bytes := natLE d.size x }] })).bumpId

/-- The descriptor entries of a block that some port still uses (R251). -/
def Block.pruneDescs (b : Block) : Block :=
  let used := (b.alive.flatMap (fun t => t.ports.filterMap (fun p => if p.bound then some p.desc else none)))
  let idx := (b.descs.filter (fun e => used.contains e.addr)).filterMap (fun e =>
    let d := SDesc.of e.bytes
    if d.idx then some d.idxDesc else none)
  { b with descs := b.descs.filter (fun e => used.contains e.addr || idx.contains e.addr) }

end Sys2Proof.Machine
end

