-- ==== Sys2Proof/Machine/Operands.lean ====
section
/-!
DEFINITION. Operand forms (R36 to R41, R44, R45): what a source field supplies to a lane at the width of its position, with pops,
captured operands and poison, and what a destination field does with a result.
-/

namespace Sys2Proof.Machine

/-- What a position takes: 32, 64 or 128 bits, or a 32-bit source from which elements of format `f` are read (an F position of R40
where `f` is a floating-point format narrower than 32 bits). -/
inductive Pos where
  | w32 | w64 | w128
  | elem (f : Fmt)
  deriving DecidableEq, Repr

/-- FP32 patterns of the FP constant table, code 0x1E0 first (R40). -/
def fcTable : List Nat :=
  [0x80000000, 0x3F000000, 0x3F800000, 0x3FC00000, 0x40000000, 0x40400000, 0x40800000, 0x41000000,
   0x3E800000, 0x3E000000, 0xBF000000, 0xBF800000, 0xC0000000, 0xC0800000, 0x41200000, 0x3DCCCCCD]
  ++ [0x40490FDB, 0x3FC90FDB, 0x40C90FDB, 0x3EA2F983, 0x3F317218, 0x3FB8AA3B, 0x40549A78, 0x3FB504F3,
   0x3F3504F3, 0x402DF854, 0x7F800000, 0xFF800000, 0x7FC00000, 0x7F7FFFFF, 0x00800000]

/-- A constant's value in a narrower format (R40). -/
def fcIn (g : FFmt) (n : Nat) : Nat :=
  if n = 29 then g.maxEnc
  else if n = 30 then 2 ^ (g.p - 1)
  else (g.round (.mode .rn) (fp32.decode (fcTable.getD n 0))).1

/-- An element repeated in every element position of a 32-bit word (R91, R203). -/
def repeated (w x : Nat) : Nat := (List.range (32 / w)).foldl (fun t i => t + x * 2 ^ (w * i)) 0

/-- What an FP constant supplies in a position (R40). -/
def fcValue (n : Nat) (p : Pos) : Nat :=
  match p with
  | .elem f =>
    (match f.fp with
     | some g => if f.bits = 32 then fcTable.getD n 0 else repeated f.bits (fcIn g n)
     | none => fcTable.getD n 0)
  | _ => fcTable.getD n 0

/-- Bits of a position. -/
def Pos.bits : Pos → Nat
  | .w64 => 64
  | .w128 => 128
  | _ => 32

/-- `k` consecutive registers of a file from `n`, the lowest first (R38). -/
def regRun (f : File 32) (n k : Nat) : Nat := (List.range k).foldl (fun t i => t + (f.get (n + i)).toNat * 2 ^ (32 * i)) 0

/-- The registers that a position reads, as numbers of the marks of R428. -/
def marksOf (o : Opnd) (p : Pos) : List Nat :=
  let k := p.bits / 32
  match o with
  | .v n => (List.range k).map (· + n.val)
  | .o n => (List.range k).map (· + 240 + n.val)
  | _ => []

/-- What a source that is no port supplies (R36 to R40). -/
def plainValue (x : Ctx) (lane : Nat) (t : Thread) (lit : Option W64) (o : Opnd) (p : Pos) : Nat :=
  let k := p.bits / 32
  match o with
  | .v n => regRun t.v n.val k
  | .o n => regRun t.o n.val k
  | .b n => regRun x.b.b n.val k
  | .c n => regRun x.l.consts n.val k
  | .l n => ((x.c.latch n.val).get lane).toNat % 2 ^ p.bits
  | .imm i => (BitVec.ofInt p.bits i).toNat
  | .fc n => fcValue n.val p
  | .lit => (lit.getD 0).toNat % 2 ^ p.bits
  | .q _ => 0
  | .k _ => 0

/-- The sources of one lane, read. -/
structure LaneIn where
  vals : List Nat
  ports : List (Fin 16 × Port)
  pops : List (Fin 16 × W64)

/-- Reading one source: a captured operand (R404), a port popped at most once (R41), or a plain source; LATCH_LOST (R45) and the
POISON of a marked register or latch (R428). -/
def readSource (s : State) (x : Ctx) (lane : Nat) (t : Thread) (lit : Option W64) (i : Nat) (o : Opnd) (p : Pos) (a : LaneIn) :
    Except Stop (LaneIn × State) :=
  match (x.replay lane).bind (fun e => if e.opcap.getLsbD i then e.ops[i]? else none) with
  | some w => .ok ({ a with vals := a.vals ++ [w.toNat % 2 ^ p.bits] }, s)
  | none =>
    match o with
    | .q n =>
      (match a.pops.find? (fun e => e.1 == n) with
       | some e => .ok ({ a with vals := a.vals ++ [e.2.toNat % 2 ^ p.bits] }, s)
       | none =>
         (popLane s x t n).bind (fun r =>
           .ok ({ vals := a.vals ++ [r.1.toNat % 2 ^ p.bits], ports := a.ports ++ [(n, r.2.1)], pops := a.pops ++ [(n, r.1)] }, r.2.2)))
    | .l n =>
      let h := x.c.latch n.val
      if !h.valid then .error (plainStop rankLatch cLatchLost)
      else if maskHas h.poison lane then .error (plainStop rankOperand cPoison)
      else .ok ({ a with vals := a.vals ++ [plainValue x lane t lit o p] }, s)
    | _ =>
      if (marksOf o p).any (fun m => t.poison.contains m) then .error (plainStop rankOperand cPoison)
      else .ok ({ a with vals := a.vals ++ [plainValue x lane t lit o p] }, s)

/-- Reading as it goes on: how many sources are read, what they gave, the state, and what stopped the lane. -/
structure Reading where
  n : Nat
  inp : LaneIn
  s : State
  stops : List Stop

/-- One more source read. -/
def readNext (x : Ctx) (lane : Nat) (t : Thread) (lit : Option W64) (r : Reading) (o : Opnd × Pos) : Reading :=
  match readSource r.s x lane t lit r.n o.1 o.2 r.inp with
  | .ok (a, s1) => { n := r.n + 1, inp := a, s := s1, stops := r.stops }
  | .error e => { n := r.n + 1, inp := { r.inp with vals := r.inp.vals ++ [0] }, s := r.s, stops := r.stops ++ [e] }

/-- Of two things that stop a lane, the one whose cause comes first (R54). -/
def firstStop (b c : Stop) : Stop :=
  match b, c with
  | .trap t, .trap u => if u.rank < t.rank then c else b
  | .trap _, _ => b
  | _, .trap _ => c
  | _, _ => b

/-- The sources that a lane reads in order: SRC0 to SRC2, and the operand of its random bits. -/
def sourcesOf (srcs : List (Opnd × Pos)) (rnd : Option Opnd) : List (Opnd × Pos) :=
  match rnd with
  | none => srcs
  | some o => srcs ++ List.replicate (3 - srcs.length) (.imm 0, .w32) ++ [(o, .w32)]

/-- Reading every source of a lane, SRC0 first. Where several stop the lane, the first cause in the order of R54 is the lane's. -/
def readSources (s : State) (x : Ctx) (lane : Nat) (t : Thread) (lit : Option W64) (srcs : List (Opnd × Pos))
    (rnd : Option Opnd) : Except Stop (LaneIn × State) :=
  let r := (sourcesOf srcs rnd).foldl (readNext x lane t lit) { n := 0, inp := { vals := [], ports := [], pops := [] }, s := s, stops := [] }
  match r.stops with
  | [] => .ok (r.inp, r.s)
  | e :: es => .error (es.foldl firstStop e)

/-! ### Destinations -/

/-- Writing `k` consecutive registers of a file, the lowest bits in the lowest register (R38). -/
def regPut (f : File 32) (n k x : Nat) : File 32 :=
  (List.range k).foldl (fun t i => t.set (n + i) (BitVec.ofNat 32 (x / 2 ^ (32 * i)))) f

/-- A result of `bits` bits written to a thread's own register; the marks of what it overwrites are cleared. -/
def Thread.put (t : Thread) (o : Opnd) (bits x : Nat) : Thread :=
  let k := bits / 32
  match o with
  | .v n => { t with v := regPut t.v n.val k x, poison := t.poison.filter (fun m => !(decide (n.val ≤ m) && decide (m < n.val + k))) }
  | .o n => { t with o := regPut t.o n.val k x,
                     poison := t.poison.filter (fun m => !(decide (240 + n.val ≤ m) && decide (m < 240 + n.val + k))) }
  | _ => t

/-- A result written to a v, o or b destination of a thread (R36, R123); a port is pushed where the instruction's lanes commit. -/
def State.putDst (s : State) (k : BKey) (tl : Nat) (o : Opnd) (bits x : Nat) : State :=
  match o with
  | .b n => s.updBlock k (fun b => { b with b := regPut b.b n.val (bits / 32) x })
  | _ => s.updThread k tl (fun t => t.put o bits x)

end Sys2Proof.Machine
end

