-- ==== Sys2Proof/Machine/Flags.lean ====
section
/-!
DEFINITION. %fpflags and the precise trap FPE (R99 to R101), and how the lanes of one thread instruction complete: sources, stream
checks, results, exceptions, then every write at once (R54, R111, R113).
-/

namespace Sys2Proof.Machine

/-- %fpflags with exceptions added (R100). -/
def Thread.raise (t : Thread) (f : FFlags) : Thread := { t with fpflags := t.fpflags ||| f.setWidth 32 }

/-- The exceptions of a result that the thread traps on (R101). -/
def Thread.enabled (t : Thread) (f : FFlags) : FFlags := f &&& t.fptrap.setWidth 5

/-- Whether traps of a class are masked: its own handler runs (R405). -/
def Course.masked (c : Course) (h : HClass) : Bool := c.frame.any (fun f => f.inh && decide (f.hclass = h))

/-! ### Re-injection (R404) -/

/-- The opcode of an instruction that has an encoding. -/
def opcOf (i : Instr) : Nat :=
  match encode i with
  | some (w :: _) => w / 4 % 256
  | _ => 0

/-- The latch of the pipe that runs an instruction, where it produces a DSTX value (R44, R52). -/
def pipeLatch (i : Instr) : Option Nat :=
  let c := opcOf i
  if c = 0x60 ∨ c = 0x10 ∨ c = 0x11 ∨ c = 0xE3 ∨ !((Sys2Proof.Instr.pos i).any (·.dst)) then none
  else if c = 0x0F ∨ (0x20 ≤ c ∧ c ≤ 0x3C) ∨ (0x60 ≤ c ∧ c ≤ 0x65) ∨ (0xE2 ≤ c ∧ c ≤ 0xE4) then some 0
  else if 0x4A ≤ c ∧ c ≤ 0x50 then some 3
  else if 0x40 ≤ c ∧ c ≤ 0x56 then some 1
  else if (0x70 ≤ c ∧ c ≤ 0x86) ∨ (0xA0 ≤ c ∧ c ≤ 0xA7) ∨ c = 0xE0 ∨ c = 0xE1 then some 2
  else none

/-- The predicate destination of an instruction, 7 where it has none (R177). -/
def predDst : Instr → Fin 8
  | .icmp _ pd .. => pd
  | .fcmp _ pd .. => pd
  | .plop _ pd .. => pd
  | .vote _ _ pd .. => pd
  | .shfl _ _ _ pd .. => pd
  | .match_ _ _ _ pd .. => pd
  | .cas _ pd .. => pd
  | .qpop _ pd .. => pd
  | .probe _ pd .. => pd
  | .xbar _ (.test pd _ _) .. => pd
  | .stest _ _ pd .. => pd
  | .acctest _ _ pd .. => pd
  | _ => 7

/-- The destination of an instruction with its width, where it writes one (R35). -/
def dstOf (i : Instr) : Option (Opnd × Nat) :=
  if (Sys2Proof.Instr.hd i).any (·.wbs) then none
  else ((Sys2Proof.Instr.pos i).find? (·.dst)).map (fun p => (p.x, p.cls.w))

/-- Whether an instruction chains to the next (R46). -/
def chainOf (i : Instr) : Bool := (Sys2Proof.Instr.hd i).any (·.chain) || (Sys2Proof.Instr.ch i).any (·.chain)

/-- write_results of R404 for one lane, with the deferred push of R261 where the entry's accesses were not performed. -/
def State.writeResult (s : State) (k : BKey) (core id : Nat) (e : RqEntry) (lane tl : Nat) (r : LaneEnt) : State :=
  let x := r.res.toNat
  let s1 := s.updThread k tl (fun t => t.setPred (predDst e.i) (r.res.getLsbD 127))
  let s2 := match dstOf e.i with
    | some (.q _, _) =>
      (match r.push with
       | some d => if r.effd || r.isDone then s1 else s1.addPush k tl d x
       | none => s1)
    | some (.k _, _) => s1
    | some (d, w) => s1.putDst k tl d w (x % 2 ^ w)
    | none => s1
  match pipeLatch e.i with
  | some n => s2.updCourse core id (fun c =>
      let h := c.latch n
      c.setLatch n { val := setAt 0 h.val lane (BitVec.ofNat 64 x), valid := true,
                     poison := h.poison &&& ~~~(1 <<< lane : BitVec 32) })
  | none => s2

/-- An instruction's chain position ends: CHAIN = 1 keeps the chain open, CHAIN = 0 ends it (R45, R46). -/
def Course.chained (c : Course) (chain : Bool) : Course :=
  if chain then { c with chain := c.chain + 1, resp := [], part := 0, skipCmp := false, again := false, keep := false }
  else { c.endChain with resp := [], part := 0, skipCmp := false, again := false, keep := false }

/-- The re-injection sequence from its first remaining entry (R404): entries that execute nothing are finished here; one that
executes in some lanes stays first, its other lanes finished. After the last entry each lane continues at its RESUMEPC. -/
def State.reinject (k : BKey) (core id : Nat) : Nat → State → State
  | 0, s => s
  | n + 1, s =>
    match s.course? core id with
    | none => s
    | some c =>
      match c.reinj with
      | [] =>
        (s.setPcs k c c.resume).updCourse core id (fun c => { c with resume := [] })
      | e :: rest =>
        let write : LaneEnt → Bool := fun r => r.member && !r.cancel && r.resv
        let s1 := c.members.foldl (fun t p =>
          let r := e.lanes.getD p.1 LaneEnt.none
          if write r then t.writeResult k core id e p.1 p.2 r else t) s
        if c.members.any (fun p => (e.lanes.getD p.1 LaneEnt.none).runs) then
          let e1 : RqEntry := { e with lanes := e.lanes.map (fun r => if r.runs then r else { r with cancel := true }) }
          s1.updCourse core id (fun c => { c with reinj := e1 :: rest })
        else
          State.reinject k core id n
            (s1.updCourse core id (fun c => ({ c with reinj := rest } : Course).chained (chainOf e.i)))

/-- The end of an instruction of the issuing course: the chain, and the next entry where one was re-injected. -/
def State.chainEnd (s : State) (x : Ctx) (chain : Bool) : State :=
  if x.c.reinj.isEmpty then s.updCourse x.core x.id (fun c => c.chained chain)
  else
    State.reinject x.b.key x.core x.id (x.c.reinj.length + 1)
      (s.updCourse x.core x.id (fun c => ({ c with reinj := c.reinj.drop 1 } : Course).chained chain))

/-! ### How the lanes of an instruction complete -/

/-- What an instruction is, for its lanes: guard and chain, its bytes, its sources SRC0 to SRC2 by position, the operand of its random bits, its destination with its width,
its predicate destination (7: none), and the latch of its pipe (R52). -/
structure Shape where
  h : Hd
  size : Nat
  i : Instr
  srcs : List (Opnd × Pos)
  rnd : Option Opnd
  dst : Option (Opnd × Nat)
  pd : Fin 8
  latch : Option Nat

/-- What one lane computes: the value for DSTX, the predicate, the exceptions, and what else it does to its thread. -/
structure LaneRes where
  val : Nat
  pd : Bool
  fl : FFlags
  th : Thread → Thread

/-- What a lane of a thread instruction does with the values that it read: its result and the state after it, or what stops it. -/
abbrev LaneFn := Ctx → State → Nat → Thread → List Nat → Except Stop (LaneRes × State)

/-- A lane's result with only a value. -/
def LaneRes.value (x : Nat) : LaneRes := { val := x, pd := false, fl := 0, th := fun t => t }

/-- A lane that has computed. -/
structure LaneOut where
  lane : Nat
  tl : Nat
  inp : LaneIn
  push : Option (Port × Deferred)
  res : LaneRes

/-- The port that the destination names, where it is pushed (R35). -/
def Shape.pushPort (sh : Shape) : Option (Fin 16) :=
  if sh.h.wbs then none
  else
    match sh.dst with
    | some (.q n, _) => some n
    | _ => none

/-- One lane: its sources, the checks of its push after the pops (R258, R259), then its result. -/
def laneStep (sh : Shape) (f : LaneFn) (x : Ctx) (lane : Nat)
    (t : Thread) (s : State) : Except (List Stop) (LaneOut × State) :=
  match readSources s x lane t sh.h.lit sh.srcs sh.rnd with
  | .error e =>
    -- a destination port that is unbound, or has the wrong direction, stands before other causes
    (match sh.pushPort with
     | none => .error [e]
     | some q => (match pushLane s x t q with
        | .error g => .error [e, g]
        | .ok _ => .error [e]))
  | .ok (a, s1) =>
    let t1 := a.ports.foldl (fun u p => u.setPort p.1 p.2) t
    let pushed : Except Stop (Option (Port × Deferred) × State) :=
      match sh.pushPort with
      | none => .ok (none, s1)
      | some q => pushLane s1 x t1 q
    match pushed with
    | .error g => .error [g]
    | .ok (p, s2) =>
      match f x s2 lane t1 a.vals with
      | .error e => .error [e]
      | .ok (r, s3) => .ok ({ lane := lane, tl := t.tl, inp := a, push := p, res := r }, s3)

/-- Lanes as they go on: the state, what they computed, and what stopped them. -/
structure LaneRun where
  s : State
  outs : List LaneOut
  stops : List (Nat × Stop)

/-- One more lane. -/
def runNext (sh : Shape) (f : LaneFn) (x : Ctx) (r : LaneRun)
    (p : Nat × Thread) : LaneRun :=
  match laneStep sh f x p.1 p.2 r.s with
  | .ok (o, s1) => { s := s1, outs := r.outs ++ [o], stops := r.stops }
  | .error es => { r with stops := r.stops ++ es.map (fun e => (p.1, e)) }

/-- Every active lane in ascending logical thread index, with the state after their reads and what stopped them. -/
def runLanes (sh : Shape) (f : LaneFn) (x : Ctx) (s : State) : LaneRun :=
  (byThread (x.active sh.h.pneg sh.h.pred)).foldl (runNext sh f x) { s := s, outs := [], stops := [] }

/-- A port taken at its pop or push, written back: elements read ahead that an acquire of the instruction has discarded meanwhile stay
discarded (R149). -/
def Thread.putPort (t : Thread) (q : Fin 16) (p : Port) : Thread :=
  t.setPort q { p with pre := p.pre.filter (fun e => (t.port q).pre.contains e) }

/-- The port positions of a lane after its pops and its push. -/
def LaneOut.ports (o : LaneOut) (t : Thread) : Thread :=
  let t1 := o.inp.ports.foldl (fun u p => u.putPort p.1 p.2) t
  match o.push with
  | some (p, d) => t1.putPort d.port p
  | none => t1

/-- A lane's register results: its thread's own writes, its predicate, its destination (R111). -/
def LaneOut.write (sh : Shape) (k : BKey) (o : LaneOut) (s : State) : State :=
  let s1 := s.updThread k o.tl (fun t => ((o.res.th t).setPred sh.pd o.res.pd))
  match sh.dst with
  | none => s1
  | some (.q _, _) =>
    (match o.push with
     | some (_, d) => s1.addPush k o.tl d o.res.val
     | none => s1)
  | some (d, w) => if sh.h.wbs then s1 else s1.putDst k o.tl d w o.res.val

/-- The pipe's latch after an instruction: the result in each active lane, zero in every other (R44). -/
def latchOf (outs : List LaneOut) : Latch :=
  { val := lanes32.map (fun l => BitVec.ofNat 64 ((outs.find? (fun o => o.lane == l)).elim 0 (fun o => o.res.val))),
    valid := true, poison := 0 }

/-- The latch after a re-injected instruction: its lanes over the restored value (R404). -/
def latchOver (h : Latch) (outs : List LaneOut) : Latch :=
  { val := outs.foldl (fun v o => setAt 0 v o.lane (BitVec.ofNat 64 o.res.val)) h.val, valid := true,
    poison := h.poison &&& ~~~(maskOfLanes (outs.map (·.lane))) }

/-- The replay-queue entry of an instruction whose results are held (R101, R403). -/
def entryFor (sh : Shape) (pc : W64) (outs : List LaneOut) : RqEntry :=
  { pc := pc, words := ((encode sh.i).getD []).map (fun w => BitVec.ofNat 32 w), i := sh.i,
    lanes := lanes32.map (fun l =>
      match outs.find? (fun o => o.lane == l) with
      | none => LaneEnt.none
      | some o =>
        { member := true, resv := true, isDone := false, cancel := false, effd := false,
          opcap := BitVec.ofNat 3 (2 ^ sh.srcs.length - 1), ops := (o.inp.vals.take sh.srcs.length).map (fun v => BitVec.ofNat 64 v),
          res := BitVec.ofNat 128 (o.res.val % 2 ^ 127 + (if o.res.pd then 2 ^ 127 else 0)),
          push := o.push.map (·.2) }) }

/-- The writes of an instruction's lanes: flags, registers, predicates, pushes and the latch. -/
def writeLanes (sh : Shape) (x : Ctx) (outs : List LaneOut) (s : State) : State :=
  let k := x.b.key
  let s1 := outs.foldl (fun u o => o.write sh k (u.updThread k o.tl (fun t => (o.ports t).raise o.res.fl))) s
  match sh.latch with
    | some n => s1.updCourse x.core x.id (fun c =>
        c.setLatch n (if x.c.reinj.isEmpty then latchOf outs else latchOver (c.latch n) outs))
    | none => s1

/-- An instruction whose lanes completed: their writes, then the PC and the chain. -/
def commitLanes (sh : Shape) (x : Ctx) (outs : List LaneOut) (s : State) : State :=
  ((writeLanes sh x outs s).advance x sh.size).chainEnd x sh.h.chain

/-- FPE (R101): the flags of every active lane are set, the pops and the assigned pushes stand, and the results wait in the
instruction's entry. -/
def raiseFpe (sh : Shape) (x : Ctx) (outs : List LaneOut) (s : State) : State :=
  let k := x.b.key
  let en : LaneOut → FFlags := fun o => ((x.b.thread? o.tl).map (fun t => t.enabled o.res.fl)).getD 0
  let hit := outs.filter (fun o => en o ≠ 0)
  let all := hit.foldl (fun f o => f ||| en o) 0
  let s1 := outs.foldl (fun u o => u.updThread k o.tl (fun t => (o.ports t).raise o.res.fl)) s
  s1.takeTrap x { TrapInfo.simple cFpe (maskOfLanes (hit.map (·.lane))) x.pc with
                  aux0 := everyLane (all.setWidth 32), entries := [entryFor sh x.pc outs] } (x.pc + BitVec.ofNat 64 sh.size)

/-- Whether some lane raises an exception it traps on (R101), its handler not running (R405). -/
def fpeDue (x : Ctx) (outs : List LaneOut) : Bool :=
  !x.c.masked .fp && outs.any (fun o => ((x.b.thread? o.tl).map (fun t => t.enabled o.res.fl)).getD 0 ≠ 0)

/-- A thread instruction whose lanes may touch memory: what stops a lane stops the instruction, or every lane has completed and
`fin` says what the instruction does with what they computed. -/
def State.lanesWith (s : State) (sh : Shape) (f : LaneFn)
    (fin : Ctx → List LaneOut → State → State) : Res :=
  s.onCourse (fun x =>
    let r := runLanes sh f x s
    match verdict r.stops with
    | .go => fin x r.outs r.s
    | v => (s.walked r.s x.b.key.part r.stops).stopFor x (x.pc + BitVec.ofNat 64 sh.size) v)

/-- A thread instruction each of whose lanes writes its own results. -/
def State.lanes (s : State) (sh : Shape) (f : LaneFn) : Res :=
  s.lanesWith sh f (fun x outs t => if fpeDue x outs then raiseFpe sh x outs t else commitLanes sh x outs t)

/-- A thread instruction whose lanes only compute. -/
def State.compute (s : State) (sh : Shape) (f : Ctx → Nat → Thread → List Nat → LaneRes) : Res :=
  s.lanes sh (fun x st lane t vals => .ok (f x lane t vals, st))

/-- The control fields of a compact word as those of its extended form (R31). -/
def hdOf (h : Ch) : Hd := { chain := h.chain, pneg := h.pneg, pred := h.pred, wbs := false, lit := h.lit }

/-- The shape of an extended instruction on a pipe. -/
def shapeX (i : Instr) (h : Hd) (srcs : List (Opnd × Pos)) (dst : Option (Opnd × Nat)) (latch : Option Nat) : Shape :=
  { h := h, size := hdSize h, i := i, srcs := srcs, rnd := none, dst := dst, pd := 7, latch := latch }

/-- The shape of a compact instruction. -/
def shapeC (i : Instr) (h : Ch) (srcs : List (Opnd × Pos)) (dst : Option (Opnd × Nat)) (latch : Option Nat) : Shape :=
  { h := hdOf h, size := chSize h, i := i, srcs := srcs, rnd := none, dst := dst, pd := 7, latch := latch }

end Sys2Proof.Machine
end

