-- ==== Sys2Proof/Machine/Waits.lean ====
section
/-!
DEFINITION. What holds and releases threads: filing at a wait's end (R161), block and gang barriers (R183 to R186), stamps
(R19, R20, R187), XBAR barriers (R231 to R233), and the side of a branch that continues (R165).
-/

namespace Sys2Proof.Machine

/-- ILLEGAL at the issuing instruction (R53): every lane, the first word, the reason. -/
def State.illegal (s : State) (x : Ctx) (first : W32) (reason : Nat) : State :=
  s.takeTrap x { TrapInfo.simple cIllegal x.c.mask x.pc with aux0 := everyLane first, aux1 := BitVec.ofNat 32 reason } x.pc

/-- The first word of an instruction. -/
def firstWordOf (i : Instr) : W32 := BitVec.ofNat 32 (((encode i).getD []).headD 0)

/-! ### Leaving a course -/

/-- The threads of the course that an instruction leaves in it, moved past the instruction; its chain ends (R46). -/
def State.othersGoOn (s : State) (x : Ctx) (gone : List Nat) (size : Nat) : State :=
  let s1 := x.c.members.foldl (fun u p =>
    if gone.contains p.1 then u
    else u.updThread x.b.key p.2 (fun th => { th with pc := th.pc + BitVec.ofNat 64 size })) s
  (s1.updCourse x.core x.id (fun c => c.chained false)).leaveCourse x.core x.id gone

/-- A thread that waits outside every course, its pc at the waiting instruction. -/
def State.park (s : State) (k : BKey) (tl : Nat) (w : Wait) : State :=
  s.updThread k tl (fun t => { t with stat := .waiting w })

/-- The size of a thread instruction in bytes. -/
def sizeOf (i : Instr) : Nat :=
  match Sys2Proof.Instr.hd i, Sys2Proof.Instr.ch i with
  | some h, _ => hdSize h
  | _, some c => chSize c
  | _, _ => 12

/-- A waiting thread proceeds past its instruction and is filed (R161). -/
def State.depart (s : State) (k : BKey) (tl : Nat) : State :=
  match s.thread? k tl with
  | some t =>
    (match t.stat with
     | .waiting w => (s.updThread k tl (fun u => { u with pc := u.pc + BitVec.ofNat 64 (sizeOf w.i) })).fileThread k tl
     | _ => s)
  | none => s

/-- A waiting thread proceeds as an acquire. -/
def State.departAcq (s : State) (k : BKey) (tl : Nat) : State :=
  match s.block? k with
  | some b => (s.acquire (.thread k tl) b.core).depart k tl
  | none => s

/-! ### Divergence (R165) -/

/-- Whether a side with `n` threads at `p` is preferred to one with `m` threads at `q`. -/
def sideBefore (n : Nat) (p : W64) (m : Nat) (q : W64) : Bool := decide (n > m) || (n == m && decide (p.toNat < q.toNat))

/-- The side that continues: the most threads, on a tie the lowest PC. -/
def winner (pcs : List W64) : W64 :=
  pcs.foldl (fun best p => if sideBefore (pcs.count p) p (pcs.count best) best then p else best) (pcs.headD 0)

/-- Every thread of the course takes its next PC; the sides that do not continue are filed. -/
def State.diverge (s : State) (x : Ctx) (next : Nat → W64) : State :=
  let go := winner (x.c.members.map (fun p => next p.1))
  let out := x.c.members.filter (fun p => next p.1 ≠ go)
  let s1 := x.c.members.foldl (fun u p => u.updThread x.b.key p.2 (fun th => { th with pc := next p.1 })) s
  let s2 := (s1.chainEnd x false).leaveCourse x.core x.id (out.map (·.1))
  (sortBy (fun t => t) (out.map (·.2))).foldl (fun u tl => u.fileThread x.b.key tl) s2

/-! ### Accesses before a release -/

/-- A release by several threads at once: their accesses performed as far as they can be, and whether that is all. -/
def State.releaseAll (s : State) (ags : List Agent) (sc : Scope) : State × Bool :=
  let s1 := ags.foldl (fun t a => t.settle a) s
  (s1, ags.all (fun a => s1.releasable a sc))

/-! ### Block barriers (R183 to R185) -/

def Block.barrier (b : Block) (i : Nat) : Barrier := b.bars.getD i Barrier.idle

def State.setBarrier (s : State) (k : BKey) (i : Nat) (x : Barrier) : State :=
  s.updBlock k (fun b => { b with bars := setAt Barrier.idle b.bars i x })

/-- The threads that wait at barrier `i` of a block. -/
def Block.atBarrier (b : Block) (i : Nat) : List Nat :=
  (b.threads.filter (fun t => match t.stat with | .waiting w => w.kind == .bar && w.bar.val == i | _ => false)).map (·.tl)

/-- The wait of every thread of a block that left it to take an SDC (R341), changed where it fits: its `x` becomes 1 once the wait is
over, so that the thread goes on behind it after its RFT. -/
def State.markWoken (s : State) (b : Block) (p : Wait → Bool) (g : Wait → Wait) : State :=
  { s with courses := s.courses.map (fun c =>
      if c.core == b.core && c.slot == b.slot then
        { c with frame := c.frame.map (fun f => { f with wait := f.wait.map (fun w => if p w then g w else w) }) }
      else c) }

/-- A phase that has its arrivals completes: every waiting thread departs, ascending, and the phase closes. -/
def State.completeBar (s : State) (k : BKey) (i : Nat) : State :=
  match s.block? k with
  | none => s
  | some b =>
    let bar := b.barrier i
    if bar.isOpen && decide (bar.arr ≥ bar.exp) then
      let s1 := (s.setBarrier k i Barrier.idle).markWoken b (fun w => w.kind == .bar && w.bar.val == i) (fun w => { w with x := 1 })
      (sortBy (fun t => t) (b.atBarrier i)).foldl (fun t tl => t.departAcq k tl) s1
    else s

/-- One arrival at barrier `i` with COUNT `cnt`: the first of a phase sets its expected count. -/
def State.arriveBar (s : State) (k : BKey) (i cnt : Nat) : State :=
  match s.block? k with
  | none => s
  | some b =>
    let bar := b.barrier i
    let bar1 : Barrier :=
      if bar.isOpen then { bar with arr := bar.arr + 1 }
      else { arr := 1, exp := if cnt = 0 then b.alive.length else cnt, cnt := cnt, isOpen := true }
    (s.setBarrier k i bar1).completeBar k i

/-! ### Gang barriers (R186) -/

/-- Threads not exited in all resident blocks of a gang. -/
def State.gangAlive (s : State) (l : Launch) (g : Nat) : Nat :=
  (s.blocks.filter (fun b => b.key.part == l.part && b.key.lnum == l.lnum && b.key.bl / l.d.unitSize == g)).foldl
    (fun n b => n + b.alive.length) 0

/-- The key under which a gang's completed phase waits for its departures (R171). -/
def gangDone (g : Nat) : Nat := 2 ^ 64 + g

/-- The threads that wait at the gang barrier of gang `g`; `closing` picks those of a phase that has its arrivals. -/
def State.atGangBarrier (s : State) (part lnum unit g : Nat) (closing : Bool) : List (BKey × Nat) :=
  (s.blocks.filter (fun b => b.key.part == part && b.key.lnum == lnum && b.key.bl / unit == g)).flatMap (fun b =>
    (b.threads.filter (fun t =>
      match t.stat with | .waiting w => w.kind == .gbar && (w.a == 1) == closing | _ => false)).map (fun t => (b.key, t.tl)))

/-- `markWoken` for the gang barrier, in every block of a gang. -/
def State.markGang (s : State) (part lnum unit g : Nat) (p : Wait → Bool) (f : Wait → Wait) : State :=
  (s.blocks.filter (fun b => b.key.part == part && b.key.lnum == lnum && b.key.bl / unit == g)).foldl
    (fun t b => t.markWoken b (fun w => w.kind == .gbar && p w) f) s

/-- A gang's phase that has its arrivals closes: its threads depart when the totals have combined. -/
def State.closeGang (s : State) (part lnum g : Nat) : State :=
  match s.launch? part lnum with
  | none => s
  | some l =>
    match aget? l.gbars g with
    | none => s
    | some bar =>
      if bar.isOpen && decide (bar.arr ≥ bar.exp) then
        let s1 := s.updLaunch part lnum (fun l =>
          { l with gbars := aput (adel l.gbars g) (gangDone g) { bar with isOpen := false } })
        let s2 := (s1.atGangBarrier part lnum l.d.unitSize g false).foldl (fun t e =>
          t.updThread e.1 e.2 (fun u =>
            match u.stat with
            | .waiting w => { u with stat := .waiting { w with a := 1 } }
            | _ => u)) s1
        s2.markGang part lnum l.d.unitSize g (fun w => w.a == 0) (fun w => { w with a := 1 })
      else s

/-- One arrival at the gang barrier of gang `g`. -/
def State.arriveGang (s : State) (part lnum g : Nat) : State :=
  match s.launch? part lnum with
  | none => s
  | some l =>
    let bar := (aget? l.gbars g).getD Barrier.idle
    let bar1 : Barrier :=
      if bar.isOpen then { bar with arr := bar.arr + 1 }
      else { arr := 1, exp := s.gangAlive l g, cnt := 0, isOpen := true }
    (s.updLaunch part lnum (fun l => { l with gbars := aput l.gbars g bar1 })).closeGang part lnum g

/-! ### Exits (R181) -/

/-- One thread exits: the expected counts of the open COUNT-0 phases it took part in fall. -/
def State.exitThread (s : State) (k : BKey) (tl : Nat) : State :=
  let s1 := s.updThread k tl (fun t => { t with stat := .exited })
  let lower : Barrier → Barrier := fun x => if x.isOpen && x.cnt == 0 then { x with exp := x.exp - 1 } else x
  let s2 := s1.updBlock k (fun b => ({ b with bars := b.bars.map lower } : Block).pruneDescs)
  let s3 := (List.range 16).foldl (fun t i => t.completeBar k i) s2
  match s3.launch? k.part k.lnum with
  | none => s3
  | some l =>
    if l.d.gangw = 0 then s3
    else
      let g := k.bl / l.d.unitSize
      match aget? l.gbars g with
      | some bar =>
        if bar.isOpen then
          (s3.updLaunch k.part k.lnum (fun l => { l with gbars := aput l.gbars g { bar with exp := bar.exp - 1 } })).closeGang
            k.part k.lnum g
        else s3
      | none => s3

/-! ### Stamps (R19, R20) -/

/-- The value of a stamp as an acquire reads it at its home; a peer's is open (log 14). -/
def State.stampAt (s : State) (ag : Option Agent) (l : Loc) : Nat × State :=
  let s1 := s.mergeFor l 8
  let bs := s1.bytesAt l 8
  (leNat (match ag with | some a => s1.forward a l bs | none => bs),
   match l with | .peer _ _ => s1.burn 8 | _ => s1)

/-- A waiting thread's stamp tested again (R187): where the condition holds the thread proceeds as an acquire. -/
def State.retest (s : State) (k : BKey) (tl : Nat) : State :=
  match s.thread? k tl with
  | none => s
  | some t =>
    match t.stat with
    | .waiting w =>
      (match w.kind, w.loc with
       | .wait, some l =>
         let (v, s1) := s.stampAt (some (.thread k tl)) l
         if v ≥ w.x.toNat then s1.departAcq k tl else s
       | _, _ => s)
    | _ => s

/-! ### XBAR barriers (R231) -/

/-- The fields of a barrier. -/
structure Xb where
  pend : Int
  err : Bool
  left : Nat
  count : Nat
  phase : W32
  deriving DecidableEq, Repr

def Xb.of (bs : List Byte) : Xb :=
  { pend := sintOf 40 (fieldLE bs 0 5), err := (fieldLE bs 5 1).testBit 0, left := fieldLE bs 8 2, count := fieldLE bs 10 2,
    phase := BitVec.ofNat 32 (fieldLE bs 12 4) }

def Xb.bytes (x : Xb) : List Byte :=
  natLE 5 (BitVec.ofInt 40 x.pend).toNat ++ natLE 1 x.err.toNat ++ zeros 2 ++ natLE 2 x.left ++ natLE 2 x.count
    ++ natLE 4 x.phase.toNat

/-- PEND changed by `n`: a result outside the 40 bits wraps and sets ERR (R232). -/
def Xb.addPend (x : Xb) (n : Int) : Xb :=
  let y := x.pend + n
  let w := (BitVec.ofInt 40 y).toInt
  { x with pend := w, err := x.err || decide (w ≠ y) }

/-- An arrival (R232). -/
def Xb.arrive (x : Xb) : Xb := if x.left > 0 then { x with left := x.left - 1 } else { x with err := true }

/-- The completion test after each step (R231). -/
def Xb.test (x : Xb) : Xb := if x.left = 0 ∧ x.pend = 0 then { x with phase := x.phase + 1, left := x.count } else x

/-- The barrier at an offset of a block's scratchpad. -/
def State.xb (s : State) (k : BKey) (off : Nat) : Xb := Xb.of (s.bytesAt (.scr k off) 16)

/-- One atomic step on the 16 bytes. -/
def State.xbStep (s : State) (k : BKey) (off : Nat) (x : Xb) : State :=
  match s.storeAt none none (.scr k off) x.bytes with
  | .ok t => t
  | .error _ => s

/-- A waiting thread's barrier tested again (R233). -/
def State.xbRetest (s : State) (k : BKey) (tl : Nat) : State :=
  match s.thread? k tl with
  | none => s
  | some t =>
    match t.stat with
    | .waiting w =>
      if w.kind == .xbar && decide ((s.xb k w.a.toNat).phase ≠ w.x.setWidth 32) then s.departAcq k tl else s
    | _ => s

/-! ### Threads that leave or wait -/

/-- The lanes of an instruction that files threads when they leave: each goes on at once, as an acquire or not, or waits. The
other threads of the course go on in it. -/
def State.partWays (s : State) (x : Ctx) (size : Nat) (outs : List (Nat × Nat × Option Wait)) (acq : Bool) : State :=
  let s1 := s.othersGoOn x (outs.map (·.1)) size
  outs.foldl (fun t o =>
    match o.2.2 with
    | some w => t.park x.b.key o.2.1 w
    | none =>
      let t1 := if acq then t.acquire (.thread x.b.key o.2.1) x.core else t
      (t1.updThread x.b.key o.2.1 (fun u => { u with pc := u.pc + BitVec.ofNat 64 size })).fileThread x.b.key o.2.1) s1

end Sys2Proof.Machine
end

