-- ==== Sys2Proof/Machine/Address.lean ====
section
/-!
DEFINITION. The address mode of the memory instructions (R47, R48, R218), its traps in the order of R219, presence waits (R220),
and one aligned access of a lane: load, store, atomic step.
-/

namespace Sys2Proof.Machine

/-! ### Sources -/

/-- Whether an access goes to the global space. -/
def globalOf (m : MemF) : Bool := match m.tgt with | .global => true | _ => false

/-- SRC0 to SRC2 of an addressed instruction: base, data, and the per-lane role or a third source. -/
def memSrcs (m : MemF) (data : Option (Opnd × Pos)) (third : Option (Opnd × Pos)) : List (Opnd × Pos) :=
  let base : Opnd × Pos := (m.base, if globalOf m then .w64 else .w32)
  let role : Option (Opnd × Pos) := match m.tgt with
    | .laneRole r => some (r, .w32)
    | _ => third
  match data, role with
  | none, none => [base]
  | some d, none => [base, d]
  | none, some r => [base, (.imm 0, .w32), r]
  | some d, some r => [base, d, r]

/-- SPACE of an access. -/
def spaceOf (m : MemF) : Nat := match m.tgt with | .global => 0 | .own => 1 | _ => 2

/-! ### Where a lane's access goes (R218) -/

/-- The target of a lane's access: a global address, an offset of a block's scratchpad, or an unbound role. -/
inductive Place where
  | glob (va : Nat)
  | scr (k : BKey) (off : Int)
  | unbound (off : Int)
  deriving DecidableEq, Repr

/-- The block that a role names in the gang of the issuing block; none where it is unbound (R218). -/
def boundRole (x : Ctx) (r : Nat) : Option BKey :=
  let n := x.l.d.gangw * x.l.d.gangh
  if r < n then some { x.b.key with bl := x.b.key.bl / n * n + r } else none

/-- The role a lane names, 0 outside SPACE 2. -/
def roleOf (m : MemF) (vals : List Nat) : Nat :=
  match m.tgt with
  | .role n => n.val
  | .laneRole _ => vals.getD 2 0
  | _ => 0

/-- The target of a lane's access. -/
def placeOf (x : Ctx) (m : MemF) (vals : List Nat) : Place :=
  let base := vals.headD 0
  let off : Int := (base : Int) + m.offs.toInt
  match m.tgt with
  | .global => .glob (BitVec.ofInt 64 off).toNat
  | .own => .scr x.b.key off
  | _ => (match boundRole x (roleOf m vals) with
    | some k => .scr k off
    | none => .unbound off)

/-- The address or offset of a place. -/
def Place.addr : Place → Int
  | .glob va => va
  | .scr _ o => o
  | .unbound o => o

/-! ### Traps (R219) -/

/-- Ranks of R219's causes. -/
def rankMis : Nat := rankExec + 1
def rankBounds : Nat := rankExec + 2
def rankCanon : Nat := rankExec + 3
def rankRole : Nat := rankExec + 4
def rankPage : Nat := rankExec + 5
def rankBadPte : Nat := rankExec + 6
/-- Read denied and write denied share order 5 of R219. Where one lane meets the first and another the second, the model raises read denied, in
its lanes (DESIGN CHOICE, log 30). -/
def rankRead : Nat := rankExec + 7
def rankWrite : Nat := rankExec + 8
def rankHostAdd : Nat := rankExec + 9
def rankPoison : Nat := rankExec + 10

/-- %trapaux2 of R219. -/
def aux2Of (opc space role : Nat) (wr : Bool) : W32 :=
  BitVec.ofNat 32 (opc + 2 ^ 8 * space + 2 ^ 10 * (role % 128) + (if wr then 2 ^ 17 else 0))

/-- A trap of a lane's access with its auxiliary words. -/
def memStop (rank code : Nat) (p : Place) (aux2 : W32) (aux3 : Nat) : Stop :=
  let a := (BitVec.ofInt 64 p.addr).toNat
  let off := (BitVec.ofInt 32 p.addr).toNat
  let glob := match p with | .glob _ => true | _ => false
  .trap { rank := rank, code := code, aux0 := BitVec.ofNat 32 (if glob then a else off),
          aux1 := if glob then highWord a else 0, aux2 := aux2, aux3 := BitVec.ofNat 32 aux3 }

/-- What an access needs: its size in bytes, whether it reads and writes, whether alignment is tested, and whether it adds to an
accumulator line. -/
structure Need where
  n : Nat
  rd : Bool
  wr : Bool
  align : Bool := true
  add : Bool := false

/-- The location of a lane's access, with the translation it used. -/
structure At where
  loc : Loc
  w : PWalk
  va : Nat

/-- The checks of R219 for one lane, but POISON. -/
def checkPlace (s : State) (x : Ctx) (p : Place) (aux2 : W32) (nd : Need) : Except Stop At :=
  if nd.align && p.addr % (nd.n : Int) != 0 then .error (memStop rankMis cMisalign p aux2 0)
  else
    match p with
    | .scr k o =>
      if o < 0 ∨ o + nd.n > x.l.d.scratch then .error (memStop rankBounds cBounds p aux2 0)
      else .ok { loc := .scr k o.toNat, w := .missing, va := o.toNat }
    | .unbound _ => .error (memStop rankRole cProtect p aux2 4)
    | .glob va =>
      match s.resolve x.b.key.part va nd.rd nd.wr with
      | .noncanonical => .error (memStop rankCanon cProtect p aux2 3)
      | .missing => .error (memStop rankPage cPage p aux2 0)
      | .bad => .error (memStop rankBadPte cProtect p aux2 12)
      | .denyRead => .error (memStop rankRead cProtect p aux2 1)
      | .denyWrite => .error (memStop rankWrite cProtect p aux2 2)
      | .ok l w =>
        if nd.add && (match l with | .host _ => true | _ => false) then .error (memStop rankHostAdd cProtect p aux2 9)
        else .ok { loc := l, w := w, va := va }

/-- What stands before a read of a location: the presence bit of its line (R17, R220). -/
def presentOr (s : State) (l : Loc) : Except Stop Unit :=
  match l with
  | .scr k o =>
    if (s.block? k).any (fun b => b.absent.any (fun e => e.1 == o / 128)) then .error (.wait (.presence k (o / 128))) else .ok ()
  | _ => .ok ()

/-! ### One access -/

/-- Whether an access bypasses L1: sys scope (R221), a hint that allocates nothing (R50), an uncached page (R418), an acquire. -/
def bypassOf (m : MemF) (w : PWalk) : Bool :=
  let hint := match m.cache with | .bypass => true | .na => true | _ => false
  let home := match w with | .leaf e _ _ _ => bitsOf e 9 8 == 1 | _ => false
  decide (m.scope ≠ .dev) || hint || home || decide (m.order = .acq) || decide (m.order = .ar)

/-- Whether an access leaves no host line in the near slice (R453): a hint of CACHE 3 or 4, or a relaxed access at sys scope. -/
def curOf (m : MemF) : Bool :=
  (match m.cache with | .bypass => true | .na => true | _ => false) || (decide (m.scope ≠ .dev) && decide (m.order = .rlx))

/-- The data a peer has sent for a location, taken from the course's responses. -/
def takeResp (s : State) (x : Ctx) (l : Loc) : Option (Resp × State) :=
  match s.course? x.core x.id with
  | none => none
  | some c =>
    match c.resp.find? (fun r => decide (r.loc = l)) with
    | some r => some (r, s.updCourse x.core x.id (fun d => { d with resp := d.resp.filter (fun q => q.req != r.req) }))
    | none => none

/-- The data a peer has sent for a load of `n` bytes, in the reads that it made (R457), and whether any of it is poisoned. -/
def takePeer (s : State) (x : Ctx) (l : Loc) (n : Nat) : Option (List Byte × Bool × State) :=
  (readsOf l (.read n)).foldl (fun r q => r.bind (fun t =>
    (takeResp t.2.2 x q.1).map (fun e => (t.1 ++ e.1.data, t.2.1 || e.1.bad, e.2)))) (some ([], false, s))

/-- A lane's earlier accesses that meet the bytes of an atomic step, or of a load from a peer, are performed before it reads (R116). -/
def readyFor (s : State) (ag : Agent) (l : Loc) (n : Nat) : Except Stop Unit :=
  if (s.pendOf ag).any (fun q => q.loc.meets q.bytes.length l n) then .error (.wait (.drain .dev)) else .ok ()

/-- A lane's load of `n` bytes at a checked location: presence, POISON, a peer's data, else the load of R129 to R132. -/
def laneLoad (s : State) (x : Ctx) (tl : Nat) (p : Place) (aux2 : W32) (a : At) (n : Nat) (bypass : Bool) (cur : Bool := bypass) :
    Except Stop (List Byte × State) :=
  (presentOr s a.loc).bind (fun _ => (ownAdds s (x.agent tl) a.loc n).bind (fun _ =>
    let s1 := s.mergeFor a.loc n
    match a.loc with
    | .peer _ _ =>
      (match takePeer s1 x a.loc n with
       | some (bs, bad, s2) =>
         if bad then .error (memStop rankPoison cPoison p aux2 0) else .ok (s2.forward (x.agent tl) a.loc bs, s2)
       | none => (readyFor s1 (x.agent tl) a.loc n).bind (fun _ => .error (.peer a.loc (.read n))))
    | _ =>
      if s1.poisonLoad (x.agent tl) a.loc n then .error (memStop rankPoison cPoison p aux2 0)
      else .ok (s1.load (x.agent tl) x.core a.va a.loc n bypass cur)))

/-- What stands before the write of an atomic step: the thread's earlier fences, and for a release every earlier access at its scope (R135,
R225). -/
def readyToWrite (s : State) (ag : Agent) (rel : Bool) (sc : Scope) : Except Stop Unit :=
  let ok := if rel then s.releasable ag sc else (s.pendOf ag).all (fun q => match q.kind with | .fence _ => false | _ => true)
  if ok then .ok () else .error (.wait (.drain (if rel then sc else .dev)))

/-- Whether an ORDER releases, and whether it acquires (R47). -/
def releases : Ord4 → Bool | .rel => true | .ar => true | _ => false
def acquires : Ord4 → Bool | .acq => true | .ar => true | _ => false

/-- A write performed at its home at once, or a wait for the page's shadow frame (R433) or the host's response (R454). -/
def writeNow (s : State) (ag : Agent) (core : Nat) (l : Loc) (bs : List Byte) : Except Stop State :=
  match s.storeAt (some ag) (some core) l bs with
  | .ok t => .ok t
  | .error (.page p) => .error (.wait (.pool p))
  | .error (.snoop line) => .error (.wait (.snoop line))

end Sys2Proof.Machine
end

