-- ==== Sys2Proof/Machine/Control.lean ====
section
/-!
DEFINITION. The control instructions (R178 to R188) but for DLAUNCH: NOP, branches, calls, EXIT, REFORM, YIELD, barriers, WAIT, and
the events that let a waiting thread go on.
-/

namespace Sys2Proof.Machine

/-! ### Shared forms -/

/-- A shape on the BR pipe, which has no latch (R178). -/
def shapeBr (i : Instr) (h : Hd) (size : Nat) (srcs : List (Opnd × Pos)) (dst : Option (Opnd × Nat)) : Shape :=
  { h := h, size := size, i := i, srcs := srcs, rnd := none, dst := dst, pd := 7, latch := none }

/-- The target of a relative branch: the branch's own address plus 4 * OFFS (R179). -/
def relTarget (pc : W64) (off : Int) : W64 := pc + BitVec.ofInt 64 (4 * off)

/-- MISALIGN of an indirect target (R179). -/
def targetStop (t : Nat) : Stop :=
  .trap { rank := rankMis, code := cMisalign, aux0 := lowWord t, aux1 := highWord t, aux2 := 0, aux3 := 0 }

/-- A lane's indirect target, its low two bits zero. -/
def indirect (t : Nat) (st : State) : Except Stop (LaneRes × State) :=
  if t % 4 ≠ 0 then .error (targetStop t) else .ok (LaneRes.value t, st)

/-- The branch of every lane that acted to what it computed, the other threads going on behind the instruction (R165, R179). A
divergence inside a handler is refused (R406, log 21). -/
def branchTo (sh : Shape) (x : Ctx) (target : LaneOut → W64) (outs : List LaneOut) (s : State) : State :=
  let fall := x.pc + BitVec.ofNat 64 sh.size
  let next : Nat → W64 := fun lane =>
    match outs.find? (fun o => o.lane == lane) with
    | some o => target o
    | none => fall
  let pcs := x.c.members.map (fun p => next p.1)
  if x.c.inHandler && pcs.any (fun p => p ≠ pcs.headD 0) then s.illegal x (firstWordOf sh.i) 0xB
  else (writeLanes sh x outs s).diverge x next

/-- A relative branch. -/
def branchRel (s : State) (sh : Shape) (off : Int) : Res :=
  s.lanesWith sh (fun _ st _ _ _ => .ok (LaneRes.value 0, st))
    (fun x outs t => branchTo sh x (fun _ => relTarget x.pc off) outs t)

/-- An indirect branch to a 64-bit source. -/
def branchInd (s : State) (sh : Shape) : Res :=
  s.lanesWith sh (fun _ st _ _ vals => indirect (vals.headD 0) st)
    (fun x outs t => branchTo sh x (fun o => BitVec.ofNat 64 o.res.val) outs t)

/-- An instruction that only lets every thread go on. -/
def goOn (s : State) (sh : Shape) : Res :=
  s.onCourse (fun x => (s.advance x sh.size).chainEnd x sh.h.chain)

/-! ### NOP and the branches -/

/-- NOP of `n` bytes in an MCC program (R52), where it only moves the MCC past itself. -/
def nopMcc (s : State) (core n : Nat) : State := s.updMcc core (fun m => { m with pc := m.pc + BitVec.ofNat 64 n })

/-- Compact NOP, of a thread or of the MCC. -/
def execNopC (h : Ch) (s : State) : Res :=
  match s.running with
  | some x => .next (nopMcc s x.core (chSize h))
  | none => goOn s (shapeBr (.nopC h) (hdOf h) (chSize h) [] none)

/-- NOP, of a thread or of the MCC. -/
def execNop (h : Hd) (s : State) : Res :=
  match s.running with
  | some x => .next (nopMcc s x.core (hdSize h))
  | none => goOn s (shapeBr (.nop h) h (hdSize h) [] none)

def execBraC (h : Ch) (off : BitVec 17) (s : State) : Res :=
  branchRel s (shapeBr (.braC h off) (hdOf h) (chSize h) [] none) off.toInt

def execBra (h : Hd) (off : BitVec 32) (s : State) : Res :=
  branchRel s (shapeBr (.bra h off) h (hdSize h) [] none) off.toInt

def execBrx (h : Hd) (a : Opnd) (s : State) : Res :=
  branchInd s (shapeBr (.brx h a) h (hdSize h) [(a, .w64)] none)

/-- CALL writes the address behind it to the link pair in each active lane and branches (R180). -/
def execCall (h : Hd) (d : Opnd) (t : CallT) (s : State) : Res :=
  match t with
  | .direct off =>
    let sh := shapeBr (.call h d t) h (hdSize h) [] (some (d, 64))
    s.lanesWith sh (fun x st _ _ _ => .ok (LaneRes.value (x.pc + BitVec.ofNat 64 sh.size).toNat, st))
      (fun x outs u => branchTo sh x (fun _ => relTarget x.pc off.toInt) outs u)
  | .ind a =>
    let sh := shapeBr (.call h d t) h (hdSize h) [(a, .w64)] (some (d, 64))
    s.lanesWith sh (fun _ st _ _ vals => indirect (vals.headD 0) st)
      (fun x outs u =>
        let link := (x.pc + BitVec.ofNat 64 sh.size).toNat
        let tgt : Nat → Nat := fun lane => (outs.find? (fun o => o.lane == lane)).elim 0 (fun o => o.res.val)
        branchTo sh x (fun o => BitVec.ofNat 64 (tgt o.lane)) (outs.map (fun o => { o with res := LaneRes.value link })) u)

/-- The compact RET is RET with the default link v0 (R30). -/
def execRetC (h : Ch) (s : State) : Res :=
  branchInd s (shapeBr (.retC h) (hdOf h) (chSize h) [(.v 0, .w64)] none)

def execRet (h : Hd) (a : Opnd) (s : State) : Res :=
  branchInd s (shapeBr (.ret h a) h (hdSize h) [(a, .w64)] none)

/-! ### EXIT, REFORM, YIELD -/

/-- EXIT ends each active thread; the others go on (R181). -/
def exitLanes (s : State) (h : Hd) (size : Nat) : Res :=
  s.onCourse (fun x =>
    let act := x.active h.pneg h.pred
    let s1 := s.othersGoOn x (act.map (·.1)) size
    (byThread act).foldl (fun t p => t.exitThread x.b.key p.2.tl) s1)

def execExitC (h : Ch) (s : State) : Res := exitLanes s (hdOf h) (chSize h)
def execExit (h : Hd) (s : State) : Res := exitLanes s h (hdSize h)

/-- REFORM files every thread of the course at the next instruction (R182). -/
def reformAll (s : State) (size : Nat) : Res :=
  s.onCourse (fun x =>
    let pc := x.pc + BitVec.ofNat 64 size
    let s1 := s.othersGoOn x (x.c.members.map (·.1)) size
    s1.fileAt x.b.key (x.c.members.map (·.2)) pc)

def execReformC (h : Ch) (s : State) : Res := reformAll s (chSize h)
def execReform (h : Hd) (s : State) : Res := reformAll s (hdSize h)

/-- YIELD keeps the course, which is not eligible in the next cycle and is then the youngest (R182). -/
def yieldAll (s : State) (size : Nat) : Res :=
  s.onCourse (fun x =>
    ((s.advance x size).chainEnd x false).updCourse x.core x.id (fun c => { c with yielded := true, age := s.cycle + 2 }))

def execYieldC (h : Ch) (s : State) : Res := yieldAll s (chSize h)
def execYield (h : Hd) (s : State) : Res := yieldAll s (hdSize h)

/-! ### BAR and GBAR -/

/-- The wait of a thread at an instruction. -/
def waitAt (s : State) (kind : WKind) (i : Instr) (a x : W64) (bar : Fin 16) (loc : Option Loc) : Wait :=
  { kind := kind, i := i, a := a, x := x, bar := bar, loc := loc, since := s.cycle }

/-- Each active lane arrives, ascending; one without ARV leaves the course and waits (R183, R184). The arrival comes after
everything its thread did (R127). -/
def barLanes (s : State) (sh : Shape) (arv : Bool) (cnt : Nat) : Res :=
  s.lanesWith sh (fun _ st _ _ vals => .ok (LaneRes.value (vals.headD 0 % 16), st))
    (fun x outs t =>
      let (t1, ok) := t.releaseAll (outs.map (fun o => x.agent o.tl)) .dev
      if !ok then (outs.foldl (fun u o => u.settle (x.agent o.tl)) s).hold x (.drain .dev)
      else
        let t2 := (writeLanes sh x outs t1).othersGoOn x (if arv then [] else outs.map (·.lane)) sh.size
        outs.foldl (fun u o =>
          let i := o.res.val
          let u1 := if arv then u else u.park x.b.key o.tl (waitAt u .bar sh.i 0 0 (Fin.ofNat 16 i) none)
          u1.arriveBar x.b.key i cnt) t2)

def execBarC (h : Ch) (i : Opnd) (s : State) : Res :=
  barLanes s (shapeBr (.barC h i) (hdOf h) (chSize h) [(i, .w32)] none) false 0

def execBar (h : Hd) (i : Opnd) (arv : Bool) (count : BitVec 11) (s : State) : Res :=
  barLanes s (shapeBr (.bar h i arv count) h (hdSize h) [(i, .w32)] none) arv count.toNat

/-- GBAR: each active lane arrives at its gang's barrier (R186); a kernel without a gang was refused at decoding. -/
def execGbar (h : Hd) (arv : Bool) (s : State) : Res :=
  let sh := shapeBr (.gbar h arv) h (hdSize h) [] none
  s.onCourse (fun x =>
    let act := byThread (x.active h.pneg h.pred)
    let (t1, ok) := s.releaseAll (act.map (fun p => x.agent p.2.tl)) .dev
    if !ok then t1.hold x (.drain .dev)
    else
      let t2 := t1.othersGoOn x (if arv then [] else act.map (·.1)) sh.size
      act.foldl (fun u p =>
        let u1 := if arv then u else u.park x.b.key p.2.tl (waitAt u .gbar sh.i 0 0 0 none)
        u1.arriveGang x.b.key.part x.b.key.lnum (x.b.key.bl / x.l.d.unitSize)) t2)

/-- The totals of a gang's phase have combined: every waiting thread of the phase departs, ascending in each block (R171). -/
def execGbarPhaseComplete (part lnum gang : Nat) (s : State) : Res :=
  match s.launch? part lnum with
  | none => .next s
  | some l =>
    if (aget? l.gbars (gangDone gang)).isNone then .next s
    else
      let s1 := (s.updLaunch part lnum (fun l => { l with gbars := adel l.gbars (gangDone gang) })).markGang part lnum l.d.unitSize gang
        (fun w => w.a == 1) (fun w => { w with x := 1 })
      let go := s1.atGangBarrier part lnum l.d.unitSize gang true
      .next ((sortBy (fun e => e.1.bl * 1024 + e.2) go).foldl (fun t e => t.departAcq e.1 e.2) s1)

/-! ### WAIT -/

/-- One lane of WAIT: the traps of R187, then the stamp's first test; 1 where the condition holds, else the lane's thread is left
waiting. -/
def waitLane (i : Instr) (sp : Bool) (c : Ctx) (st : State) (t : Thread) (vals : List Nat) : Except Stop (LaneRes × State) :=
  let place : Place := if sp then .scr c.b.key (vals.headD 0 : Nat) else .glob (vals.headD 0)
  (checkPlace st c place 0 { n := 8, rd := true, wr := false }).bind (fun r =>
    let (v, u) := (st.noteLeaf c.b.key.part r.w).stampAt (some (c.agent t.tl)) r.loc
    if v ≥ vals.getD 1 0 then .ok (LaneRes.value 1, u)
    else
      let w := waitAt st .wait i (BitVec.ofNat 64 (vals.headD 0)) (BitVec.ofNat 64 (vals.getD 1 0)) 0 (some r.loc)
      .ok ({ LaneRes.value 0 with th := fun th => { th with stat := .waiting w } }, u))

/-- The wait that a lane's thread stands in. -/
def State.waitOf (s : State) (k : BKey) (tl : Nat) : Option Wait :=
  (s.thread? k tl).bind (fun t => match t.stat with | .waiting w => some w | _ => none)

/-- WAIT: a lane whose condition holds goes on as an acquire, the others wait, and all leave the course (R161, R187). -/
def execWait (h : Hd) (a x : Opnd) (sp : Bool) (scope : Scope) (s : State) : Res :=
  let sh := shapeBr (.wait h a x sp scope) h (hdSize h) [(a, if sp then .w32 else .w64), (x, .w64)] none
  s.lanesWith sh (fun c st _ t vals => waitLane sh.i sp c st t vals)
    (fun c outs t =>
      let t1 := writeLanes sh c outs t
      t1.partWays c sh.size (outs.map (fun o => (o.lane, o.tl, if o.res.val = 1 then none else t1.waitOf c.b.key o.tl))) true)

end Sys2Proof.Machine
end

