-- ==== Sys2Proof/Machine/LoadStore.lean ====
section
/-!
DEFINITION. The memory instructions of R217 to R230: LD, ST, LDC, ATOM, CAS, FENCE, AFENCE, CINV, PREF, PROBE, and RNG (R242 to R244).
-/

namespace Sys2Proof.Machine

/-! ### Shared forms -/

/-- A position of a width. -/
def posOf (bits : Nat) : Pos := if bits ≤ 32 then .w32 else if bits = 64 then .w64 else .w128

/-- The register width of a SIZE. -/
def regBits (z : Sz) : Nat := max 32 z.bits

/-- The shape of an addressed instruction on the LSU, which writes l2. -/
def shapeM (i : Instr) (h : Hd) (srcs : List (Opnd × Pos)) (dst : Option (Opnd × Nat)) : Shape :=
  shapeX i h srcs dst (dst.map (fun _ => 2))

/-- Where a lane's access goes, checked (R218, R219), its page recorded. -/
def locate (s : State) (x : Ctx) (opc : Nat) (m : MemF) (vals : List Nat) (nd : Need) : Except Stop (Place × W32 × At × State) :=
  let p := placeOf x m vals
  let aux2 := aux2Of opc (spaceOf m) (roleOf m vals) nd.wr
  (checkPlace s x p aux2 nd).map (fun a => (p, aux2, a, s.noteLeaf x.b.key.part a.w))

/-- A loaded value of a size as it is written: 8 and 16 bits are extended to 32 (R221). -/
def extended (z : Sz) (sx : Bool) (v : Nat) : Nat :=
  if z.bits < 32 ∧ sx then (BitVec.ofInt 32 (sintOf z.bits v)).toNat else v

/-! ### LD, ST, LDC -/

/-- One lane of LD. -/
def ldLane (m : MemF) (sx : Bool) : LaneFn :=
  fun x st _ t vals =>
    (locate st x 0x70 m vals { n := m.size.bytes, rd := true, wr := false }).bind (fun r =>
      (laneLoad r.2.2.2 x t.tl r.1 r.2.1 r.2.2.1 m.size.bytes (bypassOf m r.2.2.1.w) (curOf m)).map (fun e =>
        (LaneRes.value (extended m.size sx (leNat e.1)),
         if acquires m.order then e.2.acquire (x.agent t.tl) x.core else e.2)))

/-- LD: each active lane loads; an acquire load acts as R129 says. -/
def execLd (h : Hd) (d : Opnd) (m : MemF) (sx : Bool) (s : State) : Res :=
  s.lanes (shapeM (.ld h d m sx) h (memSrcs m none none) (some (d, regBits m.size)))
    (ldLane m sx)

/-- A thread's store issued: a relaxed store, or a release at the scope; 128 bits are two halves (R133), to a peer one write (R457). -/
def issueStore (s : State) (x : Ctx) (tl : Nat) (m : MemF) (a : At) (v : Nat) : State :=
  let k : PKind := if releases m.order ∨ m.scope = .recov then .release m.scope else .store
  let one : State → Nat → Nat → State := fun t off n =>
    t.issueAccess (x.agent tl) x.core (a.loc.plus off) (a.va + off) (natLE n (v / 2 ^ (8 * off))) k (curOf m)
  let whole := match a.loc with | .peer _ _ => true | _ => false
  if m.size = .b128 ∧ !whole then one (one s 0 8) 8 8 else one s 0 m.size.bytes

/-- One lane of ST. -/
def stLane (m : MemF) : LaneFn :=
  fun x st _ t vals =>
    (locate st x 0x71 m vals { n := m.size.bytes, rd := false, wr := true }).map (fun r =>
      (LaneRes.value 0, issueStore r.2.2.2 x t.tl m r.2.2.1 (vals.getD 1 0)))

/-- ST: each active lane stores, ascending (R118). -/
def execSt (h : Hd) (m : MemF) (a : Opnd) (s : State) : Res :=
  s.lanes (shapeM (.st h m a) h (memSrcs m (some (a, posOf m.size.bits)) none) none)
    (stLane m)

/-- A lane's load on the read-only path. -/
def laneLoadRo (s : State) (x : Ctx) (t : Thread) (p : Place) (aux2 : W32) (a : At) (n : Nat) (cur : Bool) : Except Stop (List Byte × State) :=
  (ownAdds s (x.agent t.tl) a.loc n).bind (fun _ =>
    match a.loc with
    | .peer _ _ => laneLoad s x t.tl p aux2 a n true
    | _ =>
      let s1 := s.mergeFor a.loc n
      if s1.poisonLoad (x.agent t.tl) a.loc n then .error (memStop rankPoison cPoison p aux2 0)
      else .ok (s1.loadRo (x.agent t.tl) x.core t.roPoint a.va a.loc n cur))

/-- One lane of LDC. -/
def ldcLane (m : MemF) (sx : Bool) : LaneFn :=
  fun x st _ t vals =>
    (locate st x 0x72 m vals { n := m.size.bytes, rd := true, wr := false }).bind (fun r =>
      (laneLoadRo r.2.2.2 x t r.1 r.2.1 r.2.2.1 m.size.bytes (curOf m)).map (fun e =>
        (LaneRes.value (extended m.size sx (leNat e.1)), e.2)))

/-- LDC reads on the read-only path (R136, R222). -/
def execLdc (h : Hd) (d : Opnd) (m : MemF) (sx : Bool) (s : State) : Res :=
  s.lanes (shapeM (.ldc h d m sx) h (memSrcs m none none) (some (d, regBits m.size)))
    (ldcLane m sx)

/-! ### ATOM and CAS -/

/-- The new value of an ATOM (R223). -/
def atomNew (op : AOp) (u : Bool) (bits old a : Nat) : Nat :=
  let pick : (Int → Int → Bool) → Nat := fun f =>
    let oi : Int := if u then (old : Int) else sintOf bits old
    let ai : Int := if u then (a : Int) else sintOf bits a
    if f oi ai then old else a
  match op with
  | .add => (old + a) % 2 ^ bits
  | .min => pick (fun o a => o ≤ a)
  | .max => pick (fun o a => o ≥ a)
  | .and => old &&& a
  | .or => old ||| a
  | .xor => old ^^^ a
  | .exch => a

/-- One atomic step of a lane (R134): the accesses that stand before it, the old value, and `new` of it, none where nothing is written and the
release part orders nothing (R224). A step at a peer is made there (R144); what it will read is not known here, so its release part stands before the
request. -/
def atomStep (s : State) (x : Ctx) (tl : Nat) (m : MemF) (p : Place) (aux2 : W32) (a : At) (op : ReqOp) (new : Nat → Option Nat) :
    Except Stop (Nat × State) :=
  let n := m.size.bytes
  let ag := x.agent tl
  (presentOr s a.loc).bind (fun _ => (ownAdds s ag a.loc n).bind (fun _ =>
    (readyFor s ag a.loc n).bind (fun _ =>
      let ready : Except Stop Unit := readyToWrite s ag (releases m.order || decide (m.scope = .recov)) m.scope
      let acq : State → State := fun t => if acquires m.order then t.acquire ag x.core else t
      match a.loc with
      | .peer _ _ =>
        ready.bind (fun _ =>
          match takeResp s x a.loc with
          | some (r, s2) =>
            if r.bad then .error (memStop rankPoison cPoison p aux2 0) else .ok (leNat r.data, acq s2)
          | none => .error (.peer a.loc op))
      | _ =>
        let held : State → State := fun t =>
          if curOf m then t.thruHost a.loc n else t.ownHost (dieOf x.core) a.loc n
        let s2 := (s.mergeFor a.loc n).dropL1 x.core x.b.key.part a.va n
        if s2.poisonRun a.loc n then .error (memStop rankPoison cPoison p aux2 0)
        else
          let old := leNat (s2.bytesAt a.loc n)
          match new old with
          | none => .ok (old, acq (held s2))
          | some v => ready.bind (fun _ => (writeNow s2 ag x.core a.loc (natLE n v)).map (fun t => (old, acq (held t)))))))

/-- One lane of ATOM. -/
def atomLane (op : AOp) (u : Bool) (m : MemF) : LaneFn :=
  fun x st _ t vals =>
    (locate st x 0x73 m vals { n := m.size.bytes, rd := true, wr := true }).bind (fun r =>
      let v := vals.getD 1 0
      (atomStep r.2.2.2 x t.tl m r.1 r.2.1 r.2.2.1 (.atomic op u (decide (m.size = .b64)) (BitVec.ofNat 64 v))
        (fun old => some (atomNew op u m.size.bits old v))).map (fun e => (LaneRes.value e.1, e.2)))

/-- ATOM: an atomic step of each active lane, ascending (R223, R225). -/
def execAtom (h : Hd) (op : AOp) (u : Bool) (d : Opnd) (m : MemF) (a : Opnd) (s : State) : Res :=
  s.lanes (shapeM (.atom h op u d m a) h (memSrcs m (some (a, posOf m.size.bits)) none) (some (d, regBits m.size)))
    (atomLane op u m)

/-- One lane of CAS. -/
def casLane (m : MemF) : LaneFn :=
  fun x st _ t vals =>
    (locate st x 0x74 m vals { n := m.size.bytes, rd := true, wr := true }).bind (fun r =>
      let c := vals.getD 1 0
      let v := vals.getD 2 0
      (atomStep r.2.2.2 x t.tl m r.1 r.2.1 r.2.2.1 (.cas (decide (m.size = .b64)) (BitVec.ofNat 64 c) (BitVec.ofNat 64 v))
        (fun old => if old = c then some v else none)).map (fun e =>
          ({ LaneRes.value e.1 with pd := decide (e.1 = c) }, e.2)))

/-- CAS (R224): a failed CAS writes nothing. -/
def execCas (h : Hd) (pd : Fin 8) (d : Opnd) (m : MemF) (cmp new : Opnd) (s : State) : Res :=
  let w := posOf m.size.bits
  s.lanes { shapeM (.cas h pd d m cmp new) h (memSrcs m (some (cmp, w)) (some (new, w))) (some (d, regBits m.size)) with pd := pd }
    (casLane m)

/-! ### Fences -/

/-- One lane of an instruction that acts in the memory order: `need` says what must hold before, `f` what it does. -/
def fenceLane (need : Option Scope) (f : Ctx → State → Nat → State) : LaneFn :=
  fun x st _ t _ =>
    if need.all (fun sc => st.releasable (x.agent t.tl) sc) then .ok (LaneRes.value 0, f x st t.tl)
    else .error (.wait (.drain (need.getD .dev)))

/-- An instruction that acts for its active threads in the memory order. -/
def fenceLanes (s : State) (sh : Shape) (need : Option Scope) (f : Ctx → State → Nat → State) : Res :=
  s.lanes sh (fenceLane need f)

/-- A fence among a thread's outstanding accesses: later stores come after every earlier access (R135). -/
def fencePend (s : State) (x : Ctx) (tl : Nat) (sc : Scope) : State :=
  if s.settled (x.agent tl) && sc == .dev then s
  else s.issueAccess (x.agent tl) x.core (.scr x.b.key 0) 0 [] (.fence sc)

/-- What a FENCE waits for itself: at rec, that its thread's earlier accesses are performed and accepted (R145). -/
def fenceNeed (scope : Scope) : Option Scope := if scope = .recov then some .recov else none

/-- The thread's read-only point (R136, R228): here, and dated again once its earlier accesses, which it does not wait for, are performed. -/
def readOnlyPoint (s : State) (x : Ctx) (tl : Nat) : State :=
  let s1 := s.updThread x.b.key tl (fun t => { t with roPoint := s.events })
  if s.settled (x.agent tl) then s1 else s1.issueAccess (x.agent tl) x.core (.scr x.b.key 0) 0 [] .ro

/-- What a FENCE of a kind does for a thread (R135, R136, R227). -/
def fenceDoes (kind : FKind) (scope : Scope) (ro : Bool) (x : Ctx) (st : State) (tl : Nat) : State :=
  let rel := match kind with | .acq => false | _ => true
  let acq := match kind with | .rel => false | _ => true
  let s1 := if rel then fencePend st x tl scope else st
  let s2 := if acq then s1.acquire (x.agent tl) x.core else s1
  if ro then readOnlyPoint s2 x tl else s2

/-- FENCE (R135, R227). -/
def execFence (h : Hd) (kind : FKind) (scope : Scope) (ro : Bool) (s : State) : Res :=
  fenceLanes s (shapeM (.fence h kind scope ro) h [] none) (fenceNeed scope) (fenceDoes kind scope ro)

/-- AFENCE acts as a FENCE.ar at dev scope; locations are physical here, so aliases need nothing more (R137, R228). -/
def execAfence (h : Hd) (s : State) : Res :=
  fenceLanes s (shapeM (.afence h) h [] none) none
    (fun x st tl => (fencePend st x tl .dev).acquire (x.agent tl) x.core)

/-- CINV is the thread's read-only point and orders nothing else (R136, R228). -/
def execCinv (h : Hd) (s : State) : Res :=
  fenceLanes s (shapeM (.cinv h) h [] none) none (fun x st tl => readOnlyPoint st x tl)

/-- PREF reads its base (R45, R428), and then changes no value and orders nothing (R229). -/
def execPref (h : Hd) (m : MemF) (s : State) : Res :=
  s.lanes (shapeM (.pref h m) h (memSrcs m none none) none) (fun _ st _ _ _ => .ok (LaneRes.value 0, st))

/-- One lane of PROBE. For a bound role whose block has retired the bit reads as set: R230 does not say (DESIGN CHOICE, log 46). -/
def probeLane (m : MemF) : LaneFn :=
  fun x st _ t vals =>
    (locate st x 0x7C m vals { n := 1, rd := false, wr := false, align := false }).map (fun r =>
      let set := match r.2.2.1.loc with
        | .scr k o => !((st.block? k).any (fun b => b.absent.any (fun e => e.1 == o / 128)))
        | _ => true
      ({ LaneRes.value set.toNat with pd := set },
       if set && acquires m.order then r.2.2.2.acquire (x.agent t.tl) x.core else r.2.2.2))

/-- PROBE reads a presence bit (R230). -/
def execProbe (h : Hd) (pd : Fin 8) (d : Opnd) (m : MemF) (s : State) : Res :=
  s.lanes { shapeM (.probe h pd d m) h (memSrcs m none none) (some (d, 32)) with pd := pd }
    (probeLane m)

/-! ### RNG (R242 to R244) -/

/-- One round of Philox4x32 on the four words. -/
def philoxRound (k0 k1 : Nat) (w : Nat × Nat × Nat × Nat) : Nat × Nat × Nat × Nat :=
  let p0 := 0xD2511F53 * w.1
  let p1 := 0xCD9E8D57 * w.2.2.1
  ((p1 / 2 ^ 32) ^^^ w.2.1 ^^^ k0, p1 % 2 ^ 32, (p0 / 2 ^ 32) ^^^ w.2.2.2 ^^^ k1, p0 % 2 ^ 32)

/-- Philox4x32-10 of a counter block under a key: the 128-bit output, word 0 lowest (R243). -/
def philox (seed ctr tid : Nat) : Nat :=
  let r := (List.range 10).foldl (fun (w : Nat × Nat × Nat × Nat) i =>
    philoxRound ((seed % 2 ^ 32 + i * 0x9E3779B9) % 2 ^ 32) ((seed / 2 ^ 32 + i * 0xBB67AE85) % 2 ^ 32) w)
    (ctr % 2 ^ 32, ctr / 2 ^ 32 % 2 ^ 32, tid % 2 ^ 32, tid / 2 ^ 32 % 2 ^ 32)
  r.1 + 2 ^ 32 * r.2.1 + 2 ^ 64 * r.2.2.1 + 2 ^ 96 * r.2.2.2

/-- One lane of RNG that keeps `bits` of the output (R242). -/
def rngLane (bits : Nat) (own : Bool) : LaneFn :=
  fun x st _ t vals =>
    let c := if own then t.rngctr.toNat else vals.headD 0
    if own && decide (c = 2 ^ 64 - 1) then .error (plainStop rankExec cRngWrap)
    else
      let w := philox x.l.d.seed.toNat c (x.l.d.lti x.b.key.bl t.tl)
      .ok ({ LaneRes.value (w % 2 ^ bits) with th := fun u => if own then { u with rngctr := u.rngctr + 1 } else u }, st)

/-- RNG: each active lane draws words and, without `.ctr`, moves its counter on. -/
def execRng (h : Hd) (cnt : RCnt) (d : Opnd) (ctr : Option Opnd) (s : State) : Res :=
  let bits := match cnt with | .n1 => 32 | .n2 => 64 | .n4 => 128
  s.lanes (shapeM (.rng h cnt d ctr) h (ctr.map (fun o => (o, Pos.w64))).toList (some (d, bits)))
    (rngLane bits ctr.isNone)

end Sys2Proof.Machine
end

