-- ==== Sys2Proof/Machine/Accum.lean ====
section
/-!
DEFINITION. The accumulator instructions (R296 to R303, R308 to R311) and the eviction of a partial (R306).
-/

namespace Sys2Proof.Machine

/-! ### Shared forms -/

/-- The index that a k operand names. -/
def kIx : Opnd → Nat
  | .k n => n.val
  | _ => 0

/-- The shape of an ACC-pipe instruction, which writes no latch (R294). -/
def shapeK (i : Instr) (h : Hd) (srcs : List (Opnd × Pos)) (dst : Option (Opnd × Nat)) : Shape := shapeX i h srcs dst none

/-- An instruction that gives each active lane's accumulator kd a new value, whether it leaves every carry zero being free (R104); `terms` of
them count as event 0x04 (R467). -/
def accLanes (s : State) (sh : Shape) (kd : Opnd) (f : Thread → List Nat → Bool → Acc) (terms : Nat := 0) : Res :=
  s.lanes sh (fun x st _ t v =>
    .ok ({ LaneRes.value 0 with th := fun u => u.setAcc (kIx kd) (f t v (Config.rawNorm st.free)) }, (st.burn).count x.core 0x04 terms))

/-- Element `i` of a source in a format (R297), an integer format under U. -/
def elemAt (f : Fmt) (u : Bool) (x i : Nat) : FVal := f.decode (x / 2 ^ (f.bits * i) % 2 ^ f.bits) [] u

/-- A term with NEG applied. -/
def negIf (neg : Bool) (x : FVal) : FVal := if neg then x.neg else x

/-- The exact product of two elements. -/
def prodOf (x y : FVal) : FVal := (x.mul y).1

/-! ### ACCZ, ACCADD, ACCMAC, ACCDOT (R298, R299) -/

def execAccz (h : Hd) (k : Opnd) (s : State) : Res :=
  accLanes s (shapeK (.accz h k) h [] none) k (fun _ _ n => { Acc.zero with norm := n })

def execAccadd (h : Hd) (k a : Opnd) (fa : Fmt) (sel : BitVec 3) (u neg : Bool) (s : State) : Res :=
  accLanes s (shapeK (.accadd h k a fa sel u neg) h [(a, .elem fa)] none) k
    (fun t v n => (t.acc (kIx k)).add (negIf neg (elemAt fa u (v.getD 0 0) sel.toNat)) n) 1

def execAccmac (h : Hd) (k a b : Opnd) (fa fb : Fmt) (sel : BitVec 3) (u neg : Bool) (s : State) : Res :=
  accLanes s (shapeK (.accmac h k a b fa fb sel u neg) h [(a, .elem fa), (b, .elem fb)] none) k
    (fun t v n =>
      (t.acc (kIx k)).add
        (negIf neg (prodOf (elemAt fa u (v.getD 0 0) sel.toNat) (elemAt fb u (v.getD 1 0) sel.toNat))) n) 1

/-- ACCDOT adds every pair, one at a time. -/
def execAccdot (h : Hd) (k a b : Opnd) (fa fb : Fmt) (u neg : Bool) (s : State) : Res :=
  accLanes s (shapeK (.accdot h k a b fa fb u neg) h [(a, .elem fa), (b, .elem fb)] none) k
    (fun t v n =>
      (List.range (32 / fa.bits)).foldl (fun c i =>
        c.add (negIf neg (prodOf (elemAt fa u (v.getD 0 0) i) (elemAt fb u (v.getD 1 0) i))) n) (t.acc (kIx k))) (32 / fa.bits)

/-! ### Accumulator to accumulator (R299) -/

def execAccneg (h : Hd) (kd ks : Opnd) (s : State) : Res :=
  accLanes s (shapeK (.accneg h kd ks) h [] none) kd (fun t _ n => (t.acc (kIx ks)).negate n)

def execAccscl (h : Hd) (kd ks n : Opnd) (s : State) : Res :=
  accLanes s (shapeK (.accscl h kd ks n) h [(.imm 0, .w32), (n, .w32)] none) kd
    (fun t v r => (t.acc (kIx ks)).scale (sintOf 32 (v.getD 1 0)) r)

def execAccmov (h : Hd) (kd ks : Opnd) (s : State) : Res :=
  accLanes s (shapeK (.accmov h kd ks) h [] none) kd (fun t _ _ => t.acc (kIx ks))

def execAccnorm (h : Hd) (kd ks : Opnd) (s : State) : Res :=
  accLanes s (shapeK (.accnorm h kd ks) h [] none) kd (fun t _ _ => (t.acc (kIx ks)).normalized)

def execAccaddk (h : Hd) (kd ks : Opnd) (neg : Bool) (s : State) : Res :=
  accLanes s (shapeK (.accaddk h kd ks neg) h [] none) kd
    (fun t _ n =>
      let a := t.acc (kIx ks)
      (t.acc (kIx kd)).plus (if neg then { a.swapInf with val := -a.val } else a) n)

/-! ### ACCRND, ACCRDS, ACCWRS, ACCRED, ACCTEST (R300 to R303) -/

/-- The rounding mode with the random bits as the fourth source. -/
def rmAt (r : Rnd) (v : List Nat) : RM :=
  match r with
  | .mode m => .mode m
  | .sr _ => .sr (v.getD 3 0 % 65536)

/-- One lane of ACCRND. -/
def accrndLane (k : Opnd) (dfmt : Fmt) (u : Bool) (r : Rnd) : LaneFn :=
  fun _ st _ t v =>
    let a := t.acc (kIx k)
    if a.poison then
      .error (.trap { rank := rankExec, code := cPoison, aux0 := BitVec.ofNat 32 (kIx k), aux1 := 0, aux2 := 0, aux3 := 0 })
    else
      let (x, fl) := a.round dfmt (rmAt r v) u
      let y := if dfmt.fp.isNone && !u then (BitVec.ofInt 32 (sintOf dfmt.bits x)).toNat else x
      .ok ({ LaneRes.value y with fl := fl }, st)

/-- ACCRND rounds to a format; POISON in an active lane is a trap. -/
def execAccrnd (h : Hd) (d k : Opnd) (dfmt : Fmt) (u : Bool) (r : Rnd) (s : State) : Res :=
  let rnd : Option Opnd := match r with | .mode _ => none | .sr o => some o
  s.lanes { shapeK (.accrnd h d k dfmt u r) h [] (some (d, 32)) with rnd := rnd }
    (accrndLane k dfmt u r)

def execAccrds (h : Hd) (d k : Opnd) (sel : AccSel) (s : State) : Res :=
  s.compute (shapeK (.accrds h d k sel) h [] (some (d, 64)))
    (fun _ _ t _ =>
      let a := t.acc (kIx k)
      LaneRes.value (match sel with
        | .seg n => (a.seg n.val).toNat
        | .flg => a.flags.toNat
        | .cnt => a.count.toNat))

def execAccwrs (h : Hd) (k a : Opnd) (sel : AccSel) (s : State) : Res :=
  s.compute (shapeK (.accwrs h k a sel) h [(a, .w64)] none)
    (fun _ _ t v =>
      let c := t.acc (kIx k)
      let x := v.headD 0
      let y : Acc := match sel with
        | .seg n => c.setSeg n.val (BitVec.ofNat 64 x)
        | .flg => c.withFlags (x % 32)
        | .cnt => { c with count := BitVec.ofNat 32 x }
      { LaneRes.value 0 with th := fun u => u.setAcc (kIx k) y })

/-- ACCRED: each active lane gets the exact sum over the active lanes of its segment. -/
def execAccred (h : Hd) (kd ks : Opnd) (wid : Wid) (s : State) : Res :=
  let sh := shapeK (.accred h kd ks wid) h [] none
  let w := match wid with | .w32 => 32 | .w1 => 1 | .w2 => 2 | .w4 => 4 | .w8 => 8 | .w16 => 16
  s.lanesWith sh (fun _ st _ _ _ => .ok (LaneRes.value 0, st))
    (fun x outs t =>
      let src : Nat → Acc := fun tl => ((x.b.thread? tl).map (fun th => th.acc (kIx ks))).getD Acc.zero
      commitLanes sh x (outs.map (fun o =>
        let seg := outs.filter (fun p => p.lane / w == o.lane / w)
        { o with res := { LaneRes.value 0 with th := fun u => u.setAcc (kIx kd) (Acc.sumOf (seg.map (fun p => src p.tl))) } })) t)

def execAcctest (h : Hd) (mode : AtMode) (pd : Fin 8) (d k : Opnd) (s : State) : Res :=
  s.compute { shapeK (.acctest h mode pd d k) h [] (some (d, 32)) with pd := pd }
    (fun _ _ t _ =>
      let a := t.acc (kIx k)
      match mode with
      | .flg mask => { LaneRes.value a.flags.toNat with pd := decide (a.flags &&& mask ≠ 0) }
      | .neg => { LaneRes.value (decide (a.val < 0)).toNat with pd := decide (a.val < 0) }
      | .zero => { LaneRes.value (decide (a.val = 0)).toNat with pd := decide (a.val = 0) })

/-! ### Lines (R308 to R311, R313) -/

/-- The line at a lane's address, read whole after what stands before it; a marked line gives POISON (R313). A host line passes the near slice unless
`cur` says that none is held (R453). -/
def readLine (s : State) (x : Ctx) (tl : Nat) (a : At) (cur : Bool) : Except Stop (Acc × State) :=
  (presentOr s a.loc).bind (fun _ => (readyFor s (x.agent tl) a.loc 128).bind (fun _ =>
    match a.loc with
    | .peer _ _ =>
      (match takeResp s x a.loc with
       | some (r, s1) => let k := Acc.ofLine r.data; .ok ({ k with poison := k.poison || r.bad }, s1)
       | none => .error (.peer a.loc (.read 128)))
    | _ =>
      let s0 := (s.mergeFor a.loc 128).dropL1 x.core x.b.key.part a.va 128
      let s1 := if cur then s0 else s0.readHost x.core a.loc 128
      let k := Acc.ofLine (s1.bytesAt a.loc 128)
      .ok ({ k with poison := k.poison || s1.poisonAt a.loc }, s1)))

/-- One lane of ACCLD; under WBS the line goes to no accumulator (R35). -/
def accldLane (wbs : Bool) (k : Opnd) (m : MemF) : LaneFn :=
  fun x st _ t vals =>
    (locate st x 0x94 m vals { n := 128, rd := true, wr := false }).bind (fun r =>
      (readLine r.2.2.2 x t.tl r.2.2.1 (curOf m)).map (fun e =>
        ({ LaneRes.value 0 with th := fun u => if wbs then u else u.setAcc (kIx k) e.1 },
         if acquires m.order then e.2.acquire (x.agent t.tl) x.core else e.2)))

/-- ACCLD reads the whole line in one step (R310). -/
def execAccld (h : Hd) (k : Opnd) (m : MemF) (s : State) : Res :=
  s.lanes (shapeK (.accld h k m) h (memSrcs m none none) none)
    (accldLane h.wbs k m)

/-- One lane of ACCST. -/
def accstLane (m : MemF) (k : Opnd) : LaneFn :=
  fun x st _ t vals =>
    (locate st x 0x95 m vals { n := 128, rd := false, wr := true }).map (fun r =>
      let kind : PKind := if releases m.order ∨ m.scope = .recov then .release m.scope else .store
      (LaneRes.value 0,
       r.2.2.2.issueAccess (x.agent t.tl) x.core r.2.2.1.loc r.2.2.1.va (t.acc (kIx k)).toLine kind (curOf m) true))

/-- ACCST writes the normalized line in one step (R310). -/
def execAccst (h : Hd) (m : MemF) (k : Opnd) (s : State) : Res :=
  s.lanes (shapeK (.accst h m k) h (memSrcs m none none) none)
    (accstLane m k)

/-- The issue of an add by a lane: it is accepted later (R155, R305). -/
def issueAdd (x : Ctx) (tl : Nat) (m : MemF) (a : At) (t : Acc) (s : State) : State :=
  s.issueAccess (x.agent tl) x.core a.loc a.va (zeros 128) (.add t (decide (m.scope ≠ .dev)))

/-- One lane of AACC. -/
def aaccLane (m : MemF) (t : AaccT) : LaneFn :=
  fun x st _ th vals =>
    (locate st x 0x96 m vals { n := 128, rd := true, wr := true, add := true }).map (fun r =>
      let term : Acc := match t with
        | .elem f _ => Acc.zero.add (elemAt f false (vals.getD 1 0) 0) true
        | .acc k => th.acc (kIx k)
      (LaneRes.value 0, issueAdd x th.tl m r.2.2.1 term r.2.2.2))

/-- AACC adds a term, or an accumulator under KS (R311). -/
def execAacc (h : Hd) (m : MemF) (t : AaccT) (s : State) : Res :=
  let data : Option (Opnd × Pos) := match t with | .elem f a => some (a, .elem f) | .acc _ => none
  s.lanes (shapeK (.aacc h m t) h (memSrcs m data none) none)
    (aaccLane m t)

/-- One lane of AMAC. -/
def amacLane (m : MemF) (fmt : Fmt) (neg : Bool) : LaneFn :=
  fun x st _ th vals =>
    (locate st x 0x97 m vals { n := 128, rd := true, wr := true, add := true }).map (fun r =>
      let p := negIf neg (prodOf (elemAt fmt false (vals.getD 1 0) 0) (elemAt fmt false (vals.getD 2 0) 0))
      (LaneRes.value 0, issueAdd x th.tl m r.2.2.1 (Acc.zero.add p true) r.2.2.2))

/-- AMAC adds a product (R311). -/
def execAmac (h : Hd) (m : MemF) (a b : Opnd) (fmt : Fmt) (neg : Bool) (s : State) : Res :=
  s.lanes (shapeK (.amac h m a b fmt neg) h (memSrcs m (some (a, .elem fmt)) (some (b, .elem fmt))) none)
    (amacLane m fmt neg)

/-- A near slice evicts an A line: a merge at the home (R306). -/
def execALineEvict (line die : Nat) (s : State) : Res :=
  .next (if s.parts.any (fun p => p.line == line && p.die == die) then s.homeMerge line else s)

end Sys2Proof.Machine
end

