-- ==== Sys2Proof/Machine/Copies.lean ====
section
/-!
DEFINITION. The copy engine (12): the copy record and its limits, the traps at issue in the order of R282, what each copy writes
(R278 to R281), arrival of a line, the slow path (R290), stamps (R285), publication (R287 to R289), CPYQ.
-/

namespace Sys2Proof.Machine

/-! ### The copy record (R276, R277) -/

/-- The fields of a copy record. -/
structure CRec where
  saddr : Nat
  sval : Nat
  xlen : Nat
  ycnt : Nat
  zcnt : Nat
  ssy : Int
  ssz : Int
  dsy : Int
  dsz : Int
  moff : Nat
  sflags : Nat
  rrole : Nat
  dirty : Bool
  deriving DecidableEq, Repr

/-- The fields of 64 record bytes. -/
def CRec.of (bs : List Byte) : CRec :=
  let f := fieldLE bs
  let g : Nat → Int := fun lo => sintOf 32 (f lo 4)
  { saddr := f 0 8, sval := f 8 8, xlen := f 16 4, ycnt := f 20 4, zcnt := f 24 4, ssy := g 32, ssz := g 36, dsy := g 40, dsz := g 44,
    moff := f 48 4, sflags := f 52 1, rrole := f 54 2, dirty := !zeroAt bs 28 4 || !zeroAt bs 53 1 || !zeroAt bs 56 8 }

/-- The record that a byte count stands for (R277). -/
def CRec.ofCount (n : Nat) : CRec :=
  { saddr := 0, sval := 0, xlen := n, ycnt := 1, zcnt := 1, ssy := 0, ssz := 0, dsy := 0, dsz := 0, moff := 0, sflags := 0, rrole := 0,
    dirty := false }

/-- Payload bytes for each destination. -/
def CRec.payload (r : CRec) : Nat := r.xlen * r.ycnt * r.zcnt

/-- Whether a copy violates its limits (R277); `e` is the size of an element of CPYX and CPYA, `roles` the receivers of CPYM. -/
def CRec.bad (r : CRec) (k : CKind) (e : Nat) (f : CpyF) (roles : List Nat) : Bool :=
  let outside : Nat → Nat → Bool := fun x hi => decide (x = 0) || decide (x > hi)
  r.dirty || decide (r.sflags > 1) || outside r.xlen (2 ^ 24) || outside r.ycnt 65535 || outside r.zcnt 65535
    || decide (r.payload ≥ 2 ^ 39) || decide (r.sval ≥ 2 ^ 63) || decide (r.rrole > 767)
    || (decide (r.rrole ≠ 0) && decide (f.role ≠ 127)) || (decide (r.sflags = 1) && decide (f.scope ≠ .dev))
    || (decide (r.moff ≠ 0) && decide (k ≠ .cpym))
    || (match k with
        | .cpyg => decide (r.ycnt ≠ 1) || decide (r.zcnt ≠ 1)
        | .cpys => decide (r.ycnt ≠ 1) || decide (r.zcnt ≠ 1)
        | .cpyx => decide (r.xlen % e ≠ 0)
        | .cpya _ => decide (r.xlen % e ≠ 0)
        | .cpym => decide (roles.length > 16) || !decide roles.Nodup
        | _ => false)

/-! ### Rows (R278 to R280) -/

/-- The rows that a copy moves, each with its lane: source, destination, bytes. `per` holds the operand that CPYG and CPYS read per
lane; under CPYA a row is one element and its destination line. -/
def rowsOf (k : CKind) (e : Nat) (r : CRec) (long : Bool) (lane : Nat) (src dst : Int) (per : List (Nat × Nat)) :
    List (Nat × Int × Int × Nat) :=
  let zy : List (Nat × Nat) := (List.range r.zcnt).flatMap (fun z => (List.range r.ycnt).map (fun y => (z, y)))
  let from_ : Nat × Nat → Int := fun p => src + p.1 * r.ssz + p.2 * r.ssy
  match k with
  | .cpyg => per.map (fun p => (p.1, (p.2 : Int), dst + p.1 * (if long then r.dsy else (r.xlen : Int)), r.xlen))
  | .cpys => per.map (fun p => (p.1, src + p.1 * (if long then r.ssy else (r.xlen : Int)), (p.2 : Int), r.xlen))
  | .cpyx => zy.flatMap (fun p => (List.range (r.xlen / e)).map (fun i =>
      (lane, from_ p + (i * e : Nat), dst + p.1 * r.dsz + i * r.dsy + (p.2 * e : Nat), e)))
  | .cpya _ =>
    let els := zy.flatMap (fun p => (List.range (r.xlen / e)).map (fun i => from_ p + (i * e : Nat)))
    (List.range els.length).map (fun i => (lane, els.getD i 0, dst + (128 * i : Nat), e))
  | _ => zy.map (fun p => (lane, from_ p, dst + p.1 * r.dsz + p.2 * r.dsy, r.xlen))

/-- A row as runs of addresses: global addresses wrap modulo 2^64. -/
def runsOf (sg dg : Bool) (src dst : Int) (n : Nat) : List Run :=
  let a := if sg then (src % 2 ^ 64).toNat else src.toNat
  let b := if dg then (dst % 2 ^ 64).toNat else dst.toNat
  let cut : Nat → Run → List Run := fun k r =>
    if 0 < k ∧ k < r.n then [⟨r.s, r.d, k⟩, ⟨r.s + k, r.d + k, r.n - k⟩] else [r]
  let wrap : Run → Run := fun r =>
    ⟨if sg then r.s % 2 ^ 64 else r.s, if dg then r.d % 2 ^ 64 else r.d, r.n⟩
  (((if sg then cut (2 ^ 64 - a) ⟨a, b, n⟩ else [⟨a, b, n⟩]).flatMap (fun r =>
    if dg ∧ r.d < 2 ^ 64 then cut (2 ^ 64 - r.d) r else [r])).map wrap)

/-- The lines that runs write. -/
def linesOf (runs : List Run) : List Nat :=
  runs.foldl (fun t r => (List.range ((r.d + r.n - 1) / 128 + 1 - r.d / 128)).foldl (fun t i => insertNew t (r.d / 128 + i)) t) []

/-! ### Traps at issue (R282) -/

/-- The order of causes of R282; of those that share an order, which R282 leaves open, in the order of its rows (DESIGN CHOICE, log 30). -/
def cpRights : Nat := rankExec
def cpMis : Nat := rankExec + 1
def cpBounds : Nat := rankExec + 2
def cpCanon : Nat := rankExec + 3
def cpRole : Nat := rankExec + 4
def cpLimit : Nat := rankExec + 5
def cpPage : Nat := rankExec + 6
def cpBadPte : Nat := rankExec + 7
def cpRead : Nat := rankExec + 8
def cpWrite : Nat := rankExec + 9
def cpUnder : Nat := rankExec + 10
def cpHost : Nat := rankExec + 11
def cpPoison : Nat := rankExec + 12

/-- The opcode of a copy. -/
def CKind.opc : CKind → Nat
  | .cpy => 0xA0 | .cpyg => 0xA1 | .cpys => 0xA2 | .cpym => 0xA3 | .cpya _ => 0xA4 | .publish => 0xA5 | .cpyx => 0xA7

/-- The place of an address in a copy's space. -/
def copyPlace (x : Ctx) (sp : CSpace) (role : Nat) (a : Int) : Place :=
  match sp with
  | .global => .glob (BitVec.ofInt 64 a).toNat
  | .own => .scr x.b.key a
  | .role => (match boundRole x role with | some k => .scr k a | none => .unbound a)

/-- %trapaux2 of an access of a copy. -/
def copyAux (opc : Nat) (sp : CSpace) (role : Nat) (wr : Bool) : W32 :=
  match sp with
  | .global => aux2Of opc 0 0 wr
  | .own => aux2Of opc 1 0 wr
  | .role => aux2Of opc 2 role wr

/-- COPY_RIGHTS in a lane outside the producer group (R271). -/
def copyRights (x : Ctx) (opc tl : Nat) : List Stop :=
  if x.l.d.isProducer tl then []
  else [.trap { rank := cpRights, code := cCopyRights, aux0 := 0, aux1 := 0, aux2 := BitVec.ofNat 32 opc, aux3 := 0 }]

/-- What the first byte of a range in global memory meets (R282, orders 4 to 6). -/
def firstByte (s : State) (x : Ctx) (va : Nat) (aux2 : W32) (rd wr shadow add : Bool) : List Stop :=
  let p : Place := .glob va
  match s.resolve x.b.key.part va rd wr with
  | .noncanonical => [memStop cpCanon cProtect p aux2 3]
  | .missing => [memStop cpPage cPage p aux2 0]
  | .bad => [memStop cpBadPte cProtect p aux2 12]
  | .denyRead => [memStop cpRead cProtect p aux2 1]
  | .denyWrite => [memStop cpWrite cProtect p aux2 2]
  | .ok l w =>
    (if shadow && !(match w with | .leaf e _ _ _ => pteU e | _ => false) then [memStop cpUnder cProtect p aux2 8] else [])
    ++ (if add && (match l with | .host _ => true | _ => false) then [memStop cpHost cProtect p aux2 9] else [])

/-- The page of a global address noted as used. -/
def State.noteUse (s : State) (p va : Nat) : State :=
  match s.resolve p va false false with
  | .ok _ w => s.noteLeaf p w
  | _ => s

/-- The record as the engine reads it, once, as a relaxed load: its bytes, or what stops the lane. -/
def readRecord (s : State) (x : Ctx) (opc tl addr : Nat) : Except Stop (CRec × State) :=
  let p : Place := .glob addr
  let aux2 := copyAux opc .global 0 false
  if addr % 64 ≠ 0 then .error (memStop cpMis cMisalign p aux2 0)
  else
    match firstByte s x addr aux2 true false false false with
    | e :: _ => .error e
    | [] =>
      match s.resolve x.b.key.part addr true false with
      | .ok l w =>
        (match laneLoad (s.noteLeaf x.b.key.part w) x tl p aux2 { loc := l, w := w, va := addr } 64 true with
         | .ok r => .ok (CRec.of r.1, r.2)
         | .error (.trap t) => .error (.trap { t with rank := cpPoison })
         | .error e => .error e)
      | _ => .error (memStop cpPage cPage p aux2 0)

/-- What the stamp of a record meets. -/
def stampStops (s : State) (x : Ctx) (opc : Nat) (r : CRec) : List Stop :=
  if r.sflags % 2 = 1 then
    let p : Place := .scr x.b.key (r.saddr : Int)
    (if r.saddr % 8 ≠ 0 then [memStop cpMis cMisalign p (copyAux opc .own 0 true) 0] else [])
    ++ (if r.saddr + 8 > x.l.d.scratch then [memStop cpBounds cBounds p (copyAux opc .own 0 true) 0] else [])
  else
    (if r.saddr % 8 ≠ 0 then [memStop cpMis cMisalign (.glob r.saddr) (copyAux opc .global 0 true) 0] else [])
    ++ firstByte s x r.saddr (copyAux opc .global 0 true) false true false false

/-- One copy about to issue. -/
structure CPlan where
  tl : Nat
  r : CRec
  src : Option BKey
  dsts : List BKey
  runs : List Run

/-- Bytes of an allocation that a row leaves. -/
def rowOutside (x : Ctx) (p : Place) (n : Nat) : Bool :=
  match p with
  | .scr _ o => decide (o < 0) || decide (o + n > x.l.d.scratch)
  | _ => false

/-- The misaligned addresses of CPYA and CPYX, with the target role where it is known (R282). -/
def copyMisaligned (x : Ctx) (k : CKind) (e : Nat) (f : CpyF) (role src dst : Nat) : List Stop :=
  let one : Bool → Nat → Nat → List Stop := fun wr a m =>
    let sp := if wr then f.dsp else f.ssp
    if a % m ≠ 0 then [memStop cpMis cMisalign (copyPlace x sp role a) (copyAux k.opc sp role wr) 0] else []
  match k with
  | .cpya _ => one true dst 128 ++ one false src e
  | .cpyx => one true dst e ++ one false src e
  | _ => []

/-- The role that a copy names, as far as its record is known: 127 stands for the record's (R274). -/
def copyRole (f : CpyF) (r : Option CRec) : Option Nat :=
  if f.role = 127 then r.map (·.rrole) else some f.role.toNat

/-- What an end of a copy in a scratchpad meets without its record (R282, orders 3 and 4): an unbound role, or an offset whose first `n` bytes
leave the allocation. -/
def scrFirst (x : Ctx) (opc : Nat) (sp : CSpace) (role : Option Nat) (a : Int) (n : Nat) (wr : Bool) : List Stop :=
  match sp, role with
  | .global, _ => []
  | .role, none => []
  | _, r =>
    let role := r.getD 0
    let p := copyPlace x sp role a
    (if rowOutside x p n then [memStop cpBounds cBounds p (copyAux opc sp role wr) 0] else [])
    ++ (match p with | .unbound _ => [memStop cpRole cProtect p (copyAux opc sp role wr) 4] | _ => [])

/-- The stops of one copy at issue, each with its lane, or the copy: `lane` reads its operands `src`, `dst` and `cnt`; `per` is the operand that CPYG,
CPYS and CPYM read per lane. A record that is not readable, or violates its limits, keeps the causes that it governs untested; the first byte of
each end that the operands give, a bound role, the barrier and the receivers of CPYM are none of these. -/
def planCopy (s : State) (x : Ctx) (k : CKind) (e : Nat) (f : CpyF) (lane tl src dst cnt : Nat) (per : List (Nat × Nat)) :
    Except (List (Nat × Stop)) (CPlan × State) :=
  let opc := k.opc
  let limit : Stop := memStop cpLimit cProtect (.glob (if f.long then cnt else 0)) (copyAux opc .global 0 false) 7
  let read : Except Stop (CRec × State) := if f.long then readRecord s x opc tl cnt else .ok (CRec.ofCount cnt, s)
  let rec_ : Except Stop (CRec × State) := read.bind (fun r => if r.1.bad k e f (per.map (·.2)) then .error limit else .ok r)
  let known : Option Nat := copyRole f (match read with | .ok r => some r.1 | .error _ => none)
  let mis := (copyMisaligned x k e f (known.getD f.role.toNat) src dst).map (fun t => (lane, t))
  let add := match k with | .cpya _ => true | _ => false
  -- first bytes that no record governs
  let srcFirst : List (Nat × Int) := match k with
    | .cpyg => per.map (fun p => (p.1, (p.2 : Int)))
    | .cpys => []
    | _ => [(lane, (src : Int))]
  let dstFirst : List (Nat × Int) := match k with
    | .cpys => per.map (fun p => (p.1, (p.2 : Int)))
    | .cpyg => []
    | .cpym => []
    | _ => [(lane, (dst : Int))]
  let test : Bool → Nat × Int → List (Nat × Stop) := fun wr p =>
    if (if wr then f.dsp else f.ssp) = .global then
      (firstByte s x (BitVec.ofInt 64 p.2).toNat (copyAux opc .global 0 wr) (!wr || add) wr (wr && f.shadow) (wr && add)).map
        (fun t => (p.1, t))
    else []
  let free := mis ++ srcFirst.flatMap (test false) ++ dstFirst.flatMap (test true)
  -- scratchpad ends, receivers and barrier, as far as they stand without the record
  let role0 := copyRole f none
  let recv0 : List (Nat × Option Nat) := match k with | .cpym => per.map (fun p => (p.1, some p.2)) | _ => [(lane, role0)]
  let scrFree : List (Nat × Stop) :=
    srcFirst.flatMap (fun p => (scrFirst x opc f.ssp role0 p.2 1 false).map (fun t => (p.1, t)))
    ++ dstFirst.flatMap (fun p => (scrFirst x opc f.dsp role0 p.2 1 true).map (fun t => (p.1, t)))
    ++ (match k with | .cpym => recv0.flatMap (fun v => (scrFirst x opc f.dsp v.2 0 0 true).map (fun t => (v.1, t))) | _ => [])
    ++ (match f.xb with
        | some o => (if f.dsp = .global then [(lane, none)] else recv0).flatMap (fun v =>
            (scrFirst x opc (if f.dsp = .global then .own else f.dsp) v.2 (16 * o.toNat : Nat) 16 true).map (fun t => (v.1, t)))
        | none => [])
  match rec_ with
  | .error t => .error ((lane, t) :: free ++ scrFree)
  | .ok (r, s1) =>
    let role := (copyRole f (some r)).getD 0
    let dest : Int := match k with | .cpym => (r.moff : Int) | _ => (dst : Int)
    let rows := rowsOf k e r f.long lane src dest per
    let recv : List (Nat × Nat) := match k with | .cpym => per | _ => [(lane, role)]
    let sg := decide (f.ssp = .global)
    let dg := decide (f.dsp = .global)
    let unbound : List (Nat × Stop) :=
      (if f.ssp = .role ∧ (boundRole x role).isNone then
        (match k with | .cpyg => per | _ => [(lane, src)] : List (Nat × Nat)).map (fun p =>
          (p.1, memStop cpRole cProtect (.unbound p.2) (copyAux opc .role role false) 4)) else [])
      ++ (if f.dsp = .role then
          (match k with | .cpys => per.map (fun p => (p.1, role)) | _ => recv : List (Nat × Nat)).filterMap (fun p => if (boundRole x p.2).isNone then
            some (p.1, memStop cpRole cProtect (.unbound dest) (copyAux opc .role p.2 true) 4) else none)
        else [])
    let dstLane : Nat × Nat → Nat → Nat := fun p rowLane => match k with | .cpym => p.1 | .cpyg => lane | _ => rowLane
    let srcLane : Nat → Nat := fun rowLane => match k with | .cpys => lane | _ => rowLane
    let bounds : List (Nat × Stop) :=
      (rows.filterMap (fun w =>
        let p := copyPlace x f.ssp role w.2.1
        if rowOutside x p w.2.2.2 then some (srcLane w.1, memStop cpBounds cBounds p (copyAux opc f.ssp role false) 0) else none))
      ++ recv.flatMap (fun v => rows.filterMap (fun w =>
        let p := copyPlace x f.dsp v.2 w.2.2.1
        if rowOutside x p w.2.2.2 then some (dstLane v w.1, memStop cpBounds cBounds p (copyAux opc f.dsp v.2 true) 0) else none))
      ++ (match f.xb with
        | some o =>
          let off : Int := (16 * o.toNat : Nat)
          (if dg then [(lane, 0)] else recv).filterMap (fun v =>
            let sp : CSpace := if dg then .own else f.dsp
            let p := copyPlace x sp v.2 off
            if rowOutside x p 16 then some (v.1, memStop cpBounds cBounds p (copyAux opc sp v.2 true) 0) else none)
        | none => [])
    let stamp := if f.stamp then (stampStops s1 x opc r).map (fun t => (lane, t)) else []
    let firsts := match k with
      | .cpyg => (match rows with | w :: _ => test true (lane, w.2.2.1) | [] => [])
      | .cpys => (match rows with | w :: _ => test false (lane, w.2.1) | [] => [])
      | _ => []
    match free ++ stamp ++ bounds ++ unbound ++ firsts with
    | t :: ts => .error (t :: ts)
    | [] =>
      let s2 := (srcFirst.filter (fun _ => sg) ++ dstFirst.filter (fun _ => dg)).foldl
        (fun t p => t.noteUse x.b.key.part (BitVec.ofInt 64 p.2).toNat) s1
      let blockOf : CSpace → Nat → Option BKey := fun sp n => match sp with
        | .global => none | .own => some x.b.key | .role => boundRole x n
      .ok ({ tl := tl, r := r, src := blockOf f.ssp role, dsts := if dg then [] else recv.filterMap (fun v => blockOf f.dsp v.2),
             runs := rows.flatMap (fun w => runsOf sg dg w.2.1 w.2.2.1 w.2.2.2) }, s2)

/-! ### Issue -/

/-- Presence bits of lines cleared by a copy (R16), the copy recorded as the latest (R18). -/
def State.clearPresence (s : State) (k : BKey) (id : Nat) (lines : List Nat) : State :=
  s.updBlock k (fun b => { b with absent := b.absent.filter (fun e => !lines.contains e.1) ++ lines.map (fun l => (l, id)) })

/-- A copy that takes its entry (R272). -/
def State.issueCopy (s : State) (x : Ctx) (k : CKind) (f : CpyF) (p : CPlan) : State :=
  let lines := linesOf p.runs
  let c : Copy :=
    { id := s.nextId, core := x.core, key := x.b.key, tl := p.tl, kind := k, runs := p.runs, ssp := f.ssp, dsp := f.dsp, src := p.src,
      dsts := p.dsts, cache := f.cache, scope := f.scope, rel := if f.rel then some s.nextId else none, shadow := f.shadow,
      stamp := if f.stamp then
          some { own := p.r.sflags % 2 == 1, addr := BitVec.ofNat 64 p.r.saddr, val := BitVec.ofNat 64 p.r.sval } else none,
      xb := f.xb.map (fun o => 16 * o.toNat),
      todo := if f.dsp = .global then lines.map (fun l => (0, l))
              else (List.range p.dsts.length).flatMap (fun i => lines.map (fun l => (i, l))),
      slow := [], err := false, swapped := false, base := 0, len := 0, resp := [], acks := [] }
  let s1 := ({ s with copies := s.copies ++ [c] }).bumpId
  p.dsts.foldl (fun t d => t.clearPresence d c.id lines) s1

/-- Copies of a core's front end. -/
def State.copyCount (s : State) (core : Nat) : Nat := (s.copies.filter (fun c => c.core == core)).length

/-- Whether a trap of a copy instruction stands behind the walks of its ends (R282, orders 5 to 7). -/
def LStop.walks (t : LStop) : Bool := decide (t.rank ≥ cpPage) && decide (t.rank ≤ cpPoison)

/-- The global addresses that the lanes of a copy instruction name: its ends and its record. -/
def copyEnds (k : CKind) (f : CpyF) (vs : List (Nat × Nat × Nat)) (per : List (Nat × Nat)) : List Nat :=
  let each := per.map (·.2)
  (if f.ssp ≠ .global then [] else match k with | .cpyg => each | _ => vs.map (·.1))
  ++ (if f.dsp ≠ .global then [] else match k with | .cpys => each | .cpym => [] | _ => vs.map (·.2.1))
  ++ (if f.long then vs.map (·.2.2) else [])

/-- A copy instruction (R271, R272, R282): the operands marked lowest lane are read in the lowest active lane; every stop of every
copy is found before any copy issues. `whole` instructions issue one copy; `lowAt` says which of SRC0 to SRC2 is lowest lane. -/
def copyLanes (s : State) (i : Instr) (h : Hd) (k : CKind) (e : Nat) (f : CpyF) (ops : List (Opnd × Pos)) (lowAt : List Bool) : Res :=
  s.onCourse (fun x =>
    let sh := shapeX i h [] none none
    let act := x.active h.pneg h.pred
    let low := (act.head?.map (·.1)).getD 0
    let whole := match k with | .cpyg => true | .cpys => true | .cpym => true | _ => false
    let reads := act.map (fun p =>
      let mine := (ops.zip lowAt).map (fun o => if o.2 && p.1 != low then ((.imm 0 : Opnd), Pos.w32) else o.1)
      (p, (readSources s x p.1 p.2 h.lit mine none).map (fun r => r.1.vals)))
    let rights := act.flatMap (fun p => (copyRights x k.opc p.2.tl).map (fun t => (p.1, t)))
    let bad := reads.filterMap (fun r => match r.2 with | .error t => some (r.1.1, t) | .ok _ => none)
    let vals : Nat → Nat → Nat := fun lane j =>
      match reads.find? (fun r => r.1.1 == lane) with
      | some (_, .ok v) => v.getD j 0
      | _ => 0
    let per : List (Nat × Nat) := match k with
      | .cpyg => act.map (fun p => (p.1, vals p.1 0))
      | .cpys => act.map (fun p => (p.1, vals p.1 1))
      | .cpym => act.map (fun p => (p.1, vals p.1 1))
      | _ => []
    let issuers := if whole then act.take 1 else byThread act
    let go := issuers.foldl (fun (r : State × List CPlan × List (Nat × Stop)) p =>
      match planCopy r.1 x k e f p.1 p.2.tl (vals p.1 0) (vals p.1 1) (vals p.1 2) per with
      | .ok (c, t) => (t, r.2.1 ++ [c], r.2.2)
      | .error ts => (r.1, r.2.1, r.2.2 ++ ts)) (s, [], [])
    match verdict (bad ++ rights ++ (if bad.isEmpty then go.2.2 else [])) with
    | .go =>
      if s.copyCount x.core + go.2.1.length > 256 then s.hold x (.copyEntries go.2.1.length)
      else commitLanes sh x [] (go.2.1.foldl (fun t c => t.issueCopy x k f c) go.1)
    | .trap t m =>
      let ends := copyEnds k f (issuers.map (fun p => (vals p.1 0, vals p.1 1, vals p.1 2))) per
      let w := if t.walks then ends.foldl (fun u a => u.noteVa x.b.key.part a) (s.walked s x.b.key.part go.2.2) else s
      w.stopFor x (x.pc + BitVec.ofNat 64 sh.size) (.trap t m)
    | v => s.stopFor x (x.pc + BitVec.ofNat 64 sh.size) v)

/-- The position of an address in a copy's space, and of its count or record. -/
def spacePos (sp : CSpace) : Pos := if sp = .global then .w64 else .w32
def countPos (f : CpyF) : Pos := if f.long then .w64 else .w32

def execCpy (h : Hd) (f : CpyF) (s0 d x : Opnd) (s : State) : Res :=
  copyLanes s (.cpy h f s0 d x) h .cpy 1 f [(s0, spacePos f.ssp), (d, spacePos f.dsp), (x, countPos f)] [false, false, false]

def execCpyg (h : Hd) (f : CpyF) (s0 d x : Opnd) (s : State) : Res :=
  copyLanes s (.cpyg h f s0 d x) h .cpyg 1 f [(s0, spacePos f.ssp), (d, spacePos f.dsp), (x, countPos f)] [false, true, true]

def execCpys (h : Hd) (f : CpyF) (s0 d x : Opnd) (s : State) : Res :=
  copyLanes s (.cpys h f s0 d x) h .cpys 1 f [(s0, spacePos f.ssp), (d, spacePos f.dsp), (x, countPos f)] [true, false, true]

def execCpym (h : Hd) (f : CpyF) (s0 r x : Opnd) (s : State) : Res :=
  copyLanes s (.cpym h f s0 r x) h .cpym 1 f [(s0, spacePos f.ssp), (r, .w32), (x, countPos f)] [true, false, true]

def execCpyx (h : Hd) (f : CpyF) (esz : Fin 4) (s0 d x : Opnd) (s : State) : Res :=
  copyLanes s (.cpyx h f esz s0 d x) h .cpyx (2 ^ esz.val) f [(s0, spacePos f.ssp), (d, spacePos f.dsp), (x, countPos f)]
    [false, false, false]

/-- Bytes of an element that CPYA adds (R280). -/
def cpyaSize : CpyaT → Nat
  | .elem f => f.bits / 8
  | .line => 128

def execCpya (h : Hd) (f : CpyF) (t : CpyaT) (s0 d x : Opnd) (s : State) : Res :=
  copyLanes s (.cpya h f t s0 d x) h (.cpya t) (cpyaSize t) f [(s0, spacePos f.ssp), (d, spacePos f.dsp), (x, countPos f)]
    [false, false, false]

/-! ### Completion -/

/-- A waiting CPYQ.wait of a thread none of whose copies is left writes 0 and goes on as an acquire (R286). -/
def State.cpyqRetest (s : State) (k : BKey) (tl : Nat) : State :=
  if s.copies.any (fun c => decide (c.key = k) && c.tl == tl) then s
  else
    match s.thread? k tl with
    | none => s
    | some t =>
      match t.stat with
      | .waiting w =>
        (match w.kind, w.i with
         | .cpyq, .cpyq h d _ => (if h.wbs then s else s.putDst k tl d 32 0).departAcq k tl
         | _, _ => s)
      | _ => s

/-- A copy whose reads, writes and signals are all performed frees its entry (R272). -/
def State.finishCopy (s : State) (id : Nat) : State :=
  match s.copy? id with
  | none => s
  | some c =>
    if c.todo.isEmpty && c.slow.isEmpty && c.acks.isEmpty && c.stamp.isNone && (decide (c.kind ≠ .publish) || c.swapped) then
      ({ s with copies := s.copies.filter (fun d => d.id != id) }).cpyqRetest c.key c.tl
    else s

/-- The agent a copy acts for. -/
def Copy.agent (c : Copy) : Agent := .thread c.key c.tl

/-- Whether the issuer's stores before a releasing copy have been performed at its scope (R152). -/
def State.copyReleased (s : State) (c : Copy) : Bool :=
  match c.rel with
  | none => true
  | some n =>
    (s.pendOf c.agent).all (fun q => decide (n ≤ q.n)) && (s.pushesOf c.agent).all (fun q => decide (n ≤ q.n)) &&
    (decide (c.scope ≠ .recov) || !s.unaccepted c.agent)

/-! ### Arrival of a line -/

/-- What an access of a copy meets after issue (R290). -/
inductive Side where
  | ok (l : Loc) (w : PWalk)
  | missing
  | denied
  deriving DecidableEq, Repr

/-- One end of a piece. -/
def State.sideOf (s : State) (c : Copy) (k : Option BKey) (a : Nat) (wr : Bool) : Side :=
  match k with
  | some b => .ok (.scr b a) .missing
  | none =>
    let add := match c.kind with | .cpya _ => true | _ => false
    match s.resolve c.key.part a (!wr || add) wr (dieOf c.core) with
    | .missing => .missing
    | .ok l w =>
      if wr && add && (match l with | .host _ => true | _ => false) then .denied
      else if wr && c.shadow then
        (match l, w with
         | .dev b, .leaf e _ _ _ => if pteU e then .ok (.shadow b) w else .denied
         | _, _ => .denied)
      else .ok l w
    | _ => .denied

/-- A piece: bytes within one source line and one destination line. -/
abbrev Piece := Run

/-- The pieces of a copy in a destination line. -/
def piecesOf (c : Copy) (line : Nat) : List Piece :=
  c.runs.flatMap (fun r =>
    let lo := max r.d (128 * line)
    let hi := min (r.d + r.n) (128 * line + 128)
    if lo < hi then
      let a := r.s + (lo - r.d)
      let n := hi - lo
      let k := 128 - a % 128
      if n ≤ k then [⟨a, lo, n⟩] else [⟨a, lo, k⟩, ⟨a + k, lo + k, n - k⟩]
    else [])

/-- The receiver of a copy. -/
def Copy.recv (c : Copy) (i : Nat) : Option BKey := if c.dsp = .global then none else c.dsts[i]?

/-- A peer's data of `n` bytes that has arrived for a copy. -/
def Copy.respAt (c : Copy) (l : Loc) (n : Nat) : Option Resp := c.resp.find? (fun r => decide (r.loc = l) && r.data.length == n)

/-- Requests for the peer data that pieces still lack. -/
def State.askPeers (s : State) (c : Copy) (ps : List Piece) : State :=
  ps.foldl (fun t p =>
    match t.sideOf c c.src p.s false with
    | .ok (.peer m a) _ =>
      if (c.respAt (.peer m a) p.n).isSome ||
          t.reqs.any (fun r => decide (r.by_ = some (.copy c.id)) && r.peer == m && r.addr == a && decide (r.op = .read p.n)) then t
      else t.request m a (.read p.n) (some (.copy c.id))
    | _ => t) s

/-- Whether a piece waits: for the presence bit of its source line (R283), or for peer data. -/
def State.pieceWaits (s : State) (c : Copy) (p : Piece) : Bool :=
  match c.src with
  | some b => (s.clearedBy b (p.s / 128)).any (fun id => id != c.id)
  | none =>
    (match s.sideOf c none p.s false with
     | .ok (.peer m a) _ => (c.respAt (.peer m a) p.n).isNone
     | _ => false)

/-- A copy leaves no line of host memory in the near slice (R453). -/
def Copy.thru (c : Copy) : Bool := decide (c.cache = .bypass) || decide (c.cache = .na)

/-- The bytes of a piece and whether they came from a POISON line. -/
def State.pieceRead (s : State) (c : Copy) (l : Loc) (n : Nat) : List Byte × Bool × State :=
  match l with
  | .peer _ _ => (match c.respAt l n with
      | some r => (r.data, r.bad, s)
      | none => ([], false, s))
  | _ =>
    let s1 := s.mergeFor l n
    let s2 := if c.thru then s1 else s1.readHost c.core l n
    (s2.bytesAt l n, s2.poisonRun l n, s2)

/-- Whether a piece meets a fault of R290 but a missing translation. -/
def State.pieceFaults (s : State) (c : Copy) (k : Option BKey) (p : Piece) : Bool :=
  match s.sideOf c c.src p.s false, s.sideOf c k p.d true with
  | .ok l _, .ok _ _ => (s.pieceRead c l p.n).2.1
  | _, _ => true

/-- Whether a piece meets a missing translation, and at which address. -/
def State.pieceMissing (s : State) (c : Copy) (k : Option BKey) (p : Piece) : Option (Nat × Bool) :=
  if s.sideOf c c.src p.s false = .missing then some (p.s, false)
  else if s.sideOf c k p.d true = .missing then some (p.d, true)
  else none

/-- A request of a copy to a peer, with the payload bytes that its acknowledgement counts. -/
def State.copyRequest (s : State) (c : Copy) (m a n : Nat) (op : ReqOp) : State :=
  (s.request m a op (some (.copy c.id))).updCopy c.id (fun e => { e with acks := e.acks ++ [(s.nextId, n)] })

/-- What a copy has done of a line: the bytes counted now (R284), whether it met a fault of R290, and the location whose line it leaves marked. -/
structure Written where
  n : Nat
  bad : Bool
  mark : Option Loc

/-- The entries that the walks of a denied piece loaded stay known (R145, R419). -/
def State.noteEnds (s : State) (c : Copy) (k : Option BKey) (p : Piece) : State :=
  let one : State → Option BKey → Nat → State := fun t b a =>
    if b.isNone && canonical a then t.noteLeaf c.key.part (t.xlate c.key.part (vaBits a) (dieOf c.core)) [dieOf c.core] else t
  one (one s c.src p.s) k p.d

/-- What a copy writes of a piece: an access to a peer goes out as a request, with its payload counted at the acknowledgement (R284). A write to host
memory leaves the line modified in the near slice, unless the copy's hint keeps it out (R453). -/
def State.pieceWrite (s : State) (c : Copy) (k : Option BKey) (p : Piece) : Except Await (State × Written) :=
  match s.sideOf c c.src p.s false, s.sideOf c k p.d true with
  | .ok l w, .ok d w' =>
    let (bs, bad, s1) := ((s.noteLeaf c.key.part w [dieOf c.core]).noteLeaf c.key.part w' [dieOf c.core]).pieceRead c l p.n
    (match d with
     | .peer m a =>
       let t := s1.copyRequest c m a p.n (.write bs)
       .ok (if bad then t.request m a .poisonMark none else t, ⟨0, bad, none⟩)
     | _ => (s1.storeAt (some c.agent) none d bs).map (fun t =>
         ((if c.thru then t else t.ownHost (dieOf c.core) d p.n).coverMark d p.n s.events, ⟨p.n, bad, if bad then some d else none⟩)))
  | _, _ => .ok (s.noteEnds c k p, ⟨p.n, true, none⟩)

/-- The bytes of the pieces of one element of CPYA, in order, and whether some came from a POISON line; none where a read is denied. -/
def State.elementRead (c : Copy) : List Piece → State → Option (List Byte × Bool × State)
  | [], s => some ([], false, s)
  | p :: ps, s =>
    match s.sideOf c c.src p.s false with
    | .ok l w =>
      let (bs, bad, s1) := (s.noteLeaf c.key.part w [dieOf c.core]).pieceRead c l p.n
      (State.elementRead c ps s1).map (fun r => (bs ++ r.1, bad || r.2.1, r.2.2))
    | _ => none

/-- What CPYA adds to a destination line (R280): one term, whose COUNT is 1 (R112); to a peer's, a source line goes with its COUNT (R458). -/
def State.elementAdd (s : State) (c : Copy) (t : CpyaT) (ps : List Piece) : Except Await (State × Written) :=
  let n := ps.foldl (fun m p => m + p.n) 0
  match State.elementRead c ps s, ps with
  | some (bs, bad, s1), p :: _ =>
    (match s1.sideOf c none p.d true with
     | .ok d w =>
       let term0 : Acc := match t with
         | .elem f => Acc.zero.add (f.decode (leNat bs % 2 ^ f.bits) [] false) true
         | .line => Acc.ofLine bs
       let term : Acc := { term0 with poison := term0.poison || bad }
       let s2 := s1.noteLeaf c.key.part w [dieOf c.core]
       (match d with
        | .peer m a => .ok (s2.copyRequest c m a n (.accAtomic (padTo 32 term.record)), ⟨0, bad, none⟩)
        | _ => (s2.addLine (some c.agent) c.core d { term with count := 1 } false).map (fun u => (u, ⟨n, bad, none⟩)))
     | _ => .ok (s1.noteEnds c none p, ⟨n, true, none⟩))
  | _, _ => .ok (ps.foldl (fun t p => t.noteEnds c none p) s, ⟨n, true, none⟩)

/-- The pieces of a line, one after the other. -/
def State.piecesWrite (c : Copy) (k : Option BKey) : List Piece → State → Except Await (State × Written)
  | [], s => .ok (s, ⟨0, false, none⟩)
  | p :: ps, s =>
    (s.pieceWrite c k p).bind (fun r =>
      (State.piecesWrite c k ps r.1).map (fun q => (q.1, ⟨r.2.n + q.2.n, r.2.bad || q.2.bad, r.2.mark.orElse (fun _ => q.2.mark)⟩)))

/-- Whether two pieces of a copy write a byte both (R281). -/
def piecesClash : List Piece → Bool
  | [] => false
  | p :: ps => ps.any (fun q => decide (p.d < q.d + q.n) && decide (q.d < p.d + p.n)) || piecesClash ps

/-- The order in which the pieces of a line are written. Where two write a byte both, which of them it holds is open (R281): a free value says with
which piece the order begins (log 12). -/
def State.pieceOrder (s : State) (ps : List Piece) : List Piece :=
  if piecesClash ps then
    let k := (Config.freeW64 s.free).toNat % ps.length
    ps.drop k ++ ps.take k
  else ps

/-- What a copy does to a destination line. A line with bytes from a POISON line is marked once all its bytes are written (R147, R290). -/
def State.lineWrite (s : State) (c : Copy) (k : Option BKey) (line : Nat) : Except Await (State × Written) :=
  match c.kind with
  | .cpya t => s.elementAdd c t (piecesOf c line)
  | _ =>
    (State.piecesWrite c k (s.pieceOrder (piecesOf c line)) s.burn).map (fun r =>
      ((match r.2.mark with | some l => r.1.markPoison l | none => r.1), r.2))

/-- `n` payload bytes counted in the barrier of a copy's receiver (R284). -/
def State.countXb (s : State) (c : Copy) (k : Option BKey) (n : Nat) (bad : Bool) : State :=
  match c.xb with
  | none => s
  | some off =>
    if n = 0 && !bad then s
    else
      let b := k.getD c.key
      let x := s.xb b off
      s.xbStep b off (({ x with err := x.err || bad } : Xb).addPend (-(n : Int))).test

/-- The presence bit of a line set, if this copy cleared it last (R16, R18, R291). -/
def State.setPresence (s : State) (k : BKey) (line id : Nat) : State :=
  if s.clearedBy k line = some id then
    match s.block? k with
    | some _ => s.updBlock k (fun b => { b with absent := b.absent.filter (fun e => e.1 != line) })
    | none =>
      match s.imageOf k with
      | some img =>
        (s.setImageBit k img line false true).updLaunch k.part k.lnum (fun l =>
          { l with saved := l.saved.map (fun v => if v.bl == k.bl then { v with absent := v.absent.filter (fun e => e.1 != line) } else v) })
      | none => s
  else s

/-- A gutter record of the slow path (SRC 2). -/
def Copy.gutterRec (c : Copy) (type : Nat) (flags : BitVec 8) (addr : Nat) (wr : Bool) (by_ : GSrc) : GRec :=
  { type := type, flags := flags, src := 2, part := c.key.part, core := c.core, aux2 := aux2Of c.kind.opc 0 0 wr, aux3 := 0,
    addr := BitVec.ofNat 64 addr, pc := 0, mask := 0, tl := BitVec.ofNat 32 c.tl, bl := BitVec.ofNat 64 c.key.bl,
    lnum := BitVec.ofNat 32 c.key.lnum, by_ := by_ }

/-- A line delivered: its bytes, the barrier, the presence bit (R283, R284), and for a fault of R290 the copy's one record. A page
whose shadow frame the pool cannot give, or a host that has still to answer, keeps the line waiting (R433, R454). -/
def State.deliverLine (s : State) (c : Copy) (recv line : Nat) : State :=
  let k := c.recv recv
  match s.lineWrite c k line with
  | .error w => s.asked w
  | .ok (s1, ⟨n, bad, _⟩) =>
    let s2 := (s1.count c.core 0x0A n).countXb c k n bad
    let s3 := match k with
      | some b => s2.setPresence b line c.id
      | none => s2
    let s4 := s3.updCopy c.id (fun e =>
      { e with todo := e.todo.filter (fun t => t != (recv, line)), err := e.err || bad,
               slow := e.slow.filter (fun t => !(t.1 == recv && t.2.1 == line)) })
    let s5 := if bad && !c.err then s4.gutter (c.gutterRec 0x0200 0 (128 * line) true .none) else s4
    s5.finishCopy c.id

/-- A copy's bytes for a destination line arrive, unless something they wait for stands before them; a line that meets a fault goes
to the slow path, where the copy is held until it is served (R290). -/
def execCopyLineArrival (copy recv line : Nat) (s : State) : Res :=
  .next (match s.copy? copy with
    | none => s
    | some c =>
      if !c.todo.contains (recv, line) || !c.slow.isEmpty then s
      else if !s.copyReleased c then s.settle c.agent
      else
        let ps := piecesOf c line
        let k := c.recv recv
        if ps.any (fun p => s.pieceWaits c p) then s.askPeers c ps
        else if ps.any (fun p => (s.pieceMissing c k p).isSome || s.pieceFaults c k p) then
          s.updCopy copy (fun e => { e with slow := e.slow ++ [(recv, line, none)] })
        else s.deliverLine c recv line)

/-- The receiver number that stands for a copy's stamp in the slow path. -/
def stampRecv : Nat := 2 ^ 32

/-- Whether a record of the slow path is raised and not yet answered. -/
def State.slowAsked (s : State) (by_ : GSrc) : Bool :=
  (s.gwait ++ s.gheld).any (fun r => decide (r.by_ = by_))

/-- The slow path's walk for a line that it holds (R290): a missing translation is a replayable record, and the copy is held until its
answer; otherwise the line is delivered as the table of R290 says. -/
def execCopySlowPath (copy recv line : Nat) (s : State) : Res :=
  .next (match s.copy? copy with
    | none => s
    | some c =>
      let by_ : GSrc := .copy copy recv line
      match c.slow.find? (fun e => e.1 == recv && e.2.1 == line) with
      | some (_, _, none) =>
        if s.slowAsked by_ then s
        else if recv = stampRecv then
          (match s.resolve c.key.part line false true (dieOf c.core) with
           | .missing => s.gutter (c.gutterRec cPage 2 line true by_)
           | .ok _ _ => s.updCopy copy (fun e => { e with slow := e.slow.filter (fun t => t.1 != recv) })
           | _ =>
             ((s.gutter (c.gutterRec 0x0200 0 line true .none)).updCopy copy (fun e =>
               { e with stamp := none, slow := e.slow.filter (fun t => t.1 != recv) })).finishCopy copy)
        else
          let ps := piecesOf c line
          let k := c.recv recv
          (match ps.findSome? (fun p => s.pieceMissing c k p) with
           | some (a, wr) => s.gutter (c.gutterRec cPage 2 a wr by_)
           | none => if ps.any (fun p => s.pieceWaits c p) then s.askPeers c ps else s.deliverLine c recv line)
      | _ => s)

/-- A course that waits for a presence bit reads the line once the bit is set (R17, R220). -/
def execPresenceWaitResume (core course : Nat) (s : State) : Res :=
  .next (match s.course? core course with
    | none =>
      (match s.mcc? core with
       | some m =>
         (match m.stat with
          | .presence line =>
            if course = 0 ∧ (s.clearedBy m.key line).isNone then s.updMcc core (fun m => { m with stat := .running }) else s
          | _ => s)
       | none => s)
    | some c =>
      match c.stat with
      | .presence k line => if (s.clearedBy k line).isNone then s.updCourse core course (fun c => { c with stat := .ready }) else s
      | _ => s)

/-! ### Stamps (R285) -/

/-- Whether a copy's stamp may be written: its payload is delivered and performed at its scope, and no earlier copy of its thread still has
to write the same stamp. -/
def State.stampDue (s : State) (c : Copy) : Bool :=
  c.stamp.isSome && c.todo.isEmpty && c.slow.isEmpty && c.acks.isEmpty && (decide (c.kind ≠ .publish) || c.swapped) &&
  s.copyReleased c &&
  (decide (c.kind = .publish) || decide (c.scope ≠ .recov) || !s.unaccepted c.agent) &&
  s.copies.all (fun d =>
    !(decide (d.id < c.id) && decide (d.key = c.key) && d.tl == c.tl &&
      (match d.stamp, c.stamp with
       | some p, some q => p.own == q.own && p.addr == q.addr
       | _, _ => false)))

/-- A copy's stamp is written as a release of its payload, with bit 63 set where it met a fault (R290); a page that has lost its translation
goes to the slow path. -/
def execCopyStampWrite (copy : Nat) (s : State) : Res :=
  .next (match s.copy? copy with
    | none => s
    | some c =>
      match c.stamp with
      | none => s
      | some p =>
        if !s.stampDue c then s
        else
          let v := natLE 8 ((if c.err then p.val ||| (1 <<< 63) else p.val) : W64).toNat
          let wrote : State → State := fun t => (t.updCopy copy (fun e => { e with stamp := none })).finishCopy copy
          if p.own then
            (match s.storeAt (some c.agent) none (.scr c.key p.addr.toNat) v with
             | .ok t => wrote t
             | .error w => s.asked w)
          else
            match s.resolve c.key.part p.addr.toNat false true (dieOf c.core) with
            | .ok (.peer m a) _ =>
              wrote ((s.request m a (.write v) (some (.copy copy))).updCopy copy (fun e => { e with acks := e.acks ++ [(s.nextId, 0)] }))
            | .ok l w =>
              (match (s.noteLeaf c.key.part w [dieOf c.core]).storeAt (some c.agent) none l v with
               | .ok t => wrote t
               | .error w => s.asked w)
            | _ => s.updCopy copy (fun e => { e with slow := e.slow ++ [(stampRecv, p.addr.toNat, none)] }))

/-! ### Publication (R287 to R289) -/

/-- The pages of a range, each with its entry: none where a page is missing, or the pages do not tile the range. -/
def State.pagesOf (s : State) (p : Nat) : Nat → Nat → Nat → Option (List (Nat × PWalk))
  | 0, _, _ => none
  | fuel + 1, a, stop =>
    if a ≥ stop then some []
    else
      match s.xlate p (vaBits a) with
      | .leaf e va size pa =>
        if va ≠ vaBits a ∨ a + size > stop then none
        else (State.pagesOf s p fuel (a + size) stop).map (fun r => (a, .leaf e va size pa) :: r)
      | _ => none

/-- The covered pages of a PUBLISH that are missing or lack the underlay attribute (R289). -/
def State.notUnder (s : State) (p : Nat) : Nat → Nat → Nat → Bool
  | 0, _, _ => false
  | fuel + 1, a, stop =>
    if a ≥ stop then false
    else
      match s.xlate p (vaBits a) with
      | .leaf e va size _ => !pteU e || State.notUnder s p fuel (a + (va + size - vaBits a)) stop
      | _ => true

/-- The entries of a range of pages, as far as they translate, used (R21, R145). -/
def State.noteRange (p : Nat) : Nat → Nat → Nat → State → State
  | 0, _, _, s => s
  | fuel + 1, a, stop, s =>
    if a ≥ stop then s
    else
      match s.xlate p (vaBits a) with
      | .leaf e va size pa => State.noteRange p fuel (a + (va + size - vaBits a)) stop (s.noteLeaf p (.leaf e va size pa))
      | _ => s

/-- Whether a range begins with the first byte of a page and ends with the last byte of one, as far as they translate (R289). -/
def State.tilesPages (s : State) (p b n : Nat) : Bool :=
  let last := vaBits (b + n - 1)
  (match s.xlate p (vaBits b) with | .leaf _ va _ _ => decide (va = vaBits b) | _ => true) &&
  (match s.xlate p last with | .leaf _ va size _ => decide (va + size = last + 1) | _ => true)

/-- The stops of a PUBLISH in its lowest lane. -/
def publishStops (s : State) (x : Ctx) (tl b n : Nat) (rec_ : Option Nat) : Except (List Stop) (CRec × State) :=
  let opc := CKind.opc .publish
  let p : Place := .glob b
  let aux2 := copyAux opc .global 0 true
  let f : CpyF := { cache := .dflt, scope := .sys, rel := true, shadow := false, stamp := rec_.isSome, xb := none, ssp := .global,
                    dsp := .global, role := 0, long := rec_.isSome }
  let r : Except Stop (CRec × State) := match rec_ with
    | some a => (readRecord s x opc tl a).bind (fun r =>
        if ({ r.1 with sflags := 0 } : CRec).bad .publish 1 f [] || decide (r.1.sflags > 1) then
          .error (memStop cpLimit cProtect (.glob a) (copyAux opc .global 0 false) 7) else .ok r)
    | none => .ok (CRec.ofCount 1, s)
  let range := decide (n = 0) || decide (n % 4096 ≠ 0) || decide (n > 2 ^ 36) || decide (b + n > 2 ^ 64)
  let own : List Stop :=
    (if b % 4096 ≠ 0 then [memStop cpMis cMisalign p aux2 0] else [])
    ++ (if !canonical b then [memStop cpCanon cProtect p aux2 3]
        else if range || !s.tilesPages x.b.key.part b n then [memStop cpLimit cProtect p aux2 7]
        else
          match s.xlate x.b.key.part (vaBits b) with
          | .missing => [memStop cpPage cPage p aux2 0]
          | .bad => [memStop cpBadPte cProtect p aux2 12]
          | .leaf _ _ _ _ =>
            if s.notUnder x.b.key.part (n / 4096 + 1) b (b + n) then [memStop cpUnder cProtect p aux2 8]
            else if (s.pagesOf x.b.key.part (n / 4096 + 1) b (b + n)).isNone then [memStop cpLimit cProtect p aux2 7]
            else [])
  match r with
  | .error t => .error (t :: own)
  | .ok (c, t) =>
    match own ++ (if rec_.isSome then stampStops t x opc c else []) with
    | [] => .ok (c, t)
    | l => .error l

/-- The device pages of a PUBLISH as its issue finds them (R288): the frame's base as the entries name it, the virtual address, the size. -/
def State.publishRuns (s : State) (p b n : Nat) : List Run :=
  ((s.pagesOf p (n / 4096 + 1) b (b + n)).getD []).filterMap (fun e => match e.2 with
    | .leaf _ _ size pa => (match s.physLoc pa with | .dev a => some ⟨a, e.1, size⟩ | _ => none)
    | _ => none)

/-- The covered pages used: what their entries say stands in the underlay table (R21). -/
def State.notePages (s : State) (p b n : Nat) : State :=
  ((s.pagesOf p (n / 4096 + 1) b (b + n)).getD []).foldl (fun t e => t.noteLeaf p e.2) s

/-- PUBLISH takes a copy entry and waits for its swap (R288); it is a release of its thread's earlier stores (R154). -/
def execPublish (h : Hd) (b n : Opnd) (x0 : Option Opnd) (s : State) : Res :=
  s.onCourse (fun x =>
    let sh := shapeX (.publish h b n x0) h [] none none
    let act := x.active h.pneg h.pred
    let next := x.pc + BitVec.ofNat 64 sh.size
    let rights := act.flatMap (fun p => (copyRights x 0xA5 p.2.tl).map (fun t => (p.1, t)))
    match act with
    | [] => commitLanes sh x [] s
    | (lane, t) :: _ =>
      match readSources s x lane t h.lit ([(b, .w64), (n, .w64)] ++ (x0.map (fun o => (o, Pos.w64))).toList) none with
      | .error e => s.stopFor x next (verdict ((lane, e) :: rights))
      | .ok (a, _) =>
        let base := a.vals.getD 0 0
        let len := a.vals.getD 1 0
        match publishStops s x t.tl base len (x0.map (fun _ => a.vals.getD 2 0)) with
        | .error l =>
          (match verdict (rights ++ l.map (fun e => (lane, e))) with
           | .trap e m =>
             let w := if e.walks then State.noteRange x.b.key.part (len / 4096 + 1) base (base + len)
                 (s.walked s x.b.key.part (l.map (fun e => (lane, e)))) else s
             w.stopFor x next (.trap e m)
           | v => s.stopFor x next v)
        | .ok (r, s1) =>
          match verdict rights with
          | .go =>
            if s.copyCount x.core + 1 > 256 then s.hold x (.copyEntries 1)
            else
              let c : Copy :=
                { id := s1.nextId, core := x.core, key := x.b.key, tl := t.tl, kind := .publish, runs := s1.publishRuns x.b.key.part base len, ssp := .global, dsp := .global,
                  src := none, dsts := [], cache := .dflt, scope := .sys, rel := some s1.nextId, shadow := false,
                  stamp := if x0.isSome then
                      some { own := r.sflags % 2 == 1, addr := BitVec.ofNat 64 r.saddr, val := BitVec.ofNat 64 r.sval } else none,
                  xb := none, todo := [], slow := [], err := false, swapped := false, base := base, len := len, resp := [], acks := [] }
              commitLanes sh x [] (({ (s1.notePages x.b.key.part base len) with copies := s1.copies ++ [c] }).bumpId)
          | v => s.stopFor x next v)

/-- Whether an earlier shadow copy of the publishing thread still writes the covered pages (R288). -/
def State.publishBlocked (s : State) (c : Copy) : Bool :=
  s.copies.any (fun d => decide (d.id < c.id) && decide (d.key = c.key) && d.tl == c.tl && d.shadow &&
    d.runs.any (fun r => c.runs.any (fun p => decide (r.d < p.d + p.n) && decide (p.d < r.d + r.n))))

/-- One page exchanged with its publication shadow, where it has one: adds that near slices hold for it merge first, into the frame that they were
made to (R140); cached words of it are dropped, so that no later load returns the old page (R154). -/
def State.swapPage (s : State) (base : Nat) : State :=
  match s.und.find? (fun u => u.base == base) with
  | none => s
  | some u =>
    match u.pub with
    | none => s
    | some f =>
      ((s.mergeFrame u.live u.size).updUnd base (fun v => { v.setLive f with pub := some v.live })).dropPage base u.size

/-- Preparing covered pages for the exchange, as a write does (R433, R439): the snapshot copy and the entry into the open point. -/
def State.prepPages (p : Nat) : List Nat → State → Except NeedPage State
  | [], s => .ok s
  | a :: as, s => (s.prepWrite a (some p)).bind (fun t => State.prepPages p as t)

/-- The exchange of a PUBLISH, in one event (R288). -/
def execPublishSwap (copy : Nat) (s : State) : Res :=
  .next (match s.copy? copy with
    | none => s
    | some c =>
      if c.kind ≠ .publish ∨ c.swapped then s
      else if !s.copyReleased c then s.settle c.agent
      else
        if s.publishBlocked c then s
        else
          let bases := c.runs.filterMap (fun p => (undOf s.und p.s).bind (fun u => if u.pub.isSome then some u.base else none))
          if !(s.hostIn bases).isEmpty then s.snoopHost (s.hostIn bases)
          else
          match State.prepPages c.key.part bases s with
          | .error _ => s
          | .ok s1 =>
            ((bases.foldl (fun t a => t.swapPage a) s1).updCopy copy (fun e => { e with swapped := true })).finishCopy copy)

/-! ### CPYQ (R286) -/

/-- Copies of a thread that have not completed. -/
def State.copiesOf (s : State) (k : BKey) (tl : Nat) : Nat :=
  (s.copies.filter (fun c => decide (c.key = k) && c.tl == tl)).length

/-- CPYQ writes the count of its thread's copies; with WT it waits until the count is 0, and every thread is filed when it leaves. -/
def execCpyq (h : Hd) (d : Opnd) (wt : Bool) (s : State) : Res :=
  let sh := shapeM (.cpyq h d wt) h [] (some (d, 32))
  let lane : Ctx → State → Nat → Thread → List Nat → Except Stop (LaneRes × State) := fun x st _ t _ =>
    match copyRights x 0xA6 t.tl with
    | e :: _ => .error e
    | [] => .ok (LaneRes.value (st.copiesOf x.b.key t.tl), st)
  if wt then
    s.lanesWith sh lane (fun x outs t =>
      let free := outs.filter (fun o => o.res.val == 0)
      let t1 := writeLanes sh x free t
      t1.partWays x sh.size (outs.map (fun o =>
        (o.lane, o.tl, if o.res.val = 0 then none else some (waitAt t1 .cpyq sh.i 0 0 0 none)))) true)
  else s.lanes sh lane

end Sys2Proof.Machine
end

