-- ==== Sys2Proof/Machine/Fetch.lean ====
section
/-!
DEFINITION. Fetching (R24 to R28, R54), comparators (R474, R475), and what a course's issue comes to: the instruction that `exec` runs,
or the trap that stands before it (R53, R54).
-/

namespace Sys2Proof.Machine

/-! ### Words as they stood at dispatch (R28) -/

/-- Why a word cannot be fetched (R54, R401): the cause and its subcode. -/
structure FetchStop where
  code : Nat
  aux3 : Nat
  va : Nat

/-- The byte of a text page as it stood when the launch was dispatched; a peer's is open (log 14). -/
def textByte (t : TextSnap) : Loc → Byte
  | .dev a => t.dev.get (liveIn t.und a)
  | .host a => t.host.get a
  | .peer _ a => Config.peerByte 0 a
  | _ => 0

/-- One word of a launch's text (R28): the present translation gives the page, and the frame it names is read as it stood at the launch's dispatch. R28
does not say what is read of a page that was missing at the dispatch or has been mapped anew since (DESIGN CHOICE, log 52). -/
def State.fetchWord (s : State) (l : Launch) (va : Nat) : Except FetchStop (List Byte) :=
  if !canonical va then .error ⟨cProtect, 3, va⟩
  else
    match s.xlate l.part (vaBits va) with
    | .missing => .error ⟨cPage, 0, va⟩
    | .bad => .error ⟨cProtect, 12, va⟩
    | .leaf e b _ pa =>
      if !pteX e then .error ⟨cProtect, 13, va⟩
      else
        let loc := s.locIn pa b (vaBits va)
        .ok ((List.range 4).map (fun i => textByte l.text (loc.plus i)))

/-- `n` words from an address. -/
def State.fetchWords (s : State) (l : Launch) (va : Nat) : Nat → Except FetchStop (List Byte)
  | 0 => .ok []
  | n + 1 =>
    (s.fetchWord l va).bind (fun w => (State.fetchWords s l ((va + 4) % 2 ^ 64) n).map (fun r => w ++ r))

/-- The bytes of the instruction at an address: its first word, then as many as LEN says (R24). -/
def State.fetchAt (s : State) (l : Launch) (va : Nat) : Except FetchStop (List Byte) :=
  (s.fetchWord l va).bind (fun w =>
    (s.fetchWords l ((va + 4) % 2 ^ 64) (lenWords (leNat w) - 1)).map (fun r => w ++ r))

/-! ### Comparators (R474, R475) -/

/-- The test of a comparator on a register value. -/
def compTest (cmp : Nat) (x imm : W32) : Bool :=
  match cmp with
  | 0 => true
  | 1 => x == imm
  | 2 => x != imm
  | 3 => x.slt imm
  | 4 => !(x.slt imm)
  | 5 => x.ult imm
  | 6 => !(x.ult imm)
  | _ => x &&& imm != 0

/-- The register value that a comparator's OPND names in a thread; none where the code is not a v, o, b or c code, or beyond REGS. -/
def compReg (x : Ctx) (t : Thread) (code : Nat) : Option W32 :=
  match Opnd.ofCode code with
  | some (.v n) => if n.val < x.l.d.regs then some (t.v.get n.val) else none
  | some (.o n) => some (t.o.get n.val)
  | some (.b n) => some (x.b.b.get n.val)
  | some (.c n) => some (x.l.consts.get n.val)
  | _ => none

/-- A comparator's hit: its index, whether it traces and raises DEBUG, and the hitting lanes with their values. -/
structure CompHit where
  i : Nat
  trace : Bool
  debug : Bool
  lanes : List (Nat × Nat × W32)

/-- The hit of comparator `i` at the issuing instruction, whose active lanes are given. -/
def State.compHit (s : State) (x : Ctx) (act : List (Nat × Thread)) (i : Nat) : Option CompHit :=
  let r : Nat → Nat := fun k => (s.oreg x.b.key.part (0x100 + 32 * i + 8 * k)).toNat
  let lnum := r 0 / 2 ^ 32
  let ctl := r 1 % 256
  let opnd := r 1 / 2 ^ 16 % 512
  let imm : W32 := BitVec.ofNat 32 (r 1 / 2 ^ 32)
  let cmp := ctl / 2 % 8
  let pc := x.pc.toNat
  if ctl % 2 = 0 ∨ (lnum ≠ 0 ∧ lnum ≠ x.b.key.lnum) ∨ pc < r 2 ∨ r 3 ≤ pc then none
  else
    let vals := act.map (fun p => (p, if cmp = 0 then some (0 : W32) else compReg x p.2 opnd))
    let good := vals.filter (fun p => p.2.any (fun v => compTest cmp v imm))
    let all := ctl / 16 % 2 = 1
    if good.isEmpty ∨ (all ∧ good.length ≠ act.length) then none
    else some { i := i, trace := ctl.testBit 6, debug := ctl.testBit 5,
                lanes := good.map (fun p => (p.1.1, p.1.2.tl, p.2.getD 0)) }

/-- Whether a debugger is attached to a launch (R477). -/
def State.attached (s : State) (part lnum : Nat) : Bool :=
  let r := (s.reg 0x300100).toNat
  decide (r % 2 ^ 32 ≠ 0) && decide (r % 2 ^ 32 = lnum) && decide (r / 2 ^ 32 % 8 = part)

/-- The trace records of a hit, one for each hitting lane (R475). -/
def State.traceHit (s : State) (x : Ctx) (h : CompHit) : State :=
  if !h.trace then s
  else h.lanes.foldl (fun t p =>
    t.trace x.core x.b.key.part (nameOf x.b.key p.2.1 x.core) 0x03 0 (x.c.quad.getD 0) (1 <<< p.1 : BitVec 32) x.pc p.2.2
      (BitVec.ofNat 32 h.i)) s

/-- The start and stop conditions that the tags of a PMARK or the hits of an instruction meet on its core, kept until the cycle ends (R472, R473). -/
def State.markTriggers (s : State) (part core : Nat) (tags comps : List Nat) : State :=
  { s with trigHit := if s.trigHolds part 0 core tags comps then insertNew s.trigHit core else s.trigHit,
           trigStop := if s.trigHolds part 1 core tags comps then insertNew s.trigStop core else s.trigStop }

/-! ### What an issue comes to -/

/-- The lanes in which the guard of a first word is true (R43). -/
def guardLanes (x : Ctx) (w : Nat) : List (Nat × Thread) := x.active (w.testBit 13) (Fin.ofNat 8 (w / 2 ^ 10 % 8))

/-- What the decoder knows of the issuing course. -/
def dctxOf (x : Ctx) (w : Nat) : DCtx :=
  let n := (guardLanes x w).length
  { mcc := false, regs := x.l.d.regs, accs := x.l.d.accs, handler := x.c.inHandler,
    diverges := decide (n ≠ 0) && decide (n ≠ x.c.members.length), chainPos := x.c.chain, gang := decide (x.l.d.gangw ≠ 0) }

/-- The instruction that a course issues from these bytes, or ILLEGAL (R53). One that had waited is counted at its first issue alone (R467). Its CHAIN
says whether its course keeps the quadrant in a wait (R220). -/
def issueBytes (s : State) (x : Ctx) (bs : List Byte) : State × Option Instr :=
  let w := leNat (bs.take 4)
  match decode (dctxOf x w) bs with
  | .ok i =>
    ((if x.c.again then s else (s.count x.core 0x02 1).count x.core 0x03 (guardLanes x w).length).updCourse x.core x.id
      (fun c => { c with keep := chainOf i }), some i)
  | .illegal r => (s.illegal x (BitVec.ofNat 32 w) r, none)
  | .short => (s.illegal x (BitVec.ofNat 32 w) 1, none)

/-- The comparators that hit at an issue (R474): once for an instruction, however often it issues again after a wait (R475), and not
where a resume from the debugger passes over them (R477). -/
def State.compHits (s : State) (x : Ctx) (act : List (Nat × Thread)) : List CompHit :=
  if x.c.again || x.c.skipCmp then [] else (List.range 8).filterMap (fun i => s.compHit x act i)

/-- The issue of a course, as far as its instruction: re-injected words, or the words at its PC with the fetch faults and the comparators
that stand before them (R54, R474). -/
def State.issueCourse (s : State) (x : Ctx) : State × Option Instr :=
  match x.c.reinj with
  | e :: _ => issueBytes s x (e.words.flatMap (fun w => natLE 4 w.toNat))
  | [] =>
    match s.fetchAt x.l x.pc.toNat with
    | .error f =>
      (s.takeTrap x { TrapInfo.simple f.code x.c.mask x.pc with
          aux0 := everyLane (lowWord f.va), aux1 := highWord f.va, aux3 := BitVec.ofNat 32 f.aux3 } x.pc, none)
    | .ok bs =>
      let act := guardLanes x (leNat (bs.take 4))
      let hits := s.compHits x act
      let stops := hits.find? (fun h => h.debug && s.attached x.b.key.part x.b.key.lnum)
      let s2 := hits.foldl (fun t h => t.traceHit x h) (s.markTriggers x.b.key.part x.core [] (hits.map (·.i)))
      match stops with
      | some h =>
        (s2.takeTrap x { TrapInfo.simple cDebug (maskOfLanes (h.lanes.map (·.1))) x.pc with
            aux0 := everyLane (BitVec.ofNat 32 (0x100 + h.i)) } x.pc, none)
      | none => issueBytes s2 x bs

end Sys2Proof.Machine
end

