-- ==== Sys2Proof/Machine/Queues.lean ====
section
/-!
DEFINITION. XBAR barriers (R231 to R234) and the hardware queues (R235 to R241): XBAR, QPUSH, QPOP, and the events that let their
waiting threads go on.
-/

namespace Sys2Proof.Machine

/-! ### XBAR -/

/-- A lane's barrier: its offset, checked under R219. An XBAR that traps reports itself as a write, whatever its OP: the spec does not say what a
`wait` or `test`, which write nothing, report there (DESIGN CHOICE, log 30). -/
def xbarAt (s : State) (x : Ctx) (base : Nat) (offs : BitVec 20) : Except Stop Nat :=
  let p : Place := .scr x.b.key ((base : Int) + offs.toInt)
  (checkPlace s x p (aux2Of 0x7D 1 0 true) { n := 16, rd := true, wr := true }).map (fun a => a.va)

/-- One lane's step on its barrier but for `wait` (R232): the value for DSTX, the predicate, the state after it. -/
def xbarStep (x : Ctx) (tl : Nat) (op : XbarOp) (off : Nat) (v w : Nat) (s : State) : Nat × Bool × State :=
  let k := x.b.key
  let b := s.xb k off
  match op with
  | .init _ =>
    (0, false, s.xbStep k off (if v = 0 ∨ v > 65535 then ({ b with err := true } : Xb).test
      else ({ pend := 0, err := false, left := v, count := v, phase := 0 } : Xb).test))
  | .arrive _ => (b.phase.toNat, false, s.xbStep k off b.arrive.test)
  | .expect _ _ => (b.phase.toNat, false, s.xbStep k off (b.addPend v).arrive.test)
  | .wait _ => (0, false, s)
  | .test _ _ _ =>
    let go := decide (b.phase.toNat ≠ w)
    (go.toNat + 2 * b.err.toNat, go, if go then s.acquire (x.agent tl) x.core else s)

/-- The operands of XBAR. -/
def xbarSrcs (op : XbarOp) (base : Opnd) : List (Opnd × Pos) :=
  match op with
  | .init n => [(base, .w32), (n, .w32)]
  | .arrive _ => [(base, .w32)]
  | .expect _ b => [(base, .w32), (b, .w32)]
  | .wait ph => [(base, .w32), (ph, .w32)]
  | .test _ _ ph => [(base, .w32), (ph, .w32)]

/-- The destination of XBAR. -/
def xbarDst : XbarOp → Option (Opnd × Nat)
  | .arrive d => some (d, 32)
  | .expect d _ => some (d, 32)
  | .test _ d _ => some (d, 32)
  | _ => none

/-- The predicate destination of XBAR. -/
def xbarPd : XbarOp → Fin 8
  | .test pd _ _ => pd
  | _ => 7

/-- One lane of XBAR but for `wait`; an arrival waits until the lane's earlier accesses are performed. -/
def xbarLane (op : XbarOp) (offs : BitVec 20) : LaneFn :=
  let arrives := match op with | .arrive _ => true | .expect _ _ => true | _ => false
  fun x st _ t v =>
    (xbarAt st x (v.headD 0) offs).bind (fun off =>
      if arrives && !st.releasable (x.agent t.tl) .dev then .error (.wait (.drain .dev))
      else
        let r := xbarStep x t.tl op off (v.getD 1 0) (v.getD 1 0) st
        .ok ({ LaneRes.value r.1 with pd := r.2.1 }, r.2.2))

/-- One lane of `xbar.wait`: its barrier. -/
def xbarWaitLane (offs : BitVec 20) : LaneFn :=
  fun x st _ _ v => (xbarAt st x (v.headD 0) offs).map (fun off => (LaneRes.value off, st))

/-- XBAR: each active lane acts on its barrier, ascending; an arrival is a release of the lane's earlier accesses (R233). -/
def execXbar (h : Hd) (op : XbarOp) (base : Opnd) (offs : BitVec 20) (s : State) : Res :=
  let sh : Shape := { shapeM (.xbar h op base offs) h (xbarSrcs op base) (xbarDst op) with pd := xbarPd op }
  match op with
  | .wait _ =>
    s.lanesWith sh (xbarWaitLane offs)
      (fun x outs t =>
        let t1 := writeLanes sh x outs t
        let go := outs.map (fun o =>
          let ph : W32 := BitVec.ofNat 32 (o.inp.vals.getD 1 0)
          let w := waitAt t1 .xbar sh.i (BitVec.ofNat 64 o.res.val) (ph.setWidth 64) 0 none
          (o.lane, o.tl, if (t1.xb x.b.key o.res.val).phase ≠ ph then none else some w))
        t1.partWays x sh.size go true)
  | _ =>
    s.lanes sh (xbarLane op offs)

/-- A waiting lane of `xbar.wait` whose phase has moved on leaves it (R233). -/
def execXbarWaitProceed (core slot tl : Nat) (s : State) : Res :=
  .next (match s.blockAt? core slot with
    | some b => s.xbRetest b.key tl
    | none => s)

/-! ### Hardware queues -/

/-- Entries of a queue in use (R240). -/
def State.hwLen (s : State) (p q : Nat) : Nat := (((s.part? p).bind (fun x => aget? x.hwq q)).getD []).length

/-- PROTECT of a queue index (R236). -/
def queueStop (n aux3 : Nat) : Stop :=
  .trap { rank := if aux3 = 6 then rankExec + 1 else rankExec + 2, code := cProtect, aux0 := BitVec.ofNat 32 n, aux1 := 0, aux2 := 0,
          aux3 := BitVec.ofNat 32 aux3 }

/-- One push (R237): its ticket, and the element, discarded where the ticket has been delivered before (R241). -/
def State.pushQueue (s : State) (k : BKey) (tl q : Nat) (v : W64) : State :=
  match s.launch? k.part k.lnum with
  | none => s
  | some l =>
    let n := ((l.pushed.find? (fun e => decide (e.1 = q ∧ e.2.1 = k.bl ∧ e.2.2.1 = tl))).map (fun e => e.2.2.2)).getD 0
    let rest := l.pushed.filter (fun e => !decide (e.1 = q ∧ e.2.1 = k.bl ∧ e.2.2.1 = tl))
    let s1 := s.updLaunch k.part k.lnum (fun l => { l with pushed := (q, k.bl, tl, n + 1) :: rest })
    if l.delivered.contains (q, k.bl, tl, n) then s1
    else
      let e : QElem := { lnum := k.lnum, bl := k.bl, tl := tl, n := n, val := v, delivered := false }
      s1.updPart k.part (fun p => { p with hwq := aput p.hwq q (((aget? p.hwq q).getD []) ++ [e]) })

/-- Taking the next delivered element of a queue. -/
def State.popQueue (s : State) (p q : Nat) : Option W64 × State :=
  match ((s.part? p).bind (fun x => aget? x.hwq q)).getD [] with
  | e :: rest =>
    if e.delivered then (some e.val, s.updPart p (fun x => { x with hwq := aput x.hwq q rest })) else (none, s)
  | [] => (none, s)

/-- One lane of QPUSH: its queue's index and attachment (R236). -/
def qpushLane : LaneFn := fun x st _ _ v =>
  let q := v.headD 0
  if q ≥ 64 then .error (queueStop q 6)
  else if !x.l.d.qmask.getLsbD q then .error (queueStop q 5)
  else .ok (LaneRes.value q, st)

/-- One lane of QPOP: its queue's index. -/
def qpopLane : LaneFn := fun _ st _ _ v =>
  if v.headD 0 ≥ 64 then .error (queueStop (v.headD 0) 6) else .ok (LaneRes.value (v.headD 0), st)

/-- QPUSH, as R236, R237 and R240 give it. A push of a replay whose ticket was delivered before (R241) waits for an entry like any other before it is
accepted and discarded, since no rule exempts it (DESIGN CHOICE, log 22). Every lane's index and attachment are checked; then each lane pushes, ascending, as a release of its earlier accesses;
where the queue is full the course waits, and the lanes that have pushed stay pushed (R240). -/
def execQpush (h : Hd) (n a : Opnd) (w64 : Bool) (s : State) : Res :=
  let sh := shapeM (.qpush h n a w64) h [(n, .w32), (a, if w64 then .w64 else .w32)] none
  s.onCourse (fun x =>
    let done := x.c.part
    let todo := (byThread (x.active h.pneg h.pred)).filter (fun p => !maskHas done p.1)
    let r := todo.foldl (fun (r : State × List LaneOut × List (Nat × Stop)) p =>
      match laneStep sh qpushLane x p.1 p.2 r.1 with
      | .ok (o, s1) => (s1, r.2.1 ++ [o], r.2.2)
      | .error es => (r.1, r.2.1, r.2.2 ++ es.map (fun e => (p.1, e)))) (s, [], [])
    match verdict r.2.2 with
    | .go =>
      if !(r.2.1.all (fun o => s.releasable (x.agent o.tl) .dev)) then s.stopFor x (x.pc + BitVec.ofNat 64 sh.size) (.wait (.drain .dev))
      else
        let t := r.2.1.foldl (fun (t : State × LaneMask × Option Nat) o =>
          match t.2.2 with
          | some _ => t
          | none =>
            let q := o.res.val
            if t.1.hwLen x.b.key.part q ≥ 1024 then (t.1, t.2.1, some q)
            else
              let u := t.1.updThread x.b.key o.tl (fun th => o.ports th)
              (u.pushQueue x.b.key o.tl q (BitVec.ofNat 64 (o.inp.vals.getD 1 0)), t.2.1 ||| (1 <<< o.lane : BitVec 32), none)) (r.1, done, none)
        match t.2.2 with
        | none => (t.1.advance x sh.size).chainEnd x h.chain
        | some q => t.1.updCourse x.core x.id (fun c => { c with stat := .qpush q, again := true, part := t.2.1 })
    | v => s.stopFor x (x.pc + BitVec.ofNat 64 sh.size) v)

/-- QPOP (R238): each active lane takes the next delivered element, ascending. With TRY a lane without one gets zero; without TRY it
waits, and every lane is filed when it leaves. -/
def execQpop (h : Hd) (pd : Fin 8) (d n : Opnd) (w64 try_ : Bool) (s : State) : Res :=
  let w := if w64 then 64 else 32
  let sh : Shape := { shapeM (.qpop h pd d n w64 try_) h [(n, .w32)] (some (d, w)) with pd := pd }
  s.lanesWith sh qpopLane (fun x outs t =>
    let got := outs.foldl (fun (r : State × List (LaneOut × Option W64)) o =>
      let (e, u) := r.1.popQueue x.b.key.part o.res.val
      (u, r.2 ++ [(o, e)])) (t, [])
    let value : Option W64 → LaneRes := fun e =>
      { LaneRes.value ((e.getD 0).toNat % 2 ^ w) with pd := e.isSome }
    if try_ then
      let outs1 := got.2.map (fun g => { g.1 with res := value g.2 })
      let u := commitLanes sh x outs1 got.1
      got.2.foldl (fun u g => if g.2.isSome then u.acquire (x.agent g.1.tl) x.core else u) u
    else
      let have_ := (got.2.filter (fun g => g.2.isSome)).map (fun g => { g.1 with res := value g.2 })
      let wait := got.2.filter (fun g => g.2.isNone)
      let u := writeLanes sh x have_ got.1
      -- a waiting lane that pushes its element has its position assigned
      let u1 := wait.foldl (fun u g => u.updThread x.b.key g.1.tl (fun th => g.1.ports th)) u
      u1.partWays x sh.size (got.2.map (fun g =>
        (g.1.lane, g.1.tl, if g.2.isSome then none
          else some (waitAt s .qpop sh.i (BitVec.ofNat 64 g.1.res.val) 0 0 (g.1.push.map (fun p => p.2.loc)))))) true)

/-! ### Delivery (R237) -/

/-- Whether ticket `a` precedes ticket `b` (R156, R237). -/
def QElem.before (a b : QElem) : Bool :=
  if a.lnum ≠ b.lnum then lnumBefore a.lnum b.lnum
  else if a.bl ≠ b.bl then decide (a.bl < b.bl)
  else if a.tl ≠ b.tl then decide (a.tl < b.tl)
  else decide (a.n < b.n)

/-- Whether a push with a smaller ticket can still arrive: from an earlier attached launch, a lower block of the launch that has not
retired, or a lower thread of the block that has not exited; of a saved block those that had not exited when it was saved. -/
def State.mayPrecede (s : State) (p q : Nat) (e : QElem) : Bool :=
  s.launches.any (fun l =>
    l.part == p && l.live && l.d.qmask.getLsbD q &&
    (if l.lnum = e.lnum then
       (List.range e.bl).any (fun b => !l.retired.contains b) ||
       (!l.retired.contains e.bl && decide (e.tl > 0) &&
         (match s.block? { part := p, lnum := e.lnum, bl := e.bl } with
          | some b => b.threads.any (fun t => decide (t.tl < e.tl) && decide (t.stat ≠ .exited))
          | none =>
            (match s.savedOf { part := p, lnum := e.lnum, bl := e.bl } with
             | some v => v.live.any (fun tl => decide (tl < e.tl))
             | none => !l.finished.contains (e.bl / l.d.unitSize))))
     else lnumBefore l.lnum e.lnum))

/-- The undelivered element with the smallest ticket. -/
def nextTicket (l : List QElem) : Option QElem :=
  (l.filter (fun e => !e.delivered)).foldl (fun r e =>
    match r with
    | none => some e
    | some f => if e.before f then some e else r) none

/-- The element that a queue can deliver now. -/
def State.deliverable (s : State) (p q : Nat) : Option QElem :=
  (nextTicket (((s.part? p).bind (fun x => aget? x.hwq q)).getD [])).bind (fun e => if s.mayPrecede p q e then none else some e)

/-- Waiting QPOP lanes of a queue, the one that has waited longest first: R238 leaves the order among different instructions and threads open
(DESIGN CHOICE, log 22). -/
def State.poppers (s : State) (p q : Nat) : List (BKey × Thread × Wait) :=
  sortBy (fun e => e.2.2.since) ((s.blocks.filter (fun b => b.key.part == p)).flatMap (fun b =>
    b.threads.filterMap (fun t =>
      match t.stat with
      | .waiting w => if w.kind == .qpop && w.a == BitVec.ofNat 64 q then some (b.key, t, w) else none
      | _ => none)))

/-- A waiting lane receives an element as an acquire and is filed. -/
def State.giveElement (s : State) (k : BKey) (t : Thread) (w : Wait) (v : W64) : State :=
  match w.i with
  | .qpop h pd d _ w64 _ =>
    let bits := if w64 then 64 else 32
    let x := v.toNat % 2 ^ bits
    let s1 := s.updThread k t.tl (fun u => u.setPred pd true)
    let s2 :=
      if h.wbs then s1
      else
        match d with
        | .q n =>
          (match w.loc, (s.block? k).bind (fun b => b.desc (t.port n).desc) with
           | some l, some ds => s1.addPush k t.tl { port := n, pos := 0, loc := l, size := ds.size } x
           | _, _ => s1)
        | _ => s1.putDst k t.tl d bits x
    s2.departAcq k t.tl
  | _ => s

/-- Waiting lanes take delivered elements while there are both. -/
def State.serveQueue (p q : Nat) : Nat → State → State
  | 0, s => s
  | n + 1, s =>
    match s.poppers p q with
    | [] => s
    | (k, t, w) :: _ =>
      match s.popQueue p q with
      | (some v, s1) => State.serveQueue p q n (s1.giveElement k t w v)
      | (none, _) => s

/-- Delivery of the next element of a queue: it stands behind those delivered before, its ticket is recorded, and a waiting lane
receives it. -/
def execQueueDeliver (part queue : Nat) (s : State) : Res :=
  match s.deliverable part queue with
  | none => .next s
  | some e =>
    let s1 := s.updPart part (fun x =>
      let l := (aget? x.hwq queue).getD []
      { x with hwq := aput x.hwq queue (l.filter (·.delivered) ++ [{ e with delivered := true }]
                 ++ (l.filter (fun y => !y.delivered)).erase e) })
    let s2 := s1.updLaunch part e.lnum (fun l => { l with delivered := l.delivered ++ [(queue, e.bl, e.tl, e.n)] })
    .next (s2.serveQueue part queue 1)

end Sys2Proof.Machine
end

