-- ==== Sys2Proof/Machine/Points.lean ====
section
/-!
DEFINITION. Recovery points as threads see them (R438, R441, R442): what RPOPEN and RPSEAL come to, the seal ring, and the lanes that wait for a
point tested again.
-/

namespace Sys2Proof.Machine

/-! ### The seal ring (R438, R441) -/

/-- RPBASE of a partition. -/
def State.rpBase (s : State) (p : Nat) : W64 := s.reg (0x200 + 16 * p)

/-- The device addresses of the four 4 KiB parts of a ring at `base`, where they translate to durable memory with read and write permission. -/
def State.ringFrom (s : State) (p base : Nat) : Option (List Nat) :=
  (List.range 4).foldl (fun r i =>
    match r, s.resolve p (base + 4096 * i) true true with
    | some l, .ok (.dev a) (.leaf e _ _ _) => if pteD e then some (l ++ [a]) else none
    | _, _ => none) (some [])

/-- The parts of a partition's ring. -/
def State.ringOf (s : State) (p : Nat) : Option (List Nat) :=
  if (s.rpBase p).toNat = 0 then none else s.ringFrom p (s.rpBase p).toNat

/-- The ring's pages used: what their entries say of them stands in the underlay table (R21, R145). -/
def State.noteRing (s : State) (p : Nat) : State :=
  (List.range 4).foldl (fun t i => t.noteVa p ((s.rpBase p).toNat + 4096 * i)) s

/-! ### What the instructions come to (R442) -/

/-- The status of RPOPEN of point `n`, none while it waits for the prior seal to commit. -/
def rpopenTest (q : Partition) (n : W32) : Option Nat :=
  if q.rpa.toNat > q.rps.toNat ∧ n = q.rpa + 1 then none
  else if q.rpc = n then some 1
  else if q.rpc ≠ 0 then some 2
  else if n ≠ q.rps + 1 ∨ n = 0 then some 3
  else some 0

/-- The status of a waiting RPSEAL of point `n`, none while it waits; `own` marks the lane that seals. -/
def rpsealTest (q : Partition) (n : W32) (own : Bool) : Option Nat :=
  if q.rps.toNat ≥ n.toNat then some (if own then 0 else 1)
  else if q.rpc ≠ n ∧ q.rpa.toNat < n.toNat then some 2
  else none

/-- One lane of RPOPEN: its status, and the point that it opens or joins (R489). -/
def State.rpopenLane (s : State) (k : BKey) (n : W32) : Option Nat × State :=
  match s.part? k.part with
  | none => (some 3, s)
  | some q =>
    let r := rpopenTest q n
    let s1 := if r = some 0 then s.updPart k.part (fun q => { q with rpc := n }) else s
    (r, if r = some 0 ∨ r = some 1 then s1.updLaunch k.part k.lnum (fun l => { l with point := some n.toNat }) else s1)

/-- One lane of RPSEAL: its status, or its wait with the mark of the lane that seals. Point 0 is never open (log 24). -/
def State.rpsealLane (s : State) (k : BKey) (n : W32) (ring : List Nat) : Option Nat × Bool × State :=
  match s.part? k.part with
  | none => (some 2, false, s)
  | some q =>
    let s1 := if q.rpc = n then s.updLaunch k.part k.lnum (fun l => { l with sealer := some n.toNat }) else s
    if n ≠ 0 ∧ q.rpc = n ∧ !q.sealing then
      (none, true, s1.updPart k.part (fun q =>
        { q with sealing := true, sealNow := some { n := n.toNat, ring := ring, lnum := k.lnum } }))
    else if (q.rpc = n ∧ q.sealing) ∨ q.rpa.toNat ≥ n.toNat ∨ q.rps.toNat ≥ n.toNat then (rpsealTest q n false, false, s1)
    else (some 2, false, s1)

/-! ### Waiting lanes (R442) -/

/-- A waiting lane that has its status writes it and goes on; a status 0 or 1 of RPSEAL is an acquire of the commit. -/
def State.pointDone (s : State) (k : BKey) (tl : Nat) (i : Instr) (st : Nat) : State :=
  match i with
  | .rpopen h d _ => (if h.wbs then s else s.putDst k tl d 32 st).depart k tl
  | .rpseal h d _ =>
    let s1 := if h.wbs then s else s.putDst k tl d 32 st
    if st = 2 then s1.depart k tl else s1.departAcq k tl
  | _ => s

/-- One waiting lane tested again. -/
def State.retestPoint (s : State) (k : BKey) (tl : Nat) : State :=
  match s.thread? k tl, s.part? k.part with
  | some t, some q =>
    (match t.stat with
     | .waiting w =>
       (match w.kind with
        | .rpopen =>
          (match s.rpopenLane k (w.a.setWidth 32) with
           | (some st, s1) => s1.pointDone k tl w.i st
           | (none, _) => s)
        | .rpseal =>
          (match rpsealTest q (w.a.setWidth 32) (w.x == 1) with
           | some st => s.pointDone k tl w.i st
           | none => s)
        | _ => s)
     | _ => s)
  | _, _ => s

/-- Every waiting lane of a partition tested again, in ascending order. -/
def State.retestPoints (s : State) (p : Nat) : State :=
  (s.blocks.filter (fun b => b.key.part == p)).foldl (fun t b =>
    (sortBy (fun n => n) (b.threads.map (·.tl))).foldl (fun u tl => u.retestPoint b.key tl) t) s

end Sys2Proof.Machine
end

