-- ==== Sys2Proof/Machine/Rollback.lean ====
section
/-!
DEFINITION. Suspect scores (R431), the discard of a torn recovery point (R444, R489) and containment by rollback (R432 to R434), each
one shared operation of every event that comes to it.
-/

namespace Sys2Proof.Machine

/-! ### Suspect scores (R431) -/

/-- A score added to a physical core, saturating at 255. -/
def State.addScore (s : State) (phys n : Nat) : State :=
  { s with scores := s.scores.set phys (BitVec.ofNat 8 (min 255 ((s.scores.get phys).toNat + n))) }

/-- The score of the physical core behind a logical core. -/
def State.scoreOf (s : State) (core : Nat) : Nat := (s.scores.get (s.physCore core)).toNat

/-! ### The discard of a point (R444, R489) -/

/-- Whether a partition has an open point that the Plate has not acknowledged. -/
def Partition.openUnacked (q : Partition) : Bool := decide (q.rpc ≠ 0) && decide (q.rpa.toNat < q.rpc.toNat)

/-- The shadows of a partition's point returned: the primaries keep point %rps. -/
def State.dropPoint (s : State) (p : Nat) : State :=
  s.und.foldl (fun t u =>
    match u.point with
    | some (q, _, f) =>
      if q = p then
        ((t.updUnd u.base (fun v => { v with point := none })).poolGive f u.size).dropPage u.base u.size
      else t
    | none => t) s

/-- The open point of a partition discarded as torn, with the record of TYPE 0x0303. -/
def State.discardPoint (s : State) (p : Nat) : State :=
  match s.part? p with
  | none => s
  | some q =>
    if q.openUnacked then
      let s1 := (s.dropPoint p).updPart p (fun q => { q with rpc := 0, sealing := false, sealNow := none })
      (s1.gutter { GRec.plate 0x0303 with part := p, aux2 := q.rpc }).retestPoints p
    else s

/-! ### Containment (R432 to R434) -/

/-- Pages that cover a range of virtual addresses, as storage runs. -/
def State.storageRuns (s : State) (p : Nat) : Nat → Nat → Nat → List (Nat × Nat)
  | 0, _, _ => []
  | fuel + 1, va, stop =>
    if va ≥ stop then []
    else
      match s.walk p (vaBits va) with
      | .leaf _ b size pa =>
        let next := va + (b + size - vaBits va)
        let rest := State.storageRuns s p fuel next stop
        (match s.physLoc (pa + (vaBits va - b)) with
         | .dev a => (s.live a, min next stop - va) :: rest
         | _ => rest)
      | _ => State.storageRuns s p fuel (va / 4096 * 4096 + 4096) stop

/-- The partials of lines in a launch's declared ranges discarded (R314). -/
def State.dropPartials (s : State) (l : Launch) : State :=
  let runs := l.ranges.flatMap (fun r => s.storageRuns l.part (r.len.toNat / 4096 + 2) r.base.toNat (r.base.toNat + r.len.toNat))
  { s with parts := s.parts.filter (fun p =>
      !(runs.any (fun r => decide (r.1 < 128 * p.line + 128) && decide (128 * p.line < r.1 + r.2)))) }

/-- Whether a snapshot shadow of a launch holds a line that is POISON (R434). -/
def State.snapshotLost (s : State) (p n : Nat) : Bool :=
  s.und.any (fun u =>
    decide (u.snapOf = some (p, n)) &&
    u.snap.any (fun f => s.poison.any (fun l => decide (f / 128 ≤ l) && decide (l < (f + u.size) / 128))))

/-- The snapshot of a launch restored (R433): every copied shadow exchanged with the live frame, the former live frame returned; what the cores and
the host hold of the page goes (R21, R142). -/
def State.restoreSnapshot (s : State) (p n : Nat) : State :=
  s.und.foldl (fun t u =>
    if u.snapOf = some (p, n) then
      match u.snap with
      | some f =>
        ((t.updUnd u.base (fun v => { v.setLive f with snapOf := none, snap := none })).poolGive u.live u.size).dropPage u.base u.size
      | none => t.updUnd u.base (fun v => { v with snapOf := none })
    else t) s

/-- Undelivered queue elements of a launch discarded (R241). -/
def State.dropQueued (s : State) (p n : Nat) : State :=
  s.updPart p (fun q => { q with hwq := q.hwq.map (fun e => (e.1, e.2.filter (fun x => x.delivered || x.lnum != n))) })

/-- A launch placed back at the head of its queue, to be dispatched from its start. -/
def State.requeue (s : State) (p n : Nat) : State :=
  match s.launch? p n with
  | none => s
  | some l =>
    let s1 := s.updLaunch p n (fun l =>
      { l with stat := .queued, next := 0, saved := [], placed := [], finished := [], retired := [], scanPos := 0, curveLost := 0,
               halted := false, stopping := none, point := none, sealer := none, gbars := [], switchedOut := false, pushed := [], seqNext := 0, images := [],
               contained := l.contained + 1 })
    s1.updPart p (fun q => { q with queues := aput q.queues l.queue (n :: ((aget? q.queues l.queue).getD []).filter (· != n)) })

/-- Steps 1 to 3 of R432 for one launch, with its record of TYPE 0x0301: its blocks and copies stop, its partials and undelivered elements go. It
is then held until its rollback has ended. -/
def State.containStop (s : State) (p n : Nat) (cause : BitVec 16) (aux2 : W32) : State :=
  match s.launch? p n with
  | none => s
  | some l =>
    if l.live && decide (l.stat ≠ .held) then
      ((((s.stopBlocks p n).dropPartials l).dropQueued p n).gutter { GRec.plate 0x0301 with
        part := p, lnum := BitVec.ofNat 32 n, aux2 := aux2, aux3 := cause.setWidth 32 }).updLaunch p n (fun l => { l with stat := .held })
    else s

/-- Step 6 of R432 for one launch whose snapshot is restored. One beyond RBLIMIT, or whose snapshot was `lost`, is ended as fatal instead (R434). -/
def State.containEnd (s : State) (p n : Nat) (cause : BitVec 16) (lost : Bool) : State :=
  match s.launch? p n with
  | none => s
  | some l =>
    if lost || decide (l.contained ≥ max 1 (s.preg p 0x10).toNat) then
      (s.gutter { GRec.plate 0x0302 with flags := 1, part := p, lnum := BitVec.ofNat 32 n, aux3 := cause.setWidth 32 }).endFatal p n
    else s.requeue p n

/-- The launches of a containment that live, and with them those that joined a point that goes with it (R489). -/
def State.contained (s : State) (r : Rollback) : List (Nat × Nat) :=
  let joined := s.launches.filter (fun l => r.discard.contains l.part && l.live && decide (l.stat ≠ .held) && (s.part? l.part).any (fun q => decide (l.point = some q.rpc.toNat)))
  (joined.map (fun l => (l.part, l.lnum))).foldl (fun ks k => insertNew ks k)
    (r.launches.filter (fun k => (s.launch? k.1 k.2).any (fun l => l.live)))

/-- The launches of a containment stopped, and the seals of the points that go with it abandoned (steps 1 to 3 of R432, R489). -/
def State.containHeld (s : State) (r : Rollback) : State :=
  r.discard.foldl (fun t p => t.updPart p (fun q => if q.openUnacked then { q with sealing := false, sealNow := none } else q))
    (r.launches.foldl (fun t k => t.containStop k.1 k.2 r.cause r.aux2) s)

/-- The pages whose frames a containment exchanges: the copied snapshots of its launches and the shadows of the points that go. -/
def State.exchanges (s : State) (r : Rollback) : List Nat :=
  (s.und.filter (fun u => u.snap.isSome && r.launches.any (fun k => decide (u.snapOf = some k)) ||
    u.point.any (fun x => r.discard.contains x.1))).map (·.base)

/-- Steps 4 to 6 of R432: the open points go; the snapshots are restored, in one event; and the launches return to the heads of their queues, the last
submitted first, so that one queue's launches keep their order (R372). -/
def State.endRollback (s : State) (r : Rollback) : State :=
  let s2 := r.discard.foldl (fun t p => t.discardPoint p) s
  let lost := r.launches.filter (fun k => s2.snapshotLost k.1 k.2)
  let s3 := r.launches.foldl (fun t k => t.restoreSnapshot k.1 k.2) s2
  let ref := (r.launches.head?.map (·.2)).getD 0
  (sortBy (fun k => logicalKey ref ⟨k.1, k.2, 0⟩ 0) r.launches).reverse.foldl (fun t k => t.containEnd k.1 k.2 r.cause (lost.contains k)) s3

/-- A containment: its launches stop, and once the host caches no line of the pages to exchange, the rest follows (R21, R432). -/
def State.rollBack (s : State) (r : Rollback) : State :=
  let r1 := { r with launches := s.contained r }
  let s1 := s.containHeld r1
  let held := s1.hostIn (s1.exchanges r1)
  if held.isEmpty then s1.endRollback r1 else ({ s1 with rollbacks := s1.rollbacks ++ [r1] }).snoopHost held

/-- The containments that waited for the host, tried again. -/
def State.retryRollbacks (s : State) : State := s.rollbacks.foldl (fun t r => t.rollBack r) { s with rollbacks := [] }

/-- Whether a launch takes part in its partition's open point: it has opened, joined or sealed it, or stored into it (R489). -/
def State.inPoint (s : State) (l : Launch) : Bool :=
  (s.part? l.part).any (fun q => q.openUnacked && (decide (l.point = some q.rpc.toNat) || decide (l.sealer = some q.rpc.toNat)))

/-- Containment of launches (R432): where one takes part in its partition's unacknowledged open point, with the stores that its stop performs, every
launch that takes part is contained with it and the point is discarded (R489). The open points of the partitions `also` are discarded too (R435). -/
def State.containMany (s : State) (ks : List (Nat × Nat)) (cause : BitVec 16) (aux2 : W32 := 0) (also : List Nat := []) : State :=
  let flushed := ks.foldl (fun t k => t.flushLaunch k.1 k.2) s
  let torn := ks.foldl (fun r k => if (flushed.launch? k.1 k.2).any (fun l => l.live && flushed.inPoint l) then insertNew r k.1 else r)
    (also.filter (fun p => (s.part? p).any Partition.openUnacked))
  let fresh := ks.filter (fun k => (flushed.launch? k.1 k.2).any (fun l => l.live && decide (l.stat ≠ .held)))
  flushed.rollBack { launches := fresh, discard := torn, cause := cause, aux2 := aux2 }

/-- Containment of one launch. -/
def State.contain (s : State) (p n : Nat) (cause : BitVec 16) (aux2 : W32 := 0) : State := s.containMany [(p, n)] cause aux2

/-- Launches with a block on a core. -/
def State.launchesOn (s : State) (core : Nat) : List (Nat × Nat) :=
  (s.blocks.filter (fun b => b.core == core)).foldl (fun t b => insertNew t (b.key.part, b.key.lnum)) []

/-- Whether a core is idle: no block, no MCC, no copy entry (R445). -/
def State.coreIdle (s : State) (core : Nat) : Bool :=
  !(s.blocks.any (fun b => b.core == core)) && !(s.mccs.any (fun m => m.core == core)) && !(s.copies.any (fun c => c.core == core))

/-- The quarantine of a core (R431), with its record. -/
def State.quarantined (s : State) (core : Nat) : State :=
  if s.quarantine.contains core then s
  else
    ({ s with quarantine := s.quarantine ++ [core] }).gutter
      { GRec.plate 0x0304 with core := core, aux2 := BitVec.ofNat 32 (s.scoreOf core) }

/-- At a score of 64 or more a core is quarantined at once: every launch with a block on it is contained. -/
def State.quarantineNow (s : State) (core : Nat) (cause : BitVec 16) : State :=
  if s.scoreOf core ≥ 64 ∧ !s.quarantine.contains core then
    (s.quarantined core).containMany (s.launchesOn core) cause
  else s

/-- A score added to the physical core behind a core, which is quarantined at once where that brings it to 64. -/
def State.scoreCore (s : State) (core n : Nat) (cause : BitVec 16) : State := (s.addScore (s.physCore core) n).quarantineNow core cause

/-- A corrected event in a core's bank: every 256 of them add 1 to its score. -/
def State.coreCorrected (s : State) (core : Nat) (kind : BitVec 3) (addr synd : W64) : State :=
  let s1 := s.bankError (s.unitCore core) false kind addr synd false
  let b := s1.bank (s.unitCore core)
  let s2 := s1.setBank { b with corr := (b.corr + 1) % 256 }
  if b.corr + 1 ≥ 256 then s2.scoreCore core 1 0 else s2

end Sys2Proof.Machine
end

