-- ==== Sys2Proof/Machine/Matrix.lean ====
section
/-!
DEFINITION. The matrix control core (R325 to R328, R342 to R349): its operands, its faults and waits, its accesses, and the scalar
instructions XADD to XWAIT.
-/

namespace Sys2Proof.Machine

/-! ### Operands, faults and waits -/

/-- What keeps an MCC instruction from its effect: a matrix fault (R342), a stall, or data asked from a peer (R457). -/
inductive MStop where
  | fault (code : Nat) (aux0 aux1 : W64)
  | wait (st : MStat)
  | peer (l : Loc) (op : ReqOp)

/-- Bytes of an MCC instruction (R24). -/
def mSize (lit : Option W64) : Nat := if lit.isSome then 20 else 12

/-- A scalar source (R344). -/
def mval (x : MCtx) (lit : Option W64) (o : MOpnd) : W64 :=
  match o with
  | .x n => x.m.x.get n.val
  | .c n => BitVec.ofNat 64 (regRun x.l.consts n.val 2)
  | .imm i => BitVec.ofInt 64 i
  | .lit => lit.getD 0
  | _ => 0

/-- A scratchpad offset, count or pitch: bits 31:0 of its source (R344). -/
def mval32 (x : MCtx) (lit : Option W64) (o : MOpnd) : Nat := (mval x lit o).toNat % 2 ^ 32

/-- Whether a staged multiply has started: it is not a TMMA that still waits to join (R331). -/
def Staged.started (g : Staged) : Bool := g.joint.isNone || g.joined

/-- The trace record of a matrix fault, which names the block's MCC (R463, R471; log 39). -/
def State.traceMcc (s : State) (core : Nat) (pc : W64) (code : Nat) : State :=
  match s.mcc? core with
  | some m => s.trace core m.key.part (nameOf m.key 0xFFFE core) 0x06 0 0 0 pc 0 (BitVec.ofNat 32 code)
  | none => s

/-- The matrix fault frame filled, the MCC stopped (R342). -/
def State.mccFault (s : State) (core : Nat) (pc : W64) (code : Nat) (aux0 aux1 : W64) : State :=
  (s.traceMcc core pc code).updMcc core (fun m =>
    { m with stat := .fault none, fault := { pc := pc, cause := code, aux0 := aux0, aux1 := aux1 }, walk := none })

/-- An MCC instruction without its effect. A fault is reported after every multiply that started before it has drained (R343). -/
def State.mccStop (s : State) (x : MCtx) (e : MStop) : State :=
  match e with
  | .fault code a b =>
    if x.m.staging.any Staged.started then s.updMcc x.core (fun m => { m with stat := .stage })
    else s.mccFault x.core x.m.pc code a b
  | .wait st => s.updMcc x.core (fun m => { m with stat := st })
  | .peer (.peer n a) op =>
    (s.request n a op (some (.mcc x.core))).updMcc x.core (fun m => { m with stat := .peer [s.nextId] })
  | .peer _ _ => s

/-- The meaning of an MCC instruction from what it does, or what stops it. -/
def State.mcc (s : State) (f : MCtx → Except MStop State) : Res :=
  s.onMcc (fun x => match f x with | .ok t => t | .error e => s.mccStop x e)

/-- The MCC moved past the instruction. -/
def State.mnext (s : State) (x : MCtx) (lit : Option W64) : State :=
  s.updMcc x.core (fun m => { m with pc := m.pc + BitVec.ofNat 64 (mSize lit) })

/-- A scalar register of the MCC written. -/
def State.setX (s : State) (x : MCtx) (d : Fin 32) (v : W64) : State :=
  s.updMcc x.core (fun m => { m with x := m.x.set d.val v })

/-- A scalar instruction that writes xd and goes on. -/
def State.scalar (s : State) (lit : Option W64) (d : Fin 32) (f : MCtx → W64) : Res :=
  s.mcc (fun x => .ok ((s.setX x d (f x)).mnext x lit))

/-! ### Accesses of the MCC (R326, R348) -/

/-- The MCC's agent. -/
def MCtx.agent (x : MCtx) : Agent := .mcc x.b.key

/-- A matrix fault at an address or offset. -/
def atAddr (code : Nat) (a : Int) (sub : Nat := 0) : MStop := .fault code (BitVec.ofInt 64 a) (BitVec.ofNat 64 sub)

/-- A global address resolved for the MCC (R219, R348). -/
def mccGlob (s : State) (x : MCtx) (va : Nat) (rd wr : Bool) : Except MStop At :=
  match s.resolve x.b.key.part va rd wr with
  | .noncanonical => .error (atAddr cProtect va 3)
  | .missing => .error (atAddr cPage va)
  | .bad => .error (atAddr cProtect va 12)
  | .denyRead => .error (atAddr cProtect va 1)
  | .denyWrite => .error (atAddr cProtect va 2)
  | .ok l w => .ok { loc := l, w := w, va := va }

/-- Where an access of `n` bytes at base plus offset goes, with the checks of R219 but POISON. -/
def mccAt (s : State) (x : MCtx) (own : Bool) (base : W64) (offs : BitVec 20) (n : Nat) (rd wr : Bool) : Except MStop At :=
  if own then
    let o : Int := ((base.toNat % 2 ^ 32 : Nat) : Int) + offs.toInt
    if o % (n : Int) ≠ 0 then .error (atAddr cMisalign o)
    else if o < 0 ∨ o + n > x.l.d.scratch then .error (atAddr cBounds o)
    else .ok { loc := .scr x.b.key o.toNat, w := .missing, va := o.toNat }
  else
    let va := (base + offs.signExtend 64).toNat
    if va % n ≠ 0 then .error (atAddr cMisalign va) else mccGlob s x va rd wr

/-- Data a peer has sent to the MCC for a location. -/
def mccResp (s : State) (x : MCtx) (l : Loc) : Option (Resp × State) :=
  (s.mcc? x.core).bind (fun m =>
    (m.resp.find? (fun r => decide (r.loc = l))).map (fun r =>
      (r, s.updMcc x.core (fun m => { m with resp := m.resp.filter (fun q => q.req != r.req) }))))

/-- A relaxed load of the MCC at a resolved location: presence (R17), a peer's data once its own earlier accesses there are performed (R116), POISON, else the load of R129 to R132. -/
def mccLoad (s : State) (x : MCtx) (a : At) (n : Nat) (bypass : Bool) (cur : Bool := false) : Except MStop (List Byte × State) :=
  let s0 := s.noteLeaf x.b.key.part a.w
  match a.loc with
  | .scr k o =>
    if (s0.clearedBy k (o / 128)).isSome then .error (.wait (.presence (o / 128)))
    else if s0.poisonLoad x.agent a.loc n then .error (atAddr cPoison a.va)
    else .ok (s0.forward x.agent a.loc (s0.bytesAt a.loc n), s0)
  | .peer _ _ =>
    (match mccResp s0 x a.loc with
     | some (r, s1) => if r.bad then .error (atAddr cPoison a.va) else .ok (s1.forward x.agent a.loc r.data, s1)
     | none =>
       if (s0.pendOf x.agent).any (fun q => q.loc.meets q.bytes.length a.loc n) then .error (.wait .drain) else .error (.peer a.loc (.read n)))
  | _ =>
    let s1 := s0.mergeFor a.loc n
    if s1.poisonLoad x.agent a.loc n then .error (atAddr cPoison a.va) else .ok (s1.load x.agent x.core a.va a.loc n bypass cur)

/-- A hint that leaves a host line in no near slice (R453). -/
def mThru (c : Cache) : Bool := match c with | .bypass => true | .na => true | _ => false

/-- Whether an MCC access bypasses L1: a hint that allocates nothing, or an uncached page. -/
def mBypass (c : Cache) (w : PWalk) : Bool :=
  mThru c ||
  (match w with | .leaf e _ _ _ => bitsOf e 9 8 == 1 | _ => false)

/-! ### Arithmetic and logic (R345, R346) -/

def execXadd (lit : Option W64) (d : Fin 32) (a b : MOpnd) (s : State) : Res :=
  s.scalar lit d (fun x => mval x lit a + mval x lit b)

def execXsub (lit : Option W64) (d : Fin 32) (a b : MOpnd) (s : State) : Res :=
  s.scalar lit d (fun x => mval x lit a - mval x lit b)

/-- The product that XMUL takes. -/
def xmulOf (v : XmV) (a b : W64) : W64 :=
  match v with
  | .lo => a * b
  | .hi true => BitVec.ofNat 64 (a.toNat * b.toNat / 2 ^ 64)
  | .hi false => BitVec.ofInt 64 (a.toInt * b.toInt / 2 ^ 64)

def execXmul (lit : Option W64) (d : Fin 32) (a b : MOpnd) (v : XmV) (s : State) : Res :=
  s.scalar lit d (fun x => xmulOf v (mval x lit a) (mval x lit b))

/-- What XLOG computes. -/
def xlogOf (op : XlOp) (a b : W64) : W64 :=
  match op with
  | .and => a &&& b
  | .or => a ||| b
  | .xor => a ^^^ b
  | .andn => a &&& ~~~b

def execXlog (lit : Option W64) (op : XlOp) (d : Fin 32) (a b : MOpnd) (s : State) : Res :=
  s.scalar lit d (fun x => xlogOf op (mval x lit a) (mval x lit b))

/-- What XSHF computes. -/
def xshfOf (op : XsOp) (a b : W64) : W64 :=
  let n := min b.toNat 64
  match op with
  | .shl => a <<< n
  | .shr => a >>> n
  | .sar => BitVec.ofInt 64 (a.toInt / 2 ^ n)
  | .rol => a.rotateLeft (b.toNat % 64)

def execXshf (lit : Option W64) (op : XsOp) (d : Fin 32) (a b : MOpnd) (s : State) : Res :=
  s.scalar lit d (fun x => xshfOf op (mval x lit a) (mval x lit b))

def execXmov (lit : Option W64) (d : Fin 32) (a : MOpnd) (s : State) : Res :=
  s.scalar lit d (fun x => mval x lit a)

/-- XMOVL replaces one half of xd. -/
def xmovlOf (hi : Bool) (v : BitVec 32) (old : W64) : W64 :=
  if hi then v ++ old.setWidth 32 else old.extractLsb' 32 32 ++ v

def execXmovl (d : Fin 32) (hi : Bool) (v : BitVec 32) (s : State) : Res :=
  s.scalar none d (fun x => xmovlOf hi v (x.m.x.get d.val))

/-- The comparisons of XCMP. -/
def xcmpOf (c : Cmp) (u : Bool) (a b : W64) : Bool :=
  let lt := if u then a.ult b else a.slt b
  match c with
  | .eq => a == b
  | .ne => a != b
  | .lt => lt
  | .le => lt || a == b
  | .gt => !(lt || a == b)
  | .ge => !lt

def execXcmp (lit : Option W64) (cmp : Cmp) (u : Bool) (d : Fin 32) (a b : MOpnd) (s : State) : Res :=
  s.scalar lit d (fun x => BitVec.ofNat 64 (xcmpOf cmp u (mval x lit a) (mval x lit b)).toNat)

/-! ### Branches (R347) -/

/-- The target of a direct branch. -/
def mTarget (pc : W64) (off : BitVec 32) : W64 := pc + off.signExtend 64 * 4

/-- The PC of the MCC set. -/
def State.mgoto (s : State) (x : MCtx) (pc : W64) : State := s.updMcc x.core (fun m => { m with pc := pc })

/-- The conditions of XBR. -/
def xbrTaken (c : XCond) (v : W64) : Bool :=
  match c with
  | .z => v == 0
  | .nz => v != 0
  | .ltz => v.msb
  | .gez => !v.msb
  | .lez => v.msb || v == 0
  | .gtz => !v.msb && v != 0

def execXbr (lit : Option W64) (cond : XCond) (a : MOpnd) (off : BitVec 32) (s : State) : Res :=
  s.mcc (fun x => .ok (if xbrTaken cond (mval x lit a) then s.mgoto x (mTarget x.m.pc off) else s.mnext x lit))

def execXloop (d : Fin 32) (off : BitVec 32) (s : State) : Res :=
  s.mcc (fun x =>
    let v := x.m.x.get d.val - 1
    let s1 := s.setX x d v
    .ok (if v ≠ 0 then s1.mgoto x (mTarget x.m.pc off) else s1.mnext x none))

/-- XJMP: the target is read before the link is written; a misaligned one is a fault at this instruction. -/
def execXjmp (lit : Option W64) (link : Option (Fin 32)) (t : XjT) (s : State) : Res :=
  s.mcc (fun x =>
    let target := match t with | .direct off => mTarget x.m.pc off | .ind a => mval x lit a
    if target.toNat % 4 ≠ 0 then .error (.fault cMisalign target 0)
    else
      let s1 := match link with
        | some d => s.setX x d (x.m.pc + BitVec.ofNat 64 (mSize lit))
        | none => s
      .ok (s1.mgoto x target))

/-! ### Memory (R348) -/

/-- A loaded value of a size, extended to 64 bits. -/
def mExtended (z : Sz) (sx : Bool) (v : Nat) : W64 :=
  if sx then BitVec.ofInt 64 (sintOf z.bits v) else BitVec.ofNat 64 v

def execXld (lit : Option W64) (d : Fin 32) (m : XMem) (sx : Bool) (s : State) : Res :=
  s.mcc (fun x =>
    (mccAt s x m.own (mval x lit m.base) m.offs m.size.bytes true false).bind (fun a =>
      (mccLoad s x a m.size.bytes (mBypass m.cache a.w) (mThru m.cache)).map (fun r =>
        (r.2.setX x d (mExtended m.size sx (leNat r.1))).mnext x lit)))

def execXst (lit : Option W64) (m : XMem) (a : MOpnd) (s : State) : Res :=
  s.mcc (fun x =>
    (mccAt s x m.own (mval x lit m.base) m.offs m.size.bytes false true).map (fun q =>
      ((s.noteLeaf x.b.key.part q.w).issueAccess x.agent x.core q.loc q.va (natLE m.size.bytes (mval x lit a).toNat) .store (mThru m.cache)).mnext
        x lit))

/-! ### Signals (R349) -/

/-- The MCC's and its tiles' writes performed, as far as they can be now. -/
def State.settleMcc (s : State) (k : BKey) : State := ((s.drain (.mcc k)).drain (.tile k false)).drain (.tile k true)

/-- Whether every write of the MCC and of its tiles is performed. -/
def State.mccSettled (s : State) (k : BKey) : Bool :=
  (s.pendOf (.mcc k)).isEmpty && (s.pendOf (.tile k false)).isEmpty && (s.pendOf (.tile k true)).isEmpty

/-- XSIG: the stamp is written as a release once every earlier write of the MCC is performed; the program may then end. -/
def execXsig (lit : Option W64) (k : XsigK) (s : State) : Res :=
  let put : XStamp → MOpnd → Bool → Res := fun a v fin =>
    s.mcc (fun x =>
      (mccAt s x a.own (mval x lit a.base) a.offs 8 false true).bind (fun q =>
        if s.mccSettled x.b.key then
          let s1 := (s.noteLeaf x.b.key.part q.w).issueAccess x.agent x.core q.loc q.va (natLE 8 (mval x lit v).toNat) (.release .dev)
          let s2 := s1.mnext x lit
          .ok (if fin then s2.updMcc x.core (fun m => { m with stat := .ended, fin := true }) else s2)
        else .error (.wait .drain)))
  match k with
  | .signal a v => put a v false
  | .signalEnd a v => put a v true
  | .halt => s.mcc (fun x => .ok ((s.mnext x lit).updMcc x.core (fun m => { m with stat := .ended, fin := true })))

/-- XWAIT: the MCC goes on as an acquire where the stamp has reached the comparand, and waits otherwise; a stamp in a POISON line is POISON (R342). -/
def execXwait (lit : Option W64) (a : XStamp) (v : MOpnd) (s : State) : Res :=
  s.mcc (fun x =>
    (mccAt s x a.own (mval x lit a.base) a.offs 8 true false).bind (fun q =>
      let (n, s1) := (s.noteLeaf x.b.key.part q.w).stampAt (some x.agent) q.loc
      if s1.poisonLoad x.agent q.loc 8 then .error (atAddr cPoison q.va)
      else if n ≥ (mval x lit v).toNat then .ok ((s1.acquire x.agent x.core).mnext x lit)
      else .ok <| s1.updMcc x.core (fun m => { m with stat := .xwait q.loc (mval x lit v) })))

/-- A waiting MCC's stamp tested again (R20, R349): where it has reached the comparand, or is POISON, the MCC issues its XWAIT again. -/
def State.retestMcc (s : State) (core : Nat) : State :=
  match s.mcc? core with
  | none => s
  | some m =>
    match m.stat with
    | .xwait l v =>
      let (n, s1) := s.stampAt (some (.mcc m.key)) l
      if n ≥ v.toNat ∨ s1.poisonLoad (.mcc m.key) l 8 then s1.updMcc core (fun m => { m with stat := .running }) else s
    | _ => s

end Sys2Proof.Machine
end

