-- ==== Sys2Proof/Machine/Tiles.lean ====
section
/-!
DEFINITION. The tile instructions of the MCC (R350 to R368), the multiply (R318 to R323), staging, flashing and its report (R329, R338 to
R341), joint multiplies (R331 to R333) and the tile walk (R334 to R336, R362 to R364).
-/

namespace Sys2Proof.Machine

/-! ### Elements and products (R321 to R323) -/

/-- Element `n` of an array of `w`-bit elements packed under R91. -/
def bitElem (m : Memory) (w n : Nat) : Nat := leNat (m.read (n * w / 8) 5) / 2 ^ (n * w % 8) % 2 ^ w

/-- The scale byte that serves lane `i` at K index `k` from base `kb` (R322). A scale latch holds each byte as its difference from 0x7F. -/
def scaleAt (sc : Memory) (i kb k : Nat) : Nat := ((sc.get (32 * i + (kb + k) % 1024 / 32)) + 0x7F).toNat

/-- A decoded element with its scale: 0xFF makes every product NaN. -/
def scaledVal (v : FVal) (e : Nat) : FVal :=
  if e = 255 then .nan
  else match v with
    | .fin s m x => .fin s m (x + (e : Int) - 127)
    | w => w

/-- A element (i,k) of a staged multiply (R351, R355). -/
def Staged.aVal (g : Staged) (i k : Nat) : FVal :=
  let v := g.fa.wa.decode (bitElem g.a g.fa.wa.bits (i * g.fa.kc + k)) g.cba
  if g.fa.sa then scaledVal v (scaleAt g.sa i g.ka k) else v

/-- B element (k,j) of a staged multiply. -/
def Staged.bVal (g : Staged) (k j : Nat) : FVal :=
  let v := g.fb.wb.decode (bitElem g.b g.fb.wb.bits (k * g.fb.side + j)) g.cbb
  if g.fb.sb then scaledVal v (scaleAt g.sb j g.kb k) else v

/-- A product added into a cell: a scaled product of 2^256 or more sets OVF and is not added (R322). -/
def addProduct (scaled : Bool) (c : Acc) (p : FVal) : Acc :=
  match p with
  | .fin _ m e =>
    if scaled && decide (m ≠ 0) && decide (e + (Nat.log2 m : Int) ≥ 256) then { c with ovf := true, count := c.count + 1 }
    else c.add p true
  | _ => c.add p true

/-- What the multiply adds into its cell (i,j): its Kc products (R321). -/
def Staged.addCell (g : Staged) (i j : Nat) (c : Acc) : Acc :=
  (List.range g.fa.kc).foldl (fun c k => addProduct (g.fa.sa || g.fb.sb) c (g.aVal i k |>.mul (g.bVal k j)).1) c

/-! ### Tiles -/

/-- A cell of a tile. -/
def cellOf (t : List (Nat × Acc)) (r c : Nat) : Acc := (aget? t (32 * r + c)).getD Acc.zero

/-- A tile of the MCC. -/
def Mcc.tile (m : Mcc) (t : Fin 2) : List (Nat × Acc) := m.tc.getD t.val []

/-- A tile replaced. -/
def Mcc.setTile (m : Mcc) (t : Fin 2) (x : List (Nat × Acc)) : Mcc := { m with tc := setAt [] m.tc t.val x }

/-- The cells of a region in row-major order (R350). -/
def cellsOf (r : Region) : List (Nat × Nat) :=
  (List.range (r.nrow.toNat + 1)).flatMap (fun i =>
    (List.range (r.ncol.toNat + 1)).map (fun j => (r.row0.toNat + i, r.col0.toNat + j)))

/-- A staged multiply drained into its tile (R321). -/
def Mcc.addStaged (m : Mcc) (g : Staged) : Mcc :=
  let n := g.m.side
  m.setTile g.t ((List.range n).foldl (fun t i => (List.range n).foldl (fun t j =>
    let r := g.row0 + i
    let c := g.col0 + j
    aput t (32 * r + c) (g.addCell i j (cellOf t r c))) t) (m.tile g.t))

/-! ### Staging (R329) -/

/-- TQNTs whose writes are not all performed (R361). -/
def State.quantOut (s : State) (k : BKey) : Nat :=
  ((s.pendOf (.tile k true)).foldl (fun l p => insertNew l p.grp) []).length

/-- Staging entries in use: a TMMA takes both until both of its halves have drained (R356). -/
def State.staged (s : State) (m : Mcc) : Nat :=
  (if m.staging.any (fun g => g.joint.isSome) then 2 else m.staging.length) + s.quantOut m.key

/-- The multiply of the MCC's latches as it is staged at issue. -/
def MCtx.stage (x : MCtx) (m : MulF) (t : Fin 2) (a b : Fin 4) (joint : Option W32) : Staged :=
  { m := m, t := t, row0 := m.row0.toNat, col0 := m.col0.toNat, fa := m, fb := m, ka := 32 * m.kb.toNat, kb := 32 * m.kb.toNat,
    a := x.m.ta.getD a.val [], b := x.m.tb.getD b.val [], sa := x.m.sc.getD 0 [], sb := x.m.sc.getD 1 [],
    cba := x.m.cb.getD m.cba.toNat [], cbb := x.m.cb.getD m.cbb.toNat [], joint := joint, joined := false, step := none, pc := x.m.pc }

/-- MMA stages its operands, and stalls while no entry is free (R355). -/
def execMma (m : MulF) (t : Fin 2) (a b : Fin 4) (s : State) : Res :=
  s.mcc (fun x =>
    if s.staged x.m ≥ 2 then .error (.wait .stage)
    else .ok ((s.updMcc x.core (fun c => { c with staging := c.staging ++ [x.stage m t a b none] })).mnext x none))

/-! ### Trusses (R331 to R333) -/

/-- The cores of a core's truss, top-left, top-right, bottom-left, bottom-right (R332). -/
def trussOf (core : Nat) : List Nat :=
  let o := core / 64 * 64 + core % 32 / 2 * 2
  [o, o + 1, o + 32, o + 33]

/-- Whether a launch's gang has the even width and height of R331. -/
def jointGang (d : LDesc) : Bool := decide (2 ≤ d.gangw) && d.gangw % 2 == 0 && decide (2 ≤ d.gangh) && d.gangh % 2 == 0

/-- What stops a TMMA or TSYNC before all else: a gang without whole trusses (R331), or a truss that lost a member (R342). -/
def jointStop (s : State) (x : MCtx) (i : Instr) : Option MStop :=
  if !jointGang x.l.d then some (.fault cIllegal ((firstWordOf i).setWidth 64) 9)
  else if (trussOf x.core).any (fun c => s.quarantine.contains c) then some (.fault cProtect 0 11)
  else none

/-- TMMA takes both staging entries and waits there for its partners (R356). -/
def execTmma (m : MulF) (t : Fin 2) (a b : Fin 4) (s : State) : Res :=
  s.mcc (fun x =>
    match jointStop s x (.tmma m t a b) with
    | some e => .error e
    | none =>
      if s.staged x.m ≠ 0 then .error (.wait .stage)
      else .ok ((s.updMcc x.core (fun c => { c with staging := [x.stage m t a b (some c.tmmacnt)] })).mnext x none))

/-- The MCCs of a truss that hold a block of one launch, in truss order. -/
def State.trussMccs (s : State) (core : Nat) : List Mcc := (trussOf core).filterMap s.mcc?

/-- The TMMA that an MCC holds and that still waits to join. -/
def Mcc.joining (m : Mcc) : Option Staged :=
  match m.staging with
  | [g] => if g.joint.isSome && !g.joined then some g else none
  | _ => none

/-- Half `h` of the joint operation on the core at (px, py): A from the core at (h, py), B from the core at (px, h) (R332). -/
def jointHalf (own fa fb : Staged) : Staged :=
  { own with fa := fa.m, fb := fb.m, ka := fa.ka, kb := fb.kb, a := fa.a, b := fb.b, sa := fa.sa, sb := fb.sb, cba := fa.cba,
             cbb := fb.cbb, joined := true }

/-- The joint operation starts when the four MCCs of the truss have issued their n-th TMMA; where width codes or fusion differ, all four
stop (R331), with 0 in the first auxiliary word: PROTECT 10, 11 and 15 have a subcode and no address, and R342 names no word for that (DESIGN CHOICE,
log 37). -/
def execTmmaJoin (core : Nat) (s : State) : Res :=
  .next (match s.trussMccs core with
    | [m0, m1, m2, m3] =>
      (match m0.joining, m1.joining, m2.joining, m3.joining with
       | some g0, some g1, some g2, some g3 =>
         let gs := [g0, g1, g2, g3]
         let ms := [m0, m1, m2, m3]
         if !gs.all (fun g => g.joint == g0.joint) || !ms.all (fun m => m.key.lnum == m0.key.lnum && m.key.part == m0.key.part) then s
         else if !gs.all (fun g => g.m.wa == g0.m.wa && g.m.wb == g0.m.wb && g.m.f == g0.m.f) then
           (ms.zip gs).foldl (fun t p =>
             (t.updMcc p.1.core (fun m => { m with staging := [] })).mccFault p.1.core p.2.pc cProtect 0 10) s
         else
           let put : State → Mcc → Staged → Staged → Staged → Staged → Staged → State := fun t m own a0 b0 a1 b1 =>
             t.updMcc m.core (fun m =>
               { m with staging := [jointHalf own a0 b0, jointHalf own a1 b1], tmmacnt := m.tmmacnt + 1 })
           put (put (put (put s m0 g0 g0 g0 g1 g2) m1 g1 g0 g1 g1 g3) m2 g2 g2 g0 g3 g2) m3 g3 g2 g1 g3 g3
       | _, _, _, _ => s)
    | _ => s)

/-- Whether every joint operation of an MCC has completed in all four cores (R333). -/
def State.jointDone (s : State) (m : Mcc) : Bool :=
  !(m.staging.any (fun g => g.joint.isSome)) &&
  (s.trussMccs m.core).all (fun c => c.staging.all (fun g => !g.joined))

/-- Completion is signalled to the four cores of a truss together: an MCC that waits at TSYNC goes on (R333). -/
def execTmmaComplete (core : Nat) (s : State) : Res :=
  .next ((s.trussMccs core).foldl (fun t m =>
    if s.jointDone m && decide (m.stat = .tsync) then t.updMcc m.core (fun c => { c with stat := .running }) else t) s)

/-- TSYNC waits until every TMMA that the MCC has issued has completed in all four cores (R356). -/
def execTsync (s : State) : Res :=
  s.mcc (fun x =>
    match jointStop s x .tsync with
    | some e => .error e
    | none => if s.jointDone x.m then .ok (s.mnext x none) else .error (.wait .tsync))

/-! ### Reads of the scratchpad and of memory by the engine (R328, R351 to R353) -/

/-- Runs of the block's scratchpad read by the engine, in the order of R368: bounds, presence, POISON. -/
def tileRead (s : State) (x : MCtx) (runs : List (Nat × Nat)) : Except MStop (List (List Byte)) :=
  match runs.find? (fun r => decide (r.1 + r.2 > x.l.d.scratch)) with
  | some r => .error (atAddr cBounds r.1)
  | none =>
    let absent := runs.findSome? (fun r =>
      ((List.range ((r.1 + r.2 - 1) / 128 - r.1 / 128 + 1)).map (· + r.1 / 128)).find? (fun l => (s.clearedBy x.b.key l).isSome))
    match absent with
    | some l => .error (.wait (.presence l))
    | none =>
      let marked : Nat × Nat → Bool := fun r =>
        (List.range ((r.1 + r.2 - 1) / 128 - r.1 / 128 + 1)).any (fun i => s.poisonAt (.scr x.b.key (128 * (r.1 / 128 + i))))
      match runs.find? marked with
      | some r => .error (atAddr cPoison r.1)
      | none => .ok (runs.map (fun r => s.forward x.agent (.scr x.b.key r.1) (s.bytesAt (.scr x.b.key r.1) r.2)))

/-- A run of global bytes cut where a page may end. -/
def pagePieces : Nat → Nat → Nat → List (Nat × Nat)
  | 0, _, _ => []
  | fuel + 1, va, n =>
    let k := 4096 - va % 4096
    if n ≤ k then [(va, n)] else (va, k) :: pagePieces fuel ((va + k) % 2 ^ 64) (n - k)

/-- Rank of a matrix fault among those of R368. -/
def faultRank : MStop → Nat
  | .fault c _ _ => if c = cProtect then 0 else if c = cPage then 1 else 2
  | _ => 3

/-- One run of global bytes as the MCC loads it: each byte a relaxed load, or a peer's answer. -/
def globPiece (s : State) (x : MCtx) (p : Nat × Nat) : Except MStop (List Byte × State) :=
  (mccGlob s x p.1 true false).bind (fun a =>
    match a.loc with
    | .peer _ _ => mccLoad s x a p.2 true
    | _ =>
      (List.range p.2).foldl (fun (r : Except MStop (List Byte × State)) i =>
        r.bind (fun q =>
          (mccLoad q.2 x { a with loc := a.loc.plus i, va := a.va + i } 1 (mBypass .dflt a.w)).map (fun e => (q.1 ++ e.1, e.2))))
        (.ok ([], s)))

/-- Runs of global bytes read: the first fault in the order of R368, else the bytes. -/
def globRead (s : State) (x : MCtx) (runs : List (Nat × Nat)) : Except MStop (List (List Byte) × State) :=
  let pieces := runs.map (fun r => pagePieces 3 r.1 r.2)
  let errs := (pieces.flatMap id).filterMap (fun p => match globPiece s x p with | .error e => some e | .ok _ => none)
  match errs with
  | e :: es => .error (es.foldl (fun b c => if faultRank c < faultRank b then c else b) e)
  | [] =>
    pieces.foldl (fun (r : Except MStop (List (List Byte) × State)) ps =>
      r.bind (fun q =>
        (ps.foldl (fun (r : Except MStop (List Byte × State)) p =>
          r.bind (fun w => (globPiece w.2 x p).map (fun e => (w.1 ++ e.1, e.2)))) (.ok ([], q.2))).map
          (fun e => (q.1 ++ [e.1], e.2)))) (.ok ([], s))

/-- Rows laid into a latch, row r at r * rowb (R351). -/
def intoLatch (m : Memory) (rowb : Nat) (rows : List (List Byte)) : Memory :=
  ((List.range rows.length).zip rows).foldl (fun m r => m.write (r.1 * rowb) r.2) m

/-- A latch of the MCC replaced by a change of it. -/
def State.updLatch (s : State) (x : MCtx) (t : TLatch) (f : Memory → Memory) : State :=
  s.updMcc x.core (fun m =>
    match t with
    | .ta n => { m with ta := setAt [] m.ta n.val (f (m.ta.getD n.val [])) }
    | .tb n => { m with tb := setAt [] m.tb n.val (f (m.tb.getD n.val [])) })

/-- TLD: NROW rows of ROWB bytes from off + r * pitch (R351). -/
def execTld (lit : Option W64) (t : TLatch) (off pitch : MOpnd) (rowb nrow : BitVec 13) (s : State) : Res :=
  s.mcc (fun x =>
    (tileRead s x ((List.range nrow.toNat).map (fun r => (mval32 x lit off + r * mval32 x lit pitch, rowb.toNat)))).map (fun rows =>
      (s.updLatch x t (fun m => intoLatch m rowb.toNat rows)).mnext x lit))

/-- TGATH: row r from off + idx[r] * pitch (R330, R352). -/
def execTgath (lit : Option W64) (f : Fus) (t : Fin 4) (off idx pitch : MOpnd) (rowb : BitVec 13) (s : State) : Res :=
  s.mcc (fun x =>
    let io := mval32 x lit idx
    let n := 32 / f.val
    if io % 64 ≠ 0 then .error (atAddr cMisalign io)
    else if io + 64 > x.l.d.scratch then .error (atAddr cBounds io)
    else if (s.clearedBy x.b.key (io / 128)).isSome then .error (.wait (.presence (io / 128)))
    else
      let v := s.forward x.agent (.scr x.b.key io) (s.bytesAt (.scr x.b.key io) 64)
      let runs := (List.range n).map (fun r => (mval32 x lit off + fieldLE v (2 * r) 2 * mval32 x lit pitch, rowb.toNat))
      (tileRead s x ((io, 64) :: runs)).map (fun rows =>
        (s.updLatch x (.ta t) (fun m => intoLatch m rowb.toNat (rows.drop 1))).mnext x lit))

/-- A codebook table of 32 bytes (R89). -/
def tableOf (bs : List Byte) : File 16 :=
  (List.range 16).foldl (fun f i => f.set i (BitVec.ofNat 16 (fieldLE bs (2 * i) 2))) []

/-- TCODE: 32 bytes into a codebook table, from memory, the scratchpad, or the partition's library (R353). -/
def execTcode (lit : Option W64) (t : Fin 4) (src : CodeSrc) (s : State) : Res :=
  let put : MCtx → List (List Byte) → State → State := fun x bs u =>
    (u.updMcc x.core (fun m => { m with cb := setAt [] m.cb t.val (tableOf (bs.headD [])) })).mnext x lit
  s.mcc (fun x =>
    match src with
    | .own a =>
      let o := mval32 x lit a
      if o % 32 ≠ 0 then .error (atAddr cMisalign o) else (tileRead s x [(o, 32)]).map (fun r => put x r s)
    | .global a =>
      let va := (mval x lit a).toNat
      if va % 32 ≠ 0 then .error (atAddr cMisalign va) else (globRead s x [(va, 32)]).map (fun r => put x r.1 r.2)
    | .lib n =>
      let base := s.preg x.b.key.part 0x28
      if base = 0 then .error (.fault cProtect 0 15)
      else (globRead s x [((base.toNat + 32 * ((mval x lit n).toNat % 16)) % 2 ^ 64, 32)]).map (fun r => put x r.1 r.2))

/-- TSCALE: 32 lanes of 32 scales from addr + i * pitch (R353). -/
def execTscale (lit : Option W64) (t : Fin 2) (sp : Bool) (addr pitch : MOpnd) (s : State) : Res :=
  let put : MCtx → List (List Byte) → State → State := fun x rows u =>
    (u.updMcc x.core (fun m =>
      { m with sc := setAt [] m.sc t.val (intoLatch [] 32 (rows.map (fun r => r.map (fun b => b - 0x7F)))) })).mnext x lit
  s.mcc (fun x =>
    let p := mval32 x lit pitch
    if sp then (tileRead s x ((List.range 32).map (fun i => (mval32 x lit addr + i * p, 32)))).map (fun r => put x r s)
    else (globRead s x ((List.range 32).map (fun i => (((mval x lit addr).toNat + i * p) % 2 ^ 64, 32)))).map (fun r => put x r.1 r.2))

/-! ### Clearing, adding and draining tiles (R357 to R361) -/

/-- Whether no earlier multiply to a tile is left (R367). -/
def MCtx.quiet (x : MCtx) (ts : List (Fin 2)) : Bool := !(x.m.staging.any (fun g => ts.contains g.t))

/-- The cells of a region zeroed (R357). -/
def clearRegion (t : List (Nat × Acc)) (r : Region) : List (Nat × Acc) := (cellsOf r).foldl (fun t c => adel t (32 * c.1 + c.2)) t

def execTzero (t : Fin 2) (r : Region) (s : State) : Res :=
  s.mcc (fun x =>
    if !x.quiet [t] then .error (.wait .stage)
    else .ok ((s.updMcc x.core (fun m => m.setTile t (clearRegion (m.tile t) r))).mnext x none))

/-- TACC adds each cell of a tile, or each accumulator line of the scratchpad, into the cell at the same place (R357). -/
def execTacc (lit : Option W64) (t : Fin 2) (src : TaccSrc) (r : Region) (s : State) : Res :=
  let put : MCtx → List ((Nat × Nat) × Acc) → State := fun x terms =>
    (s.updMcc x.core (fun m =>
      m.setTile t (terms.foldl (fun u e =>
        aput u (32 * e.1.1 + e.1.2) ((cellOf u e.1.1 e.1.2).plus e.2 true)) (m.tile t)))).mnext x lit
  s.mcc (fun x =>
    match src with
    | .tile ts =>
      if !x.quiet [t, ts] then .error (.wait .stage)
      else .ok (put x ((cellsOf r).map (fun c => (c, cellOf (x.m.tile ts) c.1 c.2))))
    | .lines off pitch =>
      let o := mval32 x lit off
      let p := mval32 x lit pitch
      if o % 128 ≠ 0 then .error (atAddr cMisalign o)
      else if p % 128 ≠ 0 then .error (atAddr cMisalign p)
      else if !x.quiet [t] then .error (.wait .stage)
      else
        (tileRead s x ((cellsOf r).map (fun c => (o + (c.1 - r.row0.toNat) * p + (c.2 - r.col0.toNat) * 128, 128)))).map (fun rows =>
          put x ((cellsOf r).zip (rows.map Acc.ofLine))))

/-- A run of bytes issued by the engine as stores of at most eight bytes (R358). -/
def State.tileStore (s : State) (x : MCtx) (quant : Bool) (off : Nat) (bs : List Byte) : State :=
  (List.range ((bs.length + 7) / 8)).foldl (fun t i =>
    t.issueAccess (.tile x.b.key quant) x.core (.scr x.b.key (off + 8 * i)) (off + 8 * i) ((bs.drop (8 * i)).take 8) .store) s

/-- The bytes of a cell issued by TDRAIN: an accumulator line as one write (R310), an element as a store of its size. -/
def State.cellStore (s : State) (x : MCtx) (acc : Bool) (off : Nat) (bs : List Byte) : State :=
  if acc then s.issueAccess (.tile x.b.key false) x.core (.scr x.b.key off) off bs .store else s.tileStore x false off bs

/-- The bytes of one cell under TDRAIN, with the exceptions of its rounding (R358). -/
def drainBytes (d : DrainT) (c : Acc) : List Byte × FFlags :=
  match d with
  | .acc => (c.toLine, 0)
  | .elem f u rnd => let (v, fl) := c.round f (.mode rnd) u; (natLE (f.bits / 8) v, fl)

/-- Bytes of one written element of TDRAIN. -/
def DrainT.size : DrainT → Nat
  | .acc => 128
  | .elem f _ _ => f.bits / 8

/-- Whether TDRAIN writes accumulator lines. -/
def DrainT.isAcc : DrainT → Bool
  | .acc => true
  | _ => false

/-- Exceptions added to MFLAGS (R360). -/
def State.addMflags (s : State) (x : MCtx) (fl : FFlags) : State := s.updMcc x.core (fun m => { m with mflags := m.mflags ||| fl })

/-- TDRAIN writes every cell of the region to the scratchpad (R358). -/
def execTdrain (lit : Option W64) (t : Fin 2) (off pitch : MOpnd) (d : DrainT) (clr : Bool) (r : Region) (s : State) : Res :=
  s.mcc (fun x =>
    let o := mval32 x lit off
    let p := mval32 x lit pitch
    let e := Machine.DrainT.size d
    let at_ : Nat × Nat → Nat := fun c => o + (c.1 - r.row0.toNat) * p + (c.2 - r.col0.toNat) * e
    let cells := cellsOf r
    if o % e ≠ 0 then .error (atAddr cMisalign o)
    else if p % e ≠ 0 then .error (atAddr cMisalign p)
    else
      match cells.find? (fun c => decide (at_ c + e > x.l.d.scratch)) with
      | some c => .error (atAddr cBounds (at_ c))
      | none =>
        if !x.quiet [t] then .error (.wait .stage)
        else
          let tile := x.m.tile t
          match cells.find? (fun c => !Machine.DrainT.isAcc d && (cellOf tile c.1 c.2).poison) with
          | some c => .error (.fault cPoison (BitVec.ofNat 64 (32 * c.1 + c.2)) 0)
          | none =>
            let s1 := cells.foldl (fun u c =>
              let (bs, fl) := drainBytes d (cellOf tile c.1 c.2)
              (u.cellStore x (Machine.DrainT.isAcc d) (at_ c) bs).addMflags x fl) s
            let s2 := if clr then s1.updMcc x.core (fun m => m.setTile t (clearRegion (m.tile t) r)) else s1
            .ok (s2.mnext x lit))

/-- EMAX of a TQNT format (R361). -/
def emaxOf : Fmt → Int
  | .e4m3 => 8 | .e5m2 => 15 | .e3m2 => 4 | .e2m3 => 2 | .e2m1 => 2 | .i8 => 6 | .i4 => 2 | _ => 0

/-- satmax of R361: an infinity becomes the largest value of its sign. -/
def satmax (f : Fmt) (v : Nat) : Nat :=
  match Sys2Proof.Fmt.fp f with
  | some g => if g.infEnc = some (v % 2 ^ (g.w - 1)) then v / 2 ^ (g.w - 1) * 2 ^ (g.w - 1) + g.maxEnc else v
  | none => v

/-- One row quantized: its scale byte, its packed elements, its exceptions (R361). -/
def quantRow (f : Fmt) (rnd : RMode) (cells : List Acc) : Nat × List Byte × FFlags :=
  let s := f.bits
  if cells.any (fun c => c.nan || c.pinf || c.ninf || c.ovf) then (255, zeros (32 * s / 8), 0)
  else
    let m := cells.foldl (fun m c => max m c.val.natAbs) 0
    let e : Int := if m = 0 then 0 else max (-127) (min 127 ((Nat.log2 m : Int) - 320 - emaxOf f))
    let r := cells.map (fun c => f.round (.mode rnd) (if c.val = 0 then FVal.zero else FVal.ofInt c.val (-320 - e)))
    let bits := ((List.range r.length).zip r).foldl (fun t q => t + satmax f q.2.1 * 2 ^ (s * q.1)) 0
    ((e + 127).toNat, natLE (32 * s / 8) bits, r.foldl (fun t q => t ||| q.2) 0)

/-- TQNT quantizes the rows of a tile with block scales (R361). -/
def execTqnt (lit : Option W64) (t : Fin 2) (off soff pitch : MOpnd) (fmt : Fmt) (rnd : RMode) (clr : Bool) (r : Region) (s : State) :
    Res :=
  s.mcc (fun x =>
    let o := mval32 x lit off
    let so := mval32 x lit soff
    let p := mval32 x lit pitch
    let n := 32 * fmt.bits / 8
    let rows := (List.range (r.nrow.toNat + 1)).map (fun i => (i, r.row0.toNat + i))
    match rows.findSome? (fun q =>
        if o + q.1 * p + n > x.l.d.scratch then some (o + q.1 * p)
        else if so + q.1 + 1 > x.l.d.scratch then some (so + q.1) else none) with
    | some a => .error (atAddr cBounds a)
    | none =>
      if !x.quiet [t] || decide (s.staged x.m ≥ 2) then .error (.wait .stage)
      else
        let tile := x.m.tile t
        match (cellsOf r).find? (fun c => (cellOf tile c.1 c.2).poison) with
        | some c => .error (.fault cPoison (BitVec.ofNat 64 (32 * c.1 + c.2)) 0)
        | none =>
          let s1 := rows.foldl (fun u q =>
            let (sb, bs, fl) := quantRow fmt rnd ((List.range 32).map (fun c => cellOf tile q.2 c))
            ((u.tileStore x true (o + q.1 * p) bs).tileStore x true (so + q.1) (natLE 1 sb)).addMflags x fl) s
          let s2 := if clr then s1.updMcc x.core (fun m => m.setTile t (clearRegion (m.tile t) r)) else s1
          .ok (s2.mnext x lit))

/-- TCHK waits until every multiply has drained and every drain's writes are performed, and reads the counts (R366, R367). -/
def execTchk (d : Fin 32) (clr : Bool) (s : State) : Res :=
  s.mcc (fun x =>
    if !x.m.staging.isEmpty then .error (.wait .tchk)
    else if !((s.pendOf (.tile x.b.key false)).isEmpty && (s.pendOf (.tile x.b.key true)).isEmpty) then .error (.wait .drain)
    else
      let v : W64 := x.m.drained ++ x.m.corr ++ (x.m.mflags.setWidth 16 : BitVec 16)
      let s1 := s.setX x d v
      let s2 := if clr then s1.updMcc x.core (fun m => { m with mflags := 0, corr := 0 }) else s1
      .ok (s2.mnext x none))

/-! ### The walk's progress (R335, R365) -/

/-- The 32-byte progress record. -/
def Mcc.progress (m : Mcc) : List Byte :=
  natLE 4 m.mrow.toNat ++ natLE 4 m.mcol.toNat ++ natLE 4 m.mseg.toNat ++ natLE 4 m.wip.toNat ++ natLE 8 m.mdone.toNat ++ zeros 8

/-- The progress registers and WIP from a record. -/
def Mcc.withProgress (m : Mcc) (bs : List Byte) : Mcc :=
  { m with mrow := BitVec.ofNat 32 (fieldLE bs 0 4), mcol := BitVec.ofNat 32 (fieldLE bs 4 4), mseg := BitVec.ofNat 32 (fieldLE bs 8 4),
           wip := (fieldLE bs 12 1).testBit 0, mdone := BitVec.ofNat 64 (fieldLE bs 16 8) }

/-- The progress registers at zero. -/
def Mcc.progressZero (m : Mcc) : Mcc := { m with mrow := 0, mcol := 0, mseg := 0, mdone := 0 }

def execTstate (lit : Option W64) (ld : Bool) (off : MOpnd) (s : State) : Res :=
  s.mcc (fun x =>
    let o := mval32 x lit off
    if o % 32 ≠ 0 then .error (atAddr cMisalign o)
    else if o + 32 > x.l.d.scratch then .error (atAddr cBounds o)
    else if ld then
      (tileRead s x [(o, 32)]).map (fun r => (s.updMcc x.core (fun m => m.withProgress (r.headD []))).mnext x lit)
    else
      .ok (((List.range 4).foldl (fun t i =>
        t.issueAccess x.agent x.core (.scr x.b.key (o + 8 * i)) (o + 8 * i) ((x.m.progress.drop (8 * i)).take 8) .store) s).mnext x lit))

/-! ### The walk (R362 to R364) -/

/-- The fields of a walk descriptor (R362). -/
structure WDesc where
  abase : Nat
  apitch : Nat
  aks : Nat
  ars : Nat
  bbase : Nat
  bpitch : Nat
  bks : Nat
  bcs : Nat
  ksteps : Nat
  trows : Nat
  tcols : Nat

def WDesc.of (bs : List Byte) : WDesc :=
  let w : Nat → Nat := fun i => fieldLE bs (4 * i) 4
  { abase := w 0, apitch := w 1, aks := w 2, ars := w 3, bbase := w 4, bpitch := w 5, bks := w 6, bcs := w 7, ksteps := w 8,
    trows := fieldLE bs 36 1, tcols := fieldLE bs 37 1 }

/-- Segments of a tile. -/
def WDesc.segs (w : WDesc) : Nat := (w.ksteps + 63) / 64

/-- Steps of a segment. -/
def WDesc.segLen (w : WDesc) (seg : Nat) : Nat := min 64 (w.ksteps - 64 * seg)

/-- The ranges of R362 and the limits of R363 on a descriptor. -/
def WDesc.ok (w : WDesc) (bs : List Byte) (m : MulF) : Bool :=
  zeroAt bs 38 26 && decide (1 ≤ w.ksteps) && decide (w.ksteps ≤ 65535) && decide (1 ≤ w.trows) && decide (w.trows ≤ 4) &&
  decide (1 ≤ w.tcols) && decide (w.tcols ≤ 4) && decide (m.row0.toNat + w.trows * m.side ≤ 32) &&
  decide (m.col0.toNat + w.tcols * m.side ≤ 32)

/-- Whether progress lies within a descriptor (R363). -/
def Mcc.within (m : Mcc) (w : WDesc) : Bool :=
  decide (m.mrow.toNat < w.trows) && decide (m.mcol.toNat < w.tcols) && decide (m.mseg.toNat < w.segs) &&
  decide (m.mdone.toNat / 2 ^ w.segLen m.mseg.toNat = 0)

/-- A walk's end: xd, the next instruction. -/
def Mcc.walkEnd (m : Mcc) (w : Walk) (v : W64) : Mcc :=
  { m with x := m.x.set w.d.val v, pc := w.next, walk := none, budgetDone := 0, stat := .running }

/-- A segment whose every step has drained ends, and the walk goes on to the next segment or tile, or ends (R334, R364). -/
def Mcc.segmentEnd (m : Mcc) (w : Walk) : Mcc :=
  let d := WDesc.of w.bytes
  if m.mdone.toNat + 1 ≠ 2 ^ d.segLen m.mseg.toNat then m
  else if m.mseg.toNat + 1 < d.segs then { m with mdone := 0, mseg := m.mseg + 1 }
  else if m.mcol.toNat + 1 < d.tcols then { m with mdone := 0, mseg := 0, mcol := m.mcol + 1 }
  else if m.mrow.toNat + 1 < d.trows then { m with mdone := 0, mseg := 0, mcol := 0, mrow := m.mrow + 1 }
  else ({ m.progressZero with wip := false } : Mcc).walkEnd w 0

/-- TWALK and TRESUME: the walk begins, or goes on from the progress registers, past a segment that they hold complete. A TWALK that was interrupted
goes on as well (R364). -/
def startWalk (lit : Option W64) (m : MulF) (t : Fin 2) (d : Fin 32) (desc budget : MOpnd) (again : Bool) (s : State) : Res :=
  s.mcc (fun x =>
    let resume := again || decide (x.m.budgetDone ≠ 0)
    if resume && !x.m.wip then .ok ((s.setX x d 0).mnext x lit)
    else
      let o := mval32 x lit desc
      if o % 64 ≠ 0 then .error (atAddr cMisalign o)
      else if o + 64 > x.l.d.scratch then .error (atAddr cBounds o)
      else if (s.clearedBy x.b.key (o / 128)).isSome then .error (.wait (.presence (o / 128)))
      else
        let bs := s.forward x.agent (.scr x.b.key o) (s.bytesAt (.scr x.b.key o) 64)
        let w := WDesc.of bs
        if !w.ok bs m || (resume && !x.m.within w) then .error (.fault cProtect (BitVec.ofNat 64 o) 7)
        else if s.poisonAt (.scr x.b.key o) then .error (atAddr cPoison o)
        else
          let k : Walk := { m := m, t := t, d := d, addr := BitVec.ofNat 64 o, bytes := bs, budget := mval x lit budget, pc := x.m.pc,
                            next := x.m.pc + BitVec.ofNat 64 (mSize lit) }
          .ok (s.updMcc x.core (fun c =>
            let c1 : Mcc := { (if resume then c else { c.progressZero with budgetDone := 0 }) with wip := true, walk := some k, stat := .walk }
            c1.segmentEnd k)))

def execTwalk (lit : Option W64) (m : MulF) (t : Fin 2) (d : Fin 32) (desc budget : MOpnd) (s : State) : Res :=
  startWalk lit m t d desc budget false s

def execTresume (lit : Option W64) (m : MulF) (t : Fin 2) (d : Fin 32) (desc budget : MOpnd) (s : State) : Res :=
  startWalk lit m t d desc budget true s

/-- Rows of the A and of the B operand of step `k` of the current tile, as scratchpad runs (R362). -/
def Mcc.stepRuns (m : Mcc) (w : WDesc) (f : MulF) (k : Nat) : List (Nat × Nat) × List (Nat × Nat) :=
  ((List.range f.side).map (fun i => (w.abase + m.mrow.toNat * w.ars + k * w.aks + i * w.apitch, f.kc * f.wa.bits / 8)),
   (List.range f.kc).map (fun q => (w.bbase + m.mcol.toNat * w.bcs + k * w.bks + q * w.bpitch, f.side * f.wb.bits / 8)))

/-- Whether step `k` of the current segment may be taken: not drained, not staged, within the budget, an entry free (R334, R364). -/
def State.stepFree (s : State) (m : Mcc) (w : Walk) (step : Nat) : Bool :=
  let d := WDesc.of w.bytes
  !s.stopsUnit m.key && decide (step < d.segLen m.mseg.toNat) && !m.mdone.getLsbD step && !(m.staging.any (fun g => g.step == some step)) &&
  decide (s.staged m < 2) &&
  (decide (w.budget = 0) || decide (m.budgetDone.toNat + (m.staging.filter (fun g => g.step.isSome)).length < w.budget.toNat))

/-- A walk step staged (R364), or the fault that stops the walk before it (R363), once the steps that started have drained. -/
def State.takeStep (s : State) (x : MCtx) (w : Walk) (step : Nat) : State :=
  let d := WDesc.of w.bytes
  let k := 64 * x.m.mseg.toNat + step
  let (ra, rb) := x.m.stepRuns d w.m k
  match tileRead s x (ra ++ rb) with
  | .error (.fault c a b) => if x.m.staging.isEmpty then s.mccFault x.core x.m.pc c a b else s
  | .error _ => s
  | .ok rows =>
    let pack : Nat → List (List Byte) → Memory := fun n rs => intoLatch [] n rs
    let g0 := x.stage w.m w.t 0 0 none
    let g : Staged :=
      { g0 with row0 := w.m.row0.toNat + x.m.mrow.toNat * w.m.side, col0 := w.m.col0.toNat + x.m.mcol.toNat * w.m.side,
                ka := k * w.m.kc % 1024, kb := k * w.m.kc % 1024, a := pack (w.m.kc * w.m.wa.bits / 8) (rows.take ra.length),
                b := pack (w.m.side * w.m.wb.bits / 8) (rows.drop ra.length), step := some step, pc := w.pc }
    s.updMcc x.core (fun m => { m with staging := m.staging ++ [g] })

/-- The MCC of a core with its block and launch. -/
def State.mctx (s : State) (core : Nat) : Option MCtx := ({ s with cur := .mcc core }).running

/-- WALK_STEP_START: the walker takes a step whose lines are present (R334). -/
def execWalkStepStart (core step : Nat) (s : State) : Res :=
  .next (match s.mctx core with
    | none => s
    | some x =>
      match x.m.walk with
      | some w => if x.m.stat = .walk ∧ s.stepFree x.m w step then s.takeStep x w step else s
      | none => s)

/-- A step of a walk drained: its bit is set; the segment, the tile and the walk end in their turn, or the budget is reached (R334, R364). -/
def Mcc.stepDrained (m : Mcc) (w : Walk) (step : Nat) : Mcc :=
  let cnt := m.budgetDone + 1
  let m1 := ({ m with budgetDone := cnt, mdone := m.mdone ||| (1 <<< step : W64) } : Mcc).segmentEnd w
  if m1.walk.isSome ∧ w.budget ≠ 0 ∧ cnt = w.budget then m1.walkEnd w 1 else m1

/-! ### Flashing (R338 to R340) -/

/-- The modulus of R338. -/
def flashM : Nat := 2 ^ 61 - 1

/-- The residue of n * 2^e (R338). -/
def residue (n e : Int) : Nat :=
  let k := ((e + 160) % 61).toNat
  let p := n.natAbs % flashM * 2 ^ k % flashM
  if n < 0 then (flashM - p) % flashM else p

/-- The cell errors of a fault inside a tile of `n` rows. -/
def FlashFault.cells (f : FlashFault) (n : Nat) : List (Nat × Nat × Int × Int) :=
  f.errs.filterMap (fun e =>
    match e with
    | .cell r c k x => if r < n ∧ c < n ∧ k ≠ 0 then some (r, c, k, x) else none
    | _ => none)

/-- Whether the cell errors leave some cell of the product wrong. -/
def arrayWrong (cells : List (Nat × Nat × Int × Int)) : Bool :=
  cells.any (fun c => ((cells.filter (fun e => e.1 == c.1 && e.2.1 == c.2.1)).foldl (fun t e =>
    t + termOf (decide (e.2.2.1 < 0)) e.2.2.1.natAbs e.2.2.2) (0 : Int)) ≠ 0)

/-- Failing rows and columns: a line fails where the residues of its cell errors do not cancel, or where its checksum is wrong (R339). The
exact tile itself passes every test. -/
def failing (cells : List (Nat × Nat × Int × Int)) (sumsR sumsC : List Nat) (n : Nat) : List Nat × List Nat :=
  let bad : (Nat × Nat × Int × Int → Bool) → Bool := fun p =>
    ((cells.filter p).foldl (fun t c => t + residue c.2.2.1 c.2.2.2) 0) % flashM ≠ 0
  ((List.range n).filter (fun i => sumsR.contains i || bad (fun c => c.1 == i)),
   (List.range n).filter (fun j => sumsC.contains j || bad (fun c => c.2.1 == j)))

/-- What flashing comes to (R340): the tile drains with these cell errors, corrected or not, or the error is uncorrectable with these failing
lines. -/
inductive Flash where
  | drains (cells : List (Nat × Nat × Int × Int)) (corrected : Bool)
  | bad (rows cols : List Nat) (ckOnly : Bool)

/-- The test of a staged multiply under a fault. -/
def flashOf (n : Nat) (fault : Option Sys2Proof.FlashFault) : Flash :=
  match fault with
  | none => .drains [] false
  | some f =>
    let cells := Machine.FlashFault.cells f n
    let sr := f.errs.filterMap (fun e => match e with | .rowSum i => if i < n then some i else none | _ => none)
    let sc := f.errs.filterMap (fun e => match e with | .colSum j => if j < n then some j else none | _ => none)
    let (rows, cols) := failing cells sr sc n
    let ckOnly := rows.all (fun i => !cells.any (fun c => c.1 == i)) && cols.all (fun j => !cells.any (fun c => c.2.1 == j))
    match rows, cols with
    | [], [] => .drains cells false
    | [i], [j] =>
      let cells1 := if f.sticky then cells else cells.filter (fun c => !(c.1 == i && c.2.1 == j))
      let (r1, c1) := failing cells1 sr sc n
      if !f.sticky && r1.isEmpty && c1.isEmpty then .drains cells1 true else .bad rows cols ckOnly
    | _, _ =>
      if (rows.isEmpty || cols.isEmpty) && ckOnly && !f.sticky then .drains cells true else .bad rows cols ckOnly

/-- What wrong cells that pass every test add to a tile. -/
def Mcc.addErrs (m : Mcc) (g : Staged) (cells : List (Nat × Nat × Int × Int)) : Mcc :=
  m.setTile g.t (cells.foldl (fun t c =>
    let r := g.row0 + c.1
    let k := g.col0 + c.2.1
    let a := cellOf t r k
    aput t (32 * r + k) (a.hold (a.val + termOf (decide (c.2.2.1 < 0)) c.2.2.1.natAbs c.2.2.2) a.count true)) (m.tile g.t))

/-- A staged multiply passed: it drains into its tile, and what waits for staging goes on (R329, R366). -/
def State.drainHead (s : State) (core : Nat) (g : Staged) (cells : List (Nat × Nat × Int × Int)) : State :=
  (s.count core 0x05 (g.m.side * g.m.side * g.m.kc)).updMcc core (fun m =>
    let m1 : Mcc := (m.addStaged g).addErrs g cells
    let m2 : Mcc := { m1 with staging := m.staging.drop 1, drained := m.drained + 1, mulcnt := m.mulcnt + 1,
                              stat := if m.stat = .stage ∨ m.stat = .tchk then .running else m.stat }
    match g.step, m.walk with
    | some k, some w => m2.stepDrained w k
    | _, _ => m2)

/-! ### Silent data errors (R341, R429, R430) -/

/-- %sdcsyn (R341). -/
def sdcSyn (rows cols : List Nat) (ckOnly : Bool) : W32 :=
  BitVec.ofNat 32 (rows.length + cols.length * 2 ^ 6 + rows.headD 0 * 2 ^ 12 + cols.headD 0 * 2 ^ 17 + (if ckOnly then 2 ^ 22 else 0))

/-- %sdcunit (R341). -/
def sdcUnit (core : Nat) (unit : BitVec 4) : W32 :=
  BitVec.ofNat 32 (core % 32 + core / 32 * 2 ^ 5 + dieOf core * 2 ^ 10 + unit.toNat * 2 ^ 12)

/-- %sdctile (R341): the count of the stopped multiply, or the walk step and segment. The count is that of the multiplies drained before, walk steps and
each half of a TMMA among them, plus 1: R341 does not say what it counts (DESIGN CHOICE, log 37). -/
def sdcTile (m : Mcc) (g : Staged) : W32 :=
  let top := match g.step with
    | some k => k * 2 ^ 16 + m.mseg.toNat % 1024 * 2 ^ 22
    | none => (m.mulcnt + 1).toNat * 2 ^ 16
  BitVec.ofNat 32 (g.t.val + g.row0 * 2 + g.col0 * 2 ^ 6 + g.m.f.code * 2 ^ 11 + top)

/-- The thread that takes an SDC: the lowest that has not exited (R341). -/
def Block.sdcThread (b : Block) : Option Thread :=
  b.alive.foldl (fun r t => match r with | none => some t | some u => if t.tl < u.tl then some t else r) none

/-- Whether an undelivered SDC is due at a course's next instruction: the thread that takes it is in the course and does not run its own
handler (R341, R405). -/
def State.sdcDue (s : State) (x : Ctx) : Bool :=
  (s.mcc? x.core).any (fun m => decide (m.key = x.b.key) && decide (m.stat = .sdc false)) && !x.c.masked .sdc &&
  (x.b.sdcThread).any (fun t => x.c.members.any (fun p => p.2 == t.tl))

/-- The SDC taken by a course in the lane of its thread, precisely at its next instruction. -/
def State.takeSdc (s : State) (x : Ctx) : State :=
  let lane := ((x.b.sdcThread).bind (fun t => (x.c.members.find? (fun p => p.2 == t.tl)).map (·.1))).getD 0
  (s.takeTrap x (TrapInfo.simple cSdc (1 <<< lane : BitVec 32) x.pc) x.pc).updMcc x.core (fun m => { m with stat := .sdc true })

/-- A thread in a bin, unfiled or waiting, taken out alone as a course for an SDC, with the wait or the bin to which it returns (R341). -/
def State.sdcAlone (s : State) (core : Nat) (b : Block) (t : Thread) : State :=
  if s.courseCount core ≥ 128 ∨ s.frameCount core ≥ 32 then s
  else
    let out : Bin → Bin := fun x =>
      if x.core == core && x.slot == b.slot then { x with threads := x.threads.filter (fun p => p.1 != t.tl) } else x
    let s1 : State := { s with bins := (s.bins.map out).filter (fun x => !x.threads.isEmpty) }
    let id := s1.nextId
    let s2 := s1.newCourse core b.slot [t.tl]
    match ({ s2 with cur := .course core id }).issuing with
    | none => s
    | some x =>
      let wait := match t.stat with | .waiting w => some w | _ => none
      (s2.takeSdc x).updCourse core id (fun c =>
        { c with frame := c.frame.map (fun f => { f with wait := wait, bin := wait.isNone }) })

/-- An undelivered SDC delivered to a thread outside every course, or contained where every thread has exited. -/
def State.sdcDeliver (s : State) (core : Nat) : State :=
  match s.mctx core with
  | none => s
  | some x =>
    if x.m.stat ≠ .sdc false then s
    else
      match x.b.sdcThread with
      | none => s.contain x.b.key.part x.b.key.lnum (BitVec.ofNat 16 cSdc)
      | some t => (match t.stat with | .course _ => s | _ => s.sdcAlone core x.b t)

/-- An uncorrectable flashing error (R340): nothing drains, the registers of R341 hold the report, the bank records it (R427), and it goes to
the vote (R430), to the block's `sdc` handler, or to containment (R429), either of which adds 4 to the core's score (R431). `arrayBad` says whether
the product is wrong in a cell, rather than a checksum alone. -/
def State.flashBad (s : State) (x : MCtx) (g : Staged) (rows cols : List Nat) (ckOnly : Bool) (unit : BitVec 4) (arrayBad : Bool) : State :=
  let syn := sdcSyn rows cols ckOnly
  let s1 := s.updBlock x.b.key (fun b => { b with sdcsyn := syn, sdcunit := sdcUnit x.core unit, sdctile := sdcTile x.m g })
  let s2 := s1.bankError (s.unitCore x.core) true 3 0 (syn.setWidth 64) false
  if x.l.d.trelvy then
    let v : VoteSt := { core := x.core, since := s.ns, op := g, arrayBad := arrayBad }
    ({ s2 with votes := s2.votes ++ [v] }).updMcc x.core (fun m => { m with stat := .vote })
  else if x.l.handler .sdc ≠ 0 ∧ (x.b.sdcThread).isSome then
    ((s2.updMcc x.core (fun m => { m with stat := .sdc false })).sdcDeliver x.core).scoreCore x.core 4 (BitVec.ofNat 16 cSdc)
  else (s2.contain x.b.key.part x.b.key.lnum (BitVec.ofNat 16 cSdc)).scoreCore x.core 4 (BitVec.ofNat 16 cSdc)

/-- STAGED_MULTIPLY_DRAIN: the oldest staged multiply that has started is tested and drains, or stops the MCC (R329, R340, R341). While the MCC is
stopped on an error, one not yet delivered is delivered. -/
def execStagedMultiplyDrain (core : Nat) (fault : Option Sys2Proof.FlashFault) (s : State) : Res :=
  .next (match s.mctx core with
    | none => s
    | some x =>
      match x.m.stat, x.m.staging with
      | .sdc _, _ => s.sdcDeliver core
      | .vote, _ => s
      | _, g :: _ =>
        if !g.started then s
        else
          (match flashOf g.m.side fault with
           | .drains cells corr =>
             let s1 := s.drainHead core g cells
             if corr then ((s1.updMcc core (fun m => { m with corr := m.corr + 1 })).coreCorrected core 3 0 0).count core 0x0C 1 else s1
           | .bad rows cols ckOnly =>
             s.flashBad x g rows cols ckOnly (fault.elim 0 (·.unit)) (fault.any (fun f => arrayWrong (Machine.FlashFault.cells f g.m.side))))
      | _, [] => s)

end Sys2Proof.Machine
end

