-- ==== Sys2Proof/Machine/Return.lean ====
section
/-!
DEFINITION. RFT, the return from a handler (R402 to R408), with the return of a thread that left a bin or a wait to take an SDC (R341).
-/

namespace Sys2Proof.Machine

/-- An MCC that an error had stopped goes on where it stood. -/
def Mcc.goesOn (m : Mcc) : Mcc := { m with stat := if m.walk.isSome then .walk else if m.fin then .ended else .running }

/-- The MCC that stopped on a delivered error re-executes its multiply: from the staged operands, or after a restore by issuing the stopped
instruction again (R341, R394). -/
def State.sdcReturn (s : State) (core : Nat) : State :=
  s.updMcc core (fun m =>
    match m.stat with
    | .sdc true => m.goesOn
    | _ => m)

/-- The frame of a course carried out: latches and chain restored, its entries re-injected, each lane at its RESUMEPC (R404). Where its chain goes on,
a quadrant that no chain holds takes it (R46). -/
def State.resumeFrame (s : State) (k : BKey) (core id : Nat) (f : Frame) : State :=
  let s1 := s.updCourse core id (fun c =>
    { c with latches := f.latches, chain := f.chain, frame := none, reinj := f.entries, resume := f.resume, stat := .ready, quad := none })
  State.reinject k core id (f.entries.length + 1) s1

/-- A thread that comes back to its wait, after a handler or a restore, tests its condition again: the count of its copies (R286), its queue (R238),
its XBAR (R233), its recovery point (R442). A stamp is tested by an event of its own (R20). -/
def State.retestWait (s : State) (k : BKey) (tl : Nat) : State :=
  match s.thread? k tl with
  | some t =>
    (match t.stat with
     | .waiting w =>
       (match w.kind with
        | .cpyq => s.cpyqRetest k tl
        | .qpop => s.serveQueue k.part w.a.toNat 1
        | .xbar => s.xbRetest k tl
        | .rpopen => s.retestPoint k tl
        | .rpseal => s.retestPoint k tl
        | _ => s)
     | _ => s)
  | none => s

/-- A thread that was taken out alone returns to its bin or its wait; a barrier phase that completed meanwhile lets it go on (R341, R407), and so does
any other condition that came true. -/
def State.returnAlone (s : State) (k : BKey) (core id tl : Nat) (f : Frame) : State :=
  let s1 := (s.delCourse core id).updThread k tl (fun t => { t with pc := f.resume.headD t.pc })
  match f.wait with
  | some w =>
    let s2 := s1.park k tl w
    if (w.kind == .bar || w.kind == .gbar) && w.x == 1 then s2.departAcq k tl else s2.retestWait k tl
  | none => s1.fileThread k tl

/-- RFT returns from the handler of the course's frame. -/
def execRft (h : Hd) (s : State) : Res :=
  s.onCourse (fun x =>
    match x.c.frame with
    | none => s.illegal x (firstWordOf (.rft h)) 0xB
    | some f =>
      let s1 := if f.hclass = .sdc then s.sdcReturn x.core else s
      if f.bin || f.wait.isSome then
        (match x.c.members with
         | (_, tl) :: _ => s1.returnAlone x.b.key x.core x.id tl f
         | [] => s1)
      else s1.resumeFrame x.b.key x.core x.id f)

end Sys2Proof.Machine
end

