-- ==== Sys2Proof/Machine/Images.lean ====
section
/-!
DEFINITION. Save images (R390 to R395, R403, R263): the bytes of a saved block, the register compressor, and reading an image back with
the checks of restore and of the debugger (R478).
-/

namespace Sys2Proof.Machine

/-! ### The register compressor (R392) -/

/-- The inverse of an odd number modulo 2^32. -/
def oddInv (o : Nat) : Nat := (List.range 5).foldl (fun x _ => x * (2 + 2 ^ 32 - o * x % 2 ^ 32) % 2 ^ 32) o

/-- The affine values (base + t * step) mod 2^32 that meet every lane's value, if there are any. -/
def affineOf (vals : List (Nat × Nat)) : Option (Nat × Nat) :=
  match vals with
  | (t0, v0) :: (t1, v1) :: _ =>
    let d := t1 - t0
    let k := ((List.range 5).find? (fun k => d.testBit k)).getD 0
    let diff := (v1 + 2 ^ 32 - v0) % 2 ^ 32
    if diff % 2 ^ k ≠ 0 then none
    else
      let s0 := diff / 2 ^ k * oddInv (d / 2 ^ k) % 2 ^ (32 - k)
      ((List.range (2 ^ k)).map (fun j => s0 + j * 2 ^ (32 - k))).findSome? (fun st =>
        let base := (v0 + 2 ^ 32 - t0 * st % 2 ^ 32) % 2 ^ 32
        if vals.all (fun p => (base + p.1 * st) % 2 ^ 32 == p.2) then some (base, st) else none)
  | _ => none

/-- Tag and payload of one register over the live lanes: the first tag of the table that reproduces every value. -/
def packReg (vals : List (Nat × Nat)) : Nat × List Byte :=
  let v0 := (vals.head?.map (·.2)).getD 0
  let at_ : Nat → Nat := fun t => ((vals.find? (fun p => p.1 == t)).map (·.2)).getD 0
  if vals.all (fun p => p.2 == v0) then (1, natLE 4 v0)
  else
    match affineOf vals with
    | some (b, st) => (2, natLE 4 b ++ natLE 4 st)
    | none =>
      if vals.all (fun p => (BitVec.ofInt 32 (sintOf 8 p.2)).toNat == p.2) then (3, lanes32.flatMap (fun t => natLE 1 (at_ t)))
      else (0, lanes32.flatMap (fun t => natLE 4 (at_ t)))

/-- Payload bytes of a tag. -/
def payloadSize (tag : Nat) : Nat := if tag = 1 then 4 else if tag = 2 then 8 else if tag = 3 then 32 else 128

/-- The value of lane `t` that a payload at `o` gives. -/
def unpackReg (rd : Nat → Nat → Nat) (tag o t : Nat) : Nat :=
  if tag = 1 then rd o 4
  else if tag = 2 then (rd o 4 + t * rd (o + 4) 4) % 2 ^ 32
  else if tag = 3 then (BitVec.ofInt 32 (sintOf 8 (rd (o + t) 1))).toNat
  else rd (o + 4 * t) 4

/-! ### Threads (R391, R403, R263) -/

/-- WSTATE of a wait. -/
def wstateOf : WKind → Nat
  | .bar => 1 | .gbar => 2 | .wait => 3 | .xbar => 4 | .qpop => 5 | .rpopen => 7 | .rpseal => 8 | .cpyq => 9

/-- Whether the wait of a thread that left it for an SDC is over. -/
def Wait.over (w : Wait) : Bool := (w.kind == .bar || w.kind == .gbar) && w.x == 1

/-- The address behind a QPUSH, which no lane's PC holds while its course waits. -/
def State.afterPush (s : State) (l : Launch) (pc : W64) : W64 :=
  pc + BitVec.ofNat 64 (match s.fetchAt l pc.toNat with | .ok bs => bs.length | .error _ => 12)

/-- A course's members as saved: WSTATE with the barrier index above it, and the PC. A lane of a waiting QPUSH that has pushed is past it
(R240). -/
def saveState (s : State) (l : Launch) (c : Option Course) (lane : Nat) (t : Thread) : Nat × W64 :=
  match t.stat with
  | .waiting w => (wstateOf w.kind + 16 * w.bar.val, t.pc)
  | _ =>
    match c with
    | none => (0, t.pc)
    | some c =>
      match c.stat with
      | .fault _ _ => (11, t.pc)
      | .copyEntries _ => (10, t.pc)
      | .qpush _ =>
        if maskHas c.part lane then
          (0, s.afterPush l t.pc)
        else (6, t.pc)
      | _ =>
        match c.frame.bind (·.wait) with
        | some w => (if w.over then 0 else wstateOf w.kind + 16 * w.bar.val, t.pc)
        | none => (0, t.pc)

/-- HCLASS of a frame. -/
def HClass.code : HClass → Nat
  | .none => 0 | .fp => 1 | .sdc => 2 | .trap => 3 | .sover => 4

/-- The class of an HCLASS code. -/
def hclassOf (n : Nat) : HClass := if n = 1 then .fp else if n = 2 then .sdc else if n = 3 then .trap else if n = 4 then .sover else .none

/-- One lane's frame (R403). -/
def Frame.bytes (f : Frame) (t : Thread) (lane : Nat) : List Byte :=
  let latch : Nat → Latch := fun n => f.latches.getD n Latch.empty
  let latv := (List.range 4).foldl (fun a n =>
    a + (if (latch n).valid then 2 ^ n + (if maskHas (latch n).poison lane then 2 ^ (4 + n) else 0) else 0)) 0
  let resume := match f.wait with
    | some w => if w.over then f.resume.getD lane 0 + BitVec.ofNat 64 (sizeOf w.i) else f.resume.getD lane 0
    | none => f.resume.getD lane 0
  let entry : RqEntry → List Byte := fun e =>
    let r := e.lanes.getD lane LaneEnt.none
    let st := r.member.toNat + 2 * r.resv.toNat + 4 * r.isDone.toNat + 8 * r.cancel.toNat + 16 * r.opcap.toNat + 128 * r.effd.toNat
    natLE 8 e.pc.toNat ++ (List.range 5).flatMap (fun i => natLE 4 ((e.words.getD i 0)).toNat) ++ natLE 1 st ++ zeros 3
      ++ (List.range 3).flatMap (fun i => natLE 8 (r.ops.getD i 0).toNat) ++ natLE 16 r.res.toNat
  natLE 8 resume.toNat ++ natLE 1 f.entries.length ++ natLE 1 (f.hclass.code + 8 * f.inh.toNat) ++ natLE 1 latv ++ zeros 1
    ++ natLE 4 t.trappch.toNat ++ (List.range 4).flatMap (fun n => natLE 8 ((latch n).get lane).toNat)
    ++ f.entries.flatMap entry

/-- The 128 bytes of a live lane. -/
def Thread.fixed (t : Thread) (ws : Nat) (pc : W64) (tfl : Bool) : List Byte :=
  natLE 8 pc.toNat ++ natLE 1 ws ++ natLE 1 t.preds.toNat ++ natLE 1 (t.ports.filter (·.bound)).length ++ natLE 1 tfl.toNat
    ++ natLE 4 t.tl ++ natLE 4 t.fpflags.toNat ++ natLE 4 t.fptrap.toNat ++ natLE 8 t.rngctr.toNat
    ++ (List.range 16).flatMap (fun n => natLE 4 (t.port (Fin.ofNat 16 n)).send.toNat)
    ++ natLE 4 t.trapcause.toNat ++ natLE 4 t.trapmask.toNat ++ natLE 4 t.trappc.toNat
    ++ (List.range 4).flatMap (fun n => natLE 4 (t.trapaux.getD n 0).toNat) ++ natLE 4 t.trappch.toNat

/-- The record of a bound port (R263). -/
def Port.record (p : Port) (n : Nat) : List Byte :=
  natLE 8 p.desc.toNat ++ natLE 8 p.off.toNat ++ natLE 8 p.ioff.toNat ++ natLE 8 p.rpos.toNat ++ natLE 8 p.wpos.toNat
    ++ natLE 8 p.leno.toNat ++ natLE 8 (p.fillo.getD 0).toNat ++ natLE 1 n ++ natLE 1 p.fillo.isSome.toNat ++ zeros 6

/-- Register `n` of a thread in the order of the tag array. -/
def Thread.regAt (t : Thread) (regs n : Nat) : Nat := if n < regs then (t.v.get n).toNat else (t.o.get (n - regs)).toNat

/-- The mark of a register in the order of the tag array (R428). -/
def markAt (regs n : Nat) : Nat := if n < regs then n else 240 + (n - regs)

/-- The course of a thread, and its lane there. -/
def State.courseOf (s : State) (b : Block) (t : Thread) : Option (Course × Nat) :=
  match t.stat with
  | .course id => (s.course? b.core id).bind (fun c => (c.members.find? (fun p => p.2 == t.tl)).map (fun p => (c, p.1)))
  | _ => none

/-- A group record (R391). -/
def groupBytes (s : State) (l : Launch) (b : Block) (g : Nat) : List Byte :=
  let live := lanes32.filterMap (fun t => (b.thread? (32 * g + t)).bind (fun th => if th.stat = .exited then none else some (t, th)))
  let mask := live.foldl (fun m p => m + 2 ^ p.1) 0
  let n := l.d.regs + 8
  let packs := (List.range n).map (fun r => packReg (live.map (fun p => (p.1, p.2.regAt l.d.regs r))))
  let pois := (List.range n).filterMap (fun r =>
    let m := (live.filter (fun p => p.2.poison.contains (markAt l.d.regs r))).foldl (fun m p => m + 2 ^ p.1) 0
    if m = 0 then none else some (r, m))
  let fixed := live.flatMap (fun p =>
    let c := s.courseOf b p.2
    let (ws, pc) := saveState s l (c.map (·.1)) ((c.map (·.2)).getD 0) p.2
    p.2.fixed ws pc (c.any (fun c => c.1.frame.isSome)))
  let tags := (List.range ((n + 3) / 4)).flatMap (fun i =>
    natLE 1 ((List.range 4).foldl (fun a j => a + ((packs[4 * i + j]?).elim 0 (·.1)) * 4 ^ j) 0))
  let tail := live.flatMap (fun p =>
    (List.range l.d.accs).flatMap (fun k => (p.2.acc k).record)
      ++ (List.range 16).flatMap (fun q =>
          let r := p.2.port (Fin.ofNat 16 q)
          if r.bound then r.record q else [])
      ++ (match s.courseOf b p.2 with
          | some (c, lane) => (match c.frame with | some f => f.bytes p.2 lane | none => [])
          | none => []))
  natLE 4 g ++ natLE 4 mask ++ natLE 2 n ++ natLE 2 pois.length ++ zeros 4
    ++ fixed ++ padTo 8 tags ++ padTo 8 (packs.flatMap (·.2)) ++ pois.flatMap (fun p => natLE 2 p.1 ++ zeros 2 ++ natLE 4 p.2)
    ++ padTo 8 tail

/-! ### The block, scratchpad and matrix sections (R393, R394) -/

/-- A bit per line, line i in bit i mod 8 of byte floor(i/8). -/
def lineBits (n : Nat) (p : Nat → Bool) : List Byte :=
  (List.range ((n + 7) / 8)).flatMap (fun i =>
    natLE 1 ((List.range 8).foldl (fun a j => a + (if 8 * i + j < n && p (8 * i + j) then 2 ^ j else 0)) 0))

/-- A barrier as saved: arrivals, expected count, COUNT, phase open. -/
def Barrier.bytes (x : Barrier) : List Byte := natLE 2 x.arr ++ natLE 2 x.exp ++ natLE 2 x.cnt ++ natLE 1 x.isOpen.toNat ++ zeros 1

/-- The block section. -/
def blockBytes (l : Launch) (b : Block) : List Byte :=
  let lines := l.d.scratch / 128
  let gb := (aget? l.gbars (b.key.bl / l.d.unitSize)).getD Barrier.idle
  (List.range 32).flatMap (fun i => natLE 4 (b.b.get i).toNat)
    ++ (List.range 16).flatMap (fun i => (b.barrier i).bytes)
    ++ (if l.d.gangw = 0 then zeros 16 else natLE 4 gb.arr ++ natLE 4 gb.exp ++ natLE 1 gb.isOpen.toNat ++ zeros 7)
    ++ lineBits lines (fun i => (aget? b.absent i).isNone) ++ lineBits lines (fun i => b.poison.contains i)

/-- The multiplies that a save keeps beside the image (log 23): those that no walk has taken, whose steps TRESUME takes again (R336). -/
def Mcc.kept (m : Mcc) : List Staged := m.staging.filter (fun g => g.step.isNone)

/-- MSTATE of an MCC; a program that ended behind a multiply saved as not yet issued has not ended in its image (R333). -/
def Mcc.mstate (m : Mcc) : Nat :=
  match m.stat with
  | .ended => m.kept.isEmpty.toNat
  | .xwait _ _ => 2
  | .fault _ => 4
  | .sdc d => 8 + 16 * d.toNat
  | _ => 0

/-- MPC: a multiply still in the staging buffer, stopped on an error or waiting to join, is saved as not yet issued (R333, R394). -/
def Mcc.mpc (m : Mcc) : W64 :=
  match m.stat with
  | .xwait _ _ => m.pc
  | .fault _ => m.pc
  | _ => (m.staging.head?.map (·.pc)).getD m.pc

/-- The fault frame of part 2; a stopped flashing error stands there with the block's report (R394). -/
def Mcc.frameBytes (m : Mcc) (b : Block) : List Byte :=
  let f : MFault := match m.stat with
    | .sdc _ => { pc := m.mpc, cause := cSdc, aux0 := b.sdcunit ++ b.sdcsyn, aux1 := b.sdctile.setWidth 64 }
    | .fault _ => m.fault
    | _ => { pc := 0, cause := 0, aux0 := 0, aux1 := 0 }
  natLE 8 f.pc.toNat ++ natLE 2 f.cause ++ zeros 6 ++ natLE 8 f.aux0.toNat ++ natLE 8 f.aux1.toNat ++ zeros 32

/-- The matrix section. -/
def matrixBytes (b : Block) (m : Mcc) : List Byte :=
  natLE 8 m.mpc.toNat ++ zeros 1 ++ natLE 1 m.mflags.toNat ++ natLE 1 m.mstate ++ zeros 1 ++ natLE 2 m.corr.toNat
    ++ natLE 2 m.mulcnt.toNat ++ natLE 8 m.budgetDone.toNat ++ natLE 4 m.drained.toNat ++ natLE 4 m.tmmacnt.toNat ++ m.progress
    ++ m.frameBytes b
    ++ (List.range 32).flatMap (fun i => natLE 8 (m.x.get i).toNat)
    ++ (List.range 4).flatMap (fun n => (m.ta.getD n []).read 0 4096) ++ (List.range 4).flatMap (fun n => (m.tb.getD n []).read 0 4096)
    ++ (List.range 4).flatMap (fun n => (List.range 16).flatMap (fun i => natLE 2 ((m.cb.getD n []).get i).toNat))
    ++ (List.range 2).flatMap (fun n => ((m.sc.getD n []).read 0 1024).map (fun x => x + 0x7F))
    ++ padTo 64 ((List.range 2).flatMap (fun n => (List.range 1024).flatMap (fun c =>
        ((aget? (m.tc.getD n []) c).getD Acc.zero).record)))

/-- The whole image of a block (R390). -/
def imageBytes (s : State) (l : Launch) (b : Block) (m : Option Mcc) : List Byte :=
  let groups := padTo 64 ((List.range ((l.d.threads + 31) / 32)).flatMap (fun g => groupBytes s l b g))
  let blk := padTo 64 (blockBytes l b)
  let scr := padTo 64 (b.scratch.read 0 l.d.scratch)
  let mat := (m.map (fun m => matrixBytes b m)).getD []
  let blkOff := 64 + groups.length
  let scrOff := blkOff + blk.length
  let matOff := scrOff + scr.length
  natLE 2 0x4B53 ++ natLE 2 1 ++ natLE 2 l.d.regs ++ natLE 1 l.d.accs ++ natLE 1 (m.isSome.toNat + (if l.d.gangw = 0 then 0 else 2))
    ++ natLE 4 l.lnum ++ natLE 4 b.alive.length ++ natLE 8 b.key.bl ++ natLE 8 64 ++ natLE 8 blkOff ++ natLE 8 scrOff
    ++ natLE 8 (if m.isSome then matOff else 0) ++ natLE 8 (matOff + mat.length)
    ++ groups ++ blk ++ scr ++ mat

/-! ### Reading an image -/

/-- One lane's frame as read. -/
structure LFrame where
  resume : W64
  hclass : HClass
  inh : Bool
  latv : Nat
  latches : List W64
  entries : List (W64 × List W32 × LaneEnt)

/-- One thread as read: the thread, its WSTATE byte, its frame; whether an accumulator record is malformed, a port number is out of range or
twice there, or a zero-marked byte of a record is not zero, and the NRQ of its frame. -/
structure TImage where
  lane : Nat
  t : Thread
  ws : Nat
  frame : Option LFrame
  badTrim : Bool
  badPort : Bool
  dirty : Bool
  nrq : Nat

/-- The variable parts of one lane as read, with the offset after them. -/
structure TTail where
  ks : List Acc
  ports : List (Nat × Port)
  frame : Option LFrame
  next : Nat
  badTrim : Bool
  dirty : Bool
  nrq : Nat

/-- One lane's frame at `o`, with the bytes it takes. -/
def readFrame (rd : Nat → Nat → Nat) (o : Nat) : LFrame × Nat :=
  let n := rd (o + 8) 1
  let h := rd (o + 9) 1
  let entry : Nat → W64 × List W32 × LaneEnt := fun i =>
    let p := o + 48 + 72 * i
    let st := rd (p + 28) 1
    (BitVec.ofNat 64 (rd p 8), (List.range 5).map (fun w => BitVec.ofNat 32 (rd (p + 8 + 4 * w) 4)),
     { member := st.testBit 0, resv := st.testBit 1, isDone := st.testBit 2, cancel := st.testBit 3, effd := st.testBit 7,
       opcap := BitVec.ofNat 3 (st / 16), ops := (List.range 3).map (fun k => BitVec.ofNat 64 (rd (p + 32 + 8 * k) 8)),
       res := BitVec.ofNat 128 (rd (p + 56) 16), push := none })
  ({ resume := BitVec.ofNat 64 (rd o 8), hclass := hclassOf (h % 8), inh := h.testBit 3, latv := rd (o + 10) 1,
     latches := (List.range 4).map (fun k => BitVec.ofNat 64 (rd (o + 16 + 8 * k) 8)),
     entries := (List.range (min n 8)).map entry }, 48 + 72 * n)

/-- A stream record at `o`. -/
def readPort (rd : Nat → Nat → Nat) (o : Nat) (send : W32) : Nat × Port :=
  let q : Nat → W64 := fun i => BitVec.ofNat 64 (rd (o + 8 * i) 8)
  (rd (o + 56) 1, { bound := true, desc := q 0, off := q 1, ioff := q 2, rpos := q 3, wpos := q 4, leno := q 5,
                    fillo := if (rd (o + 57) 1).testBit 0 then some (q 6) else none, send := send, pre := [] })

/-- The variable parts of one lane at `o`: accumulators, ports and frame. An accumulator record whose header gives more segments than 10, which R108
does not describe, is read with 10 and a COUNT of 0 (DESIGN CHOICE, log 23). -/
def readTail (rd : Nat → Nat → Nat) (accs nport : Nat) (tfl : Bool) (send : Nat → W32) (o : Nat) : TTail :=
  let segs : Nat → Nat := fun p => min (rd p 1 / 16) 10
  let rec_ : Nat → List Byte := fun p => natLE (8 + 8 * segs p) (rd p (8 + 8 * segs p))
  let k0 : TTail := { ks := [], ports := [], frame := none, next := o, badTrim := false, dirty := false, nrq := 0 }
  let k1 := (List.range accs).foldl (fun (r : TTail) _ =>
    { r with ks := r.ks ++ [Acc.ofRecord (rec_ r.next)], next := r.next + recordSize (natLE 2 (rd r.next 2)),
             badTrim := r.badTrim || trimBad (rec_ r.next) || decide (rd r.next 1 / 16 > 10),
             dirty := r.dirty || rd (r.next + 2 + 8 * segs r.next) 2 != 0 }) k0
  let k2 := (List.range nport).foldl (fun (r : TTail) _ =>
    { r with ports := r.ports ++ [readPort rd r.next (send (rd (r.next + 56) 1 % 16))], next := r.next + 64,
             dirty := r.dirty || rd (r.next + 58) 6 != 0 || decide (rd (r.next + 57) 1 ≥ 2) }) k1
  if tfl then
    let (f, n) := readFrame rd k2.next
    { k2 with frame := some f, next := k2.next + n, nrq := rd (k2.next + 8) 1,
              dirty := k2.dirty || rd (k2.next + 11) 1 != 0 || decide (rd (k2.next + 9) 1 ≥ 16) ||
                (List.range (rd (k2.next + 8) 1)).any (fun i => rd (k2.next + 48 + 72 * i + 29) 3 != 0) }
  else k2

/-- A group record at `o`: its threads, and the offset after it. Reserved bits of the special registers read as zero (R9, R99, R247). -/
def readGroup (rd : Nat → Nat → Nat) (regs accs roPoint : Nat) (o : Nat) : List TImage × Nat :=
  let g := rd o 4
  let mask := rd (o + 4) 4
  let live := lanes32.filter (fun t => mask.testBit t)
  let n := regs + 8
  let npois := rd (o + 10) 2
  let fixed := o + 16
  let tags := fixed + 128 * live.length
  let tagOf : Nat → Nat := fun r => rd (tags + r / 4) 1 / 4 ^ (r % 4) % 4
  let pay := tags + ((n + 3) / 4 + 7) / 8 * 8
  let offs := (List.range n).foldl (fun (r : List Nat × Nat) i => (r.1 ++ [r.2], r.2 + payloadSize (tagOf i))) ([], 0)
  let pois := pay + (offs.2 + 7) / 8 * 8
  let tail := pois + 8 * npois
  let marks : Nat → List Nat := fun t => (List.range npois).filterMap (fun i =>
    if (rd (pois + 8 * i + 4) 4).testBit t then some (markAt regs (rd (pois + 8 * i) 2)) else none)
  let file : Nat → Nat → Nat → File 32 := fun t lo k =>
    (List.range k).foldl (fun f i => f.set i (BitVec.ofNat 32 (unpackReg rd (tagOf (lo + i)) (pay + offs.1.getD (lo + i) 0) t))) []
  let (ts, fin) := (((List.range live.length).zip live)).foldl (fun (r : List TImage × Nat) p =>
    let a := fixed + 128 * p.1
    let w : Nat → W32 := fun i => BitVec.ofNat 32 (rd (a + i) 4)
    let send : Nat → W32 := fun q => w (32 + 4 * q) &&& 3
    let k := readTail rd accs (rd (a + 10) 1) ((rd (a + 11) 1).testBit 0) send r.2
    let t0 : Thread :=
      { tl := 32 * g + p.2, pc := BitVec.ofNat 64 (rd a 8), v := file p.2 0 regs, o := file p.2 regs 8, k := k.ks,
        preds := BitVec.ofNat 7 (rd (a + 9) 1), fpflags := w 16 &&& 0x1F, fptrap := w 20 &&& 0x1F, rngctr := BitVec.ofNat 64 (rd (a + 24) 8),
        ports := (List.range 16).map (fun q => { Port.unbound with send := send q }), trapcause := w 96 &&& 0x7FFFF, trapmask := w 100,
        trappc := w 104, trappch := w 124, trapaux := (List.range 4).map (fun i => w (108 + 4 * i)), poison := marks p.2,
        roPoint := roPoint, stat := .unfiled }
    let t := k.ports.foldl (fun (t : Thread) q => t.setPort (Fin.ofNat 16 q.1) q.2) t0
    (r.1 ++ [{ lane := p.2, t := t, ws := rd (a + 8) 1, frame := k.frame, badTrim := k.badTrim,
               badPort := k.ports.any (fun q => decide (q.1 ≥ 16)) || !decide (k.ports.map (·.1)).Nodup, dirty := k.dirty, nrq := k.nrq }],
     k.next)) ([], tail)
  (ts, (fin + 7) / 8 * 8)

/-- What an image holds of its threads: every thread, and the offset after the groups. -/
def readThreads (rd : Nat → Nat → Nat) (d : LDesc) (roPoint : Nat) : List TImage × Nat :=
  (List.range ((d.threads + 31) / 32)).foldl (fun (r : List TImage × Nat) _ =>
    let (ts, o) := readGroup rd d.regs d.accs roPoint r.2
    (r.1 ++ ts, o)) ([], rd 24 8)

/-- A barrier as read. -/
def readBarrier (rd : Nat → Nat → Nat) (o : Nat) : Barrier :=
  { arr := rd o 2, exp := rd (o + 2) 2, cnt := rd (o + 4) 2, isOpen := (rd (o + 6) 1).testBit 0 }

/-- What part 7 holds: the cells, the offset after them, whether a record is malformed, and whether a zero-marked byte of one is not zero. -/
structure CellImage where
  tc : List (List (Nat × Acc))
  next : Nat
  bad : Bool
  dirty : Bool

/-- One cell's record read (R312). -/
def CellImage.cell (rd : Nat → Nat → Nat) (q : List (Nat × Acc) × CellImage) (c : Nat) : List (Nat × Acc) × CellImage :=
  let o := q.2.next
  let n := min (rd o 1 / 16) 10
  let bs := natLE (8 + 8 * n) (rd o (8 + 8 * n))
  let a := Acc.ofRecord bs
  (if a = Acc.zero then q.1 else q.1 ++ [(c, a)],
   { q.2 with next := o + 8 + 8 * n, bad := q.2.bad || trimBad bs || decide (rd o 1 / 16 > 10), dirty := q.2.dirty || rd (o + 2 + 8 * n) 2 != 0 })

/-- The cells of part 7 at `o`. -/
def readCells (rd : Nat → Nat → Nat) (o : Nat) : CellImage :=
  (List.range 2).foldl (fun (r : CellImage) _ =>
    let q := (List.range 1024).foldl (CellImage.cell rd) ([], r)
    { q.2 with tc := r.tc ++ [q.1] }) { tc := [], next := o, bad := false, dirty := false }

/-- Where part 7 of the matrix section at `o` stands. -/
def cellsAt (o : Nat) : Nat := o + 384 + 32768 + 128 + 2048

/-- The MCC that a matrix section at `o` gives (R394). Where the image still has the MPC that was saved, the multiplies kept beside it stand in the
staging buffer again and the program goes on where it had run ahead to (log 23). -/
def readMcc (rd : Nat → Nat → Nat) (v : Saved) (core : Nat) (key : BKey) (o : Nat) : Mcc :=
  let bytes : Nat → Nat → List Byte := fun p n => natLE n (rd p n)
  let st := rd (o + 10) 1
  let lat : Nat → Memory := fun n => Memory.write [] 0 (bytes (o + 384 + 4096 * n) 4096)
  let cb := o + 384 + 32768
  let sc := cb + 128
  let mpc : W64 := BitVec.ofNat 64 (rd o 8)
  let ahead := !v.staged.isEmpty && (!(rd 7 1).testBit 2 || decide (mpc = v.runPc) || v.staged.head?.any (fun g => decide (g.pc = mpc)))
  let done := st.testBit 0 || (ahead && v.ended)
  let stat : MStat := if st.testBit 3 then .sdc (st.testBit 4)
    else if st.testBit 2 then (match v.mfault with | some q => .fault q | none => .running)
    else if done then .ended else .running
  let m0 := (Mcc.fresh core key (if ahead then v.runPc else mpc)).withProgress (bytes (o + 32) 32)
  { m0 with
    staging := if ahead then v.staged else [], fin := done,
    x := (List.range 32).foldl (fun f i => f.set i (BitVec.ofNat 64 (rd (o + 128 + 8 * i) 8))) [],
    ta := (List.range 4).map lat, tb := (List.range 4).map (fun n => lat (4 + n)),
    cb := (List.range 4).map (fun n => tableOf (bytes (cb + 32 * n) 32)),
    sc := (List.range 2).map (fun n => Memory.write [] 0 ((bytes (sc + 1024 * n) 1024).map (fun x => x - 0x7F))),
    tc := (readCells rd (cellsAt o)).tc,
    budgetDone := BitVec.ofNat 64 (rd (o + 16) 8),
    fault := if stat = .fault (v.mfault.getD none) then
        { pc := BitVec.ofNat 64 (rd (o + 64) 8), cause := rd (o + 72) 2, aux0 := BitVec.ofNat 64 (rd (o + 80) 8),
          aux1 := BitVec.ofNat 64 (rd (o + 88) 8) }
      else m0.fault,
    mflags := BitVec.ofNat 5 (rd (o + 9) 1), corr := BitVec.ofNat 16 (rd (o + 12) 2), mulcnt := BitVec.ofNat 16 (rd (o + 14) 2),
    drained := BitVec.ofNat 32 (rd (o + 24) 4), tmmacnt := BitVec.ofNat 32 (rd (o + 28) 4),
    stat := stat }

/-! ### Checks (R394, R395, R478) -/

/-- Whether an address may hold text: canonical, a multiple of 4, in a page with execute permission (log 23). -/
def State.isText (s : State) (p : Nat) (a : Nat) : Bool :=
  a % 4 == 0 && canonical a && (match s.walk p (vaBits a) with | .leaf e _ _ _ => pteX e | _ => false)

/-- Whether an address may hold an instruction of the launch's tile program: text, where no opcode stands that only a thread executes (R52, R71;
log 23). -/
def State.isTileText (s : State) (l : Launch) (a : Nat) : Bool :=
  s.isText l.part a &&
  (match s.fetchWord l a with
   | .ok w => let opc := fld (leNat w) 9 2; opc == 1 || opcMcc opc || !opcAssigned opc
   | .error _ => false)

/-- The end of the matrix section at `o`. -/
def matrixEnd (rd : Nat → Nat → Nat) (o : Nat) : Nat :=
  let fin := (readCells rd (cellsAt o)).next
  (fin + 63) / 64 * 64

/-- Whether a zero-marked byte or bit of a matrix section is not zero (R394). -/
def matrixDirty (rd : Nat → Nat → Nat) (o : Nat) : Bool :=
  let cells := readCells rd (cellsAt o)
  let fin := cells.next
  rd (o + 8) 1 != 0 || rd (o + 11) 1 != 0 || decide (rd (o + 9) 1 ≥ 32) || decide (rd (o + 10) 1 ≥ 32) || rd (o + 56) 8 != 0
    || decide (rd (o + 44) 4 ≥ 2) || rd (o + 74) 6 != 0 || rd (o + 96) 32 != 0 || cells.dirty
    || (fin % 64 != 0 && rd fin (64 - fin % 64) != 0)

/-- The checks of R394 on a matrix section; the MPC of a program that has ended names no instruction to issue and is not tested (log 23). -/
def matrixBad (s : State) (l : Launch) (rd : Nat → Nat → Nat) (o len : Nat) : Bool :=
  matrixDirty rd o || rd o 8 % 4 != 0 || (!(rd (o + 10) 1).testBit 0 && !s.isTileText l (rd o 8))
    || (readCells rd (cellsAt o)).bad || decide (matrixEnd rd o > len)

/-- The sections of an image as offset and length: header, groups, block, scratchpad, matrix. -/
def sections (rd : Nat → Nat → Nat) (d : LDesc) (fin : Nat) (hasMcc : Bool) : List (Nat × Nat) :=
  [(0, 64), (rd 24 8, fin - rd 24 8), (rd 32 8, 272 + 2 * ((d.scratch / 128 + 7) / 8)), (rd 40 8, d.scratch)] ++
  (if hasMcc then [(rd 48 8, matrixEnd rd (rd 48 8) - rd 48 8)] else [])

/-- Whether two sections share a byte. -/
def sectionsMeet (a b : Nat × Nat) : Bool := decide (a.1 < b.1 + b.2) && decide (b.1 < a.1 + a.2)

/-- Whether some section shares a byte with a later one of the list. -/
def sectionsClash : List (Nat × Nat) → Bool
  | [] => false
  | a :: rest => rest.any (sectionsMeet a) || sectionsClash rest

/-- The checks of R395 on an image of a block of a launch. -/
def imageBad (s : State) (l : Launch) (bl : Nat) (hasMcc : Bool) (rd : Nat → Nat → Nat) : Bool :=
  let len := rd 56 8
  let (ts, fin) := readThreads rd l.d 0
  rd 0 2 != 0x4B53 || rd 2 2 != 1 || rd 4 2 != l.d.regs || rd 6 1 != l.d.accs || rd 8 4 != l.lnum || rd 16 8 != bl
    || rd 12 4 != ts.length || rd 24 8 % 64 != 0 || rd 32 8 % 64 != 0 || rd 40 8 % 64 != 0 || rd 48 8 % 64 != 0
    || (sections rd l.d fin hasMcc).any (fun e => decide (e.1 + e.2 > len)) || sectionsClash (sections rd l.d fin hasMcc)
    || (hasMcc != (rd 7 1).testBit 0) || (hasMcc != decide (rd 48 8 ≠ 0))
    || ts.any (fun t => decide (t.t.tl ≥ l.d.threads)) || (hasMcc && matrixBad s l rd (rd 48 8) len)

/-- The group headers of an image, by the offsets at which they stand. -/
def groupHeads (rd : Nat → Nat → Nat) (d : LDesc) : List Nat :=
  ((List.range ((d.threads + 31) / 32)).foldl (fun (r : List Nat × Nat) _ =>
    (r.1 ++ [r.2], (readGroup rd d.regs d.accs 0 r.2).2)) ([], rd 24 8)).1

/-- The first check of R478 that an edited image fails, 0 where it passes; `live` are the threads that were saved. -/
def debugCheck (s : State) (l : Launch) (v : Saved) (rd : Nat → Nat → Nat) : Nat :=
  let heads := groupHeads rd l.d
  let mat := decide (l.d.tileent ≠ 0)
  let maskOfG : Nat → Nat := fun g => (v.live.filter (fun t => t / 32 == g)).foldl (fun m t => m + 2 ^ (t % 32)) 0
  let (ts, _) := readThreads rd l.d 0
  let npois : Nat → Nat := fun o => rd (o + 10) 2
  let poisAt : Nat → Nat := fun o =>
    let live := (lanes32.filter (fun t => (rd (o + 4) 4).testBit t)).length
    let n := l.d.regs + 8
    let tags := o + 16 + 128 * live
    let pay := (List.range n).foldl (fun a i => a + payloadSize (rd (tags + i / 4) 1 / 4 ^ (i % 4) % 4)) 0
    tags + ((n + 3) / 4 + 7) / 8 * 8 + (pay + 7) / 8 * 8
  let badPois := heads.any (fun o => (List.range (npois o)).any (fun i =>
    let a := poisAt o + 8 * i
    decide (rd a 2 ≥ l.d.regs + 8) || rd (a + 2) 2 != 0 || decide (rd (a + 4) 4 &&& rd (o + 4) 4 ≠ rd (a + 4) 4)))
  if rd 16 8 ≠ v.bl ∨ rd 8 4 ≠ l.lnum ∨ rd 12 4 ≠ v.live.length
      ∨ ((List.range heads.length).zip heads).any (fun p => rd p.2 4 != p.1 || rd (p.2 + 4) 4 != maskOfG p.1) then 1
  else if ts.any (fun t => !s.isText l.part t.t.pc.toNat || t.frame.any (fun f =>
      !s.isText l.part f.resume.toNat || f.entries.any (fun e => !s.isText l.part e.1.toNat))) then 2
  else if ts.any (fun t => decide (t.ws % 16 > 11)) then 3
  else if ts.any (·.badTrim) || (mat && (readCells rd (cellsAt (rd 48 8))).bad) then 4
  else if ts.any (fun t => t.badPort || t.t.ports.any (fun p => p.bound && decide (p.desc.toNat % 64 ≠ 0))) then 5
  else if ts.any (fun t => decide (t.nrq > 8)) || ts.any (fun t => t.frame.any (fun f =>
      f.entries.any (fun e => e.2.2.effd && !e.2.2.resv) || (List.range 4).any (fun i => f.latv.testBit (4 + i) && !f.latv.testBit i)))
      || badPois then 6
  else if heads.any (fun o => rd (o + 12) 4 != 0) || ts.any (·.dirty)
      || (List.range 16).any (fun i => rd (rd 32 8 + 128 + 8 * i + 7) 1 != 0) || rd (rd 32 8 + 128 + 128 + 9) 7 != 0
      || (mat && matrixDirty rd (rd 48 8)) then 7
  else 0

/-! ### What a restored block needs -/

/-- A reader of an image's fields. -/
def State.imageReader (s : State) (img : Nat) : Nat → Nat → Nat := fun off n => s.imageField img off n

/-- What a restored thread waits for: its saved wait, where its WSTATE still says so. -/
def Saved.waitOf (v : Saved) (t : TImage) : Option Wait :=
  (v.waits.find? (fun p => p.1 == t.t.tl)).bind (fun p =>
    if wstateOf p.2.kind = t.ws % 16 then some { p.2 with bar := Fin.ofNat 16 (t.ws / 16) } else none)

/-- A thread's part in a QPUSH wait, where its image still says so. -/
def Saved.pushOf (v : Saved) (t : TImage) : Option QWait :=
  (v.qwaits.find? (fun w => w.tl == t.t.tl)).filter (fun w => decide (t.t.pc = w.next) && decide (t.ws % 16 = if w.pushed then 0 else 6))

/-- The members of a crew that waits in QPUSH as it was saved; empty for another. -/
def Saved.pushCrew (v : Saved) (ts : List TImage) (lanes : List (Option Nat)) : List QWait :=
  let ms := lanes.filterMap (fun o => o)
  let ws := ms.filterMap (fun tl => (ts.find? (fun t => t.t.tl == tl)).bind v.pushOf)
  if ws.length = ms.length then ws else []

/-- The groups in which a block's threads issue again: the courses it had, less the threads that wait; one whose threads no longer share a PC, which
only an edit brings about, issues again in as many courses as it has PCs (R395). -/
def crewsOf (v : Saved) (ts : List TImage) : List (List (Option Nat)) :=
  let pcOf : Nat → Option W64 := fun tl =>
    (ts.find? (fun t => t.t.tl == tl && ((v.waitOf t).isNone || t.frame.isSome))).map (fun t => t.t.pc)
  v.crews.flatMap (fun lanes => if !(v.pushCrew ts lanes).isEmpty then [lanes] else
    ((lanes.filterMap (fun o => o.bind pcOf)).eraseDups).map (fun pc =>
      lanes.map (fun o => o.bind (fun tl => if pcOf tl = some pc then some tl else none))))

/-- The course records that a block takes where it starts: those of its image, or one for every 32 threads. -/
def State.coursesFor (s : State) (l : Launch) (bl : Nat) : Nat :=
  match l.saved.find? (fun v => v.bl == bl) with
  | none => (l.d.threads + 31) / 32
  | some v =>
    let rd := s.imageReader v.image
    if (rd 7 1).testBit 2 then (crewsOf v (readThreads rd l.d 0).1).length else v.crews.length

end Sys2Proof.Machine
end

