-- ==== Sys2Proof/Machine/Submit.lean ====
section
/-!
DEFINITION. Submitting a launch (R373 to R375): the descriptor and its tables, the causes of refusal in code order, the launch number,
and the two ways to submit, LAUNCH_DOORBELL and DLAUNCH (R188).
-/

namespace Sys2Proof.Machine

/-! ### What firmware reads and writes in a partition's address space -/

/-- The merges that reads of a virtual range trigger (R140). -/
def State.virtMerge (s : State) (p va n : Nat) : State :=
  (List.range (n / 128 + 2)).foldl (fun t i =>
    let a := min (va + 128 * i) (va + n - 1)
    match t.resolve p a true false with
    | .ok l _ => t.mergeFor l 1
    | _ => t) s

/-- Bytes of the address space as firmware reads them; none where a page faults. -/
def State.readBytes (s : State) (p va n : Nat) : Option (List Byte) × State :=
  let s1 := s.virtMerge p va n
  (s1.readVirt p va n, s1)

/-- Whether a range that firmware reads meets a line marked POISON (R434). -/
def State.virtPoison (s : State) (p va n : Nat) : Bool :=
  decide (n > 0) && (List.range (n / 128 + 2)).any (fun i =>
    match s.resolve p (min (va + 128 * i) (va + n - 1)) true false with
    | .ok l _ => s.poisonAt l
    | _ => false)

/-- A relaxed store at sys scope by firmware; one that faults is lost (log 20), one that lacks a shadow frame waits (R433). -/
def State.storeVirt (s : State) (p va : Nat) (bs : List Byte) : State :=
  match s.resolve p va false true with
  | .ok (.peer m a) _ => s.request m a (.write bs) none
  | .ok l w => (s.noteLeaf p w).storeFw l bs
  | _ => s

/-! ### The descriptor (R374) -/

/-- The fields of 256 descriptor bytes. -/
def LDesc.of (bs : List Byte) : LDesc :=
  let f := fieldLE bs
  let q : Nat → W64 := fun lo => BitVec.ofNat 64 (f lo 8)
  { entry := q 0, tileent := q 8, seed := q 16, regs := f 42 2, accs := f 44 1, producer := f 45 1, gangw := f 46 1,
    gangh := f 47 1, cls := f 48 1, fptrap := BitVec.ofNat 8 (f 49 1), prio := f 50 1 % 8, determ := (f 51 1).testBit 0,
    trelvy := (f 51 1).testBit 1, scratch := f 52 4, age := f 56 2, bx := f 58 2, by_ := f 60 2, bz := f 62 2, gx := f 64 4,
    gy := f 68 4, gz := f 72 4, rx0 := f 76 1, ry0 := f 77 1, rw := f 78 1, rh := f 79 1, qmask := q 80,
    deps := (List.range 4).map (fun d => (q (88 + 16 * d), q (96 + 16 * d))), doneAddr := q 152, doneVal := q 160,
    handlers := (List.range 4).map (fun i => q (168 + 8 * i)), mincores := f 200 2, wdog := f 204 4 }

/-- A zero-marked byte or bit of a descriptor that is not zero. -/
def descDirty (bs : List Byte) : Bool :=
  !zeroAt bs 224 32 || !zeroAt bs 202 2 || decide (fieldLE bs 51 1 ≥ 4) || decide (fieldLE bs 50 1 ≥ 8)

/-- The rectangle of a launch: RECT, or the whole partition (R374). -/
def State.launchRect (s : State) (p : Nat) (d : LDesc) : Nat × Nat × Nat × Nat :=
  if d.rw = 0 then s.partRect p else (d.rx0, d.ry0, d.rw, d.rh)

/-- Width and height of a placement unit (R381). -/
def LDesc.unitW (d : LDesc) : Nat := if d.gangw = 0 then 1 else d.gangw
def LDesc.unitH (d : LDesc) : Nat := if d.gangh = 0 then 1 else d.gangh

/-- The positions of a unit in a rectangle, row-major (R381): origins at multiples of the unit's shape. -/
def positions (r : Nat × Nat × Nat × Nat) (w h : Nat) : List (Nat × Nat) :=
  let (x0, y0, rw, rh) := r
  (List.range (rh + 1)).flatMap (fun j => (List.range (rw + 1)).filterMap (fun i =>
    let x := x0 + i
    let y := y0 + j
    if x % w = 0 ∧ y % h = 0 ∧ x + w ≤ x0 + rw ∧ y + h ≤ y0 + rh then some (x, y) else none))

/-- The least class of a gang's shape (R69). -/
def minClass (w h : Nat) : Nat :=
  if w = 1 ∧ h = 1 then 0 else if w ≤ 2 ∧ h ≤ 2 then 1 else if w ≤ 16 ∧ h ≤ 6 then 2 else if w ≤ 16 ∧ h = 12 then 3 else 4

/-- What a block takes of a core (R172): thread slots, register bytes, accumulator slots, scratchpad bytes. -/
def LDesc.takes (d : LDesc) : Nat × Nat × Nat × Nat :=
  let t := 32 * ((d.threads + 31) / 32)
  (t, t * (8 * ((d.regs + 7) / 8)) * 4, t * d.accs, d.scratch)

/-- Whether such takings fit one core. -/
def coreFits (t : Nat × Nat × Nat × Nat) : Bool :=
  decide (t.1 ≤ 2048) && decide (t.2.1 ≤ 524288) && decide (t.2.2.1 ≤ 2048) && decide (t.2.2.2 ≤ 393216)

/-! ### The tables -/

/-- A table as read: the bytes, or a fault. -/
abbrev Table := Option (List Byte)

/-- The range entries of a table (R81). -/
def rangesOf (bs : List Byte) (n : Nat) : List Range :=
  (List.range n).map (fun i =>
    { base := BitVec.ofNat 64 (fieldLE bs (24 * i) 8), len := BitVec.ofNat 64 (fieldLE bs (24 * i + 8) 8),
      kind := fieldLE bs (24 * i + 16) 1 })

/-- The role records of a table (R82): role and position. -/
def rolesOf (bs : List Byte) (n : Nat) : List (Nat × Nat × Nat) :=
  (List.range n).map (fun i => (fieldLE bs (8 * i) 2, fieldLE bs (8 * i + 2) 1, fieldLE bs (8 * i + 3) 1))

/-- Whether two range entries share a byte; an entry of LENGTH 0, which R81 does not rule out, overlaps one that its BASE lies strictly inside
(DESIGN CHOICE, log 19). -/
def Range.meets (a b : Range) : Bool :=
  decide (a.base.toNat < b.base.toNat + b.len.toNat) && decide (b.base.toNat < a.base.toNat + a.len.toNat)

/-- Range entries that overlap, or have no kind. -/
def rangesBad : List Range → Bool
  | [] => false
  | r :: rs => (r.kind != 1 && r.kind != 2) || rs.any (fun q => r.meets q) || rangesBad rs

/-- Role records that are not the roles 0 to n-1 in order, at distinct positions inside the gang (R70, R82). -/
def rolesBad (rs : List (Nat × Nat × Nat)) (w h : Nat) : Bool :=
  decide (rs.map (·.1) ≠ List.range rs.length) || rs.any (fun r => decide (r.2.1 ≥ w) || decide (r.2.2 ≥ h))
    || !decide (rs.map (·.2)).Nodup

/-! ### Refusal (R375) -/

/-- What submission knows: the descriptor's bytes and its tables. -/
structure Submission where
  addr : Nat
  bs : List Byte
  nrange : Nat
  consts : Table
  ranges : Table
  roles : Table

/-- 0x0101: a figure of R68 out of range. -/
def figuresBad (d : LDesc) : Bool :=
  let dim : Nat → Bool := fun n => decide (n = 0) || decide (n > 1024)
  decide (d.regs = 0) || decide (d.regs > 240) || decide (d.accs > 8) || dim d.bx || dim d.by_ || dim d.bz
    || decide (d.threads > 1024) || (decide (d.producer ≠ 255) && decide (32 * d.producer + 31 ≥ d.threads))
    || decide (d.age = 0) || decide (d.age > 4095) || decide (d.scratch % 128 ≠ 0) || decide (d.scratch > 393216)

/-- 0x0102: an illegal gang or class (R68, R69). -/
def gangBad (d : LDesc) : Bool :=
  decide (d.cls > 4) || (decide (d.gangw = 0) != decide (d.gangh = 0)) ||
  (decide (d.gangw ≠ 0) && (!([1, 2, 4, 8, 16, 32].contains d.gangw) || !([1, 2, 3, 6, 12, 24].contains d.gangh)
    || decide (d.cls < minClass d.gangw d.gangh)))

/-- 0x0106: a misaligned address. -/
def alignBad (t : Submission) (d : LDesc) : Bool :=
  let q := fieldLE t.bs
  decide (t.addr % 256 ≠ 0) || decide (d.entry.toNat % 4 ≠ 0) || decide (d.tileent.toNat % 4 ≠ 0)
    || d.handlers.any (fun a => decide (a.toNat % 4 ≠ 0)) || decide (q 24 8 % 64 ≠ 0) || decide (q 32 8 % 8 ≠ 0)
    || decide (q 216 8 % 8 ≠ 0) || d.deps.any (fun e => decide (e.1.toNat % 8 ≠ 0)) || decide (d.doneAddr.toNat % 8 ≠ 0)

/-- Launches in a queue. -/
def State.queueLen (s : State) (p q : Nat) : Nat := (((s.part? p).bind (fun x => aget? x.queues q)).getD []).length

/-- The first cause of refusal that holds, in ascending code order; 0x0001 accepts. A descriptor with more than 256 range entries
is refused under 0x0108 (log 19). -/
def State.refusalOf (s : State) (p queue : Nat) (t : Submission) : Nat :=
  let d := LDesc.of t.bs
  let r := s.launchRect p d
  let (px, py, pw, ph) := s.partRect p
  let rs := (t.ranges.map (fun b => rangesOf b t.nrange)).getD []
  let dirtyTable := (t.ranges.map (fun b => (List.range t.nrange).any (fun i => !zeroAt b (24 * i + 17) 7))).getD false
  let badRoles := !zeroAt t.bs 216 8 && (t.roles.map (fun b => rolesBad (rolesOf b (d.gangw * d.gangh)) d.gangw d.gangh)).getD false
  if descDirty t.bs || dirtyTable then 0x0100
  else if figuresBad d then 0x0101
  else if gangBad d then 0x0102
  else if d.blocks = 0 ∨ d.blocks ≥ 2 ^ 48 ∨ d.blocks % d.unitSize ≠ 0 then 0x0103
  else if !coreFits d.takes then 0x0104
  else if r.1 < px ∨ r.2.1 < py ∨ r.1 + r.2.2.1 > px + pw ∨ r.2.1 + r.2.2.2 > py + ph
      ∨ (positions r d.unitW d.unitH).isEmpty then 0x0105
  else if alignBad t d then 0x0106
  else if d.doneVal.getLsbD 63 then 0x0107
  else if t.nrange > 256 ∨ rangesBad rs then 0x0108
  else if badRoles then 0x0109
  else if d.mincores > r.2.2.1 * r.2.2.2 then 0x010A
  else if t.consts.isNone || t.ranges.isNone || t.roles.isNone then 0x010B
  else if s.queueLen p queue ≥ 1024 then 0x010C
  else 0x0001

/-- The next launch number: 0 is skipped (R373). -/
def nextLnum (n : Nat) : Nat := if (n + 1) % 2 ^ 32 = 0 then 1 else (n + 1) % 2 ^ 32

/-- A launch as accepted. -/
def launchOf (p queue n : Nat) (t : Submission) (badRead : Bool) : Launch :=
  let d := LDesc.of t.bs
  let cs := t.consts.getD []
  { part := p, lnum := n, queue := queue, addr := t.addr, d := d,
    consts := (List.range 64).foldl (fun f i => f.set i (BitVec.ofNat 32 (fieldLE cs (4 * i) 4))) [],
    ranges := rangesOf (t.ranges.getD []) t.nrange,
    roles := if d.gangw = 0 then [(0, 0)]
             else if zeroAt t.bs 216 8 then (List.range (d.gangw * d.gangh)).map (fun r => (r % d.gangw, r / d.gangw))
             else (rolesOf (t.roles.getD []) (d.gangw * d.gangh)).map (·.2),
    stat := .queued, status := 1, next := 0, saved := [], placed := [], finished := [], retired := [], scanPos := 0,
    curveLost := 0, text := { dev := [], host := [], und := [] }, wdog12 := 0, contained := 0, halted := false, point := none, sealer := none,
    gbars := [], switchedOut := false, delivered := [], pushed := [], seqNext := 0, images := [], badRead := badRead }

/-- LNUM and STATUS written back into the descriptor. -/
def State.writeStatus (s : State) (p addr n code : Nat) : State :=
  (s.storeVirt p (addr + 208) (natLE 4 n)).storeVirt p (addr + 212) (natLE 4 code)

/-- Submission of a descriptor to a queue of a partition (R373): the launch number, or 0 where it is refused. A launch for which the descriptor or a
table was read in a POISON line is accepted all the same, and the supervisor ends it (R434; log 20). -/
def State.submit (s : State) (p queue addr : Nat) : Nat × State :=
  let (raw, s1) := s.readBytes p addr 256
  match raw with
  | none => (0, s1.writeStatus p addr 0 (if addr % 256 ≠ 0 then 0x0106 else 0x010B))
  | some bs =>
    let d := LDesc.of bs
    let table : State → Nat → Nat → Table × State := fun t a n => if n = 0 then (some [], t) else t.readBytes p a n
    let n := fieldLE bs 40 2
    let (cs, s2) := table s1 (fieldLE bs 24 8) (if zeroAt bs 24 8 then 0 else 256)
    let (rs, s3) := table s2 (fieldLE bs 32 8) (24 * min n 256)
    let (os, s4) := table s3 (fieldLE bs 216 8) (if zeroAt bs 216 8 then 0 else 8 * (d.gangw * d.gangh))
    let t : Submission := { addr := addr, bs := bs, nrange := n, consts := cs, ranges := rs, roles := os }
    let code := s4.refusalOf p queue t
    if code ≠ 1 then (0, s4.writeStatus p addr 0 code)
    else
      let num := ((s4.part? p).map (·.nextLnum)).getD 1
      let bad := s.virtPoison p addr 256 || (!zeroAt bs 24 8 && s.virtPoison p (fieldLE bs 24 8) 256) ||
        s.virtPoison p (fieldLE bs 32 8) (24 * min n 256) || (!zeroAt bs 216 8 && s.virtPoison p (fieldLE bs 216 8) (8 * (d.gangw * d.gangh)))
      let s5 : State := { s4 with launches := s4.launches ++ [launchOf p queue num t bad] }
      let s6 := s5.updPart p (fun x =>
        { x with nextLnum := nextLnum num, queues := aput x.queues queue (((aget? x.queues queue).getD []) ++ [num]) })
      (num, s6.writeStatus p addr num 1)

/-- A doorbell write (R488): ignored before READY; for a disabled partition, a gutter record. -/
def execLaunchDoorbell (agent : AgentId) (part queue addr : Nat) (s : State) : Res :=
  if !s.power || !(s.reg 0x400).getLsbD 0 || decide (part ≥ 8) || decide (queue ≥ 64) || decide (agent = 0) || decide (agent > 4) then
    .next s
  else if !s.partOn part then
    .next (s.gutter { GRec.plate 0x0205 with part := part, aux2 := BitVec.ofNat 32 (0x8000 + 0x200 * part + 8 * queue) })
  else .next (s.submit part queue (addr % 2 ^ 64)).2

/-- DLAUNCH (R188): a release of each lane's stores, then a submission per active lane, ascending; DSTX gets the number. -/
def execDlaunch (h : Hd) (d a : Opnd) (queue : BitVec 6) (s : State) : Res :=
  let sh := shapeBr (.dlaunch h d a queue) h (hdSize h) [(a, .w64)] (some (d, 32))
  s.lanesWith sh (fun _ st _ _ v =>
      if v.headD 0 % 256 ≠ 0 then .error (targetStop (v.headD 0)) else .ok (LaneRes.value (v.headD 0), st))
    (fun x outs t =>
      let (t1, ok) := s.releaseAll (outs.map (fun o => x.agent o.tl)) .dev
      if !ok then t1.hold x (.drain .dev)
      else
        let (t2, _) := t.releaseAll (outs.map (fun o => x.agent o.tl)) .dev
        let r := outs.foldl (fun (r : State × List LaneOut) o =>
          let (n, u) := r.1.submit x.b.key.part queue.toNat o.res.val
          (u, r.2 ++ [{ o with res := LaneRes.value n }])) (t2, [])
        commitLanes sh x r.2 r.1)

end Sys2Proof.Machine
end

