-- ==== Sys2Proof/Machine/Launch.lean ====
section
/-!
DEFINITION. Dispatch (R376 to R384), snapshots of pages (R433), retirement (R166, R378), pre-emption and restore (R387 to R395), and the
watchdog (R396).
-/

namespace Sys2Proof.Machine

/-! ### Room (R172, R380) -/

/-- What the blocks on a core take of it. -/
def State.takings (s : State) (core : Nat) : Nat × Nat × Nat × Nat :=
  (s.blocks.filter (fun b => b.core == core)).foldl (fun t b =>
    match s.launch? b.key.part b.key.lnum with
    | some l => let k := l.d.takes; (t.1 + k.1, t.2.1 + k.2.1, t.2.2.1 + k.2.2.1, t.2.2.2 + k.2.2.2)
    | none => t) (0, 0, 0, 0)

/-- Whether a core serves at all: not quarantined, not degraded, its die not out of service (R431, R435, R446). -/
def State.inService (s : State) (core : Nat) : Bool :=
  !s.quarantine.contains core && !s.repairs.contains core && !s.degraded.contains core && !s.diesOut.contains (dieOf core)

/-- Whether a core has room for one more block of a launch that takes `n` course records. R163 bounds the live courses of a core by 128 and R172
lists no course records among what a block takes: a block whose courses would pass 128 finds no room (DESIGN CHOICE, log 49). -/
def State.hasRoom (s : State) (l : Launch) (core n : Nat) : Bool :=
  let t := s.takings core
  let k := l.d.takes
  s.inService core && decide ((s.blocks.filter (fun b => b.core == core)).length < 8) &&
  coreFits (t.1 + k.1, t.2.1 + k.2.1, t.2.2.1 + k.2.2.1, t.2.2.2 + k.2.2.2) &&
  (decide (l.d.tileent = 0) || (s.mcc? core).isNone) &&
  decide (s.courseCount core + n ≤ 128)

/-- The lowest free slot of a core. -/
def State.freeSlot (s : State) (core : Nat) : Nat :=
  ((List.range 8).find? (fun i => (s.blockAt? core i).isNone)).getD 8

/-! ### Positions (R381 to R383) -/

/-- The cores of a unit at an origin, by role (R169). -/
def Launch.coresAt (l : Launch) (o : Nat × Nat) : List Nat := l.roles.map (fun d => 32 * (o.2 + d.2) + o.1 + d.1)

/-- One round of `d2xy`. -/
def d2xyStep (s : Nat) (r : Nat × Nat × Nat) : Nat × Nat × Nat :=
  let (x, y, t) := r
  let rx := t / 2 % 2
  let ry := (t % 2 + rx) % 2
  let (x, y) := if ry = 0 then (if rx = 1 then (s - 1 - y, s - 1 - x) else (y, x)) else (x, y)
  (x + s * rx, y + s * ry, t / 4)

/-- The position of curve index `d` on a grid of side 2^k (R383). -/
def d2xy (k d : Nat) : Nat × Nat :=
  let r := (List.range k).foldl (fun r i => d2xyStep (2 ^ i) r) (0, 0, d)
  (r.1, r.2.1)

/-- The least k with 2^k at least `n`. -/
def log2Up (n : Nat) : Nat := ((List.range 7).find? (fun k => decide (n ≤ 2 ^ k))).getD 7

/-- The positions of a launch in row-major order, on cores of its partition alone (R371, R381). -/
def State.rowPositions (s : State) (l : Launch) : List (Nat × Nat) :=
  (positions (s.launchRect l.part l.d) l.d.unitW l.d.unitH).filter (fun o =>
    s.coreIn l.part (32 * o.2 + o.1) && s.coreIn l.part (32 * (o.2 + l.d.unitH - 1) + o.1 + l.d.unitW - 1))

/-- The positions of a launch along the curve, without those that hold a degraded core (R383, R446). -/
def State.curve (s : State) (l : Launch) : List (Nat × Nat) :=
  let ps := s.rowPositions l
  let w := l.d.unitW
  let h := l.d.unitH
  let x0 := (ps.head?.map (·.1)).getD 0
  let y0 := (ps.head?.map (·.2)).getD 0
  let pw := ps.foldl (fun m p => max m ((p.1 - x0) / w + 1)) 0
  let ph := ps.foldl (fun m p => max m ((p.2 - y0) / h + 1)) 0
  let k := log2Up (max pw ph)
  ((List.range (4 ^ k)).filterMap (fun d =>
    let (px, py) := d2xy k d
    if px < pw ∧ py < ph then some (x0 + px * w, y0 + py * h) else none)).filter (fun o =>
      !((l.coresAt o).any (fun c => s.degraded.contains c)))

/-- Positions that a launch under determ still has (R388). -/
def State.curveLen (s : State) (l : Launch) : Nat := (s.curve l).length - l.curveLost

/-- Units of a launch. -/
def LDesc.units (d : LDesc) : Nat := d.blocks / d.unitSize

/-- Blocks of a unit. -/
def LDesc.unitBlocks (d : LDesc) (u : Nat) : List Nat := (List.range d.unitSize).map (fun r => u * d.unitSize + r)

/-- Whether every block of a unit has retired. -/
def Launch.unitRetired (l : Launch) (u : Nat) : Bool := (l.d.unitBlocks u).all (fun b => l.retired.contains b)

/-- The unit that a launch places next: those returned by pre-emption first, ascending (R382, R388). -/
def Launch.nextUnit (l : Launch) : Option Nat :=
  match l.saved with
  | v :: vs => some (vs.foldl (fun m w => min m (w.bl / l.d.unitSize)) (v.bl / l.d.unitSize))
  | [] => if l.next < l.d.units then some l.next else none

/-- Whether every core of a unit at an origin has room for its block (R380). -/
def State.fitsAt (s : State) (l : Launch) (u : Nat) (o : Nat × Nat) : Bool :=
  ((l.d.unitBlocks u).zip (l.coresAt o)).all (fun p => s.hasRoom l p.2 (s.coursesFor l p.1))

/-- The position that the policy gives a unit now, with its place in the list, off the cores `bar`; none where it has to wait. -/
def State.pickOff (s : State) (l : Launch) (u : Nat) (bar : List Nat) : Option (Nat × (Nat × Nat)) :=
  let ok : Nat × Nat → Bool := fun o => s.fitsAt l u o && !(l.coresAt o).any (fun c => bar.contains c)
  if l.d.determ then
    let p := s.curveLen l
    if p = 0 then none
    else
      match (s.curve l)[u % p]? with
      | some o => if ok o && (decide (u < p) || l.unitRetired (u - p)) then some (u % p, o) else none
      | none => none
  else
    let ps := s.rowPositions l
    let n := ps.length
    ((List.range n).map (fun i => (l.scanPos + i) % (max n 1))).findSome? (fun i =>
      match ps[i]? with
      | some o => if ok o then some (i, o) else none
      | none => none)

/-- The position that the policy gives a unit now. -/
def State.pickPos (s : State) (l : Launch) (u : Nat) : Option (Nat × (Nat × Nat)) := s.pickOff l u []

/-! ### Ready launches (R376, R377, R433) -/

/-- Whether every dependence of a launch is met, each stamp read as an acquire at its home. -/
def State.depsMet (s : State) (l : Launch) : Bool :=
  l.d.deps.all (fun e => decide (e.1 = 0) ||
    (match s.resolve l.part e.1.toNat true false with
     | .ok loc _ => decide ((s.stampAt none loc).1 ≥ e.2.toNat)
     | _ => false))

/-- The pages of a launch's KIND 1 ranges with their entries; none where one does not translate. -/
def State.kind1Pages (s : State) (l : Launch) : List (Nat × Option PWalk) :=
  (l.ranges.filter (fun r => r.kind == 1)).flatMap (fun r =>
    let stop := r.base.toNat + r.len.toNat
    let rec go : Nat → Nat → List (Nat × Option PWalk)
      | 0, _ => []
      | fuel + 1, a =>
        if a ≥ stop then []
        else
          match s.xlate l.part (vaBits a) with
          | .leaf e va size pa => (va, some (.leaf e va size pa)) :: go fuel (a + (va + size - vaBits a))
          | _ => (a / 4096 * 4096, none) :: go fuel (a / 4096 * 4096 + 4096)
    go (r.len.toNat / 4096 + 2) r.base.toNat)

/-- Whether a page of the launch stands in the snapshot of another launch. -/
def State.snapshotBusy (s : State) (l : Launch) : Bool :=
  (s.kind1Pages l).any (fun p =>
    match p.2 with
    | some (.leaf _ _ _ pa) =>
      (match s.physLoc pa with
       | .dev a => (undOf s.und a).any (fun u => u.snapOf.any (fun k => decide (k ≠ (l.part, l.lnum))))
       | _ => false)
    | _ => false)

/-- Whether a queued launch stands at the head of its queue. -/
def State.atHead (s : State) (l : Launch) : Bool :=
  ((s.part? l.part).bind (fun q => aget? q.queues l.queue)).any (fun ls => decide (ls.head? = some l.lnum))

/-- Whether a launch may be given a place now, if there is one. A replay waits for a seal in progress, so that its first read is of the point it
restarts from (R447, R449; log 42), and none of a partition starts whose open point is being discarded; one for which firmware read POISON never starts (R434). -/
def State.mayPlace (s : State) (l : Launch) : Bool :=
  s.partOn l.part && !l.halted && !l.badRead && !s.rollbacks.any (fun r => r.discard.contains l.part) && (decide (l.contained = 0) || (s.part? l.part).all (fun q => q.sealNow.isNone)) &&
  (match l.stat with
   | .started => l.nextUnit.isSome
   | .queued => s.atHead l && !s.launches.any (fun k => k.part == l.part && k.queue == l.queue && k.stat == .held) && s.depsMet l && !s.snapshotBusy l
   | _ => false)

/-- Whether launch `a` is served before `b`: the higher PRIO, then the earlier submission. -/
def Launch.servedBefore (a b : Launch) : Bool :=
  decide (a.d.prio > b.d.prio) || (a.d.prio == b.d.prio && lnumBefore a.lnum b.lnum)

/-- The modes that a partition's DETCFG forces on its launches (R488). -/
def State.withModes (s : State) (l : Launch) : Launch :=
  let c := s.preg l.part 0x20
  { l with d := { l.d with determ := l.d.determ || c.getLsbD 0, trelvy := l.d.trelvy || c.getLsbD 1 } }

/-- A launch as its dispatch finds it: one still queued takes the forced modes. -/
def State.asPlaced (s : State) (l : Launch) : Launch := if l.stat = .queued then s.withModes l else l

/-- Whether a launch is ready and its next unit cannot be placed. -/
def State.stuck (s : State) (r : Launch) : Bool := s.mayPlace r && r.nextUnit.any (fun u => (s.pickPos r u).isNone)

/-- The positions that a requester's next unit could take but for what stands there: under determ its place on the curve alone (R383). -/
def State.wantedSpots (s : State) (r : Launch) : List (Nat × Nat) :=
  if !r.d.determ then s.rowPositions r
  else
    match r.nextUnit with
    | none => []
    | some u =>
      let p := s.curveLen r
      if p = 0 then []
      else if u < p || r.unitRetired (u - p) then ((s.curve r)[u % p]?).toList else []

/-! ### Whom pre-emption takes (R387) -/

/-- The started launches of lower PRIO than a requester: the lowest PRIO first, then the latest submission. -/
def State.victims (s : State) (r : Launch) : List Launch :=
  (s.launches.filter (fun l => l.part == r.part && l.stat == .started && decide (l.d.prio < r.d.prio) && !l.placed.isEmpty)).foldl
    (fun vs l => vs.filter (fun v => l.servedBefore v) ++ [l] ++ vs.filter (fun v => !l.servedBefore v)) []

/-- The state as placement would find it with units of a partition's launches gone: pairs of launch number and unit. -/
def State.withoutUnits (s : State) (p : Nat) (us : List (Nat × Nat)) : State :=
  let mine : BKey → Bool := fun k =>
    k.part == p && (s.launch? k.part k.lnum).any (fun l => us.contains (k.lnum, k.bl / l.d.unitSize))
  { s with
      blocks := s.blocks.filter (fun b => !mine b.key), mccs := s.mccs.filter (fun m => !mine m.key),
      courses := s.courses.filter (fun c => !((s.blockAt? c.core c.slot).any (fun b => mine b.key))) }

/-- The placed units of a launch under determ from the last position of its curve back (R388). -/
def State.fromLast (s : State) (l : Launch) : List Nat :=
  (s.curve l).reverse.flatMap (fun q => (l.placed.filter (fun p => decide (p.2 = l.coresAt q))).map (·.1))

/-- The units that a victim gives up first for a position: under determ those at the last positions of its curve (R388), else those on the position's
cores, the most recently placed first. -/
def State.offers (s : State) (r l : Launch) (o : Nat × Nat) : List (Nat × Nat) :=
  let us := if l.d.determ then s.fromLast l
    else ((l.placed.filter (fun p => p.2.any (fun c => (r.coresAt o).contains c))).map (·.1)).reverse
  us.map (fun u => (l.lnum, u))

/-- The fewest units, taken in order, without which a requester's next unit fits a position; of them, those it can do without are left again, the
last offered first, but under determ, where a victim gives up its last positions without a gap. -/
def State.freeing (s : State) (r : Launch) (u : Nat) (vs : List Launch) (o : Nat × Nat) : Option (List (Nat × Nat)) :=
  let all := vs.flatMap (fun l => s.offers r l o)
  let fits : List (Nat × Nat) → Bool := fun us => (s.withoutUnits r.part us).fitsAt r u o
  ((List.range all.length).find? (fun k => fits (all.take (k + 1)))).map (fun k =>
    let us := all.take (k + 1)
    let free : List (Nat × Nat) → Nat × Nat → Bool := fun keep e =>
      vs.any (fun l => l.lnum == e.1 && !l.d.determ) || decide ((keep.filter (fun f => f.1 == e.1)).getLast? = some e)
    us.reverse.foldl (fun keep e => if free keep e && fits (keep.filter (· != e)) then keep.filter (· != e) else keep) us)

/-- The sets of units that pre-emption for a requester may vacate, one for each position that they free, of as few launches as can free any. -/
def State.vacateSets (s : State) (r : Launch) : List (List (Nat × Nat)) :=
  match r.nextUnit with
  | none => []
  | some u =>
    let vs := s.victims r
    let sets : Nat → List (List (Nat × Nat)) := fun k => ((s.wantedSpots r).filterMap (s.freeing r u (vs.take k))).filter (fun us => !us.isEmpty)
    (((List.range vs.length).map (fun k => sets (k + 1))).find? (fun l => !l.isEmpty)).getD []

/-- The launch that pre-emption for a requester takes units of next: the first victim in order that has units in such a set and comes first there. -/
def State.victimFor (s : State) (r : Launch) : Option Launch :=
  let vs := s.victims r
  let first : List (Nat × Nat) → Option Nat := fun us => (vs.find? (fun l => us.any (fun e => e.1 == l.lnum))).map (·.lnum)
  let sets := s.vacateSets r
  vs.find? (fun l => sets.any (fun us => decide (first us = some l.lnum)))

/-- The unit sets that pre-emption for a requester may ask of a victim: its part of each such set in which it comes first; those with the most
recently placed among all such units, but under determ, where it gives up its last positions. -/
def State.asksOf (s : State) (r l : Launch) : List (List Nat) :=
  let vs := s.victims r
  let first : List (Nat × Nat) → Option Nat := fun us => (vs.find? (fun l => us.any (fun e => e.1 == l.lnum))).map (·.lnum)
  let sets := ((s.vacateSets r).filter (fun us => decide (first us = some l.lnum))).map (fun us => (us.filter (fun e => e.1 == l.lnum)).map (·.2))
  if l.d.determ then sets
  else
    let helpful := (l.placed.filter (fun p => sets.any (fun t => t.contains p.1))).map (·.1)
    sets.filter (fun us => match helpful.getLast? with | some u => us.contains u | none => false)

/-- The cores that pre-emption has taken, or is taking, for a requester of higher PRIO that still cannot be placed: a launch of lower PRIO is not given
them (DESIGN CHOICE, log 28). -/
def State.keptFrom (s : State) (l : Launch) : List Nat :=
  (s.vacated.filter (fun e => e.1 == l.part && (s.launch? e.1 e.2.1).any (fun r =>
    let r := s.asPlaced r
    decide (r.d.prio > l.d.prio) && s.stuck r))).flatMap (·.2.2)

/-- The launch of a partition that is served next, with its unit and position. -/
def State.served (s : State) (p : Nat) : Option (Launch × Nat × Nat × (Nat × Nat)) :=
  (((s.launches.filter (fun l => l.part == p)).map s.asPlaced).filter (fun l => s.mayPlace l)).filterMap (fun l =>
    l.nextUnit.bind (fun u => (s.pickOff l u (s.keptFrom l)).map (fun o => (l, u, o.1, o.2)))) |>.foldl (fun r c =>
      match r with
      | none => some c
      | some b => if c.1.servedBefore b.1 then some c else r) none

/-- The bind records that the policy writes for a unit at an origin. -/
def State.bindsFor (s : State) (l : Launch) (u : Nat) (o : Nat × Nat) : List Bind :=
  ((List.range l.d.unitSize).zip (l.coresAt o)).map (fun p =>
    { bl := u * l.d.unitSize + p.1, core := p.2, slot := s.freeSlot p.2,
      valid := true, role := if l.d.gangw = 0 then 0xFFFFFFFF else BitVec.ofNat 32 p.1, gx0 := o.1, gy0 := o.2, seq := l.seqNext,
      image := ((l.saved.find? (fun v => v.bl == u * l.d.unitSize + p.1)).map (·.image)).getD 0 })

/-! ### Starting a unit (R378, R380, R433) -/

/-- Device memory as every access reads it: HBM under the eave buffer and the durable stores on their way. -/
def State.wholeDev (s : State) : Memory :=
  s.durp.foldl (fun m d => m.write d.addr d.bytes) (s.eave.foldl (fun m e => m.write (128 * e.1) e.2) s.mem)

/-- A block started at its place (R158, R160, R167). Until its first CINV or FENCE.ro a thread's read-only point is this start, not the launch's
dispatch: of the values that R136 allows, none read before it is returned (DESIGN CHOICE, log 9). -/
def State.startBlock (l : Launch) (u : Nat) (s : State) (b : Bind) : State :=
  let key : BKey := { part := l.part, lnum := l.lnum, bl := b.bl }
  let n := l.d.threads
  let id0 := s.nextId
  let k := (n + 31) / 32
  let threads := (List.range n).map (fun tl => Thread.fresh tl l.d.entry l.d.fptrap l.d.accs s.events (.course (id0 + tl / 32)))
  let courses := (List.range k).map (fun j =>
    ({ core := b.core, id := id0 + j, slot := b.slot, lanes := (List.range (min 32 (n - 32 * j))).map (fun i => some (32 * j + i)),
       age := s.cycle, latches := [], chain := 0, stat := .ready, frame := none, reinj := [], resume := [], yielded := false,
       skipCmp := false, resp := [], part := 0, flight := true } : Course))
  let blk : Block :=
    { key := key, core := b.core, slot := b.slot, role := b.role, gx0 := b.gx0, gy0 := b.gy0, unit := u, seq := b.seq, b := [],
      bars := [], scratch := [], absent := [], poison := [], descs := [], pushes := [], threads := threads,
      hasMcc := decide (l.d.tileent ≠ 0), sdcsyn := 0, sdcunit := 0, sdctile := 0 }
  { s with nextId := id0 + k, blocks := s.blocks ++ [blk], courses := s.courses ++ courses,
           l1 := s.l1.filter (fun w => w.core != b.core), scanning := s.scanning.filter (· != b.core),
           mccs := if l.d.tileent = 0 then s.mccs else s.mccs ++ [Mcc.fresh b.core key l.d.tileent] }

/-- A unit has taken its place: the launch's record of it, and its queue once the last unit has been dispatched (R372). -/
def State.placeUnit (s : State) (l : Launch) (u i : Nat) (o : Nat × Nat) (fresh : Bool) : State :=
  let s1 := s.updLaunch l.part l.lnum (fun l =>
    { l with stat := .started, next := if fresh then u + 1 else l.next, placed := l.placed ++ [(u, l.coresAt o)],
             scanPos := if l.d.determ then l.scanPos else i + 1, seqNext := l.seqNext + 1,
             saved := l.saved.filter (fun v => v.bl / l.d.unitSize != u),
             switchedOut := l.switchedOut && l.saved.any (fun v => v.bl / l.d.unitSize != u) })
  let s1 : State := { s1 with vacated := s1.vacated.filter (fun e => !(e.1 == l.part && e.2.1 == l.lnum)) }
  if fresh ∧ u + 1 ≥ l.d.units then
    s1.updPart l.part (fun q => { q with queues := q.queues.map (fun x => if x.1 == l.queue then (x.1, x.2.filter (· != l.lnum)) else x) })
  else s1

/-- The first KIND 1 page that cannot be snapshot: not translated, not device memory, or without the underlay attribute. -/
def State.badPage (s : State) (l : Launch) : Option Nat :=
  (s.kind1Pages l).findSome? (fun p =>
    match p.2 with
    | some (.leaf e _ _ pa) =>
      (match s.physLoc pa with
       | .dev _ => if pteU e then none else some p.1
       | _ => some p.1)
    | _ => some p.1)

/-- A launch refused at its dispatch (R433). -/
def State.refuseLate (s : State) (l : Launch) (page : Nat) : State :=
  let s1 := s.storeVirt l.part (l.addr + 212) (natLE 4 0x010D)
  let s2 := s1.gutter { GRec.plate 0x0308 with part := l.part, lnum := BitVec.ofNat 32 l.lnum, addr := BitVec.ofNat 64 page }
  let s3 := (s2.writeDone l true).updLaunch l.part l.lnum (fun l => { l with stat := .ended, status := 0x010D })
  s3.updPart l.part (fun q => { q with queues := q.queues.map (fun x => (x.1, x.2.filter (· != l.lnum))) })

/-- The first dispatch of a launch: its modes (DETCFG), its snapshot and the memory its text is fetched from (R28, R433). -/
def State.firstDispatch (s : State) (l : Launch) : State :=
  let s1 := (s.kind1Pages l).foldl (fun t p =>
    match p.2 with
    | some (.leaf e va size pa) =>
      (match t.physLoc pa with
       | .dev a => (t.notePage a size l.part va (pteU e) (pteD e)).updUnd a (fun u => { u with snapOf := some (l.part, l.lnum) })
       | _ => t)
    | _ => t) s
  s1.updLaunch l.part l.lnum (fun l =>
    { l with text := { dev := s1.wholeDev, host := s1.host, und := s1.und }, stat := .started })

/-- The record of the slot table that firmware writes as a bind record (R379). -/
def recordOf (part lnum : Nat) (b : Bind) : BindRec :=
  { part := part, bl := b.bl, lnum := lnum, core := b.core, slot := b.slot, valid := b.valid, restore := decide (b.image ≠ 0), role := b.role,
    gx0 := b.gx0, gy0 := b.gy0, lref := Config.engineCopy part lnum, image := b.image, seq := b.seq }

/-- Bind records written into the slot table, each over what stood at its place. -/
def State.writeBinds (s : State) (part lnum : Nat) (bs : List Bind) : State :=
  { s with binds := bs.foldl (fun l b => l.filter (fun r => !(r.core == b.core && r.slot == b.slot)) ++ [recordOf part lnum b]) s.binds }

/-- VALID cleared in the records of blocks that run, which has no further effect before they are saved or retire (R380). -/
def State.clearValid (s : State) (part lnum : Nat) (bs : List Bind) : State :=
  { s with binds := s.binds.map (fun r =>
      if r.part == part && r.lnum == lnum && bs.any (fun b => !b.valid && b.core == r.core && b.slot == r.slot && b.bl == r.bl) then
        { r with valid := false } else r) }

/-- A trace record of a launch that names no thread: its dispatch (0x04) or its retirement (0x05), on the core of a block of it (R471). -/
def State.traceLaunch (s : State) (k : BKey) (core type : Nat) : State :=
  s.trace core k.part (nameOf k 0xFFFF core) type 0 0 0 0 0 0

/-- Records that would overrun a core: written, not started, and reported (R380); other records leave the table as it is, but for the VALID bits they
clear. -/
def State.overrun (s : State) (l : Launch) (binds : List Bind) : State :=
  match binds.find? (fun b => !s.hasRoom l b.core (s.coursesFor l b.bl)) with
  | some b => (s.writeBinds l.part l.lnum (binds.filter (fun b => decide (b.slot < 8) && (s.blockAt? b.core b.slot).isNone))).gutter
      { GRec.plate 0x0203 with part := l.part, core := b.core, lnum := BitVec.ofNat 32 l.lnum, bl := BitVec.ofNat 64 b.bl }
  | none => s.clearValid l.part l.lnum binds

/-- Records that dispatch does not start: those of a unit's fresh blocks are looked at for room. -/
def State.bindsRefused (s : State) (l : Launch) (u : Nat) (binds : List Bind) : State :=
  if binds.map (·.bl) = l.d.unitBlocks u ∧ binds.all (fun b => b.image == 0) then s.overrun l binds
  else s.clearValid l.part l.lnum binds

/-- A record of a saved block that a restore does not start. -/
def State.restoreRefused (s : State) (l : Launch) (b : Bind) : State :=
  if b.valid && l.saved.any (fun v => v.bl == b.bl && v.image == b.image) then s.overrun l [b] else s.clearValid l.part l.lnum [b]

/-- Dispatch starts a unit from its bind records, which must be those that the policy gives the launch served next, once all of them have VALID set;
records of the right unit that would overrun a core are not started and bring a gutter record (R380). -/
def execDispatchUnit (part lnum : Nat) (binds : List Bind) (s : State) : Res :=
  match s.launch? part lnum with
  | none => .next s
  | some l0 =>
    let l := s.asPlaced l0
    let s0 := s.updLaunch part lnum (fun _ => l)
    match (if l.saved.isEmpty && s0.mayPlace l then l.nextUnit else none) with
    | none => .next (s.clearValid part lnum binds)
    | some u =>
      match s0.served part with
      | some (m, v, i, o) =>
        let want := s0.bindsFor m v o
        if m.lnum = lnum ∧ v = u ∧
            binds = (want.zip binds).map (fun p => { p.1 with slot := p.2.slot, valid := p.2.valid }) ∧
            binds.all (fun b => decide (b.slot < 8) && (s.blockAt? b.core b.slot).isNone) then
          if !binds.all (·.valid) then .next (s.writeBinds part lnum binds)
          else match (if l.stat = .queued then s0.badPage l else none) with
          | some page => .next (s0.refuseLate l page)
          | none =>
            let s1 := if l.stat = .queued then
                (s0.firstDispatch l).traceLaunch { part := part, lnum := lnum, bl := 0 } ((binds.head?.map (·.core)).getD 0) 0x04
              else s0
            .next (((binds.foldl (fun t b => t.startBlock l u b) s1).placeUnit l u i o true).writeBinds part lnum binds)
        else .next (s.bindsRefused l u binds)
      | none => .next (s.bindsRefused l u binds)

/-! ### Snapshot copies and the pool (R433) -/

/-- Whether the pool cannot give a shadow of a page. -/
def State.poolDry (s : State) (page : Nat) : Bool :=
  (s.und.find? (fun u => u.base == page)).any (fun u => (poolTake u.size s.poolFree).isNone)

/-- The page whose shadow a store lacks. -/
def pageOf {α : Type} (r : Except Await α) : List Nat :=
  match r with
  | .error (.page p) => [p]
  | _ => []

/-- The pages of which a write lacks a shadow: of a course, an MCC, an outstanding access, a push, a copy, the firmware or a record. -/
def State.pagesWanted (s : State) : List Nat :=
  s.courses.flatMap (fun c => match c.stat with | .pool p => [p] | _ => []) ++
  s.mccs.flatMap (fun m => match m.stat with | .pool p => [p] | _ => []) ++
  s.pend.flatMap (fun q => match q.kind, q.loc with
    | .fence _, _ => []
    | _, .peer _ _ => []
    | .add t sys, l => pageOf (s.addLine (some q.ag) q.core l t sys)
    | _, l => pageOf (s.storeAt (some q.ag) (some q.core) l q.bytes)) ++
  s.blocks.flatMap (fun b => b.pushes.flatMap (fun p => pageOf (s.storeAt (some (.thread b.key p.tl)) (some b.core) p.loc p.bytes))) ++
  s.copies.flatMap (fun c => c.todo.flatMap (fun d => pageOf (s.lineWrite c (c.recv d.1) d.2))) ++
  s.fwWait.flatMap (fun e => pageOf (s.storeAt none none e.1 e.2)) ++
  (if s.gwait.isEmpty && s.gheld.isEmpty then [] else match s.ringStop with | some (.page p) => [p] | _ => []) ++
  (s.recs.filter (·.kept)).flatMap (fun r => match s.traceStop r.part with | some (.page p) => [p] | _ => [])

/-- Whether the wait of a partition's agent for a shadow of a page is over: the pool can give one, or none is lacking any more. -/
def State.pageReady (s : State) (page part : Nat) : Bool := !s.poolDry page || (s.prepWrite page (some part)).isOk

/-- Whether a course that waits for a shadow of a page may go on. -/
def State.courseReady (s : State) (page : Nat) (c : Course) : Bool :=
  decide (c.stat = .pool page) && (s.blockAt? c.core c.slot).any (fun b => s.pageReady page b.key.part)

/-- Whether an MCC that waits for a shadow of a page may go on. -/
def State.mccReady (s : State) (page : Nat) (m : Mcc) : Bool := decide (m.stat = .pool page) && s.pageReady page m.key.part

/-- The pages into which a waiting store of the firmware, the first of its line, could now go. -/
def State.fwPages (s : State) : List Nat :=
  s.fwWait.filterMap (fun e =>
    if decide ((s.fwWait.find? (fun f => decide (f.1.line.1 = e.1.line.1))) = some e) && (s.storeAt none none e.1 e.2).isOk then
      match e.1 with
      | .dev a | .shadow a => some (((undOf s.und a).map (·.base)).getD (a / 4096 * 4096))
      | _ => none
    else none)

/-- The one record of a wait for a shadow frame. -/
def State.poolRecord (s : State) (page : Nat) : State :=
  if s.poolWait.contains page then s
  else ({ s with poolWait := s.poolWait ++ [page] }).gutter { GRec.plate 0x0307 with addr := BitVec.ofNat 64 page }

/-- The copy of a page's live frame into its snapshot shadow; with an empty pool, one record for the wait, as for a write that lacks another
shadow of the page. -/
def execSnapshotPageCopy (page : Nat) (s : State) : Res :=
  .next (match s.snapCopy page with
    | .ok t => if t.poolDry page && t.pagesWanted.contains page then t.poolRecord page else t
    | .error _ => s.poolRecord page)

/-- A frame has returned, or a shadow of the page is needed no more: what waits for one goes on. -/
def execUnderlayPoolWaitEnd (page : Nat) (s : State) : Res :=
  .next (
    let t : State :=
      { s with courses := s.courses.map (fun c => if s.courseReady page c then { c with stat := .ready } else c),
               mccs := s.mccs.map (fun m => if s.mccReady page m then { m with stat := .running } else m) }
    let rid : State → State := fun u => { u with poolWait := u.poolWait.filter (· != page) }
    if s.poolDry page then
      let u := t.retryFw
      if u.pagesWanted.contains page then u else rid u
    else (rid t).retryFw)

/-! ### Retirement (R166, R378, R384) -/

/-- Whether a block is done: every thread exited, its MCC ended, and every copy, access and joint multiply it issued completed (R326, R333). -/
def State.blockDone (s : State) (b : Block) : Bool :=
  b.threads.all (fun t => decide (t.stat = .exited)) && b.pushes.isEmpty &&
  !(s.copies.any (fun c => decide (c.key = b.key))) && !(s.pend.any (fun q => decide (q.ag.key = b.key))) &&
  (!b.hasMcc || s.mccs.all (fun m => decide (m.key ≠ b.key) || (decide (m.stat = .ended) && m.staging.isEmpty && s.jointDone m)))

/-- A block's slot with its bind record, registers, accumulators, scratchpad and barriers freed. -/
def State.freeBlock (s : State) (b : Block) : State :=
  { s with
      blocks := s.blocks.filter (fun c => decide (c.key ≠ b.key)),
      courses := s.courses.filter (fun c => !(c.core == b.core && c.slot == b.slot)),
      binds := s.binds.filter (fun r => !(r.core == b.core && r.slot == b.slot)),
      bins := s.bins.filter (fun c => !(c.core == b.core && c.slot == b.slot)),
      mccs := s.mccs.filter (fun m => decide (m.key ≠ b.key)) }

/-- The blocks of a unit that are resident. -/
def State.unitResident (s : State) (l : Launch) (u : Nat) : List Block :=
  s.blocks.filter (fun b => b.key.part == l.part && b.key.lnum == l.lnum && b.key.bl / l.d.unitSize == u)

/-- A block retires; with the last of its unit, the unit's place is free. -/
def State.retireBlock (s : State) (l : Launch) (b : Block) : State :=
  let u := b.key.bl / l.d.unitSize
  let s1 := s.freeBlock b
  s1.updLaunch l.part l.lnum (fun l =>
    let r := l.retired ++ [b.key.bl]
    if (s1.unitResident l u).isEmpty then
      { l with retired := r, placed := l.placed.filter (fun p => p.1 != u), finished := l.finished.filter (· != u),
               gbars := adel (adel l.gbars u) (gangDone u) }
    else { l with retired := r })

/-- A launch whose blocks have all retired, the last on a core, retires: its snapshot shadows return, and DONE is written (R378, R433). -/
def State.retireLaunch (s : State) (p n core : Nat) : State :=
  match s.launch? p n with
  | none => s
  | some l =>
    if l.retired.length < l.d.blocks then s
    else (((s.dropSnapshot p n).writeDone l false).updLaunch p n (fun l => { l with stat := .retired, status := 1 })).traceLaunch
      { part := p, lnum := n, bl := l.retired.getLastD 0 } core 0x05

/-- Under determ the finished units retire as far as they follow on from the retired ones (R384). -/
def State.retireRun (p n : Nat) : Nat → State → State
  | 0, s => s
  | fuel + 1, s =>
    match s.launch? p n with
    | none => s
    | some l =>
      match (List.range l.d.units).find? (fun u => !l.unitRetired u) with
      | none => s
      | some u =>
        if l.finished.contains u then
          State.retireRun p n fuel ((s.unitResident l u).foldl (fun t b => t.retireBlock l b) s)
        else s

/-- A block whose work is done retires; under determ with its unit, in ascending order. -/
def execBlockRetire (core slot : Nat) (s : State) : Res :=
  .next (match s.blockAt? core slot with
    | none => s
    | some b =>
      match s.launch? b.key.part b.key.lnum with
      | none => s
      | some l =>
        if !s.blockDone b then s
        else if l.d.determ then
          let u := b.key.bl / l.d.unitSize
          if (s.unitResident l u).all (fun c => s.blockDone c) && !l.finished.contains u then
            ((s.updLaunch l.part l.lnum (fun l => { l with finished := l.finished ++ [u] })).retireRun l.part l.lnum (l.d.units + 1)
              ).retireLaunch l.part l.lnum core
          else s
        else (s.retireBlock l b).retireLaunch l.part l.lnum core)

/-! ### Pre-emption (R387 to R389) -/

/-- Whether an MCC is at rest: no multiply or step under way, for the first that is staged is a TMMA that waits to join and holds both entries (R331,
R333); no vote, no peer data awaited or in use. -/
def Mcc.atRest (m : Mcc) : Bool :=
  (match m.stat with
   | .vote => false
   | .peer _ => false
   | .sdc _ => true
   | _ => m.staging.head?.all (fun g => !g.started)) && m.resp.isEmpty

/-- Whether a block is at rest (R388), its adds by CPYA accepted (R316). -/
def State.blockAtRest (s : State) (b : Block) : Bool :=
  b.pushes.isEmpty && !(s.copies.any (fun c => decide (c.key = b.key) && (match c.kind with | .cpya _ => true | _ => false))) && !(s.pend.any (fun q => decide (q.ag.key = b.key))) &&
  (s.courses.filter (fun c => c.core == b.core && c.slot == b.slot)).all (·.atRest) &&
  (s.mccs.filter (fun m => decide (m.key = b.key))).all (·.atRest)

/-- Whether no gang of these units has a completed phase whose threads still have to depart. -/
def Launch.gangsQuiet (l : Launch) (us : List Nat) : Bool := us.all (fun u => (aget? l.gbars (gangDone u)).isNone)

/-- The agents of a block. -/
def Block.agents (b : Block) : List Agent :=
  b.threads.map (fun t => Agent.thread b.key t.tl) ++ [.mcc b.key, .tile b.key false, .tile b.key true]

/-- A member of a course that waits in QPUSH, with whether it has pushed. -/
def State.pushWait (s : State) (b : Block) (q tl : Nat) (pushed : Bool) : QWait :=
  let pc := (b.thread? tl).elim 0 (·.pc)
  { tl := tl, queue := q, pc := pc, pushed := pushed,
    next := if pushed then (match s.launch? b.key.part b.key.lnum with | some l => s.afterPush l pc | none => pc) else pc }

/-- What a saved block keeps beside its image (log 23). -/
def State.savedRecord (s : State) (b : Block) (image : Nat) : Saved :=
  let cs := s.courses.filter (fun c => c.core == b.core && c.slot == b.slot)
  let woken : List (Nat × Wait) := cs.flatMap (fun c =>
    match c.frame.bind (·.wait), c.members with
    | some w, (_, tl) :: _ => if w.over then [] else [(tl, w)]
    | _, _ => [])
  let m := s.mccOf b.key
  { bl := b.key.bl, image := image, live := b.alive.map (·.tl), absent := b.absent, crews := cs.map (·.lanes),
    waits := b.threads.filterMap (fun t => match t.stat with | .waiting w => some (t.tl, w) | _ => none) ++ woken,
    report := (b.sdcsyn, b.sdcunit, b.sdctile),
    held := cs.flatMap (fun c => match c.stat with | .debug t => if t.after then [] else c.members.map (·.2) | _ => []),
    pushes := cs.flatMap (fun c => c.members.flatMap (fun p =>
      let es := (c.frame.map (·.entries)).getD []
      ((List.range es.length).zip es).filterMap (fun e =>
        ((e.2.lanes.getD p.1 LaneEnt.none).push).map (fun d => (p.2, e.1, d))))),
    qwaits := cs.flatMap (fun c => match c.stat with
      | .qpush q => c.members.map (fun p => s.pushWait b q p.2 (maskHas c.part p.1))
      | _ => []),
    chains := cs.flatMap (fun c => c.members.map (fun p => (p.2, (c.frame.map (·.chain)).getD c.chain))),
    staged := (m.map (·.kept)).getD [], runPc := (m.map (·.pc)).getD 0, ended := m.any (·.fin),
    mfault := m.bind (fun m => match m.stat with | .fault q => some q | _ => none) }

/-- A gutter record's source once a block is saved: an answer to the record of one of its courses is ignored (R388, R408), one to the record of its
MCC resumes it after the restore (R394). -/
def State.leftBy (s : State) (b : Block) (g : GSrc) : GSrc :=
  match g with
  | .course core id => if (s.course? core id).any (fun c => c.core == b.core && c.slot == b.slot) then .none else g
  | _ => g

/-- One block saved into its image, and removed from its core. -/
def State.saveBlock (s : State) (l : Launch) (b : Block) (image : Nat) : State :=
  let bs := imageBytes s l b (s.mccs.find? (fun m => decide (m.key = b.key)))
  let v := s.savedRecord b image
  let a := s.live image
  let s1 := s.putMem a bs
  let s2 : State := { s1 with
    poison := s1.poison.filter (fun x => !(decide (a / 128 ≤ x) && decide (x < (a + bs.length + 127) / 128))),
    gopen := s1.gopen.map (fun g => { g with by_ := s.leftBy b g.by_ }),
    gwait := s1.gwait.map (fun g => { g with by_ := s.leftBy b g.by_ }), gheld := s1.gheld.map (fun g => { g with by_ := s.leftBy b g.by_ }) }
  (s2.freeBlock b).updLaunch l.part l.lnum (fun l => { l with saved := l.saved ++ [v] })

/-- Units vacated: every block saved, in order, the images given. -/
def State.vacate (s : State) (l : Launch) (us images : List Nat) : State :=
  let s1 := ((us.flatMap (fun u => l.d.unitBlocks u)).zip images).foldl (fun t p =>
    match t.block? { part := l.part, lnum := l.lnum, bl := p.1 } with
    | some b => t.saveBlock l b p.2
    | none => t) s
  s1.updLaunch l.part l.lnum (fun l =>
    let all := l.placed.all (fun p => us.contains p.1)
    { l with placed := l.placed.filter (fun p => !us.contains p.1), gbars := us.foldl (fun g u => adel g u) l.gbars,
             finished := l.finished.filter (fun u => !us.contains u), switchedOut := all, images := l.images ++ images, stopping := none,
             curveLost := if l.d.determ && !all then (s.curve l).length - (s.curve l).findIdx (fun q =>
               l.placed.any (fun p => us.contains p.1 && decide (p.2 = l.coresAt q))) else l.curveLost })

/-- Cores a launch would keep. -/
def Launch.coresLeft (l : Launch) (us : List Nat) : Nat :=
  ((l.placed.filter (fun p => !us.contains p.1)).flatMap (·.2)).eraseDups.length

/-- The fewest cores that pre-emption may leave it (R374). -/
def LDesc.minCores (d : LDesc) : Nat := if d.mincores = 0 then d.unitSize else d.mincores

/-- Whether these units may be vacated when the ones asked for are `ask`: those, or every placed one where those would leave too few cores
(R389). -/
def Launch.mayVacate (l : Launch) (us ask : List Nat) : Bool :=
  if l.coresLeft ask < l.d.minCores then decide (us = l.placed.map (·.1)) else decide (us = ask)

/-- The images of those of the units that are still placed. -/
def Launch.imagesOf (l : Launch) (us images : List Nat) : List Nat :=
  ((List.range us.length).zip us).flatMap (fun p =>
    if l.placed.any (fun q => q.1 == p.2) then (images.drop (p.1 * l.d.unitSize)).take l.d.unitSize else [])

/-- The lines that the host may cache of what a block's image will overwrite (R142). -/
def State.blockSnoops (s : State) (l : Launch) (b : Block) (image : Nat) : List Nat :=
  if s.hdmHost.isEmpty then []
  else
    let n := (imageBytes s l b (s.mccOf b.key)).length
    s.hdmHost.filter (fun x => decide (image / 128 ≤ x) && decide (128 * x < image + n))

/-- The lines of the host's that images at these addresses will overwrite (R142). -/
def State.imageSnoops (s : State) (l : Launch) (us images : List Nat) : List Nat :=
  ((us.flatMap (fun u => l.d.unitBlocks u)).zip images).flatMap (fun p =>
    match s.block? { part := l.part, lnum := l.lnum, bl := p.1 } with
    | some b => s.blockSnoops l b p.2
    | none => [])

/-- Whether every block of units that are coming to rest is at rest, and the host has given up what it caches of the images. -/
def State.restsNow (s : State) (l : Launch) (us images : List Nat) : Bool :=
  l.gangsQuiet us && (us.flatMap (fun u => s.unitResident l u)).all (fun b => s.blockAtRest b) &&
  (s.imageSnoops l us images).all (fun x => !s.bisnp.contains x)

/-- Units asked to vacate: their courses and MCCs stop where they next may (R388), and the blocks that have not retired (R170) are saved once all are at
rest, each to the image of its place. -/
def State.vacateIfQuiet (s : State) (l : Launch) (us images : List Nat) : State :=
  let s1 := ((us.flatMap (fun u => s.unitResident l u)).flatMap (·.agents)).foldl (fun t a => t.settle a) s
  if us.isEmpty then s.updLaunch l.part l.lnum (fun l => { l with stopping := none })
  else if images.length = us.length * l.d.unitSize ∧ images.all (fun a => decide (a ≠ 0) && a % 64 == 0) then
    if l.gangsQuiet us ∧ (us.flatMap (fun u => s1.unitResident l u)).all (fun b => s1.blockAtRest b) then
      if (s1.imageSnoops l us images).isEmpty then s1.vacate l us images
      else (s.updLaunch l.part l.lnum (fun l => { l with stopping := some (us, images) })).snoopHost (s1.imageSnoops l us images)
    else s.updLaunch l.part l.lnum (fun l => { l with stopping := some (us, images) })
  else s

/-- The cores of units. -/
def Launch.coresOf (l : Launch) (us : List Nat) : List Nat := (l.placed.filter (fun p => us.contains p.1)).flatMap (·.2)

/-- Cores kept for a requester. -/
def State.keepFor (s : State) (part requester : Nat) (cores : List Nat) : State := { s with vacated := s.vacated ++ [(part, requester, cores)] }

/-- Firmware vacates units of a victim for a ready launch of higher PRIO that cannot be placed; units that are already coming to rest are vacated
as they were asked to. -/
def execPreemptVacate (part lnum requester : Nat) (units images : List Nat) (s : State) : Res :=
  .next (match s.launch? part requester, s.launch? part lnum with
    | some r0, some l =>
      let r := s.asPlaced r0
      if l.stopping.isSome then
        (if l.stopping = some (units, images) then s.vacateIfQuiet l (units.filter (fun u => l.placed.any (fun p => p.1 == u)))
            (l.imagesOf units images) else s)
      else if s.stuck r && decide ((s.victimFor r).map (·.lnum) = some lnum) &&
          (s.asksOf r l).any (fun a => l.mayVacate units a) then (s.vacateIfQuiet l units images).keepFor part requester (l.coresOf units)
      else s
    | _, _ => s)

/-- What firmware pre-empts for a requester of a partition (R387, R389): the first set that it may ask, or every unit where too few cores
would be left, each block's image where firmware places it (log 28). -/
def State.preemption (s : State) (r0 : Launch) : Option Instr :=
  let r := s.asPlaced r0
  if !s.stuck r || s.launches.any (fun l => l.part == r.part && l.stopping.isSome) then none
  else
    (s.victimFor r).bind (fun l => (s.asksOf r l).head?.map (fun a =>
      let us := if l.coresLeft a < l.d.minCores then l.placed.map (·.1) else a
      .preemptVacate r.part l.lnum r.lnum us
        ((List.range (us.length * l.d.unitSize)).map (fun i => 64 * (1 + Config.imagePlace s.free i)))))

/-- A write that only the owner may make, by another agent: ignored, with a gutter record (R397). -/
def State.nonOwner (s : State) : State := s.gutter (GRec.plate 0x0202)

/-- Whether an agent is the owner (R397). -/
def State.isOwner (s : State) (a : AgentId) : Bool := decide (a ≠ 0) && decide ((s.reg 0x10).toNat % 16 = a)

/-- Whether units may be given up together: under determ those at the last positions of the curve (R388). -/
def State.mayGiveUp (s : State) (l : Launch) (us : List Nat) : Bool :=
  !l.d.determ || us.all (fun u => ((s.fromLast l).take us.length).contains u)

/-- The owner's command vacates units of the launch it names. -/
def execOwnerPreemptCmd (agent : AgentId) (part lnum : Nat) (units images : List Nat) (s : State) : Res :=
  .next (
    if !s.isOwner agent then s.nonOwner
    else
      match s.launch? part lnum with
      | some l =>
        if decide (l.stat = .started) && l.stopping.isNone && !units.isEmpty && decide units.Nodup &&
            units.all (fun u => l.placed.any (fun p => p.1 == u)) && s.mayGiveUp l units &&
            (l.mayVacate units units || decide (units = l.placed.map (·.1))) then s.vacateIfQuiet l units images
        else s
      | none => s)

/-! ### Restore (R390 to R395) -/

/-- An entry's instruction, from its words. -/
def instrOf (d : LDesc) (words : List W32) : Instr :=
  let c : DCtx := { mcc := false, regs := d.regs, accs := d.accs, handler := true, diverges := false, chainPos := 0, gang := decide (d.gangw ≠ 0) }
  match decode c (words.flatMap (fun w => natLE 4 w.toNat)) with
  | .ok i => i
  | _ => .nop { chain := false, pneg := false, pred := 7, wbs := false, lit := none }

/-- The frame of a course from the frames of its lanes, by lane (R403). -/
def frameOf (d : LDesc) (v : Saved) (fs : List (Nat × Nat × LFrame)) (w : Option Wait) : Option Frame :=
  match fs with
  | [] => none
  | (_, _, f0) :: _ =>
    let at_ : Nat → Option (Nat × LFrame) := fun lane => (fs.find? (fun p => p.1 == lane)).map (·.2)
    let latch : Nat → Latch := fun n =>
      { val := lanes32.map (fun l => (at_ l).elim 0 (fun p => p.2.latches.getD n 0)), valid := fs.any (fun p => p.2.2.latv.testBit n),
        poison := maskOf (fun l => (at_ l).any (fun p => p.2.latv.testBit (4 + n))) }
    let entry : Nat → RqEntry := fun i =>
      let (pc, words, _) := f0.entries.getD i (0, [], LaneEnt.none)
      { pc := pc, words := words, i := instrOf d words,
        lanes := lanes32.map (fun l =>
          match at_ l with
          | some (tl, f) =>
            { (f.entries.getD i (0, [], LaneEnt.none)).2.2 with
                push := (v.pushes.find? (fun p => p.1 == tl && p.2.1 == i)).map (·.2.2) }
          | none => LaneEnt.none) }
    let ls := (List.range 4).map latch
    some { resume := lanes32.map (fun l => (at_ l).elim 0 (fun p => p.2.resume)), latches := if ls.any (·.valid) then ls else [],
           entries := (List.range f0.entries.length).map entry, hclass := f0.hclass, inh := f0.inh,
           chain := ((fs.head?.bind (fun p => aget? v.chains p.2.1)).getD 0), wait := w, bin := false }

/-- A crew that waited in QPUSH waits there again, the lanes that have pushed among it (R240, R395). -/
def State.restorePush (s : State) (v : Saved) (ts : List TImage) (k : BKey) (core id : Nat) (lanes : List (Option Nat)) : State :=
  match v.pushCrew ts lanes with
  | [] => s
  | w :: ws =>
    let part := maskOf (fun l => (lanes.getD l none).any (fun tl => (w :: ws).any (fun e => e.tl == tl && e.pushed)))
    ((w :: ws).foldl (fun t e => t.updThread k e.tl (fun u => { u with pc := e.pc })) s).updCourse core id
      (fun c => { c with stat := .qpush w.queue, again := true, part := part })

/-- A crew issues again as a course; its frame, if it has one, stays where its handler runs, and is carried out otherwise (R395, R407). One that a
comparator holds stays held while its launch is halted (R478). -/
def State.restoreCrew (l : Launch) (v : Saved) (ts : List TImage) (k : BKey) (core slot : Nat) (s : State) (lanes : List (Option Nat)) : State :=
  let fs : List (Nat × Nat × LFrame) := (lanes32.zip lanes).filterMap (fun p => p.2.bind (fun tl =>
    (ts.find? (fun t => t.t.tl == tl)).bind (fun t => t.frame.map (fun f => (p.1, tl, f)))))
  let w := (lanes.findSome? (fun o => o.bind (fun tl => (ts.find? (fun t => t.t.tl == tl)).bind (fun t => v.waitOf t))))
  let id := s.nextId
  let c : Course :=
    { core := core, id := id, slot := slot, lanes := lanes, age := s.cycle, latches := [], chain := 0, stat := .ready, frame := none,
      reinj := [], resume := [], yielded := false, skipCmp := false, resp := [], part := 0, flight := true }
  let skip := lanes.any (fun o => o.any (fun tl => v.held.contains tl))
  let s1 := ({ s with courses := s.courses ++ [c] }).bumpId
  let s2 := lanes.foldl (fun t o => match o with
    | some tl => t.updThread k tl (fun u => { u with stat := .course id })
    | none => t) s1
  match frameOf l.d v fs (if fs.isEmpty then none else w) with
  | none => s2.restorePush v ts k core id lanes
  | some f =>
    if f.inh then (s2.updCourse core id (fun c => { c with frame := some f })).restorePush v ts k core id lanes
    else if skip && (s2.launch? k.part k.lnum).any (·.halted) then
      s2.updCourse core id (fun c => { c with frame := some f, stat := .debug (TrapInfo.simple cDebug c.mask (f.resume.headD 0)) })
    else ((s2.resumeFrame k core id f).updCourse core id (fun c => { c with skipCmp := skip })).restorePush v ts k core id lanes

/-- One more descriptor entry read, if it is not among those read. -/
def State.descAt (s : State) (p : Nat) (r : Option (List DescEnt)) (a : W64) : Option (List DescEnt) :=
  r.bind (fun l =>
    if l.any (fun e => decide (e.addr = a)) then some l
    else (s.readVirt p a.toNat 64).map (fun bs => l ++ [{ addr := a, bytes := bs }]))

/-- The descriptors that the bound ports name and the index descriptors that those name, read again (R251, R263); none where one cannot be read. -/
def State.descsOf (s : State) (p : Nat) (ts : List TImage) : Option (List DescEnt) :=
  let addrs := (ts.flatMap (fun t => (t.t.ports.filter (·.bound)).map (·.desc))).foldl (fun l a => insertNew l a) []
  (addrs.foldl (s.descAt p) (some [])).bind (fun l =>
    (l.filterMap (fun e => let d := SDesc.of e.bytes; if d.idx then some d.idxDesc else none)).foldl (s.descAt p) (some l))

/-- The block that an image gives at its place (R393). -/
def restoredBlock (s : State) (l : Launch) (v : Saved) (u : Nat) (b : Bind) (ts : List TImage) : Block :=
  let rd := s.imageReader v.image
  let blk := rd 32 8
  let lines := l.d.scratch / 128
  let bit : Nat → Nat → Bool := fun off i => (rd (blk + 272 + off + i / 8) 1).testBit (i % 8)
  { key := { part := l.part, lnum := l.lnum, bl := v.bl }, core := b.core, slot := b.slot, role := b.role, gx0 := b.gx0, gy0 := b.gy0,
    unit := u, seq := b.seq,
    b := (List.range 32).foldl (fun f i => f.set i (BitVec.ofNat 32 (rd (blk + 4 * i) 4))) [],
    bars := (List.range 16).map (fun i => readBarrier rd (blk + 128 + 8 * i)),
    scratch := Memory.write [] 0 ((List.range l.d.scratch).map (fun i => BitVec.ofNat 8 (rd (rd 40 8 + i) 1))),
    absent := ((List.range lines).filter (fun i => !bit 0 i)).map (fun i => (i, (aget? v.absent i).getD 0)),
    poison := (List.range lines).filter (fun i => bit ((lines + 7) / 8) i),
    descs := (s.descsOf l.part ts).getD [], pushes := [],
    threads := (List.range l.d.threads).map (fun tl =>
      match ts.find? (fun t => t.t.tl == tl) with
      | some t => t.t
      | none => Thread.fresh tl 0 0 l.d.accs 0 .exited),
    hasMcc := decide (l.d.tileent ≠ 0), sdcsyn := v.report.1, sdcunit := v.report.2.1, sdctile := v.report.2.2 }

/-- The threads of a restored block go where they stood: into courses, into their waits, or into bins. -/
def State.placeThreads (s : State) (l : Launch) (v : Saved) (key : BKey) (b : Bind) (ts : List TImage) : State :=
  let crews := crewsOf v ts
  let placed := crews.flatMap (fun c => c.filterMap (fun o => o))
  (ts.filter (fun t => !placed.contains t.t.tl)).foldl (fun t x =>
    match v.waitOf x with
    | some w => t.park key x.t.tl w
    | none => t.fileThread key x.t.tl) (crews.foldl (fun t c => t.restoreCrew l v ts key b.core b.slot c) s)

/-- The waits of a restored block are tested again without their instructions issuing again (R395). -/
def State.retestRestored (s : State) (key : BKey) (ts : List TImage) : State := ts.foldl (fun t x => t.retestWait key x.t.tl) s

/-- One block restored from its image at its place. -/
def State.restoreBlock (s : State) (l : Launch) (v : Saved) (u : Nat) (b : Bind) : State :=
  let rd := s.imageReader v.image
  let key : BKey := { part := l.part, lnum := l.lnum, bl := v.bl }
  let ts := (readThreads rd l.d s.events).1
  let s1 : State := { s with
    blocks := s.blocks ++ [restoredBlock s l v u b ts], l1 := s.l1.filter (fun w => w.core != b.core),
    scanning := s.scanning.filter (· != b.core),
    mccs := if l.d.tileent = 0 then s.mccs else s.mccs ++ [readMcc rd v b.core key (rd 48 8)] }
  let s2 := (s1.placeThreads l v key b ts).retestRestored key ts
  if (s2.mcc? b.core).any (fun m => decide (m.key = key) && decide (m.stat = .sdc false)) then s2.sdcDeliver b.core else s2

/-- The check that a saved block's image fails first: 1 of restore, or 16 above a check of the debugger (R395, R478); 0 where it passes. -/
def State.imageCheck (s : State) (l : Launch) (v : Saved) : Nat :=
  let rd := s.imageReader v.image
  let d := if (rd 7 1).testBit 2 then debugCheck s l v rd else 0
  if d ≠ 0 then d
  else if imageBad s l v.bl (decide (l.d.tileent ≠ 0)) rd then 16
  else if (s.descsOf l.part (readThreads rd l.d 0).1).isNone then 16
  else 0

/-- Whether firmware would consume POISON in restoring a block: in a line of its image, or in a descriptor that it reads again (R434). -/
def State.imageLost (s : State) (l : Launch) (v : Saved) : Bool :=
  let a := s.live v.image
  let n := s.imageField v.image 56 8
  s.poison.any (fun l => decide (a / 128 ≤ l) && decide (128 * l < a + max 64 n)) ||
    (!(s.poison.isEmpty && s.hostPoison.isEmpty) &&
      (s.descsOf l.part (readThreads (s.imageReader v.image) l.d 0).1).any (fun ds => ds.any (fun e => s.virtPoison l.part e.addr.toNat 64)))

/-- Whether a copy still writes into the image of a saved block: bytes and presence of its lines, or the block's own stamp (R291); or such a write waits
for the host or for a shadow (R433, R454). -/
def State.copyInto (s : State) (k : BKey) : Bool :=
  s.copies.any (fun c =>
    (c.dsp != .global && (c.todo ++ c.slow.map (fun e => (e.1, e.2.1))).any (fun d => decide (c.dsts[d.1]? = some k))) ||
    (decide (c.key = k) && c.stamp.any (·.own))) ||
  (s.imageOf k).any (fun img => s.fwWait.any (fun e => match e.1 with
    | .dev a => decide (img ≤ a) && decide (a < img + s.imageField img 56 8)
    | _ => false))

/-- A launch for which firmware consumed POISON is ended as fatal (R434). -/
def State.endPoisoned (s : State) (p n : Nat) : State :=
  (s.gutter { GRec.plate 0x0302 with flags := 1, part := p, lnum := BitVec.ofNat 32 n, aux3 := BitVec.ofNat 32 cPoison }).endFatal p n

/-- A launch one of whose images fails a check is ended as under the watchdog (R395). -/
def State.restoreFails (s : State) (l : Launch) (bl check : Nat) : State :=
  (s.gutter { GRec.plate 0x0201 with
    flags := 1, part := l.part, lnum := BitVec.ofNat 32 l.lnum, bl := BitVec.ofNat 64 bl,
    aux3 := BitVec.ofNat 32 (if check < 16 then check else 0) }).endFatal l.part l.lnum

/-- The gang barrier of a unit, from the image of its rank-0 block, or where that one has retired of another, which carries the same values (R393). -/
def State.gangBarrierOf (s : State) (v : Saved) : Barrier :=
  let rd := s.imageReader v.image
  let o := rd 32 8 + 256
  { arr := rd o 4, exp := rd (o + 4) 4, cnt := 0, isOpen := (rd (o + 8) 1).testBit 0 }

/-- A saved unit restored as a whole: the one the policy places next, at its place; `bind` names one of its blocks and that block's slot. -/
def execBlockRestore (part lnum : Nat) (bind : Bind) (s : State) : Res :=
  .next (match s.launch? part lnum with
    | none => s
    | some l =>
      match (if l.saved.isEmpty || !bind.valid then none else s.served part) with
      | none => s.restoreRefused l bind
      | some (m, u, i, o) =>
        let binds := (s.bindsFor l u o).map (fun b => if b.bl = bind.bl ∧ b.core = bind.core then { b with slot := bind.slot } else b)
        if m.lnum ≠ lnum ∨ !binds.contains bind ∨ bind.slot ≥ 8 ∨ (s.blockAt? bind.core bind.slot).isSome then s.restoreRefused l bind
        else
          let vs := l.saved.filter (fun v => v.bl / l.d.unitSize == u)
          if vs.any (fun v => s.copyInto { part := part, lnum := lnum, bl := v.bl }) then s
          else if vs.any (fun v => s.imageLost l v) then s.endPoisoned part lnum
          else match vs.findSome? (fun v => let c := s.imageCheck l v; if c = 0 then none else some (v.bl, c)) with
          | some (bl, c) => s.restoreFails l bl c
          | none =>
            let s1 := s.placeUnit l u i o false
            let s2 := if l.d.gangw = 0 then s1
              else match (vs.find? (fun v => v.bl == u * l.d.unitSize)).orElse (fun _ => vs.head?) with
                | some v =>
                  let g := s.gangBarrierOf v
                  if g.isOpen then s1.updLaunch part lnum (fun l => { l with gbars := aput l.gbars u g }) else s1
                | none => s1
            (binds.foldl (fun t b =>
              match vs.find? (fun v => v.bl == b.bl) with
              | some v => t.restoreBlock l v u b
              | none => t) s2).writeBinds part lnum (binds.filter (fun b => vs.any (fun v => v.bl == b.bl))))

/-! ### Watchdog (R396) -/

/-- The limit of a launch in microseconds. -/
def State.wdogLimit (s : State) (l : Launch) : Nat := if l.d.wdog = 0 then (s.preg l.part 0x18).toNat else l.d.wdog

/-- A launch whose resident time exceeds its limit is stopped and ended. -/
def execWatchdog (part lnum : Nat) (s : State) : Res :=
  .next (match s.launch? part lnum with
    | none => s
    | some l =>
      if l.live && decide (l.wdog12 > 12000 * s.wdogLimit l) then
        (s.gutter { GRec.plate cWatchdog with flags := 1, part := part, lnum := BitVec.ofNat 32 lnum }).endFatal part lnum
      else s)

end Sys2Proof.Machine
end

