-- ==== Sys2Proof/Machine/Courses.lean ====
section
/-!
DEFINITION. The events of the thread engine: which course may issue and on which quadrant (R46, R163, R385), the emission of bins and the refiling of courses (R162,
R163), a frame that frees (R402), and a stamp that a waiter tests again (R20, R187, R349).
-/

namespace Sys2Proof.Machine

/-! ### Courses (R385) -/

/-- Whether a course holds the quadrant on which it last issued: between two instructions of a chain (R46), and in the wait of an instruction with
CHAIN = 1 (R220), but for those of R240 and R272. A trap ends the hold. -/
def Course.holds (c : Course) : Bool :=
  match c.stat with
  | .trap _ | .fault _ _ | .frame _ | .debug _ | .qpush _ | .copyEntries _ => false
  | .ready => if c.again then c.keep else decide (c.chain ≠ 0)
  | _ => c.keep

/-- The course whose chain holds a quadrant of a core. -/
def State.holder (s : State) (core q : Nat) : Option Course :=
  s.courses.find? (fun c => c.core == core && decide (c.quad = some q) && c.holds)

/-- The quadrants of a core in the order in which they choose in this cycle; the first to choose rotates (R385). -/
def State.quadrants (s : State) : List Nat := (List.range 4).map (fun i => (s.cycle + i) % 4)

/-- Whether a quadrant of a core has not issued in this cycle. -/
def State.quadFree (s : State) (core q : Nat) : Bool := !s.used.any (fun e => e.1 == core && e.2.1 == q)

/-- Whether a course has issued in this cycle. -/
def State.issuedNow (s : State) (c : Course) : Bool := s.used.any (fun e => e.1 == c.core && decide (e.2.1 < 4) && e.2.2 == c.id)

/-- The quadrant on which a course may issue now: the one that its chain holds, else the first to choose of those that no chain holds (R46); each
issues once in a cycle, and so does a course (R385). -/
def State.quadFor (s : State) (c : Course) : Option Nat :=
  if s.issuedNow c then none
  else
    match c.quad, c.holds with
    | some q, true => if s.quadFree c.core q then some q else none
    | _, _ => s.quadrants.find? (fun q => s.quadFree c.core q && (s.holder c.core q).isNone)

/-- The logical thread index of a course's lane 0, as a number that orders it among a partition's launches about `ref` (R156, R385). -/
def State.lane0Key (s : State) (ref : Nat) (c : Course) : Nat :=
  (((s.blockAt? c.core c.slot).map (fun b => logicalKey ref b.key ((c.members.head?.map (·.2)).getD 0))).getD 0)

/-- Whether a course is older than another: by its age, then by the logical thread index of its lane 0 (R385). -/
def State.older (s : State) (c d : Course) : Bool :=
  let ref := ((s.blockAt? c.core c.slot).map (fun b => b.key.lnum)).getD 0
  decide (c.age < d.age) || (decide (c.age = d.age) && decide (s.lane0Key ref c < s.lane0Key ref d))

/-- The oldest of several courses. -/
def State.oldestOf (s : State) (l : List Course) : Option Course :=
  l.foldl (fun r c =>
    match r with
    | none => some c
    | some d => if s.older c d then some c else r) none

/-- What a quadrant of a core that has not issued in this cycle issues: the course whose chain holds it, or the oldest eligible one of which nothing is
in flight (R385). How long an instruction is in flight is timing (log 1). -/
def State.quadIssue (s : State) (core q : Nat) : Option Course :=
  if !s.quadFree core q then none
  else
    match s.holder core q with
    | some c => if s.eligible c && !s.issuedNow c then some c else none
    | none => s.oldestOf (s.courses.filter (fun c => c.core == core && !c.flight && !(c.quad.isSome && c.holds) && s.eligible c))

/-- What a core issues next: its quadrants choose in turn. -/
def State.coreIssue (s : State) (core : Nat) : Option Course := s.quadrants.findSome? (fun q => s.quadIssue core q)

/-- The course that issues next in this cycle. -/
def State.nextCourse (s : State) : Option Course :=
  ((s.courses.map (·.core)).foldl (fun l c => insertNew l c) []).findSome? (fun c => s.coreIssue c)

/-- What is in flight as a cycle ends: on a core whose every eligible course waits for an instruction in flight, it completes (log 1). -/
def State.landed (s : State) : List Course :=
  let busy := (s.courses.filter (fun c => !c.flight && s.eligible c)).map (·.core)
  s.courses.map (fun c => if busy.contains c.core then c else { c with flight := false })

/-- A course as the one that issues. -/
def State.ctxOf (s : State) (core id : Nat) : Option Ctx := ({ s with cur := .course core id }).issuing

/-! ### Bins (R162) -/

/-- The limit of a bin's age: AGE of its block's launch. -/
def State.ageLimit (s : State) (b : Bin) : Nat :=
  (((s.blockAt? b.core b.slot).bind (fun k => s.launch? k.key.part k.key.lnum)).map (fun l => l.d.age)).getD 0

/-- Whether AGE cycles have passed since a bin's oldest thread was filed. -/
def State.binAged (s : State) (b : Bin) : Bool := decide (b.oldest + s.ageLimit b ≤ s.cycle)

/-- A bin emitted, and the threads that wait unfiled given what it freed. -/
def State.emitAndFile (s : State) (b : Bin) : State := (s.emitBin b).fileUnfiled b.core

/-- Emission by age. -/
def execBinEmitAge (core bin : Nat) (s : State) : Res :=
  .next (match s.bins.find? (fun b => b.core == core && b.id == bin) with
    | some b => if s.binAged b then s.emitAndFile b else s
    | none => s)

/-- Whether no course of a core is eligible on any quadrant. A course that could issue but for the quadrants that chains hold is counted as eligible, and
so is one with an instruction in flight: R162 does not say (DESIGN CHOICE, log 1). -/
def State.coreQuiet (s : State) (core : Nat) : Bool := !(s.courses.any (fun c => c.core == core && s.eligible c))

/-- Emission of the oldest bin of a core without an eligible course. -/
def execBinEmitIdle (core : Nat) (s : State) : Res :=
  .next (match s.oldestBin core with
    | some b => if s.coreQuiet core then s.emitAndFile b else s
    | none => s)

/-- The oldest bin of a core whose emission waits for a course record. -/
def State.deferredBin (s : State) (core : Nat) : Option Bin :=
  (s.bins.filter (fun b => b.core == core && b.full)).foldl (fun r b =>
    match r with
    | none => some b
    | some x => if b.oldest < x.oldest then some b else r) none

/-- Whether a core has a thread that waits unfiled. -/
def State.hasUnfiled (s : State) (core : Nat) : Bool :=
  s.blocks.any (fun b => b.core == core && b.threads.any (fun t => decide (t.stat = .unfiled)))

/-- A waiting emission proceeds once a course record is free, and the unfiled threads once a bin is. -/
def execBinEmitDeferred (core : Nat) (s : State) : Res :=
  .next (
    let s1 := match s.deferredBin core with
      | some b => if s.courseCount core < 128 then s.emitBin b else s
      | none => s
    s1.fileUnfiled core)

/-- Whether a core needs a course record: an emission or a thread waits for one. -/
def State.needsRecord (s : State) (core : Nat) : Bool :=
  decide (s.courseCount core ≥ 128) && ((s.deferredBin core).isSome || s.hasUnfiled core)

/-- Whether a course may be refiled (R163; which of them is refiled, and when, is unspecified, log 49): partial, at a chain's end, outside any
handler; and a record is needed, or its next PC is the key of a
bin of its block and class. -/
def State.mayRefile (s : State) (x : Ctx) : Bool :=
  let n := x.c.members.length
  decide (0 < n) && decide (n < 32) && decide (x.c.chain = 0) && x.c.reinj.isEmpty && x.c.frame.isNone && decide (x.c.stat = .ready) &&
  (s.needsRecord x.core ||
    s.bins.any (fun b => b.core == x.core && b.slot == x.c.slot && b.key == x.pc &&
      b.producer == x.l.d.isProducer ((x.c.members.head?.map (·.2)).getD 0)))

/-- A partial course refiled into bins at the end of a chain. -/
def execCourseRefile (core course : Nat) (s : State) : Res :=
  .next (match s.ctxOf core course with
    | none => s
    | some x =>
      if s.mayRefile x then
        ((s.delCourse core course).fileAt x.b.key (x.c.members.map (·.2)) x.pc).fileUnfiled core
      else s)

/-! ### Frames (R402) -/

/-- The trap of a course that found every frame in use, delivered once a frame is free. -/
def execTrapFrameWaitEnd (core course : Nat) (s : State) : Res :=
  .next (match s.ctxOf core course with
    | none => s
    | some x =>
      match x.c.stat with
      | .frame t =>
        if s.frameCount core ≥ 32 then s
        else
          let c : Course := { x.c with stat := .ready, resume := if x.c.reinj.isEmpty then [] else x.c.resume }
          (s.updCourse core course (fun _ => c)).takeTrap { x with c := c } t (x.c.resume.headD 0)
      | _ => s)

/-! ### Stamps (R20) -/

/-- A stamp that a thread, or as thread 1,024 the core's MCC, waits on has been written or evicted: its condition is tested again. -/
def execStampReevaluate (core slot tl : Nat) (s : State) : Res :=
  .next (
    if tl = 1024 then s.retestMcc core
    else
      match s.blockAt? core slot with
      | some b => s.retest b.key tl
      | none => s)

end Sys2Proof.Machine
end

