-- ==== Sys2Proof/Machine/Recovery.lean ====
section
/-!
DEFINITION. RPOPEN and RPSEAL (R441, R442), the acknowledgement of a seal, and the seal on the Plate (R443).
-/

namespace Sys2Proof.Machine

/-- PROTECT 14: recovery points are not configured (R401, R441). -/
def pointStop : Stop :=
  .trap { rank := rankExec, code := cProtect, aux0 := 0, aux1 := 0, aux2 := 0, aux3 := 14 }

/-- The lanes of RPOPEN or RPSEAL: each names its point, and all trap where the ring is not there. -/
def pointLane (s : State) (x : Ctx) (v : List Nat) : Except Stop (LaneRes × State) :=
  if (s.ringOf x.b.key.part).isNone then .error pointStop else .ok (LaneRes.value (v.headD 0), s)

/-- RPOPEN, per lane in ascending order; every lane is filed when it leaves. -/
def execRpopen (h : Hd) (d n : Opnd) (s : State) : Res :=
  let sh := shapeM (.rpopen h d n) h [(n, .w32)] (some (d, 32))
  s.lanesWith sh (fun x st _ _ v => pointLane st x v) (fun x outs t =>
    let r := outs.foldl (fun (r : State × List LaneOut × List (Nat × Nat × Option Wait)) o =>
      let p := BitVec.ofNat 32 o.res.val
      match r.1.rpopenLane x.b.key p with
      | (some st, u) => (u, r.2.1 ++ [{ o with res := LaneRes.value st }], r.2.2 ++ [(o.lane, o.tl, none)])
      | (none, u) => (u, r.2.1, r.2.2 ++ [(o.lane, o.tl, some (waitAt u .rpopen sh.i (p.setWidth 64) 0 0 none))])) (t, [], [])
    (writeLanes sh x r.2.1 r.1).partWays x sh.size r.2.2 false)

/-- RPSEAL, per lane in ascending order: the first of the open point seals it and waits, the others wait with it. -/
def execRpseal (h : Hd) (d n : Opnd) (s : State) : Res :=
  let sh := shapeM (.rpseal h d n) h [(n, .w32)] (some (d, 32))
  s.lanesWith sh (fun x st _ _ v => pointLane st x v) (fun x outs t =>
    let ring := (t.ringOf x.b.key.part).getD []
    let r := outs.foldl (fun (r : State × List LaneOut × List (Nat × Nat × Option Wait)) o =>
      let p := BitVec.ofNat 32 o.res.val
      match (r.1.noteRing x.b.key.part).rpsealLane x.b.key p ring with
      | (some st, _, u) =>
        (if st = 2 then u else u.acquire (x.agent o.tl) x.core, r.2.1 ++ [{ o with res := LaneRes.value st }],
         r.2.2 ++ [(o.lane, o.tl, none)])
      | (none, own, u) =>
        (u, r.2.1,
         r.2.2 ++ [(o.lane, o.tl, some (waitAt u .rpseal sh.i (p.setWidth 64) (if own then 1 else 0) 0 none))])) (t, [], [])
    (writeLanes sh x r.2.1 r.1).partWays x sh.size r.2.2 false)

/-- The agents of the lanes that seal for a partition. -/
def State.sealers (s : State) (p : Nat) : List Agent :=
  (s.blocks.filter (fun b => b.key.part == p)).flatMap (fun b =>
    (b.threads.filter (fun t => match t.stat with | .waiting w => w.kind == .rpseal && w.x == 1 | _ => false)).map
      (fun t => .thread b.key t.tl))

/-- Whether the cumulative release of a seal is complete (log 24): the sealing lane's accesses are performed, and no durable store waits for
the eave buffer. -/
def State.sealReleased (s : State) (p : Nat) : Bool :=
  s.durp.isEmpty && (s.sealers p).all (fun a => s.settled a)

/-- The point closes and is acknowledged. -/
def execSealReleaseDone (part : Nat) (s : State) : Res :=
  .next (match s.part? part with
    | none => s
    | some q =>
      if !q.sealing || s.rollbacks.any (fun r => r.discard.contains part) then s
      else
        let s1 := (s.sealers part).foldl (fun t a => t.settle a) s
        if s1.sealReleased part then
          (s1.updPart part (fun q => { q with rpc := 0, rpa := q.rpc, sealing := false })).retestPoints part
        else s1)

/-! ### The seal (R443) -/

/-- The pages of a point, by ascending virtual address. -/
def State.pointPages (s : State) (p n : Nat) : List (UEnt × Nat) :=
  sortBy (fun e => e.1.va) (s.und.filterMap (fun u =>
    match u.point with
    | some (q, m, f) => if q = p ∧ m = n then some (u, f) else none
    | none => none))

/-- The digest of pages as sealed. -/
def State.pointDigest (s : State) (pages : List (Nat × Nat × Nat)) : List Byte :=
  sha384 (pages.flatMap (fun e => natLE 8 e.1 ++ s.storedRun e.2.1 e.2.2))

/-- A seal record. -/
def sealRecord (state p n lnum pages : Nat) (digest : List Byte) : List Byte :=
  natLE 2 state ++ zeros 1 ++ natLE 1 p ++ natLE 4 n ++ natLE 4 lnum ++ natLE 4 pages ++ digest

/-- The device address of point `n`'s record in a ring. -/
def ringSlot (ring : List Nat) (n : Nat) : Nat := ring.getD (n % 256 / 64) 0 + 64 * (n % 64)

/-- Every line of the eave buffer drained, and everything on its way accepted and drained. -/
def State.drainAll (s : State) : State :=
  (List.range (s.durp.length + s.eave.length + 1)).foldl (fun t _ =>
    let t1 := t.acceptAll
    (List.range t1.eave.length).foldl (fun u _ => u.drainLine) t1) s

/-- The pages of a point sealed: each shadow becomes the primary, the page is marked swapped, and the former primary returns to the pool (R21, R154,
R443). -/
def State.swapPoint (s : State) (pages : List (UEnt × Nat)) : State :=
  pages.foldl (fun t e =>
    ((t.updUnd e.1.base (fun v => { v with prim := e.2, point := none, swapped := true })).poolGive e.1.prim e.1.size).dropPage e.1.base e.1.size) s

/-- The seal of an acknowledged point as one step: its record, the exchange of its pages, the commit, %rps. The Plate's writes into the ring
wait where a page of it needs a shadow that the pool cannot give, and the exchange for the host to give up what it caches of the pages (R21, R142);
the record is durable before the exchange shows (R145). -/
def execPlateSeal (part : Nat) (s : State) : Res :=
  .next (match s.part? part with
    | none => s
    | some q =>
      match q.sealNow with
      | none => s
      | some m =>
        if q.sealing || decide (q.rpa.toNat ≠ m.n) || decide (q.rps.toNat ≥ m.n) then s
        else
          let s1 := s.drainAll
          let pages := s1.pointPages part m.n
          let held := s1.hostIn (pages.map (fun e => e.1.base))
          let digest := s1.pointDigest (pages.map (fun e => (e.1.va, e.2, e.1.size)))
          let record := sealRecord 2 part m.n m.lnum pages.length digest
          if !held.isEmpty then s1.snoopHost held
          else
          match s1.storeAt none none (.dev (ringSlot m.ring m.n)) record with
          | .error w => s.asked w
          | .ok s2 =>
            ((s2.acceptAll.swapPoint pages).updPart part (fun q => { q with rps := BitVec.ofNat 32 m.n, sealNow := none })).retestPoints part)

end Sys2Proof.Machine
end

