-- ==== Sys2Proof/Machine/Observe.lean ====
section
/-!
DEFINITION. The observation engine: CTRRD, PMARK and TSRD (R465, R466), counters (R467), PC samples (R470), the shadow port (R476), the
debugger (R477, R478), and global time (R464).
-/

namespace Sys2Proof.Machine

/-! ### Instructions (R465, R466) -/

/-- What CTRRD reads on the issuing core. -/
def ctrValue (s : State) (x : Ctx) (act : Bool) (g i : Nat) : Nat :=
  let p := x.b.key.part
  let ctl := (s.oreg p 0x20).toNat
  if !ctl.testBit 2 || decide (g > ctl % 4) then 0
  else if act then (s.actcyc.get (4 * p + g)).toNat
  else (s.counter p x.core g i).toNat

/-- CTRRD reads a counter in each active lane. -/
def execCtrrd (h : Hd) (d : Opnd) (act : Bool) (grp : BitVec 2) (ctr : BitVec 3) (s : State) : Res :=
  s.lanes (shapeX (.ctrrd h d act grp ctr) h [] (some (d, 64)) (some 0))
    (fun x st _ _ _ => .ok (LaneRes.value (ctrValue st x act grp.toNat ctr.toNat), st.burn))

/-- PMARK counts, and makes one trace record per active lane, ascending (R471). -/
def execPmark (h : Hd) (tag : BitVec 16) (a : Opnd) (s : State) : Res :=
  let sh := shapeX (.pmark h tag a) h [(a, .w32)] none none
  s.lanesWith sh (fun _ st _ _ v => .ok (LaneRes.value (v.headD 0), st))
    (fun x outs t =>
      let t0 := if outs.isEmpty then t else t.markTriggers x.b.key.part x.core [tag.toNat] []
      let t1 := (sortBy (fun o => o.lane) outs).foldl (fun t o =>
        t.trace x.core x.b.key.part (nameOf x.b.key o.tl x.core) 0x02 0 (x.c.quad.getD 0) (1 <<< o.lane : BitVec 32) x.pc
          (BitVec.ofNat 32 o.res.val) (tag.setWidth 32)) (t0.count x.core 0x0D outs.length)
      commitLanes sh x outs t1)

/-- TSRD reads global time; with ORD only after every earlier access of the thread has been performed at device scope. -/
def execTsrd (h : Hd) (d : Opnd) (ord : Bool) (s : State) : Res :=
  s.lanes (shapeX (.tsrd h d ord) h [] (some (d, 64)) (some 0))
    (fun x st _ t _ =>
      if ord && !st.releasable (x.agent t.tl) .dev then .error (.wait (.drain .dev))
      else .ok (LaneRes.value (st.ns % 2 ^ 64), st))

/-! ### Counters (R467, R468) -/

/-- Whether a counter-group rotation of a partition is due: one every 2^16 cycles, the first when that time begins anew after it was enabled. -/
def Partition.rotationDue (q : Partition) (cycle : Nat) : Bool := decide (q.rot < cycle / 65536)

/-- The active group of a partition rotates. -/
def execCounterGroupRotate (part : Nat) (s : State) : Res :=
  .next (match s.part? part with
    | none => s
    | some q =>
      if q.rotationDue s.cycle then
        s.updPart part (fun q => { q with group := (q.group + 1) % ((s.oreg part 0x20).toNat % 4 + 1), rot := s.cycle / 65536 })
      else s)

/-- A partition's counters and active-cycle counts cleared. -/
def State.clearCounters (s : State) (part : Nat) : State :=
  { s with ctr := s.ctr.filter (fun e => !s.coreIn part (e.1 / 32)), actcyc := s.actcyc.filter (fun e => e.1 / 4 != part) }

/-- The owner's write of CTRSEL of a group, which clears the partition's counters. -/
def execCtrsel (agent : AgentId) (part grp : Nat) (x : W64) (s : State) : Res :=
  .next (
    if !s.isOwner agent then s.nonOwner
    else if part ≥ 8 ∨ grp ≥ 4 then s
    else (s.setReg (0x200000 + 0x1000 * part + 8 * grp) x).clearCounters part)

/-! ### PC samples (R469, R470) -/

/-- The oldest resident course of a core (R385). -/
def State.oldestCourse (s : State) (core : Nat) : Option Course := s.oldestOf (s.courses.filter (fun c => c.core == core))

/-- Whether PCSHIFT of a partition turns sampling on, with the exponent of its period. -/
def State.sampling (s : State) (part : Nat) : Option Nat :=
  let n := (s.oreg part 0x20).toNat / 2 ^ 8 % 32
  if 10 ≤ n ∧ n ≤ 24 then some n else none

/-- The stall reason of a course that does not issue (R469), where what holds it says; that of a ready course depends on timing alone (log 13). -/
def State.courseReason (s : State) (c : Course) : Option Nat :=
  match c.stat with
  | .ready => if ((s.blockAt? c.core c.slot).bind (fun b => s.launch? b.key.part b.key.lnum)).any (·.halted) then some 0xE else none
  | .presence _ _ => some 0x5
  | .qpush _ => some 0xB
  | .copyEntries _ => some 0x9
  | .peer _ | .pool _ | .snoop _ | .drain _ => some 0x4
  | .frame _ | .trap _ | .fault _ _ => some 0xC
  | .debug _ => some 0xE

/-- The stall reason of a waiting thread (R469). -/
def WKind.reason : WKind → Nat
  | .bar | .gbar => 0xA
  | .cpyq => 0x9
  | .wait | .xbar | .qpop | .rpopen | .rpseal => 0xB

/-- The reason of a core without a resident course: the wait of the thread that has waited longest, or IDLE (R469). -/
def State.waitReason (s : State) (core : Nat) : Nat :=
  let ws := (s.blocks.filter (fun b => b.core == core)).flatMap (fun b =>
    b.threads.filterMap (fun t => match t.stat with | .waiting w => some w | _ => none))
  ((ws.foldl (fun r w =>
    match r with
    | none => some w
    | some v => if w.since < v.since then some w else r) (none : Option Wait)).map (fun w => w.kind.reason)).getD 0

/-- The reasons that depend on timing alone: DEP, PIPE, BANK, MEM, STRM, TLB, FETCH and THROT (R469). -/
def timingReasons : List Nat := [0x1, 0x2, 0x3, 0x4, 0x6, 0x7, 0x8, 0xD]

/-- The PC sample of a quadrant on which a course issues in its cycle: it names that course, with no reason (DESIGN CHOICE, log 13). -/
def State.sampleIssue (s : State) (x : Ctx) (quad : Nat) : State :=
  if s.samples.contains (x.core, quad) then
    ({ s with samples := s.samples.filter (· != (x.core, quad)) }).trace x.core x.b.key.part (nameOf x.b.key (x.c.lowestTl x.c.mask) x.core) 0x01 0
      quad x.c.mask x.pc 0 0
  else s

/-- The PC sample of a quadrant on which none issues, where one is due: it names the core's oldest resident course with its next PC and its reason, or,
with no course resident, no thread. Where the reason depends on timing alone, the event brings it. -/
def execPcSample (part core quad : Nat) (reason : Byte) (s : State) : Res :=
  .next (
    if !s.coreIn part core || !s.samples.contains (core, quad) then s
    else
      let s1 : State := { s with samples := s.samples.filter (· != (core, quad)) }
      match (s.oldestCourse core).bind (fun c => s.ctxOf core c.id) with
      | some x =>
        (match (s.courseReason x.c).orElse (fun _ => if timingReasons.contains reason.toNat then some reason.toNat else none) with
         | some r => s1.trace core part (nameOf x.b.key (x.c.lowestTl x.c.mask) core) 0x01 r quad x.c.mask x.pc 0 0
         | none => s)
      | none => s1.trace core part (nameOf { part := part, lnum := 0, bl := 0 } 0xFFFF core) 0x01 (s.waitReason core) quad 0 0 0 0)

/-- The samples of a cycle: one for each quadrant of a sampling partition's cores every 2^PCSHIFT cycles, counted from the quadrant's reset (R470). -/
def State.dueSamples (s : State) : List (Nat × Nat) :=
  s.partitions.flatMap (fun q =>
    match s.sampling q.id with
    | some n =>
      ((List.range 768).filter (fun c => s.coreIn q.id c && decide ((s.cycle - (aget? s.dieCycle (dieOf c)).getD 0) % 2 ^ n = 0))).flatMap
        (fun c => (List.range 4).map (fun k => (c, k)))
    | none => [])

/-! ### The shadow port (R476) -/

/-- The value of a register of a thread as the shadow port reads it; none where the operand is not accepted. -/
def shadowValue (b : Block) (l : Launch) (t : Thread) (opnd sel : Nat) : Option W64 :=
  if opnd ≥ 512 then none
  else if 0x1F0 ≤ opnd ∧ opnd ≤ 0x1F6 then
    (if sel = 0 then some (if t.pred (Fin.ofNat 8 (opnd - 0x1F0)) then 1 else 0) else none)
  else
    match Opnd.ofCode opnd with
    | some (.k n) => if sel ≤ 9 ∧ n.val < l.d.accs then some ((t.acc n.val).seg sel) else none
    | some (.v n) => if sel = 0 ∧ n.val < l.d.regs then some ((t.v.get n.val).setWidth 64) else none
    | some (.o n) => if sel = 0 then some ((t.o.get n.val).setWidth 64) else none
    | some (.b n) => if sel = 0 then some ((b.b.get n.val).setWidth 64) else none
    | some (.c n) => if sel = 0 then some ((l.consts.get n.val).setWidth 64) else none
    | _ => none

/-- The thread that bytes 11:0 of a NAME find, in the lowest partition that holds one (log 25). -/
def State.namedThread (s : State) (name : List Byte) : Option (Block × Launch × Thread) :=
  (List.range 8).findSome? (fun p =>
    let k : BKey := { part := p, lnum := fieldLE name 0 4, bl := fieldLE name 4 6 }
    match s.block? k, s.launch? k.part k.lnum with
    | some b, some l =>
      ((b.thread? (fieldLE name 10 2)).bind (fun t => if t.stat = .exited then none else some (b, l, t)))
    | _, _ => none)

/-- A shadow request of the owner and its reply in SHRSP. -/
def execShadowRead (agent : AgentId) (name : List Byte) (opnd : BitVec 16) (sel : Byte) (s : State) : Res :=
  .next (
    if !s.isOwner agent then s.nonOwner
    else
      match (s.namedThread name).bind (fun r => shadowValue r.1 r.2.1 r.2.2 opnd.toNat sel.toNat) with
      | some v => (s.setReg 0x300020 1).setReg 0x300028 v
      | none => (s.setReg 0x300020 2).setReg 0x300028 0)

/-! ### Attaching and detaching (R477) -/

/-- A course held for the debugger goes on: behind its BRK, or at the instruction of its comparator hit, which does not hit again there. -/
def State.debugContinue (s : State) (core id : Nat) : State :=
  match s.ctxOf core id with
  | none => s
  | some x =>
    match x.c.stat, x.c.frame with
    | .debug t, some f =>
      (s.resumeFrame x.b.key core id f).updCourse core id (fun c => { c with skipCmp := !t.after })
    | _, _ => s

/-- A launch that was halted goes on: its held courses continue, and its other courses issue again. -/
def State.unhalt (s : State) (part lnum : Nat) : State :=
  if (s.launch? part lnum).any (·.halted) then
    (s.courses.foldl (fun t c =>
      if (s.blockAt? c.core c.slot).any (fun b => b.key.part == part && b.key.lnum == lnum) then t.debugContinue c.core c.id else t) s
      ).updLaunch part lnum (fun l => { l with halted := false })
  else s

/-- The partition and launch number in DBGATT. -/
def State.dbgLaunch (s : State) : Nat × Nat := let r := (s.reg 0x300100).toNat; (r / 2 ^ 32 % 8, r % 2 ^ 32)

/-- DBGATT written: the launch that loses its debugger goes on. -/
def State.setDbgatt (s : State) (part lnum : Nat) : State :=
  let old := s.dbgLaunch
  let s1 := s.setReg 0x300100 (BitVec.ofNat 64 (if lnum % 2 ^ 32 = 0 then 0 else lnum % 2 ^ 32 + part % 8 * 2 ^ 32))
  if old.2 ≠ 0 ∧ s1.dbgLaunch ≠ old then s1.unhalt old.1 old.2 else s1

/-- The owner attaches a debugger. -/
def execDbgattAttach (agent : AgentId) (part lnum : Nat) (s : State) : Res :=
  .next (if s.isOwner agent then s.setDbgatt part lnum else s.nonOwner)

/-- The owner detaches the debugger. -/
def execDbgattDetach (agent : AgentId) (s : State) : Res :=
  .next (if s.isOwner agent then s.setDbgatt 0 0 else s.nonOwner)

/-- A record of the supervisor that names a trap of a course (R421): ADDR is the faulting address or offset, where the cause has one. -/
def trapRec (x : Ctx) (t : TrapInfo) (type : Nat) (flags : BitVec 8) (by_ : GSrc) : GRec :=
  let lane := (maskLanes t.mask).headD 0
  let a0 := t.aux0.getD lane 0
  let addressed := t.code == cMisalign || t.code == cBounds || t.code == cPage || t.code == cProtect || t.code == cPoison || t.code == cCopyRights
  { type := type, flags := flags, src := if t.code = cStreamFault ∨ t.code = cStreamOver ∨ t.code = cStreamUnbound then 3 else 0,
    part := x.b.key.part, core := x.core, aux2 := t.aux2, aux3 := t.aux3,
    addr := if t.va ≠ 0 then t.va else if addressed then (t.aux1 ++ a0) else 0, pc := t.pc, mask := t.mask, tl := BitVec.ofNat 32 (x.c.lowestTl t.mask),
    bl := BitVec.ofNat 64 x.b.key.bl, lnum := BitVec.ofNat 32 x.b.key.lnum, by_ := by_ }

/-- The supervisor holds a course whose DEBUG it took, names it in a record, and halts its launch. -/
def execDebugHalt (core course : Nat) (s : State) : Res :=
  .next (match s.ctxOf core course with
    | none => s
    | some x =>
      match x.c.stat with
      | .trap t =>
        if t.code = cDebug ∧ !x.c.inHandler ∧ s.attached x.b.key.part x.b.key.lnum then
          ((s.updCourse core course (fun c => { c with stat := .debug t })).gutter (trapRec x t 0x0400 0 .none)).updLaunch
            x.b.key.part x.b.key.lnum (fun l => { l with halted := true })
        else s
      | _ => s)

/-! ### Saving, editing and restoring (R478) -/

/-- The attached launch, if it is halted. -/
def State.haltedLaunch (s : State) : Option Launch :=
  (s.launch? s.dbgLaunch.1 s.dbgLaunch.2).bind (fun l => if l.halted then some l else none)

/-- The owner has a block of the halted launch saved to an image. -/
def execDebugSave (agent : AgentId) (core slot image : Nat) (s : State) : Res :=
  .next (
    if !s.isOwner agent then s.nonOwner
    else
      match s.haltedLaunch, s.blockAt? core slot with
      | some l, some b =>
        if b.key.part ≠ l.part ∨ b.key.lnum ≠ l.lnum ∨ image = 0 ∨ image % 64 ≠ 0 then s
        else
          let s1 := b.agents.foldl (fun t a => t.settle a) s
          match s1.blockAt? core slot with
          | some c =>
            if !(s1.blockSnoops l c image).isEmpty then s1.snoopHost (s1.blockSnoops l c image)
            else if s1.blockAtRest c then
                (s1.saveBlock l c image).updLaunch l.part l.lnum (fun l => { l with images := l.images ++ [image] })
              else s1
          | none => s
      | _, _ => s)

/-- The record that puts a block saved for the debugger back at the place that its unit keeps; slot and dispatch number are the command's. -/
def Launch.heldBind (l : Launch) (v : Saved) (b : Bind) : Option Bind :=
  let u := v.bl / l.d.unitSize
  let r := v.bl % l.d.unitSize
  (l.placed.find? (fun p => p.1 == u)).bind (fun p =>
    (p.2[r]?).map (fun core =>
      let d := l.roles.getD 0 (0, 0)
      let o := p.2.headD core
      { bl := v.bl, valid := true, core := core, slot := b.slot, role := if l.d.gangw = 0 then 0xFFFFFFFF else BitVec.ofNat 32 r,
        gx0 := o % 32 - d.1, gy0 := o / 32 - d.2, seq := b.seq, image := v.image }))

/-- One block of the halted launch restored where it stood, with its checks; the gang barrier comes from the first block of a gang. -/
def State.debugRestoreOne (s : State) (l : Launch) (b : Bind) : State :=
  match l.saved.find? (fun v => v.bl == b.bl) with
  | none => s
  | some v =>
    if l.heldBind v b ≠ some b ∨ b.slot ≥ 8 ∨ (s.blockAt? b.core b.slot).isSome ∨ !b.valid ∨
        !s.hasRoom l b.core (s.coursesFor l b.bl) then s.restoreRefused l b
    else if s.copyInto { part := l.part, lnum := l.lnum, bl := v.bl } then s
    else if s.imageLost l v then s.endPoisoned l.part l.lnum
    else
      let c := s.imageCheck l v
      if c ≠ 0 then s.restoreFails l v.bl c
      else
        let u := v.bl / l.d.unitSize
        let s1 := s.updLaunch l.part l.lnum (fun l => { l with saved := l.saved.filter (fun w => w.bl != v.bl) })
        let s2 := if l.d.gangw ≠ 0 ∧ v.bl = u * l.d.unitSize then
            let g := s1.gangBarrierOf v
            s1.updLaunch l.part l.lnum (fun l => { l with gbars := if g.isOpen then aput l.gbars u g else adel l.gbars u })
          else s1
        (s2.restoreBlock l v u b).writeBinds l.part l.lnum [b]

/-- The owner has a saved block of the halted launch restored. -/
def execDebugRestore (agent : AgentId) (part lnum : Nat) (bind : Bind) (s : State) : Res :=
  .next (
    if !s.isOwner agent then s.nonOwner
    else
      match s.haltedLaunch with
      | some l => if l.part = part ∧ l.lnum = lnum then s.debugRestoreOne l bind else s
      | none => s)

/-- The owner has every saved block restored, and issue enabled again. -/
def execDebugResume (agent : AgentId) (binds : List Bind) (s : State) : Res :=
  .next (
    if !s.isOwner agent then s.nonOwner
    else
      match s.haltedLaunch with
      | none => s
      | some l =>
        let s1 := binds.foldl (fun t b =>
          match t.launch? l.part l.lnum with
          | some m => if m.halted && m.live then t.debugRestoreOne m b else t
          | none => t) s
        match s1.launch? l.part l.lnum with
        | some m =>
          if m.live && m.saved.any (fun v => m.placed.any (fun p => p.1 == v.bl / m.d.unitSize)) then s1 else s1.unhalt l.part l.lnum
        | none => s1)

/-- The owner runs the checks on an image of the attached launch without restoring it. -/
def execDbgchk (agent : AgentId) (image : Nat) (s : State) : Res :=
  .next (
    if !s.isOwner agent then s.nonOwner
    else
      match (s.launch? s.dbgLaunch.1 s.dbgLaunch.2).bind (fun l => (l.saved.find? (fun v => v.image == image)).map (fun v => (l, v))) with
      | some (l, v) => s.setReg 0x300108 (BitVec.ofNat 64 (debugCheck s l v (s.imageReader v.image)))
      | none => s)

/-! ### Global time (R464) -/

/-- Whether a launch's watchdog counts: a block is resident and no debugger halts it (R396). -/
def State.wdogRuns (s : State) (l : Launch) : Bool :=
  !l.halted && s.blocks.any (fun b => b.key.part == l.part && b.key.lnum == l.lnum)

/-- Reference time passes, in twelfths of a nanosecond: for the watchdogs and for throttled islands too (R396, R486). -/
def State.pass (s : State) (d : Nat) : State :=
  { s with
      time12 := s.time12 + d,
      launches := s.launches.map (fun l => if s.wdogRuns l then { l with wdog12 := l.wdog12 + d } else l),
      islands := s.islands.map (fun i => if i.2.throt then (i.1, { i.2 with us := i.2.us + d }) else i) }

/-- PTP slews the rate of global time, by at most 500 ppm either way. -/
def execPtpDiscipline (ppm : Int) (s : State) : Res :=
  .next (if -500 ≤ ppm ∧ ppm ≤ 500 then { s with slew := ppm } else s)

/-- The owner steps the time forward. -/
def execTimeStep (agent : AgentId) (ns : Nat) (s : State) : Res :=
  .next (
    if !s.isOwner agent then s.nonOwner
    else s.pass (12 * ns - s.time12))

end Sys2Proof.Machine
end

