-- ==== Sys2Proof/Machine/Supervise.lean ====
section
/-!
DEFINITION. The supervisor's events: causes it takes (R398, R399, R407), replayable faults (R408, R420), and the gutter queue's registers
(R422, R423, R491).
-/

namespace Sys2Proof.Machine

/-! ### Causes (R398, R399, R407) -/

/-- Whether the supervisor answers a cause with containment (R398, R432). -/
def containedCause (code : Nat) : Bool := code == cPoison || code == cSdc

/-- The record of a matrix fault of a block's MCC (R342, R421). -/
def faultRec (k : BKey) (core : Nat) (f : MFault) (flags : BitVec 8) (by_ : GSrc) : GRec :=
  { type := f.cause, flags := flags, src := 1, part := k.part, core := core, aux2 := 0, aux3 := f.aux1.setWidth 32, addr := f.aux0, pc := f.pc,
    mask := 0, tl := 0, bl := BitVec.ofNat 64 k.bl, lnum := BitVec.ofNat 32 k.lnum, by_ := by_ }

/-- The record of a running block's matrix fault. -/
def mccRec (x : MCtx) (flags : BitVec 8) (by_ : GSrc) : GRec := faultRec x.b.key x.core x.m.fault flags by_

/-- The fault frame in the image of a saved block (R394). -/
def State.savedFault (s : State) (v : Saved) : MFault :=
  let rd := s.imageReader v.image
  let o := rd 48 8 + 64
  { pc := BitVec.ofNat 64 (rd o 8), cause := rd (o + 8) 2, aux0 := BitVec.ofNat 64 (rd (o + 16) 8), aux1 := BitVec.ofNat 64 (rd (o + 24) 8) }

/-- A cause whose fate is fatal: its record, and the launch ended. -/
def State.fatalCause (s : State) (r : GRec) (part lnum : Nat) : State := (s.gutter r).endFatal part lnum

/-- The supervisor takes a course's cause, or as course 0 the core's matrix fault, where its fate is fatal: any cause of a handler, and otherwise
all but the replayable, the contained, and DEBUG, which without a debugger resumes at once. -/
def execSupervisorTrapTake (core course : Nat) (s : State) : Res :=
  .next (
    if course = 0 then
      match s.mctx core with
      | none => s
      | some x =>
        match x.m.stat with
        | .fault none =>
          if x.m.fault.cause = cPage ∨ containedCause x.m.fault.cause then s
          else s.fatalCause (mccRec x 1 .none) x.b.key.part x.b.key.lnum
        | _ => s
    else
      match s.ctxOf core course with
      | none => s
      | some x =>
        match x.c.stat with
        | .trap t =>
          if x.c.inHandler then s.fatalCause (trapRec x t t.code 1 .none) x.b.key.part x.b.key.lnum
          else if t.replayable || containedCause t.code then s
          else if t.code = cDebug then
            (if s.attached x.b.key.part x.b.key.lnum then s
             else (s.updCourse core course (fun c => { c with stat := .debug t })).debugContinue core course)
          else s.fatalCause (trapRec x t t.code 1 .none) x.b.key.part x.b.key.lnum
        | _ => s)

/-- A replayable cause of a course, or as course 0 of the core's MCC: it is held, and its replayable record is raised once (R420). -/
def execPage (core course : Nat) (s : State) : Res :=
  .next (
    if course = 0 then
      match s.mctx core with
      | none => s
      | some x =>
        if x.m.stat = .fault none ∧ x.m.fault.cause = cPage ∧ !s.slowAsked (.mcc x.b.key) then s.gutter (mccRec x 2 (.mcc x.b.key)) else s
    else
      match s.ctxOf core course with
      | none => s
      | some x =>
        match x.c.stat with
        | .trap t =>
          if t.replayable && !x.c.inHandler then
            (s.updCourse core course (fun c => { c with stat := .fault t none })).gutter (trapRec x t t.code 2 (.course core course))
          else s
        | _ => s)

/-! ### The gutter queue (R422, R423, R491) -/

/-- A record that waits, or a held FATAL one, is written once the ring has room for it. -/
def execGutterRecordWaitEnd (s : State) : Res := .next s.gutterPump

/-- Whether a record has left the ring. -/
def State.gqConsumed (s : State) (seq : W32) : Bool := decide ((seq - gqHead s).toNat ≥ s.gqUsed)

/-- Answered records that have left the ring need no more be known. -/
def State.gqForget (s : State) : State := { s with gopen := s.gopen.filter (fun g => !(g.answered && s.gqConsumed g.seq)) }

/-- A REPL record that has not been answered. -/
def State.gqAsked (s : State) (seq : W32) : Option GOpen := s.gopen.find? (fun g => g.seq == seq && !g.answered)

/-- A record marked answered. -/
def State.gqAnswer (s : State) (seq : W32) : State :=
  { s with gopen := s.gopen.map (fun g => if g.seq == seq then { g with answered := true } else g) }

/-- The host answers retry: the source resumes. -/
def execGqackRetry (seq : W32) (s : State) : Res :=
  .next (match s.gqAsked seq with
    | some g => ((s.gqAnswer seq).retrySrc g.by_).gqForget
    | none => s)

/-- The launch of a record's source, with its fatal record; a block saved since is on no core, as the Plate's records say (log 51). -/
def State.fatalSource (s : State) (by_ : GSrc) : Option (GRec × Nat × Nat) :=
  match by_ with
  | .course core id => (s.ctxOf core id).bind (fun x =>
      match x.c.stat with
      | .fault t _ => some (trapRec x t t.code 1 .none, x.b.key.part, x.b.key.lnum)
      | _ => none)
  | .mcc k =>
    (match s.mccOf k with
     | some m => some (faultRec k m.core m.fault 1 .none, k.part, k.lnum)
     | none => (s.savedOf k).bind (fun v => v.mfault.map (fun _ => (faultRec k plateCore (s.savedFault v) 1 .none, k.part, k.lnum))))
  | .copy id recv line => (s.copy? id).map (fun c =>
      (c.gutterRec cPage 1 (if recv = stampRecv then line else 128 * line) true .none, c.key.part, c.key.lnum))
  | .none => none

/-- The host answers fatal: the launch of the source ends (R399). -/
def execGqackFatal (seq : W32) (s : State) : Res :=
  .next (match s.gqAsked seq with
    | some g =>
      (match s.fatalSource g.by_ with
       | some (r, p, n) => ((s.gqAnswer seq).fatalCause r p n).gqForget
       | none => (s.gqAnswer seq).gqForget)
    | none => s)

/-- The host's write of GQHEAD takes effect only where EXPECT is its value. -/
def execGqhead (agent : AgentId) (expect new : W32) (s : State) : Res :=
  .next (
    if agent = 0 ∨ agent > 4 ∨ gqHead s ≠ expect then s
    else (s.setReg 0x110 (new.setWidth 64)).gqForget)

/-- An owner write whose value breaks a constraint of its register (R490). -/
def State.refusedWrite (s : State) (off : Nat) (x : W64) : State :=
  s.gutter { GRec.plate 0x0204 with addr := BitVec.ofNat 64 off, aux2 := x.setWidth 32 }

/-- Every held FATAL record written, in order, as far as they fit. -/
def State.writeHeld (s : State) : State := (List.range s.gheld.length).foldl (fun t _ => if t.gheld.isEmpty then t else t.gutterPump) s

/-- The owner's write of GQBASE makes the queue usable again. -/
def execGqbase (agent : AgentId) (addr : W64) (s : State) : Res :=
  .next (
    if !s.isOwner agent then s.nonOwner
    else if addr.toNat % 2 ^ 18 ≠ 0 then s.refusedWrite 0x100 addr
    else { (s.setReg 0x100 addr) with gqBroken := false }.writeHeld)

/-- The first write of the ring that fails makes the queue unusable, and is an error of the link controller. -/
def execGqRingWriteFail (s : State) : Res :=
  .next (
    if s.gqUnusable then s
    else ({ s with gqBroken := true }).bankError unitLink true 2 (gqBase s) 0 false)

end Sys2Proof.Machine
end

