-- ==== Sys2Proof/Machine/Errors.lean ====
section
/-!
DEFINITION. Errors: the error banks (R426 to R428), the Trelvy vote (R430), suspect scores and quarantine (R431), containment (R432), die
reset (R435, R436), the eave buffer (R437), and the in-field scan with its repairs (R445, R446).
-/

namespace Sys2Proof.Machine

/-! ### Error banks (R426 to R428) -/

/-- The physical core that a UNITID names, if it names one. -/
def coreUnit (u : BitVec 16) : Option Nat :=
  let d := u.toNat / 2 ^ 13
  if d < 4 ∧ u.toNat / 2 ^ 10 % 8 = 0 then some (208 * d + u.toNat % 1024) else none

/-- The logical core that a physical core serves. -/
def State.logicalCore (s : State) (phys : Nat) : Option Nat := (List.range 768).find? (fun c => s.physCore c == phys)

/-- Whether an error at a place marks data POISON. -/
def marksData : Sys2Proof.ErrSite → Bool
  | .control _ => false
  | .other => false
  | _ => true

/-- Every launch with a block on a core of a die. -/
def State.launchesOnDie (s : State) (die : Nat) : List (Nat × Nat) :=
  (s.blocks.filter (fun b => dieOf b.core == die)).foldl (fun t b => insertNew t (b.key.part, b.key.lnum)) []

/-- The marks of an uncorrectable error (R428). -/
def State.markSite (s : State) (e : Sys2Proof.ErrSite) : State :=
  match e with
  | .line pa =>
    (match s.physLoc pa with
     | .dev a => { s with poison := insertNew s.poison (s.live a / 128) }
     | .host a => { s with hostPoison := insertNew s.hostPoison (a / 128) }
     | _ => s)
  | .scratch core slot line =>
    (match s.blockAt? core slot with
     | some b => if line < s.scratchLines b.key then s.markPoison (.scr b.key (128 * line)) else s
     | none => s)
  | .reg core slot tl r =>
    (match s.blockAt? core slot with
     | some b =>
       (match s.launch? b.key.part b.key.lnum with
        | some l =>
          if r < l.d.regs + 8 then s.updThread b.key tl (fun t => { t with poison := insertNew t.poison (markAt l.d.regs r) }) else s
        | none => s)
     | none => s)
  | .latch core course n =>
    s.updCourse core course (fun c =>
      let h := c.latch n
      if h.valid then c.setLatch n { h with poison := 0xFFFFFFFF } else c)
  | .acc core slot tl k =>
    (match s.blockAt? core slot with
     | some b => s.updThread b.key tl (fun t => if k < t.k.length then t.setAcc k { t.acc k with poison := true } else t)
     | none => s)
  | .control die => s.containMany (s.launchesOnDie die) 0
  | .other => s

/-- What an error adds to the score of the physical core whose unit found it (R431). -/
def State.scoreError (s : State) (e : Sys2Proof.ErrInfo) (phys : Nat) : State :=
  if e.uc then (if e.kind = 0 then s.addScore phys 8 else s)
  else
    let b := s.bank e.unit
    let s1 := s.setBank { b with corr := (b.corr + 1) % 256 }
    if b.corr + 1 ≥ 256 then s1.addScore phys 1 else s1

/-- A unit detects an error: its bank, the marks, and for a core its score. -/
def execErrorDetect (e : Sys2Proof.ErrInfo) (s : State) : Res :=
  .next (
    let s1 := s.bankError e.unit e.uc e.kind e.addr e.synd (e.uc && marksData e.site)
    let s2 := if e.uc then s1.markSite e.site else s1
    match coreUnit e.unit with
    | none => s2
    | some p =>
      let s3 := s2.scoreError e p
      match s3.logicalCore p with
      | some c => s3.quarantineNow c 0
      | none => s3)

/-- The owner reads a bank at offset 0: the record goes into its read buffer, and the bank is clear. -/
def execBankClearRead (agent : AgentId) (unit : BitVec 16) (s : State) : Res :=
  .next (
    if !s.isOwner agent then s
    else
      let b := s.bank unit
      (s.setBank { Bank.empty unit with buf := b.bytes, corr := b.corr }).send (.mgmt agent (BitVec.ofNat 64 (fieldLE b.bytes 0 8))))

/-! ### The Trelvy vote (R430) -/

/-- The code of a decision in the record of a vote. -/
def voteCode : Vote → Nat
  | .checksumWrong => 0
  | .arrayWrong => 1
  | .undecided => 2

/-- Whether a core can serve as vote core for another: of the same die, in service, its matrix engine free. -/
def State.canVote (s : State) (core vc : Nat) : Bool :=
  vc != core && dieOf vc == dieOf core && decide (vc < 768) && s.inService vc && (s.mcc? vc).isNone

/-- What a vote decides: P' passes its own flashing or not, and equals P, the product of the stopped core's array, unless that product is wrong, for
P' is then the exact product (R321). -/
def VoteSt.decision (w : VoteSt) (pass : Bool) : Vote :=
  if !pass then .undecided else if w.arrayBad then .arrayWrong else .checksumWrong

/-- A vote ends: its record, and its effect. In both decided rows the exact product drains. -/
def State.endVote (s : State) (core : Nat) (other : Option Nat) (pass : Bool) : State :=
  match s.mctx core, s.votes.find? (fun w => w.core == core) with
  | some x, some w =>
    if x.m.stat ≠ .vote then s
    else
      let v := w.decision pass
      let s1 := ({ s with votes := s.votes.filter (fun w => w.core != core) }).gutter
        { GRec.plate 0x0306 with part := x.b.key.part, core := core, lnum := BitVec.ofNat 32 x.b.key.lnum, bl := BitVec.ofNat 64 x.b.key.bl,
                                 aux3 := BitVec.ofNat 32 (voteCode v) }
      let good : State → State := fun t => (t.drainHead core w.op []).updMcc core (fun m => m.goesOn)
      match v with
      | .checksumWrong => (good s1).scoreCore core 4 (BitVec.ofNat 16 cSdc)
      | .arrayWrong => (good s1).scoreCore core 8 (BitVec.ofNat 16 cSdc)
      | .undecided =>
        let s2 := (s1.contain x.b.key.part x.b.key.lnum (BitVec.ofNat 16 cSdc)).scoreCore core 4 (BitVec.ofNat 16 cSdc)
        match other with
        | some vc => s2.scoreCore vc 4 (BitVec.ofNat 16 cSdc)
        | none => s2
  | _, _ => s

/-- The vote core's third result decides; whether it passes its own flashing comes with the event. -/
def execTrelvyVote (core voteCore : Nat) (pass : Bool) (s : State) : Res :=
  .next (if s.canVote core voteCore then s.endVote core (some voteCore) pass else s)

/-- The lowest core that can serve as vote core. -/
def State.voteCoreFor (s : State) (core : Nat) : Option Nat := (List.range 768).find? (fun c => s.canVote core c)

/-- With no vote core free within 50 us, firmware computes the result itself; it counts as passing, so the vote is decided. -/
def execVoteTimeout (core since : Nat) (s : State) : Res :=
  .next (match s.votes.find? (fun w => w.core == core) with
    | none => s
    | some w =>
      if w.since ≠ since ∨ s.ns < w.since + 50000 ∨ (s.voteCoreFor core).isSome then s
      else s.endVote core none true)

/-! ### Containment (R432, R434) -/

/-- Whether a thread or the MCC of a launch has raised a cause that the supervisor answers with containment. -/
def State.raised (s : State) (part lnum : Nat) (cause : Nat) : Bool :=
  containedCause cause &&
  (s.blocks.filter (fun b => b.key.part == part && b.key.lnum == lnum)).any (fun b =>
    s.courses.any (fun c => c.core == b.core && c.slot == b.slot && !c.inHandler &&
      (match c.stat with | .trap t => t.code == cause | _ => false)) ||
    s.mccs.any (fun m => decide (m.key = b.key) && decide (m.stat = .fault none) && m.fault.cause == cause))

/-- Whether firmware acting for a launch has consumed POISON: in its descriptor or tables (R373), or in a dependence stamp at its queue's head (R376). -/
def State.firmwarePoison (s : State) (l : Launch) : Bool :=
  decide (l.stat = .queued) && (l.badRead || s.atHead l && l.d.deps.any (fun e => decide (e.1 ≠ 0) &&
    (match s.resolve l.part e.1.toNat true false with
     | .ok loc _ => s.poisonRun loc 8
     | _ => false)))

/-- The supervisor contains a launch for a cause raised in it; one for which firmware consumed POISON is ended as fatal. -/
def execContainment (part lnum : Nat) (cause : BitVec 16) (s : State) : Res :=
  .next (
    if s.raised part lnum cause.toNat then s.contain part lnum cause
    else
      match s.launch? part lnum with
      | some l =>
        if cause.toNat = cPoison ∧ s.firmwarePoison l then s.endPoisoned part lnum
        else s
      | none => s)

/-! ### Scores and quarantine (R431) -/

/-- Nanoseconds of 24 hours. -/
def dayNs : Nat := 86400000000000

/-- Whether a halving of the scores is due. -/
def State.halveDue (s : State) : Bool := decide (s.halved < s.ns / dayNs)

/-- Every suspect score shifted right by one. -/
def execSuspectHalve (s : State) : Res :=
  .next (
    if s.halveDue then
      { s with halved := s.halved + 1, scores := s.scores.foldl (fun f e => File.set f e.1 (e.2 / 2)) [] }
    else s)

/-- Whether a core is to be quarantined at its next idle point. -/
def State.quarantineDue (s : State) (core : Nat) : Bool :=
  decide (s.scoreOf core ≥ 32) && !s.quarantine.contains core && !s.degraded.contains core && s.coreIdle core

/-- A core at a score of 32 or more is quarantined while idle. -/
def execQuarantineIdle (core : Nat) (s : State) : Res := .next (if s.quarantineDue core then s.quarantined core else s)

/-! ### Die reset (R13, R146, R435, R436) -/

/-- The lines of host memory that a die alone holds modified, with bytes of no stated value (R13; log 12). -/
def State.loseHostLines (s : State) (die : Nat) : State :=
  let lost := (s.hostLines.filter (fun e => e.2.1 == die && decide (e.2.2 = .m))).map (·.1)
  { s.burn with
      host := lost.foldl (fun m x => m.write (64 * x) ((List.range 64).map (fun i => Config.freeByte s.free (64 * x + i)))) s.host,
      hostLines := s.hostLines.filter (fun e => e.2.1 != die) }

/-- Whether a durable store is lost with a die: no buffer has accepted it yet, and an agent of the die made it or its line is homed there (R146). -/
def DurStore.lostWith (d : DurStore) (die : Nat) : Bool := decide (d.die = some die) || (Config.homeDie (d.addr / 128)).val == die

/-- What a die holds alone is lost: its outstanding accesses and pushes, L1 words, TLB entries, host lines, and the durable stores not yet accepted
that its agents made or that are homed on it (R13, R146). What such a store wrote leaves every cache: no later load returns it. -/
def State.loseDie (s : State) (die : Nat) : State :=
  let gone := s.durp.any (fun d => d.lostWith die)
  { s.loseHostLines die with
      pend := s.pend.filter (fun p => dieOf p.core != die), l1 := s.l1.filter (fun w => dieOf w.core != die && !gone),
      blocks := s.blocks.map (fun b => if dieOf b.core == die then { b with pushes := [] } else b),
      owner := s.owner.filter (fun e => dieOf e.2 != die && !gone), cover := [],
      ro := s.ro.filter (fun w => dieOf w.core != die && !gone),
      durp := s.durp.filter (fun d => !d.lostWith die),
      partitions := s.partitions.map (fun q =>
        { q with xlat := (q.xlat.map (fun x => { x with dies := x.dies.filter (· != die) })).filter (fun x => !x.dies.isEmpty) }),
      scanning := s.scanning.filter (fun c => dieOf c != die) }

/-- The marks of a die reset: accumulator lines of which the die held a partial, the other partials merged first, and every non-durable line
that it held modified or that is homed on it with its dirty-above bit set. -/
def State.markReset (s : State) (die : Nat) : State :=
  let lost := (s.parts.filter (fun p => p.die == die)).map (·.line)
  let s1 : State := { s with parts := s.parts.filter (fun p => p.die != die) }
  let s2 := lost.foldl (fun t l => t.homeMerge l) s1
  let dirty := (s2.dirty.filter (fun d => (d.2 == die || (Config.homeDie d.1).val == die) && !s2.durableLine d.1)).map (·.1)
  let marks := (lost ++ dirty).foldl (fun m l => insertNew m l) s2.poison
  { s2 with poison := marks, dirty := s2.dirty.filter (fun d => !(d.2 == die || (Config.homeDie d.1).val == die)) }

/-- The partitions with a core on a die. -/
def State.partsOnDie (s : State) (die : Nat) : List Nat :=
  (List.range 8).filter (fun p => (List.range 768).any (fun c => dieOf c == die && s.coreIn p c))

/-- The reset of a compute die (R435): lost lines are marked, every started launch of its partitions is contained, together, and their open points
are discarded. -/
def State.resetDie (s : State) (die : Nat) : State :=
  if die ≥ 4 then s
  else
    let ps := s.partsOnDie die
    let s1 := (s.loseDie die).markReset die
    let s2 : State := { s1 with diesOut := insertNew s1.diesOut die, dieCycle := aput s1.dieCycle die s1.cycle }
    let hit := (s2.launches.filter (fun l => ps.contains l.part && (decide (l.stat = .started) || decide (l.stat = .held)))).map
      (fun l => (l.part, l.lnum))
    s2.containMany hit 0 (BitVec.ofNat 32 die) ps

/-- A compute die is reset. -/
def execDieReset (die : Nat) (s : State) : Res := .next (s.resetDie die)

/-- A digest of 48 bytes whose value the spec leaves to the implementation (log 16). -/
def digest48 (n : Nat) : List Byte := (List.range 48).map (fun i => (Config.measurement n).getD i 0)

/-- The logical core map measured again (R446, R456). -/
def State.remeasureMap (s : State) : State := { s.burn with measured := aput s.measured 5 (digest48 (8 + s.free)) }

/-- Spare cores of a die. -/
def spareCores : Nat := 16

/-- The logical cores of a die, in the order of their physical places. -/
def coresOfDie (die : Nat) : List Nat :=
  (List.range 192).map (fun i => die % 2 * 16 + i % 16 + 32 * (die / 2 * 12 + i / 16))

/-- The logical cores of a die whose own physical core failed the scan. -/
def failedOf (die : Nat) (bad : List Nat) : List Nat :=
  ((List.range 192).filter (fun i => bad.contains (208 * die + i))).map (fun i => (coresOfDie die).getD i 0)

/-- The spares of a die that passed the scan, by their place among the spares. -/
def goodSpares (die : Nat) (bad : List Nat) : List Nat := (List.range spareCores).filter (fun k => !bad.contains (208 * die + 192 + k))

/-- The logical core map of a die from a scan (R23, R446): a core that failed is served by a spare that passed, both in ascending order, and is
degraded where the spares have run out (log 34). -/
def State.mapDie (s : State) (die : Nat) : State :=
  let bad := failedOf die s.badCores
  let good := goodSpares die s.badCores
  { s with coreMap := s.coreMap ++ (bad.zip good).map (fun e => (e.1, 208 * die + 192 + e.2)),
           spares := aput s.spares die (match (good.take bad.length).getLast? with
             | some k => k + 1
             | none => 0),
           degraded := s.degraded ++ bad.drop good.length }

/-- A die scanned anew and its logical core map rebuilt, as at a start (R435, log 34). Which of its physical cores fail is open, for no event tells it;
a map that changes is measured again (R456). -/
def State.rescanDie (s : State) (die : Nat) : State :=
  let elsewhere : Nat → Bool := fun c => dieOf c != die
  let bad := ((List.range 208).filter (fun i => Config.freeBool (s.free + i))).map (fun i => 208 * die + i)
  let s1 : State := { s.burn 208 with
    badCores := s.badCores.filter (fun c => c / 208 != die) ++ bad, coreMap := s.coreMap.filter (fun e => elsewhere e.1),
    degraded := s.degraded.filter elsewhere, quarantine := s.quarantine.filter elsewhere, repairs := s.repairs.filter elsewhere,
    scanned := (coresOfDie die).foldl (fun l c => aput l c s.ns) s.scanned }
  let s2 := s1.mapDie die
  if s2.coreMap = s.coreMap then s2 else s2.remeasureMap

/-- The cores of a reset die return to service, once the die has been scanned and its logical core map rebuilt (R435). -/
def execDieReturnToService (die : Nat) (s : State) : Res :=
  .next (
    if s.diesOut.contains die then
      let t := s.rescanDie die
      { t with diesOut := t.diesOut.filter (· != die) }
    else s)

/-! ### The eave buffer (R437) -/

/-- The oldest durable store on its way is accepted. -/
def execEaveAccept (s : State) : Res := .next s.acceptOne

/-- The oldest line drains to HBM. -/
def execEaveDrain (s : State) : Res := .next s.drainLine

/-! ### In-field scan and repair (R445, R446) -/

/-- The scan period in nanoseconds: SCANPER hours. -/
def State.scanPeriod (s : State) : Nat := (s.reg 0x2020).toNat * 3600000000000

/-- Idle cores whose last scan, or the start, lies a period back: they are scanned, an aborted scan again (R445). -/
def State.scansDue (s : State) : List Nat :=
  if s.ns < s.scanPeriod ∧ s.scanning.isEmpty then []
  else (List.range 768).filter (fun c =>
    s.inService c && s.coreIdle c && (s.scanning.contains c || decide ((aget? s.scanned c).getD 0 + s.scanPeriod ≤ s.ns)))

/-- The scan of an idle core: the first such event starts it, the next one compares its signature. A failing one removes the core. -/
def execInfieldScan (core : Nat) (pass : Bool) (s : State) : Res :=
  .next (
    if core ≥ 768 ∨ !s.coreIdle core ∨ s.diesOut.contains (dieOf core) then s
    else if !s.scanning.contains core then { s with scanning := s.scanning ++ [core] }
    else
      let s1 : State := { s with scanning := s.scanning.filter (· != core), scanned := aput s.scanned core s.ns }
      if pass then s1
      else
        let s2 := (s1.burn.addScore (s.physCore core) 255).bankError (s.unitCore core) (Config.freeBool s.free) 4 0 0 false
        let s3 := s2.gutter { GRec.plate 0x0305 with core := core }
        ({ s3 with repairs := insertNew s3.repairs core }).quarantineNow core 0)

/-- Dispatch takes a core back from its scan. -/
def execScanAbort (core : Nat) (s : State) : Res := .next { s with scanning := s.scanning.filter (· != core) }

/-- Whether a core waits for a spare at an idle point. -/
def State.repairDue (s : State) (core : Nat) : Bool :=
  (s.quarantine.contains core || s.repairs.contains core) && s.coreIdle core && !s.degraded.contains core

/-- The next spare of a die that passed the last start's scan and has not been taken yet, by its place among the spares (R23, R446, R479). -/
def State.nextSpare (s : State) (die : Nat) : Option Nat :=
  (List.range spareCores).find? (fun k =>
    decide ((aget? s.spares die).getD 0 ≤ k) && !s.badCores.contains (208 * die + 192 + k))

/-- A spare of the die takes a removed core's place in the logical core map; with none left the core is degraded. -/
def execSpareRepair (core : Nat) (s : State) : Res :=
  .next (
    if !s.repairDue core then s
    else
      let die := dieOf core
      let s1 : State := { s with repairs := s.repairs.filter (· != core) }
      match s.nextSpare die with
      | some k =>
        ({ s1 with coreMap := aput s1.coreMap core (208 * die + 192 + k), spares := aput s1.spares die (k + 1),
                   quarantine := s1.quarantine.filter (· != core) }).remeasureMap
      | none => { s1 with degraded := insertNew s1.degraded core })

end Sys2Proof.Machine
end

