-- ==== Sys2Proof/Machine/Integer.lean ====
section
/-!
DEFINITION. The integer instructions (R189 to R195), on the ALU pipe with latch l0. A two-source form has b in SRC0 and a in SRC1, a
three-source form a, b, c in SRC0 to SRC2 (R176).
-/

namespace Sys2Proof.Machine

/-! ### Readings and results (R190) -/

/-- A 32-bit source as an integer: sint, or uint under `u`. -/
def int32 (u : Bool) (x : Nat) : Int := if u then ((x % 2 ^ 32 : Nat) : Int) else sintOf 32 x

/-- A 64-bit source as an integer. -/
def int64 (u : Bool) (x : Nat) : Int := if u then ((x % 2 ^ 64 : Nat) : Int) else sintOf 64 x

/-- The result of width `w`: clamped to the range under SAT, else modulo 2^w. -/
def intResult (w : Nat) (u sat : Bool) (x : Int) : Nat :=
  let lo : Int := if u then 0 else -(2 ^ (w - 1))
  let hi : Int := if u then 2 ^ w - 1 else 2 ^ (w - 1) - 1
  (BitVec.ofInt w (if sat then max lo (min hi x) else x)).toNat

/-- The 32-bit pattern of an integer. -/
def pat32 (x : Int) : Nat := (BitVec.ofInt 32 x).toNat

/-- b, complemented under NB. -/
def maybeNot (nb : Bool) (b : Nat) : Nat := if nb then 2 ^ 32 - 1 - b % 2 ^ 32 else b

/-- The clamp of a shift amount (R190, R191). -/
def shAmt (n : Nat) : Nat := min n 32

/-! ### The shared forms -/

/-- d, a on the ALU. -/
def alu1 (s : State) (i : Instr) (h : Hd) (d a : Opnd) (f : Nat → Nat) : Res :=
  s.compute (shapeX i h [(a, .w32)] (some (d, 32)) (some 0)) (fun _ _ _ v => LaneRes.value (f (v.getD 0 0)))

/-- d, a, b on the ALU; `f` takes a and b. -/
def alu2 (s : State) (i : Instr) (h : Hd) (d a b : Opnd) (f : Nat → Nat → Nat) : Res :=
  s.compute (shapeX i h [(b, .w32), (a, .w32)] (some (d, 32)) (some 0))
    (fun _ _ _ v => LaneRes.value (f (v.getD 1 0) (v.getD 0 0)))

/-- d, a, b, c on the ALU. -/
def alu3 (s : State) (i : Instr) (h : Hd) (d a b c : Opnd) (f : Nat → Nat → Nat → Nat) : Res :=
  s.compute (shapeX i h [(a, .w32), (b, .w32), (c, .w32)] (some (d, 32)) (some 0))
    (fun _ _ _ v => LaneRes.value (f (v.getD 0 0) (v.getD 1 0) (v.getD 2 0)))

/-- The compact form `op d, b` is `op d, d, b` (R31, R176). -/
def alu2C (s : State) (i : Instr) (h : Ch) (d b : Opnd) (f : Nat → Nat → Nat) : Res :=
  s.compute (shapeC i h [(b, .w32), (d, .w32)] (some (d, 32)) (some 0))
    (fun _ _ _ v => LaneRes.value (f (v.getD 1 0) (v.getD 0 0)))

/-! ### The operations -/

def opAdd (u sat : Bool) (a b : Nat) : Nat := intResult 32 u sat (int32 u a + int32 u b)
def opSub (u sat : Bool) (a b : Nat) : Nat := intResult 32 u sat (int32 u a - int32 u b)
def opMul (u sat : Bool) (a b : Nat) : Nat := intResult 32 u sat (int32 u a * int32 u b)
def opMulh (u : Bool) (a b : Nat) : Nat := pat32 (int32 u a * int32 u b / 2 ^ 32)
def opMad (u sat : Bool) (a b c : Nat) : Nat := intResult 32 u sat (int32 u a * int32 u b + int32 u c)
def opMin (u : Bool) (a b : Nat) : Nat := pat32 (min (int32 u a) (int32 u b))
def opMax (u : Bool) (a b : Nat) : Nat := pat32 (max (int32 u a) (int32 u b))
def opAbs (sat : Bool) (a : Nat) : Nat := intResult 32 false sat (sintOf 32 a).natAbs
def opAdd64 (u sat : Bool) (a b : Nat) : Nat := intResult 64 u sat (int64 u a + int64 u b)
def opLea (u : Bool) (sh : Nat) (a b : Nat) : Nat := intResult 64 true false (((a % 2 ^ 64 : Nat) : Int) + int32 u b * 2 ^ sh)
def opAnd (nb : Bool) (a b : Nat) : Nat := a &&& maybeNot nb b
def opOr (nb : Bool) (a b : Nat) : Nat := a ||| maybeNot nb b
def opXor (nb : Bool) (a b : Nat) : Nat := a ^^^ maybeNot nb b
def opShl (a b : Nat) : Nat := a * 2 ^ shAmt b % 2 ^ 32
def opShr (a b : Nat) : Nat := a / 2 ^ shAmt b
def opSar (a b : Nat) : Nat := pat32 (sintOf 32 a / 2 ^ shAmt b)

/-- SHF (R191). -/
def opShf (left : Bool) (lo hi n : Nat) : Nat :=
  let cat := hi * 2 ^ 32 + lo
  if left then cat * 2 ^ shAmt n / 2 ^ 32 % 2 ^ 32 else cat / 2 ^ shAmt n % 2 ^ 32

/-- BFX (R192): the bits above 31 are bit 31 under U = 0, else 0. -/
def opBfx (u : Bool) (a pl : Nat) : Nat :=
  let pos := pl % 256
  let len := pl / 256 % 256
  if len = 0 then 0
  else
    let bits := (int32 u a / 2 ^ pos) % 2 ^ len
    if u then pat32 bits else pat32 (sintOf len bits.toNat)

/-- BFI (R192). -/
def opBfi (a ins pl : Nat) : Nat :=
  let pos := pl % 256
  let len := pl / 256 % 256
  let m := (2 ^ len - 1) * 2 ^ pos % 2 ^ 32
  (a &&& (2 ^ 32 - 1 - m)) ||| (ins * 2 ^ pos &&& m)

def opPopc (a : Nat) : Nat := (List.range 32).foldl (fun n i => n + (a.testBit i).toNat) 0
def opClz (a : Nat) : Nat := if a % 2 ^ 32 = 0 then 32 else 31 - Nat.log2 (a % 2 ^ 32)
def opBrev (a : Nat) : Nat := (List.range 32).foldl (fun n i => n + (a.testBit (31 - i)).toNat * 2 ^ i) 0

/-- Comparison (R194). -/
def cmpInt (c : Cmp) (a b : Int) : Bool :=
  match c with
  | .eq => decide (a = b)
  | .ne => decide (a ≠ b)
  | .lt => decide (a < b)
  | .le => decide (a ≤ b)
  | .gt => decide (a > b)
  | .ge => decide (a ≥ b)

/-- The mask that a comparison writes (R194). -/
def maskWord (x : Bool) : Nat := if x then 2 ^ 32 - 1 else 0

/-- Quotient toward zero (R193). -/
def opDiv (u : Bool) (a b : Nat) : Nat :=
  if b % 2 ^ 32 = 0 then 2 ^ 32 - 1 else pat32 ((int32 u a).tdiv (int32 u b))

/-- Remainder (R193). -/
def opRem (u : Bool) (a b : Nat) : Nat :=
  if b % 2 ^ 32 = 0 then a else pat32 (int32 u a - int32 u b * (int32 u a).tdiv (int32 u b))

/-- PRMT (R195). -/
def opPrmt (a b c : Nat) : Nat :=
  let cat := a + b * 2 ^ 32
  (List.range 4).foldl (fun n i =>
    let sel := c / 2 ^ (4 * i) % 16
    let byte := cat / 2 ^ (8 * (sel % 8)) % 256
    n + (if sel ≥ 8 then (if byte ≥ 128 then 255 else 0) else byte) * 2 ^ (8 * i)) 0

/-! ### The instructions -/

def execIaddC (h : Ch) (d s0 : Opnd) (s : State) : Res := alu2C s (.iaddC h d s0) h d s0 (opAdd false false)
def execIadd (h : Hd) (d a b : Opnd) (u sat : Bool) (s : State) : Res := alu2 s (.iadd h d a b u sat) h d a b (opAdd u sat)
def execIsubC (h : Ch) (d s0 : Opnd) (s : State) : Res := alu2C s (.isubC h d s0) h d s0 (opSub false false)
def execIsub (h : Hd) (d a b : Opnd) (u sat : Bool) (s : State) : Res := alu2 s (.isub h d a b u sat) h d a b (opSub u sat)
def execImul (h : Hd) (d a b : Opnd) (u sat : Bool) (s : State) : Res := alu2 s (.imul h d a b u sat) h d a b (opMul u sat)
def execImulh (h : Hd) (d a b : Opnd) (u : Bool) (s : State) : Res := alu2 s (.imulh h d a b u) h d a b (opMulh u)
def execImad (h : Hd) (d a b c : Opnd) (u sat : Bool) (s : State) : Res :=
  alu3 s (.imad h d a b c u sat) h d a b c (opMad u sat)
def execImin (h : Hd) (d a b : Opnd) (u : Bool) (s : State) : Res := alu2 s (.imin h d a b u) h d a b (opMin u)
def execImax (h : Hd) (d a b : Opnd) (u : Bool) (s : State) : Res := alu2 s (.imax h d a b u) h d a b (opMax u)
def execIabs (h : Hd) (d a : Opnd) (sat : Bool) (s : State) : Res := alu1 s (.iabs h d a sat) h d a (opAbs sat)

def execIadd64 (h : Hd) (d a b : Opnd) (u sat : Bool) (s : State) : Res :=
  s.compute (shapeX (.iadd64 h d a b u sat) h [(b, .w64), (a, .w64)] (some (d, 64)) (some 0))
    (fun _ _ _ v => LaneRes.value (opAdd64 u sat (v.getD 1 0) (v.getD 0 0)))

def execLea (h : Hd) (d a b : Opnd) (u : Bool) (sh : BitVec 3) (s : State) : Res :=
  s.compute (shapeX (.lea h d a b u sh) h [(b, .w32), (a, .w64)] (some (d, 64)) (some 0))
    (fun _ _ _ v => LaneRes.value (opLea u sh.toNat (v.getD 1 0) (v.getD 0 0)))

def execAndC (h : Ch) (d s0 : Opnd) (s : State) : Res := alu2C s (.andC h d s0) h d s0 (opAnd false)
def execAnd (h : Hd) (d a b : Opnd) (nb : Bool) (s : State) : Res := alu2 s (.and h d a b nb) h d a b (opAnd nb)
def execOrC (h : Ch) (d s0 : Opnd) (s : State) : Res := alu2C s (.orC h d s0) h d s0 (opOr false)
def execOr (h : Hd) (d a b : Opnd) (nb : Bool) (s : State) : Res := alu2 s (.or h d a b nb) h d a b (opOr nb)
def execXorC (h : Ch) (d s0 : Opnd) (s : State) : Res := alu2C s (.xorC h d s0) h d s0 (opXor false)
def execXor (h : Hd) (d a b : Opnd) (nb : Bool) (s : State) : Res := alu2 s (.xor h d a b nb) h d a b (opXor nb)
def execShlC (h : Ch) (d s0 : Opnd) (s : State) : Res := alu2C s (.shlC h d s0) h d s0 opShl
def execShl (h : Hd) (d a b : Opnd) (s : State) : Res := alu2 s (.shl h d a b) h d a b opShl
def execShrC (h : Ch) (d s0 : Opnd) (s : State) : Res := alu2C s (.shrC h d s0) h d s0 opShr
def execShr (h : Hd) (d a b : Opnd) (s : State) : Res := alu2 s (.shr h d a b) h d a b opShr
def execSar (h : Hd) (d a b : Opnd) (s : State) : Res := alu2 s (.sar h d a b) h d a b opSar
def execShf (h : Hd) (d lo hi n : Opnd) (left : Bool) (s : State) : Res :=
  alu3 s (.shf h d lo hi n left) h d lo hi n (opShf left)
def execBfx (h : Hd) (d a pl : Opnd) (u : Bool) (s : State) : Res := alu2 s (.bfx h d a pl u) h d a pl (opBfx u)
def execBfi (h : Hd) (d a ins pl : Opnd) (s : State) : Res := alu3 s (.bfi h d a ins pl) h d a ins pl opBfi
def execPopc (h : Hd) (d a : Opnd) (s : State) : Res := alu1 s (.popc h d a) h d a opPopc
def execClz (h : Hd) (d a : Opnd) (s : State) : Res := alu1 s (.clz h d a) h d a opClz
def execBrev (h : Hd) (d a : Opnd) (s : State) : Res := alu1 s (.brev h d a) h d a opBrev

/-- A compact MOV reads no destination as a source (R32). -/
def execMovC (h : Ch) (d s0 : Opnd) (s : State) : Res :=
  s.compute (shapeC (.movC h d s0) h [(s0, .w32)] (some (d, 32)) (some 0)) (fun _ _ _ v => LaneRes.value (v.getD 0 0))

def execMov (h : Hd) (d a : Opnd) (s : State) : Res := alu1 s (.mov h d a) h d a id

def execMovl (h : Hd) (d a : Opnd) (s : State) : Res :=
  s.compute (shapeX (.movl h d a) h [(a, .w64)] (some (d, 64)) (some 0)) (fun _ _ _ v => LaneRes.value (v.getD 0 0))

def execSel (h : Hd) (d a b : Opnd) (ps : Fin 8) (psn : Bool) (s : State) : Res :=
  s.compute (shapeX (.sel h d a b ps psn) h [(b, .w32), (a, .w32)] (some (d, 32)) (some 0))
    (fun _ _ t v => LaneRes.value (if t.pred ps != psn then v.getD 1 0 else v.getD 0 0))

def execIcmp (h : Hd) (pd : Fin 8) (d a b : Opnd) (u : Bool) (cmp : Cmp) (s : State) : Res :=
  s.compute { shapeX (.icmp h pd d a b u cmp) h [(b, .w32), (a, .w32)] (some (d, 32)) (some 0) with pd := pd }
    (fun _ _ _ v =>
      let r := cmpInt cmp (int32 u (v.getD 1 0)) (int32 u (v.getD 0 0))
      { LaneRes.value (maskWord r) with pd := r })

def execIdiv (h : Hd) (d a b : Opnd) (u : Bool) (s : State) : Res := alu2 s (.idiv h d a b u) h d a b (opDiv u)
def execIrem (h : Hd) (d a b : Opnd) (u : Bool) (s : State) : Res := alu2 s (.irem h d a b u) h d a b (opRem u)
def execPrmt (h : Hd) (d a b c : Opnd) (s : State) : Res := alu3 s (.prmt h d a b c) h d a b c opPrmt

end Sys2Proof.Machine
end

