-- ==== Sys2Proof/Machine/Float.lean ====
section
/-!
DEFINITION. The floating-point instructions on the FMA pipe (R196 to R201, R203 to R209): each rounds its exact result once.
-/

namespace Sys2Proof.Machine

/-! ### Sources and rounding (R196) -/

/-- A decoded source with ABS, then NEG. -/
def modded (neg abs : Bool) (x : FVal) : FVal :=
  let y := if abs then x.abs else x
  if neg then y.neg else y

/-- src(f, L) of R196 in a format. -/
def srcIn (g : FFmt) (neg abs : Bool) (x : Nat) : FVal := modded neg abs (g.decode x)

/-- An FP32 source. -/
def src32 (neg abs : Bool) (x : Nat) : FVal := srcIn fp32 neg abs x

/-- The operand that supplies the random bits. -/
def rndOpnd : Rnd → Option Opnd
  | .mode _ => none
  | .sr r => some r

/-- The rounding mode of a lane, its random bits read as the fourth source. -/
def rmOf (r : Rnd) (vals : List Nat) : RM :=
  match r with
  | .mode m => .mode m
  | .sr _ => .sr (vals.getD 3 0 % 65536)

/-- Whether an exact zero sum is -0 (R197). -/
def isRd : Rnd → Bool | .mode .rd => true | _ => false

/-- A value with what produced it: INV or DZ raised. -/
structure Exact where
  x : FVal
  fl : FFlags

/-- An exact result from a value and INV. -/
def exactOf (r : FVal × Bool) : Exact := { x := r.1, fl := if r.2 then flInv else 0 }

/-- The rounded result of a lane. -/
def rounded (g : FFmt) (rm : RM) (e : Exact) : LaneRes :=
  let (y, fl) := g.round rm e.x
  { LaneRes.value y with fl := fl ||| e.fl }

/-- Shape of an FMA-pipe instruction. -/
def shapeF (i : Instr) (h : Hd) (srcs : List (Opnd × Pos)) (r : Rnd) (d : Opnd) : Shape :=
  { shapeX i h srcs (some (d, 32)) (some 1) with rnd := rndOpnd r }

/-! ### Exact operations on decoded values -/

def addF (rd : Bool) (a b : FVal) : Exact := exactOf (a.add rd b)
def subF (rd : Bool) (a b : FVal) : Exact := exactOf (a.add rd b.neg)
def mulF (a b : FVal) : Exact := exactOf (a.mul b)

/-- a * b + c; Inf * 0 raises INV even when c is NaN (R197). -/
def fmaF (rd : Bool) (a b c : FVal) : Exact :=
  let p := a.mul b
  let q := p.1.add rd c
  { x := q.1, fl := if p.2 || q.2 then flInv else 0 }

/-- minimumNumber and maximumNumber with -0 below +0 (R198). -/
def minF (big : Bool) (a b : FVal) : FVal :=
  if a.isNan then b
  else if b.isNan then a
  else
    let c := a.cmp b
    let aLess : Bool := decide (c < 0) || (decide (c = 0) && a.sign && !b.sign)
    if aLess != big then a else b

/-- FCMP (R199). -/
def cmpF (c : FCmp) (a b : FVal) : Bool :=
  let nan := a.isNan || b.isNan
  let k := a.cmp b
  match c with
  | .eq => !nan && decide (k = 0)
  | .ne => nan || decide (k ≠ 0)
  | .lt => !nan && decide (k < 0)
  | .le => !nan && decide (k ≤ 0)
  | .gt => !nan && decide (k > 0)
  | .ge => !nan && decide (k ≥ 0)
  | .un => nan
  | .or => !nan

/-- FCLASS (R200). -/
def classF (x : Nat) : Nat :=
  match fp32.decode x with
  | .nan => 2 ^ 8
  | .inf s => if s then 1 else 2 ^ 7
  | .fin s m _ =>
    let sub := x / 2 ^ 23 % 256 == 0
    if m = 0 then (if s then 2 ^ 3 else 2 ^ 4)
    else if sub then (if s then 2 ^ 2 else 2 ^ 5)
    else if s then 2 ^ 1 else 2 ^ 6

/-- Bits kept of a quotient or a root before its sticky mark: more than any rounding looks at. -/
def tailBits : Nat := 64

/-- FDIV (R201). -/
def divF (rm : RM) (a b : FVal) : LaneRes :=
  let plain : Exact → LaneRes := fun e => rounded fp32 rm e
  match a, b with
  | .nan, _ => plain ⟨.nan, 0⟩
  | _, .nan => plain ⟨.nan, 0⟩
  | .inf _, .inf _ => plain ⟨.nan, flInv⟩
  | .inf s, .fin t _ _ => plain ⟨.inf (s != t), 0⟩
  | .fin s _ _, .inf t => plain ⟨.fin (s != t) 0 0, 0⟩
  | .fin s m e, .fin t n d =>
    if n = 0 then (if m = 0 then plain ⟨.nan, flInv⟩ else plain ⟨.inf (s != t), flDz⟩)
    else if m = 0 then plain ⟨.fin (s != t) 0 0, 0⟩
    else
      let (y, fl) := roundSigned fp32 rm (s != t) (magDiv m e n d tailBits)
      { LaneRes.value y with fl := fl }

/-- FSQRT (R201). -/
def sqrtF (rm : RM) (a : FVal) : LaneRes :=
  match a with
  | .nan => rounded fp32 rm ⟨.nan, 0⟩
  | .inf s => if s then rounded fp32 rm ⟨.nan, flInv⟩ else rounded fp32 rm ⟨.inf false, 0⟩
  | .fin s m e =>
    if m = 0 then rounded fp32 rm ⟨.fin s 0 0, 0⟩
    else if s then rounded fp32 rm ⟨.nan, flInv⟩
    else
      let (y, fl) := roundSigned fp32 rm false (magSqrt m e tailBits)
      { LaneRes.value y with fl := fl }

/-- FRND (R208): an integral FP32 value, never INX. -/
def rndF (rm : RM) (a : FVal) : Nat :=
  match a with
  | .fin s m e =>
    if m = 0 then fp32.signed s 0
    else
      let (n, _) := (⟨m, e, false⟩ : Mag).roundAt rm s 0
      (fp32.round (.mode .rn) (.fin s n 0)).1
  | x => (fp32.round (.mode .rn) x).1

/-- a * 2^n (R209). Beyond 600 either way every FP32 value overflows, or underflows, alike. -/
def scaleF (n : Int) (a : FVal) : FVal :=
  match a with
  | .fin s m e => .fin s m (if m = 0 then e else e + max (-600) (min 600 n))
  | x => x

/-! ### FP32 instructions -/

/-- FADD, FSUB and FMUL: a in SRC1, b in SRC0. -/
def fp2 (s : State) (i : Instr) (h : Hd) (d a b : Opnd) (r : Rnd) (m : SMod) (f : Bool → FVal → FVal → Exact) : Res :=
  s.compute (shapeF i h [(b, .w32), (a, .w32)] r d)
    (fun _ _ _ v => rounded fp32 (rmOf r v) (f (isRd r) (src32 m.n1 m.a1 (v.getD 1 0)) (src32 m.n0 m.a0 (v.getD 0 0))))

/-- The compact forms are rn with no modifier (R30). -/
def fp2C (s : State) (i : Instr) (h : Ch) (d b : Opnd) (f : Bool → FVal → FVal → Exact) : Res :=
  s.compute (shapeC i h [(b, .w32), (d, .w32)] (some (d, 32)) (some 1))
    (fun _ _ _ v => rounded fp32 (.mode .rn) (f false (fp32.decode (v.getD 1 0)) (fp32.decode (v.getD 0 0))))

def execFaddC (h : Ch) (d s0 : Opnd) (s : State) : Res := fp2C s (.faddC h d s0) h d s0 addF
def execFadd (h : Hd) (d a b : Opnd) (r : Rnd) (m : SMod) (s : State) : Res := fp2 s (.fadd h d a b r m) h d a b r m addF
def execFsub (h : Hd) (d a b : Opnd) (r : Rnd) (m : SMod) (s : State) : Res := fp2 s (.fsub h d a b r m) h d a b r m subF
def execFmulC (h : Ch) (d s0 : Opnd) (s : State) : Res := fp2C s (.fmulC h d s0) h d s0 (fun _ => mulF)
def execFmul (h : Hd) (d a b : Opnd) (r : Rnd) (m : SMod) (s : State) : Res :=
  fp2 s (.fmul h d a b r m) h d a b r m (fun _ => mulF)

/-- FFMA: a, b, c in SRC0 to SRC2. -/
def execFfma (h : Hd) (d a b c : Opnd) (r : Rnd) (m : SMod) (n2 : Bool) (s : State) : Res :=
  s.compute (shapeF (.ffma h d a b c r m n2) h [(a, .w32), (b, .w32), (c, .w32)] r d)
    (fun _ _ _ v => rounded fp32 (rmOf r v)
      (fmaF (isRd r) (src32 m.n0 m.a0 (v.getD 0 0)) (src32 m.n1 m.a1 (v.getD 1 0)) (src32 n2 false (v.getD 2 0))))

/-- FMIN and FMAX: RND rounds nothing here, and under `sr` its random bits are read all the same (R196). -/
def fpMin (s : State) (i : Instr) (h : Hd) (d a b : Opnd) (m : RSMod) (big : Bool) : Res :=
  s.compute (shapeF i h [(b, .w32), (a, .w32)] m.rnd d)
    (fun _ _ _ v => LaneRes.value (fp32.round (.mode .rn)
      (minF big (src32 m.src.n1 m.src.a1 (v.getD 1 0)) (src32 m.src.n0 m.src.a0 (v.getD 0 0)))).1)

def execFmin (h : Hd) (d a b : Opnd) (m : RSMod) (s : State) : Res := fpMin s (.fmin h d a b m) h d a b m false
def execFmax (h : Hd) (d a b : Opnd) (m : RSMod) (s : State) : Res := fpMin s (.fmax h d a b m) h d a b m true

def execFcmp (h : Hd) (pd : Fin 8) (d a b : Opnd) (cmp : FCmp) (m : SMod) (s : State) : Res :=
  s.compute { shapeF (.fcmp h pd d a b cmp m) h [(b, .w32), (a, .w32)] (.mode .rn) d with pd := pd }
    (fun _ _ _ v =>
      let r := cmpF cmp (src32 m.n1 m.a1 (v.getD 1 0)) (src32 m.n0 m.a0 (v.getD 0 0))
      { LaneRes.value (maskWord r) with pd := r })

def execFclass (h : Hd) (d : Opnd) (a : RSrc) (s : State) : Res :=
  s.compute (shapeF (.fclass h d a) h [(a.src, .w32)] a.rnd d) (fun _ _ _ v => LaneRes.value (classF (v.getD 0 0)))

def execFdiv (h : Hd) (d a b : Opnd) (r : Rnd) (m : SMod) (s : State) : Res :=
  s.compute (shapeF (.fdiv h d a b r m) h [(b, .w32), (a, .w32)] r d)
    (fun _ _ _ v => divF (rmOf r v) (src32 m.n1 m.a1 (v.getD 1 0)) (src32 m.n0 m.a0 (v.getD 0 0)))

def execFsqrt (h : Hd) (d a : Opnd) (r : Rnd) (n0 a0 : Bool) (s : State) : Res :=
  s.compute (shapeF (.fsqrt h d a r n0 a0) h [(a, .w32)] r d)
    (fun _ _ _ v => sqrtF (rmOf r v) (src32 n0 a0 (v.getD 0 0)))

def execFrnd (h : Hd) (d a : Opnd) (r : Rnd) (n0 a0 : Bool) (s : State) : Res :=
  s.compute (shapeF (.frnd h d a r n0 a0) h [(a, .w32)] r d)
    (fun _ _ _ v => LaneRes.value (rndF (rmOf r v) (src32 n0 a0 (v.getD 0 0))))

/-- FSCALE: a in SRC1, n in SRC0 (R209). -/
def execFscale (h : Hd) (d a n : Opnd) (r : Rnd) (n1 a1 : Bool) (s : State) : Res :=
  s.compute (shapeF (.fscale h d a n r n1 a1) h [(n, .w32), (a, .w32)] r d)
    (fun _ _ _ v => rounded fp32 (rmOf r v) ⟨scaleF (sintOf 32 (v.getD 0 0)) (src32 n1 a1 (v.getD 1 0)), 0⟩)

/-! ### Conversions (R203 to R206) -/

/-- The element of a 32-bit word that SEL chooses. -/
def elemOf (f : Fmt) (sel x : Nat) : Nat := x / 2 ^ (f.bits * sel) % 2 ^ f.bits

/-- One conversion: decode, round, extend; F2I sign-extends under U = 0. -/
def convert (s : State) (i : Instr) (h : Hd) (d a : Opnd) (dfmt sfmt : Fmt) (sel : BitVec 3) (uIn uOut signed : Bool) (r : Rnd) : Res :=
  s.compute (shapeF i h [(a, .elem sfmt)] r d)
    (fun _ _ _ v =>
      let x := sfmt.decode (elemOf sfmt sel.toNat (v.getD 0 0)) [] uIn
      let (y, fl) := dfmt.round (rmOf r v) x uOut
      { LaneRes.value (if signed then pat32 (sintOf dfmt.bits y) else y) with fl := fl })

def execFcvt (h : Hd) (d a : Opnd) (dfmt sfmt : Fmt) (sel : BitVec 3) (r : Rnd) (s : State) : Res :=
  convert s (.fcvt h d a dfmt sfmt sel r) h d a dfmt sfmt sel false false false r
def execI2f (h : Hd) (d a : Opnd) (dfmt sfmt : Fmt) (sel : BitVec 3) (u : Bool) (r : Rnd) (s : State) : Res :=
  convert s (.i2f h d a dfmt sfmt sel u r) h d a dfmt sfmt sel u false false r
def execF2i (h : Hd) (d a : Opnd) (dfmt sfmt : Fmt) (sel : BitVec 3) (u : Bool) (r : Rnd) (s : State) : Res :=
  convert s (.f2i h d a dfmt sfmt sel u r) h d a dfmt sfmt sel false u (!u) r

/-! ### Packed halves (R207) -/

/-- One half of PFOP. -/
def pfHalf (op : POp) (g : FFmt) (r : Rnd) (m : SMod) (k : Nat) (v : List Nat) : LaneRes :=
  let half : Nat → Nat := fun x => x / 2 ^ (16 * k) % 2 ^ 16
  let rm : RM := match r with
    | .mode t => .mode t
    | .sr _ => .sr (half (v.getD 3 0))
  let s0 := srcIn g m.n0 m.a0 (half (v.getD 0 0))
  let s1 := srcIn g m.n1 m.a1 (half (v.getD 1 0))
  match op with
  | .add => rounded g rm (addF (isRd r) s1 s0)
  | .mul => rounded g rm (mulF s1 s0)
  | .min => LaneRes.value (g.round (.mode .rn) (minF false s1 s0)).1
  | .max => LaneRes.value (g.round (.mode .rn) (minF true s1 s0)).1
  | .fma _ n2 => rounded g rm (fmaF (isRd r) s0 s1 (srcIn g n2 false (half (v.getD 2 0))))

def execPfop (h : Hd) (d a b : Opnd) (op : POp) (bf : Bool) (r : Rnd) (m : SMod) (s : State) : Res :=
  let f : Fmt := if bf then .bf16 else .f16
  let g : FFmt := if bf then fpB16 else fp16
  let srcs : List (Opnd × Pos) := match op with
    | .fma c _ => [(a, .elem f), (b, .elem f), (c, .elem f)]
    | _ => [(b, .elem f), (a, .elem f)]
  s.compute (shapeF (.pfop h d a b op bf r m) h srcs r d)
    (fun _ _ _ v =>
      let lo := pfHalf op g r m 0 v
      let hi := pfHalf op g r m 1 v
      { LaneRes.value (lo.val + hi.val * 2 ^ 16) with fl := lo.fl ||| hi.fl })

end Sys2Proof.Machine
end

