-- ==== Sys2Proof/Machine/Link.lean ====
section
/-!
DEFINITION. Translation's events (R417 to R419, R488), and the link engine: host accesses over CXL (R453, R454), attestation (R456), and peers
over UALink as home and as requester (R457 to R462).
-/

namespace Sys2Proof.Machine

/-! ### Translation (R417, R419, R488) -/

/-- A walk of a partition's tables fills the TLBs with what it finds (R419). -/
def execPageWalk (part va : Nat) (s : State) : Res := .next (s.noteLeaf part (s.xlate part (vaBits va)) [0, 1, 2, 3, 4])

/-- The owner invalidates every translation of a partition. -/
def execTlbinvAll (agent : AgentId) (part : Nat) (s : State) : Res :=
  .next (if s.isOwner agent then { s with tlbinv := s.tlbinv ++ [(part % 8, none)] } else s.nonOwner)

/-- The owner invalidates every translation of a partition that covers a page. -/
def execTlbinvPage (agent : AgentId) (part va : Nat) (s : State) : Res :=
  .next (if s.isOwner agent then { s with tlbinv := s.tlbinv ++ [(part % 8, some (vaBits va / 4096 * 4096))] } else s.nonOwner)

/-- Whether a partition's tables still map a page of the underlay table as durable at an address. -/
def State.mapsDurable (s : State) (p va base : Nat) : Bool :=
  match s.walk p va with
  | .leaf e _ _ pa => pteD e && decide (s.physLoc pa = .dev base)
  | _ => false

/-- The durable record of every frame that an invalidation has freed of its last durable mapping is removed, its lines drained (R145). -/
def State.pruneDurable (s : State) (p : Nat) (va : Option Nat) : State :=
  let hit : UEnt → Nat × Nat → Bool := fun u m =>
    m.1 == p && va.all (fun v => decide (m.2 ≤ v) && decide (v < m.2 + u.size)) && !s.mapsDurable m.1 m.2 u.base
  if s.und.any (fun u => u.durable && u.maps.any (hit u)) then
    let t := s.drainAll
    { t with und := t.und.map (fun u =>
        let ms := u.maps.filter (fun m => !hit u m)
        { u with maps := ms, durable := u.durable && !ms.isEmpty }) }
  else s

/-- The invalidation in progress completes in every core, TLB and walker of its partition. -/
def execTlbinvComplete (s : State) : Res :=
  .next (match s.tlbinv with
    | [] => s
    | (p, va) :: rest =>
      let s1 := ({ s with tlbinv := rest }).updPart p (fun q =>
        { q with xlat := q.xlat.filter (fun x => !(va.all (fun v => decide (x.va ≤ v) && decide (v < x.va + x.size)))) })
      s1.pruneDurable p va)

/-! ### Accesses from outside (R145, R454, R457) -/

/-- The lines that `n` bytes touch. -/
def linesAt (a n : Nat) : List Nat := if n = 0 then [] else (List.range ((a + n - 1) / 128 - a / 128 + 1)).map (· + a / 128)

/-- The bytes of a run by line. -/
def chunksAt (a : Nat) (bs : List Byte) : List (Nat × List Byte) :=
  (linesAt a bs.length).map (fun l =>
    let lo := max a (128 * l)
    (lo, (bs.drop (lo - a)).take (min (128 * l + 128) (a + bs.length) - lo)))

/-- Bytes of device memory read at their home by the host or a peer, after the merges they trigger, and whether a line is POISON. -/
def State.linkRead (s : State) (a n : Nat) : List Byte × Bool × State :=
  let s1 := (linesAt a n).foldl (fun t l => t.mergeFor (.dev (128 * l)) 128) s
  (s1.bytesAt (.dev a) n, (linesAt a n).any (fun l => s1.poisonAt (.dev (128 * l))), s1)

/-- Bytes of device memory written at their home by the host or a peer. -/
def State.linkStore (s : State) (a : Nat) (bs : List Byte) : Except Await State :=
  (chunksAt a bs).foldl (fun r c => r.bind (fun t => t.storeAt none none (.dev c.1) c.2)) (.ok s)

/-- A write from outside, performed in arrival order: a new one goes to the end of the line, the link engine tries its head again (log 1). A peer's
waits for the host's copies of its lines (R454), any waits for a shadow that the empty pool cannot give, with the Plate's record (R433), and one to a
durable line completes once the eave buffer has accepted it (R145). `done` is its completion. -/
def State.linkWrite (s : State) (i : Instr) (host : Bool) (a n : Nat) (f : State → Except Await State) (done : State → State) : State :=
  let retry := decide (s.cur = .link)
  if !retry && !s.linkWait.isEmpty then { s with linkWait := s.linkWait ++ [i] }
  else
    let w : State := if retry then s else { s with linkWait := [i] }
    let ls := linesAt a n
    if !host && ls.any (fun l => s.hdmHost.contains l) then w.snoopHost ls
    else
      let s0 : State := if host then { s with hdmHost := s.hdmHost.filter (fun l => !ls.contains l) } else s
      match f s0 with
      | .error (.page p) => w.poolRecord p
      | .error (.snoop _) => w
      | .ok t =>
        let durable : Bool := ls.any (fun l => durableIn t.und (128 * l))
        let u := if durable then t.acceptAll else t
        if durable && !u.durp.isEmpty then w else done { u with linkWait := if retry then u.linkWait.drop 1 else u.linkWait }

/-! ### The host (R453, R454) -/

/-- Whether a host access lies outside installed device memory or the decoder's range. -/
def State.hdmBad (s : State) (a n : Nat) : Bool := decide (a + n > s.hdmSize) || decide (a + n > devEnd) || n == 0

/-- The host reads exposed device memory. -/
def execHostHdmRead (addr n : Nat) (s : State) : Res :=
  .next (
    if s.hdmBad addr n then s.send .hostUr
    else
      let (bs, bad, s1) := s.linkRead addr n
      ({ s1 with hdmHost := (linesAt addr n).foldl (fun h l => insertNew h l) s1.hdmHost }).send (.hostData bs bad))

/-- The host writes exposed device memory; data that carries the poison indication marks its lines (R147, R452). -/
def execHostHdmWrite (addr : Nat) (data : LinkData) (s : State) : Res :=
  .next (
    if s.hdmBad addr data.bytes.length then s.send .hostUr
    else
      s.linkWrite (.hostHdmWrite addr data) true addr data.bytes.length (fun t => t.linkStore addr data.bytes)
        (fun t => (if data.bad then (linesAt addr data.bytes.length).foldl (fun u l => u.markPoison (.dev (128 * l))) t else t).send .hostDone))

/-- The host snoops a 64-byte line of its memory: the near slice supplies it where it holds it modified. An invalidation leaves it to the host, so
that what it holds from then on is open (log 26). -/
def execHostSnoop (line : Nat) (inv : Bool) (s : State) : Res :=
  .next (
    let modified := s.hostLines.any (fun e => e.1 == line && decide (e.2.2 = .m))
    let bs := s.bytesAt (.host (64 * line)) 64
    let s1 := if modified then s.send (.hostData bs (s.poisonAt (.host (64 * line)))) else s.send .hostDone
    if inv then
      let s2 := (s1.freeHost line).l1Stale none (.host (64 * line)) 64
      { s2.burn with host := s2.host.write (64 * line) ((List.range 64).map (fun i => Config.freeByte s.free i)) }
    else { s1 with hostLines := s1.hostLines.map (fun e => if e.1 == line then (line, e.2.1, .s) else e) })

/-- The host answers BISnpInv: it no longer caches the line, and what the firmware had to store there goes on. -/
def execBisnpResponse (line : Nat) (s : State) : Res :=
  .next (
    if s.bisnp.contains line then
      ({ s with bisnp := s.bisnp.filter (· != line), hdmHost := s.hdmHost.filter (· != line) } : State).retryFw.retryRollbacks
    else s)

/-! ### Attestation (R456) -/

/-- The digest of a measurement block. -/
def State.measure (s : State) (i : Nat) : List Byte := (aget? s.measured i).getD (digest48 i)

/-- A payload that SPDM 1.3 defines and the spec does not (log 16). -/
def State.spdmFree (s : State) (code : Nat) : State := s.burn.send (.spdm code (Config.spdmPayload s.free))

/-- A response where the responder is ready for its request, else SPDM's ERROR. -/
def State.spdmIf (s : State) (ok : Bool) (f : State) : State := if ok then f else s.send (.spdm 0x7F [])

/-- GET_VERSION starts a negotiation afresh. -/
def execSpdmGetVersion (s : State) : Res :=
  .next ({ s with spdm := { version := true, caps := false, algs := false, keyex := false, session := false } }.send
    (.spdm 0x04 [0x00, 0x13]))

/-- GET_CAPABILITIES. -/
def execSpdmGetCapabilities (s : State) : Res :=
  .next (s.spdmIf s.spdm.version ({ s with spdm := { s.spdm with caps := true } }.spdmFree 0x61))

/-- NEGOTIATE_ALGORITHMS: ECDSA on P-384, SHA-384 and AES-256-GCM. -/
def execSpdmNegotiateAlgorithms (s : State) : Res :=
  .next (s.spdmIf s.spdm.caps ({ s with spdm := { s.spdm with algs := true } }.spdmFree 0x63))

/-- GET_DIGESTS of the certificate slots 0 and 1. -/
def execSpdmGetDigests (s : State) : Res := .next (s.spdmIf s.spdm.algs (s.spdmFree 0x01))

/-- GET_CERTIFICATE of slot 0, the factory identity chain, or slot 1, the alias chain. -/
def execSpdmGetCertificate (slot : Nat) (s : State) : Res := .next (s.spdmIf (s.spdm.algs && decide (slot ≤ 1)) (s.spdmFree 0x02))

/-- CHALLENGE. -/
def execSpdmChallenge (slot : Nat) (s : State) : Res := .next (s.spdmIf (s.spdm.algs && decide (slot ≤ 1)) (s.spdmFree 0x03))

/-- The measurement blocks that an index asks for: one of them, or all under 0xFF. -/
def measuredIndices (i : Nat) : List Nat := if i = 0xFF then [1, 2, 3, 4, 5, 6] else if 1 ≤ i ∧ i ≤ 6 then [i] else []

/-- GET_MEASUREMENTS: the raw SHA-384 digests, each after its index. Index 0 asks for their number. -/
def execSpdmGetMeasurements (index : Nat) (s : State) : Res :=
  .next (
    let is := measuredIndices index
    s.spdmIf (s.spdm.algs && (decide (index = 0) || !is.isEmpty))
      (s.send (.spdm 0x60 (if index = 0 then [6] else is.flatMap (fun i => BitVec.ofNat 8 i :: s.measure i)))))

/-- KEY_EXCHANGE. -/
def execSpdmKeyExchange (s : State) : Res :=
  .next (s.spdmIf s.spdm.algs ({ s with spdm := { s.spdm with keyex := true } }.spdmFree 0x64))

/-- FINISH opens the session that a key exchange began. -/
def execSpdmFinish (s : State) : Res :=
  .next (s.spdmIf s.spdm.keyex ({ s with spdm := { s.spdm with keyex := false, session := true } }.spdmFree 0x65))

/-- END_SESSION. -/
def execSpdmEndSession (s : State) : Res :=
  .next (s.spdmIf s.spdm.session ({ s with spdm := { s.spdm with session := false } }.spdmFree 0x6C))

/-! ### Requests from peers (R457, R458) -/

/-- Whether a peer's request is refused: it runs beyond installed memory, or is no request of UALink. -/
def peerBad (a n : Nat) : Bool := decide (a + n > devEnd) || n == 0 || decide (n > 256)

/-- A peer reads. -/
def execPeerReadRequest (peer addr n : Nat) (s : State) : Res :=
  .next (
    if peerBad addr n then s.send (.peerErr peer)
    else let (bs, bad, s1) := s.linkRead addr n; s1.send (.peerData peer bs bad))

/-- A peer writes. -/
def execPeerWriteRequest (peer addr : Nat) (bytes : List Byte) (s : State) : Res :=
  .next (
    if peerBad addr bytes.length then s.send (.peerErr peer)
    else
      s.linkWrite (.peerWriteRequest peer addr bytes) false addr bytes.length (fun t => t.linkStore addr bytes)
        (fun t => t.send (.peerAck peer)))

/-- A peer's ATOM or, with a comparand, CAS (R144), performed at the home as one step; it answers the old value. On a POISON line it writes nothing
and answers poisoned data; a CAS that fails writes nothing. -/
def execPeerAtomicRequest (peer : Nat) (op : AOp) (u w64 : Bool) (addr : Nat) (data : AtomicData) (s : State) : Res :=
  .next (
    let n := if w64 then 8 else 4
    if peerBad addr n || addr % n != 0 then s.send (.peerErr peer)
    else
      let (bs, bad, _) := s.linkRead addr n
      s.linkWrite (.peerAtomicRequest peer op u w64 addr data) false addr n
        (fun t =>
          let (old, _, t1) := t.linkRead addr n
          let v := data.x.toNat % 2 ^ (8 * n)
          if bad then .ok t1
          else
            match data.cmp with
            | some c => if leNat old = c.toNat % 2 ^ (8 * n) then t1.linkStore addr (natLE n v) else .ok t1
            | none => t1.linkStore addr (natLE n (atomNew op u (8 * n) (leNat old) v)))
        (fun t => t.send (.peerData peer bs bad)))

/-- A peer's accumulator atomic: its payload is added exactly at the line's home; a malformed term adds zero and sets POISON (R108, R458). -/
def execAccumulatorAtomic (peer addr : Nat) (payload : List Byte) (s : State) : Res :=
  .next (
    let line := addr / 128 * 128
    if peerBad line 128 || decide (payload.length > 96) then s.send (.peerErr peer)
    else
      s.linkWrite (.accumulatorAtomic peer addr payload) false line 128
        (fun t => t.addHome none (.dev line) (Acc.ofRecord payload)) (fun t => t.send (.peerAck peer)))

/-! ### Responses (R457, R460, R461) -/

/-- Data for a course, which goes on once everything it awaits has come. -/
def Course.answered (c : Course) (r : Resp) : Course :=
  match c.stat with
  | .peer reqs =>
    let left := reqs.filter (· != r.req)
    { c with resp := insertBy (·.req) r c.resp, stat := if left.isEmpty then .ready else .peer left }
  | _ => c

/-- Data for an MCC. -/
def Mcc.answered (m : Mcc) (r : Resp) : Mcc :=
  match m.stat with
  | .peer reqs =>
    let left := reqs.filter (· != r.req)
    { m with resp := insertBy (·.req) r m.resp, stat := if left.isEmpty then .running else .peer left }
  | _ => m

/-- A request of a copy acknowledged: its payload is counted (R284). -/
def State.copyAcked (s : State) (id req : Nat) : State :=
  match s.copy? id with
  | none => s
  | some c =>
    match c.acks.find? (fun a => a.1 == req) with
    | none => s
    | some (_, n) =>
      ((s.countXb c none n false).updCopy id (fun e => { e with acks := e.acks.filter (fun a => a.1 != req) })).finishCopy id

/-- What the requester of a completed request gets: its data, or for a write its completion. -/
def State.completeReq (s : State) (r : PeerReq) (data : List Byte) (bad : Bool) : State :=
  let a : Resp := { req := r.id, loc := .peer r.peer r.addr, data := data, bad := bad }
  match r.by_ with
  | some (.course core id) => s.updCourse core id (fun c => c.answered a)
  | some (.mcc core) => s.updMcc core (fun m => m.answered a)
  | some (.copy id) =>
    (match r.op with
     | .read _ => s.updCopy id (fun c => { c with resp := c.resp ++ [a] })
     | _ => s.copyAcked id r.id)
  | some (.pend n) => s.dropPend n
  | none => s

/-- Bytes that a request's response carries. -/
def ReqOp.answer : ReqOp → Nat
  | .read n => n
  | .atomic _ _ w64 _ => if w64 then 8 else 4
  | .cas w64 _ _ => if w64 then 8 else 4
  | _ => 0

/-- A request leaves the list of those in flight. -/
def State.dropReq (s : State) (id : Nat) : State := { s with reqs := s.reqs.filter (fun r => r.id != id) }

/-- A peer answers a request. -/
def execPeerResponse (req : Nat) (data : List Byte) (s : State) : Res :=
  .next (match s.reqs.find? (fun r => r.id == req) with
    | none => s
    | some r => (s.dropReq req).completeReq r ((data ++ zeros r.op.answer).take r.op.answer) false)

/-- Lines that the link controller remembers at most (R461). -/
def lostLines : Nat := 4096

/-- The error of a request in the link controller's bank, with one record that names the peer and the address. -/
def State.linkError (s : State) (peer addr : Nat) : State :=
  let b := (s.bank unitLink).record true 2 (BitVec.ofNat 64 addr) 0 s.ns false
  ((s.setBank b).gutter { GRec.plate 0x0300 with
    aux2 := BitVec.ofNat 32 peer, aux3 := BitVec.ofNat 32 b.status, addr := BitVec.ofNat 64 addr }).send (.msix 2)

/-- A line whose write may be lost is remembered; past the list, the bank records the overflow. -/
def State.noteLost (s : State) (peer line : Nat) : State :=
  if s.lost.contains (peer, line) then s
  else if s.lost.length < lostLines then { s with lost := s.lost ++ [(peer, line)] }
  else
    let b : Bank := { s.bank unitLink with ovf := true }
    (s.setBank b).gutter { GRec.plate 0x0300 with aux2 := BitVec.ofNat 32 peer, aux3 := BitVec.ofNat 32 b.status }

/-- Whether a request completes with an error: LTO has passed for it, or no route to its peer works (R461). -/
def State.timedOut (s : State) (r : PeerReq) : Bool := decide (s.ns ≥ r.since + 1000 * (s.reg 0x2010).toNat) || !s.reachable r.peer

/-- A request completes with an error: data comes back poisoned; a write counts as completed, and its line is remembered. The 50-bit address of
the record names the peer (R451). -/
def execUalinkTimeout (req : Nat) (s : State) : Res :=
  .next (match s.reqs.find? (fun r => r.id == req) with
    | none => s
    | some r =>
      let s1 := (s.dropReq req).linkError r.peer (2 ^ 49 + r.peer % 1024 * 2 ^ 39 + r.addr)
      let s2 := match r.op with
        | .read _ => s1
        | .poisonMark => s1
        | _ => s1.noteLost r.peer (r.addr / 128)
      s2.completeReq r (zeros r.op.answer) true)

/-- What was held behind the mark of a line goes out. -/
def State.sendHeld (s : State) (peer line : Nat) : State :=
  let mine : PeerReq → Bool := fun r => r.held && r.peer == peer && r.addr / 128 == line
  let go : PeerReq → PeerReq := fun r => { r with held := false, since := s.ns }
  (s.reqs.filter mine).foldl (fun t r => t.send (.peer (go r))) { s with reqs := s.reqs.map (fun r => if mine r then go r else r) }

/-- A poison-mark request: as requester, for a line whose write may be lost, once a route to the peer works again, and what waits behind it
follows; as home, the line is marked and the request answered. -/
def execPoisonMarkRequest (peer : Nat) (line : MarkLine) (s : State) : Res :=
  .next (
    let addr := line.addr
    if !line.home then
      if s.lost.contains (peer, addr / 128) && s.reachable peer then
        (({ s with lost := s.lost.filter (fun e => decide (e ≠ (peer, addr / 128))) } : State).request peer (addr / 128 * 128) .poisonMark none
          ).sendHeld peer (addr / 128)
      else s
    else if addr < devEnd then ((s.mergeFor (.dev (addr / 128 * 128)) 128).markPoison (.dev (addr / 128 * 128))).send (.peerAck peer)
    else s.send (.peerErr peer))

/-- The link controller writes the topology table, entry by entry, and then sends MSI-X vector 4. -/
def execTopologyUpdate (first : Nat × W64) (rest : List (Nat × W64)) (s : State) : Res :=
  .next (({ s with topo := ((first :: rest).filter (fun e => decide (e.1 < 1024))).foldl (fun t e => aput t e.1 (e.2 &&& ~~~(0xF0 : W64))) s.topo } : State).send
    (.msix 4))

/-! ### What is programmed from outside (R452, R457; log 48) -/

/-- Link encryption of a port switched by an agent, which must be the owner; a module has 24 ports. -/
def State.setEncrypted (s : State) (agent : AgentId) (port : Nat) (on : Bool) : State :=
  if !s.isOwner agent then s.nonOwner
  else if port ≥ 24 then s
  else { s with encrypted := if on then insertNew s.encrypted port else s.encrypted.filter (· != port) }

/-- A key of Link IDE comes over the SPDM session alone; the decoder takes a multiple of 256 MiB up to 1,908 of them; and the DOE mailbox tells its
three protocols, discovery, CMA/SPDM and secured CMA/SPDM, with the index of the next (PRESUMED from PCIe, log 48). -/
def State.control (s : State) (c : Control) : State :=
  match c with
  | .ideKey stream key => if s.spdm.session then { s with ideKeys := aput s.ideKeys stream key } else s
  | .hdmDecoder size => if size % 2 ^ 28 = 0 ∧ 0 < size ∧ size ≤ 1908 * 2 ^ 28 then { s with hdmSize := size } else s
  | .doeDiscovery i => if i < 3 then s.send (.doe i ((i + 1) % 3)) else s
  | .encrypt agent port on => s.setEncrypted agent port on

end Sys2Proof.Machine
end

