-- ==== Sys2Proof/Machine/Manage.lean ====
section
/-!
DEFINITION. Ownership (R397), start-up (R479 to R481), image verification (R482), the manifest (R483, R484), the voltage and frequency islands
(R485 to R487), and the management registers (R468, R482, R488, R490).
-/

namespace Sys2Proof.Machine

/-! ### Ownership (R397) -/

/-- The digests of the partition layout and of OWNER measured again (R456). -/
def State.remeasureConfig (s : State) : State := { s.burn with measured := aput s.measured 6 (digest48 (8 + s.free)) }

/-- OWNER with the next epoch and a new ID, announced by MSI-X vector 3 (R452). -/
def State.setOwner (s : State) (id : Nat) : State :=
  let epoch := ((s.reg 0x10).toNat / 16 + 1) % 2 ^ 28
  ((s.setReg 0x10 (BitVec.ofNat 64 (16 * epoch + id % 16))).remeasureConfig).send (.msix 3)

/-- Whether a write of CLAIM succeeds: OWNER equals EXPECT, and the writer owns the device or claims it for itself while nobody does. -/
def State.claimOk (s : State) (agent : AgentId) (expect : W32) (newid : Nat) : Bool :=
  let own := (s.reg 0x10).toNat
  decide (own = expect.toNat) && (decide (own % 16 = agent) || (decide (own % 16 = 0) && decide (newid = agent)))

/-- One write of CLAIM, with the result that its writer reads back. -/
def State.claimWrite (s : State) (agent : AgentId) (expect : W32) (newid : Nat) : State :=
  if agent = 0 ∨ agent > 4 then s
  else
    let ok := s.claimOk agent expect newid
    let s1 : State := { s with claims := aput s.claims agent ok }
    if ok then s1.setOwner newid else s1

/-- An agent claims the device. -/
def execClaim (agent : AgentId) (expect : W32) (newid : BitVec 4) (s : State) : Res := .next (s.claimWrite agent expect newid.toNat)

/-- The owner names another agent. -/
def execOwnerHandover (agent : AgentId) (expect : W32) (newid : BitVec 4) (s : State) : Res :=
  .next (s.claimWrite agent expect newid.toNat)

/-- The owner names nobody. -/
def execOwnerRelease (agent : AgentId) (expect : W32) (s : State) : Res := .next (s.claimWrite agent expect 0)

/-- The owner's link drops or its session times out. -/
def execOwnerLinkDrop (s : State) : Res := .next (if (s.reg 0x10).toNat % 16 = 0 then s else s.setOwner 0)

/-! ### Starts (R479 to R481) -/

/-- A storage line whose bytes a restart leaves open, since HBM need not hold what a die's caches held (log 27). -/
def State.openLine (s : State) (line : Nat) : State :=
  { s.burn with mem := s.mem.write (128 * line) ((List.range 128).map (fun i => Config.freeByte s.free i)) }

/-- A partition with its queues and its cached translations gone. -/
def Partition.cleared (q : Partition) : Partition :=
  { q with queues := [], hwq := [], xlat := [], sealing := false, sealNow := none }

/-- What a restart or a loss of power ends: everything in cores, caches and engines, every launch, and every exchange over the links. -/
def State.quiesce (s : State) : State :=
  let s1 := (s.launches.map (fun l => (l.part, l.lnum))).foldl (fun t k => t.dropSnapshot k.1 k.2) s
  let s0 := (List.range 4).foldl (fun t d => t.loseHostLines d) s1
  { s0 with
      cur := .none, blocks := [], courses := [], bins := [], mccs := [], copies := [], fwWait := [], cover := [], pend := [], l1 := [],
      owner := [], ro := [], poolWait := [], hostLines := [], hdmHost := [], bisnp := [], linkWait := [], reqs := [],
      rollbacks := [], vacated := [], spdm := { version := false, caps := false, algs := false, keyex := false, session := false },
      launches := [], partitions := s0.partitions.map Partition.cleared, binds := [], gwait := [], gheld := [], gopen := [],
      gqBroken := false, votes := [], scanning := [], diesOut := [], tlbinv := [], manBusy := none, ctr := [], actcyc := [], trig := [],
      trigHit := [], trigStop := [], trigWr := [], samples := [], recs := [], used := [] }

/-- The lines that caches alone held, left open by a warm start, with the partials of accumulator lines. -/
def State.loseCaches (s : State) : State :=
  let lines := ((s.dirty.map (·.1) ++ s.parts.map (·.line)).filter (fun x => !s.durableLine x)).foldl (fun l x => insertNew l x) []
  lines.foldl (fun t l => t.openLine l) { s with dirty := [], parts := [] }

/-- Step 2: measurements 0x01 to 0x04. -/
def State.measureFirmware (s : State) : State :=
  { s.burn 4 with measured := [1, 2, 3, 4].foldl (fun m i => aput m i (digest48 (8 + s.free + i))) s.measured }

/-- The public key that the verifier of an image holds for the KEYID of its signature record. -/
def fwKey (f : FwImage) : Option (List Byte) := aget? f.keys (fieldLE (f.bytes.drop (f.bytes.length - 152)) 4 4)

/-- Whether a verifier accepts a firmware image under the security version fused for it (R480): ALG, the digest of every byte before the
signature record, the signature under the key held for KEYID, the version. The boot ROM's verifier checks that key against the fused `root` hash. -/
def fwAccepted (root : Option (List Byte)) (f : FwImage) (fuse : Nat) : Bool :=
  let n := f.bytes.length - 152
  let sig := f.bytes.drop n
  decide (f.bytes.length ≥ 152) && decide (fieldLE sig 0 2 = 1) && decide ((sig.drop 8).take 48 = sha384 (f.bytes.take n)) &&
  (fwKey f).any (fun k => root.all (fun h => decide (sha384 k = h))) && f.sigOk && decide (fuse ≤ fieldLE f.bytes 4 4)

/-- Whether a start finds firmware image `i` and its verifier accepts it: the boot ROM verifies the security core's, the security core the others. -/
def State.fwPasses (s : State) (c : StartCheck) (i : Nat) : Bool :=
  (c.images[i]?).any (fun f => fwAccepted (if i = 0 then some s.rootHash else none) f (s.fuses.get i).toNat)

/-- The step at which a start stops, 0 where none fails: step 1 where the security core's image is missing or refused, step 2 where a later one is (R480),
else the step of 3 to 8 at which the hardware fails. -/
def State.failStep (s : State) (c : StartCheck) : Nat :=
  match (List.range 3).find? (fun i => !s.fwPasses c i) with
  | some i => if i = 0 then 1 else 2
  | none => if 3 ≤ c.hwStep ∧ c.hwStep ≤ 8 then c.hwStep else 0

/-- Step 5: every physical core scanned, each die's logical core map built anew, and measurement 0x05. -/
def State.buildMap (s : State) (bad : List Nat) : State :=
  let s0 : State :=
    { s with badCores := bad, coreMap := [], spares := [], degraded := [], quarantine := [], repairs := [],
             scanned := (List.range 768).map (fun c => (c, s.ns)) }
  ((List.range 4).foldl (fun t d => t.mapDie d) s0).remeasureMap

/-- Step 4 of a cold start: HBM and its tags scrubbed; the underlay table, which names frames of it, is empty. -/
def State.scrub (s : State) : State :=
  { s with mem := [], tags := [], poison := [], dirty := [], parts := [], eave := [], durp := [], und := [], poolFree := [] }

/-- Step 6 of a cold start: every register at its default, no owner, banks and scores clear; SELF stays. -/
def State.configDefaults (s : State) : State :=
  { s with regs := File.set State.resetRegs 0x300 (s.reg 0x300), claims := [], banks := [], scores := [], islands := [], manVal := [],
           lost := [], quarantine := [], repairs := [], partitions := State.reset.partitions }

/-! The recovery-point scan (R444, R481). -/

/-- A seal record as the scan reads it: STATE, PART, POINT, DIGEST. -/
structure SealRec where
  slot : Nat
  state : Nat
  part : Nat
  point : Nat
  digest : List Byte

/-- The 256 records of a ring. -/
def State.sealRecs (s : State) (ring : List Nat) : List SealRec :=
  (List.range 256).map (fun k =>
    let a := ringSlot ring k
    let bs := s.storedRun (s.live a) 64
    { slot := a, state := fieldLE bs 0 2, part := fieldLE bs 3 1, point := fieldLE bs 4 4, digest := (bs.drop 16).take 48 })

/-- The points of a partition that pages of the underlay table still stand in. -/
def State.pagePoints (s : State) (p : Nat) : List Nat :=
  s.und.foldl (fun l u => match u.point with
    | some (q, n, _) => if q = p then insertNew l n else l
    | none => l) []

/-- One point above %rps: rolled forward from a record that is committed, or prepared with the digest of its pages, else torn. -/
def State.resolvePoint (s : State) (p n : Nat) (recs : List SealRec) : State :=
  let pages := s.pointPages p n
  let digest := s.pointDigest (pages.map (fun e => (e.1.va, e.2, e.1.size)))
  match recs.find? (fun r => r.part == p && r.point == n && (r.state == 2 || (r.state == 1 && decide (r.digest = digest)))) with
  | some r =>
    ({ (s.swapPoint pages) with mem := (s.swapPoint pages).mem.write (s.live r.slot) (natLE 2 2) }).updPart p
      (fun q => { q with rps := BitVec.ofNat 32 (max q.rps.toNat n) })
  | none =>
    let t : State := pages.foldl (fun t e => (t.updUnd e.1.base (fun v => { v with point := none })).poolGive e.2 e.1.size) s
    t.gutter { GRec.plate 0x0303 with part := p, aux2 := BitVec.ofNat 32 n }

/-- The scan of one partition. -/
def State.scanPoints (s : State) (p : Nat) : State :=
  let recs := match s.ringOf p with
    | some ring => s.sealRecs ring
    | none => []
  let top := (recs.filter (fun r => r.state == 2 && r.part == p)).foldl (fun t r => max t r.point) 0
  let open_ : List Nat := match s.part? p with
    | some q => if q.rpc ≠ 0 then [q.rpc.toNat] else []
    | none => []
  let prepared := (recs.filter (fun r => r.state == 1 && r.part == p && decide (r.point > top))).map (·.point)
  let ns := sortBy (fun n => n) ((open_ ++ prepared ++ s.pagePoints p).foldl (fun l n => insertNew l n) [])
  let s1 := s.updPart p (fun q => { q with rps := BitVec.ofNat 32 top })
  let s2 := ns.foldl (fun t n => t.resolvePoint p n recs) s1
  s2.updPart p (fun q => { q with rpa := q.rps, rpc := 0 })

/-- Step 8: the queues' and the trace rings' registers cleared, and measurement 0x06. -/
def State.clearPointers (s : State) : State :=
  let offs := [0x108, 0x110, 0x120] ++ (List.range 8).flatMap (fun p => [0x200050 + 0x1000 * p, 0x200058 + 0x1000 * p])
  (offs.foldl (fun t o => t.setReg o 0) s).remeasureConfig

/-- The steps of a start in order, up to the one that fails; READY, or the number of that step, in BOOTST. A failure of step 1 leaves the
module in recovery mode. -/
def State.start (s : State) (cold : Bool) (c : StartCheck) : State :=
  let k := s.failStep c
  let runs : Nat → Bool := fun n => decide (k = 0) || decide (n < k)
  let s0 := s.quiesce
  let s2 := if runs 2 then s0.measureFirmware else s0
  let s4 := if cold && runs 4 then s2.scrub else if cold then s2 else s2.loseCaches
  let s5 := if runs 5 then s4.buildMap c.scan else s4
  let s6 := if !runs 6 then s5 else if cold then s5.configDefaults else s5.setOwner 0
  let s7 := if !cold && runs 7 then (List.range 8).foldl (fun t p => t.scanPoints p) s6 else s6
  let s8 := if runs 8 then s7.clearPointers else s7
  s8.setReg 0x400 (if k = 0 then 1 else BitVec.ofNat 64 (16 * k))

/-- Power-on. -/
def execPowerOn (c : StartCheck) (s : State) : Res := .next ({ s with power := true }.start true c)

/-- The owner commands a cold start. -/
def execColdrst (agent : AgentId) (c : StartCheck) (s : State) : Res := .next (if s.isOwner agent then s.start true c else s.nonOwner)

/-- Every live launch stopped as a fatal one (R399). -/
def State.stopAll (s : State) : State :=
  ((s.launches.filter (fun l => l.live)).map (fun l => (l.part, l.lnum))).foldl (fun t k =>
    (t.gutter { GRec.plate 0x0302 with flags := 1, part := k.1, lnum := BitVec.ofNat 32 k.2 }).endFatal k.1 k.2) s

/-- The owner commands a warm start: the eave buffer drains and every launch stops before it. -/
def execWarmrst (agent : AgentId) (c : StartCheck) (s : State) : Res :=
  .next (if s.isOwner agent then (s.stopAll.drainAll).start false c else s.nonOwner)

/-- A reset of the Plate while module power is held: what the eave buffer had not drained is lost, and a warm start follows. -/
def execPlateReset (c : StartCheck) (s : State) : Res := .next ({ s with eave := [], durp := [] }.start false c)

/-! ### Images (R482, R83) -/

/-- Bytes at a physical address, as the Plate reads them (R451). -/
def State.physBytes (s : State) (pa n : Nat) : List Byte := s.bytesAt (s.physLoc pa) n

/-- The hash of the key that a partition's KEYLIST holds for a KEYID. -/
def State.keyHash (s : State) (p keyid : Nat) : Option Nat :=
  if keyid = 0 then none
  else
    let base := 0x600 + 0x200 * p
    ((List.range 8).find? (fun i => decide ((s.reg (base + 64 * i)).toNat % 2 ^ 32 = keyid))).map (fun i =>
      leNat ((List.range 6).flatMap (fun k => natLE 8 (s.reg (base + 64 * i + 16 + 8 * k)).toNat)))

/-- Whether the signature record that ends an image verifies under a key of the partition. Its reserved bytes 3:2 are not tested: no rule says
whether a nonzero value there fails (DESIGN CHOICE, log 50). -/
def State.sigVerifies (s : State) (p : Nat) (image : List Byte) : Bool :=
  let n := image.length - 152
  let sig := image.drop n
  let digest := (sig.drop 8).take 48
  decide (image.length ≥ 152) && decide (fieldLE sig 0 2 = 1) && decide (digest = sha384 (image.take n)) &&
  (match s.keyHash p (fieldLE sig 4 4) with
   | some h => Config.ecdsaVerifies h digest ((sig.drop 56).take 48) ((sig.drop 104).take 48)
   | none => false)

/-- Whether the policy of a partition lets an image load: a signed one where its signature verifies, an unsigned one under IMGPOL 1 (R482). FLAGS
bit 0 alone says which it is: MAGIC, VERSION, KIND, PART and a FILESIZE below 64 decide nothing, since no rule says what VERIFY answers for
bytes that are no valid WOF header (DESIGN CHOICE, log 50). -/
def State.mayLoad (s : State) (p : Nat) (image : List Byte) : Bool :=
  if (fieldLE image 8 4).testBit 0 then s.sigVerifies p image else (s.reg (0x500 + 8 * p)).getLsbD 0

/-- The security core verifies the image at an address for a partition; a read of VERIFY answers. Its length is FILESIZE of its header. -/
def execVerify (agent : AgentId) (part addr : Nat) (s : State) : Res :=
  .next (
    if agent = 0 ∨ agent > 4 ∨ part ≥ 8 then s
    else
      let size := fieldLE (s.physBytes addr 64) 24 8
      s.setReg 0x580 (if s.mayLoad part (s.physBytes addr (max 64 size)) then 1 else 0))

/-! ### The manifest (R483, R484) -/

/-- The present value of a field. -/
def State.presentValue (s : State) (id part : Nat) : List Byte :=
  if 1 ≤ id ∧ id ≤ 5 then (if part = 0xFF then s.measure id else zeros 48)
  else if !(s.partOn part) || decide (part ≥ 8) then zeros 48
  else if id = 6 then
    let lib := (s.preg part 0x28).toNat
    if lib = 0 then sha384 (zeros 512)
    else match s.readVirt part lib 512 with
      | some bs => sha384 bs
      | none => (List.range 48).map (fun i => Config.freeByte s.free i)
  else if id = 7 then natLE 4 ((s.preg part 0x20).toNat % 4) ++ zeros 44
  else zeros 48

/-- Entry `i` of a manifest. -/
def manEntry (m : List Byte) (i : Nat) : List Byte := (m.drop (16 + 64 * i)).take 64

def manId (e : List Byte) : Nat := fieldLE e 0 2
def manPart (e : List Byte) : Nat := fieldLE e 2 1

/-- NFIELD. -/
def manCount (m : List Byte) : Nat := fieldLE m 4 2

/-- Whether the header is malformed. -/
def manHeaderBad (m : List Byte) : Bool :=
  decide (fieldLE m 0 2 ≠ 0x4E4D) || decide (fieldLE m 2 2 ≠ 1) || decide (manCount m = 0) || decide (manCount m > 256) || !zeroAt m 6 10

/-- Whether an entry is malformed: an unknown ID, nonzero zero bytes, or no ascent from the entry before it. -/
def manEntryBad (m : List Byte) (i : Nat) : Bool :=
  let e := manEntry m i
  let key : List Byte → Nat := fun e => 256 * manId e + manPart e
  decide (manId e = 0) || decide (manId e > 7) || !zeroAt e 3 13 || (decide (i > 0) && decide (key e ≤ key (manEntry m (i - 1))))

/-- The report of a compare with its present value: entries are checked in order up to the first that differs or is malformed. -/
def manCompare (m : List Byte) (present : List (Nat × List Byte)) : Nat → Nat → Nat × List Byte
  | 0, _ => (0, zeros 48)
  | left + 1, i =>
    let e := manEntry m i
    if manEntryBad m i then (2, zeros 48)
    else
      let now := (aget? present i).getD (zeros 48)
      if e.drop 16 = now then manCompare m present left (i + 1)
      else (1 + 2 ^ 16 * manId e + 2 ^ 32 * manPart e + 2 ^ 40 * i, now)

/-- MANRPT and MANVAL of a manifest compared with a snapshot. -/
def manReport (m : List Byte) (present : List (Nat × List Byte)) : Nat × List Byte :=
  if manHeaderBad m then (2, zeros 48) else manCompare m present (manCount m) 0

/-- A controlling agent starts a compare; while one runs the write is ignored. -/
def execMancmd (agent : AgentId) (s : State) : Res :=
  .next (
    if agent = 0 ∨ agent > 4 ∨ s.manBusy.isSome then s
    else
      let a := (s.reg 0x1800).toNat
      let n := min 256 (manCount (s.physBytes a 16))
      let m := s.physBytes a (16 + 64 * n)
      let present := (List.range n).map (fun i => (i, s.presentValue (manId (manEntry m i)) (manPart (manEntry m i))))
      { (s.burn.setReg 0x1810 3) with manBusy := some (m, present) })

/-- The compare ends and reports. -/
def execManifestCompareDone (s : State) : Res :=
  .next (match s.manBusy with
    | none => s
    | some (m, present) =>
      let r := manReport m present
      { (s.setReg 0x1810 (BitVec.ofNat 64 r.1)) with manBusy := none, manVal := r.2 })

/-! ### Islands (R485 to R487) -/

/-- An island at its full frequency. -/
def Island.full : Island := { freq := 2400, temp := 0, reason := 0, throt := false, us := 0 }

/-- The island with a number. -/
def State.island (s : State) (i : Nat) : Island := (aget? s.islands i).getD Island.full

def State.setIsland (s : State) (i : Nat) (x : Island) : State := { s with islands := aput s.islands i x }

/-- The island of a core (R485). -/
def islandOf (core : Nat) : Nat := 8 * dieOf core + 4 * (core / 32 % 12 / 6) + core % 32 % 16 / 4

/-- The owner's limit FMAX of an island. -/
def State.fmax (s : State) (i : Nat) : Nat := (s.reg (0x710000 + 8 * i)).toNat

/-- A condition that asks for a frequency: the lower wins, and of two that ask for the same the lower reason number. -/
def Island.limit (x : Island) (freq reason : Nat) : Island :=
  if freq < x.freq then { x with freq := freq, reason := reason, throt := true }
  else if freq = x.freq ∧ (x.reason = 0 ∨ reason < x.reason) then { x with reason := reason, throt := true }
  else { x with throt := true }

/-- One step of 100 MHz down, with a floor of 600 MHz. -/
def Island.stepDown (x : Island) (reason : Nat) : Island := x.limit (max 600 (x.freq - 100)) reason

/-- One step of 100 MHz up to the limit that FMAX sets. -/
def Island.stepUp (x : Island) (fmax : Nat) : Island :=
  let f := min fmax (x.freq + 100)
  if f < fmax then { x with freq := f }
  else if fmax < 2400 then { x with freq := f, reason := 4, throt := true }
  else { x with freq := f, reason := 0, throt := false }

/-- Compute islands. -/
def computeIslands : List Nat := List.range 32

/-- Module power exceeds PWRCAP: every compute island steps down. -/
def execPowerCapExceed (s : State) : Res :=
  .next (computeIslands.foldl (fun t i => t.setIsland i ((t.island i).stepDown 1)) s)

/-- An island's junction temperature: above 115 degrees it drops to 600 MHz, above 105 it steps down. -/
def execTempExceed (island celsius : Nat) (s : State) : Res :=
  .next (
    if island ≥ 36 then s
    else
      let x : Island := { s.island island with temp := min 255 celsius }
      s.setIsland island (if celsius > 115 then x.limit 600 3 else if celsius > 105 then x.stepDown 2 else x))

/-- A compute die above 125 degrees is reset, and its islands report it: a reading above 125 that no event gives is a free value (log 41), and a hotter
one that an island has stays. -/
def execDieOvertemp (die : Nat) (s : State) : Res :=
  .next (
    if die ≥ 4 then s
    else (List.range 8).foldl (fun t k =>
      t.setIsland (8 * die + k) ({ t.island (8 * die + k) with
        temp := max (t.island (8 * die + k)).temp (126 + (Config.freeByte s.free k).toNat % 130) }.limit 600 3)) (s.resetDie die).burn)

/-- Module power lost: what the eave buffer had not drained, what caches alone held, and everything volatile, is gone until the next power-on. -/
def State.powerLoss (s : State) : State := { s.quiesce.loseCaches with eave := [], durp := [], power := false }

/-- The Plate above 125 degrees: module power off. -/
def execPlateOvertemp (s : State) : Res := .next s.powerLoss

/-- An island whose conditions have been clear for 1 ms steps back up. -/
def execThrottleRecover (island : Nat) (s : State) : Res :=
  .next (if island ≥ 36 then s else s.setIsland island ((s.island island).stepUp (s.fmax island)))

/-! ### Registers (R468, R482, R488, R490) -/

/-- What a write of a register comes to: nothing, since no such register is written here; nothing, though the register is the owner's alone; a value
that its rule refuses; or the value stored. -/
inductive RegWrite where
  | none
  | keep
  | bad
  | put (x : W64)
  deriving DecidableEq, Repr

/-- A value where its test holds, else refused. -/
def RegWrite.when (ok : Bool) (x : W64) : RegWrite := if ok then .put x else .bad

/-- Whether a core of a set of cores holds a block. -/
def State.anyBlock (s : State) (f : Nat → Bool) : Bool := s.blocks.any (fun b => f b.core)

/-- Whether a rectangle may be a partition's: of whole trusses, on the mesh, clear of the other enabled partitions, and without a block on any core
that enters or leaves the partition. -/
def State.rectOk (s : State) (p r : Nat) : Bool :=
  let x0 := bitsOf r 7 0
  let y0 := bitsOf r 15 8
  let w := bitsOf r 23 16
  let h := bitsOf r 31 24
  let on : Bool := r.testBit 32
  let cores := List.range 768
  let inNew : Nat → Bool := fun c => on && inRect c x0 y0 w h
  decide (x0 % 2 = 0) && decide (y0 % 2 = 0) && decide (w % 2 = 0) && decide (h % 2 = 0) &&
  decide (x0 + w ≤ 32) && decide (y0 + h ≤ 24) && (!on || (decide (w > 0) && decide (h > 0))) &&
  (List.range 8).all (fun q => q == p || cores.all (fun c => !(inNew c && s.coreIn q c))) &&
  !s.anyBlock (fun c => inNew c != s.coreIn p c)

/-- A partition's registers (R488). -/
def State.partWrite (s : State) (p off : Nat) (x : W64) : RegWrite :=
  let n := x.toNat
  if off = 0x00 then RegWrite.when (s.rectOk p n) (x &&& 0x1FFFFFFFF)
  else if off = 0x08 then
    RegWrite.when (decide (n % 4096 = 0) && (decide (x = s.preg p 8) || !s.blocks.any (fun b => b.key.part == p))) x
  else if off = 0x10 then RegWrite.when (decide (n % 256 ≠ 0)) (x &&& 0xFF)
  else if off = 0x18 then .put (x &&& 0xFFFFFFFF)
  else if off = 0x20 then .put (x &&& 3)
  else if off = 0x28 then RegWrite.when (decide (n % 32 = 0)) x
  else if off = 0x30 then .put (x &&& 1)
  else .none

/-- Whether a number is an allowed ring size. -/
def ringSizeOk (n : Nat) : Bool := (List.range 21).any (fun k => n == 2 ^ (k + 6))

/-- A partition's observation registers (R468); those of the comparators and triggers word by word. -/
def obsWrite (off : Nat) (x : W64) : RegWrite :=
  let n := x.toNat
  if off = 0x20 then .put (x &&& 0x11F07)
  else if off = 0x40 then RegWrite.when (decide (n % 64 = 0)) x
  else if off = 0x48 then RegWrite.when (ringSizeOk (n % 2 ^ 32)) (x &&& 0xFFFFFFFF)
  else if off = 0x58 ∨ off = 0x60 then .put (x &&& 0xFFFFFFFF)
  else if off = 0x80 ∨ off = 0x90 then .put x
  else if off = 0x88 ∨ off = 0x98 then .put (x &&& 0xFFFF)
  else if 0x100 ≤ off ∧ off < 0x200 then
    (if off % 32 = 0 then .put (x &&& 0xFFFFFFFF00000000)
     else if off % 32 = 8 then .put (x &&& 0xFFFFFFFF01FF007F)
     else .put x)
  else .none

/-- The module's registers (R438, R461, R482, R487, R488). -/
def State.moduleWrite (s : State) (off : Nat) (x : W64) : RegWrite :=
  let n := x.toNat
  let lo := n % 2 ^ 16
  if off = 0x2010 then RegWrite.when (decide (1 ≤ n % 2 ^ 32) && decide (n % 2 ^ 32 ≤ 10000)) (x &&& 0xFFFFFFFF)
  else if off = 0x2018 then RegWrite.when (decide (1600 ≤ lo) && decide (lo ≤ 3200)) (x &&& 0xFFFF)
  else if off = 0x2020 then RegWrite.when (decide (1 ≤ lo) && decide (lo ≤ 720)) (x &&& 0xFFFF)
  else if off = 0x2000 ∨ off = 0x2008 then (if n % 2 = 0 then .keep else .none)
  else if off = 0x2028 then RegWrite.when (decide (n % 2 ^ 30 = 0) && decide (n + (s.reg 0x2030).toNat ≤ devEnd)) x
  else if off = 0x2030 then RegWrite.when (decide (n % 2 ^ 30 = 0) && decide (n + (s.reg 0x2028).toNat ≤ devEnd)) x
  else if off = 0x2038 then .keep
  else if 0x200 ≤ off ∧ off < 0x280 ∧ off % 16 = 0 then
    let idle : Bool := (s.part? ((off - 0x200) / 16)).all (fun q => decide (q.rpc = 0) && !q.sealing && q.sealNow.isNone)
    RegWrite.when (decide (n % 16384 = 0) && (decide (n = 0) || (s.ringFrom ((off - 0x200) / 16) n).isSome) && (decide (x = s.reg off) || idle)) x
  else if 0x500 ≤ off ∧ off < 0x540 then .put (x &&& 1)
  else if 0x600 ≤ off ∧ off < 0x1600 then
    (if off % 64 = 0 then .put (x &&& 0xFFFFFFFF) else if off % 64 = 8 then .put 0 else .put x)
  else if 0x710000 ≤ off ∧ off < 0x710000 + 8 * 36 then
    RegWrite.when (decide (n % 100 = 0) && decide (600 ≤ n) && decide (n ≤ 2400)) x
  else .none

/-- What a write of the register at an offset comes to. -/
def State.regWrite (s : State) (off : Nat) (x : W64) : RegWrite :=
  if off % 8 ≠ 0 then .none
  else if 0x3000 ≤ off ∧ off < 0x3800 then s.partWrite ((off - 0x3000) / 0x100) (off % 0x100) x
  else if 0x200000 ≤ off ∧ off < 0x208000 then obsWrite (off % 0x1000) x
  else s.moduleWrite off x

/-- Free runs without a frame in use. -/
def withoutFrame (l : List (Nat × Nat)) (f size : Nat) : List (Nat × Nat) :=
  l.flatMap (fun r =>
    if r.1 + r.2 ≤ f ∨ f + size ≤ r.1 then [r]
    else (if r.1 < f then [(r.1, f - r.1)] else []) ++ (if f + size < r.1 + r.2 then [(f + size, r.1 + r.2 - (f + size))] else []))

/-- The underlay pool from UNDBASE and UNDSIZE: all of it but the frames that pages hold (R21). -/
def State.rebuildPool (s : State) : State :=
  let base := (s.reg 0x2028).toNat
  let size := (s.reg 0x2030).toNat
  let used := s.und.flatMap (fun u =>
    (([some u.prim, u.snap, u.pub, u.point.map (fun p => p.2.2)]).filterMap (fun f => f)).map (fun f => (f, u.size)))
  { s with poolFree := used.foldl (fun l f => withoutFrame l f.1 f.2) (if size = 0 then [] else [(base, size)]) }

/-- What else a stored register does: the pool is laid out, an island follows FMAX, tracing starts with its trigger off (R472), a trigger of
KIND 1 sees the write (R473), and the partition layout is measured again (R456). -/
def State.afterWrite (s : State) (off : Nat) (old : W64) : State :=
  if off = 0x2028 ∨ off = 0x2030 then s.rebuildPool
  else if 0x710000 ≤ off then
    let i := (off - 0x710000) / 8
    if s.fmax i < (s.island i).freq ∨ (s.fmax i = (s.island i).freq ∧ s.fmax i < 2400) then s.setIsland i ((s.island i).limit (s.fmax i) 4)
    else s
  else if 0x200000 ≤ off then
    let p := (off - 0x200000) / 0x1000
    let o := off % 0x1000
    if o = 0x20 then
      let s1 := s.updPart p (fun q => { q with group := if q.group > (s.reg off).toNat % 4 then 0 else q.group })
      if (s.reg off).getLsbD 16 && !old.getLsbD 16 then { s1 with trig := s1.trig.filter (fun c => !s1.coreIn p c) } else s1
    else if 0x80 ≤ o ∧ o < 0xA0 then { s with trigWr := aput s.trigWr (2 * p + (o - 0x80) / 16) s.cycle }
    else s
  else if (0x200 ≤ off ∧ off < 0x280) ∨ (0x3000 ≤ off ∧ off % 0x100 ≤ 0x10 ∧ off % 0x100 ≠ 8) then
    let p := (off - 0x3000) / 0x100
    (if 0x3000 ≤ off ∧ off % 0x100 = 0 ∧ s.partOn p ∧ !old.getLsbD 32 then s.updPart p (fun q => { q with rot := s.cycle / 65536 }) else s).remeasureConfig
  else s

/-- A write of a management register without behaviour of its own. MANADDR takes it from any controlling agent, every other from the owner. -/
def execRegisterWrite (agent : AgentId) (off : Nat) (x : W64) (s : State) : Res :=
  .next (
    if off = 0x1800 then (if agent = 0 ∨ agent > 4 then s else s.setReg off x)
    else
      match s.regWrite off x with
      | .none => s
      | r =>
        if !s.isOwner agent then s.nonOwner
        else
          match r with
          | .put y => (s.setReg off y).afterWrite off (s.reg off)
          | .bad => s.refusedWrite off x
          | _ => s)

/-! ### Reads

No instruction of the table is a plain register read: it changes nothing. What a controlling agent reads stands here. -/

/-- The status of an island (R487). -/
def Island.word (x : Island) : W64 :=
  BitVec.ofNat 64 (x.freq + x.temp % 256 * 2 ^ 16 + x.reason % 16 * 2 ^ 24 + x.throt.toNat * 2 ^ 31 + x.us / 12000 % 2 ^ 32 * 2 ^ 32)

/-- Free bytes of the underlay pool (UNDFREE of R488). -/
def State.undFree (s : State) : Nat := s.poolFree.foldl (fun n r => n + r.2) 0

/-- What an aligned 8-byte read of a management register returns to an agent: CLAIM (R397), UNDFREE, TLBINV and the doorbells (R488), the
topology table (R462), the read buffer of an error bank (R427; its offset 0 is read by BANK_CLEAR_READ), island status (R487), MANVAL (R484);
any other register as it stands. -/
def State.mgmtRead (s : State) (agent : AgentId) (off : Nat) : W64 :=
  if off = 0x18 then (if (aget? s.claims agent).getD false then 1 else 0)
  else if off = 0x2038 then BitVec.ofNat 64 s.undFree
  else if off = 0x2040 then (if s.tlbinv.isEmpty then 0 else 1)
  else if 0x1820 ≤ off ∧ off < 0x1850 then BitVec.ofNat 64 (leNat ((List.range 8).map (fun i => s.manVal.getD (off - 0x1820 + i) 0)))
  else if 0x8000 ≤ off ∧ off < 0x9000 then
    let p := (off - 0x8000) / 0x200
    if s.partOn p then BitVec.ofNat 64 (s.queueLen p (off % 0x200 / 8)) else 0
  else if 0x100000 ≤ off ∧ off < 0x102000 then (aget? s.topo ((off - 0x100000) / 8)).getD 0
  else if 0x400000 ≤ off ∧ off < 0x600000 ∧ off % 32 ≠ 0 then
    BitVec.ofNat 64 (fieldLE (s.bank (BitVec.ofNat 16 ((off - 0x400000) / 32))).buf (off % 32) 8)
  else if 0x700000 ≤ off ∧ off < 0x700000 + 8 * 36 then (s.island ((off - 0x700000) / 8)).word
  else s.reg off

end Sys2Proof.Machine
end

