-- ==== Sys2Proof/Machine/Home.lean ====
section
/-!
DEFINITION. The memory system's own events: an access performed (R130), a modified line written back (R436, R453), the loss of power (R437).
-/

namespace Sys2Proof.Machine

/-- An outstanding access reaches its home. -/
def execAccessPerformed (n : Nat) (s : State) : Res :=
  .next (match s.pend.find? (fun p => p.n == n) with
    | some p => if s.mayPerform p then s.perform p else s
    | none => s)

/-- A modified line is written back: to HBM, which clears its dirty-above bit, or, for a host line that no dirty line of that number hides,
to the host, and the near slice no longer holds it. -/
def execLineWriteBack (line : Nat) (s : State) : Res :=
  .next (
    if (aget? s.dirty line).isSome then { s with dirty := adel s.dirty line }
    else if s.hostLines.any (fun e => e.1 == line && decide (e.2.2 = .m)) then s.freeHost line
    else s)

/-- Module or Plate power is lost. -/
def execPlatePowerLoss (s : State) : Res := .next s.powerLoss

end Sys2Proof.Machine
end

