-- ==== Sys2Proof/Machine/Sfu.lean ====
section
/-!
DEFINITION. The SFU functions (R202): the correctly rounded value of the exact function. FRCP and FRSQ keep a quotient with its
sticky mark. The others are enclosed: fixed-point arithmetic with `w` fraction bits gives an integer within `slack` of the
function's value, and where both ends round alike that is the result; otherwise `w` is doubled.
-/

namespace Sys2Proof.Machine

/-! ### Enclosures -/

/-- What every enclosure below may be wrong by, in units of its last place: each is a sum of at most 2^9 truncated terms, whose
errors stay below 2^12 units each. -/
def slack : Nat := 2 ^ 24

/-- Σ y^i / i!, from the term `t` with index `i`, all with `w` fraction bits; `alt` alternates the sign, `two` steps by two
factors of y squared (then `y` is y^2). Terms end when they reach zero. -/
def taylor (w : Nat) (y : Nat) (alt two : Bool) : Nat → Nat → Nat → Bool → Int → Int
  | 0, _, _, _, acc => acc
  | k + 1, i, t, sgn, acc =>
    if t = 0 then acc
    else
      let t1 := if two then t * y / 2 ^ w / ((i + 1) * (i + 2)) else t * y / 2 ^ w / (i + 1)
      taylor w y alt two k (if two then i + 2 else i + 1) t1 (if alt then !sgn else sgn)
        (acc + (if sgn then -(t : Int) else t))

/-- Terms that any series below needs at most. -/
def termCap : Nat := 500

/-- 2^w * e^y for 0 ≤ y < 1, y given with `w` bits. -/
def expFix (w y : Nat) : Int := taylor w y false false termCap 0 (2 ^ w) false 0

/-- 2^w * sin r and 2^w * cos r for 0 ≤ r < 1.6. -/
def sinFix (w r : Nat) : Int := taylor w (r * r / 2 ^ w) true true termCap 1 r false 0
def cosFix (w r : Nat) : Int := taylor w (r * r / 2 ^ w) true true termCap 0 (2 ^ w) false 0

/-- Σ z^(2i+1) / (2i+1), with power `p` at index `i`; `q` is z^2 with `w` bits, `alt` alternates. -/
def oddSeries (w q : Nat) (alt : Bool) : Nat → Nat → Nat → Bool → Int → Int
  | 0, _, _, _, acc => acc
  | k + 1, i, p, sgn, acc =>
    if p = 0 then acc
    else oddSeries w q alt k (i + 2) (p * q / 2 ^ w) (if alt then !sgn else sgn) (acc + (if sgn then -((p / i : Nat) : Int) else ((p / i : Nat) : Int)))

/-- 2^w * atanh z and 2^w * atan z for 0 ≤ z < 1/2. -/
def atanhFix (w z : Nat) : Int := oddSeries w (z * z / 2 ^ w) false termCap 1 z false 0
def atanFix (w z : Nat) : Int := oddSeries w (z * z / 2 ^ w) true termCap 1 z false 0

/-- 2^w * ln 2 = 2^w * 2 atanh(1/3). -/
def ln2Fix (w : Nat) : Int := 2 * atanhFix w (2 ^ w / 3)

/-- 2^w * pi / 2 = 2^w * (8 atan(1/5) - 2 atan(1/239)). -/
def halfPiFix (w : Nat) : Int := 8 * atanFix w (2 ^ w / 5) - 2 * atanFix w (2 ^ w / 239)

/-- What a function answers at one precision: a sign, and the magnitude v * 2^e within `slack` of v; none where the precision is too
low to reduce the argument. -/
abbrev Encl := Option (Bool × Nat × Int)

/-- The magnitude of a signed fixed-point value. -/
def enclOf (v : Int) (e : Int) : Encl := some (decide (v < 0), v.natAbs, e)

/-- Rounding a nonzero magnitude that is not representable, rn; UNF by the exact magnitude (R202). -/
def sfuRound (neg : Bool) (g : Mag) : Nat × FFlags :=
  let (y, fl) := fp32.roundMag (.mode .rn) neg g
  let small := decide (g.e + (Nat.log2 g.m : Int) < -126)
  (y, (fl &&& ~~~flUnf) ||| flInx ||| (if small then flUnf else 0))

/-- Rounding both ends of an enclosure, at growing precision. -/
def sfuTry (f : Nat → Encl) : Nat → Nat → Nat × FFlags
  | 0, _ => (0, 0)
  | k + 1, w =>
    match f w with
    | none => sfuTry f k (2 * w)
    | some (neg, v, e) =>
      if v ≤ 2 * slack then sfuTry f k (2 * w)
      else
        let lo := sfuRound neg ⟨v - slack, e, true⟩
        let hi := sfuRound neg ⟨v + slack, e, true⟩
        if lo = hi then lo else sfuTry f k (2 * w)

/-- A function by its enclosure. -/
def sfuEncl (f : Nat → Encl) : LaneRes :=
  let (y, fl) := sfuTry f 6 192
  { LaneRes.value y with fl := fl }

/-- A result given exactly. -/
def sfuExact (x : FVal) (fl : FFlags) : LaneRes := rounded fp32 (.mode .rn) ⟨x, fl⟩

/-- A value just below m * 2^e in magnitude, or just above it: closer than any rounding can tell. -/
def justBelow (neg : Bool) (m : Nat) (e : Int) : LaneRes :=
  let (y, fl) := sfuRound neg ⟨m * 2 ^ 40 - 1, e - 40, true⟩
  { LaneRes.value y with fl := fl }
def justAbove (neg : Bool) (m : Nat) (e : Int) : LaneRes :=
  let (y, fl) := sfuRound neg ⟨m * 2 ^ 38, e - 38, true⟩
  { LaneRes.value y with fl := fl }

/-- m * 2^e with `w` fraction bits, exact where e ≥ -w. -/
def fixOf (m : Nat) (e : Int) (w : Nat) : Nat :=
  let s := e + w
  if s ≥ 0 then m * 2 ^ s.toNat else m / 2 ^ (-s).toNat

/-- The exponent of the leading bit. -/
def topExp (m : Nat) (e : Int) : Int := e + (Nat.log2 m : Int)

/-! ### The functions -/

/-- 1/x. -/
def rcpF (a : FVal) : LaneRes :=
  match a with
  | .nan => sfuExact .nan 0
  | .inf s => sfuExact (.fin s 0 0) 0
  | .fin s m e =>
    if m = 0 then sfuExact (.inf s) flDz
    else
      let (y, fl) := roundSigned fp32 (.mode .rn) s (magDiv 1 0 m e tailBits)
      { LaneRes.value y with fl := fl }

/-- 1/sqrt x. -/
def rsqF (a : FVal) : LaneRes :=
  match a with
  | .nan => sfuExact .nan 0
  | .inf s => if s then sfuExact .nan flInv else sfuExact (.fin false 0 0) 0
  | .fin s m e =>
    if m = 0 then sfuExact (.inf s) flDz
    else if s then sfuExact .nan flInv
    else
      let (y, fl) := roundSigned fp32 (.mode .rn) false (magRsqrt m e tailBits)
      { LaneRes.value y with fl := fl }

/-- 2^x at one precision: x = n + f, 2^f = e^(f ln 2). -/
def exp2Encl (s : Bool) (m : Nat) (e : Int) (w : Nat) : Encl :=
  let x : Int := if s then -(fixOf m e w : Int) else fixOf m e w
  let n := x / 2 ^ w
  let f := (x % 2 ^ w).toNat
  enclOf (expFix w (f * (ln2Fix w).toNat / 2 ^ w)) (n - w)

def exp2F (a : FVal) : LaneRes :=
  match a with
  | .nan => sfuExact .nan 0
  | .inf s => if s then sfuExact (.fin false 0 0) 0 else sfuExact (.inf false) 0
  | .fin s m e =>
    if m = 0 then sfuExact (.fin false 1 0) 0
    else if topExp m e < -40 then (if s then justBelow false 1 0 else justAbove false 1 0)
    else if topExp m e ≥ 9 then
      (if s then (let (y, fl) := sfuRound false ⟨1, -400, true⟩; { LaneRes.value y with fl := fl })
       else sfuExact (.fin false 1 600) 0)
    else if e ≥ 0 ∨ m % 2 ^ (-e).toNat = 0 then
      let n : Int := if e ≥ 0 then m * 2 ^ e.toNat else m / 2 ^ (-e).toNat
      sfuExact (.fin false 1 (if s then -n else n)) 0
    else sfuEncl (exp2Encl s m e)

/-- log2 x at one precision: x = 2^n M with M between 2/3 and 4/3, ln M = 2 atanh((M - 1) / (M + 1)). -/
def log2Encl (m : Nat) (e : Int) (w : Nat) : Encl :=
  let l := Nat.log2 m
  let big := decide (3 * m ≥ 4 * 2 ^ l)
  let d := if big then 2 ^ (l + 1) else 2 ^ l
  let n : Int := e + l + (if big then 1 else 0)
  let neg := decide (m < d)
  let diff := if neg then d - m else m - d
  let z := diff * 2 ^ w / (m + d)
  let a := 2 * atanhFix w z
  let q := a * 2 ^ w / ln2Fix w
  enclOf (n * 2 ^ w + (if neg then -q else q)) (-(w : Int))

def log2F (a : FVal) : LaneRes :=
  match a with
  | .nan => sfuExact .nan 0
  | .inf s => if s then sfuExact .nan flInv else sfuExact (.inf false) 0
  | .fin s m e =>
    if m = 0 then sfuExact (.inf true) flDz
    else if s then sfuExact .nan flInv
    else if m = 2 ^ Nat.log2 m then sfuExact (FVal.ofInt (topExp m e)) 0
    else sfuEncl (log2Encl m e)

/-- The quadrant of x and the rest r in it, with `w` bits; none where `w` cannot tell. -/
def reduceArg (m : Nat) (e : Int) (w : Nat) : Option (Nat × Nat) :=
  let p := w + 200
  let hp := (halfPiFix p).toNat
  let x := fixOf m e p
  let q := x / hp
  let r := x % hp
  let wrong := 2 ^ 24 * (q + 1)
  if r ≤ wrong ∨ hp - r ≤ wrong then none else some (q % 4, r / 2 ^ 200)

def sinEncl (s : Bool) (m : Nat) (e : Int) (w : Nat) : Encl :=
  (reduceArg m e w).bind (fun (q, r) =>
    let v := if q % 2 = 0 then sinFix w r else cosFix w r
    enclOf (if (decide (q ≥ 2)) != s then -v else v) (-(w : Int)))

def cosEncl (m : Nat) (e : Int) (w : Nat) : Encl :=
  (reduceArg m e w).bind (fun (q, r) =>
    let v := if q % 2 = 0 then cosFix w r else sinFix w r
    enclOf (if q = 1 ∨ q = 2 then -v else v) (-(w : Int)))

def sinF (a : FVal) : LaneRes :=
  match a with
  | .nan => sfuExact .nan 0
  | .inf _ => sfuExact .nan flInv
  | .fin s m e =>
    if m = 0 then sfuExact (.fin s 0 0) 0
    else if topExp m e < -20 then justBelow s m e
    else sfuEncl (sinEncl s m e)

def cosF (a : FVal) : LaneRes :=
  match a with
  | .nan => sfuExact .nan 0
  | .inf _ => sfuExact .nan flInv
  | .fin _ m e =>
    if m = 0 then sfuExact (.fin false 1 0) 0
    else if topExp m e < -20 then justBelow false 1 0
    else sfuEncl (cosEncl m e)

/-- tanh x = (1 - t) / (1 + t), t = e^(-2x), at one precision. -/
def tanhEncl (s : Bool) (m : Nat) (e : Int) (w : Nat) : Encl :=
  let y := fixOf m (e + 1) w
  let l := (ln2Fix w).toNat
  let n := y / l
  let f := y % l
  let t := 2 ^ (2 * w) / (expFix w f).toNat / 2 ^ n
  let v := (2 ^ w - t) * 2 ^ w / (2 ^ w + t)
  some (s, v, -(w : Int))

def tanhF (a : FVal) : LaneRes :=
  match a with
  | .nan => sfuExact .nan 0
  | .inf s => sfuExact (.fin s 1 0) 0
  | .fin s m e =>
    if m = 0 then sfuExact (.fin s 0 0) 0
    else if topExp m e < -20 then justBelow s m e
    else if topExp m e ≥ 5 then justBelow s 1 0
    else sfuEncl (tanhEncl s m e)

/-! ### The instructions -/

/-- An SFU function of one FP32 source, latch l3. -/
def sfu (s : State) (i : Instr) (h : Hd) (d a : Opnd) (n0 a0 : Bool) (f : FVal → LaneRes) : Res :=
  s.compute (shapeX i h [(a, .w32)] (some (d, 32)) (some 3)) (fun _ _ _ v => f (src32 n0 a0 (v.getD 0 0)))

def execFrcp (h : Hd) (d a : Opnd) (n0 a0 : Bool) (s : State) : Res := sfu s (.frcp h d a n0 a0) h d a n0 a0 rcpF
def execFrsq (h : Hd) (d a : Opnd) (n0 a0 : Bool) (s : State) : Res := sfu s (.frsq h d a n0 a0) h d a n0 a0 rsqF
def execFexp2 (h : Hd) (d a : Opnd) (n0 a0 : Bool) (s : State) : Res := sfu s (.fexp2 h d a n0 a0) h d a n0 a0 exp2F
def execFlog2 (h : Hd) (d a : Opnd) (n0 a0 : Bool) (s : State) : Res := sfu s (.flog2 h d a n0 a0) h d a n0 a0 log2F
def execFsin (h : Hd) (d a : Opnd) (n0 a0 : Bool) (s : State) : Res := sfu s (.fsin h d a n0 a0) h d a n0 a0 sinF
def execFcos (h : Hd) (d a : Opnd) (n0 a0 : Bool) (s : State) : Res := sfu s (.fcos h d a n0 a0) h d a n0 a0 cosF
def execFtanh (h : Hd) (d a : Opnd) (n0 a0 : Bool) (s : State) : Res := sfu s (.ftanh h d a n0 a0) h d a n0 a0 tanhF

end Sys2Proof.Machine
end

