-- ==== Sys2Proof/Machine/Lane.lean ====
section
/-!
DEFINITION. The predicate and lane instructions (R210 to R216), on the ALU with latch l0: they see the active lanes of the issuing
course, every source read before any lane is written.
-/

namespace Sys2Proof.Machine

/-- An instruction whose lanes see each other's sources: `f` takes what every lane read and a lane's own, and gives its result. -/
def acrossLanes (s : State) (sh : Shape) (f : List LaneOut → LaneOut → LaneRes) : Res :=
  s.lanesWith sh (fun _ st _ _ _ => .ok (LaneRes.value 0, st))
    (fun x outs t => commitLanes sh x (outs.map (fun o => { o with res := f outs o })) t)

/-- PLOP: no value and no latch (R211). -/
def execPlop (h : Hd) (pd pa pb pc : Fin 8) (lut : BitVec 8) (s : State) : Res :=
  s.compute { shapeX (.plop h pd pa pb pc lut) h [] none none with pd := pd }
    (fun _ _ t _ =>
      let n := 4 * (t.pred pa).toNat + 2 * (t.pred pb).toNat + (t.pred pc).toNat
      { LaneRes.value 0 with pd := lut.getLsbD n })

/-- The predicates that a mask names, set from the bits of a word. -/
def setPreds (mask : BitVec 7) (x : Nat) (t : Thread) : Thread :=
  { t with preds := (t.preds &&& ~~~mask) ||| (BitVec.ofNat 7 x &&& mask) }

/-- PMOV (R212). -/
def execPmov (h : Hd) (t : Sum Opnd (Opnd × BitVec 7)) (s : State) : Res :=
  match t with
  | .inl d => s.compute (shapeX (.pmov h t) h [] (some (d, 32)) (some 0)) (fun _ _ th _ => LaneRes.value th.preds.toNat)
  | .inr (a, mask) =>
    s.compute (shapeX (.pmov h t) h [(a, .w32)] none none)
      (fun _ _ _ v => { LaneRes.value 0 with th := setPreds mask (v.getD 0 0) })

/-- VOTE: the lanes in which the operand is true, and what the mode makes of them (R213). -/
def voteOf (mode : VMode) (gs : List (Nat × Bool)) : Bool × Nat :=
  let all := gs.all (·.2)
  let any := gs.any (·.2)
  let mask := (maskOfLanes ((gs.filter (·.2)).map (·.1))).toNat
  match mode with
  | .all => (all, maskWord all)
  | .any => (any, maskWord any)
  | .uni => (all || !any, maskWord (all || !any))
  | .ballot => (decide (mask ≠ 0), mask)

def execVote (h : Hd) (mode : VMode) (pd : Fin 8) (d : Opnd) (ps : Fin 8) (psn : Bool) (s : State) : Res :=
  s.compute { shapeX (.vote h mode pd d ps psn) h [] (some (d, 32)) (some 0) with pd := pd }
    (fun x _ _ _ =>
      let r := voteOf mode ((x.active h.pneg h.pred).map (fun p => (p.1, p.2.pred ps != psn)))
      { LaneRes.value r.2 with pd := r.1 })

/-- The width of a segment (R214). -/
def widOf : Wid → Nat
  | .w32 => 32 | .w1 => 1 | .w2 => 2 | .w4 => 4 | .w8 => 8 | .w16 => 16

/-- The lane that SHFL reads for a lane, none where it leaves the segment (R214). -/
def shflLane (mode : ShMode) (w lane b : Nat) : Option Nat :=
  let j := lane % w
  let t : Int := match mode with
    | .idx => b
    | .up => (j : Int) - b
    | .down => (j : Int) + b
    | .xor => ((j ^^^ b : Nat) : Int)
  if 0 ≤ t ∧ t < w then some (lane - j + t.toNat) else none

def execShfl (h : Hd) (mode : ShMode) (wid : Wid) (pd : Fin 8) (d a b : Opnd) (s : State) : Res :=
  acrossLanes s { shapeX (.shfl h mode wid pd d a b) h [(b, .w32), (a, .w32)] (some (d, 32)) (some 0) with pd := pd }
    (fun outs o =>
      match (shflLane mode (widOf wid) o.lane (o.inp.vals.getD 0 0)).bind (fun l => outs.find? (fun q => q.lane == l)) with
      | some q => { LaneRes.value (q.inp.vals.getD 1 0) with pd := true }
      | none => LaneRes.value (o.inp.vals.getD 1 0))

/-- MATCH (R215). -/
def execMatch (h : Hd) (all w64 : Bool) (pd : Fin 8) (d a : Opnd) (s : State) : Res :=
  acrossLanes s
    { shapeX (.match_ h all w64 pd d a) h [(a, if w64 then .w64 else .w32)] (some (d, 32)) (some 0) with pd := pd }
    (fun outs o =>
      let mine := o.inp.vals.getD 0 0
      let same := outs.filter (fun q => q.inp.vals.getD 0 0 == mine)
      let every := decide (same.length = outs.length)
      let mask := (maskOfLanes (same.map (·.lane))).toNat
      { LaneRes.value (if all then (if every then mask else 0) else mask) with pd := every })

/-- CRED over integers, or over 32-bit patterns and then extended (R216). -/
def credOf (op : COp) (u : Bool) (xs : List Nat) : Int :=
  let is := xs.map (int32 u)
  let pat : (Nat → Nat → Nat) → Int := fun f => int32 u (xs.foldl f (xs.headD 0))
  match op with
  | .add => is.foldl (· + ·) 0
  | .min => is.foldl min (is.headD 0)
  | .max => is.foldl max (is.headD 0)
  | .and => pat (· &&& ·)
  | .or => pat (· ||| ·)
  | .xor => int32 u (xs.foldl (· ^^^ ·) 0)

def execCred (h : Hd) (op : COp) (u : Bool) (d a : Opnd) (s : State) : Res :=
  acrossLanes s (shapeX (.cred h op u d a) h [(a, .w32)] (some (d, 64)) (some 0))
    (fun outs _ => LaneRes.value (BitVec.ofInt 64 (credOf op u (outs.map (fun q => q.inp.vals.getD 0 0)))).toNat)

end Sys2Proof.Machine
end

