-- ==== Sys2Proof/Machine/StreamOps.lean ====
section
/-!
DEFINITION. The stream instructions (R264 to R269), the reading ahead of R260 and the performing of pushes (R151, R257).
-/

namespace Sys2Proof.Machine

/-! ### SOPEN (R249, R251, R255, R265) -/

/-- Ranks of the steps of SOPEN in R265. -/
def rankDesc : Nat := rankPoison + 1
def rankIndex : Nat := rankPoison + 2
def rankIndexBad : Nat := rankPoison + 20
def rankEntries : Nat := rankPoison + 21
def rankPattern : Nat := rankPoison + 22

/-- A stop of the index descriptor's read, after the first descriptor's. -/
def laterStop (e : Stop) : Stop :=
  match e with
  | .trap t => .trap { t with rank := t.rank - rankExec + rankIndex }
  | x => x

/-- The 64 bytes of a descriptor, read as relaxed loads with the traps of a 64-bit LD. -/
def readDesc (s : State) (x : Ctx) (tl va : Nat) : Except Stop (List Byte × State) :=
  let p : Place := .glob va
  let aux2 := aux2Of 0x80 0 0 false
  (checkPlace s x p aux2 { n := 64, rd := true, wr := false }).bind (fun a =>
    let s1 := s.noteLeaf x.b.key.part a.w
    match a.loc with
    | .peer _ _ => laneLoad s1 x tl p aux2 a 64 true
    | _ =>
      (List.range 4).foldl (fun (r : Except Stop (List Byte × State)) i =>
        r.bind (fun q =>
          (laneLoad q.2 x tl p aux2 { a with loc := a.loc.plus (16 * i), va := a.va + 16 * i } 16 false).map (fun e =>
            (q.1 ++ e.1, e.2)))) (.ok ([], s1)))

/-- The live entry of a descriptor in the block (R251), or its bytes as read. -/
def entryOr (s : State) (x : Ctx) (tl : Nat) (addr : Nat) : Except Stop (List Byte × Bool × State) :=
  match (s.block? x.b.key).bind (fun b => b.descs.find? (fun e => e.addr == BitVec.ofNat 64 addr)) with
  | some e => .ok (e.bytes, true, s)
  | none => (readDesc s x tl addr).map (fun r => (r.1, false, r.2))

/-- Taking a descriptor entry of the block. -/
def State.takeEntry (s : State) (k : BKey) (addr : Nat) (bs : List Byte) : State :=
  s.updBlock k (fun b => { b with descs := b.descs ++ [{ addr := BitVec.ofNat 64 addr, bytes := bs }] })

/-- The opening of a port by one lane (R265): the port, with the entries it takes. -/
def openPort (s : State) (x : Ctx) (tl : Nat) (q : Fin 16) (addr : Nat) (off ioff : W64) : Except Stop (Port × State) :=
  let fault : Nat → Bool → Nat → Stop := fun rank ix sub => streamStop rank q false ix 0 sub
  (entryOr s x tl addr).bind (fun r =>
    let d := SDesc.of r.1
    if descBad r.1 then .error (fault rankDesc false 6)
    else
      let ix : Except Stop (Option (List Byte × Bool) × State) :=
        if !d.idx then .ok (none, r.2.2)
        else
          match entryOr r.2.2 x tl d.idxDesc.toNat with
          | .error e => .error (laterStop e)
          | .ok i => if indexBad d i.1 then .error (fault rankIndexBad true 6) else .ok (some (i.1, i.2.1), i.2.2)
      ix.bind (fun i =>
        let live := ((i.2.block? x.b.key).map (fun b => b.descs.length)).getD 0
        let need := (!r.2.1).toNat + (match i.1 with | some (_, held) => (!held).toNat | none => 0)
        if live + need > 16 then .error (fault rankEntries false 7)
        else if !patternAligned d off then .error (fault rankPattern false 5)
        else if i.1.any (fun e => !patternAligned (SDesc.of e.1) ioff) then .error (fault rankPattern true 5)
        else
          let s1 := if r.2.1 then i.2 else i.2.takeEntry x.b.key addr r.1
          let s2 := match i.1 with
            | some (bs, held) => if held then s1 else s1.takeEntry x.b.key d.idxDesc.toNat bs
            | none => s1
          .ok ({ Port.unbound with bound := true, desc := BitVec.ofNat 64 addr, off := off, ioff := ioff }, s2)))

/-- A stream instruction, after which the block keeps only the entries still used. -/
def streamLanes (s : State) (sh : Shape) (f : Ctx → State → Nat → Thread → List Nat → Except Stop (LaneRes × State)) : Res :=
  s.lanesWith sh f (fun x outs t => (commitLanes sh x outs t).updBlock x.b.key Block.pruneDescs)

/-- One lane of SOPEN. -/
def sopenLane (port : Fin 16) (two : Bool) (word : Nat → W64) : LaneFn :=
  fun x st _ t v =>
    (openPort st x t.tl port (v.getD 0 0) (word (v.getD 1 0)) (if two then word (v.getD 2 0) else 0)).map (fun r =>
      ({ LaneRes.value 0 with th := fun u => u.setPort port r.1 }, r.2))

/-- SOPEN binds a port in each active lane. -/
def execSopen (h : Hd) (port : Fin 16) (desc off : Opnd) (ioff : Option Opnd) (o64 : Bool) (s : State) : Res :=
  let w : Pos := if o64 then .w64 else .w32
  let word : Nat → W64 := fun v => if o64 then BitVec.ofNat 64 v else BitVec.ofInt 64 (sintOf 32 v)
  streamLanes s (shapeM (.sopen h port desc off ioff o64) h ([(desc, .w64), (off, w)] ++ (ioff.map (fun o => (o, w))).toList) none)
    (sopenLane port ioff.isSome word)

/-- SCLOSE clears BOUND (R266). -/
def execSclose (h : Hd) (port : Fin 16) (s : State) : Res :=
  streamLanes s (shapeM (.sclose h port) h [] none)
    (fun _ st _ _ _ =>
      .ok ({ LaneRes.value 0 with th := fun u => u.setPort port { u.port port with bound := false, pre := [] } }, st))

/-! ### Positions and fields (R267 to R269) -/

/-- The bound port of a lane with its descriptor, where the SIDE names a position that its DIR uses (R264). -/
def sidePort (s : State) (x : Ctx) (t : Thread) (q : Fin 16) (w : Bool) : Except Stop (Port × SDesc) :=
  let p := t.port q
  if !p.bound then
    .error (.trap { rank := rankUnbound, code := cStreamUnbound, aux0 := BitVec.ofNat 32 q.val, aux1 := 0, aux2 := 0, aux3 := 0 })
  else
    let pos := (if w then p.wpos else p.rpos).toNat
    match (s.block? x.b.key).bind (fun b => b.desc p.desc) with
    | none => .error (streamStop rankPop q w false pos 6)
    | some d =>
      if (w && d.dir == 0) || (!w && d.dir == 1) then .error (streamStop rankDir q w false pos 8) else .ok (p, d)

/-- The selected position. -/
def posSel (p : Port) (w : Bool) : Nat := (if w then p.wpos else p.rpos).toNat

/-- The port with its selected position set; elements read ahead that now lie behind are discarded. -/
def setPos (p : Port) (w : Bool) (n : Nat) : Port :=
  if w then { p with wpos := BitVec.ofNat 64 n }
  else { p with rpos := BitVec.ofNat 64 n, pre := p.pre.filter (fun e => decide (n ≤ e.1.toNat)) }

/-- One lane of SSKIP. -/
def sskipLane (port : Fin 16) (w : Bool) : LaneFn :=
  fun x st _ t v =>
    (sidePort st x t port w).map (fun r =>
      ({ LaneRes.value 0 with th := fun u => u.setPort port (setPos r.1 w (min (2 ^ 64 - 1) (posSel r.1 w + v.headD 0))) }, st))

/-- SSKIP (R267). -/
def execSskip (h : Hd) (port : Fin 16) (n : Opnd) (w : Bool) (s : State) : Res :=
  s.lanes (shapeM (.sskip h port n w) h [(n, .w32)] none)
    (sskipLane port w)

/-- One lane of SPOS. -/
def sposLane (port : Fin 16) (w : Bool) : LaneFn :=
  fun x st _ t _ =>
    (sidePort st x t port w).map (fun r => (LaneRes.value (posSel r.1 w), st))

/-- SPOS (R268). -/
def execSpos (h : Hd) (port : Fin 16) (d : Opnd) (w : Bool) (s : State) : Res :=
  s.lanes (shapeM (.spos h port d w) h [] (some (d, 64)))
    (sposLane port w)

/-- One lane of STEST. -/
def stestLane (port : Fin 16) (mode : StMode) (clr w : Bool) : LaneFn :=
  fun x st _ t _ =>
    (sidePort st x t port w).map (fun r =>
      let left := min (streamLength ((st.block? x.b.key).getD x.b) r.2 r.1 - posSel r.1 w) (2 ^ 32 - 1)
      let res : Nat × Bool := match mode with
        | .eos => (r.1.send.toNat, r.1.send.getLsbD 0)
        | .left _ => (left, decide (left ≠ 0))
      ({ LaneRes.value res.1 with
           pd := res.2, th := fun u => if clr then u.setPort port { u.port port with send := 0 } else u }, st))

/-- STEST (R268). -/
def execStest (h : Hd) (port : Fin 16) (pd : Fin 8) (d : Opnd) (mode : StMode) (clr : Bool) (s : State) : Res :=
  let w := match mode with | .eos => false | .left w => w
  s.lanes { shapeM (.stest h port pd d mode clr) h [] (some (d, 32)) with pd := pd }
    (stestLane port mode clr w)

/-- One lane of SSEEK. -/
def sseekLane (port : Fin 16) (w : Bool) : LaneFn :=
  fun x st _ t v =>
    (sidePort st x t port w).map (fun r =>
      let p := setPos r.1 w (v.headD 0)
      ({ LaneRes.value 0 with th := fun u => u.setPort port (if w then p else { p with send := 0, pre := [] }) }, st))

/-- SSEEK (R267). -/
def execSseek (h : Hd) (port : Fin 16) (pos : Opnd) (w : Bool) (s : State) : Res :=
  s.lanes (shapeM (.sseek h port pos w) h [(pos, .w64)] none)
    (sseekLane port w)

/-- SCFG (R269): the field, and for an offset the check of R255. Its STREAM_FAULT reports RPOS with the write bit clear, whatever the stream's
direction: R259 says no more than the position (DESIGN CHOICE, log 31). -/
def cfgPort (b : Block) (q : Fin 16) (p : Port) (d : SDesc) (f : SField) (v : W64) : Except Stop Port :=
  let p1 : Port := { p with pre := [] }
  match f with
  | .off => if patternAligned d v then .ok { p1 with off := v } else .error (streamStop rankPattern q false false p.rpos.toNat 5)
  | .ioff =>
    if d.idx && (b.desc d.idxDesc).any (fun i => !patternAligned i v) then
      .error (streamStop rankPattern q false true p.rpos.toNat 5)
    else .ok { p1 with ioff := v }
  | .len => .ok { p1 with leno := v }
  | .fill => .ok { p1 with fillo := some v }

/-- One lane of SCFG. -/
def scfgLane (port : Fin 16) (f : SField) : LaneFn :=
  fun c st _ t v =>
    let p := t.port port
    if !p.bound then
      .error (.trap { rank := rankUnbound, code := cStreamUnbound, aux0 := BitVec.ofNat 32 port.val, aux1 := 0, aux2 := 0,
                      aux3 := 0 })
    else
      match (st.block? c.b.key).bind (fun b => (b.desc p.desc).map (fun d => (b, d))) with
      | none => .error (streamStop rankPop port false false p.rpos.toNat 6)
      | some (b, d) =>
        (cfgPort b port p d f (BitVec.ofNat 64 (v.headD 0))).map (fun r =>
          ({ LaneRes.value 0 with th := fun u => u.setPort port r }, st))

def execScfg (h : Hd) (port : Fin 16) (f : SField) (x : Opnd) (s : State) : Res :=
  s.lanes (shapeM (.scfg h port f x) h [(x, .w64)] none)
    (scfgLane port f)

/-! ### Reading ahead and performing pushes -/

/-- A course that issues nothing, for accesses made for a thread outside its instructions. -/
def Course.idle (core slot tl : Nat) : Course :=
  { core := core, id := 0, slot := slot, lanes := [some tl], age := 0, latches := [], chain := 0, stat := .ready, frame := none,
    reinj := [], resume := [], yielded := false, skipCmp := false, resp := [], part := 0 }

/-- The next element a port could read ahead: the first position from RPOS that it does not hold yet. -/
def Port.nextAhead (p : Port) : Nat :=
  (List.range 65).foldl (fun n _ => if p.pre.any (fun e => e.1.toNat == n) then n + 1 else n) p.rpos.toNat

/-- One element read ahead for a port (R260): at most 64 for a thread, within the length, never from a peer, a faulting page, an absent
or a marked line. -/
def execStreamPrefetch (core slot tl : Nat) (port : Fin 16) (s : State) : Res :=
  .next (match s.blockAt? core slot with
    | none => s
    | some b =>
      match b.thread? tl, s.launch? b.key.part b.key.lnum with
      | some t, some l =>
        let p := t.port port
        let held := t.ports.foldl (fun n q => n + q.pre.length) 0
        let n := p.nextAhead
        let x : Ctx := ⟨core, 0, Course.idle core slot tl, b, l⟩
        if !p.bound || decide (held ≥ 64) || decide (t.stat = .exited) then s
        else
          match b.desc p.desc with
          | none => s
          | some d =>
            if d.dir = 1 ∨ n ≥ streamLength b d p then s
            else
              let got : Except Stop (W64 × State) :=
                (elemAddr s x tl 0 0 port false d p n).bind (fun r =>
                  (elemLoc r.2.2 b l 0 port false false n d.own r.1 d.size).bind (fun lw =>
                    (readElem (r.2.2.noteLeaf b.key.part lw.2) x tl 0 lw.1 lw.2 r.1.toNat d.size (d.cache ≥ 3)).map (fun e => (widen d (leNat e.1), e.2))))
              match got with
              | .error _ => s
              | .ok (v, s1) =>
                s1.updThread b.key tl (fun u =>
                  u.setPort port { u.port port with pre := (u.port port).pre ++ [(BitVec.ofNat 64 n, v)] })
      | _, _ => s)

/-- One pending push of a block performed, the `n`-th of its list. -/
def execStreamPushPerform (core slot n : Nat) (s : State) : Res :=
  .next (match s.blockAt? core slot with
    | none => s
    | some b =>
      match b.pushes[n]? with
      | some p => if s.mayPush b p then s.performPush b p else s
      | none => s)

end Sys2Proof.Machine
end

