-- ==== Sys2Proof/Machine/System.lean ====
section
/-!
DEFINITION. The system instructions of R409 but for RFT: TRAP, BRK, RDSR, WRSR and RQSET, with the special registers of R412.
-/

namespace Sys2Proof.Machine

/-! ### TRAP and BRK (R410, R411) -/

/-- A trap of the issuing instruction that resumes behind it: its effects stand. -/
def raiseAfter (sh : Shape) (x : Ctx) (code : Nat) (outs : List LaneOut) (aux0 : List W32) (s : State) : State :=
  (writeLanes sh x outs s).takeTrap x
    { TrapInfo.simple code (maskOfLanes (outs.map (·.lane))) x.pc with aux0 := aux0, after := true }
    (x.pc + BitVec.ofNat 64 sh.size)

/-- TRAP raises TRAP in its active lanes, each with its value of a; in a `trap` handler, or with no active lane, it has no effect. -/
def execTrap (h : Hd) (a : Opnd) (s : State) : Res :=
  let sh := shapeX (.trap h a) h [(a, .w32)] none none
  s.onCourse (fun x =>
    if x.c.masked .trap || (x.active h.pneg h.pred).isEmpty then (s.advance x sh.size).chainEnd x false
    else
      let r := runLanes sh (fun _ st _ _ v => .ok (LaneRes.value (v.headD 0), st)) x s
      match verdict r.stops with
      | .go =>
        raiseAfter sh x cTrap r.outs
          (lanes32.map (fun l => ((r.outs.find? (fun o => o.lane == l)).elim 0 (fun o => BitVec.ofNat 32 o.res.val)))) r.s
      | v => s.stopFor x (x.pc + BitVec.ofNat 64 sh.size) v)

/-- BRK raises DEBUG in its active lanes while a debugger is attached to the launch; otherwise it has no effect. -/
def execBrk (h : Hd) (code : BitVec 16) (s : State) : Res :=
  let sh := shapeX (.brk h code) h [] none none
  s.onCourse (fun x =>
    let act := x.active h.pneg h.pred
    if act.isEmpty || !s.attached x.b.key.part x.b.key.lnum then (s.advance x sh.size).chainEnd x false
    else
      s.takeTrap x { TrapInfo.simple cDebug (maskOfLanes (act.map (·.1))) x.pc with
                     aux0 := everyLane (code.setWidth 32), after := true } (x.pc + BitVec.ofNat 64 sh.size))

/-! ### Special registers (R412 to R414) -/

/-- Entry `n` of the frame's replay queue while its handler runs (R413). -/
def Ctx.entry (x : Ctx) (n : Nat) : Option RqEntry :=
  (x.c.frame.bind (fun f => if f.inh then f.entries[n]? else none))

/-- %rqn.stat of an entry in a lane (R413). -/
def rqStat (e : RqEntry) (r : LaneEnt) : Nat :=
  (e.words.headD 0).toNat / 4 % 256 + 2 ^ 8 + 2 ^ 9 * r.member.toNat + 2 ^ 10 * r.resv.toNat + 2 ^ 11 * r.isDone.toNat
    + 2 ^ 12 * r.cancel.toNat + 2 ^ 13 * r.opcap.toNat + 2 ^ 16 * r.effd.toNat

/-- A field of %rqn in a lane (R413). -/
def rqField (x : Ctx) (lane n f : Nat) : Nat :=
  match x.entry n with
  | none => 0
  | some e =>
    let r := e.lanes.getD lane LaneEnt.none
    if f = 0 then rqStat e r
    else if f ≤ 6 then ((r.ops.getD ((f - 1) / 2) 0).toNat / 2 ^ (32 * ((f - 1) % 2))) % 2 ^ 32
    else if f ≤ 10 then (r.res.toNat / 2 ^ (32 * (f - 7))) % 2 ^ 32
    else e.pc.toNat % 2 ^ 32

/-- The coordinate `i` of an index in a shape (R156). -/
def coordOf (n dx dy i : Nat) : Nat := if i = 0 then n % dx else if i = 1 then n / dx % dy else n / (dx * dy)

/-- What a special register reads as in a lane (R157, R412). The progress registers are those of the block's MCC (R335). -/
def srValue (s : State) (x : Ctx) (lane : Nat) (t : Thread) (r : SReg) : Nat :=
  let d := x.l.d
  let mcc : (Mcc → Nat) → Nat := fun f => if x.b.hasMcc then ((s.mccs.find? (fun m => decide (m.key = x.b.key))).elim 0 f) else 0
  let part : (Partition → Nat) → Nat := fun f => (s.part? x.b.key.part).elim 0 f
  match r with
  | .lane => lane
  | .tid i => coordOf t.tl d.bx d.by_ i.val
  | .bid i => coordOf x.b.key.bl d.gx d.gy i.val
  | .launch => x.b.key.lnum
  | .role => x.b.role.toNat
  | .fpflags => t.fpflags.toNat
  | .fptrap => t.fptrap.toNat
  | .rngctr => t.rngctr.toNat
  | .send n => (t.port n).send.toNat
  | .trapcause => t.trapcause.toNat
  | .trapmask => t.trapmask.toNat
  | .trappc => t.trappc.toNat
  | .trappch => t.trappch.toNat
  | .trapaux n => (t.trapaux.getD n.val 0).toNat
  | .sdcsyn => x.b.sdcsyn.toNat
  | .sdcunit => x.b.sdcunit.toNat
  | .sdctile => x.b.sdctile.toNat
  | .rpc => part (fun p => p.rpc.toNat)
  | .rps => part (fun p => p.rps.toNat)
  | .rpa => part (fun p => p.rpa.toNat)
  | .time => s.ns % 2 ^ 64
  | .clock => s.cycle % 2 ^ 64
  | .mrow => mcc (fun m => if m.wip then m.mrow.toNat else 0)
  | .mcol => mcc (fun m => if m.wip then m.mcol.toNat else 0)
  | .mdone => mcc (fun m => if m.wip then m.mdone.toNat else 0)
  | .mseg => mcc (fun m => if m.wip then m.mseg.toNat else 0)
  | .rq n f => rqField x lane n.val f.val

/-- Width of a special register (R412). -/
def srBits : SReg → Nat
  | .rngctr => 64
  | .time => 64
  | .clock => 64
  | .mdone => 64
  | _ => 32

/-- RDSR reads in each active lane. -/
def execRdsr (h : Hd) (d : Opnd) (r : SReg) (s : State) : Res :=
  s.lanes (shapeX (.rdsr h d r) h [] (some (d, srBits r)) (some 0))
    (fun x st lane t _ => .ok (LaneRes.value (srValue st x lane t r), st))

/-- Writing a special register; reserved bits are ignored (R9, R99, R247). -/
def srWrite (r : SReg) (v : Nat) (t : Thread) : Thread :=
  match r with
  | .fpflags => { t with fpflags := BitVec.ofNat 32 (v % 32) }
  | .fptrap => { t with fptrap := BitVec.ofNat 32 (v % 32) }
  | .rngctr => { t with rngctr := BitVec.ofNat 64 v }
  | .send n => t.setPort n { t.port n with send := BitVec.ofNat 32 (v % 4) }
  | _ => t

/-- WRSR writes in each active lane. -/
def execWrsr (h : Hd) (r : SReg) (a : Opnd) (s : State) : Res :=
  s.compute (shapeX (.wrsr h r a) h [(a, if srBits r = 64 then .w64 else .w32)] none none)
    (fun _ _ _ v => { LaneRes.value 0 with th := srWrite r (v.headD 0) })

/-! ### RQSET (R415) -/

/-- `x` with 32-bit word `w` replaced. -/
def putWord (x w v : Nat) : Nat := x - x / 2 ^ (32 * w) % 2 ^ 32 * 2 ^ (32 * w) + v % 2 ^ 32 * 2 ^ (32 * w)

/-- One lane's edit of an entry. -/
def rqEdit (op : RqOp) (v : Nat) (r : LaneEnt) : LaneEnt :=
  match op with
  | .cancel => { r with cancel := true }
  | .done => { r with isDone := true }
  | .op word opn _ =>
    { r with ops := setAt 0 r.ops opn.val (BitVec.ofNat 64 (putWord (r.ops.getD opn.val 0).toNat word.toNat v)),
             opcap := r.opcap ||| (1 <<< opn.val : BitVec 3) }
  | .res word _ =>
    { r with res := BitVec.ofNat 128 (putWord (if r.resv then r.res.toNat else 0) word.val v), resv := true }

/-- The operand of RQSET. -/
def rqOpnd : RqOp → List (Opnd × Pos)
  | .op _ _ a => [(a, .w32)]
  | .res _ a => [(a, .w32)]
  | _ => []

/-- RQSET edits entry IDX for each active lane that is a member of it; the edits take effect at RFT. -/
def execRqset (h : Hd) (op : RqOp) (idx : Fin 8) (s : State) : Res :=
  let sh := shapeX (.rqset h op idx) h (rqOpnd op) none none
  s.lanesWith sh (fun _ st _ _ v => .ok (LaneRes.value (v.headD 0), st))
    (fun x outs t =>
      let edit : RqEntry → RqEntry := fun e =>
        { e with lanes := (lanes32.zip e.lanes).map (fun p =>
            match outs.find? (fun o => o.lane == p.1) with
            | some o => if p.2.member then rqEdit op o.res.val p.2 else p.2
            | none => p.2) }
      let t1 := t.updCourse x.core x.id (fun c =>
        { c with frame := c.frame.map (fun f => { f with entries := modifyAt edit f.entries idx.val }) })
      commitLanes sh x outs t1)

end Sys2Proof.Machine
end

