-- ==== Sys2Proof/Machine/Dispatch.lean ====
section
/-!
DEFINITION. The dispatch: one arm per instruction, each a direct call of its meaning.
-/

namespace Sys2Proof.Machine

/-- What one instruction, event or command does to the state. -/
def exec (i : Instr) (s : State) : Host.Outcome State Fault Refusal :=
  match i with
  | .nopC h => Sys2Proof.Machine.execNopC h s
  | .nop h => Sys2Proof.Machine.execNop h s
  | .braC h off => Sys2Proof.Machine.execBraC h off s
  | .bra h off => Sys2Proof.Machine.execBra h off s
  | .brx h a => Sys2Proof.Machine.execBrx h a s
  | .call h d t => Sys2Proof.Machine.execCall h d t s
  | .retC h => Sys2Proof.Machine.execRetC h s
  | .ret h a => Sys2Proof.Machine.execRet h a s
  | .exitC h => Sys2Proof.Machine.execExitC h s
  | .exit h => Sys2Proof.Machine.execExit h s
  | .reformC h => Sys2Proof.Machine.execReformC h s
  | .reform h => Sys2Proof.Machine.execReform h s
  | .yieldC h => Sys2Proof.Machine.execYieldC h s
  | .yield h => Sys2Proof.Machine.execYield h s
  | .barC h i0 => Sys2Proof.Machine.execBarC h i0 s
  | .bar h i0 arv count => Sys2Proof.Machine.execBar h i0 arv count s
  | .gbar h arv => Sys2Proof.Machine.execGbar h arv s
  | .gbarPhaseComplete part lnum gang => Sys2Proof.Machine.execGbarPhaseComplete part lnum gang s
  | .wait h a x sp scope => Sys2Proof.Machine.execWait h a x sp scope s
  | .stampReevaluate core slot tl => Sys2Proof.Machine.execStampReevaluate core slot tl s
  | .trap h a => Sys2Proof.Machine.execTrap h a s
  | .brk h code => Sys2Proof.Machine.execBrk h code s
  | .rft h => Sys2Proof.Machine.execRft h s
  | .rdsr h d r => Sys2Proof.Machine.execRdsr h d r s
  | .wrsr h r a => Sys2Proof.Machine.execWrsr h r a s
  | .rqset h op idx => Sys2Proof.Machine.execRqset h op idx s
  | .dlaunch h d a queue => Sys2Proof.Machine.execDlaunch h d a queue s
  | .iaddC h d s0 => Sys2Proof.Machine.execIaddC h d s0 s
  | .iadd h d a b u sat => Sys2Proof.Machine.execIadd h d a b u sat s
  | .isubC h d s0 => Sys2Proof.Machine.execIsubC h d s0 s
  | .isub h d a b u sat => Sys2Proof.Machine.execIsub h d a b u sat s
  | .imul h d a b u sat => Sys2Proof.Machine.execImul h d a b u sat s
  | .imulh h d a b u => Sys2Proof.Machine.execImulh h d a b u s
  | .imad h d a b c u sat => Sys2Proof.Machine.execImad h d a b c u sat s
  | .imin h d a b u => Sys2Proof.Machine.execImin h d a b u s
  | .imax h d a b u => Sys2Proof.Machine.execImax h d a b u s
  | .iabs h d a sat => Sys2Proof.Machine.execIabs h d a sat s
  | .iadd64 h d a b u sat => Sys2Proof.Machine.execIadd64 h d a b u sat s
  | .lea h d a b u sh => Sys2Proof.Machine.execLea h d a b u sh s
  | .andC h d s0 => Sys2Proof.Machine.execAndC h d s0 s
  | .and h d a b nb => Sys2Proof.Machine.execAnd h d a b nb s
  | .orC h d s0 => Sys2Proof.Machine.execOrC h d s0 s
  | .or h d a b nb => Sys2Proof.Machine.execOr h d a b nb s
  | .xorC h d s0 => Sys2Proof.Machine.execXorC h d s0 s
  | .xor h d a b nb => Sys2Proof.Machine.execXor h d a b nb s
  | .shlC h d s0 => Sys2Proof.Machine.execShlC h d s0 s
  | .shl h d a b => Sys2Proof.Machine.execShl h d a b s
  | .shrC h d s0 => Sys2Proof.Machine.execShrC h d s0 s
  | .shr h d a b => Sys2Proof.Machine.execShr h d a b s
  | .sar h d a b => Sys2Proof.Machine.execSar h d a b s
  | .shf h d lo hi s0 left => Sys2Proof.Machine.execShf h d lo hi s0 left s
  | .bfx h d a pl u => Sys2Proof.Machine.execBfx h d a pl u s
  | .bfi h d a ins pl => Sys2Proof.Machine.execBfi h d a ins pl s
  | .popc h d a => Sys2Proof.Machine.execPopc h d a s
  | .clz h d a => Sys2Proof.Machine.execClz h d a s
  | .brev h d a => Sys2Proof.Machine.execBrev h d a s
  | .movC h d s0 => Sys2Proof.Machine.execMovC h d s0 s
  | .mov h d a => Sys2Proof.Machine.execMov h d a s
  | .movl h d a => Sys2Proof.Machine.execMovl h d a s
  | .sel h d a b ps psn => Sys2Proof.Machine.execSel h d a b ps psn s
  | .icmp h pd d a b u cmp => Sys2Proof.Machine.execIcmp h pd d a b u cmp s
  | .idiv h d a b u => Sys2Proof.Machine.execIdiv h d a b u s
  | .irem h d a b u => Sys2Proof.Machine.execIrem h d a b u s
  | .prmt h d a b c => Sys2Proof.Machine.execPrmt h d a b c s
  | .faddC h d s0 => Sys2Proof.Machine.execFaddC h d s0 s
  | .fadd h d a b r m => Sys2Proof.Machine.execFadd h d a b r m s
  | .fsub h d a b r m => Sys2Proof.Machine.execFsub h d a b r m s
  | .fmulC h d s0 => Sys2Proof.Machine.execFmulC h d s0 s
  | .fmul h d a b r m => Sys2Proof.Machine.execFmul h d a b r m s
  | .ffma h d a b c r m n2 => Sys2Proof.Machine.execFfma h d a b c r m n2 s
  | .fmin h d a b m => Sys2Proof.Machine.execFmin h d a b m s
  | .fmax h d a b m => Sys2Proof.Machine.execFmax h d a b m s
  | .fcmp h pd d a b cmp m => Sys2Proof.Machine.execFcmp h pd d a b cmp m s
  | .fclass h d a => Sys2Proof.Machine.execFclass h d a s
  | .fdiv h d a b r m => Sys2Proof.Machine.execFdiv h d a b r m s
  | .fsqrt h d a r n0 a0 => Sys2Proof.Machine.execFsqrt h d a r n0 a0 s
  | .frcp h d a n0 a0 => Sys2Proof.Machine.execFrcp h d a n0 a0 s
  | .frsq h d a n0 a0 => Sys2Proof.Machine.execFrsq h d a n0 a0 s
  | .fexp2 h d a n0 a0 => Sys2Proof.Machine.execFexp2 h d a n0 a0 s
  | .flog2 h d a n0 a0 => Sys2Proof.Machine.execFlog2 h d a n0 a0 s
  | .fsin h d a n0 a0 => Sys2Proof.Machine.execFsin h d a n0 a0 s
  | .fcos h d a n0 a0 => Sys2Proof.Machine.execFcos h d a n0 a0 s
  | .ftanh h d a n0 a0 => Sys2Proof.Machine.execFtanh h d a n0 a0 s
  | .fcvt h d a dfmt sfmt sel r => Sys2Proof.Machine.execFcvt h d a dfmt sfmt sel r s
  | .i2f h d a dfmt sfmt sel u r => Sys2Proof.Machine.execI2f h d a dfmt sfmt sel u r s
  | .f2i h d a dfmt sfmt sel u r => Sys2Proof.Machine.execF2i h d a dfmt sfmt sel u r s
  | .pfop h d a b op bf r m => Sys2Proof.Machine.execPfop h d a b op bf r m s
  | .frnd h d a r n0 a0 => Sys2Proof.Machine.execFrnd h d a r n0 a0 s
  | .fscale h d a n r n1 a1 => Sys2Proof.Machine.execFscale h d a n r n1 a1 s
  | .plop h pd pa pb pc lut => Sys2Proof.Machine.execPlop h pd pa pb pc lut s
  | .pmov h t => Sys2Proof.Machine.execPmov h t s
  | .vote h mode pd d ps psn => Sys2Proof.Machine.execVote h mode pd d ps psn s
  | .shfl h mode wid pd d a b => Sys2Proof.Machine.execShfl h mode wid pd d a b s
  | .match_ h all w64 pd d a => Sys2Proof.Machine.execMatch h all w64 pd d a s
  | .cred h op u d a => Sys2Proof.Machine.execCred h op u d a s
  | .ld h d m sx => Sys2Proof.Machine.execLd h d m sx s
  | .st h m a => Sys2Proof.Machine.execSt h m a s
  | .ldc h d m sx => Sys2Proof.Machine.execLdc h d m sx s
  | .atom h op u d m a => Sys2Proof.Machine.execAtom h op u d m a s
  | .cas h pd d m cmp new => Sys2Proof.Machine.execCas h pd d m cmp new s
  | .fence h kind scope ro => Sys2Proof.Machine.execFence h kind scope ro s
  | .afence h => Sys2Proof.Machine.execAfence h s
  | .cinv h => Sys2Proof.Machine.execCinv h s
  | .pref h m => Sys2Proof.Machine.execPref h m s
  | .qpush h n a w64 => Sys2Proof.Machine.execQpush h n a w64 s
  | .qpop h pd d n w64 try_ => Sys2Proof.Machine.execQpop h pd d n w64 try_ s
  | .queueDeliver part queue => Sys2Proof.Machine.execQueueDeliver part queue s
  | .rng h cnt d ctr => Sys2Proof.Machine.execRng h cnt d ctr s
  | .probe h pd d m => Sys2Proof.Machine.execProbe h pd d m s
  | .xbar h op base offs => Sys2Proof.Machine.execXbar h op base offs s
  | .xbarWaitProceed core slot tl => Sys2Proof.Machine.execXbarWaitProceed core slot tl s
  | .sopen h port desc off ioff o64 => Sys2Proof.Machine.execSopen h port desc off ioff o64 s
  | .sclose h port => Sys2Proof.Machine.execSclose h port s
  | .sskip h port n w => Sys2Proof.Machine.execSskip h port n w s
  | .spos h port d w => Sys2Proof.Machine.execSpos h port d w s
  | .stest h port pd d mode clr => Sys2Proof.Machine.execStest h port pd d mode clr s
  | .sseek h port pos w => Sys2Proof.Machine.execSseek h port pos w s
  | .scfg h port f x => Sys2Proof.Machine.execScfg h port f x s
  | .streamPrefetch core slot tl port => Sys2Proof.Machine.execStreamPrefetch core slot tl port s
  | .streamPushPerform core slot n => Sys2Proof.Machine.execStreamPushPerform core slot n s
  | .accz h k => Sys2Proof.Machine.execAccz h k s
  | .accadd h k a fa sel u neg => Sys2Proof.Machine.execAccadd h k a fa sel u neg s
  | .accmac h k a b fa fb sel u neg => Sys2Proof.Machine.execAccmac h k a b fa fb sel u neg s
  | .accdot h k a b fa fb u neg => Sys2Proof.Machine.execAccdot h k a b fa fb u neg s
  | .accneg h kd ks => Sys2Proof.Machine.execAccneg h kd ks s
  | .accscl h kd ks n => Sys2Proof.Machine.execAccscl h kd ks n s
  | .accmov h kd ks => Sys2Proof.Machine.execAccmov h kd ks s
  | .accnorm h kd ks => Sys2Proof.Machine.execAccnorm h kd ks s
  | .accrnd h d k dfmt u r => Sys2Proof.Machine.execAccrnd h d k dfmt u r s
  | .accrds h d k sel => Sys2Proof.Machine.execAccrds h d k sel s
  | .accwrs h k a sel => Sys2Proof.Machine.execAccwrs h k a sel s
  | .accred h kd ks wid => Sys2Proof.Machine.execAccred h kd ks wid s
  | .accld h k m => Sys2Proof.Machine.execAccld h k m s
  | .accst h m k => Sys2Proof.Machine.execAccst h m k s
  | .aacc h m t => Sys2Proof.Machine.execAacc h m t s
  | .amac h m a b fmt neg => Sys2Proof.Machine.execAmac h m a b fmt neg s
  | .acctest h mode pd d k => Sys2Proof.Machine.execAcctest h mode pd d k s
  | .accaddk h kd ks neg => Sys2Proof.Machine.execAccaddk h kd ks neg s
  | .aLineEvict line die => Sys2Proof.Machine.execALineEvict line die s
  | .cpy h f s0 d x => Sys2Proof.Machine.execCpy h f s0 d x s
  | .cpyg h f s0 d x => Sys2Proof.Machine.execCpyg h f s0 d x s
  | .cpys h f s0 d x => Sys2Proof.Machine.execCpys h f s0 d x s
  | .cpym h f s0 r x => Sys2Proof.Machine.execCpym h f s0 r x s
  | .cpya h f t s0 d x => Sys2Proof.Machine.execCpya h f t s0 d x s
  | .publish h b n x => Sys2Proof.Machine.execPublish h b n x s
  | .cpyq h d wt => Sys2Proof.Machine.execCpyq h d wt s
  | .cpyx h f esz s0 d x => Sys2Proof.Machine.execCpyx h f esz s0 d x s
  | .copyLineArrival copy recv line => Sys2Proof.Machine.execCopyLineArrival copy recv line s
  | .presenceWaitResume core course => Sys2Proof.Machine.execPresenceWaitResume core course s
  | .copyStampWrite copy => Sys2Proof.Machine.execCopyStampWrite copy s
  | .copySlowPath copy recv line => Sys2Proof.Machine.execCopySlowPath copy recv line s
  | .publishSwap copy => Sys2Proof.Machine.execPublishSwap copy s
  | .xadd lit d a b => Sys2Proof.Machine.execXadd lit d a b s
  | .xsub lit d a b => Sys2Proof.Machine.execXsub lit d a b s
  | .xmul lit d a b v => Sys2Proof.Machine.execXmul lit d a b v s
  | .xlog lit op d a b => Sys2Proof.Machine.execXlog lit op d a b s
  | .xshf lit op d a b => Sys2Proof.Machine.execXshf lit op d a b s
  | .xmov lit d a => Sys2Proof.Machine.execXmov lit d a s
  | .xmovl d hi x => Sys2Proof.Machine.execXmovl d hi x s
  | .xcmp lit cmp u d a b => Sys2Proof.Machine.execXcmp lit cmp u d a b s
  | .xbr lit cond a off => Sys2Proof.Machine.execXbr lit cond a off s
  | .xloop x off => Sys2Proof.Machine.execXloop x off s
  | .xld lit d m sx => Sys2Proof.Machine.execXld lit d m sx s
  | .xst lit m a => Sys2Proof.Machine.execXst lit m a s
  | .xjmp lit link t => Sys2Proof.Machine.execXjmp lit link t s
  | .xsig lit k => Sys2Proof.Machine.execXsig lit k s
  | .xwait lit a x => Sys2Proof.Machine.execXwait lit a x s
  | .tld lit t off pitch rowb nrow => Sys2Proof.Machine.execTld lit t off pitch rowb nrow s
  | .tgath lit f t off idx pitch rowb => Sys2Proof.Machine.execTgath lit f t off idx pitch rowb s
  | .mma m t a b => Sys2Proof.Machine.execMma m t a b s
  | .tmma m t a b => Sys2Proof.Machine.execTmma m t a b s
  | .tzero t r => Sys2Proof.Machine.execTzero t r s
  | .tdrain lit t off pitch d clr r => Sys2Proof.Machine.execTdrain lit t off pitch d clr r s
  | .tcode lit t s0 => Sys2Proof.Machine.execTcode lit t s0 s
  | .tscale lit t sp addr pitch => Sys2Proof.Machine.execTscale lit t sp addr pitch s
  | .tqnt lit t off soff pitch fmt rnd clr r => Sys2Proof.Machine.execTqnt lit t off soff pitch fmt rnd clr r s
  | .twalk lit m t d desc budget => Sys2Proof.Machine.execTwalk lit m t d desc budget s
  | .tresume lit m t d desc budget => Sys2Proof.Machine.execTresume lit m t d desc budget s
  | .tstate lit ld off => Sys2Proof.Machine.execTstate lit ld off s
  | .tchk d clr => Sys2Proof.Machine.execTchk d clr s
  | .tacc lit t s0 r => Sys2Proof.Machine.execTacc lit t s0 r s
  | .tsync => Sys2Proof.Machine.execTsync s
  | .stagedMultiplyDrain core fault => Sys2Proof.Machine.execStagedMultiplyDrain core fault s
  | .walkStepStart core step => Sys2Proof.Machine.execWalkStepStart core step s
  | .tmmaJoin core => Sys2Proof.Machine.execTmmaJoin core s
  | .tmmaComplete core => Sys2Proof.Machine.execTmmaComplete core s
  | .rpopen h d n => Sys2Proof.Machine.execRpopen h d n s
  | .rpseal h d n => Sys2Proof.Machine.execRpseal h d n s
  | .sealReleaseDone part => Sys2Proof.Machine.execSealReleaseDone part s
  | .plateSeal part => Sys2Proof.Machine.execPlateSeal part s
  | .ctrrd h d act grp ctr => Sys2Proof.Machine.execCtrrd h d act grp ctr s
  | .pmark h tag a => Sys2Proof.Machine.execPmark h tag a s
  | .tsrd h d ord => Sys2Proof.Machine.execTsrd h d ord s
  | .binEmitAge core bin => Sys2Proof.Machine.execBinEmitAge core bin s
  | .binEmitIdle core => Sys2Proof.Machine.execBinEmitIdle core s
  | .binEmitDeferred core => Sys2Proof.Machine.execBinEmitDeferred core s
  | .courseRefile core course => Sys2Proof.Machine.execCourseRefile core course s
  | .dispatchUnit part lnum binds => Sys2Proof.Machine.execDispatchUnit part lnum binds s
  | .snapshotPageCopy page => Sys2Proof.Machine.execSnapshotPageCopy page s
  | .underlayPoolWaitEnd page => Sys2Proof.Machine.execUnderlayPoolWaitEnd page s
  | .blockRetire core slot => Sys2Proof.Machine.execBlockRetire core slot s
  | .blockRestore part lnum bind => Sys2Proof.Machine.execBlockRestore part lnum bind s
  | .watchdog part lnum => Sys2Proof.Machine.execWatchdog part lnum s
  | .trapFrameWaitEnd core course => Sys2Proof.Machine.execTrapFrameWaitEnd core course s
  | .supervisorTrapTake core course => Sys2Proof.Machine.execSupervisorTrapTake core course s
  | .page core course => Sys2Proof.Machine.execPage core course s
  | .gutterRecordWaitEnd => Sys2Proof.Machine.execGutterRecordWaitEnd s
  | .voteTimeout core since => Sys2Proof.Machine.execVoteTimeout core since s
  | .containment part lnum cause => Sys2Proof.Machine.execContainment part lnum cause s
  | .suspectHalve => Sys2Proof.Machine.execSuspectHalve s
  | .quarantineIdle core => Sys2Proof.Machine.execQuarantineIdle core s
  | .eaveAccept => Sys2Proof.Machine.execEaveAccept s
  | .eaveDrain => Sys2Proof.Machine.execEaveDrain s
  | .scanAbort core => Sys2Proof.Machine.execScanAbort core s
  | .spareRepair core => Sys2Proof.Machine.execSpareRepair core s
  | .pageWalk part va => Sys2Proof.Machine.execPageWalk part va s
  | .tlbinvComplete => Sys2Proof.Machine.execTlbinvComplete s
  | .hostHdmWrite addr data => Sys2Proof.Machine.execHostHdmWrite addr data s
  | .peerWriteRequest peer addr bytes => Sys2Proof.Machine.execPeerWriteRequest peer addr bytes s
  | .peerAtomicRequest peer op u w64 addr data => Sys2Proof.Machine.execPeerAtomicRequest peer op u w64 addr data s
  | .accumulatorAtomic peer addr payload => Sys2Proof.Machine.execAccumulatorAtomic peer addr payload s
  | .ualinkTimeout req => Sys2Proof.Machine.execUalinkTimeout req s
  | .poisonMarkRequest peer line => Sys2Proof.Machine.execPoisonMarkRequest peer line s
  | .counterGroupRotate part => Sys2Proof.Machine.execCounterGroupRotate part s
  | .debugHalt core course => Sys2Proof.Machine.execDebugHalt core course s
  | .manifestCompareDone => Sys2Proof.Machine.execManifestCompareDone s
  | .throttleRecover island => Sys2Proof.Machine.execThrottleRecover island s
  | .accessPerformed n => Sys2Proof.Machine.execAccessPerformed n s
  | .lineWriteBack line => Sys2Proof.Machine.execLineWriteBack line s
  | .launchDoorbell agent part queue addr => Sys2Proof.Machine.execLaunchDoorbell agent part queue addr s
  | .preemptVacate part lnum requester units images => Sys2Proof.Machine.execPreemptVacate part lnum requester units images s
  | .ownerPreemptCmd agent part lnum units images => Sys2Proof.Machine.execOwnerPreemptCmd agent part lnum units images s
  | .gqackRetry seq => Sys2Proof.Machine.execGqackRetry seq s
  | .gqackFatal seq => Sys2Proof.Machine.execGqackFatal seq s
  | .gqhead agent expect new => Sys2Proof.Machine.execGqhead agent expect new s
  | .gqbase agent addr => Sys2Proof.Machine.execGqbase agent addr s
  | .gqRingWriteFail => Sys2Proof.Machine.execGqRingWriteFail s
  | .errorDetect e => Sys2Proof.Machine.execErrorDetect e s
  | .bankClearRead agent unit => Sys2Proof.Machine.execBankClearRead agent unit s
  | .trelvyVote core voteCore pass => Sys2Proof.Machine.execTrelvyVote core voteCore pass s
  | .dieReset die => Sys2Proof.Machine.execDieReset die s
  | .dieReturnToService die => Sys2Proof.Machine.execDieReturnToService die s
  | .infieldScan core pass => Sys2Proof.Machine.execInfieldScan core pass s
  | .tlbinvAll agent part => Sys2Proof.Machine.execTlbinvAll agent part s
  | .tlbinvPage agent part va => Sys2Proof.Machine.execTlbinvPage agent part va s
  | .hostHdmRead addr n => Sys2Proof.Machine.execHostHdmRead addr n s
  | .hostSnoop line inv => Sys2Proof.Machine.execHostSnoop line inv s
  | .bisnpResponse line => Sys2Proof.Machine.execBisnpResponse line s
  | .spdmGetVersion => Sys2Proof.Machine.execSpdmGetVersion s
  | .spdmGetCapabilities => Sys2Proof.Machine.execSpdmGetCapabilities s
  | .spdmNegotiateAlgorithms => Sys2Proof.Machine.execSpdmNegotiateAlgorithms s
  | .spdmGetDigests => Sys2Proof.Machine.execSpdmGetDigests s
  | .spdmGetCertificate slot => Sys2Proof.Machine.execSpdmGetCertificate slot s
  | .spdmChallenge slot => Sys2Proof.Machine.execSpdmChallenge slot s
  | .spdmGetMeasurements index => Sys2Proof.Machine.execSpdmGetMeasurements index s
  | .spdmKeyExchange => Sys2Proof.Machine.execSpdmKeyExchange s
  | .spdmFinish => Sys2Proof.Machine.execSpdmFinish s
  | .spdmEndSession => Sys2Proof.Machine.execSpdmEndSession s
  | .peerReadRequest peer addr n => Sys2Proof.Machine.execPeerReadRequest peer addr n s
  | .peerResponse req data => Sys2Proof.Machine.execPeerResponse req data s
  | .topologyUpdate first rest => Sys2Proof.Machine.execTopologyUpdate first rest s
  | .pcSample part core quad reason => Sys2Proof.Machine.execPcSample part core quad reason s
  | .ctrsel agent part grp x => Sys2Proof.Machine.execCtrsel agent part grp x s
  | .shadowRead agent name opnd sel => Sys2Proof.Machine.execShadowRead agent name opnd sel s
  | .dbgattAttach agent part lnum => Sys2Proof.Machine.execDbgattAttach agent part lnum s
  | .dbgattDetach agent => Sys2Proof.Machine.execDbgattDetach agent s
  | .debugSave agent core slot image => Sys2Proof.Machine.execDebugSave agent core slot image s
  | .debugRestore agent part lnum bind => Sys2Proof.Machine.execDebugRestore agent part lnum bind s
  | .debugResume agent binds => Sys2Proof.Machine.execDebugResume agent binds s
  | .dbgchk agent image => Sys2Proof.Machine.execDbgchk agent image s
  | .ptpDiscipline ppm => Sys2Proof.Machine.execPtpDiscipline ppm s
  | .timeStep agent ns => Sys2Proof.Machine.execTimeStep agent ns s
  | .claim agent expect newid => Sys2Proof.Machine.execClaim agent expect newid s
  | .ownerHandover agent expect newid => Sys2Proof.Machine.execOwnerHandover agent expect newid s
  | .ownerRelease agent expect => Sys2Proof.Machine.execOwnerRelease agent expect s
  | .ownerLinkDrop => Sys2Proof.Machine.execOwnerLinkDrop s
  | .powerOn c => Sys2Proof.Machine.execPowerOn c s
  | .coldrst agent c => Sys2Proof.Machine.execColdrst agent c s
  | .warmrst agent c => Sys2Proof.Machine.execWarmrst agent c s
  | .plateReset c => Sys2Proof.Machine.execPlateReset c s
  | .verify agent part addr => Sys2Proof.Machine.execVerify agent part addr s
  | .mancmd agent => Sys2Proof.Machine.execMancmd agent s
  | .powerCapExceed => Sys2Proof.Machine.execPowerCapExceed s
  | .tempExceed island celsius => Sys2Proof.Machine.execTempExceed island celsius s
  | .dieOvertemp die => Sys2Proof.Machine.execDieOvertemp die s
  | .plateOvertemp => Sys2Proof.Machine.execPlateOvertemp s
  | .registerWrite agent off x => Sys2Proof.Machine.execRegisterWrite agent off x s
  | .platePowerLoss => Sys2Proof.Machine.execPlatePowerLoss s

end Sys2Proof.Machine
end

