-- ==== Sys2Proof/Machine/Sched.lean ====
section
/-!
DEFINITION. Which agent moves next (log 1): the head of the inbox, else the machine's own arbitration among courses (R385), MCCs and
the events that are due, and the end of a core cycle.
-/

namespace Sys2Proof.Machine

/-! ### Who answers -/

/-- Whether the module takes an event: without power only power-on; in recovery mode (R480) nothing but a restart or what befalls the module. -/
def State.answers (s : State) (i : Instr) : Bool :=
  match i with
  | .powerOn _ => true
  | .plateReset _ => s.power
  | .plateOvertemp => s.power
  | .platePowerLoss => s.power
  | _ => s.power && decide ((s.reg 0x400).toNat / 16 ≠ 1)

/-! ### A step's instruction -/

/-- A course issues on a quadrant. -/
def State.issueOn (s : State) (c : Course) (q : Nat) : State :=
  { s with
      courses := s.courses.map (fun d =>
        if d.core == c.core && d.id == c.id then { d with stat := .ready, quad := some q, flight := true } else d),
      cur := .course c.core c.id, used := (c.core, q, c.id) :: s.used }

/-- A course issues, where a quadrant takes it (R46): a report of silent errors that its thread takes comes first (R341). -/
def State.takeCourse (s : State) (core id : Nat) : State × Option Instr :=
  match s.course? core id with
  | none => (s, none)
  | some c =>
    match s.quadFor c with
    | none => (s, none)
    | some q =>
      if !s.eligible c then (s, none)
      else
        let s1 := s.issueOn c q
        match s1.issuing with
        | none => (s, none)
        | some x =>
          let s2 := s1.sampleIssue x q
          if s2.sdcDue x then (s2.takeSdc x, none) else s2.issueCourse x

/-- Whether the MCC of a core may execute: it runs, or what it waited for has come; once in a cycle (R326), not while its launch is halted, nor once at
rest where its unit is to be vacated (R388). -/
def State.mccMay (s : State) (m : Mcc) : Bool :=
  s.quadFree m.core 4 &&
  (s.launch? m.key.part m.key.lnum).any (fun l => !l.halted) && !(s.stopsUnit m.key && m.atRest) &&
  (match m.stat with
   | .running => true
   | .drain => s.mccSettled m.key
   | .stage => m.staging.isEmpty && decide (s.quantOut m.key < 2)
   | _ => false)

/-- What the decoder knows of an MCC. -/
def dctxOfMcc (x : MCtx) : DCtx :=
  { mcc := true, regs := x.l.d.regs, accs := x.l.d.accs, handler := false, diverges := false, chainPos := 0,
    gang := decide (x.l.d.gangw ≠ 0), truss := jointGang x.l.d }

/-- The MCC of a core fetches and executes (R325, R342). -/
def State.takeMcc (s : State) (core : Nat) : State × Option Instr :=
  match s.mcc? core with
  | none => (s, none)
  | some m =>
    if !s.mccMay m then (s, none)
    else
      let s1 : State := { (s.updMcc core (fun m => { m with stat := .running })) with cur := .mcc core, used := (core, 4, 0) :: s.used }
      match s1.running with
      | none => (s, none)
      | some x =>
        match s1.fetchAt x.l x.m.pc.toNat with
        | .error f => (s1.mccStop x (.fault f.code (BitVec.ofNat 64 f.va) (BitVec.ofNat 64 f.aux3)), none)
        | .ok bs =>
          let bad : Nat → State × Option Instr := fun r =>
            (s1.mccStop x (.fault cIllegal (BitVec.ofNat 64 (leNat (bs.take 4))) (BitVec.ofNat 64 r)), none)
          match decode (dctxOfMcc x) bs with
          | .ok i => (s1, some i)
          | .illegal r => bad r
          | .short => bad 1

/-! ### The end of a cycle -/

/-- Core cycles of a partition's cores where a counter selects them, and its active group's cycle (R467). -/
def State.countCycles (s : State) (q : Partition) : State :=
  if !s.partOn q.id then s
  else
    let sel := (s.oreg q.id (8 * q.group)).toNat
    let s1 := if (List.range 8).any (fun i => sel / 2 ^ (8 * i) % 256 == 1) then
        ((List.range 768).filter (fun c => s.coreIn q.id c)).foldl (fun t c => t.count c 0x01 1) s
      else s
    { s1 with actcyc := s1.actcyc.set (4 * q.id + q.group) (s1.actcyc.get (4 * q.id + q.group) + 1) }

/-- The trigger state of every core of the partitions that trace (R472). -/
def State.nextTrig (s : State) : List Nat :=
  s.partitions.foldl (fun l q =>
    if !(s.oreg q.id 0x20).getLsbD 16 then l
    else
      ((List.range 768).filter (fun c => s.coreIn q.id c)).foldl (fun l c =>
        let on : Bool := l.contains c || s.trigHit.contains c || s.trigHolds q.id 0 c [] []
        let off : Bool := s.trigStop.contains c || s.trigHolds q.id 1 c [] []
        if on && !off then insertNew l c else l.filter (· != c)) l) s.trig

/-- Twelfths of a nanosecond in a core cycle at 2.4 GHz (R486). -/
def cycle12 : Nat := 5

/-- The reference time of a core cycle, in millionths of a twelfth of a nanosecond: PTP slews its rate (R464). -/
def State.cycleTime (s : State) : Nat := (cycle12 * (1000000 + s.slew)).toNat

/-- The end of a core cycle: time, counters, the trace records of the cycle, the trigger states after it, and the samples that the next one owes. -/
def State.tick (s : State) : State :=
  let s1 := s.partitions.foldl (fun t q => t.countCycles q) s
  let trig := s1.nextTrig
  let s2 := s1.writeRecs
  let t12 := s2.timeFrac + s2.cycleTime
  let s3 := s2.pass (t12 / 1000000)
  let s4 : State :=
    { s3 with
        cycle := s3.cycle + 1, timeFrac := t12 % 1000000, trig := trig, trigHit := [], trigStop := [],
        used := [], moved := 0, courses := s3.landed }
  { s4 with samples := s4.dueSamples }

/-- The end of a step: nothing is issuing, and later free values are others (log 1). -/
def State.settleStep (s : State) : State := { s with cur := .none, free := s.free + 1, events := s.events + 1 }

/-- The instruction or event that an item comes to; none where a trap or a wait stands before it, and at the end of a cycle. -/
def State.take (s : State) (it : Item) : State × Option Instr :=
  match it with
  | .control c => (if s.power && decide ((s.reg 0x400).toNat / 16 ≠ 1) then s.control c else s, none)
  | .event i => if s.answers i then ({ s with cur := .none }, some i) else (s, none)
  | .mcc core => if s.power then s.takeMcc core else (s, none)
  | .issue core id => if s.power then s.takeCourse core id else (s, none)
  | .link =>
    match s.linkWait with
    | i :: _ => if s.answers i then ({ s with cur := .link }, some i) else (s, none)
    | [] => (s, none)
  | .cycle => (s.tick, none)

/-! ### Events that are due -/

/-- Accesses, durable stores and pushes on their way to their homes (R130, R151, R437). -/
def State.dueMemory (s : State) : List Instr :=
  (s.pend.filter (fun p => s.mayPerform p)).map (fun p => .accessPerformed p.n) ++
  (if s.durp.isEmpty then [] else [.eaveAccept]) ++ (if s.eave.isEmpty then [] else [.eaveDrain]) ++
  s.blocks.flatMap (fun b => ((List.range b.pushes.length).zip b.pushes).filterMap (fun p =>
    if s.mayPush b p.2 then some (.streamPushPerform b.core b.slot p.1) else none))

/-- Lines, slow-path walks, stamps and exchanges of copies (R281 to R290). -/
def State.dueCopies (s : State) : List Instr :=
  s.copies.flatMap (fun c =>
    (if c.slow.isEmpty then c.todo.map (fun d => .copyLineArrival c.id d.1 d.2) else []) ++
    (c.slow.filter (fun e => e.2.2.isNone && !s.slowAsked (.copy c.id e.1 e.2.1))).map (fun e => .copySlowPath c.id e.1 e.2.1) ++
    (if s.stampDue c then [.copyStampWrite c.id] else []) ++
    (if c.kind = .publish ∧ !c.swapped then [.publishSwap c.id] else []))

/-- Whether the stamp at a place has reached a value; a peer's must be asked. -/
def State.stampReached (s : State) (l : Loc) (x : W64) : Bool :=
  match l with
  | .peer _ _ => true
  | _ => decide (leNat ((s.mergeFor l 8).bytesAt l 8) ≥ x.toNat)

/-- Courses that a presence bit or a frame lets go on, bins to emit, courses to refile (R17, R162, R163, R402). Which partial courses the engine
refiles on its own, and when, is open (R163): it refiles one only where a course record is needed (DESIGN CHOICE, log 49). -/
def State.dueCourses (s : State) : List Instr :=
  s.courses.flatMap (fun c => match c.stat with
    | .presence k line => if (s.clearedBy k line).isNone then [.presenceWaitResume c.core c.id] else []
    | .frame _ => if s.frameCount c.core < 32 then [.trapFrameWaitEnd c.core c.id] else []
    | .ready => if s.needsRecord c.core && (s.ctxOf c.core c.id).any (fun x => s.mayRefile x) then [.courseRefile c.core c.id] else []
    | _ => []) ++
  (s.bins.filter (fun b => s.binAged b)).map (fun b => .binEmitAge b.core b.id) ++
  ((s.bins.map (·.core)).foldl (fun l c => insertNew l c) []).flatMap (fun core =>
    (if s.coreQuiet core then [.binEmitIdle core] else []) ++
    (if (s.deferredBin core).isSome && decide (s.courseCount core < 128) then [.binEmitDeferred core] else []))

/-- Waiting threads whose condition holds (R187, R233), and threads that wait unfiled (R162). -/
def State.dueThreads (s : State) : List Instr :=
  s.blocks.flatMap (fun b =>
    b.threads.flatMap (fun t => match t.stat with
      | .waiting w =>
        (match w.kind, w.loc with
         | .wait, some l => if s.stampReached l w.x then [.stampReevaluate b.core b.slot t.tl] else []
         | .xbar, _ => if (s.xb b.key w.a.toNat).phase ≠ w.x.setWidth 32 then [.xbarWaitProceed b.core b.slot t.tl] else []
         | _, _ => [])
      | _ => []) ++
    (if s.hasUnfiled b.core then [.binEmitDeferred b.core] else []))

/-- Staged multiplies, walk steps, joint operations and waits of the MCCs (R329 to R334, R349). -/
def State.dueMatrix (s : State) : List Instr :=
  s.mccs.flatMap (fun m =>
    (match m.stat, m.staging with
     | .vote, _ => []
     | .sdc false, _ => [.stagedMultiplyDrain m.core none]
     | .sdc true, _ => []
     | _, g :: _ => if g.started then [.stagedMultiplyDrain m.core none] else [.tmmaJoin m.core]
     | _, [] => []) ++
    (match m.stat, m.walk with
     | .walk, some w => ((List.range 64).filter (fun k => s.stepFree m w k)).map (fun k => .walkStepStart m.core k)
     | .tsync, _ => if s.jointDone m then [.tmmaComplete m.core] else []
     | .presence line, _ => if (s.clearedBy m.key line).isNone then [.presenceWaitResume m.core 0] else []
     | .xwait l x, _ => if s.stampReached l x then [.stampReevaluate m.core 0 1024] else []
     | _, _ => []))

/-- Dispatch, restores, pre-emption, retirement, queues, gang barriers and watchdogs (R171, R237, R377 to R396). -/
def State.dueLaunches (s : State) : List Instr :=
  (List.range 8).filterMap (fun p =>
    if !s.partOn p then none
    else (s.served p).map (fun r =>
      let binds := s.bindsFor r.1 r.2.1 r.2.2.2
      if r.1.saved.isEmpty then .dispatchUnit p r.1.lnum binds else .blockRestore p r.1.lnum (binds.headD default))) ++
  (s.launches.filterMap (fun r => s.preemption r)).take 1 ++
  s.launches.filterMap (fun l => l.stopping.bind (fun e =>
    if s.restsNow l (e.1.filter (fun u => l.placed.any (fun p => p.1 == u))) (l.imagesOf e.1 e.2) then
      some (.preemptVacate l.part l.lnum l.lnum e.1 e.2)
    else none)) ++
  (s.blocks.filter (fun b => s.blockDone b)).map (fun b => .blockRetire b.core b.slot) ++
  s.launches.flatMap (fun l =>
    (if l.live && decide (l.wdog12 > 12000 * s.wdogLimit l) then [.watchdog l.part l.lnum] else []) ++
    (if s.firmwarePoison l then [.containment l.part l.lnum (BitVec.ofNat 16 cPoison)] else []) ++
    (l.gbars.filter (fun g => decide (g.1 ≥ 2 ^ 64))).map (fun g => .gbarPhaseComplete l.part l.lnum (g.1 - 2 ^ 64))) ++
  s.partitions.flatMap (fun q => (q.hwq.filter (fun e => (s.deliverable q.id e.1).isSome)).map (fun e => .queueDeliver q.id e.1))

/-- Recovery points and shadows (R433, R442, R443). -/
def State.duePages (s : State) : List Instr :=
  s.partitions.flatMap (fun q =>
    (if q.sealing then [.sealReleaseDone q.id] else []) ++ (if q.sealNow.isSome && !q.sealing then [.plateSeal q.id] else [])) ++
  (if s.und.any (fun u => s.poolDry u.base) then
     ((s.pagesWanted.filter (fun p => s.poolDry p && !s.poolWait.contains p)).foldl (fun l p => insertNew l p) []).map (fun p => .snapshotPageCopy p)
   else []) ++
  ((s.courses.flatMap (fun c => match c.stat with | .pool p => if s.courseReady p c then [p] else [] | _ => []) ++
      s.mccs.flatMap (fun m => match m.stat with | .pool p => if s.mccReady p m then [p] else [] | _ => []) ++
      s.poolWait.filter (fun p => !s.poolDry p || !s.pagesWanted.contains p) ++ s.fwPages).foldl
    (fun l p => insertNew l p) []).map (fun p => .underlayPoolWaitEnd p)

/-- Causes that the supervisor takes (R398, R399, R420, R432, R477), and records that wait for the ring (R423). -/
def State.dueSupervisor (s : State) : List Instr :=
  s.courses.flatMap (fun c => match c.stat with
    | .trap t =>
      (match s.blockAt? c.core c.slot with
       | none => []
       | some b =>
         if c.inHandler then [.supervisorTrapTake c.core c.id]
         else if t.replayable then [.page c.core c.id]
         else if containedCause t.code then [.containment b.key.part b.key.lnum (BitVec.ofNat 16 t.code)]
         else if t.code = cDebug ∧ s.attached b.key.part b.key.lnum then [.debugHalt c.core c.id]
         else [.supervisorTrapTake c.core c.id])
    | _ => []) ++
  s.mccs.flatMap (fun m => match m.stat with
    | .fault none =>
      if m.fault.cause = cPage then (if s.slowAsked (.mcc m.key) then [] else [.page m.core 0])
      else if containedCause m.fault.cause then [.containment m.key.part m.key.lnum (BitVec.ofNat 16 m.fault.cause)]
      else [.supervisorTrapTake m.core 0]
    | _ => []) ++
  (if s.gutterReady then [.gutterRecordWaitEnd] else [])

/-- Votes, scores, quarantines, scans and repairs (R430, R431, R445, R446). -/
def State.dueErrors (s : State) : List Instr :=
  s.votes.flatMap (fun v =>
    match s.voteCoreFor v.core with
    | some vc => [.trelvyVote v.core vc (Config.freeBool s.free)]
    | none => if s.ns < v.since + 50000 then [] else [.voteTimeout v.core v.since]) ++
  s.scansDue.map (fun c => .infieldScan c (Config.freeBool s.free)) ++
  (if s.halveDue then [.suspectHalve] else []) ++
  (s.scores.filter (fun e => decide (e.2.toNat ≥ 32))).filterMap (fun e =>
    (s.logicalCore e.1).bind (fun c => if s.quarantineDue c then some (.quarantineIdle c) else none)) ++
  ((s.quarantine ++ s.repairs).filter (fun c => s.repairDue c)).map (fun c => .spareRepair c)

/-- Time-outs, poison marks and invalidations (R419, R461), the manifest (R484), counter groups (R467). -/
def State.dueLink (s : State) : List Instr :=
  (s.reqs.filter (fun r => s.timedOut r)).map (fun r => .ualinkTimeout r.id) ++
  (s.lost.filter (fun e => s.reachable e.1)).map (fun e => .poisonMarkRequest e.1 { home := false, addr := 128 * e.2 }) ++
  (if s.tlbinv.isEmpty then [] else [.tlbinvComplete]) ++
  (if s.manBusy.isSome then [.manifestCompareDone] else []) ++
  (s.partitions.filter (fun q => s.partOn q.id && q.rotationDue s.cycle)).map (fun q => .counterGroupRotate q.id)

/-- The events that are due, besides courses and MCCs. -/
def State.background (s : State) : List Instr :=
  s.dueMemory ++ s.dueCopies ++ s.dueCourses ++ s.dueThreads ++ s.dueMatrix ++ s.dueLaunches ++ s.duePages ++ s.dueSupervisor ++ s.dueErrors
    ++ s.dueLink

/-! ### Arbitration -/

/-- The due event whose turn it is; the link engine with the request at the head of its line is one of them. -/
def State.nextEvent (s : State) : Option Item :=
  let l := s.background.map Item.event ++ (if s.linkWait.isEmpty then [] else [.link])
  l[s.turn % max 1 l.length]?

/-- The MCC that executes next in this cycle. -/
def State.nextMcc (s : State) : Option Item := (s.mccs.find? (fun m => s.mccMay m)).map (fun m => Item.mcc m.core)

/-- The course that issues next. -/
def State.nextIssue (s : State) : Option Item := s.nextCourse.map (fun c => Item.issue c.core c.id)

/-- The PC sample of this cycle that is still to be made, of a quadrant on which none has issued (R470). A reason that depends on timing alone is free
(log 13). -/
def State.nextSample (s : State) : Option Item :=
  s.samples.findSome? (fun e => (s.partitions.find? (fun q => s.coreIn q.id e.1)).map (fun q =>
    Item.event (.pcSample q.id e.1 e.2 (BitVec.ofNat 8 (timingReasons.getD ((Config.freeByte s.free 0).toNat % 8) 1)))))

/-- How many due events a cycle takes at most (log 1). -/
def eventsPerCycle : Nat := 4

/-- The item that moves next in this cycle: each quadrant's course, each MCC, some of the events that are due, the PC samples, and the end of the cycle. -/
def State.arbitrate (s : State) : State × Item :=
  match (s.nextIssue).orElse (fun _ => s.nextMcc) with
  | some it => (s, it)
  | none =>
    match (if s.moved < eventsPerCycle then s.nextEvent else none) with
    | some it => ({ s with moved := s.moved + 1, turn := s.turn + 1 }, it)
    | none => (s, (s.nextSample).getD .cycle)

/-- The item that moves next: the inbox first, but for a cycle's end before its samples are made, then the machine's own arbitration. -/
def State.pick (s : State) : State × Item :=
  if !s.power && s.inbox.isEmpty then (s, .cycle)
  else
    match s.inbox with
    | .cycle :: rest =>
      (match s.nextSample with
       | some it => (s, it)
       | none => ({ s with inbox := rest }, .cycle))
    | it :: rest => ({ s with inbox := rest }, it)
    | [] => s.arbitrate

/-- One step up to its instruction. -/
def State.plan (s : State) : State × Option Instr :=
  s.pick.1.take s.pick.2

end Sys2Proof.Machine
end

