-- ==== Sys2Proof/Machine/Place.lean ====
section
/-!
DEFINITION. A one-instruction program placed in the machine: what a launch does before its first instruction runs (log 17): a partition
with its page tables, a launch of one block whose text holds the words, the block on core 0, and its first course or its MCC.
-/

namespace Sys2Proof.Machine

/-- Where the placed text starts. -/
def placePc : Nat := 0x4000

/-- The bytes of five words. -/
def placeBytes (nbits w : Nat) : List Byte := bytesOf (tableWords nbits w)

/-- A page table that maps the first 2 MiB with one 2 MiB page, readable, writable and executable. -/
def placeTables (m : Memory) : Memory :=
  let e : Nat → Nat → Memory → Memory := fun a x m => m.write a (natLE 8 x)
  e 0x1003000 (1 + 2 + 4 + 8 + 16 + 5 * 2 ^ 50) (e 0x1002000 (1 + 0x1003000) (e 0x1001000 (1 + 0x1002000)
    (e 0x1000000 (1 + 0x1001000) m)))

/-- The placed launch's descriptor: one thread a block, every register and accumulator, a gang of one truss. -/
def placeDesc : LDesc :=
  { entry := BitVec.ofNat 64 placePc, tileent := BitVec.ofNat 64 placePc, seed := 0, regs := 240, accs := 8, producer := 0,
    gangw := 2, gangh := 2, cls := 0, fptrap := 0, prio := 0, determ := false, trelvy := false, scratch := 65536, age := 64,
    bx := 1, by_ := 1, bz := 1, gx := 4, gy := 1, gz := 1, rx0 := 0, ry0 := 0, rw := 2, rh := 2, qmask := 0xFFFFFFFFFFFFFFFF,
    deps := [], doneAddr := 0, doneVal := 0, handlers := [0, 0, 0, 0], mincores := 0, wdog := 0 }

/-- The placed block's name. -/
def placeKey : BKey := { part := 0, lnum := 1, bl := 0 }

/-- The placed launch, started, its text the words. -/
def placeLaunch (bs : List Byte) : Launch :=
  { part := 0, lnum := 1, queue := 0, addr := 0, d := placeDesc, consts := [], ranges := [], roles := [(0, 0), (1, 0), (0, 1), (1, 1)], stat := .started,
    status := 1, next := 1, saved := [], placed := [(0, [0, 1, 32, 33])], finished := [], retired := [], scanPos := 0, curveLost := 0,
    text := { dev := Memory.write [] placePc bs, host := [], und := [] }, wdog12 := 0, contained := 0, halted := false,
    point := none, sealer := none, gbars := [], switchedOut := false, delivered := [], pushed := [], seqNext := 1, images := [] }

/-- The placed block: its one thread in course `id`. -/
def placeBlock (id : Nat) : Block :=
  { key := placeKey, core := 0, slot := 0, role := 0, gx0 := 0, gy0 := 0, unit := 0, seq := 0, b := [], bars := [], scratch := [],
    absent := [], poison := [], descs := [], pushes := [],
    threads := [Thread.fresh 0 (BitVec.ofNat 64 placePc) 0 8 0 (.course id)], hasMcc := true, sdcsyn := 0, sdcunit := 0,
    sdctile := 0 }

/-- The placed course; RFT and RQSET stand inside a handler (R406). -/
def placeCourse (id opc : Nat) (cycle : Nat) : Course :=
  let f : Frame :=
    { resume := List.replicate 32 (BitVec.ofNat 64 placePc), latches := [], entries := [], hclass := .trap, inh := true, chain := 0,
      wait := none, bin := false }
  { core := 0, id := id, slot := 0, lanes := [some 0], age := cycle, latches := [], chain := 0, stat := .ready,
    frame := if opc = 0x0E ∨ opc = 0x11 then some f else none, reinj := [], resume := [], yielded := false, skipCmp := false,
    resp := [], part := 0 }

/-- The words placed, and the issue of their course or MCC next. -/
def State.placeWord (s : State) (nbits w : Nat) : State :=
  let opc := w / 4 % 256
  let bs := placeBytes nbits w
  let id := s.nextId
  let mcc := decide (0xB0 ≤ opc) && decide (opc ≤ 0xCE)
  let s1 := ((s.setReg 0x3000 (2 ^ 32 + 2 * 2 ^ 16 + 2 * 2 ^ 24)).setReg 0x3008 0x1000000)
  { s1 with
      nextId := id + 1,
      used := s1.used.filter (fun e => e.1 != 0),
      inbox := (if mcc then .mcc 0 else .issue 0 id) :: s1.inbox,
      mem := placeTables (s1.mem.write placePc bs),
      launches := placeLaunch bs :: s1.launches.filter (fun l => !(l.part == 0 && l.lnum == 1)),
      blocks := placeBlock id :: s1.blocks.filter (fun b => b.core != 0),
      courses := placeCourse id opc s1.cycle :: s1.courses.filter (fun c => c.core != 0),
      bins := s1.bins.filter (fun b => b.core != 0),
      mccs := Mcc.fresh 0 placeKey (BitVec.ofNat 64 placePc) :: s1.mccs.filter (fun m => m.core != 0) }

end Sys2Proof.Machine
end

