-- ==== Sys2Proof/Machine/Step.lean ====
section
/-!
DEFINITION. One step of the machine: one agent moves in the present core cycle, or the cycle ends (log 1).
-/

namespace Sys2Proof.Machine

/-- One step: what moves next is chosen, and its instruction runs. -/
def step (s : State) : Host.Outcome State Fault Refusal :=
  match s.plan with
  | (s1, none) => .next s1.settleStep
  | (s1, some i) =>
    match exec i s1 with
    | .next t => .next t.settleStep
    | .fault f => .fault f
    | .refused r => .refused r

/-- The state with an instruction stored where the next step fetches (log 17): see Place. -/
def State.withFetchWord (s : State) (nbits w : Nat) : State := s.placeWord nbits w

end Sys2Proof.Machine
end

