-- ==== Sys2Proof/Safety.lean ====
section
/-!
DEFINITION. What a safe run is, in the terms that statements use: the invariants of the state.
-/

namespace Sys2Proof.Machine

/-- Every memory of the state is in canonical form. -/
def State.memWf (s : State) : Prop :=
  s.mem.wf = true ∧ s.host.wf = true ∧ ∀ b ∈ s.blocks, b.scratch.wf = true

/-- A run of `n` steps that stops at no fault and no refusal. -/
def safeFor : Nat → State → Prop
  | 0, _ => True
  | n + 1, s =>
    match step s with
    | .next t => safeFor n t
    | _ => False

/-! ### Lanes that only compute -/

/-- A source that a lane reads without a port: its registers bear no mark (R428), its latch is valid and unmarked (R45). -/
def plainReady (x : Ctx) (lane : Nat) (t : Thread) (o : Opnd) (p : Pos) : Bool :=
  match o with
  | .q _ => false
  | .l n => (x.c.latch n.val).valid && !maskHas (x.c.latch n.val).poison lane
  | _ => !(marksOf o p).any (fun m => t.poison.contains m)

/-- The sources that each lane of an instruction reads, in order. -/
def Shape.reads (sh : Shape) : List (Opnd × Pos) := sourcesOf sh.srcs sh.rnd

/-- A course issues an instruction of this shape outside a re-injection sequence, its destination is no port, and every active lane reads
its sources without a port, a poisoned register or a lost latch. -/
structure LanesReady (s : State) (x : Ctx) (sh : Shape) : Prop where
  issues : s.issuing = some x
  fresh : x.c.reinj = []
  noPort : sh.pushPort = none
  ready : ∀ p ∈ x.active sh.h.pneg sh.h.pred, ∀ o ∈ sh.reads, plainReady x p.1 p.2 o.1 o.2 = true

/-- The values that a lane reads. -/
def laneVals (x : Ctx) (sh : Shape) (p : Nat × Thread) : List Nat := sh.reads.map (fun o => plainValue x p.1 p.2 sh.h.lit o.1 o.2)

/-- What the active lanes have computed, in ascending logical thread index. -/
def computed (x : Ctx) (sh : Shape) (f : Ctx → Nat → Thread → List Nat → LaneRes) : List LaneOut :=
  (byThread (x.active sh.h.pneg sh.h.pred)).map (fun p =>
    { lane := p.1, tl := p.2.tl, inp := { vals := laneVals x sh p, ports := [], pops := [] }, push := none,
      res := f x p.1 p.2 (laneVals x sh p) })

/-- A lane that only computes. -/
def pureLane (f : Ctx → Nat → Thread → List Nat → LaneRes) : LaneFn := fun x st lane t v => .ok (f x lane t v, st)

/-- A course issues an instruction of this shape, and neither a trap nor a wait stops one of its active lanes: at its sources, at the port
that its destination names, or in what the lane does. -/
structure Goes (s : State) (x : Ctx) (sh : Shape) (f : LaneFn) : Prop where
  issues : s.issuing = some x
  go : (runLanes sh f x s).stops = []

/-- An instruction completes: in every state in which nothing stops a lane, it answers the state that `fin` makes of what the lanes
computed. -/
def CompletesAs (i : Instr) (sh : Shape) (f : LaneFn) (fin : Ctx → List LaneOut → State → State) : Prop :=
  ∀ (s : State) (x : Ctx), Goes s x sh f → exec i s = .next (fin x (runLanes sh f x s).outs (runLanes sh f x s).s)

/-- An instruction completes by writing what each active lane computed, moving past itself and ending its chain position, where no lane
raises an exception that it traps on. -/
def Completes (i : Instr) (sh : Shape) (f : LaneFn) : Prop :=
  ∀ (s : State) (x : Ctx), Goes s x sh f → fpeDue x (runLanes sh f x s).outs = false →
    exec i s = .next (commitLanes sh x (runLanes sh f x s).outs (runLanes sh f x s).s)

/-- An instruction completes by computing. Its first part names what the lanes read; its second holds for every form, ports and
re-injected operands among them. -/
def Computes (i : Instr) (sh : Shape) (f : Ctx → Nat → Thread → List Nat → LaneRes) : Prop :=
  (∀ (s : State) (x : Ctx), LanesReady s x sh → fpeDue x (computed x sh f) = false →
    exec i s = .next (commitLanes sh x (computed x sh f) s)) ∧
  Completes i sh (pureLane f)

/-- The same of an instruction that raises no exception at all. -/
def Silent (i : Instr) (sh : Shape) (f : Ctx → Nat → Thread → List Nat → LaneRes) : Prop :=
  (∀ (s : State) (x : Ctx), LanesReady s x sh → exec i s = .next (commitLanes sh x (computed x sh f) s)) ∧
  CompletesAs i sh (pureLane f) (commitLanes sh)

/-- Two states that differ in their blocks and courses alone. -/
def SameButCores (s t : State) : Prop := t = { s with blocks := t.blocks, courses := t.courses }

end Sys2Proof.Machine
end

