-- ==== Sys2Proof/Certificates/Slice0/Obligations.lean ====
section
/-!
DEFINITION. The statements about the machine, for the provers.
-/

namespace Sys2Proof.Claims

open Sys2Proof.Machine

/-! ### Readings that the statements share -/

/-- A pattern as an integer: uint under `u`, else sint (R190). -/
def asInt {w : Nat} (u : Bool) (x : BitVec w) : Int := if u then (x.toNat : Int) else x.toInt

/-- The exact value `x` at width `w`: clamped under SAT, else modulo 2^w (R190). -/
def narrowed (w : Nat) (u sat : Bool) (x : Int) : BitVec w :=
  BitVec.ofInt w (if !sat then x
    else if u then max 0 (min x ((2 ^ w : Nat) - 1))
    else max (-((2 ^ (w - 1) : Nat) : Int)) (min x ((2 ^ (w - 1) : Nat) - 1)))

/-- A one-source form `op d, a` (R176), on a pipe with a latch. -/
def one (i : Instr) (h : Hd) (d a : Opnd) (latch : Nat) : Shape := shapeX i h [(a, .w32)] (some (d, 32)) (some latch)

/-- A two-source form `op d, a, b`: b in SRC0, a in SRC1 (R176). -/
def two (i : Instr) (h : Hd) (d a b : Opnd) (latch : Nat) : Shape := shapeX i h [(b, .w32), (a, .w32)] (some (d, 32)) (some latch)

/-- A three-source form `op d, a, b, c` (R176). -/
def three (i : Instr) (h : Hd) (d a b c : Opnd) (latch : Nat) : Shape :=
  shapeX i h [(a, .w32), (b, .w32), (c, .w32)] (some (d, 32)) (some latch)

/-- The compact form `op d, b`, which is `op d, d, b` (R31, R176). -/
def twoC (i : Instr) (h : Ch) (d b : Opnd) (latch : Nat) : Shape := shapeC i h [(b, .w32), (d, .w32)] (some (d, 32)) (some latch)

/-- The result of a one-source form from its pattern. -/
def of1 (r : W32 → W32) : Ctx → Nat → Thread → List Nat → LaneRes :=
  fun _ _ _ v => LaneRes.value (r (BitVec.ofNat 32 (v.getD 0 0))).toNat

/-- The result of a two-source form from the patterns of a and b. -/
def of2 (r : W32 → W32 → W32) : Ctx → Nat → Thread → List Nat → LaneRes :=
  fun _ _ _ v => LaneRes.value (r (BitVec.ofNat 32 (v.getD 1 0)) (BitVec.ofNat 32 (v.getD 0 0))).toNat

/-- The result of a three-source form from the patterns of a, b and c. -/
def of3 (r : W32 → W32 → W32 → W32) : Ctx → Nat → Thread → List Nat → LaneRes :=
  fun _ _ _ v =>
    LaneRes.value (r (BitVec.ofNat 32 (v.getD 0 0)) (BitVec.ofNat 32 (v.getD 1 0)) (BitVec.ofNat 32 (v.getD 2 0))).toNat

end Sys2Proof.Claims

open Sys2Proof Sys2Proof.Machine Sys2Proof.Claims

/-! ### Integer instructions (08 R189 to R195) -/

/-- R190: IADD, ISUB, IMUL, IMULH, IMAD, IMIN, IMAX, IABS, IADD64 and LEA, and the compact IADD and ISUB, which are signed and do not
saturate (R30): each completes with the exact value of its row, narrowed to the width of its destination. -/
def Obligations.IntegerArithmetic : Prop :=
  ∀ (h : Hd) (k : Ch) (d a b c : Opnd) (u sat : Bool) (n : BitVec 3),
    Silent (.iaddC k d b) (twoC (.iaddC k d b) k d b 0) (of2 (fun x y => x + y)) ∧
    Silent (.isubC k d b) (twoC (.isubC k d b) k d b 0) (of2 (fun x y => x - y)) ∧
    Silent (.iadd h d a b u sat) (two (.iadd h d a b u sat) h d a b 0)
      (of2 (fun x y => narrowed 32 u sat (asInt u x + asInt u y))) ∧
    Silent (.isub h d a b u sat) (two (.isub h d a b u sat) h d a b 0)
      (of2 (fun x y => narrowed 32 u sat (asInt u x - asInt u y))) ∧
    Silent (.imul h d a b u sat) (two (.imul h d a b u sat) h d a b 0)
      (of2 (fun x y => narrowed 32 u sat (asInt u x * asInt u y))) ∧
    Silent (.imulh h d a b u) (two (.imulh h d a b u) h d a b 0)
      (of2 (fun x y => BitVec.ofInt 32 ((asInt u x * asInt u y).fdiv (2 ^ 32)))) ∧
    Silent (.imad h d a b c u sat) (three (.imad h d a b c u sat) h d a b c 0)
      (of3 (fun x y z => narrowed 32 u sat (asInt u x * asInt u y + asInt u z))) ∧
    Silent (.imin h d a b u) (two (.imin h d a b u) h d a b 0) (of2 (fun x y => if asInt u x ≤ asInt u y then x else y)) ∧
    Silent (.imax h d a b u) (two (.imax h d a b u) h d a b 0) (of2 (fun x y => if asInt u x ≤ asInt u y then y else x)) ∧
    Silent (.iabs h d a sat) (one (.iabs h d a sat) h d a 0) (of1 (fun x => narrowed 32 false sat (x.toInt.natAbs : Nat))) ∧
    Silent (.iadd64 h d a b u sat) (shapeX (.iadd64 h d a b u sat) h [(b, .w64), (a, .w64)] (some (d, 64)) (some 0))
      (fun _ _ _ v => LaneRes.value
        (narrowed 64 u sat (asInt u (BitVec.ofNat 64 (v.getD 1 0)) + asInt u (BitVec.ofNat 64 (v.getD 0 0)))).toNat) ∧
    Silent (.lea h d a b u n) (shapeX (.lea h d a b u n) h [(b, .w32), (a, .w64)] (some (d, 64)) (some 0))
      (fun _ _ _ v => LaneRes.value
        (BitVec.ofNat 64 (v.getD 1 0) +
          (if u then (BitVec.ofNat 32 (v.getD 0 0)).setWidth 64 else (BitVec.ofNat 32 (v.getD 0 0)).signExtend 64) <<< n.toNat).toNat)

/-- R190: AND, OR, XOR, SHL, SHR, SAR, MOV, MOVL and SEL, and the compact forms of AND, OR, XOR, SHL, SHR and MOV: bit patterns, with the
shift amount clamped to 32 and `not b` under NB. -/
def Obligations.IntegerLogic : Prop :=
  ∀ (h : Hd) (k : Ch) (d a b : Opnd) (nb psn : Bool) (ps : Fin 8),
    Silent (.andC k d b) (twoC (.andC k d b) k d b 0) (of2 (fun x y => x &&& y)) ∧
    Silent (.orC k d b) (twoC (.orC k d b) k d b 0) (of2 (fun x y => x ||| y)) ∧
    Silent (.xorC k d b) (twoC (.xorC k d b) k d b 0) (of2 (fun x y => x ^^^ y)) ∧
    Silent (.shlC k d b) (twoC (.shlC k d b) k d b 0) (of2 (fun x y => x <<< min y.toNat 32)) ∧
    Silent (.shrC k d b) (twoC (.shrC k d b) k d b 0) (of2 (fun x y => x >>> min y.toNat 32)) ∧
    Silent (.movC k d b) (shapeC (.movC k d b) k [(b, .w32)] (some (d, 32)) (some 0)) (of1 (fun x => x)) ∧
    Silent (.and h d a b nb) (two (.and h d a b nb) h d a b 0) (of2 (fun x y => x &&& (if nb then ~~~y else y))) ∧
    Silent (.or h d a b nb) (two (.or h d a b nb) h d a b 0) (of2 (fun x y => x ||| (if nb then ~~~y else y))) ∧
    Silent (.xor h d a b nb) (two (.xor h d a b nb) h d a b 0) (of2 (fun x y => x ^^^ (if nb then ~~~y else y))) ∧
    Silent (.shl h d a b) (two (.shl h d a b) h d a b 0) (of2 (fun x y => x <<< min y.toNat 32)) ∧
    Silent (.shr h d a b) (two (.shr h d a b) h d a b 0) (of2 (fun x y => x >>> min y.toNat 32)) ∧
    Silent (.sar h d a b) (two (.sar h d a b) h d a b 0) (of2 (fun x y => x.sshiftRight (min y.toNat 32))) ∧
    Silent (.mov h d a) (one (.mov h d a) h d a 0) (of1 (fun x => x)) ∧
    Silent (.movl h d a) (shapeX (.movl h d a) h [(a, .w64)] (some (d, 64)) (some 0)) (fun _ _ _ v => LaneRes.value (v.getD 0 0)) ∧
    Silent (.sel h d a b ps psn) (two (.sel h d a b ps psn) h d a b 0)
      (fun _ _ t v => LaneRes.value (if (t.pred ps ^^ psn) then v.getD 1 0 else v.getD 0 0))

/-- R191: SHF, with hi above lo, shifted by min(uint(s), 32). -/
def Obligations.ShfFunnels : Prop :=
  ∀ (h : Hd) (d lo hi n : Opnd) (left : Bool),
    Silent (.shf h d lo hi n left) (three (.shf h d lo hi n left) h d lo hi n 0)
      (of3 (fun l g s =>
        if left then (((g ++ l : BitVec 64) <<< min s.toNat 32) >>> 32).setWidth 32
        else ((g ++ l : BitVec 64) >>> min s.toNat 32).setWidth 32)) ∧
    (∀ l g s : W32, 32 ≤ s.toNat →
      ((g ++ l : BitVec 64) >>> min s.toNat 32).setWidth 32 = g ∧
      (((g ++ l : BitVec 64) <<< min s.toNat 32) >>> 32).setWidth 32 = l)

/-- R192: BFX and BFI, bit by bit: pos is byte 0 of pl and len byte 1. -/
def Obligations.BitFieldsExtractAndInsert : Prop :=
  ∀ (h : Hd) (d a b pl : Opnd) (u : Bool),
    (∃ r : W32 → W32 → W32,
      Silent (.bfx h d a pl u) (two (.bfx h d a pl u) h d a pl 0) (of2 r) ∧
      ∀ (x p : W32) (i : Nat), i < 32 →
        let pos := p.toNat % 256
        let len := p.toNat / 256 % 256
        let bit : Nat → Bool := fun n => if n < 32 then x.getLsbD n else !u && x.getLsbD 31
        (r x p).getLsbD i = (if len = 0 then false else if i < len then bit (pos + i) else !u && bit (pos + len - 1))) ∧
    (∃ r : W32 → W32 → W32 → W32,
      Silent (.bfi h d a b pl) (three (.bfi h d a b pl) h d a b pl 0) (of3 r) ∧
      ∀ (x ins p : W32) (i : Nat), i < 32 →
        let pos := p.toNat % 256
        let len := p.toNat / 256 % 256
        (r x ins p).getLsbD i = (if pos ≤ i ∧ i < pos + len then ins.getLsbD (i - pos) else x.getLsbD i))

/-- R190: POPC, CLZ and BREV, bit by bit. -/
def Sys2Proof.Claims.BitCounts : Prop :=
  ∀ (h : Hd) (d a : Opnd),
    Silent (.popc h d a) (one (.popc h d a) h d a 0)
      (of1 (fun x => BitVec.ofNat 32 ((List.range 32).countP (fun i => x.getLsbD i)))) ∧
    (∃ r : W32 → W32, Silent (.clz h d a) (one (.clz h d a) h d a 0) (of1 r) ∧ r 0 = 32 ∧
      ∀ x : W32, x ≠ 0 → (r x).toNat < 32 ∧ x.getLsbD (31 - (r x).toNat) = true ∧
        ∀ j : Nat, 31 - (r x).toNat < j → x.getLsbD j = false) ∧
    (∃ r : W32 → W32, Silent (.brev h d a) (one (.brev h d a) h d a 0) (of1 r) ∧
      ∀ (x : W32) (i : Nat), i < 32 → (r x).getLsbD i = x.getLsbD (31 - i))

/-- R193: IDIV truncates toward zero and IREM yields a - b times the quotient; a zero divisor gives 0xFFFF_FFFF and a. -/
def Sys2Proof.Claims.DivisionTruncates : Prop :=
  ∀ (h : Hd) (d a b : Opnd) (u : Bool),
    Silent (.idiv h d a b u) (two (.idiv h d a b u) h d a b 0)
      (of2 (fun x y => if y = 0 then 0xFFFFFFFF else if u then x / y else x.sdiv y)) ∧
    Silent (.irem h d a b u) (two (.irem h d a b u) h d a b 0)
      (of2 (fun x y => if y = 0 then x else if u then x % y else x.srem y)) ∧
    ((0x80000000 : W32).sdiv 0xFFFFFFFF = 0x80000000 ∧ (0x80000000 : W32).srem 0xFFFFFFFF = 0)

/-- R190, R193: POPC, CLZ and BREV, and IDIV and IREM. -/
def Obligations.BitCountsAndDivision : Prop := Sys2Proof.Claims.BitCounts ∧ Sys2Proof.Claims.DivisionTruncates

/-- R194: ICMP writes the outcome to its predicate, and a mask of it to DSTX. -/
def Obligations.IcmpWritesPredicateAndMask : Prop :=
  ∀ (h : Hd) (pd : Fin 8) (d a b : Opnd) (u : Bool) (cmp : Cmp),
    ∃ r : W32 → W32 → Bool,
      Silent (.icmp h pd d a b u cmp) { two (.icmp h pd d a b u cmp) h d a b 0 with pd := pd }
        (fun _ _ _ v =>
          let o := r (BitVec.ofNat 32 (v.getD 1 0)) (BitVec.ofNat 32 (v.getD 0 0))
          { LaneRes.value (if o then 0xFFFFFFFF else 0) with pd := o }) ∧
      ∀ x y : W32, (r x y = true ↔
        match cmp with
        | .eq => x = y
        | .ne => x ≠ y
        | .lt => asInt u x < asInt u y
        | .le => asInt u x ≤ asInt u y
        | .gt => asInt u y < asInt u x
        | .ge => asInt u y ≤ asInt u x)

/-- R195: PRMT, byte by byte: nibble i of c chooses byte i of the result among the bytes of a and, above them, of b; bit 3 replaces it by
copies of its top bit. -/
def Obligations.PrmtPermutesBytes : Prop :=
  ∀ (h : Hd) (d a b c : Opnd), ∃ r : W32 → W32 → W32 → W32,
    Silent (.prmt h d a b c) (three (.prmt h d a b c) h d a b c 0) (of3 r) ∧
    ∀ (x y z : W32) (i : Nat), i < 4 →
      let sel := (z >>> (4 * i)).toNat % 16
      let byte : BitVec 8 := ((y ++ x : BitVec 64) >>> (8 * (sel % 8))).setWidth 8
      ((r x y z) >>> (8 * i)).setWidth 8 = (if sel < 8 then byte else if byte.msb then 0xFF else (0 : BitVec 8))

/-! ### What a completed instruction writes (05 R111, R123; 02 R35, R38, R44, R46; 08 R177) -/

/-- R36, R38, R111, R177: after an instruction's lanes have been written, the thread of a lane (the last of its lanes, if it had several)
holds the lane's result in the destination registers, its lowest 32 bits in the lowest of them, none under WBS; its other registers keep
their values; its predicate PD holds the lane's predicate and the others their values; its exceptions are added to %fpflags; its PC has
moved on by the instruction's bytes in each lane that holds it (R160: one); everything else of the thread but its ports and marks is as
it was. -/
def Obligations.ResultsReachTheirThread : Prop :=
  ∀ (s : State) (x : Ctx) (sh : Shape) (before after : List LaneOut) (o : LaneOut) (th : Thread),
    x.c.reinj = [] → (∀ q ∈ before ++ o :: after, ∀ t, q.res.th t = t) → (∀ q ∈ after, q.tl ≠ o.tl) →
    s.thread? x.b.key o.tl = some th → swf 0 th.v = true → swf 0 th.o = true →
    ∃ u, (commitLanes sh x (before ++ o :: after) s).thread? x.b.key o.tl = some u ∧
      (∀ m : Nat, u.v.get m =
        match sh.dst with
        | some (.v n, w) =>
          if sh.h.wbs = false ∧ n.val ≤ m ∧ m < n.val + w / 32 then BitVec.ofNat 32 (o.res.val / 2 ^ (32 * (m - n.val))) else th.v.get m
        | _ => th.v.get m) ∧
      (∀ m : Nat, u.o.get m =
        match sh.dst with
        | some (.o n, w) =>
          if sh.h.wbs = false ∧ n.val ≤ m ∧ m < n.val + w / 32 then BitVec.ofNat 32 (o.res.val / 2 ^ (32 * (m - n.val))) else th.o.get m
        | _ => th.o.get m) ∧
      (∀ p : Fin 8, u.pred p = if p = 7 then true else if p = sh.pd then o.res.pd else th.pred p) ∧
      u.fpflags = ((before ++ o :: after).filter (fun q => q.tl == o.tl)).foldl (fun f q => f ||| q.res.fl.setWidth 32) th.fpflags ∧
      u.pc = th.pc + BitVec.ofNat 64 (sh.size * x.c.members.countP (fun p => p.2 == o.tl)) ∧
      u.k = th.k ∧ u.fptrap = th.fptrap ∧ u.rngctr = th.rngctr ∧ u.trapcause = th.trapcause ∧ u.trapmask = th.trapmask ∧
      u.trappc = th.trappc ∧ u.trappch = th.trappch ∧ u.trapaux = th.trapaux ∧ u.roPoint = th.roPoint ∧ u.stat = th.stat

/-- R43, R111, R159: completing lanes that push nothing changes nothing but the issuing course and its block; of the block nothing but its
threads and, where the destination is one, its block registers; of the threads that are no active lane nothing but the PC, which moves on. -/
def Sys2Proof.Claims.CompletionTouchesItsOwnBlock : Prop :=
  ∀ (s : State) (x : Ctx) (sh : Shape) (outs : List LaneOut),
    x.c.reinj = [] → (∀ o ∈ outs, o.push = none ∧ ∀ t, (o.res.th t).tl = t.tl) →
    let t := commitLanes sh x outs s
    SameButCores s t ∧
    (∀ k, k ≠ x.b.key → t.block? k = s.block? k) ∧
    (∀ core id, ¬(core = x.core ∧ id = x.id) → t.course? core id = s.course? core id) ∧
    (∀ b, s.block? x.b.key = some b → ∃ c, t.block? x.b.key = some c ∧
      c = { b with threads := c.threads, b := c.b } ∧ c.threads.map (·.tl) = b.threads.map (·.tl) ∧
      ((∀ n w, sh.dst ≠ some (.b n, w)) → c.b = b.b)) ∧
    (∀ tl, (∀ o ∈ outs, o.tl ≠ tl) →
      t.thread? x.b.key tl = (s.thread? x.b.key tl).map (fun th =>
        { th with pc := th.pc + BitVec.ofNat 64 (sh.size * x.c.members.countP (fun p => p.2 == tl)) }))

/-- R123, R177: where several active lanes write one block register in an instruction, the lane that is written last, which is the one with
the highest logical thread index, leaves its result there; the other block registers keep their values. -/
def Sys2Proof.Claims.BlockRegisterTakesTheLastLane : Prop :=
  (∀ (s : State) (x : Ctx) (sh : Shape) (before : List LaneOut) (o : LaneOut) (n : Fin 32) (w : Nat) (b : Block),
    x.c.reinj = [] → sh.h.wbs = false → sh.dst = some (.b n, w) → s.block? x.b.key = some b → swf 0 b.b = true →
    ∃ c, (commitLanes sh x (before ++ [o]) s).block? x.b.key = some c ∧
      ∀ m : Nat, c.b.get m =
        if n.val ≤ m ∧ m < n.val + w / 32 then BitVec.ofNat 32 (o.res.val / 2 ^ (32 * (m - n.val))) else b.b.get m) ∧
  (∀ (x : Ctx) (sh : Shape) (f : Ctx → Nat → Thread → List Nat → LaneRes),
    (computed x sh f).Pairwise (fun p q => p.tl ≤ q.tl))

/-- R44 to R46: the pipe's latch holds the results of the active lanes and zero in every other lane, whether or not WBS is set, where the
chain goes on; where it ends every latch is invalid. An instruction that names no latch leaves the latches of a chain that goes on. -/
def Sys2Proof.Claims.LatchHoldsTheResults : Prop :=
  ∀ (s : State) (x : Ctx) (sh : Shape) (outs : List LaneOut) (c : Course),
    x.c.reinj = [] → s.course? x.core x.id = some c →
    ∃ d, (commitLanes sh x outs s).course? x.core x.id = some d ∧
      (sh.h.chain = false → d.chain = 0 ∧ ∀ m, (d.latch m).valid = false) ∧
      (sh.h.chain = true → d.chain = c.chain + 1 ∧
        ∀ m, match sh.latch with
          | some n =>
            if m = n then (d.latch m).valid = true ∧ (d.latch m).poison = 0 ∧
              ∀ lane, lane < 32 → (d.latch m).get lane =
                match outs.find? (fun o => o.lane == lane) with
                | some o => BitVec.ofNat 64 o.res.val
                | none => 0
            else d.latch m = c.latch m
          | none => d.latch m = c.latch m)

/-- R43 to R46, R111, R123, R159, R177: what a completed instruction writes beside its threads, and that it writes nothing else. -/
def Obligations.CompletionWritesItsResults : Prop := Sys2Proof.Claims.CompletionTouchesItsOwnBlock ∧ Sys2Proof.Claims.BlockRegisterTakesTheLastLane ∧ Sys2Proof.Claims.LatchHoldsTheResults

/-! ### Floating point (04 R94 to R101; 08 R196 to R209) -/

namespace Sys2Proof.Claims

/-- src(f, L) of R196: an FP32 pattern, its sign cleared under ABS, then inverted under NEG. -/
def fsrc (neg abs : Bool) (x : Nat) : FVal :=
  let y := if abs then (fp32.decode x).abs else fp32.decode x
  if neg then y.neg else y

/-- An exact result rounded once to FP32, with the exceptions of the operation before it. -/
def fput (rm : RM) (x : FVal) (fl : FFlags) : LaneRes := { LaneRes.value (fp32.round rm x).1 with fl := (fp32.round rm x).2 ||| fl }

/-- INV where the operation made a NaN of numbers. -/
def inv (b : Bool) : FFlags := if b then flInv else 0

/-- A two-source FP32 form with its rounding operand: b in SRC0, a in SRC1 (R176, R196). -/
def ftwo (i : Instr) (h : Hd) (d a b : Opnd) (r : Rnd) : Shape :=
  { shapeX i h [(b, .w32), (a, .w32)] (some (d, 32)) (some 1) with rnd := rndOpnd r }

/-- A one-source FP32 form with its rounding operand. -/
def fone (i : Instr) (h : Hd) (d a : Opnd) (r : Rnd) (p : Machine.Pos := .w32) : Shape :=
  { shapeX i h [(a, p)] (some (d, 32)) (some 1) with rnd := rndOpnd r }

/-- Addition's zero sum is -0 under rd alone (R197). -/
def toDown : Rnd → Bool
  | .mode .rd => true
  | _ => false

/-- The rational that a finite value is. -/
def ratOf : FVal → Option ℚ
  | .fin s m e => some ((if s then -1 else 1) * m * (2 : ℚ) ^ e)
  | _ => none

/-- `y` is what R94 and R95 make of the rational `x` in a format, without overflow: among all finite encodings of the format it is the one
that the mode picks, and the result differs from `x` exactly if `inx`. Under sr it is one of the neighbours (R96). -/
def RoundsTo (f : FFmt) (rm : RM) (x : ℚ) (y : Nat) (inx : Bool) : Prop :=
  ∃ v, ratOf (f.decode y) = some v ∧ (inx = true ↔ v ≠ x) ∧
    ∀ (z : Nat) (w : ℚ), z < 2 ^ f.w → ratOf (f.decode z) = some w →
      match rm with
      | .mode .rd => v ≤ x ∧ (w ≤ x → w ≤ v)
      | .mode .ru => x ≤ v ∧ (x ≤ w → v ≤ w)
      | .mode .rz => |v| ≤ |x| ∧ (|w| ≤ |x| → |w| ≤ |v|)
      | .mode .rn => |v - x| ≤ |w - x| ∧ (w ≠ v → |w - x| = |v - x| → y % 2 = 0)
      | .mode .ra => |v - x| ≤ |w - x| ∧ (w ≠ v → |w - x| = |v - x| → |w| ≤ |v|)
      | .sr _ => min v x ≤ w → w ≤ max v x → w = v

/-- The lesser (under `big` the greater) of two values, -0 below +0; a number rather than a NaN (R198). -/
def lesser (big : Bool) (x y : FVal) : FVal :=
  if x.isNan then y
  else if y.isNan then x
  else if x.cmp y < 0 ∨ (x.cmp y = 0 ∧ x.sign = true ∧ y.sign = false) then (if big then y else x)
  else (if big then x else y)

/-- a * 2^n, exactly; zeros, infinities and NaN pass through (R209). -/
def scaled (n : Int) : FVal → FVal
  | .fin s m e => .fin s m (if m = 0 then e else e + n)
  | x => x

/-- One half of PFOP (R207): half k of each source in the format, the result rounded once, under sr by half k of RSRC. -/
def halfOf (op : POp) (g : FFmt) (r : Rnd) (m : SMod) (k : Nat) (v : List Nat) : LaneRes :=
  let half : Nat → Nat := fun n => v.getD n 0 / 2 ^ (16 * k) % 2 ^ 16
  let src : Bool → Bool → Nat → FVal := fun neg abs n =>
    let y := if abs then (g.decode (half n)).abs else g.decode (half n)
    if neg then y.neg else y
  let rm : RM := match r with
    | .mode t => .mode t
    | .sr _ => .sr (half 3)
  let put : FVal × Bool → LaneRes := fun x =>
    { LaneRes.value (g.round rm x.1).1 with fl := (g.round rm x.1).2 ||| inv x.2 }
  match op with
  | .add => put ((src m.n1 m.a1 1).add (toDown r) (src m.n0 m.a0 0))
  | .mul => put ((src m.n1 m.a1 1).mul (src m.n0 m.a0 0))
  | .min => LaneRes.value (g.round (.mode .rn) (lesser false (src m.n1 m.a1 1) (src m.n0 m.a0 0))).1
  | .max => LaneRes.value (g.round (.mode .rn) (lesser true (src m.n1 m.a1 1) (src m.n0 m.a0 0))).1
  | .fma _ n2 =>
    let p := (src m.n0 m.a0 0).mul (src m.n1 m.a1 1)
    let q := p.1.add (toDown r) (src n2 false 2)
    put (q.1, p.2 || q.2)

/-- `y` is what R94 and R95 make of the square root of the rational `x` > 0, without overflow (R201): among the finite encodings that are not
negative it is the one that the mode picks, compared by squares; `inx` if it is not the root itself. Under sr it is one of the neighbours. -/
def RootRoundsTo (f : FFmt) (rm : RM) (x : ℚ) (y : Nat) (inx : Bool) : Prop :=
  ∃ v, ratOf (f.decode y) = some v ∧ 0 ≤ v ∧ (inx = true ↔ v * v ≠ x) ∧
    ∀ (z : Nat) (w : ℚ), z < 2 ^ f.w → ratOf (f.decode z) = some w → 0 ≤ w →
      match rm with
      | .mode .rd | .mode .rz => v * v ≤ x ∧ (w * w ≤ x → w ≤ v)
      | .mode .ru => x ≤ v * v ∧ (x ≤ w * w → v ≤ w)
      | .mode .rn => (w < v → (v + w) ^ 2 ≤ 4 * x) ∧ (v < w → 4 * x ≤ (v + w) ^ 2) ∧ (w ≠ v → (v + w) ^ 2 = 4 * x → y % 2 = 0)
      | .mode .ra => (w < v → (v + w) ^ 2 ≤ 4 * x) ∧ (v < w → 4 * x < (v + w) ^ 2)
      | .sr _ => (w < v → w * w < x) ∧ (v < w → x < w * w)

/-- `n` is the integer that the mode makes of the magnitude `q` of a number of sign `s` (R94, R208). -/
def IntegralOf (rm : RM) (s : Bool) (q : ℚ) (n : Nat) : Prop :=
  |q - n| < 1 ∧
  match rm with
  | .mode .rz => (n : ℚ) ≤ q
  | .mode .ru => if s then (n : ℚ) ≤ q else q ≤ n
  | .mode .rd => if s then q ≤ n else (n : ℚ) ≤ q
  | .mode .rn => |q - n| ≤ 1 / 2 ∧ (|q - n| = 1 / 2 → n % 2 = 0)
  | .mode .ra => |q - n| ≤ 1 / 2 ∧ (|q - n| = 1 / 2 → q ≤ n)
  | .sr _ => True

/-- The floating-point formats of the device (R87). -/
def fpFormats : List FFmt := [fp32, fp16, fpB16, fpE4m3, fpE5m2, fpE3m2, fpE2m3, fpE2m1]

end Sys2Proof.Claims

/-- R196, R197, R201, R208, R209: FADD, FSUB, FMUL, FFMA, FDIV, FSQRT, FSCALE and the compact FADD and FMUL complete with their exact result
rounded once; FRND completes and raises no flag. FDIV and FSQRT have the special cases of R201; FRND and FSCALE pass zeros, infinities and NaN
on, and FSCALE scales exactly. Flags and traps follow R99 to R101. How FDIV, FSQRT and FRND round is in RoundingIsOfTheExactResult. -/
def Sys2Proof.Claims.FloatingPointRoundsOnce : Prop :=
  ∀ (h : Hd) (k : Ch) (d a b c : Opnd) (r : Rnd) (m : SMod) (n0 a0 n1 a1 n2 : Bool),
    Computes (.faddC k d b) (shapeC (.faddC k d b) k [(b, .w32), (d, .w32)] (some (d, 32)) (some 1))
      (fun _ _ _ v => let s := (fp32.decode (v.getD 1 0)).add false (fp32.decode (v.getD 0 0)); fput (.mode .rn) s.1 (inv s.2)) ∧
    Computes (.fmulC k d b) (shapeC (.fmulC k d b) k [(b, .w32), (d, .w32)] (some (d, 32)) (some 1))
      (fun _ _ _ v => let s := (fp32.decode (v.getD 1 0)).mul (fp32.decode (v.getD 0 0)); fput (.mode .rn) s.1 (inv s.2)) ∧
    Computes (.fadd h d a b r m) (ftwo (.fadd h d a b r m) h d a b r)
      (fun _ _ _ v =>
        let s := (fsrc m.n1 m.a1 (v.getD 1 0)).add (toDown r) (fsrc m.n0 m.a0 (v.getD 0 0))
        fput (rmOf r v) s.1 (inv s.2)) ∧
    Computes (.fsub h d a b r m) (ftwo (.fsub h d a b r m) h d a b r)
      (fun _ _ _ v =>
        let s := (fsrc m.n1 m.a1 (v.getD 1 0)).add (toDown r) (fsrc m.n0 m.a0 (v.getD 0 0)).neg
        fput (rmOf r v) s.1 (inv s.2)) ∧
    Computes (.fmul h d a b r m) (ftwo (.fmul h d a b r m) h d a b r)
      (fun _ _ _ v =>
        let s := (fsrc m.n1 m.a1 (v.getD 1 0)).mul (fsrc m.n0 m.a0 (v.getD 0 0))
        fput (rmOf r v) s.1 (inv s.2)) ∧
    Computes (.ffma h d a b c r m n2)
      { shapeX (.ffma h d a b c r m n2) h [(a, .w32), (b, .w32), (c, .w32)] (some (d, 32)) (some 1) with rnd := rndOpnd r }
      (fun _ _ _ v =>
        let p := (fsrc m.n0 m.a0 (v.getD 0 0)).mul (fsrc m.n1 m.a1 (v.getD 1 0))
        let s := p.1.add (toDown r) (fsrc n2 false (v.getD 2 0))
        fput (rmOf r v) s.1 (inv (p.2 || s.2))) ∧
    Computes (.fdiv h d a b r m) (ftwo (.fdiv h d a b r m) h d a b r)
      (fun _ _ _ v => divF (rmOf r v) (fsrc m.n1 m.a1 (v.getD 1 0)) (fsrc m.n0 m.a0 (v.getD 0 0))) ∧
    Computes (.fsqrt h d a r n0 a0) (fone (.fsqrt h d a r n0 a0) h d a r)
      (fun _ _ _ v => sqrtF (rmOf r v) (fsrc n0 a0 (v.getD 0 0))) ∧
    Computes (.fscale h d a b r n1 a1) (ftwo (.fscale h d a b r n1 a1) h d a b r)
      (fun _ _ _ v => fput (rmOf r v) (scaleF (BitVec.ofNat 32 (v.getD 0 0)).toInt (fsrc n1 a1 (v.getD 1 0))) 0) ∧
    Silent (.frnd h d a r n0 a0) (fone (.frnd h d a r n0 a0) h d a r)
      (fun _ _ _ v => LaneRes.value (rndF (rmOf r v) (fsrc n0 a0 (v.getD 0 0)))) ∧
    (∀ (rm : RM) (s t : Bool) (p q : Nat) (e g : Int), p ≠ 0 → q ≠ 0 →
      let is : LaneRes → Nat → FFlags → Prop := fun y z fl => y.val = z ∧ y.fl = fl
      let inf : Nat := if s = t then 0x7F800000 else 0xFF800000
      let zero : Nat := if s = t then 0 else 0x80000000
      (∀ x, is (divF rm .nan x) 0x7FC00000 0 ∧ is (divF rm x .nan) 0x7FC00000 0) ∧
      is (divF rm (.fin s p e) (.fin t 0 g)) inf flDz ∧ is (divF rm (.fin s 0 e) (.fin t 0 g)) 0x7FC00000 flInv ∧
      is (divF rm (.inf s) (.inf t)) 0x7FC00000 flInv ∧ is (divF rm (.inf s) (.fin t q g)) inf 0 ∧ is (divF rm (.inf s) (.fin t 0 g)) inf 0 ∧
      is (divF rm (.fin s p e) (.inf t)) zero 0 ∧ is (divF rm (.fin s 0 e) (.inf t)) zero 0 ∧ is (divF rm (.fin s 0 e) (.fin t q g)) zero 0 ∧
      is (sqrtF rm .nan) 0x7FC00000 0 ∧ is (sqrtF rm (.inf false)) 0x7F800000 0 ∧ is (sqrtF rm (.inf true)) 0x7FC00000 flInv ∧
      is (sqrtF rm (.fin false 0 e)) 0 0 ∧ is (sqrtF rm (.fin true 0 e)) 0x80000000 0 ∧ is (sqrtF rm (.fin true p e)) 0x7FC00000 flInv ∧
      rndF rm .nan = 0x7FC00000 ∧ rndF rm (.inf false) = 0x7F800000 ∧ rndF rm (.inf true) = 0xFF800000 ∧
      rndF rm (.fin false 0 e) = 0 ∧ rndF rm (.fin true 0 e) = 0x80000000 ∧
      (∀ n : Int, -600 ≤ n → n ≤ 600 → ∀ x, scaleF n x = scaled n x) ∧
      (∀ n : Int, scaleF n .nan = .nan ∧ scaleF n (.inf s) = .inf s ∧ scaleF n (.fin s 0 e) = .fin s 0 e))

/-- R203 to R207: FCVT, I2F and F2I round the element that SEL chooses to the destination's format, the signed result of F2I sign-extended;
PFOP works on two halves, each rounded once, and the exceptions of both are raised. -/
def Sys2Proof.Claims.ConversionsAndHalves : Prop :=
  ∀ (h : Hd) (d a b : Opnd) (dfmt sfmt : Fmt) (sel : BitVec 3) (u bf : Bool) (r : Rnd) (op : POp) (m : SMod),
    Computes (.fcvt h d a dfmt sfmt sel r) (fone (.fcvt h d a dfmt sfmt sel r) h d a r (.elem sfmt))
      (fun _ _ _ v =>
        let y := dfmt.round (rmOf r v) (sfmt.decode (v.getD 0 0 / 2 ^ (sfmt.bits * sel.toNat) % 2 ^ sfmt.bits) [] false) false
        { LaneRes.value y.1 with fl := y.2 }) ∧
    Computes (.i2f h d a dfmt sfmt sel u r) (fone (.i2f h d a dfmt sfmt sel u r) h d a r (.elem sfmt))
      (fun _ _ _ v =>
        let y := dfmt.round (rmOf r v) (sfmt.decode (v.getD 0 0 / 2 ^ (sfmt.bits * sel.toNat) % 2 ^ sfmt.bits) [] u) false
        { LaneRes.value y.1 with fl := y.2 }) ∧
    Computes (.f2i h d a dfmt sfmt sel u r) (fone (.f2i h d a dfmt sfmt sel u r) h d a r (.elem sfmt))
      (fun _ _ _ v =>
        let y := dfmt.round (rmOf r v) (sfmt.decode (v.getD 0 0 / 2 ^ (sfmt.bits * sel.toNat) % 2 ^ sfmt.bits) [] false) u
        { LaneRes.value (if u then y.1 else (BitVec.ofInt 32 (sintOf dfmt.bits y.1)).toNat) with fl := y.2 }) ∧
    Computes (.pfop h d a b op bf r m)
      { shapeX (.pfop h d a b op bf r m) h
          (let f : Fmt := if bf then .bf16 else .f16
           match op with
           | .fma c _ => [(a, .elem f), (b, .elem f), (c, .elem f)]
           | _ => [(b, .elem f), (a, .elem f)])
          (some (d, 32)) (some 1) with rnd := rndOpnd r }
      (fun _ _ _ v =>
        let lo := halfOf op (if bf then fpB16 else fp16) r m 0 v
        let hi := halfOf op (if bf then fpB16 else fp16) r m 1 v
        { LaneRes.value (lo.val + hi.val * 2 ^ 16) with fl := lo.fl ||| hi.fl })

/-- R196 to R209: the floating-point operations and the conversions complete. -/
def Obligations.FloatingPointOperations : Prop := Sys2Proof.Claims.FloatingPointRoundsOnce ∧ Sys2Proof.Claims.ConversionsAndHalves

/-- R198, R199, R200: FMIN and FMAX, FCMP with its predicate and mask, and FCLASS, none of which raises a flag. -/
def Sys2Proof.Claims.FloatingPointComparesSilently : Prop :=
  ∀ (h : Hd) (d a b : Opnd) (r : Rnd) (m : SMod) (pd : Fin 8) (cmp : FCmp),
    (∀ big : Bool, ∃ g : FVal → FVal → FVal,
      (let i : Instr := if big then .fmax h d a b ⟨r, m⟩ else .fmin h d a b ⟨r, m⟩
       Silent i (ftwo i h d a b r)
        (fun _ _ _ v => LaneRes.value (fp32.round (.mode .rn)
          (g (fsrc m.n1 m.a1 (v.getD 1 0)) (fsrc m.n0 m.a0 (v.getD 0 0)))).1)) ∧
      ∀ x y : FVal, (x = .nan → g x y = y) ∧ (y = .nan → g x y = x) ∧
        (x ≠ .nan → y ≠ .nan → (g x y = x ∨ g x y = y) ∧
          (x.cmp y < 0 → g x y = if big then y else x) ∧ (0 < x.cmp y → g x y = if big then x else y) ∧
          (x.cmp y = 0 → x.sign = true → y.sign = false → g x y = if big then y else x) ∧
          (x.cmp y = 0 → x.sign = false → y.sign = true → g x y = if big then x else y))) ∧
    (∃ o : FVal → FVal → Bool,
      Silent (.fcmp h pd d a b cmp m) { ftwo (.fcmp h pd d a b cmp m) h d a b (.mode .rn) with pd := pd }
        (fun _ _ _ v =>
          let z := o (fsrc m.n1 m.a1 (v.getD 1 0)) (fsrc m.n0 m.a0 (v.getD 0 0))
          { LaneRes.value (if z then 0xFFFFFFFF else 0) with pd := z }) ∧
      ∀ x y : FVal, (o x y = true ↔
        match cmp with
        | .eq => x ≠ .nan ∧ y ≠ .nan ∧ x.cmp y = 0
        | .ne => x = .nan ∨ y = .nan ∨ x.cmp y ≠ 0
        | .lt => x ≠ .nan ∧ y ≠ .nan ∧ x.cmp y < 0
        | .le => x ≠ .nan ∧ y ≠ .nan ∧ x.cmp y ≤ 0
        | .gt => x ≠ .nan ∧ y ≠ .nan ∧ x.cmp y > 0
        | .ge => x ≠ .nan ∧ y ≠ .nan ∧ x.cmp y ≥ 0
        | .un => x = .nan ∨ y = .nan
        | .or => x ≠ .nan ∧ y ≠ .nan)) ∧
    (∃ c : W32 → W32,
      Silent (.fclass h d ⟨a, r⟩) (fone (.fclass h d ⟨a, r⟩) h d a r) (of1 c) ∧
      ∀ x : W32, ∃ n : Nat, n < 9 ∧ c x = 1 <<< n ∧
        (let neg := x.msb
         let e := (x.toNat / 2 ^ 23) % 256
         let f := x.toNat % 2 ^ 23
         n = if e = 255 then (if f ≠ 0 then 8 else if neg then 0 else 7)
             else if e = 0 then (if f = 0 then (if neg then 3 else 4) else if neg then 2 else 5)
             else if neg then 1 else 6))

/-- R202: the SFU functions complete with a result that depends on the source's value alone, and their special cases are those of the
table: zeros, infinities, NaN, and the signs on which they raise INV or DZ. -/
def Sys2Proof.Claims.SpecialFunctionsComplete : Prop :=
  ∀ (h : Hd) (d a : Opnd) (n0 a0 : Bool),
    ∃ rcp rsq exp2 log2 sin cos tanh : FVal → LaneRes,
      (let sh : Instr → Shape := fun i => shapeX i h [(a, .w32)] (some (d, 32)) (some 3)
       let f : (FVal → LaneRes) → Ctx → Nat → Thread → List Nat → LaneRes := fun g _ _ _ v => g (fsrc n0 a0 (v.getD 0 0))
       Computes (.frcp h d a n0 a0) (sh (.frcp h d a n0 a0)) (f rcp) ∧
       Computes (.frsq h d a n0 a0) (sh (.frsq h d a n0 a0)) (f rsq) ∧
       Computes (.fexp2 h d a n0 a0) (sh (.fexp2 h d a n0 a0)) (f exp2) ∧
       Computes (.flog2 h d a n0 a0) (sh (.flog2 h d a n0 a0)) (f log2) ∧
       Computes (.fsin h d a n0 a0) (sh (.fsin h d a n0 a0)) (f sin) ∧
       Computes (.fcos h d a n0 a0) (sh (.fcos h d a n0 a0)) (f cos) ∧
       Computes (.ftanh h d a n0 a0) (sh (.ftanh h d a n0 a0)) (f tanh)) ∧
      (let is : LaneRes → Nat → FFlags → Prop := fun r x fl => r.val = x ∧ r.fl = fl
       (∀ g ∈ [rcp, rsq, exp2, log2, sin, cos, tanh], is (g .nan) 0x7FC00000 0) ∧
       (∀ (e : Int),
         is (rcp (.fin false 0 e)) 0x7F800000 flDz ∧ is (rcp (.fin true 0 e)) 0xFF800000 flDz ∧
         is (rsq (.fin false 0 e)) 0x7F800000 flDz ∧ is (rsq (.fin true 0 e)) 0xFF800000 flDz ∧
         is (exp2 (.fin false 0 e)) 0x3F800000 0 ∧ is (log2 (.fin false 0 e)) 0xFF800000 flDz ∧
         is (log2 (.fin true 0 e)) 0xFF800000 flDz ∧ is (sin (.fin false 0 e)) 0 0 ∧ is (sin (.fin true 0 e)) 0x80000000 0 ∧
         is (cos (.fin false 0 e)) 0x3F800000 0 ∧ is (cos (.fin true 0 e)) 0x3F800000 0 ∧
         is (tanh (.fin false 0 e)) 0 0 ∧ is (tanh (.fin true 0 e)) 0x80000000 0) ∧
       (∀ (m : Nat) (e : Int), m ≠ 0 →
         is (rsq (.fin true m e)) 0x7FC00000 flInv ∧ is (log2 (.fin true m e)) 0x7FC00000 flInv) ∧
       is (rcp (.inf false)) 0 0 ∧ is (rcp (.inf true)) 0x80000000 0 ∧ is (rsq (.inf false)) 0 0 ∧
       is (rsq (.inf true)) 0x7FC00000 flInv ∧ is (exp2 (.inf false)) 0x7F800000 0 ∧ is (exp2 (.inf true)) 0 0 ∧
       is (log2 (.inf false)) 0x7F800000 0 ∧ is (log2 (.inf true)) 0x7FC00000 flInv ∧
       (∀ s, is (sin (.inf s)) 0x7FC00000 flInv ∧ is (cos (.inf s)) 0x7FC00000 flInv) ∧
       is (tanh (.inf false)) 0x3F800000 0 ∧ is (tanh (.inf true)) 0xBF800000 0)

/-- R198 to R200, R202: minimum, maximum, comparison and class, and the special functions. -/
def Obligations.ComparesAndSpecialFunctions : Prop := Sys2Proof.Claims.FloatingPointComparesSilently ∧ Sys2Proof.Claims.SpecialFunctionsComplete

/-- R94, R95, R97, R99: in every floating-point format, rounding a nonzero exact value either overflows, when the value exceeds the largest
finite magnitude, OVF and INX are raised and the result is that of the table of R97, or picks the encoding that the mode calls for, INX being
raised exactly where the result is inexact. -/
def Sys2Proof.Claims.RoundingPicksTheModesNeighbour : Prop :=
  ∀ f ∈ fpFormats, ∀ (rm : RM) (neg : Bool) (m : Nat) (e : Int), m ≠ 0 →
    let x : ℚ := (if neg then -1 else 1) * m * (2 : ℚ) ^ e
    let y := f.round rm (.fin neg m e)
    if y.2.getLsbD 2 then
      (∃ big, ratOf (f.decode f.maxEnc) = some big ∧ big < |x|) ∧ y.2.getLsbD 4 = true ∧
        y.1 = (let inf := f.infEnc.getD f.maxEnc
               (if neg then 2 ^ (f.w - 1) else 0) +
                 match rm with
                 | .mode .rz => f.maxEnc
                 | .mode .ru => if neg then f.maxEnc else inf
                 | .mode .rd => if neg then inf else f.maxEnc
                 | _ => inf)
    else RoundsTo f rm x y.1 (y.2.getLsbD 4)

/-- R112, R197, R201, R208, R209: sums and products of finite values are exact; FDIV and FRCP round the exact quotient and FSQRT the exact root;
FRND gives the integer that the mode calls for; FSCALE by more than 600 either way is what rounding the exact product gives. -/
def Sys2Proof.Claims.ArithmeticIsExactBeforeRounding : Prop :=
  (∀ (rd s t : Bool) (m n : Nat) (e g : Int) (x y : ℚ), ratOf (.fin s m e) = some x → ratOf (.fin t n g) = some y →
    ((FVal.fin s m e).add rd (.fin t n g)).2 = false ∧ ratOf ((FVal.fin s m e).add rd (.fin t n g)).1 = some (x + y) ∧
    ((FVal.fin s m e).mul (.fin t n g)).2 = false ∧ ratOf ((FVal.fin s m e).mul (.fin t n g)).1 = some (x * y) ∧
    ((FVal.fin s m e).cmp (.fin t n g) < 0 ↔ x < y) ∧ ((FVal.fin s m e).cmp (.fin t n g) = 0 ↔ x = y)) ∧
  (∀ (rm : RM) (s t : Bool) (m n : Nat) (e g : Int) (x y : ℚ), m ≠ 0 → n ≠ 0 →
    ratOf (.fin s m e) = some x → ratOf (.fin t n g) = some y →
    let q := divF rm (.fin s m e) (.fin t n g)
    (q.fl.getLsbD 2 = false → RoundsTo fp32 rm (x / y) q.val (q.fl.getLsbD 4)) ∧ q.fl.getLsbD 0 = false ∧ q.fl.getLsbD 1 = false) ∧
  (∀ (t : Bool) (n : Nat) (g : Int) (y : ℚ), n ≠ 0 → ratOf (.fin t n g) = some y →
    let q := rcpF (.fin t n g)
    q.fl.getLsbD 2 = false → RoundsTo fp32 (.mode .rn) (1 / y) q.val (q.fl.getLsbD 4)) ∧
  (∀ (rm : RM) (m : Nat) (e : Int) (x : ℚ), m ≠ 0 → ratOf (.fin false m e) = some x →
    let q := sqrtF rm (.fin false m e)
    (q.fl.getLsbD 2 = false → RootRoundsTo fp32 rm x q.val (q.fl.getLsbD 4)) ∧ q.fl.getLsbD 0 = false ∧ q.fl.getLsbD 1 = false) ∧
  (∀ (rm : RM) (s : Bool) (m : Nat) (e : Int), m ≠ 0 →
    ∃ n : Nat, IntegralOf rm s (m * (2 : ℚ) ^ e) n ∧ rndF rm (.fin s m e) = (fp32.round (.mode .rn) (.fin s n 0)).1) ∧
  (∀ (rm : RM) (n : Int) (y : Nat), fp32.round rm (scaleF n (fp32.decode y)) = fp32.round rm (scaled n (fp32.decode y)))

/-- R94 to R97, R99, R112, R197, R201: exact results, rounded once. -/
def Obligations.RoundingIsOfTheExactResult : Prop := Sys2Proof.Claims.RoundingPicksTheModesNeighbour ∧ Sys2Proof.Claims.ArithmeticIsExactBeforeRounding

/-- R101, R403: where an active lane raises an exception whose %fptrap bit is set, outside the FPE handler, an instruction that computes
writes no destination: the flags of every active lane are set, the pops stand, and FPE is taken with the lanes that raised one, the union
of those exceptions in its first auxiliary word, and an entry that holds every active lane's results. -/
def Obligations.FpeHoldsTheResults : Prop :=
  ∀ (s : State) (x : Ctx) (i : Instr) (sh : Shape) (f : LaneFn), (∀ u, exec i u = u.lanes sh f) → Goes s x sh f →
    fpeDue x (runLanes sh f x s).outs = true →
    let outs := (runLanes sh f x s).outs
    let en : LaneOut → FFlags := fun o => ((x.b.thread? o.tl).map (fun t => o.res.fl &&& t.fptrap.setWidth 5)).getD 0
    ∃ t : TrapInfo,
      exec i s = .next ((outs.foldl (fun u o => u.updThread x.b.key o.tl (fun th => (o.ports th).raise o.res.fl))
        (runLanes sh f x s).s).takeTrap x t (x.pc + BitVec.ofNat 64 sh.size)) ∧
      t.code = 0x0100 ∧ t.pc = x.pc ∧ t.aux1 = 0 ∧ t.aux2 = 0 ∧ t.aux3 = 0 ∧
      t.mask = maskOfLanes ((outs.filter (fun o => en o ≠ 0)).map (·.lane)) ∧
      (∀ lane, lane < 32 → t.aux0.getD lane 0 = (outs.foldl (fun g o => g ||| en o) 0).setWidth 32) ∧
      ∃ e, t.entries = [e] ∧ e.pc = x.pc ∧ e.i = sh.i ∧ ∀ lane, lane < 32 →
        match outs.find? (fun o => o.lane == lane) with
        | none => (e.lanes.getD lane LaneEnt.none).member = false
        | some o =>
          let r := e.lanes.getD lane LaneEnt.none
          r.member = true ∧ r.resv = true ∧ r.res.setWidth 64 = BitVec.ofNat 64 o.res.val ∧ r.res.getLsbD 127 = o.res.pd

/-! ### Predicate and lane instructions (08 R210 to R216) -/

namespace Sys2Proof.Claims

/-- A lane that has nothing of its own to compute. -/
def zeroLane : Ctx → Nat → Thread → List Nat → LaneRes := fun _ _ _ _ => LaneRes.value 0

/-- An instruction whose lanes see each other's sources completes: `r` gives a lane its result from what all active lanes read. -/
def Across (i : Instr) (sh : Shape) (r : List LaneOut → LaneOut → LaneRes) : Prop :=
  (∀ (s : State) (x : Ctx), LanesReady s x sh →
    exec i s = .next (commitLanes sh x ((computed x sh zeroLane).map (fun o => { o with res := r (computed x sh zeroLane) o })) s)) ∧
  CompletesAs i sh (pureLane zeroLane) (fun x outs t => commitLanes sh x (outs.map (fun o => { o with res := r outs o })) t)

/-- Source n as a lane read it. -/
def LaneSrc (o : LaneOut) (n : Nat) : Nat := o.inp.vals.getD n 0

/-- A 32-bit mask with every bit `b`. -/
def full (b : Bool) : W32 := if b then 0xFFFFFFFF else 0

/-- The word whose bit L says whether L is among the lanes. -/
def isMaskOf (w : W32) (lanes : List Nat) : Prop := ∀ l, l < 32 → (w.getLsbD l = true ↔ l ∈ lanes)

end Sys2Proof.Claims

/-- R211, R212, R213: PLOP looks its three predicates up in LUT; PMOV.to writes p0 to p6 to DSTX and PMOV.from the masked predicates from
SRC0; VOTE forms one result for all active lanes. -/
def Sys2Proof.Claims.PredicatesAndVotes : Prop :=
  ∀ (h : Hd) (pd pa pb pc ps : Fin 8) (lut : BitVec 8) (d a : Opnd) (mask : BitVec 7) (mode : VMode) (psn : Bool),
    Silent (.plop h pd pa pb pc lut) { shapeX (.plop h pd pa pb pc lut) h [] none none with pd := pd }
      (fun _ _ t _ => { LaneRes.value 0 with
        pd := lut.getLsbD ((if t.pred pa then 4 else 0) + (if t.pred pb then 2 else 0) + (if t.pred pc then 1 else 0)) }) ∧
    Silent (.pmov h (.inl d)) (shapeX (.pmov h (.inl d)) h [] (some (d, 32)) (some 0))
      (fun _ _ t _ => LaneRes.value (t.preds.setWidth 32).toNat) ∧
    (∃ g : W32 → BitVec 7 → BitVec 7,
      Silent (.pmov h (.inr (a, mask))) (shapeX (.pmov h (.inr (a, mask))) h [(a, .w32)] none none)
        (fun _ _ _ v => { LaneRes.value 0 with th := fun t => { t with preds := g (BitVec.ofNat 32 (v.getD 0 0)) t.preds } }) ∧
      ∀ (x : W32) (p : BitVec 7) (i : Nat), i < 7 → (g x p).getLsbD i = if mask.getLsbD i then x.getLsbD i else p.getLsbD i) ∧
    (∃ r : List (Nat × Bool) → Bool × W32,
      Silent (.vote h mode pd d ps psn) { shapeX (.vote h mode pd d ps psn) h [] (some (d, 32)) (some 0) with pd := pd }
        (fun x _ _ _ =>
          let o := r ((x.active h.pneg h.pred).map (fun p => (p.1, p.2.pred ps ^^ psn)))
          { LaneRes.value o.2.toNat with pd := o.1 }) ∧
      ∀ gs : List (Nat × Bool), (∀ p ∈ gs, p.1 < 32) →
        match mode with
        | .all => ((r gs).1 = true ↔ ∀ p ∈ gs, p.2 = true) ∧ (r gs).2 = full (r gs).1
        | .any => ((r gs).1 = true ↔ ∃ p ∈ gs, p.2 = true) ∧ (r gs).2 = full (r gs).1
        | .uni => ((r gs).1 = true ↔ ∀ p ∈ gs, ∀ q ∈ gs, p.2 = q.2) ∧ (r gs).2 = full (r gs).1
        | .ballot => isMaskOf (r gs).2 ((gs.filter (·.2)).map (·.1)) ∧ ((r gs).1 = true ↔ (r gs).2 ≠ 0))

/-- R214, R215, R216: SHFL reads SRC1 of the lane that its mode names within the segment, or its own; MATCH answers which active lanes hold
an equal value; CRED gives every active lane the same 64-bit reduction. -/
def Sys2Proof.Claims.LanesSeeEachOther : Prop :=
  ∀ (h : Hd) (mode : ShMode) (wid : Wid) (pd : Fin 8) (d a b : Opnd) (all w64 u : Bool) (op : COp),
    (∃ r : List LaneOut → LaneOut → LaneRes,
      Across (.shfl h mode wid pd d a b)
        { shapeX (.shfl h mode wid pd d a b) h [(b, .w32), (a, .w32)] (some (d, 32)) (some 0) with pd := pd } r ∧
      ∀ (outs : List LaneOut) (o : LaneOut),
        let w : Nat := match wid with | .w32 => 32 | .w1 => 1 | .w2 => 2 | .w4 => 4 | .w8 => 8 | .w16 => 16
        let j := o.lane % w
        let t : Int := match mode with
          | .idx => LaneSrc o 0
          | .up => (j : Int) - LaneSrc o 0
          | .down => (j : Int) + LaneSrc o 0
          | .xor => ((j ^^^ LaneSrc o 0 : Nat) : Int)
        match outs.find? (fun q => decide (0 ≤ t) && decide (t < w) && decide ((q.lane : Int) = o.lane - j + t)) with
        | some q => (r outs o).pd = true ∧ (r outs o).val = LaneSrc q 1
        | none => (r outs o).pd = false ∧ (r outs o).val = LaneSrc o 1) ∧
    (∃ r : List LaneOut → LaneOut → LaneRes,
      Across (.match_ h all w64 pd d a)
        { shapeX (.match_ h all w64 pd d a) h [(a, if w64 then .w64 else .w32)] (some (d, 32)) (some 0) with pd := pd } r ∧
      ∀ (outs : List LaneOut) (o : LaneOut), (∀ q ∈ outs, q.lane < 32) → o ∈ outs →
        ((r outs o).pd = true ↔ ∀ q ∈ outs, LaneSrc q 0 = LaneSrc o 0) ∧
        (all = false → isMaskOf (BitVec.ofNat 32 (r outs o).val) ((outs.filter (fun q => LaneSrc q 0 == LaneSrc o 0)).map (·.lane))) ∧
        (all = true → (r outs o).pd = true → isMaskOf (BitVec.ofNat 32 (r outs o).val) (outs.map (·.lane))) ∧
        (all = true → (r outs o).pd = false → (r outs o).val = 0)) ∧
    (∃ r : List LaneOut → BitVec 64,
      Across (.cred h op u d a) (shapeX (.cred h op u d a) h [(a, .w32)] (some (d, 64)) (some 0))
        (fun outs _ => LaneRes.value (r outs).toNat) ∧
      ∀ outs : List LaneOut, outs ≠ [] →
        let xs : List W32 := outs.map (fun o => BitVec.ofNat 32 (LaneSrc o 0))
        let wide : W32 → BitVec 64 := fun y => if u then y.setWidth 64 else y.signExtend 64
        match op with
        | .add => r outs = BitVec.ofInt 64 ((xs.map (fun y => asInt u y)).sum)
        | .min => (∃ y ∈ xs, r outs = wide y ∧ ∀ z ∈ xs, asInt u y ≤ asInt u z)
        | .max => (∃ y ∈ xs, r outs = wide y ∧ ∀ z ∈ xs, asInt u z ≤ asInt u y)
        | .and => ∃ y : W32, r outs = wide y ∧ ∀ i, i < 32 → (y.getLsbD i = true ↔ ∀ z ∈ xs, z.getLsbD i = true)
        | .or => ∃ y : W32, r outs = wide y ∧ ∀ i, i < 32 → (y.getLsbD i = true ↔ ∃ z ∈ xs, z.getLsbD i = true)
        | .xor => ∃ y : W32, r outs = wide y ∧
            ∀ i, i < 32 → (y.getLsbD i = true ↔ (xs.filter (fun z => z.getLsbD i)).length % 2 = 1))

/-- R211 to R216: predicates, votes, and the instructions whose lanes see each other. -/
def Obligations.PredicatesAndLanes : Prop := Sys2Proof.Claims.PredicatesAndVotes ∧ Sys2Proof.Claims.LanesSeeEachOther

/-! ### Control (08 R178 to R187; 07 R161 to R166) -/

namespace Sys2Proof.Claims

/-- The shape of an instruction that reads and writes nothing. -/
def still (i : Instr) (h : Hd) (size : Nat) : Shape :=
  { h := h, size := size, i := i, srcs := [], rnd := none, dst := none, pd := 7, latch := none }

/-- The same with sources and a destination, on a pipe without a latch. -/
def plain (i : Instr) (h : Hd) (size : Nat) (srcs : List (Opnd × Machine.Pos)) (dst : Option (Opnd × Nat)) : Shape :=
  { still i h size with srcs := srcs, dst := dst }

/-- The extended fields of a compact word (R31). -/
def wide (k : Ch) : Hd := { chain := k.chain, pneg := k.pneg, pred := k.pred, wbs := false, lit := k.lit }

/-- A branch completes: each acting lane goes to its target, every other thread of the course falls through, the link is written, and the
sides part (R165, R179). Inside a handler all threads must agree (R406). -/
def Branches (i : Instr) (sh : Shape) (f : LaneFn) (target : Ctx → LaneOut → W64) (link : Ctx → LaneOut → LaneRes) : Prop :=
  ∀ (s : State) (x : Ctx), Goes s x sh f →
    let outs := (runLanes sh f x s).outs
    let next : Nat → W64 := fun lane =>
      match outs.find? (fun o => o.lane == lane) with
      | some o => target x o
      | none => x.pc + BitVec.ofNat 64 sh.size
    (x.c.inHandler = true → ∀ p ∈ x.c.members, ∀ q ∈ x.c.members, next p.1 = next q.1) →
    exec i s = .next ((writeLanes sh x (outs.map (fun o => { o with res := link x o })) (runLanes sh f x s).s).diverge x next)

/-- An indirect target is read, and refused where its low two bits are not zero (R179). -/
def readTarget : LaneFn := fun _ st _ _ v =>
  if v.headD 0 % 4 = 0 then .ok (LaneRes.value (v.headD 0), st)
  else .error (.trap { rank := rankMis, code := 2, aux0 := lowWord (v.headD 0), aux1 := highWord (v.headD 0), aux2 := 0, aux3 := 0 })

end Sys2Proof.Claims

/-- R178, R182: NOP moves every thread of its course past itself, or the MCC past itself, and does nothing else; YIELD does so too, ends
the chain, and leaves the course the youngest, not eligible in the next cycle. -/
def Sys2Proof.Claims.NopAndYieldGoOn : Prop :=
  ∀ (s : State) (h : Hd) (k : Ch),
    (∀ x, s.issuing = some x → x.c.reinj = [] →
      exec (.nop h) s = .next (commitLanes (still (.nop h) h (hdSize h)) x [] s) ∧
      exec (.nopC k) s = .next (commitLanes (still (.nopC k) (wide k) (chSize k)) x [] s) ∧
      exec (.yield h) s = .next ((commitLanes (still (.yield h) { h with chain := false } (hdSize h)) x [] s).updCourse x.core x.id
        (fun c => { c with yielded := true, age := s.cycle + 2 })) ∧
      exec (.yieldC k) s = .next ((commitLanes (still (.yieldC k) { wide k with chain := false } (chSize k)) x [] s).updCourse x.core x.id
        (fun c => { c with yielded := true, age := s.cycle + 2 }))) ∧
    (∀ y, s.running = some y →
      exec (.nop h) s = .next (s.updMcc y.core (fun m => { m with pc := m.pc + BitVec.ofNat 64 (hdSize h) })) ∧
      exec (.nopC k) s = .next (s.updMcc y.core (fun m => { m with pc := m.pc + BitVec.ofNat 64 (chSize k) })))

/-- R179, R180: BRA, BRX, CALL and RET, compact and extended: the lanes that act go to the branch's own address plus four times the
offset, or to their 64-bit source; CALL writes the address behind it to its pair. -/
def Sys2Proof.Claims.BranchesGoToTheirTargets : Prop :=
  ∀ (h : Hd) (k : Ch) (d a : Opnd) (off17 : BitVec 17) (off32 : BitVec 32),
    (let rel : Int → Ctx → LaneOut → W64 := fun off x _ => x.pc + BitVec.ofInt 64 (4 * off)
     let own : Ctx → LaneOut → LaneRes := fun _ o => o.res
     let ind : Ctx → LaneOut → W64 := fun _ o => BitVec.ofNat 64 o.res.val
     let behind : Ctx → LaneOut → LaneRes := fun x _ => LaneRes.value (x.pc + BitVec.ofNat 64 (hdSize h)).toNat
     Branches (.braC k off17) (still (.braC k off17) (wide k) (chSize k)) (pureLane zeroLane) (rel off17.toInt) own ∧
     Branches (.bra h off32) (still (.bra h off32) h (hdSize h)) (pureLane zeroLane) (rel off32.toInt) own ∧
     Branches (.brx h a) (plain (.brx h a) h (hdSize h) [(a, .w64)] none) readTarget ind own ∧
     Branches (.retC k) (plain (.retC k) (wide k) (chSize k) [(.v 0, .w64)] none) readTarget ind own ∧
     Branches (.ret h a) (plain (.ret h a) h (hdSize h) [(a, .w64)] none) readTarget ind own ∧
     Branches (.call h d (.direct off32)) (plain (.call h d (.direct off32)) h (hdSize h) [] (some (d, 64)))
       (pureLane (fun x _ _ _ => LaneRes.value (x.pc + BitVec.ofNat 64 (hdSize h)).toNat)) (rel off32.toInt) own ∧
     Branches (.call h d (.ind a)) (plain (.call h d (.ind a)) h (hdSize h) [(a, .w64)] (some (d, 64))) readTarget
       (fun _ o => BitVec.ofNat 64 o.res.val) behind)

/-- R165: at a branch the side that holds the most threads continues as the course, on a tie the one with the lowest next PC; every thread
has its own side's next PC, and exactly the threads of the side that continues stay in the course. -/
def Sys2Proof.Claims.LargestSideContinues : Prop :=
  ∀ (s : State) (x : Ctx) (next : Nat → W64), s.course? x.core x.id = some x.c → x.c.reinj = [] → x.c.members ≠ [] →
    (x.c.members.map (·.2)).Nodup →
    let pcs := x.c.members.map (fun p => next p.1)
    let t := s.diverge x next
    ∃ go ∈ pcs, (∀ p ∈ pcs, pcs.count p < pcs.count go ∨ (pcs.count p = pcs.count go ∧ go.toNat ≤ p.toNat)) ∧
      (∃ c, t.course? x.core x.id = some c ∧ ∀ p, p ∈ c.members ↔ p ∈ x.c.members ∧ next p.1 = go) ∧
      ∀ p ∈ x.c.members, (t.thread? x.b.key p.2).map (·.pc) = (s.thread? x.b.key p.2).map (fun _ => next p.1)

/-- R165, R179, R180: branches and their sides. -/
def Obligations.BranchesSplitCourses : Prop := Sys2Proof.Claims.BranchesGoToTheirTargets ∧ Sys2Proof.Claims.LargestSideContinues

/-- R181, R182, R161: EXIT ends each active thread, in ascending index, and the others go on; REFORM files every thread of the course,
ascending, at the next instruction. -/
def Sys2Proof.Claims.ExitAndReformLeaveTheCourse : Prop :=
  ∀ (s : State) (x : Ctx) (h : Hd) (k : Ch), s.issuing = some x →
    (let out : Hd → Nat → Host.Outcome State Fault Refusal := fun g n =>
       .next ((byThread (x.active g.pneg g.pred)).foldl (fun t p => t.exitThread x.b.key p.2.tl)
         (s.othersGoOn x ((x.active g.pneg g.pred).map (·.1)) n))
     exec (.exit h) s = out h (hdSize h) ∧ exec (.exitC k) s = out (wide k) (chSize k)) ∧
    (let all : Nat → Host.Outcome State Fault Refusal := fun n =>
       .next ((s.othersGoOn x (x.c.members.map (·.1)) n).fileAt x.b.key (x.c.members.map (·.2)) (x.pc + BitVec.ofNat 64 n))
     exec (.reform h) s = all (hdSize h) ∧ exec (.reformC k) s = all (chSize k)) ∧
    (∀ (gone : List Nat) (n : Nat) (c : Course), s.course? x.core x.id = some c → c.reinj = [] →
      (∃ p ∈ c.members, p.1 ∉ gone) →
      ∃ d, (s.othersGoOn x gone n).course? x.core x.id = some d ∧ ∀ p, p ∈ d.members ↔ p ∈ c.members ∧ p.1 ∉ gone)

/-- R181: a thread that exits takes no further part: the expected count of each open phase that was opened with COUNT 0 falls by one, and so does
that of its gang's open phase; where no phase closes by that, nothing else of the block's threads, courses, bins or memory changes; else the
phases whose counts are reached close, in ascending order, as an arrival would close them (BarriersCollectAndRelease). -/
def Sys2Proof.Claims.ExitEndsAThread : Prop :=
  ∀ (s : State) (k : BKey) (tl : Nat) (b : Block) (th : Thread) (l : Launch),
    s.block? k = some b → s.thread? k tl = some th → s.launch? k.part k.lnum = some l →
    let low : Barrier → Barrier := fun x => if x.isOpen = true ∧ x.cnt = 0 then { x with exp := x.exp - 1 } else x
    let u := s.exitThread k tl
    ((∀ i, i < 16 → (low (b.barrier i)).isOpen = true → (low (b.barrier i)).arr < (low (b.barrier i)).exp) →
      let g := k.bl / l.d.unitSize
      let open_ : Bool := decide (l.d.gangw ≠ 0) && (aget? l.gbars g).any (fun x => x.isOpen)
      (∀ x, aget? l.gbars g = some x → open_ = true → x.arr < x.exp - 1) →
      (∃ c, u.block? k = some c ∧ ∀ i, i < 16 → c.barrier i = low (b.barrier i)) ∧
      u.thread? k tl = some { th with stat := .exited } ∧ (∀ n, n ≠ tl → u.thread? k n = s.thread? k n) ∧
      (open_ = true → ∃ m x, u.launch? k.part k.lnum = some m ∧ aget? l.gbars g = some x ∧ aget? m.gbars g = some { x with exp := x.exp - 1 }) ∧
      (open_ = false → u.launches = s.launches) ∧ u.courses = s.courses ∧ u.bins = s.bins ∧ u.mem = s.mem ∧ u.pend = s.pend) ∧
    (l.d.gangw = 0 → u = (List.range 16).foldl (fun t i => t.completeBar k i)
      ((s.updThread k tl (fun t => { t with stat := .exited })).updBlock k (fun c => ({ c with bars := c.bars.map low } : Block).pruneDescs)))

/-- R161, R162: a thread that is filed, where no thread of its core waits unfiled, stands at its PC in a bin: in the one of its block, role and PC
that has room, which becomes a course once it is full; else in a fresh one where the core has fewer than 16 bins. Nothing of any thread but
its PC and where it stands changes. -/
def Sys2Proof.Claims.FilingBinsByPc : Prop :=
  ∀ (s : State) (k : BKey) (tl : Nat) (pc : W64) (b : Block) (th : Thread) (l : Launch),
    s.block? k = some b → s.thread? k tl = some th → s.launch? k.part k.lnum = some l →
    (∀ c ∈ s.blocks, c.core = b.core → ∀ t ∈ c.threads, t.stat ≠ .unfiled) →
    let u := s.fileAt k [tl] pc
    let fits : Bin → Prop := fun x =>
      x.core = b.core ∧ x.slot = b.slot ∧ x.producer = l.d.isProducer tl ∧ x.key = pc ∧ x.threads.length < 32
    let stands : TStat → Prop := fun st => u.thread? k tl = some { th with pc := pc, stat := st }
    ((∃ x ∈ s.bins, fits x) → ∃ x ∈ s.bins, fits x ∧
      (x.threads.length < 31 → stands .bin ∧ u.courses = s.courses ∧ u.mem = s.mem ∧
        u.bins = s.bins.map (fun z => if z.core == x.core && z.id == x.id then { x with threads := x.threads ++ [(tl, s.cycle)] } else z)) ∧
      (x.threads.length = 31 → s.blockAt? b.core b.slot = some b → (s.courses.filter (fun c => c.core == b.core)).length < 128 → ∃ c,
        u.courses = s.courses ++ [c] ∧ c.core = b.core ∧ c.slot = b.slot ∧ c.stat = .ready ∧ c.chain = 0 ∧
        c.lanes = (sortBy (fun n => n) (x.threads.map (·.1) ++ [tl])).map some ∧ stands (.course c.id))) ∧
    ((¬∃ x ∈ s.bins, fits x) → (s.bins.filter (fun x => x.core == b.core)).length < 16 → stands .bin ∧ u.courses = s.courses ∧ u.mem = s.mem ∧
      ∃ id, u.bins = s.bins ++ [{ core := b.core, id := id, slot := b.slot, producer := l.d.isProducer tl, key := pc,
                                  threads := [(tl, s.cycle)], full := false }])

/-- R161, R162, R178, R181, R182: NOP, YIELD, EXIT and REFORM, a thread's exit, and the filing of a thread. -/
def Obligations.CoursesGoOnOrEnd : Prop :=
  Sys2Proof.Claims.NopAndYieldGoOn ∧ Sys2Proof.Claims.ExitAndReformLeaveTheCourse ∧ Sys2Proof.Claims.ExitEndsAThread ∧
  Sys2Proof.Claims.FilingBinsByPc

/-- R183 to R186: BAR and GBAR complete where every access of the arriving lanes has been performed: each active lane arrives in ascending
thread index, one without ARV waits outside the course, and the others go on; a gang's phase whose totals have combined lets every waiting
thread of the phase depart as an acquire. -/
def Sys2Proof.Claims.BarriersCollectArrivals : Prop :=
  ∀ (s : State) (h : Hd) (k : Ch) (i : Opnd) (arv : Bool) (count : BitVec 11),
    (let f : LaneFn := fun _ st _ _ v => .ok (LaneRes.value (v.headD 0 % 16), st)
     let bars : Instr → Shape → Bool → Nat → Prop := fun ins sh av cnt => ∀ x, Goes s x sh f →
       let outs := (runLanes sh f x s).outs
       let r := (runLanes sh f x s).s.releaseAll (outs.map (fun o => x.agent o.tl)) .dev
       r.2 = true →
       exec ins s = .next (outs.foldl (fun u o =>
         (if av then u else u.park x.b.key o.tl (waitAt u .bar ins 0 0 (Fin.ofNat 16 o.res.val) none)).arriveBar x.b.key o.res.val cnt)
         ((writeLanes sh x outs r.1).othersGoOn x (if av then [] else outs.map (·.lane)) sh.size))
     bars (.barC k i) (plain (.barC k i) (wide k) (chSize k) [(i, .w32)] none) false 0 ∧
     bars (.bar h i arv count) (plain (.bar h i arv count) h (hdSize h) [(i, .w32)] none) arv count.toNat) ∧
    (∀ x, s.issuing = some x →
      let act := byThread (x.active h.pneg h.pred)
      let r := s.releaseAll (act.map (fun p => x.agent p.2.tl)) .dev
      r.2 = true →
      exec (.gbar h arv) s = .next (act.foldl (fun u p =>
        (if arv then u else u.park x.b.key p.2.tl (waitAt u .gbar (.gbar h arv) 0 0 0 none)).arriveGang x.b.key.part x.b.key.lnum
          (x.b.key.bl / x.l.d.unitSize))
        (r.1.othersGoOn x (if arv then [] else act.map (·.1)) (hdSize h)))) ∧
    (∀ (part lnum gang : Nat) (l : Launch), s.launch? part lnum = some l → (aget? l.gbars (gangDone gang)).isSome = true →
      let s1 := (s.updLaunch part lnum (fun l => { l with gbars := adel l.gbars (gangDone gang) })).markGang part lnum l.d.unitSize gang
        (fun w => w.a == 1) (fun w => { w with x := 1 })
      exec (.gbarPhaseComplete part lnum gang) s = .next ((sortBy (fun e => e.1.bl * 1024 + e.2)
        (s1.atGangBarrier part lnum l.d.unitSize gang true)).foldl (fun t e => t.departAcq e.1 e.2) s1))

/-- R183, R184: the first arrival of a phase sets its expected count, the number of the block's live threads under COUNT 0; a later one is
counted whatever its COUNT; the arrival that reaches the expected count closes the phase, and every thread that waits there departs, in ascending
index and as an acquire: it goes on behind its instruction, and is filed. -/
def Sys2Proof.Claims.BarrierPhases : Prop :=
  ∀ (s : State) (key : BKey) (b : Block) (i : Fin 16) (cnt : Nat), s.block? key = some b →
    let old := b.barrier i.val
    let exp := if old.isOpen then old.exp else if cnt = 0 then (b.threads.filter (fun t => decide (t.stat ≠ .exited))).length else cnt
    let arr := if old.isOpen then old.arr + 1 else 1
    let t := s.arriveBar key i.val cnt
    (arr < exp → ∃ c, t.block? key = some c ∧
      c.barrier i.val = { arr := arr, exp := exp, cnt := if old.isOpen then old.cnt else cnt, isOpen := true } ∧
      (∀ j : Fin 16, j ≠ i → c.barrier j.val = b.barrier j.val) ∧ c = { b with bars := c.bars } ∧ t.courses = s.courses) ∧
    (exp ≤ arr → t = (sortBy (fun n => n) (b.atBarrier i.val)).foldl (fun u tl => u.departAcq key tl)
      (((s.updBlock key (fun c => { c with bars := setAt Barrier.idle c.bars i.val Barrier.idle })).markWoken b
        (fun w => w.kind == .bar && w.bar.val == i.val) (fun w => { w with x := 1 })))) ∧
    (exp ≤ arr → b.atBarrier i.val = [] → ∃ c, t.block? key = some c ∧ c.barrier i.val = Barrier.idle) ∧
    (∀ (tl : Nat), tl ∈ b.atBarrier i.val ↔ ∃ th ∈ b.threads, th.tl = tl ∧ ∃ w, th.stat = .waiting w ∧ w.kind = .bar ∧ w.bar = i) ∧
    (∀ (tl : Nat) (th : Thread) (w : Wait), s.thread? key tl = some th → th.stat = .waiting w →
      s.departAcq key tl =
        ((s.acquire (.thread key tl) b.core).updThread key tl (fun u => { u with pc := u.pc + BitVec.ofNat 64 (Machine.sizeOf w.i) })).fileThread key tl)

/-- R183 to R186: BAR and GBAR, and the phases of a barrier. -/
def Obligations.BarriersCollectAndRelease : Prop := Sys2Proof.Claims.BarriersCollectArrivals ∧ Sys2Proof.Claims.BarrierPhases

/-- R19, R20, R187: WAIT completes where no active lane traps: a lane whose stamp has reached its comparand goes on as an acquire, any other
waits, and all leave the course; a stamp tested again whose condition holds lets its thread depart as an acquire. -/
def Obligations.WaitTestsStamps : Prop :=
  ∀ (s : State) (h : Hd) (a y : Opnd) (sp : Bool) (scope : Scope),
    (let i : Instr := .wait h a y sp scope
     let sh := plain i h (hdSize h) [(a, if sp then .w32 else .w64), (y, .w64)] none
     let f : LaneFn := fun c st _ t v => waitLane i sp c st t v
     ∀ x, Goes s x sh f →
       let r := runLanes sh f x s
       exec i s = .next ((writeLanes sh x r.outs r.s).partWays x (hdSize h)
         (r.outs.map (fun o => (o.lane, o.tl, if o.res.val = 1 then none else (writeLanes sh x r.outs r.s).waitOf x.b.key o.tl))) true)) ∧
    (∀ (i : Instr) (c : Ctx) (st u : State) (t : Thread) (v : List Nat) (r : LaneRes),
      waitLane i sp c st t v = .ok (r, u) →
      ∃ p : At, checkPlace st c (if sp then .scr c.b.key (v.headD 0 : Nat) else .glob (v.headD 0)) 0 { n := 8, rd := true, wr := false } = .ok p ∧
        (let stamp := ((st.noteLeaf c.b.key.part p.w).stampAt (some (c.agent t.tl)) p.loc).1
         (v.getD 1 0 ≤ stamp → r.val = 1 ∧ ∀ th, r.th th = th) ∧
         (stamp < v.getD 1 0 → r.val = 0 ∧ ∀ th, ∃ w, (r.th th) = { th with stat := .waiting w } ∧ w.kind = .wait ∧ w.i = i ∧
           w.x = BitVec.ofNat 64 (v.getD 1 0) ∧ w.loc = some p.loc))) ∧
    (∀ (core slot tl : Nat) (b : Block) (th : Thread) (w : Wait) (l : Loc), tl ≠ 1024 →
      s.blockAt? core slot = some b → s.thread? b.key tl = some th → th.stat = .waiting w → w.kind = .wait → w.loc = some l →
      (s.stampAt (some (.thread b.key tl)) l).1 ≥ w.x.toNat →
      exec (.stampReevaluate core slot tl) s = .next ((s.stampAt (some (.thread b.key tl)) l).2.departAcq b.key tl))

/-! ### Traps, handlers and the special registers (19 R398 to R416) -/

namespace Sys2Proof.Claims

/-- A trap that is taken now: some frame of the core is free, or the course has one (R402). -/
def FrameFree (s : State) (x : Ctx) : Prop := x.c.inHandler = true ∨ x.c.frame ≠ none ∨ s.frameCount x.core < 32

/-- The handler that a launch names for a user-level cause, 0 where there is none (R374, R399). -/
def handlerOf (x : Ctx) (code : Nat) : W64 :=
  if code = 0x0100 then x.l.d.handlers.getD 0 0
  else if code = 0x0101 then (if x.l.d.trelvy then 0 else x.l.d.handlers.getD 1 0)
  else if code = 0x0102 then x.l.d.handlers.getD 2 0
  else if code = 0x0103 then x.l.d.handlers.getD 3 0
  else 0

end Sys2Proof.Claims

/-- R400: taking a trap writes the trap registers of every thread of the course: the cause with USER, REPL and INH, the lanes, the two halves
of the address of I, and the auxiliary words; all else of the thread but its PC keeps its value. -/
def Obligations.TrapRegistersAreWritten : Prop :=
  ∀ (s : State) (x : Ctx) (t : TrapInfo) (next : W64) (lane tl : Nat) (th : Thread) (before after : List (Nat × Nat)),
    FrameFree s x → x.c.members = before ++ (lane, tl) :: after → (∀ p ∈ after, p.2 ≠ tl) → s.thread? x.b.key tl = some th →
    t.code < 2 ^ 16 →
    ∃ u, (s.takeTrap x t next).thread? x.b.key tl = some u ∧
      (∀ i, i < 16 → u.trapcause.getLsbD i = t.code.testBit i) ∧
      (u.trapcause.getLsbD 16 = true ↔ 0x0100 ≤ t.code ∧ t.code ≤ 0x0103) ∧
      (u.trapcause.getLsbD 17 = true ↔ t.code = 0x0004 ∨ (t.code = 0x0006 ∧ t.aux3 = 0)) ∧
      (u.trapcause.getLsbD 18 = true ↔ x.c.inHandler = true) ∧
      (∀ i, 19 ≤ i → u.trapcause.getLsbD i = false) ∧
      u.trapmask = t.mask ∧ u.trappc = t.pc.setWidth 32 ∧ u.trappch = (t.pc >>> 32).setWidth 32 ∧
      u.trapaux = [t.aux0.getD lane 0, t.aux1, t.aux2, t.aux3] ∧
      u = { th with trapcause := u.trapcause, trapmask := u.trapmask, trappc := u.trappc, trappch := u.trappch, trapaux := u.trapaux,
                    pc := u.pc }

/-- R399, R402, R405: outside a handler, a user-level cause whose class has a handler enters it with the whole course: every thread at the
handler's address, every latch invalid, the chain ended, and a frame that holds the latches as they stood and the handler's class. -/
def Sys2Proof.Claims.HandlerBeginsInTheCourse : Prop :=
  ∀ (s : State) (x : Ctx) (t : TrapInfo) (next : W64), FrameFree s x → x.c.inHandler = false → handlerOf x t.code ≠ 0 →
    s.course? x.core x.id = some x.c →
    let u := s.takeTrap x t next
    (∃ d f, u.course? x.core x.id = some d ∧ d.frame = some f ∧ d.stat = .ready ∧ d.chain = 0 ∧ d.reinj = [] ∧
      (∀ n, (d.latch n).valid = false) ∧ d.lanes = x.c.lanes ∧ f.inh = true ∧ f.hclass = classOf t.code ∧
      (t.after = false → f.latches = x.c.latches ∧ f.chain = x.c.chain) ∧
      (x.c.reinj = [] → f.entries = t.entries ∧
        ∀ lane, lane < 32 → f.resume.getD lane 0 = if t.after = true ∨ t.entries ≠ [] then next else t.pc)) ∧
    ∀ p ∈ x.c.members, (u.thread? x.b.key p.2).map (·.pc) = (s.thread? x.b.key p.2).map (fun _ => handlerOf x t.code)

/-- R399, R407: every other cause, and any cause raised inside a handler, is left for the supervisor: the course holds with its trap, and its
threads keep their PCs. -/
def Sys2Proof.Claims.OtherCausesGoToTheSupervisor : Prop :=
  ∀ (s : State) (x : Ctx) (t : TrapInfo) (next : W64), FrameFree s x → (x.c.inHandler = true ∨ handlerOf x t.code = 0) →
    s.course? x.core x.id = some x.c →
    let u := s.takeTrap x t next
    (∃ d, u.course? x.core x.id = some d ∧ d.stat = .trap t ∧ d.lanes = x.c.lanes ∧ d.frame ≠ none ∧
      (x.c.inHandler = true → d.frame = x.c.frame) ∧ d.latches = x.c.latches) ∧
    ∀ tl, (u.thread? x.b.key tl).map (·.pc) = (s.thread? x.b.key tl).map (·.pc)

/-- R402: a trap that finds every frame of its core in use is not delivered: the course stops issuing with its trap, and no thread's
registers change. -/
def Sys2Proof.Claims.TrapWaitsForAFrame : Prop :=
  ∀ (s : State) (x : Ctx) (t : TrapInfo) (next : W64), x.c.frame = none → 32 ≤ s.frameCount x.core → s.course? x.core x.id = some x.c →
    let u := s.takeTrap x t next
    (∃ d, u.course? x.core x.id = some d ∧ d.stat = .frame t) ∧ u.blocks = s.blocks ∧ u.mem = s.mem

/-- R399, R402, R405, R407: where a trap goes. -/
def Obligations.TrapsAreDelivered : Prop := Sys2Proof.Claims.HandlerBeginsInTheCourse ∧ Sys2Proof.Claims.OtherCausesGoToTheSupervisor ∧ Sys2Proof.Claims.TrapWaitsForAFrame

/-- R410, R411: TRAP takes TRAP in its active lanes, with each lane's operand, resuming behind itself, and BRK takes DEBUG with its CODE while
a debugger is attached to the launch; TRAP in a trap handler, either without an active lane, and BRK with no debugger only go on. -/
def Sys2Proof.Claims.TrapAndBrkTrap : Prop :=
  ∀ (s : State) (x : Ctx) (h : Hd) (a : Opnd) (code : BitVec 16),
    (let sh := shapeX (.trap h a) h [(a, .w32)] none none
     let f : LaneFn := fun _ st _ _ v => .ok (LaneRes.value (v.headD 0), st)
     Goes s x sh f → x.c.masked .trap = false → x.active h.pneg h.pred ≠ [] →
       let outs := (runLanes sh f x s).outs
       ∃ t : TrapInfo,
         exec (.trap h a) s = .next ((writeLanes sh x outs (runLanes sh f x s).s).takeTrap x t (x.pc + BitVec.ofNat 64 (hdSize h))) ∧
         t.code = 0x0102 ∧ t.pc = x.pc ∧ t.after = true ∧ t.mask = maskOfLanes (outs.map (·.lane)) ∧ t.entries = [] ∧
         ∀ o ∈ outs, outs.find? (fun q => q.lane == o.lane) = some o → o.lane < 32 →
           t.aux0.getD o.lane 0 = BitVec.ofNat 32 o.res.val) ∧
    (s.issuing = some x → (x.c.masked .trap = true ∨ x.active h.pneg h.pred = []) → x.c.reinj = [] →
      exec (.trap h a) s = .next (commitLanes (still (.trap h a) { h with chain := false } (hdSize h)) x [] s)) ∧
    (s.issuing = some x → x.active h.pneg h.pred ≠ [] → s.attached x.b.key.part x.b.key.lnum = true →
      exec (.brk h code) s = .next (s.takeTrap x
        { code := 0x000C, mask := maskOfLanes ((x.active h.pneg h.pred).map (·.1)), pc := x.pc, aux0 := List.replicate 32 (code.setWidth 32),
          aux1 := 0, aux2 := 0, aux3 := 0, entries := [], after := true } (x.pc + BitVec.ofNat 64 (hdSize h)))) ∧
    (s.issuing = some x → x.active h.pneg h.pred = [] ∨ s.attached x.b.key.part x.b.key.lnum = false → x.c.reinj = [] →
      exec (.brk h code) s = .next (commitLanes (still (.brk h code) { h with chain := false } (hdSize h)) x [] s))

/-- R404, R416: RFT ends the handler: the frame's latches and chain are restored, its entries are re-injected in order, and with no entry left
each thread continues at its lane's RESUMEPC and the frame is free. -/
def Sys2Proof.Claims.RftReturns : Prop :=
  ∀ (s : State) (x : Ctx) (h : Hd) (f : Frame), s.issuing = some x → x.c.frame = some f → f.hclass ≠ .sdc → f.bin = false →
    f.wait = none →
    exec (.rft h) s = .next (s.resumeFrame x.b.key x.core x.id f) ∧
    (f.entries = [] → (x.c.members.map (·.2)).Nodup →
      (∃ d, (s.resumeFrame x.b.key x.core x.id f).course? x.core x.id = some d ∧ d.frame = none ∧ d.latches = f.latches ∧
        d.chain = f.chain ∧ d.reinj = [] ∧ d.stat = .ready ∧ d.lanes = x.c.lanes) ∧
      ∀ p ∈ x.c.members, ∀ th, s.thread? x.b.key p.2 = some th →
        (s.resumeFrame x.b.key x.core x.id f).thread? x.b.key p.2 = some { th with pc := f.resume.getD p.1 th.pc })

/-- R404, R410, R411, R416: TRAP, BRK and RFT. -/
def Obligations.TrapInstructionsAndReturn : Prop := Sys2Proof.Claims.TrapAndBrkTrap ∧ Sys2Proof.Claims.RftReturns

/-- R157, R412, R413, R414: RDSR reads a special register in each active lane into a 32-bit destination or a pair, and WRSR writes one, the
reserved bits ignored. -/
def Sys2Proof.Claims.SpecialRegisters : Prop :=
  ∀ (h : Hd) (d a : Opnd) (r : SReg),
    (∃ val : State → Ctx → Nat → Thread → Nat,
      Completes (.rdsr h d r)
        (shapeX (.rdsr h d r) h [] (some (d, match r with | .rngctr => 64 | .time => 64 | .clock => 64 | .mdone => 64 | _ => 32)) (some 0))
        (fun x st lane t _ => .ok (LaneRes.value (val st x lane t), st)) ∧
      ∀ (s : State) (x : Ctx) (lane : Nat) (t : Thread),
        match r with
        | .lane => val s x lane t = lane
        | .tid i => val s x lane t = [t.tl % x.l.d.bx, t.tl / x.l.d.bx % x.l.d.by_, t.tl / (x.l.d.bx * x.l.d.by_)].getD i.val 0
        | .bid i => val s x lane t =
            [x.b.key.bl % x.l.d.gx, x.b.key.bl / x.l.d.gx % x.l.d.gy, x.b.key.bl / (x.l.d.gx * x.l.d.gy)].getD i.val 0
        | .launch => val s x lane t = x.b.key.lnum
        | .role => val s x lane t = x.b.role.toNat
        | .fpflags => val s x lane t = t.fpflags.toNat
        | .fptrap => val s x lane t = t.fptrap.toNat
        | .rngctr => val s x lane t = t.rngctr.toNat
        | .send n => val s x lane t = (t.port n).send.toNat
        | .trapcause => val s x lane t = t.trapcause.toNat
        | .trapmask => val s x lane t = t.trapmask.toNat
        | .trappc => val s x lane t = t.trappc.toNat
        | .trappch => val s x lane t = t.trappch.toNat
        | .trapaux n => val s x lane t = (t.trapaux.getD n.val 0).toNat
        | .sdcsyn => val s x lane t = x.b.sdcsyn.toNat
        | .sdcunit => val s x lane t = x.b.sdcunit.toNat
        | .sdctile => val s x lane t = x.b.sdctile.toNat
        | .rpc => ∀ p, s.part? x.b.key.part = some p → val s x lane t = p.rpc.toNat
        | .rps => ∀ p, s.part? x.b.key.part = some p → val s x lane t = p.rps.toNat
        | .rpa => ∀ p, s.part? x.b.key.part = some p → val s x lane t = p.rpa.toNat
        | .time => val s x lane t = s.ns % 2 ^ 64
        | .clock => val s x lane t = s.cycle % 2 ^ 64
        | .mrow => ∀ m, x.b.hasMcc = true → s.mccs.find? (fun m => decide (m.key = x.b.key)) = some m → val s x lane t = if m.wip then m.mrow.toNat else 0
        | .mcol => ∀ m, x.b.hasMcc = true → s.mccs.find? (fun m => decide (m.key = x.b.key)) = some m → val s x lane t = if m.wip then m.mcol.toNat else 0
        | .mdone => ∀ m, x.b.hasMcc = true → s.mccs.find? (fun m => decide (m.key = x.b.key)) = some m → val s x lane t = if m.wip then m.mdone.toNat else 0
        | .mseg => ∀ m, x.b.hasMcc = true → s.mccs.find? (fun m => decide (m.key = x.b.key)) = some m → val s x lane t = if m.wip then m.mseg.toNat else 0
        | .rq _ _ => x.c.inHandler = false → val s x lane t = 0) ∧
    (∃ g : Nat → Thread → Thread,
      Silent (.wrsr h r a)
        (shapeX (.wrsr h r a) h [(a, match r with | .rngctr => .w64 | .time => .w64 | .clock => .w64 | .mdone => .w64 | _ => .w32)] none none)
        (fun _ _ _ v => { LaneRes.value 0 with th := g (v.headD 0) }) ∧
      ∀ (v : Nat) (t : Thread),
        match r with
        | .fpflags => g v t = { t with fpflags := BitVec.ofNat 32 v &&& 0x1F }
        | .fptrap => g v t = { t with fptrap := BitVec.ofNat 32 v &&& 0x1F }
        | .rngctr => g v t = { t with rngctr := BitVec.ofNat 64 v }
        | .send n => g v t = t.setPort n { t.port n with send := BitVec.ofNat 32 v &&& 3 }
        | _ => True)

/-- R415: RQSET edits entry IDX of the course's frame in each active lane that is a member of it, and no other lane and no other entry. -/
def Sys2Proof.Claims.RqsetEditsMembers : Prop :=
  ∀ (s : State) (x : Ctx) (h : Hd) (op : RqOp) (idx : Fin 8) (f : Frame) (e : RqEntry),
    let sh := shapeX (.rqset h op idx) h (match op with | .op _ _ a => [(a, .w32)] | .res _ a => [(a, .w32)] | _ => []) none none
    let g : LaneFn := fun _ st _ _ v => .ok (LaneRes.value (v.headD 0), st)
    Goes s x sh g → x.c.reinj = [] → s.course? x.core x.id = some x.c → x.c.frame = some f → f.entries[idx.val]? = some e →
    e.lanes.length = 32 →
    let r := runLanes sh g x s
    r.s.courses = s.courses →
    ∃ t d k e', exec (.rqset h op idx) s = .next t ∧ t.course? x.core x.id = some d ∧ d.frame = some k ∧
      k = { f with entries := k.entries } ∧ k.entries.length = f.entries.length ∧ k.entries[idx.val]? = some e' ∧
      (∀ j, j ≠ idx.val → k.entries[j]? = f.entries[j]?) ∧ e' = { e with lanes := e'.lanes } ∧
      ∀ (lane : Nat) (old : LaneEnt), e.lanes[lane]? = some old →
        match r.outs.find? (fun o => o.lane == lane) with
        | none => e'.lanes[lane]? = some old
        | some o =>
          if old.member = false then e'.lanes[lane]? = some old
          else ∃ new, e'.lanes[lane]? = some new ∧
            match op with
            | .cancel => new = { old with cancel := true }
            | .done => new = { old with isDone := true }
            | .op w n _ => new = { old with ops := new.ops, opcap := new.opcap } ∧ new.opcap = old.opcap ||| (1 <<< n.val : BitVec 3) ∧
                ∀ i, i < 64 → (new.ops.getD n.val 0).getLsbD i =
                  if w.toNat * 32 ≤ i ∧ i < w.toNat * 32 + 32 then (BitVec.ofNat 32 o.res.val).getLsbD (i - w.toNat * 32)
                  else (old.ops.getD n.val 0).getLsbD i
            | .res w _ => new = { old with res := new.res, resv := true } ∧
                ∀ i, i < 128 → new.res.getLsbD i =
                  if w.val * 32 ≤ i ∧ i < w.val * 32 + 32 then (BitVec.ofNat 32 o.res.val).getLsbD (i - w.val * 32)
                  else old.resv && old.res.getLsbD i

/-- R157, R412 to R415: RDSR, WRSR and RQSET. -/
def Obligations.SpecialRegistersAndEntries : Prop := Sys2Proof.Claims.SpecialRegisters ∧ Sys2Proof.Claims.RqsetEditsMembers

/-! ### Memory (08 R217 to R244; 05 R114 to R138) -/

namespace Sys2Proof.Claims

/-- The shape of an LSU instruction, whose latch is l2 where it has a destination (R44). -/
def lsu (i : Instr) (h : Hd) (srcs : List (Opnd × Machine.Pos)) (dst : Option (Opnd × Nat)) : Shape :=
  shapeX i h srcs dst (dst.map (fun _ => 2))

/-- The offset of an access in the own scratchpad: the base, unsigned, and the signed OFFS (R218). -/
def ownOff (m : MemF) (v : List Nat) : Int := ((v.headD 0 : Nat) : Int) + m.offs.toInt

/-- An access of `n` bytes at an offset of the own scratchpad that traps at nothing and waits for nothing: aligned, within the allocation,
its line present and not marked, and no outstanding access of its thread (R219, R220). -/
structure OwnReady (s : State) (x : Ctx) (b : Block) (tl : Nat) (off : Int) (n : Nat) : Prop where
  block : s.block? x.b.key = some b
  aligned : off % (n : Int) = 0
  low : 0 ≤ off
  high : off + n ≤ x.l.d.scratch
  present : ∀ e ∈ b.absent, e.1 ≠ off.toNat / 128
  clean : off.toNat / 128 ∉ b.poison
  alone : s.pendOf (x.agent tl) = []

/-- Where the spec lets an access of `n` bytes at an offset of the own scratchpad stand: aligned and within the allocation (R218, R219). -/
def InOwn (x : Ctx) (off : Int) (n : Nat) : Prop := off % (n : Int) = 0 ∧ 0 ≤ off ∧ off + n ≤ x.l.d.scratch

/-- Every active lane meets a condition on its thread and on what it reads. -/
def EachLane (x : Ctx) (sh : Shape) (P : Thread → List Nat → Prop) : Prop :=
  ∀ p ∈ x.active sh.h.pneg sh.h.pred, P p.2 (laneVals x sh p)

/-- What a thread does to the state, for every active thread in ascending order. -/
def inOrder (x : Ctx) (sh : Shape) (f : State → Nat × Thread → State) (s : State) : State :=
  (byThread (x.active sh.h.pneg sh.h.pred)).foldl f s

/-- The bits that RNG draws (R242). -/
def rngBits (cnt : RCnt) : Nat := match cnt with | .n1 => 32 | .n2 => 64 | .n4 => 128

/-- A thread's read-only point (R136). -/
def readOnlyPointOf (x : Ctx) (s : State) (tl : Nat) : State := readOnlyPoint s x tl

/-- A loaded value as it is written: narrow sizes extended to 32 bits (R221). -/
def loaded (z : Sz) (sx : Bool) (y : Nat) : Nat := if sx ∧ z.bits < 32 then ((BitVec.ofNat z.bits y).signExtend 32).toNat else y

/-- The position of a data operand (R217). -/
def dataPos (m : MemF) : Machine.Pos := if m.size.bits ≤ 32 then .w32 else if m.size.bits = 64 then .w64 else .w128

/-- What an atomic operation makes of the old value and its operand (R223). -/
def atomicNew (op : AOp) (u : Bool) (w old a : Nat) : Nat :=
  let int : Nat → Int := fun y => asInt u (BitVec.ofNat w y)
  match op with
  | .add => (old + a) % 2 ^ w
  | .min => if int old ≤ int a then old else a
  | .max => if int a ≤ int old then old else a
  | .and => old &&& a
  | .or => old ||| a
  | .xor => old ^^^ a
  | .exch => a

end Sys2Proof.Claims

/-- R217, R221 to R230, R242: LD, ST, LDC, ATOM, CAS, FENCE, AFENCE, CINV, PROBE and RNG complete where nothing stops an active lane: each
lane acts, in ascending thread index, and its results are written. PREF reads its base, and then only goes on. -/
def Sys2Proof.Claims.MemoryInstructionsComplete : Prop :=
  ∀ (h : Hd) (d a c : Opnd) (m : MemF) (sx u ro : Bool) (op : AOp) (pd : Fin 8) (kind : FKind) (scope : Scope) (cnt : RCnt)
    (ctr : Option Opnd),
    (let w : Machine.Pos := if m.size.bits ≤ 32 then .w32 else if m.size.bits = 64 then .w64 else .w128
     let bits := max 32 m.size.bits
     let done : Instr → Shape → LaneFn → Prop := fun i sh f => CompletesAs i sh f (commitLanes sh)
     done (.ld h d m sx) (lsu (.ld h d m sx) h (memSrcs m none none) (some (d, bits))) (ldLane m sx) ∧
     done (.st h m a) (lsu (.st h m a) h (memSrcs m (some (a, w)) none) none) (stLane m) ∧
     done (.ldc h d m sx) (lsu (.ldc h d m sx) h (memSrcs m none none) (some (d, bits))) (ldcLane m sx) ∧
     done (.atom h op u d m a) (lsu (.atom h op u d m a) h (memSrcs m (some (a, w)) none) (some (d, bits))) (atomLane op u m) ∧
     done (.cas h pd d m a c)
       { lsu (.cas h pd d m a c) h (memSrcs m (some (a, w)) (some (c, w))) (some (d, bits)) with pd := pd } (casLane m) ∧
     done (.fence h kind scope ro) (lsu (.fence h kind scope ro) h [] none) (fenceLane (fenceNeed scope) (fenceDoes kind scope ro)) ∧
     done (.afence h) (lsu (.afence h) h [] none)
       (fenceLane none (fun x st tl => (fencePend st x tl .dev).acquire (x.agent tl) x.core)) ∧
     done (.cinv h) (lsu (.cinv h) h [] none)
       (fenceLane none readOnlyPointOf) ∧
     done (.probe h pd d m) { lsu (.probe h pd d m) h (memSrcs m none none) (some (d, 32)) with pd := pd } (probeLane m) ∧
     done (.rng h cnt d ctr)
       (lsu (.rng h cnt d ctr) h (ctr.map (fun o => (o, Machine.Pos.w64))).toList
         (some (d, rngBits cnt))) (rngLane (rngBits cnt) ctr.isNone) ∧
     done (.pref h m) (lsu (.pref h m) h (memSrcs m none none) none) (pureLane zeroLane))

/-- R218 to R221, R223 to R225: LD, ST, ATOM and CAS answer a next state wherever the own scratchpad lets every active lane go on: the line
within the allocation, and for a read present, without a mark, and with nothing of the thread's own outstanding. LD writes what the lines hold and,
with ORDER acq, acquires; ST leaves exactly its own stores outstanding, behind what was there, in ascending thread index; ATOM and CAS write what
their lanes compute in that order. -/
def Sys2Proof.Claims.ScratchpadInstructionsRun : Prop :=
  ∀ (s : State) (x : Ctx) (bl : Block) (h : Hd) (d a c : Opnd) (m : MemF) (sx u : Bool) (op : AOp) (pd : Fin 8), m.tgt = .own →
    s.block? x.b.key = some bl →
    (let sh := lsu (.ld h d m sx) h (memSrcs m none none) (some (d, max 32 m.size.bits))
     LanesReady s x sh → EachLane x sh (fun t v => OwnReady s x bl t.tl (ownOff m v) m.size.bytes) →
     exec (.ld h d m sx) s = .next (commitLanes sh x
       (computed x sh (fun _ _ _ v => LaneRes.value (loaded m.size sx (leNat (bl.scratch.read (ownOff m v).toNat m.size.bytes)))))
       (inOrder x sh (fun w p => if m.order = .acq ∨ m.order = .ar then w.acquire (x.agent p.2.tl) x.core else w) s))) ∧
    (let sh := lsu (.st h m a) h (memSrcs m (some (a, dataPos m)) none) none
     LanesReady s x sh → EachLane x sh (fun _ v => InOwn x (ownOff m v) m.size.bytes) →
     ∃ w, exec (.st h m a) s = .next (commitLanes sh x (computed x sh zeroLane) w) ∧
       w = { s with pend := w.pend, nextId := w.nextId } ∧
       w.pend.map (fun q => (q.ag, q.core, q.loc, q.bytes)) = s.pend.map (fun q => (q.ag, q.core, q.loc, q.bytes)) ++
         (byThread (x.active sh.h.pneg sh.h.pred)).flatMap (fun p =>
           let v := laneVals x sh p
           let one : Nat → Nat → Agent × Nat × Loc × List Byte := fun off n =>
             (x.agent p.2.tl, x.core, Loc.scr x.b.key ((ownOff m v).toNat + off), natLE n (v.getD 1 0 / 2 ^ (8 * off)))
           if m.size = .b128 then [one 0 8, one 8 8] else [one 0 m.size.bytes])) ∧
    (m.size = .b32 ∨ m.size = .b64 →
     (let sh := lsu (.atom h op u d m a) h (memSrcs m (some (a, dataPos m)) none) (some (d, max 32 m.size.bits))
      LanesReady s x sh → EachLane x sh (fun t v => OwnReady s x bl t.tl (ownOff m v) m.size.bytes ∧ s.releasable (x.agent t.tl) m.scope = true) →
      let r := runLanes sh (atomLane op u m) x s
      r.stops = [] ∧ exec (.atom h op u d m a) s = .next (commitLanes sh x r.outs r.s)) ∧
     (let sh := { lsu (.cas h pd d m a c) h (memSrcs m (some (a, dataPos m)) (some (c, dataPos m))) (some (d, max 32 m.size.bits)) with pd := pd }
      LanesReady s x sh → EachLane x sh (fun t v => OwnReady s x bl t.tl (ownOff m v) m.size.bytes ∧ s.releasable (x.agent t.tl) m.scope = true) →
      let r := runLanes sh (casLane m) x s
      r.stops = [] ∧ exec (.cas h pd d m a c) s = .next (commitLanes sh x r.outs r.s)))

/-- R135, R136, R227 to R230, R242 to R244: FENCE, AFENCE, CINV, PREF, PROBE and RNG answer a next state for every active thread: a FENCE at rec once
the earlier accesses of each are performed and accepted; PROBE where its offsets lie within the allocation; RNG where no counter it moves is at its
end. -/
def Sys2Proof.Claims.OrderingInstructionsRun : Prop :=
  ∀ (s : State) (x : Ctx) (h : Hd) (d : Opnd) (m : MemF) (kind : FKind) (scope : Scope) (ro : Bool) (pd : Fin 8), s.issuing = some x →
    x.c.reinj = [] →
    (let sh := lsu (.fence h kind scope ro) h [] none
     (scope = .recov → ((x.active h.pneg h.pred).map (fun p => p.2.tl)).Nodup ∧
       ∀ p ∈ x.active h.pneg h.pred, s.releasable (x.agent p.2.tl) .recov = true) →
     exec (.fence h kind scope ro) s = .next (commitLanes sh x (computed x sh zeroLane)
       (inOrder x sh (fun w p => fenceDoes kind scope ro x w p.2.tl) s))) ∧
    (let sh := lsu (.afence h) h [] none
     exec (.afence h) s = .next (commitLanes sh x (computed x sh zeroLane)
       (inOrder x sh (fun w p => (fencePend w x p.2.tl .dev).acquire (x.agent p.2.tl) x.core) s))) ∧
    (let sh := lsu (.cinv h) h [] none
     exec (.cinv h) s = .next (commitLanes sh x (computed x sh zeroLane) (inOrder x sh (fun w p => readOnlyPointOf x w p.2.tl) s))) ∧
    (let sh := lsu (.pref h m) h (memSrcs m none none) none
     LanesReady s x sh → exec (.pref h m) s = .next (commitLanes sh x (computed x sh zeroLane) s)) ∧
    (∀ bl, m.tgt = .own → s.block? x.b.key = some bl →
     let sh := { lsu (.probe h pd d m) h (memSrcs m none none) (some (d, 32)) with pd := pd }
     let isSet : List Nat → Bool := fun v => bl.absent.all (fun e => decide (e.1 ≠ (ownOff m v).toNat / 128))
     LanesReady s x sh → EachLane x sh (fun _ v => 0 ≤ ownOff m v ∧ ownOff m v + 1 ≤ x.l.d.scratch) →
     exec (.probe h pd d m) s = .next (commitLanes sh x
       (computed x sh (fun _ _ _ v => { LaneRes.value (isSet v).toNat with pd := isSet v }))
       (inOrder x sh (fun w p => if isSet (laneVals x sh p) ∧ (m.order = .acq ∨ m.order = .ar) then w.acquire (x.agent p.2.tl) x.core else w) s))) ∧
    (∃ g : W64 → Nat → Nat → Nat, ∀ (cnt : RCnt) (ctr : Option Opnd),
      let sh := lsu (.rng h cnt d ctr) h (ctr.map (fun o => (o, Machine.Pos.w64))).toList (some (d, rngBits cnt))
      LanesReady s x sh → (ctr = none → EachLane x sh (fun t _ => t.rngctr.toNat ≠ 2 ^ 64 - 1)) →
      exec (.rng h cnt d ctr) s = .next (commitLanes sh x
        (computed x sh (fun _ _ t v =>
          { LaneRes.value (g x.l.d.seed (if ctr.isNone then t.rngctr.toNat else v.headD 0)
              (x.b.key.bl * (x.l.d.bx * x.l.d.by_ * x.l.d.bz) + t.tl) % 2 ^ rngBits cnt) with
            th := fun w => if ctr.isNone then { w with rngctr := w.rngctr + 1 } else w })) s))

/-- R136, R219, R222: LDC answers a next state where its one active lane reads a line of device or host memory that its page lets it read, aligned,
without a mark, and with nothing of the thread's own outstanding: it writes what the read-only path returns. -/
def Sys2Proof.Claims.LdcRuns : Prop :=
  ∀ (s : State) (x : Ctx) (h : Hd) (d : Opnd) (m : MemF) (sx : Bool) (lane : Nat) (t : Thread) (l : Loc) (w : PWalk), m.tgt = .global →
    let sh := lsu (.ldc h d m sx) h (memSrcs m none none) (some (d, max 32 m.size.bits))
    let va := (BitVec.ofInt 64 (((laneVals x sh (lane, t)).headD 0 : Nat) + m.offs.toInt : Int)).toNat
    LanesReady s x sh → x.active h.pneg h.pred = [(lane, t)] → va % m.size.bytes = 0 →
    s.resolve x.b.key.part va true false = .ok l w → (∀ q a, l ≠ .peer q a) → s.pendOf (x.agent t.tl) = [] →
    let s1 := s.noteLeaf x.b.key.part w
    (s1.mergeFor l m.size.bytes).poisonRun l m.size.bytes = false →
    let r := (s1.mergeFor l m.size.bytes).loadRo (x.agent t.tl) x.core t.roPoint va l m.size.bytes
      (curOf m)
    exec (.ldc h d m sx) s = .next (commitLanes sh x (computed x sh (fun _ _ _ _ => LaneRes.value (loaded m.size sx (leNat r.1)))) r.2)

/-- R218, R219, R221: a load from the own scratchpad returns the little-endian value at base plus OFFS, narrow sizes extended; a load or a
store there that is not aligned raises MISALIGN, one outside the allocation SCRATCH_BOUNDS, with the offset, the opcode, the space and the
write bit in the auxiliary words; a role that the gang does not have raises PROTECT with subcode 4. -/
def Sys2Proof.Claims.ScratchpadAccesses : Prop :=
  ∀ (s : State) (x : Ctx) (lane : Nat) (t : Thread) (v : List Nat) (m : MemF) (sx : Bool),
    (m.tgt = .own → (∀ b, OwnReady s x b t.tl (ownOff m v) m.size.bytes → m.order = .rlx →
      ∃ u, ldLane m sx x s lane t v = .ok (u, s) ∧
        u.val = (let y := leNat (b.scratch.read (ownOff m v).toNat m.size.bytes)
                 if sx ∧ m.size.bits < 32 then ((BitVec.ofNat m.size.bits y).signExtend 32).toNat else y) ∧
        u.fl = 0 ∧ ∀ th, u.th th = th)) ∧
    (m.tgt = .own → (∀ wr : Bool,
      let f := if wr then stLane m x s lane t v else ldLane m sx x s lane t v
      let aux2 : W32 := BitVec.ofNat 32 ((if wr then 0x71 else 0x70) + 2 ^ 8 + (if wr then 2 ^ 17 else 0))
      let stop : Nat → Prop := fun code => ∃ e, f = .error (.trap e) ∧ e.code = code ∧ e.aux0 = BitVec.ofInt 32 (ownOff m v) ∧ e.aux1 = 0 ∧
        e.aux2 = aux2 ∧ e.aux3 = 0
      (ownOff m v % (m.size.bytes : Int) ≠ 0 → stop 2) ∧
      (ownOff m v % (m.size.bytes : Int) = 0 → (ownOff m v < 0 ∨ x.l.d.scratch < ownOff m v + m.size.bytes) → stop 3))) ∧
    (∀ r : Fin 127, m.tgt = .role r → x.l.d.gangw * x.l.d.gangh ≤ r.val → ownOff m v % (m.size.bytes : Int) = 0 →
      ∃ e, ldLane m sx x s lane t v = .error (.trap e) ∧ e.code = 5 ∧ e.aux3 = 4)

/-- R116, R118, R130: ST issues its store and performs nothing: every memory keeps its bytes (but that a page's first durable translation merges the
adds that its lines still await, R304), and behind the accesses already outstanding stand exactly the store's own, of its thread, at its checked
location, with the value's low bytes in little-endian order; 128 bits are two halves (R133), to a peer one write (R457). The address is what
`checkPlace` makes of base plus OFFS. -/
def Sys2Proof.Claims.StoresAreIssued : Prop :=
  ∀ (s u : State) (x : Ctx) (lane : Nat) (t : Thread) (v : List Nat) (m : MemF) (r : LaneRes),
    stLane m x s lane t v = .ok (r, u) →
    (s.parts = [] → u.mem = s.mem) ∧ u.host = s.host ∧ u.blocks = s.blocks ∧ u.eave = s.eave ∧ u.durp = s.durp ∧
    ∃ p : At, u.mem = (s.noteLeaf x.b.key.part p.w).mem ∧
      checkPlace s x (placeOf x m v) (aux2Of 0x71 (spaceOf m) (roleOf m v) true) { n := m.size.bytes, rd := false, wr := true } = .ok p ∧
      ∃ new, u.pend = s.pend ++ new ∧
        (∀ q ∈ new, q.ag = x.agent t.tl ∧ q.core = x.core ∧ q.sent = none ∧
          q.kind = (if m.order = .rel ∨ m.order = .ar ∨ m.scope = .recov then .release m.scope else .store)) ∧
        new.map (fun q => (q.loc, q.bytes)) =
          (if m.size = .b128 ∧ (match p.loc with | .peer _ _ => false | _ => true) = true then
             [(p.loc.plus 0, natLE 8 (v.getD 1 0)), (p.loc.plus 8, natLE 8 (v.getD 1 0 / 2 ^ 64))]
           else [(p.loc.plus 0, natLE m.size.bytes (v.getD 1 0))])

/-- R114, R130: an outstanding store that may be performed is performed at its home by ACCESS_PERFORMED: a scratchpad holds its bytes at its
location and every other byte as before; device memory outside the underlay, which the host does not cache, takes its bytes, where no partial has to
leave the L2 for it (log 45); no other memory changes, and the access is no longer outstanding. -/
def Sys2Proof.Claims.StoresArePerformed : Prop :=
  ∀ (s : State) (p : Pend), s.pend.find? (fun q => q.n == p.n) = some p → s.mayPerform p = true → p.kind = .store →
    (∀ k o b, p.loc = .scr k o → s.block? k = some b → b.scratch.wf = true →
      ∃ t c, exec (.accessPerformed p.n) s = .next t ∧ t.block? k = some c ∧
        (∀ a : Nat, c.scratch.get a = if o ≤ a ∧ a < o + p.bytes.length then p.bytes.getD (a - o) 0 else b.scratch.get a) ∧
        (∀ j, j ≠ k → t.block? j = s.block? j) ∧ c = { b with scratch := c.scratch, poison := c.poison } ∧
        t.mem = s.mem ∧ t.host = s.host ∧ t.eave = s.eave ∧ t.durp = s.durp ∧ t.pend = s.pend.filter (fun q => q.n != p.n)) ∧
    (∀ a, p.loc = .dev a → undOf s.und a = none → s.hostMayCache a p.bytes.length = none →
      (s.parts = [] ∨ (p.bytes.length ≤ 128 ∧ (∀ q ∈ s.parts, q.line ≠ a / 128 ∧ q.line ≠ (a + p.bytes.length - 1) / 128) ∧
        2 * (s.dirty.length + s.parts.length) + s.hostLines.length + 4 ≤ l2Units)) →
      ∃ t, exec (.accessPerformed p.n) s = .next t ∧ t.mem = s.mem.write a p.bytes ∧ t.host = s.host ∧ t.blocks = s.blocks ∧
        t.eave = s.eave ∧ t.durp = s.durp ∧ t.pend = s.pend.filter (fun q => q.n != p.n))

/-- R114, R116, R118, R130, R133: a store is issued, and performed at its home. -/
def Obligations.StoresAreIssuedAndPerformed : Prop := Sys2Proof.Claims.StoresAreIssued ∧ Sys2Proof.Claims.StoresArePerformed

/-- R134, R223, R224: an atomic step in the own scratchpad returns the old value and leaves the operation's new one; CAS writes only where
the old value equals its comparand, and its predicate says so; a failed CAS changes nothing. -/
def Sys2Proof.Claims.AtomicsReadAndWrite : Prop :=
  ∀ (s : State) (x : Ctx) (lane : Nat) (t : Thread) (v : List Nat) (m : MemF) (b : Block) (op : AOp) (u : Bool),
    m.tgt = .own → OwnReady s x b t.tl (ownOff m v) m.size.bytes → m.order = .rlx → m.scope = .dev →
    v.getD 1 0 < 2 ^ m.size.bits → v.getD 2 0 < 2 ^ m.size.bits →
    let o := (ownOff m v).toNat
    let old := leNat (b.scratch.read o m.size.bytes)
    let put : Nat → State := fun y =>
      (s.dropL1 x.core x.b.key.part o m.size.bytes).updBlock x.b.key (fun k => { k with scratch := k.scratch.write o (natLE m.size.bytes y) })
    (m.size = .b32 ∨ m.size = .b64 →
      (∃ r, atomLane op u m x s lane t v = .ok (r, put (atomicNew op u m.size.bits old (v.getD 1 0))) ∧ r.val = old ∧ r.fl = 0) ∧
      (old = v.getD 1 0 → ∃ r, casLane m x s lane t v = .ok (r, put (v.getD 2 0)) ∧ r.val = old ∧ r.pd = true) ∧
      (old ≠ v.getD 1 0 → ∃ r, casLane m x s lane t v = .ok (r, s.dropL1 x.core x.b.key.part o m.size.bytes) ∧ r.val = old ∧ r.pd = false))

/-- R134, R218, R219, R221, R223, R224: loads, stores and atomics in the own scratchpad. -/
def Obligations.ScratchpadAccessesAndAtomics : Prop :=
  Sys2Proof.Claims.ScratchpadInstructionsRun ∧ Sys2Proof.Claims.ScratchpadAccesses ∧ Sys2Proof.Claims.AtomicsReadAndWrite

/-- R129, R135, R136, R145, R227, R228: a fence that acquires leaves no word in its core's L1; one that releases leaves a fence among its thread's
outstanding accesses, behind which no later store of the thread may be performed; RO and CINV make the thread's read-only point here, which an
access of its own dates again once all that was outstanding has been performed; a fence at rec waits until the thread's earlier accesses are
performed and accepted. -/
def Sys2Proof.Claims.FencesKeepTheOrder : Prop :=
  (∀ (s : State) (x : Ctx) (tl : Nat) (kind : FKind) (scope : Scope) (ro : Bool),
    let u := fenceDoes kind scope ro x s tl
    let dated : List Pend → Prop := fun l => (∀ q ∈ l, q.kind = .ro ∧ q.ag = x.agent tl) ∧ (ro = false → l = []) ∧
      (ro = true → s.settled (x.agent tl) = false → l ≠ [])
    (kind ≠ .rel → ∀ w ∈ u.l1, w.core ≠ x.core) ∧
    (kind ≠ .acq → s.settled (x.agent tl) = false →
      ∃ p l, u.pend = s.pend ++ p :: l ∧ p.kind = .fence scope ∧ p.ag = x.agent tl ∧ p.n = s.nextId ∧ dated l) ∧
    (kind = .acq → ∃ l, u.pend = s.pend ++ l ∧ dated l) ∧
    (ro = true → ∀ th, s.thread? x.b.key tl = some th → ∃ v, u.thread? x.b.key tl = some v ∧ v.roPoint = s.events)) ∧
  (∀ (s : State) (p q : Pend), q ∈ s.pend → q.ag = p.ag → q.n < p.n → (∃ sc, q.kind = .fence sc) → s.mayPerform p = false) ∧
  (∀ (s : State) (p : Pend) (k : BKey) (tl : Nat) (th : Thread), s.pend.find? (fun q => q.n == p.n) = some p → s.mayPerform p = true →
    p.kind = .ro → p.ag = .thread k tl → s.thread? k tl = some th →
    (∀ q ∈ s.pend, q.ag = p.ag → p.n ≤ q.n) ∧
    ∃ t u, exec (.accessPerformed p.n) s = .next t ∧ t.thread? k tl = some u ∧ u = { th with roPoint := s.events }) ∧
  (∀ (s : State) (x : Ctx) (lane : Nat) (t : Thread) (v : List Nat) (f : Ctx → State → Nat → State),
    s.releasable (x.agent t.tl) .recov = false → fenceLane (fenceNeed .recov) f x s lane t v = .error (.wait (.drain .recov)))

/-- R129, R135, R136, R145, R227, R228: what fences order, and that they complete. -/
def Obligations.FencesOrder : Prop := Sys2Proof.Claims.FencesKeepTheOrder ∧ Sys2Proof.Claims.OrderingInstructionsRun

/-- R230, R242 to R244: PROBE answers the presence bit of its line without reading a byte; RNG draws words that depend on the launch's seed,
the counter and the thread's index alone, moves the thread's own counter on by one, and raises RNG_WRAP at its end; with `.ctr` the counter
is an operand and the thread's own stays. -/
def Sys2Proof.Claims.ProbeAndRng : Prop :=
  (∀ (s : State) (x : Ctx) (lane : Nat) (t : Thread) (v : List Nat) (m : MemF) (b : Block), m.tgt = .own →
    s.block? x.b.key = some b → 0 ≤ ownOff m v → ownOff m v + 1 ≤ x.l.d.scratch → m.order = .rlx →
    ∃ r, probeLane m x s lane t v = .ok (r, s) ∧ (r.pd = true ↔ ∀ e ∈ b.absent, e.1 ≠ (ownOff m v).toNat / 128) ∧ r.val = r.pd.toNat) ∧
  (∃ g : W64 → Nat → Nat → Nat, ∀ (cnt : RCnt) (s : State) (x : Ctx) (lane : Nat) (t : Thread) (v : List Nat),
    (t.rngctr.toNat ≠ 2 ^ 64 - 1 → ∃ r, rngLane (rngBits cnt) true x s lane t v = .ok (r, s) ∧
      r.val = g x.l.d.seed t.rngctr.toNat (x.b.key.bl * (x.l.d.bx * x.l.d.by_ * x.l.d.bz) + t.tl) % 2 ^ rngBits cnt ∧
      ∀ u, r.th u = { u with rngctr := u.rngctr + 1 }) ∧
    (t.rngctr.toNat = 2 ^ 64 - 1 → ∃ e, rngLane (rngBits cnt) true x s lane t v = .error (.trap e) ∧ e.code = 0x000A) ∧
    (∃ r, rngLane (rngBits cnt) false x s lane t v = .ok (r, s) ∧
      r.val = g x.l.d.seed (v.headD 0) (x.b.key.bl * (x.l.d.bx * x.l.d.by_ * x.l.d.bz) + t.tl) % 2 ^ rngBits cnt ∧ ∀ u, r.th u = u))

/-- R217, R221 to R230, R242 to R244: the memory instructions complete, and what PROBE and RNG answer. -/
def Obligations.MemoryInstructions : Prop :=
  Sys2Proof.Claims.MemoryInstructionsComplete ∧ Sys2Proof.Claims.LdcRuns ∧ Sys2Proof.Claims.ProbeAndRng

/-! ### XBAR barriers and hardware queues (08 R231 to R241) -/

/-- R231, R232, R233: XBAR completes: `wait` lets each lane whose phase has moved on go on as an acquire and files or parks every lane,
the other operations act on the 16 bytes of their barrier in one step; a waiting lane whose phase has moved on departs. -/
def Sys2Proof.Claims.XbarCompletes : Prop :=
  ∀ (h : Hd) (op : XbarOp) (base : Opnd) (offs : BitVec 20),
    (let sh : Shape := { shapeM (.xbar h op base offs) h (xbarSrcs op base) (xbarDst op) with pd := xbarPd op }
     ((∀ ph, op ≠ .wait ph) → CompletesAs (.xbar h op base offs) sh (xbarLane op offs) (commitLanes sh)) ∧
     (∀ ph, op = .wait ph → CompletesAs (.xbar h op base offs) sh (xbarWaitLane offs) (fun x outs t =>
       (writeLanes sh x outs t).partWays x (hdSize h) (outs.map (fun o =>
         (o.lane, o.tl,
           if ((writeLanes sh x outs t).xb x.b.key o.res.val).phase ≠ BitVec.ofNat 32 (o.inp.vals.getD 1 0) then none
           else some (waitAt (writeLanes sh x outs t) .xbar (.xbar h op base offs) (BitVec.ofNat 64 o.res.val)
             ((BitVec.ofNat 32 (o.inp.vals.getD 1 0)).setWidth 64) 0 none)))) true))) ∧
    (∀ (s : State) (core slot tl : Nat) (b : Block) (t : Thread) (w : Wait), s.blockAt? core slot = some b →
      s.thread? b.key tl = some t → t.stat = .waiting w → w.kind = .xbar → (s.xb b.key w.a.toNat).phase ≠ w.x.setWidth 32 →
      exec (.xbarWaitProceed core slot tl) s = .next (s.departAcq b.key tl))

/-- R231, R232: the steps of a barrier: an arrival takes one from LEFT, or sets ERR where none is left; `expect` first adds to PEND; where
LEFT and PEND are then zero the phase moves on by one and LEFT starts again at COUNT. -/
def Sys2Proof.Claims.XbarSteps : Prop :=
  ∀ b : Xb,
    (b.arrive.left = b.left - 1 ∧ b.arrive.pend = b.pend ∧ b.arrive.phase = b.phase ∧ b.arrive.count = b.count ∧
      (b.arrive.err = true ↔ b.err = true ∨ b.left = 0)) ∧
    (∀ n : Int, -(2 ^ 39) ≤ b.pend + n → b.pend + n < 2 ^ 39 → (b.addPend n).pend = b.pend + n ∧ (b.addPend n).err = b.err) ∧
    (∀ n : Int, ¬(-(2 ^ 39) ≤ b.pend + n ∧ b.pend + n < 2 ^ 39) → (b.addPend n).err = true) ∧
    (b.left = 0 → b.pend = 0 → b.test.phase = b.phase + 1 ∧ b.test.left = b.count ∧ b.test.pend = 0 ∧ b.test.err = b.err) ∧
    (b.left ≠ 0 ∨ b.pend ≠ 0 → b.test = b) ∧
    (-(2 ^ 39) ≤ b.pend → b.pend < 2 ^ 39 → b.left < 2 ^ 16 → b.count < 2 ^ 16 → Xb.of b.bytes = b)

/-- R231 to R233: a lane of XBAR acts on the 16 bytes at its offset of the own scratchpad, in one step: it reads the fields where R231 places them,
and leaves them as its operation says, with the completion test after it; DSTX gets the phase before an arrival, and `test` answers whether the phase
has moved on and acquires where it has. A barrier that is not aligned raises MISALIGN, one outside the allocation SCRATCH_BOUNDS. -/
def Sys2Proof.Claims.XbarActsOnItsBytes : Prop :=
  ∀ (s : State) (x : Ctx) (lane : Nat) (t : Thread) (v : List Nat) (op : XbarOp) (offs : BitVec 20) (bl : Block),
    s.block? x.b.key = some bl →
    let at_ : Int := (v.headD 0 : Nat) + offs.toInt
    let n := v.getD 1 0
    (at_ % 16 = 0 → 0 ≤ at_ → at_ + 16 ≤ x.l.d.scratch → s.releasable (x.agent t.tl) .dev = true →
      let bs := bl.scratch.read at_.toNat 16
      let fld : Nat → Nat → Nat := fun lo k => leNat ((bs.drop lo).take k)
      let pend : Int := (BitVec.ofNat 40 (fld 0 5)).toInt
      let err : Bool := (fld 5 1).testBit 0
      let left := fld 8 2
      let count := fld 10 2
      let phase : W32 := BitVec.ofNat 32 (fld 12 4)
      let put : Int → Bool → Nat → Nat → W32 → State := fun p e l c ph =>
        let new := natLE 5 (BitVec.ofInt 40 p).toNat ++ natLE 1 e.toNat ++ zeros 2 ++ natLE 2 l ++ natLE 2 c ++ natLE 4 ph.toNat
        s.updBlock x.b.key (fun k => { k with scratch := k.scratch.write at_.toNat new })
      let tested : Int → Bool → Nat → Nat → W32 → State := fun p e l c ph =>
        if l = 0 ∧ p = 0 then put p e c c (ph + 1) else put p e l c ph
      let arrived : Int → Bool → State := fun p e => if 0 < left then tested p e (left - 1) count phase else tested p true left count phase
      ∃ r u, (∀ ph, op ≠ .wait ph) → xbarLane op offs x s lane t v = .ok (r, u) ∧
        match op with
        | .init _ => r.val = 0 ∧ u = if n = 0 ∨ 65535 < n then tested pend true left count phase else put 0 false n n 0
        | .arrive _ => r.val = phase.toNat ∧ u = arrived pend err
        | .expect _ _ =>
          let y := (BitVec.ofInt 40 (pend + n)).toInt
          r.val = phase.toNat ∧ u = arrived y (err || decide (y ≠ pend + n))
        | .test _ _ _ =>
          r.pd = decide (phase.toNat ≠ n) ∧ r.val = r.pd.toNat + 2 * err.toNat ∧ u = if r.pd then s.acquire (x.agent t.tl) x.core else s
        | .wait _ => True) ∧
    (at_ % 16 ≠ 0 → ∃ e, xbarLane op offs x s lane t v = .error (.trap e) ∧ e.code = 2) ∧
    (at_ % 16 = 0 → (at_ < 0 ∨ x.l.d.scratch < at_ + 16) → ∃ e, xbarLane op offs x s lane t v = .error (.trap e) ∧ e.code = 3)

/-- R231 to R233: XBAR. -/
def Obligations.XbarBarriers : Prop :=
  Sys2Proof.Claims.XbarCompletes ∧ Sys2Proof.Claims.XbarSteps ∧ Sys2Proof.Claims.XbarActsOnItsBytes

/-- R236 to R240: QPUSH completes where every active lane names an attached queue with room and has no earlier access outstanding: each
lane's element joins its queue in ascending thread index, and the course goes on; a lane that names no queue raises PROTECT with subcode 6, one
whose launch does not attach it subcode 5; QPOP with TRY completes at once, without TRY a lane without an element waits; QUEUE_DELIVER
delivers the element with the smallest ticket. -/
def Obligations.QueuesPushPopDeliver : Prop :=
  ∀ (h : Hd) (pd : Fin 8) (d n a : Opnd) (w64 : Bool),
    (∀ (s : State) (x : Ctx), (let sh := shapeM (.qpush h n a w64) h [(n, .w32), (a, if w64 then .w64 else .w32)] none
      Goes s x sh qpushLane → x.c.part = 0 →
      let r := runLanes sh qpushLane x s
      (∀ o ∈ r.outs, s.releasable (x.agent o.tl) .dev = true) → (∀ q, r.s.hwLen x.b.key.part q + r.outs.length ≤ 1024) →
      exec (.qpush h n a w64) s = .next (((r.outs.foldl (fun t o =>
        (t.updThread x.b.key o.tl (fun th => o.ports th)).pushQueue x.b.key o.tl o.res.val (BitVec.ofNat 64 (o.inp.vals.getD 1 0))) r.s).advance
          x (hdSize h)).chainEnd x h.chain))) ∧
    (∀ (x : Ctx) (s : State) (lane : Nat) (t : Thread) (v : List Nat),
      (64 ≤ v.headD 0 → ∃ e, qpushLane x s lane t v = .error (.trap e) ∧ e.code = 5 ∧ e.aux3 = 6) ∧
      (v.headD 0 < 64 → x.l.d.qmask.getLsbD (v.headD 0) = false →
        ∃ e, qpushLane x s lane t v = .error (.trap e) ∧ e.code = 5 ∧ e.aux3 = 5)) ∧
    (∀ (s : State) (x : Ctx) (try_ : Bool),
      let sh : Shape := { shapeM (.qpop h pd d n w64 try_) h [(n, .w32)] (some (d, if w64 then 64 else 32)) with pd := pd }
      Goes s x sh qpopLane →
      let r := runLanes sh qpopLane x s
      let got := r.outs.foldl (fun (g : State × List (LaneOut × Option W64)) o =>
        let e := g.1.popQueue x.b.key.part o.res.val
        (e.2, g.2 ++ [(o, e.1)])) (r.s, [])
      let give : Option W64 → LaneRes := fun e =>
        { LaneRes.value ((e.getD 0).toNat % 2 ^ (if w64 then 64 else 32)) with pd := e.isSome }
      (try_ = true → exec (.qpop h pd d n w64 try_) s = .next (got.2.foldl
        (fun u g => if g.2.isSome then u.acquire (x.agent g.1.tl) x.core else u)
        (commitLanes sh x (got.2.map (fun g => { g.1 with res := give g.2 })) got.1))) ∧
      (try_ = false → exec (.qpop h pd d n w64 try_) s = .next (((got.2.filter (fun g => g.2.isNone)).foldl
        (fun u g => u.updThread x.b.key g.1.tl (fun th => g.1.ports th))
        (writeLanes sh x ((got.2.filter (fun g => g.2.isSome)).map (fun g => { g.1 with res := give g.2 })) got.1)).partWays x (hdSize h)
          (got.2.map (fun g =>
            (g.1.lane, g.1.tl, if g.2.isSome then none
              else some (waitAt s .qpop (.qpop h pd d n w64 try_) (BitVec.ofNat 64 g.1.res.val) 0 0 (g.1.push.map (fun p => p.2.loc)))))) true))) ∧
    (∀ (s : State) (part queue : Nat) (e : QElem), s.deliverable part queue = some e →
      exec (.queueDeliver part queue) s = .next (((s.updPart part (fun p =>
        { p with hwq := aput p.hwq queue ((((aget? p.hwq queue).getD []).filter (·.delivered)) ++ [{ e with delivered := true }] ++
          ((((aget? p.hwq queue).getD []).filter (fun y => !y.delivered)).erase e)) })).updLaunch part e.lnum
            (fun l => { l with delivered := l.delivered ++ [(queue, e.bl, e.tl, e.n)] })).serveQueue part queue 1)) ∧
    (∀ (s : State) (part queue : Nat) (e : QElem), s.deliverable part queue = some e →
      e.delivered = false ∧ ∃ l, (s.part? part).bind (fun p => aget? p.hwq queue) = some l ∧ e ∈ l ∧
        ((∀ f ∈ l, f.lnum < 2 ^ 31) → ∀ f ∈ l, f.delivered = false → f.before e = false))

/-! ### Streams (11 R247 to R269) -/

/-- R247 to R269: the stream instructions complete where no active lane traps or waits; SSKIP, SSEEK, SPOS and STEST act on the position that
SIDE names, saturating and without touching memory; a pop at the end of its stream gives the fill value and sets EOS; reading ahead adds the next
element; a pending push that may be performed is performed. -/
def Sys2Proof.Claims.StreamInstructionsMove : Prop :=
  ∀ (h : Hd) (q : Fin 16) (desc off n d pos y : Opnd) (ioff : Option Opnd) (o64 w clr : Bool) (pd : Fin 8) (mode : StMode) (fld : SField),
    (let wd : Machine.Pos := if o64 then .w64 else .w32
     let word : Nat → W64 := fun v => if o64 then BitVec.ofNat 64 v else BitVec.ofInt 64 (sintOf 32 v)
     let side : Bool := match mode with | .eos => false | .left w => w
     let done : Instr → Shape → LaneFn → Prop := fun i sh f => CompletesAs i sh f (commitLanes sh)
     let pruned : Instr → Shape → LaneFn → Prop := fun i sh f =>
       CompletesAs i sh f (fun x outs t => (commitLanes sh x outs t).updBlock x.b.key Block.pruneDescs)
     pruned (.sopen h q desc off ioff o64)
       (lsu (.sopen h q desc off ioff o64) h ([(desc, .w64), (off, wd)] ++ (ioff.map (fun o => (o, wd))).toList) none)
       (sopenLane q ioff.isSome word) ∧
     pruned (.sclose h q) (lsu (.sclose h q) h [] none)
       (pureLane (fun _ _ _ _ => { LaneRes.value 0 with th := fun u => u.setPort q { u.port q with bound := false, pre := [] } })) ∧
     done (.sskip h q n w) (lsu (.sskip h q n w) h [(n, .w32)] none) (sskipLane q w) ∧
     done (.spos h q d w) (lsu (.spos h q d w) h [] (some (d, 64))) (sposLane q w) ∧
     done (.stest h q pd d mode clr) { lsu (.stest h q pd d mode clr) h [] (some (d, 32)) with pd := pd } (stestLane q mode clr side) ∧
     done (.sseek h q pos w) (lsu (.sseek h q pos w) h [(pos, .w64)] none) (sseekLane q w) ∧
     done (.scfg h q fld y) (lsu (.scfg h q fld y) h [(y, .w64)] none) (scfgLane q fld)) ∧
    (∀ (s : State) (x : Ctx) (lane : Nat) (t : Thread) (v : List Nat) (p : Port) (e : SDesc),
      sidePort s x t q w = .ok (p, e) →
      let at_ : Nat := if w then p.wpos.toNat else p.rpos.toNat
      let moved : Port → Nat → Prop := fun r k =>
        (if w then r.wpos else r.rpos) = BitVec.ofNat 64 k ∧ (if w then r.rpos else r.wpos) = (if w then p.rpos else p.wpos) ∧
        r.bound = p.bound ∧ r.desc = p.desc ∧ r.off = p.off ∧ r.ioff = p.ioff ∧ r.leno = p.leno ∧ r.fillo = p.fillo
      (∃ r g, sskipLane q w x s lane t v = .ok (g, s) ∧ moved r (min (2 ^ 64 - 1) (at_ + v.headD 0)) ∧ r.send = p.send ∧
        ∀ u, g.th u = u.setPort q r) ∧
      (∃ r g, sseekLane q w x s lane t v = .ok (g, s) ∧ moved r (v.headD 0) ∧ (w = false → r.send = 0 ∧ r.pre = []) ∧
        ∀ u, g.th u = u.setPort q r) ∧
      (∃ g, sposLane q w x s lane t v = .ok (g, s) ∧ g.val = at_ ∧ ∀ u, g.th u = u) ∧
      (∃ g, stestLane q (.left w) false w x s lane t v = .ok (g, s) ∧
        g.val = min (streamLength ((s.block? x.b.key).getD x.b) e p - at_) (2 ^ 32 - 1) ∧ (g.pd = true ↔ g.val ≠ 0)) ∧
      (w = false → ∃ g, stestLane q .eos clr false x s lane t v = .ok (g, s) ∧ g.val = p.send.toNat ∧ g.pd = p.send.getLsbD 0 ∧
        ∀ u, ((g.th u).port q).send = if clr then 0 else (u.port q).send)) ∧
    (∀ (s : State) (x : Ctx) (t : Thread) (e : SDesc), (t.port q).bound = true → x.b.desc (t.port q).desc = some e → e.dir ≠ 1 →
      streamLength x.b e (t.port q) ≤ (t.port q).rpos.toNat →
      popLane s x t q = .ok (widen e (((t.port q).fillo.getD e.fill).toNat), { t.port q with send := (t.port q).send ||| 1 }, s)) ∧
    (∀ (s : State) (x : Ctx) (t : Thread), (t.port q).bound = false → ∃ g, popLane s x t q = .error (.trap g) ∧ g.code = 7 ∧
      g.aux0 = BitVec.ofNat 32 q.val) ∧
    (∀ (s s1 s2 : State) (core slot tl : Nat) (b : Block) (t : Thread) (l : Launch) (e : SDesc) (a : Int) (z : Bool) (loc : Loc) (wk : PWalk)
      (bs : List Byte),
      s.blockAt? core slot = some b → b.thread? tl = some t → s.launch? b.key.part b.key.lnum = some l →
      (t.port q).bound = true → t.ports.foldl (fun k p => k + p.pre.length) 0 < 64 → t.stat ≠ .exited → b.desc (t.port q).desc = some e →
      e.dir ≠ 1 → (t.port q).nextAhead < streamLength b e (t.port q) →
      (let x : Ctx := ⟨core, 0, Course.idle core slot tl, b, l⟩
       elemAddr s x tl 0 0 q false e (t.port q) (t.port q).nextAhead = .ok (a, z, s1) ∧
       elemLoc s1 b l 0 q false false (t.port q).nextAhead e.own a e.size = .ok (loc, wk) ∧
       readElem (s1.noteLeaf b.key.part wk) x tl 0 loc wk a.toNat e.size (decide (e.cache ≥ 3)) = .ok (bs, s2)) →
      exec (.streamPrefetch core slot tl q) s = .next (s2.updThread b.key tl (fun u =>
        u.setPort q { u.port q with pre := (u.port q).pre ++ [(BitVec.ofNat 64 (t.port q).nextAhead, widen e (leNat bs))] }))) ∧
    (∀ (s : State) (core slot k : Nat) (b : Block) (p : Push), s.blockAt? core slot = some b → b.pushes[k]? = some p →
      s.mayPush b p = true → exec (.streamPushPerform core slot k) s = .next (s.performPush b p))

/-- R249 to R252, R255, R265: SOPEN binds its port to the descriptor at SRC0, with OFF and IOFF from its operands, both positions and LENO zero,
FILLO invalid and %send zero; the descriptor is the block's live entry, or 64 bytes that it reads into a free one. An invalid descriptor raises
STREAM_FAULT with subcode 6, one that finds no entry free 7, a pattern that is not aligned 5. Every address of an aligned pattern is a multiple
of the element size, and is that of R252. -/
def Sys2Proof.Claims.SopenBinds : Prop :=
  (∀ (s : State) (x : Ctx) (lane : Nat) (t : Thread) (v : List Nat) (q : Fin 16) (two : Bool) (word : Nat → W64) (b : Block),
    s.block? x.b.key = some b →
    let addr : W64 := BitVec.ofNat 64 (v.getD 0 0)
    let off := word (v.getD 1 0)
    let ioff : W64 := if two then word (v.getD 2 0) else 0
    let bound : LaneRes → Prop := fun r => ∀ u, r.th u = u.setPort q
      { bound := true, desc := addr, off := off, ioff := ioff, rpos := 0, wpos := 0, leno := 0, fillo := none, send := 0, pre := [] }
    let stops : Nat → Prop := fun sub => ∃ e, sopenLane q two word x s lane t v = .error (.trap e) ∧ e.code = 6 ∧ e.aux3 = BitVec.ofNat 32 sub
    v.getD 0 0 < 2 ^ 64 → b.descs.length ≤ 16 →
    (∀ en, b.descs.find? (fun e => e.addr == addr) = some en →
      let d := SDesc.of en.bytes
      (descBad en.bytes = true → stops 6) ∧
      (descBad en.bytes = false → d.idx = false → patternAligned d off = false → stops 5) ∧
      (descBad en.bytes = false → patternAligned d off = true →
        (d.idx = true → ∃ i, b.descs.find? (fun e => e.addr == d.idxDesc) = some i ∧ indexBad d i.bytes = false ∧
          patternAligned (SDesc.of i.bytes) ioff = true) →
        ∃ r, sopenLane q two word x s lane t v = .ok (r, s) ∧ bound r)) ∧
    (∀ bs s1 b1, b.descs.find? (fun e => e.addr == addr) = none → readDesc s x t.tl (v.getD 0 0) = .ok (bs, s1) → s1.block? x.b.key = some b1 →
      let d := SDesc.of bs
      (descBad bs = true → stops 6) ∧
      (descBad bs = false → d.idx = false → 16 ≤ b1.descs.length → stops 7) ∧
      (descBad bs = false → d.idx = false → b1.descs.length < 16 → patternAligned d off = true →
        ∃ r, sopenLane q two word x s lane t v =
          .ok (r, s1.updBlock x.b.key (fun c => { c with descs := c.descs ++ [{ addr := addr, bytes := bs }] })) ∧ bound r))) ∧
  (∀ (d : SDesc) (off : W64) (n : Nat),
    let sum : Int := (d.base.toNat : Int) + off.toInt +
      ((List.range d.nlev).map (fun j => d.stride j * ((n / ((List.range j).map d.count).prod % d.count j : Nat) : Int))).sum
    patternAddr d off n = (if d.own then sum else sum % 2 ^ 64) ∧
    (patternAligned d off = true → d.esz < 4 → patternAddr d off n % (2 ^ d.esz : Nat) = 0))

/-- R253, R256, R257, R259, R261, R269: a pop below the length takes the element at RPOS, read ahead or read now at its address, widens it, and moves
RPOS on by one; a push below the length takes the address of WPOS, moves WPOS on by one, and stands pending with the low bytes of its value (an
8-byte element of a 32-bit result is extended with zeros: log 31); at the length a push raises STREAM_OVER. SCFG replaces its field, drops what was
read ahead, leaves the positions, and raises STREAM_FAULT with subcode 5 where an offset is not aligned. -/
def Sys2Proof.Claims.PortsPopAndPush : Prop :=
  ∀ (s : State) (x : Ctx) (t : Thread) (q : Fin 16) (e : SDesc), (t.port q).bound = true → x.b.desc (t.port q).desc = some e →
    let p := t.port q
    (e.dir ≠ 1 → p.rpos.toNat < streamLength x.b e p →
      (∀ y, p.pre.find? (fun e => e.1 == p.rpos) = some y → ∃ r u, popLane s x t q = .ok (y.2, r, u) ∧ u = s.count x.core 0x0B 1 ∧
        r = { p with rpos := p.rpos + 1, pre := r.pre, send := r.send } ∧ ∀ z, z ∈ r.pre ↔ z ∈ p.pre ∧ z.1 ≠ p.rpos) ∧
      (∀ a ended s1 loc wk bs s2, p.pre.find? (fun e => e.1 == p.rpos) = none →
        elemAddr s x t.tl rankPop rankPopPoison q false e p p.rpos.toNat = .ok (a, ended, s1) →
        elemLoc s1 x.b x.l rankPop q false false p.rpos.toNat e.own a e.size = .ok (loc, wk) →
        readElem (s1.noteLeaf x.b.key.part wk) x t.tl rankPopPoison loc wk a.toNat e.size (decide (e.cache ≥ 3)) = .ok (bs, s2) →
        popLane s x t q = .ok (widen e (leNat bs), { p with rpos := p.rpos + 1, send := if ended then p.send ||| 2 else p.send },
          s2.count x.core 0x0B 1))) ∧
    (∀ y, widen e y = if e.sx then (BitVec.ofNat (8 * e.size) y).signExtend 64 else BitVec.ofNat 64 (y % 2 ^ (8 * e.size))) ∧
    (e.idx = false → ∀ n rank prank write, elemAddr s x t.tl rank prank q write e p n = .ok (patternAddr e p.off n, false, s)) ∧
    (e.dir ≠ 0 → p.wpos.toNat < streamLength x.b e p → ∀ a ended s1 loc wk,
      elemAddr s x t.tl rankPush rankPushPoison q true e p p.wpos.toNat = .ok (a, ended, s1) →
      elemLoc s1 x.b x.l rankPush q true false p.wpos.toNat e.own a e.size = .ok (loc, wk) →
      pushLane s x t q = .ok (some ({ p with wpos := p.wpos + 1, send := if ended then p.send ||| 2 else p.send },
        { port := q, pos := p.wpos, loc := loc, size := e.size }), s1.noteLeaf x.b.key.part wk)) ∧
    (e.dir ≠ 0 → streamLength x.b e p ≤ p.wpos.toNat → x.c.frame = none → ∃ g, pushLane s x t q = .error (.trap g) ∧ g.code = 0x0103 ∧
      g.aux0 = BitVec.ofNat 32 q.val) ∧
    (∀ (d : Deferred) (k : BKey) (b : Block) (y : Nat), s.block? k = some b → ∃ c w, (s.addPush k t.tl d y).block? k = some c ∧
      c = { b with pushes := b.pushes ++ [w] } ∧ w.tl = t.tl ∧ w.port = d.port ∧ w.loc = d.loc ∧ w.bytes = natLE d.size y) ∧
    (∀ (b : Block) (lane : Nat) (f : SField) (v : List Nat), s.block? x.b.key = some b → b.desc p.desc = some e →
      let y : W64 := BitVec.ofNat 64 (v.headD 0)
      let sets : Port → Prop := fun r => ∃ g, scfgLane q f x s lane t v = .ok (g, s) ∧ ∀ u, g.th u = u.setPort q r
      let stops : Prop := ∃ g, scfgLane q f x s lane t v = .error (.trap g) ∧ g.code = 6 ∧ g.aux3 = 5
      match f with
      | .off => (patternAligned e y = true → sets { p with pre := [], off := y }) ∧ (patternAligned e y = false → stops)
      | .ioff =>
        let bad : Prop := e.idx = true ∧ ∃ i, b.desc e.idxDesc = some i ∧ patternAligned i y = false
        (¬bad → sets { p with pre := [], ioff := y }) ∧ (bad → stops)
      | .len => sets { p with pre := [], leno := y }
      | .fill => sets { p with pre := [], fillo := some y })

/-- R247 to R269: the stream instructions and the ports. -/
def Obligations.StreamPortsMove : Prop :=
  Sys2Proof.Claims.StreamInstructionsMove ∧ Sys2Proof.Claims.SopenBinds ∧ Sys2Proof.Claims.PortsPopAndPush

/-! ### Long accumulators (01 R14, R15; 04 R102 to R109; 13 R296 to R313) -/

namespace Sys2Proof.Claims

/-- An instruction that gives accumulator kd of each active lane a new value completes; `f` may leave any raw form of it, whose NORM is free
(R104). `terms` is what the lane counts (R467). -/
def AccWrites (i : Instr) (h : Hd) (srcs : List (Opnd × Machine.Pos)) (kd : Opnd) (terms : Nat) (f : Thread → List Nat → Bool → Acc) : Prop :=
  CompletesAs i (shapeX i h srcs none none)
    (fun x st _ t v => .ok ({ LaneRes.value 0 with th := fun u => u.setAcc (kIx kd) (f t v (Config.rawNorm st.free)) },
      st.burn.count x.core 0x04 terms))
    (commitLanes (shapeX i h srcs none none))

/-- Element `n` of a source in a format, negated under NEG (R297). -/
def element (f : Fmt) (u neg : Bool) (x n : Nat) : FVal :=
  let y := f.decode (x / 2 ^ (f.bits * n) % 2 ^ f.bits) [] u
  if neg then y.neg else y

/-- The value of an accumulator that rounds, with the flags that it brings (R109). -/
def accOperand (c : Acc) : FVal × FFlags :=
  if c.nan || (c.pinf && c.ninf) then (.nan, 0)
  else if c.pinf then (.inf false, 0)
  else if c.ninf then (.inf true, 0)
  else if c.ovf then (.inf (decide (c.val < 0)), flOvf ||| flInx)
  else if c.val = 0 then (.fin false 0 0, 0)
  else (.fin (decide (c.val < 0)) c.val.natAbs (-320), 0)

/-- The line of an accumulator in normalized form (R106, R310). -/
def accLine (c : Acc) : List Byte :=
  natLE 80 (BitVec.ofInt 640 c.val).toNat ++ zeros 10 ++ natLE 2 ({ c with norm := true } : Acc).flags.toNat ++ natLE 4 c.count.toNat ++ zeros 32

/-- The bytes of a cell under TDRAIN, with the flags of its rounding (R358). -/
def drained (d : DrainT) (c : Acc) : List Byte × FFlags :=
  match d with
  | .acc => (accLine c, 0)
  | .elem f u rnd =>
    let y := f.round (.mode rnd) (accOperand c).1 u
    (natLE (f.bits / 8) y.1, (accOperand c).2 ||| y.2)

/-- A product of elements, negated under NEG (R297). -/
def product (f g : Fmt) (u neg : Bool) (x y n : Nat) : FVal :=
  let p := ((element f u false x n).mul (element g u false y n)).1
  if neg then p.neg else p

end Sys2Proof.Claims

/-- R296 to R299, R301, R303: ACCZ, ACCADD, ACCMAC, ACCDOT, ACCNEG, ACCSCL, ACCMOV, ACCNORM and ACCADDK give kd of each active lane its new
value; ACCRDS and ACCTEST read k, and ACCWRS writes part of it. -/
def Obligations.AccumulatorRegisters : Prop :=
  ∀ (h : Hd) (k ks a b n d : Opnd) (fa fb : Fmt) (sel : BitVec 3) (u neg : Bool) (as : AccSel) (mode : AtMode) (pd : Fin 8),
    AccWrites (.accz h k) h [] k 0 (fun _ _ z => { Acc.zero with norm := z }) ∧
    AccWrites (.accadd h k a fa sel u neg) h [(a, .elem fa)] k 1
      (fun t v z => (t.acc (kIx k)).add (element fa u neg (v.getD 0 0) sel.toNat) z) ∧
    AccWrites (.accmac h k a b fa fb sel u neg) h [(a, .elem fa), (b, .elem fb)] k 1
      (fun t v z => (t.acc (kIx k)).add (product fa fb u neg (v.getD 0 0) (v.getD 1 0) sel.toNat) z) ∧
    AccWrites (.accdot h k a b fa fb u neg) h [(a, .elem fa), (b, .elem fb)] k (32 / fa.bits)
      (fun t v z => ((List.range (32 / fa.bits)).map (fun i => product fa fb u neg (v.getD 0 0) (v.getD 1 0) i)).foldl
        (fun c e => c.add e z) (t.acc (kIx k))) ∧
    AccWrites (.accneg h k ks) h [] k 0 (fun t _ z => (t.acc (kIx ks)).negate z) ∧
    AccWrites (.accscl h k ks n) h [(.imm 0, .w32), (n, .w32)] k 0
      (fun t v z => (t.acc (kIx ks)).scale (BitVec.ofNat 32 (v.getD 1 0)).toInt z) ∧
    AccWrites (.accmov h k ks) h [] k 0 (fun t _ _ => t.acc (kIx ks)) ∧
    AccWrites (.accnorm h k ks) h [] k 0 (fun t _ _ => (t.acc (kIx ks)).normalized) ∧
    AccWrites (.accaddk h k ks neg) h [] k 0
      (fun t _ z =>
        let s := t.acc (kIx ks)
        (t.acc (kIx k)).plus (if neg then { s with val := -s.val, pinf := s.ninf, ninf := s.pinf } else s) z) ∧
    Silent (.accrds h d k as) (shapeX (.accrds h d k as) h [] (some (d, 64)) none)
      (fun _ _ t _ => LaneRes.value (match as with
        | .seg m => ((BitVec.ofInt 640 (t.acc (kIx k)).val >>> (64 * m.val)).setWidth 64 : BitVec 64).toNat
        | .flg => (t.acc (kIx k)).flags.toNat
        | .cnt => (t.acc (kIx k)).count.toNat)) ∧
    Silent (.acctest h mode pd d k) { shapeX (.acctest h mode pd d k) h [] (some (d, 32)) none with pd := pd }
      (fun _ _ t _ =>
        let c := t.acc (kIx k)
        match mode with
        | .flg m => { LaneRes.value c.flags.toNat with pd := decide (c.flags &&& m ≠ 0) }
        | .neg => { LaneRes.value (if c.val < 0 then 1 else 0) with pd := decide (c.val < 0) }
        | .zero => { LaneRes.value (if c.val = 0 then 1 else 0) with pd := decide (c.val = 0) }) ∧
    (∃ g : Acc → Nat → Acc,
      Silent (.accwrs h k a as) (shapeX (.accwrs h k a as) h [(a, .w64)] none none)
        (fun _ _ t v => { LaneRes.value 0 with th := fun u => u.setAcc (kIx k) (g (t.acc (kIx k)) (v.headD 0)) }) ∧
      ∀ (c : Acc) (x : Nat),
        match as with
        | .seg m => g c x = { c with val := (g c x).val, norm := true } ∧
            ∀ i, i < 640 → (BitVec.ofInt 640 (g c x).val).getLsbD i =
              if 64 * m.val ≤ i ∧ i < 64 * m.val + 64 then (BitVec.ofNat 64 x).getLsbD (i - 64 * m.val) else (BitVec.ofInt 640 c.val).getLsbD i
        | .flg => g c x = { c with nan := x.testBit 0, pinf := x.testBit 1, ninf := x.testBit 2, ovf := x.testBit 3, poison := x.testBit 4 }
        | .cnt => g c x = { c with count := BitVec.ofNat 32 x })

/-- R102, R103, R299: an addition, a negation and a scaling leave the exact result where it lies in the range, with OVF as it was, and
elsewhere the result modulo 2^640 in the range, with OVF set; a special term changes its flag and no value; COUNT grows by one a term. -/
def Obligations.AccumulationIsExact : Prop :=
  ∀ (k : Acc) (z : Bool),
    (let inRange : Int → Prop := fun y => -(2 ^ 639) ≤ y ∧ y < 2 ^ 639
     let holds : Acc → Int → Bool → Prop := fun r y was =>
       inRange r.val ∧ (inRange y → r.val = y ∧ r.ovf = was) ∧ (¬inRange y → r.ovf = true ∧ (r.val - y) % 2 ^ 640 = 0)
     (∀ (s : Bool) (m : Nat) (e : Int), -320 ≤ e →
       let r := k.add (.fin s m e) z
       holds r (k.val + (if s then -1 else 1) * m * 2 ^ (e + 320).toNat) k.ovf ∧ r.count = k.count + 1 ∧ r.nan = k.nan ∧
         r.pinf = k.pinf ∧ r.ninf = k.ninf ∧ r.poison = k.poison ∧ r.norm = z) ∧
     k.add .nan z = { k with nan := true, count := k.count + 1 } ∧
     k.add (.inf false) z = { k with pinf := true, count := k.count + 1 } ∧
     k.add (.inf true) z = { k with ninf := true, count := k.count + 1 } ∧
     (holds (k.negate z) (-k.val) k.ovf ∧ (k.negate z).pinf = k.ninf ∧ (k.negate z).ninf = k.pinf ∧ (k.negate z).count = k.count) ∧
     (∀ t : Int, 0 ≤ t → holds (k.scale t z) (k.val * 2 ^ t.toNat) k.ovf) ∧
     (∀ t : Int, t < 0 → holds (k.scale t z) (k.val.fdiv (2 ^ (-t).toNat)) k.ovf) ∧
     (∀ a : Acc, holds (k.plus a z) (k.val + a.val) (k.ovf || a.ovf) ∧ (k.plus a z).count = k.count + a.count ∧
       (k.plus a z).nan = (k.nan || a.nan) ∧ (k.plus a z).pinf = (k.pinf || a.pinf) ∧ (k.plus a z).ninf = (k.ninf || a.ninf) ∧
       (k.plus a z).poison = (k.poison || a.poison)))

/-- R15, R105: the same multiset of terms gives the same value, special flags and count in whatever order and grouping it is added; OVF too
where no partial sum can leave the range. -/
def Obligations.SumsDependOnNoOrder : Prop :=
  ∀ (k : Acc) (ts us ws : List FVal) (z : Bool), (ts ++ us).Perm ws → (∀ m s e, FVal.fin s m e ∈ ws → -320 ≤ e) →
    -(2 ^ 639) ≤ k.val → k.val < 2 ^ 639 →
    let one := ws.foldl (fun c t => c.add t z) k
    let two := (ts.foldl (fun c t => c.add t z) k).plus (us.foldl (fun c t => c.add t z) Acc.zero) z
    one.val = two.val ∧ one.nan = two.nan ∧ one.pinf = two.pinf ∧ one.ninf = two.ninf ∧ one.poison = two.poison ∧ one.count = two.count ∧
    ((k.val.natAbs : Int) + (ws.map (fun t => match t with | .fin _ m e => ((m * 2 ^ (e + 320).toNat : Nat) : Int) | _ => 0)).sum < 2 ^ 639 →
      one.ovf = two.ovf)

/-- R107, R109, R300, R302, R305 to R311, R458: ACCRND rounds an accumulator, and raises POISON where its flag is set; ACCRED gives each lane the exact sum
over the active lanes of its segment; ACCLD, ACCST, AACC and AMAC complete where no lane traps or waits; at the address that `checkPlace` makes of base
plus OFFS, ACCST issues a store of the normalized line, and AACC and AMAC an add of their term, which returns nothing and goes to a peer as the
trimmed record, padded to 32 bytes; the eviction of a partial merges its line, written back normalized (log 37), where no other line has to leave
the L2 for it (log 45). -/
def Obligations.AccumulatorsMeetMemory : Prop :=
  ∀ (h : Hd) (d k ks a b : Opnd) (dfmt fmt : Fmt) (u neg : Bool) (r : Rnd) (wid : Wid) (m : MemF) (t : AaccT),
    Completes (.accrnd h d k dfmt u r) { shapeX (.accrnd h d k dfmt u r) h [] (some (d, 32)) none with rnd := rndOpnd r }
      (accrndLane k dfmt u r) ∧
    (∀ (x : Ctx) (s : State) (lane : Nat) (th : Thread) (v : List Nat),
      ((th.acc (kIx k)).poison = true → ∃ e, accrndLane k dfmt u r x s lane th v = .error (.trap e) ∧ e.code = 0x000B ∧
        e.aux0 = BitVec.ofNat 32 (kIx k)) ∧
      ((th.acc (kIx k)).poison = false → ∃ g, accrndLane k dfmt u r x s lane th v = .ok (g, s) ∧ (∀ w, g.th w = w) ∧
        let c := th.acc (kIx k)
        let y := dfmt.round (rmAt r v) (accOperand c).1 u
        g.fl = (accOperand c).2 ||| y.2 ∧
        g.val = if dfmt.fp.isNone && !u then (BitVec.ofInt 32 (BitVec.ofNat dfmt.bits y.1).toInt).toNat else y.1)) ∧
    (∃ sum : List Acc → Acc,
      (let sh := shapeX (.accred h k ks wid) h [] none none
       let w : Nat := match wid with | .w32 => 32 | .w1 => 1 | .w2 => 2 | .w4 => 4 | .w8 => 8 | .w16 => 16
       let got : Ctx → List LaneOut → LaneOut → Acc := fun x outs o =>
         sum ((outs.filter (fun p => p.lane / w == o.lane / w)).map (fun p => ((x.b.thread? p.tl).map (fun q => q.acc (kIx ks))).getD Acc.zero))
       let res : Acc → LaneRes := fun a => { LaneRes.value 0 with th := fun th => th.setAcc (kIx k) a }
       CompletesAs (.accred h k ks wid) sh (pureLane zeroLane) (fun x outs st =>
         commitLanes sh x (outs.map (fun o => { o with res := res (got x outs o) })) st)) ∧
      (∀ l : List Acc, (sum l).norm = true ∧ -(2 ^ 639) ≤ (sum l).val ∧ (sum l).val < 2 ^ 639 ∧
        ((sum l).val - (l.map (·.val)).sum) % 2 ^ 640 = 0 ∧
        ((sum l).ovf = true ↔ (∃ c ∈ l, c.ovf = true) ∨ ¬(-(2 ^ 639) ≤ (l.map (·.val)).sum ∧ (l.map (·.val)).sum < 2 ^ 639)) ∧
        ((sum l).nan = true ↔ ∃ c ∈ l, c.nan = true) ∧ ((sum l).poison = true ↔ ∃ c ∈ l, c.poison = true) ∧
        (sum l).count = (l.map (·.count)).foldl (· + ·) 0) ∧
      (∀ l l' : List Acc, l.Perm l' → sum l = sum l')) ∧
    (let done : Instr → List (Opnd × Machine.Pos) → LaneFn → Prop := fun i srcs f =>
       CompletesAs i (shapeX i h srcs none none) f (commitLanes (shapeX i h srcs none none))
     done (.accld h k m) (memSrcs m none none) (accldLane h.wbs k m) ∧
     done (.accst h m k) (memSrcs m none none) (accstLane m k) ∧
     done (.aacc h m t) (memSrcs m (match t with | .elem f x => some (x, .elem f) | .acc _ => none) none) (aaccLane m t) ∧
     done (.amac h m a b fmt neg) (memSrcs m (some (a, .elem fmt)) (some (b, .elem fmt))) (amacLane m fmt neg)) ∧
    (∀ (s : State) (x : Ctx) (lane : Nat) (th : Thread) (vals : List Nat) (at_ : At),
      let base : Int := (vals.headD 0 : Nat) + m.offs.toInt
      let stop : Nat → W32 := fun opc => aux2Of opc (spaceOf m) (roleOf m vals) true
      -- the lane goes on, issues nothing but one access at the checked address, and keeps its thread
      let issues : LaneFn → PKind → List Byte → Prop := fun f kind bytes =>
        ∃ g v p, f x s lane th vals = .ok (g, v) ∧ (∀ w, g.th w = w) ∧
          v = { s.noteLeaf x.b.key.part at_.w with pend := v.pend, nextId := v.nextId } ∧ v.pend = s.pend ++ [p] ∧
          p.ag = x.agent th.tl ∧ p.core = x.core ∧ p.loc = at_.loc ∧ p.kind = kind ∧ p.bytes = bytes ∧ p.sent = none
      let c := th.acc (kIx k)
      (m.tgt = .global → placeOf x m vals = .glob (BitVec.ofInt 64 base).toNat) ∧ (m.tgt = .own → placeOf x m vals = .scr x.b.key base) ∧
      (checkPlace s x (placeOf x m vals) (stop 0x95) { n := 128, rd := false, wr := true } = .ok at_ →
        issues (accstLane m k) (if m.order = .rel ∨ m.order = .ar ∨ m.scope = .recov then .release m.scope else .store)
          (accLine c)) ∧
      (checkPlace s x (placeOf x m vals) (stop 0x96) { n := 128, rd := true, wr := true, add := true } = .ok at_ →
        issues (aaccLane m t) (.add (match t with
          | .elem f _ => Acc.zero.add (element f false false (vals.getD 1 0) 0) true
          | .acc ka => th.acc (kIx ka)) (decide (m.scope ≠ .dev))) (zeros 128)) ∧
      (checkPlace s x (placeOf x m vals) (stop 0x97) { n := 128, rd := true, wr := true, add := true } = .ok at_ →
        issues (amacLane m fmt neg) (.add (Acc.zero.add (product fmt fmt false neg (vals.getD 1 0) (vals.getD 2 0) 0) true)
          (decide (m.scope ≠ .dev))) (zeros 128))) ∧
    (∀ (s t : State) (p : Pend) (term : Acc) (sys : Bool) (peer a : Nat), s.pend.find? (fun q => q.n == p.n) = some p →
      s.mayPerform p = true → p.kind = .add term sys → p.loc = .peer peer a → exec (.accessPerformed p.n) s = .next t →
      t = (s.request peer a (.accAtomic (term.trim ++ zeros 2 ++ natLE 4 term.count.toNat ++
        zeros ((32 - (term.trim.length + 6) % 32) % 32))) (some (.pend p.n))).markSent p.n) ∧
    (∀ (s : State) (line die : Nat), (∃ p ∈ s.parts, p.line = line ∧ p.die = die) →
      ((∀ p ∈ s.parts, p.line = line) ∨ 2 * (s.dirty.length + s.parts.length) + s.hostLines.length ≤ l2Units) →
      ∃ w, exec (.aLineEvict line die) s = .next w ∧ (∀ p ∈ w.parts, p.line ≠ line) ∧
        w.mem = s.mem.write (128 * line) (((s.parts.filter (fun p => p.line == line)).foldl (fun c p => c.plus p.acc true)
          (Acc.ofLine (s.storedRun (128 * line) 128))).toLine))

/-! ### Copies (12 R271 to R291) -/

namespace Sys2Proof.Claims

/-- The copies that the issuing lanes of one instruction plan, one after the other, where none stops; `v` gives each lane its operands. -/
def plansOf (x : Ctx) (k : CKind) (e : Nat) (f : CpyF) (per : List (Nat × Nat)) (v : Nat → List Nat) :
    List (Nat × Thread) → State → Option (List CPlan × State)
  | [], s => some ([], s)
  | p :: ps, s =>
    match planCopy s x k e f p.1 p.2.tl ((v p.1).getD 0 0) ((v p.1).getD 1 0) ((v p.1).getD 2 0) per with
    | .ok (c, t) => (plansOf x k e f per v ps t).map (fun r => (c :: r.1, r.2))
    | .error _ => none

/-- A copy instruction issues: its active lanes are producers, their operands can be read (a lowest-lane operand in the lowest lane alone),
no copy of theirs stops, and the core has the entries; each copy is then issued and the course goes on (R271, R272). `whole` copies issue in
the lowest lane, with the operand `perLane` of every lane. -/
def CopyIssues (i : Instr) (h : Hd) (k : CKind) (e : Nat) (f : CpyF) (ops : List (Opnd × Machine.Pos)) (lowAt : List Bool)
    (perLane : Option Nat) : Prop :=
  ∀ (s t : State) (x : Ctx) (v : Nat → List Nat) (cs : List CPlan), s.issuing = some x →
    let act := x.active h.pneg h.pred
    let mine : Nat → List (Opnd × Machine.Pos) := fun lane =>
      (ops.zip lowAt).map (fun o => if o.2 && lane != (act.head?.map (·.1)).getD 0 then ((.imm 0 : Opnd), Machine.Pos.w32) else o.1)
    (∀ p ∈ act, x.l.d.isProducer p.2.tl = true) →
    (∀ p ∈ act, ∃ r, readSources s x p.1 p.2 h.lit (mine p.1) none = .ok r ∧ r.1.vals = v p.1) →
    plansOf x k e f (match perLane with | some n => act.map (fun p => (p.1, (v p.1).getD n 0)) | none => []) v
      (if perLane.isSome then act.take 1 else byThread act) s = some (cs, t) →
    s.copyCount x.core + cs.length ≤ 256 →
    exec i s = .next (commitLanes (shapeX i h [] none none) x [] (cs.foldl (fun u c => u.issueCopy x k f c) t))

/-- A copy that the slow path does not hold (R290), whose releases are due, and whose pieces of a line wait for nothing and meet no fault. -/
structure LineReady (s : State) (id recv line : Nat) (c : Copy) : Prop where
  copy : s.copy? id = some c
  due : (recv, line) ∈ c.todo
  fast : c.slow = []
  released : s.copyReleased c = true
  ready : ∀ p ∈ piecesOf c line, s.pieceWaits c p = false
  mapped : ∀ p ∈ piecesOf c line, s.pieceMissing c (c.recv recv) p = none ∧ s.pieceFaults c (c.recv recv) p = false

end Sys2Proof.Claims

/-- R271, R272, R286: CPY, CPYX and CPYA issue one copy for each active lane, CPYG, CPYS and CPYM one in all, PUBLISH one; CPYQ completes,
with `.wait` where no active lane has a copy left, and then writes 0. -/
def Sys2Proof.Claims.CopiesIssue : Prop :=
  ∀ (h : Hd) (f : CpyF) (ez : Fin 4) (ty : CpyaT) (a d n b : Opnd) (o : Option Opnd),
    (let ops := [(a, spacePos f.ssp), (d, spacePos f.dsp), (n, countPos f)]
     CopyIssues (.cpy h f a d n) h .cpy 1 f ops [false, false, false] none ∧
     CopyIssues (.cpyg h f a d n) h .cpyg 1 f ops [false, true, true] (some 0) ∧
     CopyIssues (.cpys h f a d n) h .cpys 1 f ops [true, false, true] (some 1) ∧
     CopyIssues (.cpym h f a d n) h .cpym 1 f [(a, spacePos f.ssp), (d, .w32), (n, countPos f)] [true, false, true] (some 1) ∧
     CopyIssues (.cpyx h f ez a d n) h .cpyx (2 ^ ez.val) f ops [false, false, false] none ∧
     CopyIssues (.cpya h f ty a d n) h (.cpya ty) (cpyaSize ty) f ops [false, false, false] none) ∧
    (∀ (s t : State) (x : Ctx) (lane : Nat) (th : Thread) (rest : List (Nat × Thread)) (g : LaneIn × State) (r : CRec),
      s.issuing = some x → x.active h.pneg h.pred = (lane, th) :: rest →
      (∀ p ∈ x.active h.pneg h.pred, x.l.d.isProducer p.2.tl = true) →
      readSources s x lane th h.lit ([(b, .w64), (n, .w64)] ++ (o.map (fun p => (p, Machine.Pos.w64))).toList) none = .ok g →
      publishStops s x th.tl (g.1.vals.getD 0 0) (g.1.vals.getD 1 0) (o.map (fun _ => g.1.vals.getD 2 0)) = .ok (r, t) →
      s.copyCount x.core < 256 →
      ∃ u c, exec (.publish h b n o) s = .next (commitLanes (shapeX (.publish h b n o) h [] none none) x [] u) ∧
        u = { (t.notePages x.b.key.part (g.1.vals.getD 0 0) (g.1.vals.getD 1 0)) with copies := t.copies ++ [c], nextId := t.nextId + 1 } ∧
        c.runs = t.publishRuns x.b.key.part (g.1.vals.getD 0 0) (g.1.vals.getD 1 0) ∧ c.kind = .publish ∧ c.id = t.nextId ∧ c.swapped = false ∧
        c.key = x.b.key ∧ c.tl = th.tl ∧ c.base = g.1.vals.getD 0 0 ∧ c.len = g.1.vals.getD 1 0 ∧ (c.stamp.isSome ↔ o.isSome)) ∧
    (∃ lane : LaneFn,
      (∀ (x : Ctx) (s : State) (l : Nat) (t : Thread) (v : List Nat), x.l.d.isProducer t.tl = true → ∃ g,
        lane x s l t v = .ok (g, s) ∧ g.val = (s.copies.filter (fun c => decide (c.key = x.b.key) && c.tl == t.tl)).length ∧
        ∀ u, g.th u = u) ∧
      CompletesAs (.cpyq h d false) (lsu (.cpyq h d false) h [] (some (d, 32))) lane (commitLanes (lsu (.cpyq h d false) h [] (some (d, 32)))) ∧
      (∀ (s : State) (x : Ctx), Goes s x (lsu (.cpyq h d true) h [] (some (d, 32))) lane →
        (∀ r ∈ (runLanes (lsu (.cpyq h d true) h [] (some (d, 32))) lane x s).outs, r.res.val = 0) →
        ∃ t, exec (.cpyq h d true) s = .next t ∧ t =
          (writeLanes (lsu (.cpyq h d true) h [] (some (d, 32))) x (runLanes (lsu (.cpyq h d true) h [] (some (d, 32))) lane x s).outs
            (runLanes (lsu (.cpyq h d true) h [] (some (d, 32))) lane x s).s).partWays x (hdSize h)
            ((runLanes (lsu (.cpyq h d true) h [] (some (d, 32))) lane x s).outs.map (fun r => (r.lane, r.tl, none))) true))

/-- R271: a copy instruction with an active lane outside the producer group, whose operands can be read, raises COPY_RIGHTS: no copy
issues, and the trap is the stop of exactly the lanes outside the group. -/
def Sys2Proof.Claims.CopiesNeedTheProducerGroup : Prop :=
  ∀ (h : Hd) (f : CpyF) (a d n : Opnd) (s : State) (x : Ctx), s.issuing = some x →
    (∀ p ∈ x.active h.pneg h.pred, ∃ r,
      readSources s x p.1 p.2 h.lit [(a, spacePos f.ssp), (d, spacePos f.dsp), (n, countPos f)] none = .ok r) →
    (∃ p ∈ x.active h.pneg h.pred, x.l.d.isProducer p.2.tl = false) →
    (∀ p ∈ x.active h.pneg h.pred, ∀ q ∈ x.active h.pneg h.pred, p.1 = q.1 → p = q) →
    ∃ m : W32, exec (.cpy h f a d n) s = .next (s.stopFor x (x.pc + BitVec.ofNat 64 (hdSize h))
        (.trap { rank := cpRights, code := 0x0008, aux0 := 0, aux1 := 0, aux2 := 0xA0, aux3 := 0 } m)) ∧
      ∀ l, l < 32 → (m.getLsbD l = true ↔ ∃ p ∈ x.active h.pneg h.pred, p.1 = l ∧ x.l.d.isProducer p.2.tl = false)

/-- R271, R272, R286: copies issue, for producers alone. That COPY_RIGHTS reports the opcode in AUX2 and 0 beside it, and that a PUBLISH belongs to its
lowest lane's thread, is the model's reading (log 29). -/
def Obligations.CopiesIssueForProducers : Prop := Sys2Proof.Claims.CopiesIssue ∧ Sys2Proof.Claims.CopiesNeedTheProducerGroup

/-- R277, R278, R279, R280: the rows that the record describes, each with its source, destination and bytes: CPY and CPYM move row (z, y) by
the strides, CPYX element by element with DSY from element to element, CPYG and CPYS one row for each lane by its number, CPYA element i
of the traversal to the line at D + 128 i. -/
def Obligations.CopiesMoveTheRows : Prop :=
  ∀ (r : CRec) (e lane : Nat) (src dst : Int) (per : List (Nat × Nat)) (long : Bool) (ty : CpyaT), 0 < e → e ∣ r.xlen →
    (∀ w : Nat × Int × Int × Nat,
      (∀ k, k = CKind.cpy ∨ k = CKind.cpym → (w ∈ rowsOf k e r long lane src dst per ↔ ∃ z y, z < r.zcnt ∧ y < r.ycnt ∧
        w = (lane, src + z * r.ssz + y * r.ssy, dst + z * r.dsz + y * r.dsy, r.xlen))) ∧
      (w ∈ rowsOf .cpyx e r long lane src dst per ↔ ∃ z y i : Nat, z < r.zcnt ∧ y < r.ycnt ∧ i * e < r.xlen ∧
        w = (lane, src + z * r.ssz + y * r.ssy + (i * e : Nat), dst + z * r.dsz + i * r.dsy + (y * e : Nat), e)) ∧
      (w ∈ rowsOf .cpyg e r long lane src dst per ↔ ∃ p ∈ per,
        w = (p.1, (p.2 : Int), dst + p.1 * (if long then r.dsy else (r.xlen : Int)), r.xlen)) ∧
      (w ∈ rowsOf .cpys e r long lane src dst per ↔ ∃ p ∈ per,
        w = (p.1, src + p.1 * (if long then r.ssy else (r.xlen : Int)), (p.2 : Int), r.xlen)) ∧
      (w ∈ rowsOf (.cpya ty) e r long lane src dst per ↔ ∃ z y i : Nat, z < r.zcnt ∧ y < r.ycnt ∧ i * e < r.xlen ∧
        w = (lane, src + z * r.ssz + y * r.ssy + (i * e : Nat),
          dst + (128 * ((z * r.ycnt + y) * (r.xlen / e) + i) : Nat), e))) ∧
    (r.zcnt * r.ycnt * (r.xlen / e) = (rowsOf (.cpya ty) e r long lane src dst per).length) ∧
    -- a copy record's limits (R277)
    (∀ (k : CKind) (f : CpyF) (roles : List Nat), CRec.bad r k e f roles = false →
      1 ≤ r.xlen ∧ r.xlen ≤ 2 ^ 24 ∧ 1 ≤ r.ycnt ∧ r.ycnt ≤ 65535 ∧ 1 ≤ r.zcnt ∧ r.zcnt ≤ 65535 ∧ r.xlen * r.ycnt * r.zcnt < 2 ^ 39 ∧
      r.sval < 2 ^ 63 ∧ r.rrole ≤ 767 ∧ r.sflags ≤ 1 ∧ r.dirty = false ∧ (r.rrole ≠ 0 → f.role = 127) ∧
      (r.sflags = 1 → f.scope = .dev) ∧ (r.moff ≠ 0 → k = .cpym) ∧
      (k = .cpyg ∨ k = .cpys → r.ycnt = 1 ∧ r.zcnt = 1) ∧ (k = .cpym → roles.length ≤ 16 ∧ roles.Nodup))

/-- R272, R278, R283, R285, R288, R290: a line of a copy that waits for nothing arrives, and a line between two scratchpads brings the bytes of
its source; a line that meets a fault goes to the slow path; the slow path asks for a missing translation and delivers the rest; the stamp is
written as soon as it is due; a publication exchanges its pages; a course or an MCC whose line has its presence bit goes on. -/
def Obligations.CopiesMakeProgress : Prop :=
  ∀ (s : State) (id recv line : Nat) (c : Copy),
    (LineReady s id recv line c → exec (.copyLineArrival id recv line) s = .next (s.deliverLine c recv line)) ∧
    (LineReady s id recv line c → ∀ (ka kb : BKey) (a b : Block) (p : Run), c.kind = .cpy → c.src = some ka → c.recv recv = some kb →
      s.block? ka = some a → s.block? kb = some b → b.scratch.wf = true → c.xb = none → piecesOf c line = [p] →
      ∃ t d, exec (.copyLineArrival id recv line) s = .next t ∧ t.block? kb = some d ∧
        (∀ o, d.scratch.get o = if p.d ≤ o ∧ o < p.d + p.n then a.scratch.get (p.s + (o - p.d)) else b.scratch.get o) ∧
        (aget? b.absent line = some id → aget? d.absent line = none) ∧
        (∀ l, l ≠ line → aget? d.absent l = aget? b.absent l) ∧
        (∀ e, t.copy? id = some e → e.todo = c.todo.filter (fun q => q != (recv, line)))) ∧
    (s.copy? id = some c → (recv, line) ∈ c.todo → c.slow = [] → s.copyReleased c = true →
      (∀ p ∈ piecesOf c line, s.pieceWaits c p = false) →
      (∃ p ∈ piecesOf c line, s.pieceMissing c (c.recv recv) p ≠ none ∨ s.pieceFaults c (c.recv recv) p = true) →
      exec (.copyLineArrival id recv line) s =
        .next (s.updCopy id (fun e => { e with slow := e.slow ++ [(recv, line, none)] }))) ∧
    (s.copy? id = some c → recv ≠ stampRecv → c.slow.find? (fun e => e.1 == recv && e.2.1 == line) = some (recv, line, none) →
      s.slowAsked (.copy id recv line) = false →
      (∀ m, (piecesOf c line).findSome? (fun p => s.pieceMissing c (c.recv recv) p) = some m →
        exec (.copySlowPath id recv line) s = .next (s.gutter (c.gutterRec 0x0004 2 m.1 m.2 (.copy id recv line)))) ∧
      ((piecesOf c line).findSome? (fun p => s.pieceMissing c (c.recv recv) p) = none →
        (∀ p ∈ piecesOf c line, s.pieceWaits c p = false) →
        exec (.copySlowPath id recv line) s = .next (s.deliverLine c recv line))) ∧
    (∀ (st : CStamp) (b : Block), s.copy? id = some c → c.stamp = some st → s.stampDue c = true → st.own = true → s.block? c.key = some b →
      b.scratch.wf = true → ∃ t d, exec (.copyStampWrite id) s = .next t ∧ t.block? c.key = some d ∧
        leNat (d.scratch.read st.addr.toNat 8) = ((if c.err then st.val ||| (1 <<< 63) else st.val) : W64).toNat ∧ t.copy? id = none) ∧
    (∀ w : State, s.copy? id = some c → c.kind = .publish → c.swapped = false → s.copyReleased c = true →
      (let bases := c.runs.filterMap (fun p => (undOf s.und p.s).bind (fun u => if u.pub.isSome then some u.base else none))
       s.publishBlocked c = false → s.hostIn bases = [] → State.prepPages c.key.part bases s = .ok w →
       exec (.publishSwap id) s =
         .next (((bases.foldl (fun t a => t.swapPage a) w).updCopy id (fun e => { e with swapped := true })).finishCopy id))) ∧
    (∀ (core course : Nat) (q : Course) (k : BKey), s.course? core course = some q → q.stat = .presence k line → s.clearedBy k line = none →
      exec (.presenceWaitResume core course) s = .next (s.updCourse core course (fun q => { q with stat := .ready }))) ∧
    (∀ (core : Nat) (m : Mcc), s.course? core 0 = none → s.mcc? core = some m → m.stat = .presence line → s.clearedBy m.key line = none →
      exec (.presenceWaitResume core 0) s = .next (s.updMcc core (fun m => { m with stat := .running })))

/-! ### The matrix control core (15 R325 to R328; 16 R344 to R349) -/

namespace Sys2Proof.Claims

/-- An MCC stopped with a fault: its frame holds the cause, and a trace record names it where its partition traces (R342, R471). -/
def mStopped (s : State) (x : MCtx) (cause : Nat) (aux0 aux1 : W64) : State :=
  (s.traceMcc x.core x.m.pc cause).updMcc x.core (fun c =>
    { c with stat := .fault none, walk := none, fault := { pc := x.m.pc, cause := cause, aux0 := aux0, aux1 := aux1 } })

/-- An MCC instruction writes xd and goes on, wherever its MCC runs, changing nothing else. -/
def WritesX (i : Instr) (lit : Option W64) (d : Fin 32) (f : MCtx → W64) : Prop :=
  ∀ (s : State) (x : MCtx), s.running = some x →
    exec i s = .next ((s.updMcc x.core (fun m => { m with x := m.x.set d.val (f x) })).updMcc x.core (fun m =>
      { m with pc := m.pc + BitVec.ofNat 64 (mSize lit) }))

end Sys2Proof.Claims

/-- R346: XADD, XSUB, XMUL, XLOG, XSHF, XMOV, XMOVL and XCMP write xd and no other register, and move past their words. -/
def Sys2Proof.Claims.MccArithmetic : Prop :=
  ∀ (lit : Option W64) (d : Fin 32) (a b : MOpnd) (v : XmV) (lo : XlOp) (so : XsOp) (hi u : Bool) (imm : BitVec 32) (cmp : Cmp),
    (∃ f, WritesX (.xadd lit d a b) lit d f ∧ ∀ x, f x = BitVec.ofInt 64 ((mval x lit a).toInt + (mval x lit b).toInt)) ∧
    (∃ f, WritesX (.xsub lit d a b) lit d f ∧ ∀ x, f x = BitVec.ofInt 64 ((mval x lit a).toInt - (mval x lit b).toInt)) ∧
    (∃ f, WritesX (.xmul lit d a b v) lit d f ∧ ∀ x, match v with
      | .lo => f x = BitVec.ofNat 64 ((mval x lit a).toNat * (mval x lit b).toNat)
      | .hi true => (f x).toNat = (mval x lit a).toNat * (mval x lit b).toNat / 2 ^ 64
      | .hi false => (f x).toInt = ((mval x lit a).toInt * (mval x lit b).toInt).fdiv (2 ^ 64)) ∧
    (∃ f, WritesX (.xlog lit lo d a b) lit d f ∧ ∀ x i, i < 64 → (f x).getLsbD i =
      let p := (mval x lit a).getLsbD i
      let q := (mval x lit b).getLsbD i
      match lo with | .and => p && q | .or => p || q | .xor => p ^^ q | .andn => p && !q) ∧
    (∃ f, WritesX (.xshf lit so d a b) lit d f ∧ ∀ x,
      let n := min (mval x lit b).toNat 64
      match so with
      | .shl => (f x).toNat = (mval x lit a).toNat * 2 ^ n % 2 ^ 64
      | .shr => (f x).toNat = (mval x lit a).toNat / 2 ^ n
      | .sar => (f x).toInt = (mval x lit a).toInt.fdiv (2 ^ n)
      | .rol => ∀ i, i < 64 → (f x).getLsbD ((i + (mval x lit b).toNat) % 64) = (mval x lit a).getLsbD i) ∧
    WritesX (.xmov lit d a) lit d (fun x => mval x lit a) ∧
    (∃ f, WritesX (.xmovl d hi imm) none d f ∧ ∀ x i, i < 64 → (f x).getLsbD i =
      if hi then (if 32 ≤ i then imm.getLsbD (i - 32) else (x.m.x.get d.val).getLsbD i)
      else (if i < 32 then imm.getLsbD i else (x.m.x.get d.val).getLsbD i)) ∧
    (∃ f, WritesX (.xcmp lit cmp u d a b) lit d f ∧ ∀ x,
      let p := asInt u (mval x lit a)
      let q := asInt u (mval x lit b)
      f x = match cmp with
        | .eq => if p = q then 1 else 0 | .ne => if p ≠ q then 1 else 0 | .lt => if p < q then 1 else 0
        | .le => if p ≤ q then 1 else 0 | .gt => if p > q then 1 else 0 | .ge => if p ≥ q then 1 else 0)

/-- R347: XBR branches where its source meets COND, XLOOP writes xa - 1 and branches where that is not 0, XJMP always, after writing its
link; each target is the instruction's own address plus 4 times the signed offset, or the source of an indirect jump, which stops the MCC with
MISALIGN and no link where it is misaligned. -/
def Sys2Proof.Claims.MccBranches : Prop :=
  ∀ (lit : Option W64) (d : Fin 32) (a : MOpnd) (c : XCond) (off : BitVec 32) (link : Option (Fin 32)) (s : State) (x : MCtx),
    s.running = some x →
    let there : W64 := x.m.pc + BitVec.ofInt 64 (4 * off.toInt)
    let past : W64 := x.m.pc + BitVec.ofNat 64 (if lit.isSome then 20 else 12)
    let goes : W64 → State → State := fun pc t => t.updMcc x.core (fun m => { m with pc := pc })
    let reg : Fin 32 → W64 → State := fun d v => s.updMcc x.core (fun m => { m with x := m.x.set d.val v })
    (let v := (mval x lit a).toInt
     let taken : Prop := match c with
       | .z => v = 0 | .nz => v ≠ 0 | .ltz => v < 0 | .gez => v ≥ 0 | .lez => v ≤ 0 | .gtz => v > 0
     (taken → exec (.xbr lit c a off) s = .next (goes there s)) ∧
     (¬taken → exec (.xbr lit c a off) s = .next (s.updMcc x.core (fun m => { m with pc := m.pc + BitVec.ofNat 64 (mSize lit) })))) ∧
    (let v : W64 := x.m.x.get d.val - 1
     (v ≠ 0 → exec (.xloop d off) s = .next (goes there (reg d v))) ∧
     (v = 0 → exec (.xloop d off) s = .next ((reg d v).updMcc x.core (fun m => { m with pc := m.pc + 12 })))) ∧
    (let linked : State := match link with | some l => reg l past | none => s
     ((there.toNat % 4 = 0 → exec (.xjmp lit link (.direct off)) s = .next (goes there linked))) ∧
     ((mval x lit a).toNat % 4 = 0 → exec (.xjmp lit link (.ind a)) s = .next (goes (mval x lit a) linked)) ∧
     ((mval x lit a).toNat % 4 ≠ 0 → x.m.staging = [] → exec (.xjmp lit link (.ind a)) s =
       .next (mStopped s x 2 (mval x lit a) 0)))

/-- R346, R347: the scalar instructions and the branches of the MCC. -/
def Obligations.MccScalarsAndBranches : Prop := Sys2Proof.Claims.MccArithmetic ∧ Sys2Proof.Claims.MccBranches

/-- R326, R342, R348, R349: XLD and XST complete at base plus OFFS where nothing stops them; the scratchpad forms read and issue their bytes;
XSIG waits until the MCC's and its tiles' writes are performed, then issues its stamp as a release, or only ends; XWAIT goes on as an acquire
once the stamp has reached its comparand, waits otherwise, and stops on a stamp in a POISON line. That the frame of a negative offset holds the sum
extended by its sign is the model's reading (log 37). -/
def Obligations.MccMemory : Prop :=
  ∀ (lit : Option W64) (d : Fin 32) (m : XMem) (sx : Bool) (v : MOpnd) (k : XStamp) (s : State) (x : MCtx), s.running = some x →
    let past : State → State := fun t => t.updMcc x.core (fun m => { m with pc := m.pc + BitVec.ofNat 64 (mSize lit) })
    (∀ p bs t, mccAt s x m.own (mval x lit m.base) m.offs m.size.bytes true false = .ok p →
      mccLoad s x p m.size.bytes (mBypass m.cache p.w) (m.cache = .bypass ∨ m.cache = .na) = .ok (bs, t) →
      exec (.xld lit d m sx) s = .next (past (t.updMcc x.core (fun c =>
        { c with x := c.x.set d.val (if sx then BitVec.ofInt 64 (asInt false (BitVec.ofNat m.size.bits (leNat bs))) else BitVec.ofNat 64 (leNat bs)) })))) ∧
    (∀ p, mccAt s x m.own (mval x lit m.base) m.offs m.size.bytes false true = .ok p → ∃ t,
      exec (.xst lit m v) s = .next (past t) ∧ t.pend = s.pend ++
        [{ n := s.nextId, ag := .mcc x.b.key, core := x.core, loc := p.loc, va := p.va, bytes := natLE m.size.bytes (mval x lit v).toNat,
           kind := .store, grp := s.events, sent := none, thru := decide (m.cache = .bypass ∨ m.cache = .na) }] ∧
        (m.own = true ∨ s.parts = [] → t.mem = s.mem) ∧ t.blocks = s.blocks ∧ t.host = s.host) ∧
    -- the offset of the own scratchpad, where an access stands, and what stops it
    (let o : Int := (((mval x lit m.base).toNat % 2 ^ 32 : Nat) : Int) + m.offs.toInt
     m.own = true → x.m.staging = [] →
     let stopped : Nat → State := fun cause => mStopped s x cause (BitVec.ofInt 64 o) 0
     (o % (m.size.bytes : Int) ≠ 0 → exec (.xld lit d m sx) s = .next (stopped 2) ∧ exec (.xst lit m v) s = .next (stopped 2)) ∧
     (o % (m.size.bytes : Int) = 0 → (o < 0 ∨ x.l.d.scratch < o + m.size.bytes) →
       exec (.xld lit d m sx) s = .next (stopped 3) ∧ exec (.xst lit m v) s = .next (stopped 3)) ∧
     (o % (m.size.bytes : Int) = 0 → 0 ≤ o → o + m.size.bytes ≤ x.l.d.scratch →
       ∀ rd wr, ∃ p, mccAt s x true (mval x lit m.base) m.offs m.size.bytes rd wr = .ok p ∧ p.loc = .scr x.b.key o.toNat)) ∧
    (∀ (p : At) (fin : Bool), mccAt s x k.own (mval x lit k.base) k.offs 8 false true = .ok p →
      let i : Instr := .xsig lit (if fin then .signalEnd k v else .signal k v)
      (s.mccSettled x.b.key = true → ∃ t,
        exec i s = .next (if fin then (past t).updMcc x.core (fun c => { c with stat := .ended, fin := true }) else past t) ∧
        t.pend = s.pend ++
          [{ n := s.nextId, ag := .mcc x.b.key, core := x.core, loc := p.loc, va := p.va, bytes := natLE 8 (mval x lit v).toNat,
             kind := .release .dev, grp := s.events, sent := none }] ∧ (k.own = true ∨ s.parts = [] → t.mem = s.mem) ∧ t.blocks = s.blocks) ∧
      (s.mccSettled x.b.key = false → exec i s = .next (s.updMcc x.core (fun c => { c with stat := .drain })))) ∧
    exec (.xsig lit .halt) s = .next ((past s).updMcc x.core (fun c => { c with stat := .ended, fin := true })) ∧
    (∀ p, mccAt s x k.own (mval x lit k.base) k.offs 8 true false = .ok p →
      let r := (s.noteLeaf x.b.key.part p.w).stampAt (some (.mcc x.b.key)) p.loc
      (r.2.poisonLoad x.agent p.loc 8 = false → (mval x lit v).toNat ≤ r.1 →
        exec (.xwait lit k v) s = .next (past { r.2 with l1 := r.2.l1.filter (fun w => w.core != x.core) })) ∧
      (r.2.poisonLoad x.agent p.loc 8 = false → r.1 < (mval x lit v).toNat → exec (.xwait lit k v) s =
        .next (r.2.updMcc x.core (fun c => { c with stat := .xwait p.loc (mval x lit v) }))) ∧
      (r.2.poisonLoad x.agent p.loc 8 = true → x.m.staging = [] → exec (.xwait lit k v) s =
        .next (mStopped s x 0x000B (BitVec.ofNat 64 p.va) 0)))

/-! ### Tile instructions (15 R318 to R341; 16 R350 to R368) -/

namespace Sys2Proof.Claims

/-- The MCC past an instruction. -/
def mPast (x : MCtx) (lit : Option W64) (t : State) : State :=
  t.updMcc x.core (fun m => { m with pc := m.pc + BitVec.ofNat 64 (mSize lit) })

/-- A cell lies in a region that lies in the tile (R350). -/
def inRegion (r : Region) (i j : Nat) : Prop :=
  r.row0.toNat ≤ i ∧ i ≤ r.row0.toNat + r.nrow.toNat ∧ r.col0.toNat ≤ j ∧ j ≤ r.col0.toNat + r.ncol.toNat

/-- A region within a tile, as WellFormed requires. -/
def fits (r : Region) : Prop := r.row0.toNat + r.nrow.toNat < 32 ∧ r.col0.toNat + r.ncol.toNat < 32

/-- A change of a tile that gives each cell of a region a value and keeps every other. -/
def Rewrites (f : List (Nat × Acc) → List (Nat × Acc)) (r : Region) (new : List (Nat × Acc) → Nat → Nat → Acc) : Prop :=
  ∀ u i j, i < 32 → j < 32 → (inRegion r i j → cellOf (f u) i j = new u i j) ∧ (¬inRegion r i j → cellOf (f u) i j = cellOf u i j)

/-- The stores of at most eight bytes that a run of bytes goes out as. -/
def chunks (k : BKey) (off : Nat) (bs : List Byte) : List (Loc × List Byte) :=
  (List.range ((bs.length + 7) / 8)).map (fun i => (.scr k (off + 8 * i), (bs.drop (8 * i)).take 8))

/-- A state that has issued these stores of a block's engine and performed nothing: every memory keeps its bytes. -/
def EngineStores (s t : State) (x : MCtx) (quant : Bool) (st : List (Loc × List Byte)) : Prop :=
  t.mem = s.mem ∧ t.host = s.host ∧ t.blocks = s.blocks ∧
  ∃ new, t.pend = s.pend ++ new ∧ new.map (fun p => (p.loc, p.bytes)) = st ∧
    ∀ p ∈ new, p.ag = .tile x.b.key quant ∧ p.kind = .store ∧ p.sent = none

end Sys2Proof.Claims

/-- R328, R351 to R354: TLD, TGATH, TCODE and TSCALE complete where their reads meet no fault and no absent line; TLD and TGATH lay row r at
latch bytes r ROWB on and keep the bytes beyond, TCODE fills its table and TSCALE its 32 lanes; the engine reads the scratchpad's own bytes. -/
def Obligations.TileLatchesLoad : Prop :=
  ∀ (lit : Option W64) (tl : TLatch) (f : Fus) (t4 : Fin 4) (t2 : Fin 2) (off idx pitch a : MOpnd) (rowb nrow : BitVec 13) (s : State)
    (x : MCtx), s.running = some x →
    (let runs : List (Nat × Nat) := (List.range nrow.toNat).map (fun r => (mval32 x lit off + r * mval32 x lit pitch, rowb.toNat))
     let rowsIn : (Memory → Memory) → Nat → List (List Byte) → Prop := fun g n rows =>
       ∀ u, u.wf = true → (g u).wf = true ∧ ∀ i, (g u).get i =
         if i < n * rowb.toNat then (rows.getD (i / rowb.toNat) []).getD (i % rowb.toNat) 0 else u.get i
     (∀ rows, 0 < rowb.toNat → tileRead s x runs = .ok rows →
       ∃ g, exec (.tld lit tl off pitch rowb nrow) s = .next (mPast x lit (s.updLatch x tl g)) ∧ rowsIn g nrow.toNat rows) ∧
     (let io := mval32 x lit idx
      let n := 32 / f.val
      let v := s.forward x.agent (.scr x.b.key io) (s.bytesAt (.scr x.b.key io) 64)
      ∀ rows, 0 < rowb.toNat → io % 64 = 0 → io + 64 ≤ x.l.d.scratch → s.clearedBy x.b.key (io / 128) = none →
        tileRead s x ((io, 64) :: (List.range n).map (fun r =>
          (mval32 x lit off + ((v.getD (2 * r) 0).toNat + 256 * (v.getD (2 * r + 1) 0).toNat) * mval32 x lit pitch, rowb.toNat))) = .ok rows →
        ∃ g, exec (.tgath lit f t4 off idx pitch rowb) s = .next (mPast x lit (s.updLatch x (.ta t4) g)) ∧ rowsIn g n (rows.drop 1))) ∧
    (let table : List Byte → File 16 → Prop := fun bs w => ∀ i, i < 16 →
       (w.get i).toNat = (bs.getD (2 * i) 0).toNat + 256 * (bs.getD (2 * i + 1) 0).toNat
     let done : CodeSrc → List (List Byte) → State → Prop := fun src rows u =>
       ∃ w, exec (.tcode lit t4 src) s = .next (mPast x lit (u.updMcc x.core (fun m => { m with cb := setAt [] m.cb t4.val w }))) ∧
         table (rows.headD []) w
     (∀ rows, mval32 x lit a % 32 = 0 → tileRead s x [(mval32 x lit a, 32)] = .ok rows → done (.own a) rows s) ∧
     (∀ rows u, (mval x lit a).toNat % 32 = 0 → globRead s x [((mval x lit a).toNat, 32)] = .ok (rows, u) → done (.global a) rows u) ∧
     (∀ rows u, s.preg x.b.key.part 0x28 ≠ 0 →
       globRead s x [(((s.preg x.b.key.part 0x28).toNat + 32 * ((mval x lit a).toNat % 16)) % 2 ^ 64, 32)] = .ok (rows, u) →
       done (.lib a) rows u) ∧
     (s.preg x.b.key.part 0x28 = 0 → x.m.staging = [] → exec (.tcode lit t4 (.lib a)) s = .next (mStopped s x 5 0 15))) ∧
    (let lanes : List (List Byte) → Memory → Prop := fun rows w => ∀ i k, i < 32 → k < 32 →
       (w.get (32 * i + k) + 0x7F : BitVec 8) = (rows.getD i []).getD k 0
     let done : Bool → List (List Byte) → State → Prop := fun sp rows u =>
       ∃ w, exec (.tscale lit t2 sp a pitch) s = .next (mPast x lit (u.updMcc x.core (fun m => { m with sc := setAt [] m.sc t2.val w }))) ∧
         lanes rows w
     (∀ rows, tileRead s x ((List.range 32).map (fun i => (mval32 x lit a + i * mval32 x lit pitch, 32))) = .ok rows → done true rows s) ∧
     (∀ rows u, globRead s x ((List.range 32).map (fun i => (((mval x lit a).toNat + i * mval32 x lit pitch) % 2 ^ 64, 32))) = .ok (rows, u) →
       (∀ r ∈ rows, r.length = 32) → done false rows u)) ∧
    (∀ runs : List (Nat × Nat), (∀ r ∈ runs, r.1 + r.2 ≤ x.l.d.scratch) → s.block? x.b.key = some x.b → x.b.absent = [] → x.b.poison = [] →
      s.pendOf x.agent = [] → tileRead s x runs = .ok (runs.map (fun r => x.b.scratch.read r.1 r.2)))

/-- R357 to R361, R366: TZERO and TACC change the cells of their region alone; TDRAIN and TQNT issue the bytes of their region's cells as
stores, clear it under CLR, and set MFLAGS; a row's scale byte is the one that R361 computes; TCHK reads and clears the counts. Each waits
for the multiplies of its tiles. -/
def Obligations.TilesClearAddAndDrain : Prop :=
  ∀ (lit : Option W64) (t ts : Fin 2) (r : Region) (off soff pitch : MOpnd) (e : DrainT) (fmt : Fmt) (rnd : RMode) (clr : Bool) (d : Fin 32)
    (s : State) (x : MCtx), s.running = some x → fits r →
    let tile : (List (Nat × Acc) → List (Nat × Acc)) → State → State := fun f u =>
      u.updMcc x.core (fun m => m.setTile t (f (m.tile t)))
    let quiet : Fin 2 → Prop := fun n => ∀ g ∈ x.m.staging, g.t ≠ n
    let cleared : State → State → Prop := fun u w => (clr = false → w = u) ∧
      (clr = true → ∃ f, w = tile f u ∧ Rewrites f r (fun _ _ _ => Acc.zero))
    let cells : List (Nat × Nat) := (List.range (r.nrow.toNat + 1)).flatMap (fun i =>
      (List.range (r.ncol.toNat + 1)).map (fun j => (r.row0.toNat + i, r.col0.toNat + j)))
    let o := mval32 x lit off
    let p := mval32 x lit pitch
    (quiet t → ∃ f, exec (.tzero t r) s = .next (mPast x none (tile f s)) ∧ Rewrites f r (fun _ _ _ => Acc.zero)) ∧
    (¬quiet t → exec (.tzero t r) s = .next (s.updMcc x.core (fun m => { m with stat := .stage }))) ∧
    (quiet t → quiet ts → ∃ f, exec (.tacc lit t (.tile ts) r) s = .next (mPast x lit (tile f s)) ∧
      Rewrites f r (fun u i j => (cellOf u i j).plus (cellOf (x.m.tile ts) i j) true)) ∧
    (∀ rows, o % 128 = 0 → p % 128 = 0 → quiet t →
      tileRead s x (cells.map (fun c => (o + (c.1 - r.row0.toNat) * p + (c.2 - r.col0.toNat) * 128, 128))) = .ok rows →
      ∃ f, exec (.tacc lit t (.lines off pitch) r) s = .next (mPast x lit (tile f s)) ∧
        Rewrites f r (fun u i j => (cellOf u i j).plus
          (Acc.ofLine (rows.getD ((i - r.row0.toNat) * (r.ncol.toNat + 1) + (j - r.col0.toNat)) [])) true)) ∧
    (let at_ : Nat × Nat → Nat := fun c => o + (c.1 - r.row0.toNat) * p + (c.2 - r.col0.toNat) * Machine.DrainT.size e
     o % Machine.DrainT.size e = 0 → p % Machine.DrainT.size e = 0 → (∀ c ∈ cells, at_ c + Machine.DrainT.size e ≤ x.l.d.scratch) →
     quiet t → (∀ c ∈ cells, e = .acc ∨ (cellOf (x.m.tile t) c.1 c.2).poison = false) →
     ∃ u w : State, ∃ fl : FFlags, exec (.tdrain lit t off pitch e clr r) s = .next (mPast x lit w) ∧ cleared u w ∧
       EngineStores s u x false (cells.flatMap (fun c =>
         let bs := (drained e (cellOf (x.m.tile t) c.1 c.2)).1
         if e = .acc then [(.scr x.b.key (at_ c), bs)] else chunks x.b.key (at_ c) bs)) ∧
       u.mccs = (s.updMcc x.core (fun m => { m with mflags := m.mflags ||| fl })).mccs ∧
       (∀ i, fl.getLsbD i = true ↔ ∃ c ∈ cells, (drained e (cellOf (x.m.tile t) c.1 c.2)).2.getLsbD i = true)) ∧
    (let so := mval32 x lit soff
     let n := 32 * fmt.bits / 8
     let row : Nat → List Acc := fun i => (List.range 32).map (fun c => cellOf (x.m.tile t) (r.row0.toNat + i) c)
     (∀ i, i ≤ r.nrow.toNat → o + i * p + n ≤ x.l.d.scratch ∧ so + i + 1 ≤ x.l.d.scratch) → quiet t → s.staged x.m < 2 →
     (∀ c ∈ cells, (cellOf (x.m.tile t) c.1 c.2).poison = false) →
     ∃ u w : State, ∃ fl : FFlags, exec (.tqnt lit t off soff pitch fmt rnd clr r) s = .next (mPast x lit w) ∧ cleared u w ∧
       u.mccs = (s.updMcc x.core (fun m => { m with mflags := m.mflags ||| fl })).mccs ∧
       (∀ k, fl.getLsbD k = true ↔ ∃ i, i ≤ r.nrow.toNat ∧ (quantRow fmt rnd (row i)).2.2.getLsbD k = true) ∧
       EngineStores s u x true ((List.range (r.nrow.toNat + 1)).flatMap (fun i =>
         chunks x.b.key (o + i * p) (quantRow fmt rnd (row i)).2.1 ++
         chunks x.b.key (so + i) [BitVec.ofNat 8 (quantRow fmt rnd (row i)).1]))) ∧
    (∀ row : List Acc,
      ((∃ c ∈ row, c.nan ∨ c.pinf ∨ c.ninf ∨ c.ovf) → quantRow fmt rnd row = (255, zeros (4 * fmt.bits), 0)) ∧
      ((∀ c ∈ row, ¬(c.nan ∨ c.pinf ∨ c.ninf ∨ c.ovf)) →
        ((∀ c ∈ row, c.val = 0) → (quantRow fmt rnd row).1 = 127) ∧
        (∀ k : Int, (∃ c ∈ row, 2 ^ (k + 320).toNat ≤ c.val.natAbs) → (∀ c ∈ row, c.val.natAbs < 2 ^ (k + 321).toNat) → -320 ≤ k →
          ((quantRow fmt rnd row).1 : Int) = max (-127) (min 127 (k - emaxOf fmt)) + 127) ∧
        (row.length = 32 → fmt ∈ [.e4m3, .e5m2, .e3m2, .e2m3, .e2m1, .i8, .i4, .i2] →
          -- each cell over the power of two of its row's scale byte, rounded; an infinity gives way to the largest value of its sign
          let y : Nat → Nat × FFlags := fun n =>
            let v := (row.getD n Acc.zero).val
            fmt.round (.mode rnd) (if v = 0 then .fin false 0 0 else .fin (decide (v < 0)) v.natAbs (-320 - ((quantRow fmt rnd row).1 - 127 : Int))) false
          let top : Nat → Nat := fun v => match Sys2Proof.Fmt.fp fmt with
            | some g => if g.infEnc = some (v % 2 ^ (g.w - 1)) then v / 2 ^ (g.w - 1) * 2 ^ (g.w - 1) + g.maxEnc else v
            | none => v
          (quantRow fmt rnd row).2.1.length = 4 * fmt.bits ∧
          (∀ n, n < 32 → leNat (quantRow fmt rnd row).2.1 / 2 ^ (fmt.bits * n) % 2 ^ fmt.bits = top (y n).1) ∧
          (∀ k, (quantRow fmt rnd row).2.2.getLsbD k = true ↔ ∃ n, n < 32 ∧ (y n).2.getLsbD k = true)))) ∧
    (x.m.staging = [] → s.pendOf (.tile x.b.key false) = [] → s.pendOf (.tile x.b.key true) = [] →
      let v : W64 := x.m.drained ++ x.m.corr ++ (x.m.mflags.setWidth 16 : BitVec 16)
      let u := s.updMcc x.core (fun m => { m with x := m.x.set d.val v })
      exec (.tchk d clr) s = .next (mPast x none (if clr then u.updMcc x.core (fun m => { m with mflags := 0, corr := 0 }) else u)))

/-- R320, R321, R329, R331 to R336, R339, R340, R355, R356, R363 to R365: MMA and TMMA stage their operands; a staged multiply drains by adding
its Kc exact products into every cell of its origin's square and no other cell, also where flashing recomputes one wrong cell; with two wrong
rows nothing drains; a joint operation starts in all four cores of its truss, each with two halves; TSYNC completes; TWALK and TRESUME begin
or go on with a walk, whose steps are staged; TSTATE saves and loads the progress. -/
def Obligations.MultipliesDrainExactly : Prop :=
  ∀ (lit : Option W64) (m : MulF) (t : Fin 2) (a b : Fin 4) (d : Fin 32) (desc budget : MOpnd) (s : State) (x : MCtx),
    (s.running = some x →
      (s.staged x.m < 2 → exec (.mma m t a b) s =
        .next (mPast x none (s.updMcc x.core (fun c => { c with staging := c.staging ++ [x.stage m t a b none] })))) ∧
      (2 ≤ s.staged x.m → exec (.mma m t a b) s = .next (s.updMcc x.core (fun c => { c with stat := .stage }))) ∧
      (2 ≤ x.l.d.gangw → x.l.d.gangw % 2 = 0 → 2 ≤ x.l.d.gangh → x.l.d.gangh % 2 = 0 → (∀ c ∈ trussOf x.core, c ∉ s.quarantine) →
        (s.staged x.m = 0 → exec (.tmma m t a b) s =
          .next (mPast x none (s.updMcc x.core (fun c => { c with staging := [x.stage m t a b (some c.tmmacnt)] })))) ∧
        (s.jointDone x.m = true → exec .tsync s = .next (mPast x none s)) ∧
        (s.jointDone x.m = false → exec .tsync s = .next (s.updMcc x.core (fun c => { c with stat := .tsync })))) ∧
      (let o := mval32 x lit desc
       let bs := s.forward x.agent (.scr x.b.key o) (s.bytesAt (.scr x.b.key o) 64)
       let walk : Walk := { m := m, t := t, d := d, addr := BitVec.ofNat 64 o, bytes := bs, budget := mval x lit budget, pc := x.m.pc,
                            next := x.m.pc + BitVec.ofNat 64 (mSize lit) }
       (o % 64 = 0 → o + 64 ≤ x.l.d.scratch → s.clearedBy x.b.key (o / 128) = none → (WDesc.of bs).ok bs m = true →
         s.poisonAt (.scr x.b.key o) = false →
         (x.m.budgetDone = 0 → exec (.twalk lit m t d desc budget) s = .next (s.updMcc x.core (fun c => Machine.Mcc.segmentEnd
           { c with mrow := 0, mcol := 0, mseg := 0, mdone := 0, budgetDone := 0, wip := true, walk := some walk, stat := .walk } walk))) ∧
         (x.m.wip = true → x.m.within (WDesc.of bs) = true →
           let goesOn : Res := .next (s.updMcc x.core (fun c => Machine.Mcc.segmentEnd
             { c with wip := true, walk := some walk, stat := .walk } walk))
           exec (.tresume lit m t d desc budget) s = goesOn ∧
           (x.m.budgetDone ≠ 0 → exec (.twalk lit m t d desc budget) s = goesOn))) ∧
       (x.m.wip = false → exec (.tresume lit m t d desc budget) s =
         .next (mPast x lit (s.updMcc x.core (fun c => { c with x := c.x.set d.val 0 }))))) ∧
      -- a segment whose every step has drained ends (R334, R364)
      (∀ (c : Mcc) (k : Walk), let e := WDesc.of k.bytes
       let full : Prop := c.mdone.toNat + 1 = 2 ^ e.segLen c.mseg.toNat
       (¬full → c.segmentEnd k = c) ∧
       (full → c.mseg.toNat + 1 < e.segs → c.segmentEnd k = { c with mdone := 0, mseg := c.mseg + 1 }) ∧
       (full → e.segs ≤ c.mseg.toNat + 1 → c.mcol.toNat + 1 < e.tcols →
         c.segmentEnd k = { c with mdone := 0, mseg := 0, mcol := c.mcol + 1 }) ∧
       (full → e.segs ≤ c.mseg.toNat + 1 → e.tcols ≤ c.mcol.toNat + 1 → c.mrow.toNat + 1 < e.trows →
         c.segmentEnd k = { c with mdone := 0, mseg := 0, mcol := 0, mrow := c.mrow + 1 }) ∧
       (full → e.segs ≤ c.mseg.toNat + 1 → e.tcols ≤ c.mcol.toNat + 1 → e.trows ≤ c.mrow.toNat + 1 →
         let z := c.segmentEnd k
         z.wip = false ∧ z.walk = none ∧ z.pc = k.next ∧ z.x = c.x.set k.d.val 0 ∧ z.stat = .running)) ∧
      (let o := mval32 x lit desc
       o % 32 = 0 → o + 32 ≤ x.l.d.scratch →
       (∀ rows, tileRead s x [(o, 32)] = .ok rows → let bs := rows.headD []
         exec (.tstate lit true desc) s = .next (mPast x lit (s.updMcc x.core (fun c =>
           { c with mrow := BitVec.ofNat 32 (leNat (bs.take 4)), mcol := BitVec.ofNat 32 (leNat ((bs.drop 4).take 4)),
                    mseg := BitVec.ofNat 32 (leNat ((bs.drop 8).take 4)), wip := (leNat ((bs.drop 12).take 1)).testBit 0,
                    mdone := BitVec.ofNat 64 (leNat ((bs.drop 16).take 8)) })))) ∧
       (∃ u : State, exec (.tstate lit false desc) s = .next (mPast x lit u) ∧ u.mem = s.mem ∧ u.blocks = s.blocks ∧
         ∃ new, u.pend = s.pend ++ new ∧ (∀ q ∈ new, q.ag = x.agent ∧ q.kind = .store) ∧
           new.map (fun q => (q.loc, q.bytes)) = chunks x.b.key o
             (natLE 4 x.m.mrow.toNat ++ natLE 4 x.m.mcol.toNat ++ natLE 4 x.m.mseg.toNat ++ natLE 4 x.m.wip.toNat ++
               natLE 8 x.m.mdone.toNat ++ zeros 8)))) ∧
    (∀ (core : Nat) (g : Staged) (rest : List Staged) (fault : Option Sys2Proof.FlashFault), s.mctx core = some x → x.m.staging = g :: rest →
      (g.joint = none ∨ g.joined = true) → (∀ z, x.m.stat ≠ .sdc z) → x.m.stat ≠ .vote → 0 < g.m.side →
      g.row0 + g.m.side ≤ 32 → g.col0 + g.m.side ≤ 32 → s.mccs.filter (fun c => c.core == core) = [x.m] →
      (∀ f, fault = some f → f.sticky = false ∧ ∃ i j n e, f.errs = [.cell i j n e] ∧ i < g.m.side ∧ j < g.m.side ∧ residue n e % flashM ≠ 0) →
      (fault = none ∨ s.scoreOf core < 63) →
      ∃ w c, exec (.stagedMultiplyDrain core fault) s = .next w ∧ w.mcc? core = some c ∧
        c.staging = rest ∧ c.drained = x.m.drained + 1 ∧ c.mulcnt = x.m.mulcnt + 1 ∧
        c.corr = (if fault.isSome then x.m.corr + 1 else x.m.corr) ∧
        (∀ i j, i < 32 → j < 32 → cellOf (c.tile g.t) i j =
          if g.row0 ≤ i ∧ i < g.row0 + g.m.side ∧ g.col0 ≤ j ∧ j < g.col0 + g.m.side then
            g.addCell (i - g.row0) (j - g.col0) (cellOf (x.m.tile g.t) i j)
          else cellOf (x.m.tile g.t) i j) ∧
        (∀ n, n ≠ g.t → c.tile n = x.m.tile n)) ∧
    -- two wrong rows: nothing drains, the MCC stops with the report, or its block goes with a containment (R340, R341)
    (∀ (core : Nat) (g : Staged) (rest : List Staged) (f : Sys2Proof.FlashFault) (i j i' j' : Nat) (n e n' e' : Int), s.mctx core = some x →
      x.m.staging = g :: rest → (g.joint = none ∨ g.joined = true) → (∀ z, x.m.stat ≠ .sdc z) → x.m.stat ≠ .vote →
      s.mccs.filter (fun c => c.core == core) = [x.m] → g.m.side ≤ 32 → i < g.m.side → j < g.m.side → i' < g.m.side → j' < g.m.side → i ≠ i' →
      residue n e % flashM ≠ 0 → residue n' e' % flashM ≠ 0 → f.errs = [.cell i j n e, .cell i' j' n' e'] →
      ∃ w, exec (.stagedMultiplyDrain core (some f)) s = .next w ∧
        (let stops : MStat → Prop := fun z => w.mcc? core = some { x.m with stat := z } ∧ ∃ k, w.block? x.b.key = some k ∧
           k.sdcsyn.toNat % 2 ^ 6 = 2 ∧ k.sdcsyn.toNat / 2 ^ 12 % 2 ^ 5 = min i i' ∧ k.sdcsyn.getLsbD 22 = false ∧
           (j ≠ j' → k.sdcsyn.toNat / 2 ^ 6 % 2 ^ 6 = 2 ∧ k.sdcsyn.toNat / 2 ^ 17 % 2 ^ 5 = min j j') ∧
           k.sdcunit = BitVec.ofNat 32 (core % 32 + core / 32 * 2 ^ 5 + dieOf core * 2 ^ 10 + f.unit.toNat * 2 ^ 12) ∧
           k.sdctile = BitVec.ofNat 32 (g.t.val + g.row0 * 2 + g.col0 * 2 ^ 6 + g.m.f.code * 2 ^ 11 + (match g.step with
             | some step => step * 2 ^ 16 + x.m.mseg.toNat % 1024 * 2 ^ 22
             | none => (x.m.mulcnt + 1).toNat * 2 ^ 16))
         (x.l.d.trelvy = true → stops .vote) ∧
         (x.l.d.trelvy = false → x.l.handler .sdc ≠ 0 → x.b.sdcThread ≠ none → s.scoreOf core < 60 → ∃ z, stops (.sdc z)) ∧
         (x.l.d.trelvy = false → x.l.handler .sdc = 0 → x.l.stat = .started → ∀ c ∈ w.mccs, c.key ≠ x.b.key))) ∧
    (∀ (g : Staged) (i j : Nat) (c : Acc), g.fa.sa = false → g.fb.sb = false → (∀ k, k < g.fa.kc → ∀ y z : Bool, (g.aVal i k ≠ .nan ∧
        g.aVal i k ≠ .inf y) ∧ g.bVal k j ≠ .nan ∧ g.bVal k j ≠ .inf z) →
      let term : Nat → Int := fun k => match g.aVal i k, g.bVal k j with
        | .fin p m e, .fin q n f => (if p = q then 1 else -1) * (m * n * 2 ^ (e + f + 320).toNat : Nat)
        | _, _ => 0
      ((g.addCell i j c).val - (c.val + ((List.range g.fa.kc).map term).sum)) % 2 ^ 640 = 0 ∧
      (g.addCell i j c).count = c.count + BitVec.ofNat 32 g.fa.kc) ∧
    (∀ (core step : Nat) (w : Walk), s.mctx core = some x → x.m.walk = some w → x.m.stat = .walk → s.stepFree x.m w step = true →
      (∀ rows, tileRead s x ((x.m.stepRuns (WDesc.of w.bytes) w.m (64 * x.m.mseg.toNat + step)).1 ++
          (x.m.stepRuns (WDesc.of w.bytes) w.m (64 * x.m.mseg.toNat + step)).2) = .ok rows →
        ∃ g, exec (.walkStepStart core step) s = .next (s.updMcc core (fun c => { c with staging := c.staging ++ [g] })) ∧
          g.step = some step ∧ g.m = w.m ∧ g.t = w.t ∧ g.row0 = w.m.row0.toNat + x.m.mrow.toNat * w.m.side ∧
          g.col0 = w.m.col0.toNat + x.m.mcol.toNat * w.m.side ∧ g.ka = (64 * x.m.mseg.toNat + step) * w.m.kc % 1024)) ∧
    (∀ (core : Nat) (m0 m1 m2 m3 : Mcc) (g0 g1 g2 g3 : Staged), s.trussMccs core = [m0, m1, m2, m3] →
      [m0.joining, m1.joining, m2.joining, m3.joining] = [some g0, some g1, some g2, some g3] →
      (∀ g ∈ [g1, g2, g3], g.joint = g0.joint ∧ g.m.wa = g0.m.wa ∧ g.m.wb = g0.m.wb ∧ g.m.f = g0.m.f) →
      (∀ c ∈ [m1, m2, m3], c.key.lnum = m0.key.lnum ∧ c.key.part = m0.key.part) → [m0.core, m1.core, m2.core, m3.core].Nodup →
      ∃ w, exec (.tmmaJoin core) s = .next w ∧
        (∀ q ∈ [(m0, g0, g0, g0, g1, g2), (m1, g1, g0, g1, g1, g3), (m2, g2, g2, g0, g3, g2), (m3, g3, g2, g1, g3, g3)],
          ∃ c, w.mcc? q.1.core = some c ∧ c.staging = [jointHalf q.2.1 q.2.2.1 q.2.2.2.1, jointHalf q.2.1 q.2.2.2.2.1 q.2.2.2.2.2] ∧
            c.tmmacnt = q.1.tmmacnt + 1)) ∧
    (∀ (core : Nat), (s.trussMccs core).map (·.core) |>.Nodup →
      ∃ w, exec (.tmmaComplete core) s = .next w ∧
        ∀ c ∈ s.trussMccs core, c.stat = .tsync → s.jointDone c = true → (s.mcc? c.core = some c) →
          w.mcc? c.core = some { c with stat := .running })

/-! ### Recovery points and observation (21 R438 to R444, 24 R464 to R473) -/

namespace Sys2Proof.Claims

/-- Lanes one after the other, each with its own answer: a status where it has one, the state that the next lane sees. -/
def inTurn (f : LaneOut → State → Option Nat × State) : List LaneOut → State → List (LaneOut × Option Nat) × State
  | [], t => ([], t)
  | o :: os, t => ((o, (f o t).1) :: (inTurn f os (f o t).2).1, (inTurn f os (f o t).2).2)

/-- What the lanes of RPOPEN or RPSEAL come to: each lane with a status writes it and leaves, the others wait. -/
def PointsEnd (i : Instr) (h : Hd) (d n : Opnd) (kind : WKind) (f : State → Ctx → LaneOut → State → Option Nat × State) : Prop :=
  ∀ (s : State) (x : Ctx), Goes s x (lsu i h [(n, .w32)] (some (d, 32))) (fun x st _ _ v => pointLane st x v) →
    let r := runLanes (lsu i h [(n, .w32)] (some (d, 32))) (fun x st _ _ v => pointLane st x v) x s
    let q := inTurn (f r.s x) r.outs r.s
    ∃ ways : List (Nat × Nat × Option Wait),
      ways.map (fun w => (w.1, w.2.1, w.2.2.isNone)) = q.1.map (fun p => (p.1.lane, p.1.tl, p.2.isSome)) ∧
      (∀ w ∈ ways, ∀ y, w.2.2 = some y → y.kind = kind ∧ y.i = i) ∧
      exec i s = .next ((writeLanes (lsu i h [(n, .w32)] (some (d, 32))) x
        ((q.1.filter (fun p => p.2.isSome)).map (fun p => { p.1 with res := LaneRes.value (p.2.getD 0) })) q.2).partWays x (hdSize h) ways false)

/-- Recovery points of a partition as R442 reads them. -/
def openStatus (q : Partition) (n : W32) : Option Nat :=
  if q.rps.toNat < q.rpa.toNat ∧ n = q.rpa + 1 then none
  else if q.rpc = n then some 1
  else if q.rpc ≠ 0 then some 2
  else if n ≠ q.rps + 1 ∨ n = 0 then some 3
  else some 0

end Sys2Proof.Claims

/-- R438, R441 to R443, R489: RPOPEN and RPSEAL answer each lane in ascending order with the status of R442, or leave it waiting; a lane that
opens a point makes it the partition's, one that seals the open point sets SEALING and waits; the end of its release acknowledges the point, and
the seal commits it. -/
def Obligations.RecoveryPointsOpenAndSeal : Prop :=
  ∀ (h : Hd) (d n : Opnd),
    PointsEnd (.rpopen h d n) h d n .rpopen (fun _ x o t => t.rpopenLane x.b.key (BitVec.ofNat 32 o.res.val)) ∧
    (∃ g : State → Ctx → LaneOut → State → Option Nat × State, PointsEnd (.rpseal h d n) h d n .rpseal g ∧
      ∀ (u : State) (x : Ctx) (o : LaneOut) (t : State) (q : Partition), t.part? x.b.key.part = some q →
        let p : W32 := BitVec.ofNat 32 o.res.val
        (p ≠ 0 → q.rpc = p → q.sealing = false → (g u x o t).1 = none ∧ ∃ w, (g u x o t).2.part? x.b.key.part = some w ∧
          w.sealing = true ∧ w.rpc = p ∧ w.rpa = q.rpa ∧ w.rps = q.rps ∧ ∃ m, w.sealNow = some m ∧ m.n = p.toNat ∧ m.lnum = x.b.key.lnum) ∧
        (q.rpc ≠ p → q.rpa.toNat < p.toNat → q.rps.toNat < p.toNat → (g u x o t).1 = some 2 ∧ (g u x o t).2.part? x.b.key.part = some q) ∧
        (p.toNat ≤ q.rps.toNat → q.rpc ≠ p → (g u x o t).1 = some 1) ∧
        (q.rpc = p → q.sealing = true → q.rps.toNat < p.toNat → (g u x o t).1 = none ∧ (g u x o t).2.part? x.b.key.part = some q)) ∧
    (∀ (s : State) (k : BKey) (p : W32) (q : Partition), s.part? k.part = some q →
      (s.rpopenLane k p).1 = openStatus q p ∧
      (openStatus q p = some 0 → (s.rpopenLane k p).2.part? k.part = some { q with rpc := p }) ∧
      (openStatus q p ≠ some 0 → (s.rpopenLane k p).2.part? k.part = some q) ∧
      (∀ l, s.launch? k.part k.lnum = some l → (s.rpopenLane k p).2.launch? k.part k.lnum =
        some (if openStatus q p = some 0 ∨ openStatus q p = some 1 then { l with point := some p.toNat } else l))) ∧
    (∀ (s : State) (part : Nat) (q : Partition), s.part? part = some q → q.sealing = true → (∀ r ∈ s.rollbacks, part ∉ r.discard) →
      let u := (s.sealers part).foldl (fun t a => t.settle a) s
      (u.sealReleased part = true → exec (.sealReleaseDone part) s =
        .next ((u.updPart part (fun q => { q with rpc := 0, rpa := q.rpc, sealing := false })).retestPoints part)) ∧
      (u.sealReleased part = false → exec (.sealReleaseDone part) s = .next u)) ∧
    (∀ (s u : State) (part : Nat) (q : Partition) (m : Seal), s.part? part = some q → q.sealNow = some m → q.sealing = false →
      q.rpa.toNat = m.n → q.rps.toNat < m.n →
      let w := s.drainAll
      let pages := w.pointPages part m.n
      let digest := w.pointDigest (pages.map (fun e => (e.1.va, e.2, e.1.size)))
      w.hostIn (pages.map (fun e => e.1.base)) = [] →
      w.storeAt none none (.dev (m.ring.getD (m.n % 256 / 64) 0 + 64 * (m.n % 64)))
        (natLE 2 2 ++ zeros 1 ++ natLE 1 part ++ natLE 4 m.n ++ natLE 4 m.lnum ++ natLE 4 pages.length ++ digest) = .ok u →
      exec (.plateSeal part) s = .next (((u.acceptAll.swapPoint pages).updPart part (fun q =>
        { q with rps := BitVec.ofNat 32 m.n, sealNow := none })).retestPoints part))

/-- R464, R466, R467, R470, R471: CTRRD, PMARK and TSRD complete; CTRRD gives the core's counter, or the group's active cycles under ACT, and 0 for
a group that is not counted or with counting off; PMARK makes
one record for each active lane, with its tag and value, before those of the comparators that it hits; TSRD reads global time, with `.ord` only once the thread's accesses are performed. -/
def Obligations.ObservationInstructions : Prop :=
  ∀ (h : Hd) (d a : Opnd) (act ord : Bool) (grp : BitVec 2) (ctr : BitVec 3) (tag : BitVec 16),
    (∃ f : LaneFn, CompletesAs (.ctrrd h d act grp ctr) (shapeX (.ctrrd h d act grp ctr) h [] (some (d, 64)) (some 0)) f
        (commitLanes (shapeX (.ctrrd h d act grp ctr) h [] (some (d, 64)) (some 0))) ∧
      ∀ (x : Ctx) (s : State) (l : Nat) (t : Thread) (v : List Nat), ∃ g u, f x s l t v = .ok (g, u) ∧
        ((s.oreg x.b.key.part 0x20).getLsbD 2 = false ∨ (s.oreg x.b.key.part 0x20).toNat % 4 < grp.toNat → g.val = 0) ∧
        ((s.oreg x.b.key.part 0x20).getLsbD 2 = true → grp.toNat ≤ (s.oreg x.b.key.part 0x20).toNat % 4 → act = true →
          g.val = (s.actcyc.get (4 * x.b.key.part + grp.toNat)).toNat) ∧
        ((s.oreg x.b.key.part 0x20).getLsbD 2 = true → grp.toNat ≤ (s.oreg x.b.key.part 0x20).toNat % 4 → act = false →
          timingEvent ((s.oreg x.b.key.part (8 * grp.toNat)).toNat / 2 ^ (8 * ctr.toNat) % 2 ^ 8) = false →
          g.val = (s.ctr.get ((x.core * 4 + grp.toNat) * 8 + ctr.toNat)).toNat) ∧ ∀ w, g.th w = w) ∧
    (let sh := shapeX (.pmark h tag a) h [(a, .w32)] none none
     let f : LaneFn := fun _ st _ _ v => .ok (LaneRes.value (v.headD 0), st)
     ∀ (s : State) (x : Ctx), Goes s x sh f →
       let r := runLanes sh f x s
       let counted := (if r.outs.isEmpty then r.s else r.s.markTriggers x.b.key.part x.core [tag.toNat] []).count x.core 0x0D r.outs.length
       let marked := (sortBy (fun o => o.lane) r.outs).foldl (fun t o =>
         t.trace x.core x.b.key.part (nameOf x.b.key o.tl x.core) 0x02 0 (x.c.quad.getD 0) (1 <<< o.lane : BitVec 32) x.pc
           (BitVec.ofNat 32 o.res.val) (tag.setWidth 32)) counted
       exec (.pmark h tag a) s = .next (commitLanes sh x r.outs marked)) ∧
    (∃ f : LaneFn, CompletesAs (.tsrd h d ord) (shapeX (.tsrd h d ord) h [] (some (d, 64)) (some 0)) f
        (commitLanes (shapeX (.tsrd h d ord) h [] (some (d, 64)) (some 0))) ∧
      ∀ (x : Ctx) (s : State) (l : Nat) (t : Thread) (v : List Nat),
        (ord = false ∨ s.releasable (x.agent t.tl) .dev = true → ∃ g, f x s l t v = .ok (g, s) ∧ g.val = s.ns % 2 ^ 64 ∧ ∀ w, g.th w = w) ∧
        (ord = true → s.releasable (x.agent t.tl) .dev = false → f x s l t v = .error (.wait (.drain .dev))))

/-! ### The thread and launch engines (07 R158 to R173; 18 R371 to R396) -/

/-- R162, R163, R402: a bin whose oldest thread has waited AGE cycles is emitted, as is the oldest bin of a core without an eligible course;
a deferred emission proceeds once a course record is free; a partial course at the end of a chain is filed again under its next PC; a trap that
found every frame in use is delivered once one is free. Where the condition does not hold the event changes nothing. -/
def Obligations.ThreadsAreFiledAgain : Prop :=
  ∀ (s : State) (core n : Nat),
    (∀ b, s.bins.find? (fun b => b.core == core && b.id == n) = some b →
      let age := (((s.blockAt? core b.slot).bind (fun k => s.launch? k.key.part k.key.lnum)).map (fun l => l.d.age)).getD 0
      (b.oldest + age ≤ s.cycle → exec (.binEmitAge core n) s = .next ((s.emitBin b).fileUnfiled core)) ∧
      (s.cycle < b.oldest + age → exec (.binEmitAge core n) s = .next s)) ∧
    (∀ b, s.oldestBin core = some b → b.core = core → (∀ c ∈ s.courses, c.core = core → s.eligible c = false) →
      exec (.binEmitIdle core) s = .next ((s.emitBin b).fileUnfiled core)) ∧
    ((∃ c ∈ s.courses, c.core = core ∧ s.eligible c = true) → exec (.binEmitIdle core) s = .next s) ∧
    (∀ b, s.deferredBin core = some b → (s.courses.filter (fun c => c.core == core)).length < 128 →
      exec (.binEmitDeferred core) s = .next ((s.emitBin b).fileUnfiled core)) ∧
    (s.deferredBin core = none → exec (.binEmitDeferred core) s = .next (s.fileUnfiled core)) ∧
    (∀ x : Ctx, s.ctxOf core n = some x → 0 < x.c.members.length → x.c.members.length < 32 → x.c.chain = 0 → x.c.reinj = [] → x.c.frame = none →
      x.c.stat = .ready →
      (s.needsRecord core = true ∨ ∃ b ∈ s.bins, b.core = core ∧ b.slot = x.c.slot ∧ b.key = x.pc ∧
        b.producer = x.l.d.isProducer ((x.c.members.head?.map (·.2)).getD 0)) →
      exec (.courseRefile core n) s =
        .next (((s.delCourse core n).fileAt x.b.key (x.c.members.map (·.2)) x.pc).fileUnfiled core)) ∧
    (∀ (x : Ctx) (t : TrapInfo), s.ctxOf core n = some x → x.c.stat = .frame t →
      (32 ≤ s.frameCount core → exec (.trapFrameWaitEnd core n) s = .next s) ∧
      (s.frameCount core < 32 →
        let c : Course := { x.c with stat := .ready, resume := if x.c.reinj.isEmpty then [] else x.c.resume }
        exec (.trapFrameWaitEnd core n) s =
          .next ((s.updCourse core n (fun _ => c)).takeTrap { x with c := c } t (x.c.resume.headD 0))))

/-- R188, R373, R375, R397: DLAUNCH submits a launch for each active lane in ascending order, after the release of its stores, and DSTX gets the
launch number; a doorbell write submits too, does nothing before READY, and brings a record for a partition that is not enabled; an accepted
launch stands at the end of its queue under the partition's next number; a descriptor that cannot be read is refused. -/
def Obligations.LaunchesAreSubmitted : Prop :=
  (∀ (h : Hd) (d a : Opnd) (queue : BitVec 6) (s : State) (x : Ctx),
    let sh := plain (.dlaunch h d a queue) h (hdSize h) [(a, .w64)] (some (d, 32))
    let f : LaneFn := fun _ st _ _ v =>
      if v.headD 0 % 256 ≠ 0 then .error (targetStop (v.headD 0)) else .ok (LaneRes.value (v.headD 0), st)
    Goes s x sh f →
    let r := runLanes sh f x s
    let ags := r.outs.map (fun o => x.agent o.tl)
    (s.releaseAll ags .dev).2 = true →
    let q := inTurn (fun o t => let n := t.submit x.b.key.part queue.toNat o.res.val; (some n.1, n.2)) r.outs (r.s.releaseAll ags .dev).1
    exec (.dlaunch h d a queue) s =
      .next (commitLanes sh x (q.1.map (fun p => { p.1 with res := LaneRes.value (p.2.getD 0) })) q.2)) ∧
  (∀ (s : State) (agent part queue addr : Nat), 1 ≤ agent → agent ≤ 4 → part < 8 → queue < 64 → s.power = true →
    ((s.reg 0x400).getLsbD 0 = false → exec (.launchDoorbell agent part queue addr) s = .next s) ∧
    ((s.reg 0x400).getLsbD 0 = true → s.partOn part = true →
      exec (.launchDoorbell agent part queue addr) s = .next (s.submit part queue (addr % 2 ^ 64)).2) ∧
    ((s.reg 0x400).getLsbD 0 = true → s.partOn part = false →
      exec (.launchDoorbell agent part queue addr) s = .next (s.gutter { GRec.plate 0x0205 with
        part := part, aux2 := BitVec.ofNat 32 (0x8000 + 0x200 * part + 8 * queue) }))) ∧
  (∀ (s : State) (p queue addr : Nat) (q : Partition), s.part? p = some q → (s.submit p queue addr).1 ≠ 0 →
    (s.submit p queue addr).1 = q.nextLnum ∧
    ∃ l, (s.submit p queue addr).2.launches = s.launches ++ [l] ∧ l.part = p ∧ l.lnum = q.nextLnum ∧ l.queue = queue ∧ l.addr = addr ∧
      l.stat = .queued ∧ l.retired = [] ∧ ∃ w, (s.submit p queue addr).2.part? p = some w ∧
        w.nextLnum = (if (q.nextLnum + 1) % 2 ^ 32 = 0 then 1 else (q.nextLnum + 1) % 2 ^ 32) ∧
        aget? w.queues queue = some (((aget? q.queues queue).getD []) ++ [q.nextLnum])) ∧
  (∀ (s : State) (p queue addr : Nat), (s.readBytes p addr 256).1 = none → (s.submit p queue addr).1 = 0)

/-- R166, R377 to R384, R387 to R396, R433: dispatch starts the unit that the policy names at its place, or refuses a launch whose snapshot page
has no underlay attribute; a block starts with its threads at the entry; a block that is done retires; pre-emption saves the units of a victim
at rest, restore brings a saved unit back with what its images hold; the watchdog ends a launch beyond its limit. The model's readings here: the trace
record of a dispatch names the launch's first block (log 39), and which victim is asked for which units (log 32). -/
def Obligations.LaunchesRunTheirCourse : Prop :=
  ∀ (s : State) (part lnum : Nat),
    (∀ (binds : List Bind) (l0 m : Launch) (u v i : Nat) (o : Nat × Nat), s.launch? part lnum = some l0 →
      let l := s.asPlaced l0
      let w := s.updLaunch part lnum (fun _ => l)
      l.saved = [] → w.mayPlace l = true → l.nextUnit = some u → w.served part = some (m, v, i, o) → m.lnum = lnum → v = u →
      binds = ((w.bindsFor m v o).zip binds).map (fun p => { p.1 with slot := p.2.slot, valid := p.2.valid }) →
      (∀ b ∈ binds, b.slot < 8 ∧ s.blockAt? b.core b.slot = none) →
      ((∃ b ∈ binds, b.valid = false) → exec (.dispatchUnit part lnum binds) s = .next (s.writeBinds part lnum binds)) ∧
      ((∀ b ∈ binds, b.valid = true) →
        (l.stat ≠ .queued → exec (.dispatchUnit part lnum binds) s =
          .next (((binds.foldl (fun t b => t.startBlock l u b) w).placeUnit l u i o true).writeBinds part lnum binds)) ∧
        (l.stat = .queued → w.badPage l = none → exec (.dispatchUnit part lnum binds) s =
          .next (((binds.foldl (fun t b => t.startBlock l u b) ((w.firstDispatch l).traceLaunch { part := part, lnum := lnum, bl := 0 }
            ((binds.head?.map (·.core)).getD 0) 0x04)).placeUnit l u i o true).writeBinds part lnum binds)) ∧
        (l.stat = .queued → ∀ page, w.badPage l = some page → exec (.dispatchUnit part lnum binds) s = .next (w.refuseLate l page)))) ∧
    (∀ (b : Bind), ∃ r : BindRec, (s.writeBinds part lnum [b]).binds = s.binds.filter (fun r => !(r.core == b.core && r.slot == b.slot)) ++ [r] ∧
      r.part = part ∧ r.lnum = lnum ∧ r.bl = b.bl ∧ r.core = b.core ∧ r.slot = b.slot ∧ r.valid = b.valid ∧ (r.restore = true ↔ b.image ≠ 0) ∧
      r.role = b.role ∧ r.image = b.image ∧ r.seq = b.seq) ∧
    (∀ (l : Launch) (u : Nat) (b : Bind), ∃ k, (s.startBlock l u b).blocks = s.blocks ++ [k] ∧
      k.key = { part := l.part, lnum := l.lnum, bl := b.bl } ∧ k.core = b.core ∧ k.slot = b.slot ∧ k.scratch = [] ∧ k.absent = [] ∧
      k.b = [] ∧ k.bars = [] ∧ k.threads.length = l.d.threads ∧
      (∀ tl, tl < l.d.threads → ∃ t, k.thread? tl = some t ∧ t.pc = l.d.entry ∧ t.v = [] ∧ t.o = [] ∧ t.preds = 0 ∧ t.fpflags = 0 ∧
        t.rngctr = 0 ∧ (∀ n, t.acc n = Acc.zero) ∧ ∃ c ∈ (s.startBlock l u b).courses, t.stat = .course c.id ∧ c.core = b.core ∧
          c.lanes[tl % 32]? = some (some tl) ∧ c.stat = .ready ∧ c.chain = 0) ∧
      (l.d.tileent ≠ 0 → ∃ m, (s.startBlock l u b).mccs = s.mccs ++ [m] ∧ m.core = b.core ∧ m.pc = l.d.tileent ∧ m.x = [] ∧ m.stat = .running)) ∧
    (∀ (page : Nat) (t : State), s.snapCopy page = .ok t → (t.poolDry page = false ∨ page ∉ t.pagesWanted) → exec (.snapshotPageCopy page) s = .next t) ∧
    (∀ (page n : Nat), s.snapCopy page = .error n → page ∉ s.poolWait → exec (.snapshotPageCopy page) s =
      .next (({ s with poolWait := s.poolWait ++ [page] }).gutter { GRec.plate 0x0307 with addr := BitVec.ofNat 64 page })) ∧
    (∀ page, s.poolDry page = false → ∃ t : State, exec (.underlayPoolWaitEnd page) s = .next t.retryFw ∧ page ∉ t.poolWait ∧
      (∀ c ∈ t.courses, s.blockAt? c.core c.slot ≠ none → c.stat ≠ .pool page) ∧ (∀ m ∈ t.mccs, m.stat ≠ .pool page) ∧ t.mem = s.mem ∧ t.blocks = s.blocks ∧ t.fwWait = s.fwWait ∧
      (s.fwWait = [] → t.retryFw = t)) ∧
    (∀ (core slot : Nat) (b : Block) (l : Launch), s.blockAt? core slot = some b → s.launch? b.key.part b.key.lnum = some l →
      s.blockDone b = true →
      (l.d.determ = false → exec (.blockRetire core slot) s = .next ((s.retireBlock l b).retireLaunch l.part l.lnum core)) ∧
      (l.d.determ = true → (∀ c ∈ s.unitResident l (b.key.bl / l.d.unitSize), s.blockDone c = true) →
        b.key.bl / l.d.unitSize ∉ l.finished →
        exec (.blockRetire core slot) s = .next (((s.updLaunch l.part l.lnum (fun l => { l with finished := l.finished ++ [b.key.bl / l.d.unitSize] })
          ).retireRun l.part l.lnum (l.d.units + 1)).retireLaunch l.part l.lnum core))) ∧
    (∀ (l : Launch) (b : Block), (∀ c ∈ (s.retireBlock l b).blocks, c.key ≠ b.key) ∧
      (∀ c ∈ (s.retireBlock l b).courses, ¬(c.core = b.core ∧ c.slot = b.slot)) ∧ (∀ m ∈ (s.retireBlock l b).mccs, m.key ≠ b.key)) ∧
    (∀ (requester : Nat) (units images : List Nat) (r l : Launch) (a : List Nat), s.launch? part requester = some r →
      s.launch? part lnum = some l → l.stopping = none →
      s.stuck (s.asPlaced r) = true → (s.victimFor (s.asPlaced r)).map (·.lnum) = some lnum → a ∈ s.asksOf (s.asPlaced r) l →
      l.mayVacate units a = true → exec (.preemptVacate part lnum requester units images) s = .next { s.vacateIfQuiet l units images with
        vacated := (s.vacateIfQuiet l units images).vacated ++
          [(part, requester, (l.placed.filter (fun p => units.contains p.1)).flatMap (·.2))] }) ∧
    (∀ (requester : Nat) (units images : List Nat) (r l : Launch), s.launch? part requester = some r → s.launch? part lnum = some l →
      (l.stopping = some (units, images) → exec (.preemptVacate part lnum requester units images) s =
        .next (s.vacateIfQuiet l (units.filter (fun u => l.placed.any (fun p => p.1 == u))) (l.imagesOf units images))) ∧
      (l.stopping ≠ none → l.stopping ≠ some (units, images) → exec (.preemptVacate part lnum requester units images) s = .next s)) ∧
    -- units asked to vacate stop; with their blocks at rest, each is saved to the image of its place and leaves its core
    (∀ (l : Launch) (us images : List Nat), s.launch? part lnum = some l → us ≠ [] → us.Nodup → images.length = us.length * l.d.unitSize →
      (∀ a ∈ images, a ≠ 0 ∧ a % 64 = 0) →
      let t := ((us.flatMap (fun u => s.unitResident l u)).flatMap (·.agents)).foldl (fun t a => t.settle a) s
      let rest : Prop := l.gangsQuiet us = true ∧ ∀ u ∈ us, ∀ b ∈ t.unitResident l u, t.blockAtRest b = true
      let w := s.vacateIfQuiet l us images
      (¬rest → w = s.updLaunch part lnum (fun l => { l with stopping := some (us, images) })) ∧
      (rest → t.imageSnoops l us images = [] → 0 < l.d.unitSize →
        (∀ b ∈ w.blocks, ¬(b.key.part = part ∧ b.key.lnum = lnum ∧ b.key.bl / l.d.unitSize ∈ us)) ∧
        (∀ b, s.block? b.key = some b → b.key.part = part → b.key.lnum = lnum → b.key.bl / l.d.unitSize ∈ us →
          (∀ c ∈ w.courses, ¬(c.core = b.core ∧ c.slot = b.slot)) ∧ ∀ m ∈ w.mccs, m.key ≠ b.key) ∧
        ∃ m, w.launch? part lnum = some m ∧ m.stopping = none ∧ m.placed = l.placed.filter (fun p => !us.contains p.1) ∧
          m.images = l.images ++ images ∧ m.saved.map (fun v => (v.bl, v.image)) = l.saved.map (fun v => (v.bl, v.image)) ++
            ((us.flatMap (fun u => l.d.unitBlocks u)).zip images).filter (fun p => (s.block? ⟨part, lnum, p.1⟩).isSome))) ∧
    -- a saved block comes back at its place with what its image holds
    (∀ (l : Launch) (v : Saved) (u : Nat) (b : Bind), let rd := s.imageReader v.image
      let key : BKey := { part := l.part, lnum := l.lnum, bl := v.bl }
      let ts := (readThreads rd l.d s.events).1
      let k := restoredBlock s l v u b ts
      k.key = key ∧ k.core = b.core ∧ k.slot = b.slot ∧ k.unit = u ∧ k.role = b.role ∧ k.seq = b.seq ∧ k.pushes = [] ∧
      (∀ i, i < l.d.scratch → k.scratch.get i = BitVec.ofNat 8 (rd (rd 40 8 + i) 1)) ∧
      (∀ i, i < 32 → k.b.get i = BitVec.ofNat 32 (rd (rd 32 8 + 4 * i) 4)) ∧
      (∀ i, (∃ n, (i, n) ∈ k.absent) ↔ i < l.d.scratch / 128 ∧ (rd (rd 32 8 + 272 + i / 8) 1).testBit (i % 8) = false) ∧
      (∀ i, i ∈ k.poison ↔ i < l.d.scratch / 128 ∧ (rd (rd 32 8 + 272 + (l.d.scratch / 128 + 7) / 8 + i / 8) 1).testBit (i % 8) = true) ∧
      (∀ tl, tl < l.d.threads → (∀ t ∈ ts, t.t.tl ≠ tl) → ∃ q, k.thread? tl = some q ∧ q.stat = .exited) ∧
      (∀ t ∈ ts, t.t.tl < l.d.threads → (∀ q ∈ ts, q.t.tl = t.t.tl → q = t) → k.thread? t.t.tl = some t.t) ∧
      ((∀ m, (readMcc rd v b.core key (rd 48 8)).stat ≠ .sdc m) → (∀ m ∈ s.mccs, m.core ≠ b.core) →
        (s.restoreBlock l v u b).blocks.map (fun k => (k.key, k.core, k.slot)) =
          s.blocks.map (fun k => (k.key, k.core, k.slot)) ++ [(key, b.core, b.slot)])) ∧
    (∀ (agent : Nat) (units images : List Nat),
      ((s.reg 0x10).toNat % 16 ≠ agent → exec (.ownerPreemptCmd agent part lnum units images) s = .next (s.gutter (GRec.plate 0x0202))) ∧
      (∀ l, agent ≠ 0 → (s.reg 0x10).toNat % 16 = agent → s.launch? part lnum = some l → l.stat = .started → l.stopping = none → units ≠ [] →
        units.Nodup → (∀ u ∈ units, ∃ p ∈ l.placed, p.1 = u) → s.mayGiveUp l units = true → (l.mayVacate units units = true ∨ units = l.placed.map (·.1)) →
        exec (.ownerPreemptCmd agent part lnum units images) s = .next (s.vacateIfQuiet l units images))) ∧
    (∀ (bind : Bind) (l m : Launch) (u i : Nat) (o : Nat × Nat), s.launch? part lnum = some l → l.saved ≠ [] → bind.valid = true →
      s.served part = some (m, u, i, o) → m.lnum = lnum →
      let binds := (s.bindsFor l u o).map (fun b => if b.bl = bind.bl ∧ b.core = bind.core then { b with slot := bind.slot } else b)
      let vs := l.saved.filter (fun v => v.bl / l.d.unitSize == u)
      bind ∈ binds → bind.slot < 8 → s.blockAt? bind.core bind.slot = none → (∀ v ∈ vs, s.copyInto { part := part, lnum := lnum, bl := v.bl } = false ∧ s.imageLost l v = false ∧ s.imageCheck l v = 0) →
      let placed := s.placeUnit l u i o false
      let barrier : Option Barrier := if l.d.gangw = 0 then none else
        ((vs.find? (fun v => v.bl == u * l.d.unitSize)).orElse (fun _ => vs.head?)).map (fun v => s.gangBarrierOf v)
      let w : State := match barrier with
        | some g => if g.isOpen then placed.updLaunch part lnum (fun l => { l with gbars := aput l.gbars u g }) else placed
        | none => placed
      exec (.blockRestore part lnum bind) s = .next ((binds.foldl (fun t b =>
        match vs.find? (fun v => v.bl == b.bl) with
        | some v => t.restoreBlock l v u b
        | none => t) w).writeBinds part lnum (binds.filter (fun b => vs.any (fun v => v.bl == b.bl))))) ∧
    (∀ l : Launch, s.launch? part lnum = some l →
      let limit := if l.d.wdog = 0 then (s.preg part 0x18).toNat else l.d.wdog
      l.part = part → l.live = true → 12000 * limit < l.wdog12 → exec (.watchdog part lnum) s =
        .next ((s.gutter { GRec.plate 0x000D with flags := 1, part := part, lnum := BitVec.ofNat 32 lnum }).endFatal part lnum))

/-! ### The supervisor, errors, containment (19 R397 to R424; 21 R426 to R446) -/

/-- R398, R399, R408, R420 to R423, R491: the supervisor ends a launch for a fatal cause and raises a replayable one as a record that holds its
source; the ring takes a waiting record when there is room; a retry answer resumes the source, a fatal one ends its launch; GQHEAD is written
only where EXPECT is its value; GQBASE by its owner; a failed ring write makes the queue unusable until then. That a record which waits counts as
raised once it is written, and that records wait behind held FATAL ones, is the model's reading (log 51). -/
def Obligations.SupervisorAnswersCauses : Prop :=
  ∀ (s : State) (core course : Nat),
    (∀ (x : Ctx) (t : TrapInfo), course ≠ 0 → s.ctxOf core course = some x → x.c.stat = .trap t →
      (x.c.inHandler = true ∨ (t.replayable = false ∧ t.code ≠ 0x000B ∧ t.code ≠ 0x0101 ∧ t.code ≠ 0x000C) →
        exec (.supervisorTrapTake core course) s =
          .next ((s.gutter (trapRec x t t.code 1 .none)).endFatal x.b.key.part x.b.key.lnum)) ∧
      (t.replayable = true → x.c.inHandler = false → exec (.page core course) s =
        .next ((s.updCourse core course (fun c => { c with stat := .fault t none })).gutter (trapRec x t t.code 2 (.course core course)))) ∧
      (t.code = 0x000C → x.c.inHandler = false → s.attached x.b.key.part x.b.key.lnum = false →
        exec (.supervisorTrapTake core course) s =
          .next ((s.updCourse core course (fun c => { c with stat := .debug t })).debugContinue core course))) ∧
    (∀ (x : MCtx), s.mctx core = some x → x.m.stat = .fault none →
      (x.m.fault.cause ≠ 0x0004 → containedCause x.m.fault.cause = false → exec (.supervisorTrapTake core 0) s =
        .next ((s.gutter (mccRec x 1 .none)).endFatal x.b.key.part x.b.key.lnum)) ∧
      (x.m.fault.cause = 0x0004 → (∀ r ∈ s.gwait ++ s.gheld, r.by_ ≠ .mcc x.b.key) →
        exec (.page core 0) s = .next (s.gutter (mccRec x 2 (.mcc x.b.key))))) ∧
    (∀ (r : GRec) (rest : List GRec), s.gqUnusable = false → s.ringStop = none →
      (s.gheld = [] → s.gwait = r :: rest → s.gqUsed + 2 ≤ 4096 → exec .gutterRecordWaitEnd s = .next (({ s with gwait := rest }).gqWrite r)) ∧
      (s.gheld = r :: rest → s.gqUsed < 4096 → exec .gutterRecordWaitEnd s = .next (({ s with gheld := rest }).gqWrite r))) ∧
    -- a ring in host memory is free to write; one in device memory may have to wait for the host or for a shadow
    ((∀ a, s.physLoc ((gqBase s).toNat + 64 * ((gqTail s).toNat % 4096)) ≠ .dev a) → s.ringStop = none) ∧
    (∀ r : GRec, s.gqUnusable = false →
      (s.ringStop = none →
        (r.isFatal = true → s.gheld = [] → s.gqUsed < 4096 → s.gutter r = s.gqWrite r) ∧
        (r.isFatal = true → (s.gheld ≠ [] ∨ s.gqUsed = 4096 ∧ ∀ g ∈ s.gopen, g.seq ≠ gqHead s) → s.gheld.length < 256 →
          s.gutter r = { s with gheld := s.gheld ++ [r] }) ∧
        (r.isFatal = true → s.gheld = [] → s.gqUsed = 4096 → swf 0 s.regs = true → ∀ g, s.gopen.find? (fun g => g.seq == gqHead s) = some g →
          g.answered = false → ∃ w : State, s.gutter r = w.gqWrite r ∧ w = s.gqDropOne g ∧ gqHead w = gqHead s + 1 ∧ gqTail w = gqTail s ∧
            (w.reg 0x120).setWidth 32 = ((s.reg 0x120).setWidth 32 : W32) + 1) ∧
        (r.isFatal = false → s.gwait = [] → s.gheld = [] → s.gqUsed + 2 ≤ 4096 → s.gutter r = s.gqWrite r)) ∧
      (r.isFatal = false → (4096 < s.gqUsed + 2 ∨ s.gwait ≠ [] ∨ s.gheld ≠ []) → s.gutter r = { s with gwait := s.gwait ++ [r] }) ∧
      (s.ringStop ≠ none → (s.gutter r).regs = s.regs ∧ (r.isFatal = true → s.gheld.length < 256 → (s.gutter r).gheld = s.gheld ++ [r]) ∧
        (r.isFatal = false → (s.gutter r).gwait = s.gwait ++ [r]))) ∧
    (∀ r : GRec, s.gqUnusable = true → (r.isFatal = false → s.gutter r = { s with gwait := s.gwait ++ [r] }) ∧
      (r.isFatal = true → s.gheld.length < 256 → s.gutter r = { s with gheld := s.gheld ++ [r] }) ∧
      (r.isFatal = true → 256 ≤ s.gheld.length →
        s.gutter r = s.setReg 0x120 ((((s.reg 0x120).setWidth 32 : W32) + 1).setWidth 64))) ∧
    (∀ (seq : W32) (g : GOpen), s.gopen.find? (fun g => g.seq == seq && !g.answered) = some g →
      let w : State := { s with gopen := s.gopen.map (fun g => if g.seq == seq then { g with answered := true } else g) }
      exec (.gqackRetry seq) s = .next ((w.retrySrc g.by_).gqForget) ∧
      (s.fatalSource g.by_ = none → exec (.gqackFatal seq) s = .next w.gqForget) ∧
      (∀ r p n, s.fatalSource g.by_ = some (r, p, n) → exec (.gqackFatal seq) s = .next (((w.gutter r).endFatal p n).gqForget))) ∧
    (∀ (id : Nat) (c : Course) (t : TrapInfo) (f : Frame) (k : Option W32), s.course? core id = some c → c.stat = .fault t k →
      c.frame = some f → ∃ d, (s.retrySrc (.course core id)).course? core id = some d ∧
        d = { c with stat := .ready, latches := f.latches, chain := f.chain, frame := none, quad := none }) ∧
    (∀ (agent : Nat) (expect new : W32), 1 ≤ agent → agent ≤ 4 →
      (gqHead s = expect → exec (.gqhead agent expect new) s = .next ((s.setReg 0x110 (new.setWidth 64)).gqForget)) ∧
      (gqHead s ≠ expect → exec (.gqhead agent expect new) s = .next s)) ∧
    (∀ (agent : Nat) (addr : W64),
      ((s.reg 0x10).toNat % 16 ≠ agent → exec (.gqbase agent addr) s = .next (s.gutter (GRec.plate 0x0202))) ∧
      (agent ≠ 0 → (s.reg 0x10).toNat % 16 = agent → addr.toNat % 2 ^ 18 ≠ 0 → exec (.gqbase agent addr) s =
        .next (s.gutter { GRec.plate 0x0204 with addr := 0x100, aux2 := addr.setWidth 32 })) ∧
      (agent ≠ 0 → (s.reg 0x10).toNat % 16 = agent → addr.toNat % 2 ^ 18 = 0 → exec (.gqbase agent addr) s =
        .next (State.writeHeld { (s.setReg 0x100 addr) with gqBroken := false }))) ∧
    (s.gqUnusable = false → exec .gqRingWriteFail s = .next (({ s with gqBroken := true }).bankError unitLink true 2 (gqBase s) 0 false))

/-- R426 to R428, R430 to R432, R434, R435, R437, R445, R446: an error is recorded in its bank as R427 says and marks what it touched; the owner's
clearing read empties the bank into its buffer; a vote ends as decided; a raised cause contains its launch; scores halve, a core at 32 is
quarantined while idle; a die resets and returns; durable stores are accepted and drain in order; scans fail cores, and spares replace them. That the
record of a quarantine carries the score in AUX2 is the model's reading (log 54). -/
def Obligations.ErrorsAreRecordedAndContained : Prop :=
  ∀ (s : State),
    (∀ (b : Bank) (uc p : Bool) (kind : BitVec 3) (addr synd : W64) (ns : Nat),
      let r := b.record uc kind addr synd ns p
      let fields : Bank → Prop := fun k => k.kind = kind ∧ k.addr = addr ∧ k.synd = synd ∧ k.time = BitVec.ofNat 64 ns
      let kept : Prop := r.kind = b.kind ∧ r.addr = b.addr ∧ r.synd = b.synd ∧ r.time = b.time
      r.valid = (b.valid || true) ∧ r.unit = b.unit ∧ r.buf = b.buf ∧
      (b.valid = false → fields r ∧ r.count = 1 ∧ r.uc = uc ∧ r.ovf = false) ∧
      (b.valid = true → r.count = min 65535 (b.count + 1)) ∧
      (b.valid = true → b.uc = false → uc = false → kept ∧ r.uc = false ∧ r.ovf = b.ovf) ∧
      (b.valid = true → b.uc = false → uc = true → fields r ∧ r.uc = true) ∧
      (b.valid = true → b.uc = true → uc = false → kept ∧ r.uc = true ∧ r.ovf = b.ovf) ∧
      (b.valid = true → b.uc = true → uc = true → kept ∧ r.uc = true ∧ r.ovf = true)) ∧
    (∀ e : Sys2Proof.ErrInfo, coreUnit e.unit = none →
      exec (.errorDetect e) s = .next (if e.uc then (s.bankError e.unit true e.kind e.addr e.synd (marksData e.site)).markSite e.site
        else s.bankError e.unit false e.kind e.addr e.synd false)) ∧
    (∀ (e : Sys2Proof.ErrInfo) (p c : Nat), coreUnit e.unit = some p →
      let w := (if e.uc then (s.bankError e.unit true e.kind e.addr e.synd (marksData e.site)).markSite e.site
        else s.bankError e.unit false e.kind e.addr e.synd false).scoreError e p
      (w.logicalCore p = some c → exec (.errorDetect e) s = .next (w.quarantineNow c 0)) ∧
      (w.logicalCore p = none → exec (.errorDetect e) s = .next w)) ∧
    (∀ (agent : Nat) (unit : BitVec 16),
      (agent ≠ 0 → (s.reg 0x10).toNat % 16 = agent → ∃ t b, exec (.bankClearRead agent unit) s = .next t ∧ t.bank unit = b ∧
        b.valid = false ∧ b.uc = false ∧ b.ovf = false ∧ b.poisoned = false ∧ b.count = 0 ∧ b.buf = (s.bank unit).bytes) ∧
      ((s.reg 0x10).toNat % 16 ≠ agent → exec (.bankClearRead agent unit) s = .next s)) ∧
    (∀ (core vc : Nat) (pass : Bool),
      (s.canVote core vc = true → exec (.trelvyVote core vc pass) s = .next (s.endVote core (some vc) pass)) ∧
      (∀ w, s.votes.find? (fun w => w.core == core) = some w → w.since + 50000 ≤ s.ns → (∀ c, c < 768 → s.canVote core c = false) →
        exec (.voteTimeout core w.since) s = .next (s.endVote core none true))) ∧
    (∀ w : VoteSt, w.decision false = .undecided ∧ (w.decision true = .arrayWrong ↔ w.arrayBad = true) ∧
      (w.decision true = .checksumWrong ↔ w.arrayBad = false)) ∧
    -- a decided vote drains the exact product and scores the core; an undecided one contains the launch
    (∀ (core : Nat) (other : Option Nat) (x : MCtx) (v : VoteSt) (pass : Bool), s.mctx core = some x →
      s.votes.find? (fun w => w.core == core) = some v → x.m.stat = .vote → s.scoreOf core < 56 →
      (∀ vc, other = some vc → s.physCore vc ≠ s.physCore core) →
      let w := s.endVote core other pass
      let n : Nat := if pass ∧ v.arrayBad then 8 else 4
      (∀ q ∈ w.votes, q.core ≠ core) ∧ w.scoreOf core = s.scoreOf core + n ∧
      (pass = true → s.mccs.filter (fun c => c.core == core) = [x.m] → 0 < v.op.m.side → v.op.row0 + v.op.m.side ≤ 32 →
        v.op.col0 + v.op.m.side ≤ 32 → ∃ c, w.mcc? core = some c ∧ c.staging = x.m.staging.drop 1 ∧ c.drained = x.m.drained + 1 ∧
          c.stat ≠ .vote ∧ (∀ i j, i < 32 → j < 32 → cellOf (c.tile v.op.t) i j =
            if v.op.row0 ≤ i ∧ i < v.op.row0 + v.op.m.side ∧ v.op.col0 ≤ j ∧ j < v.op.col0 + v.op.m.side then
              v.op.addCell (i - v.op.row0) (j - v.op.col0) (cellOf (x.m.tile v.op.t) i j)
            else cellOf (x.m.tile v.op.t) i j)) ∧
      (pass = false → x.l.stat = .started → (∀ c ∈ w.mccs, c.key ≠ x.b.key) ∧
        ∀ vc, other = some vc → s.scoreOf vc < 60 → w.scoreOf vc = s.scoreOf vc + 4)) ∧
    -- a contained launch has no block left; without snapshots or a point it returns to the head of its queue, to start anew
    (∀ (part lnum : Nat) (cause : BitVec 16) (l : Launch), s.launch? part lnum = some l → l.stat = .started →
      let w := s.contain part lnum cause
      (∀ b ∈ w.blocks, ¬(b.key.part = part ∧ b.key.lnum = lnum)) ∧ (∀ m ∈ w.mccs, ¬(m.key.part = part ∧ m.key.lnum = lnum)) ∧
      (∀ c ∈ w.copies, ¬(c.key.part = part ∧ c.key.lnum = lnum)) ∧
      (∀ q, s.part? part = some q → q.rpc = 0 → (∀ u ∈ s.und, u.snapOf ≠ some (part, lnum)) → l.contained < max 1 (s.preg part 0x10).toNat →
        ∃ m, w.launch? part lnum = some m ∧ m.stat = .queued ∧ m.contained = l.contained + 1 ∧ m.next = 0 ∧ m.saved = [] ∧ m.placed = [] ∧
          m.retired = [] ∧ ∃ r, w.part? part = some r ∧ ((aget? r.queues l.queue).getD []).head? = some lnum)) ∧
    (∀ (part lnum : Nat), let w := s.restoreSnapshot part lnum
      (∀ u ∈ w.und, u.snapOf ≠ some (part, lnum)) ∧
      ((s.und.map (·.base)).Nodup → ∀ u ∈ s.und, u.snapOf = some (part, lnum) → ∀ f, u.snap = some f →
        { u.setLive f with snapOf := none, snap := none } ∈ w.und)) ∧
    (∀ (part lnum : Nat) (cause : BitVec 16),
      (s.raised part lnum cause.toNat = true → exec (.containment part lnum cause) s = .next (s.contain part lnum cause)) ∧
      (∀ l, s.raised part lnum cause.toNat = false → s.launch? part lnum = some l → cause.toNat = cPoison → s.firmwarePoison l = true →
        exec (.containment part lnum cause) s = .next (s.endPoisoned part lnum))) ∧
    (s.halved < s.ns / 86400000000000 → ∃ t, exec .suspectHalve s = .next t ∧ t.halved = s.halved + 1 ∧ t.blocks = s.blocks ∧ t.mem = s.mem ∧
      (swf 0 s.scores = true → ∀ c, (t.scores.get c).toNat = (s.scores.get c).toNat / 2)) ∧
    (∀ core, 32 ≤ s.scoreOf core → core ∉ s.quarantine → core ∉ s.degraded → s.coreIdle core = true →
      exec (.quarantineIdle core) s = .next (({ s with quarantine := s.quarantine ++ [core] }).gutter
        { GRec.plate 0x0304 with core := core, aux2 := BitVec.ofNat 32 (s.scoreOf core) })) ∧
    -- a reset die loses what it held alone, its modified and partial lines are marked, and the launches of its partitions are contained
    (∀ die, die < 4 → let u := (s.loseDie die).markReset die
      let onDie : Nat → Prop := fun p => p < 8 ∧ ∃ c, c < 768 ∧ dieOf c = die ∧ s.coreIn p c = true
      (∀ p ∈ u.pend, dieOf p.core ≠ die) ∧ (∀ w ∈ u.l1, dieOf w.core ≠ die) ∧ (∀ h ∈ u.hostLines, h.2.1 ≠ die) ∧
      (∀ q ∈ u.partitions, ∀ x ∈ q.xlat, die ∉ x.dies) ∧ (∀ p ∈ u.parts, p.die ≠ die) ∧ (∀ p ∈ s.parts, p.die = die → p.line ∈ u.poison) ∧
      (∀ d ∈ s.dirty, s.parts = [] → (d.2 = die ∨ (Config.homeDie d.1).val = die) → s.durableLine d.1 = false → d.1 ∈ u.poison) ∧
      (∃ (hit : List (Nat × Nat)) (ps : List Nat), s.resetDie die =
          ({ u with diesOut := insertNew u.diesOut die, dieCycle := aput u.dieCycle die u.cycle }).containMany hit 0 (BitVec.ofNat 32 die) ps ∧
        (∀ p, p ∈ ps ↔ onDie p) ∧ (∀ k, k ∈ hit ↔ ∃ l ∈ u.launches, (l.part, l.lnum) = k ∧ onDie l.part ∧ (l.stat = .started ∨ l.stat = .held))) ∧
      die ∈ (s.resetDie die).diesOut) ∧
    (∀ die, exec (.dieReset die) s = .next (s.resetDie die) ∧
      (die ∈ s.diesOut → ∃ t, exec (.dieReturnToService die) s = .next t ∧ die ∉ t.diesOut ∧ t.blocks = s.blocks ∧ t.mem = s.mem)) ∧
    (∀ (d : DurStore) (rest : List DurStore), s.durp = d :: rest → s.eave.length < eaveLines →
      ∃ t, exec .eaveAccept s = .next t ∧ t.durp = rest ∧ t.mem = s.mem ∧ t.eave = acceptInto s.eave s.mem d) ∧
    (∀ (l : Nat) (bs : List Byte) (rest : List (Nat × List Byte)), s.eave = (l, bs) :: rest →
      ∃ t, exec .eaveDrain s = .next t ∧ t.eave = rest ∧ t.mem = s.mem.write (128 * l) bs ∧ t.durp = s.durp ∧ t.blocks = s.blocks) ∧
    (∀ core, core < 768 → s.coreIdle core = true → dieOf core ∉ s.diesOut →
      (core ∉ s.scanning → ∀ pass, exec (.infieldScan core pass) s = .next { s with scanning := s.scanning ++ [core] }) ∧
      (core ∈ s.scanning → exec (.infieldScan core true) s =
        .next { s with scanning := s.scanning.filter (· != core), scanned := aput s.scanned core s.ns }) ∧
      (core ∈ s.scanning → ∃ t, exec (.infieldScan core false) s = .next t ∧ core ∈ t.repairs ∧ core ∉ t.scanning)) ∧
    (∀ core, exec (.scanAbort core) s = .next { s with scanning := s.scanning.filter (· != core) }) ∧
    (∀ core, (core ∈ s.quarantine ∨ core ∈ s.repairs) → s.coreIdle core = true → core ∉ s.degraded →
      (∀ k, s.nextSpare (dieOf core) = some k → k < 16 ∧ 208 * dieOf core + 192 + k ∉ s.badCores ∧
        ∃ t, exec (.spareRepair core) s = .next t ∧ core ∉ t.quarantine ∧ core ∉ t.repairs ∧
          t.physCore core = 208 * dieOf core + 192 + k ∧ aget? t.spares (dieOf core) = some (k + 1)) ∧
      (s.nextSpare (dieOf core) = none → ∃ t, exec (.spareRepair core) s = .next t ∧ core ∈ t.degraded ∧ core ∉ t.repairs))

/-! ### Translation, lines, and the links (19 R417 to R419; 06 R139 to R147; 23 R451 to R462) -/

/-- R419, R436, R437, R488: a page walk notes the leaf it finds; the owner's invalidation is queued, another agent's is refused; its completion removes the
translations that it covers; a line that a cache holds modified is written back, and where power goes what caches alone held is lost, with the rest of
memory as it was. -/
def Obligations.TranslationsAndLines : Prop :=
  ∀ (s : State),
    (∀ (part va : Nat), exec (.pageWalk part va) s = .next (s.noteLeaf part (s.xlate part (vaBits va)) [0, 1, 2, 3, 4]) ∧
      (∀ e b size pa q, s.xlate part (vaBits va) = .leaf e b size pa → 0 < size → s.part? part = some q →
        ∃ t w, exec (.pageWalk part va) s = .next t ∧ (s.parts = [] → t.mem = s.mem) ∧ t.part? part = some w ∧ (∀ x ∈ q.xlat, x ∈ w.xlat) ∧
          ∀ d, d < 5 → ∃ x ∈ w.xlat, d ∈ x.dies ∧ x.va ≤ b ∧ b < x.va + x.size)) ∧
    (∀ (agent part va : Nat),
      (agent ≠ 0 → (s.reg 0x10).toNat % 16 = agent →
        exec (.tlbinvAll agent part) s = .next { s with tlbinv := s.tlbinv ++ [(part % 8, none)] } ∧
        exec (.tlbinvPage agent part va) s = .next { s with tlbinv := s.tlbinv ++ [(part % 8, some (vaBits va / 4096 * 4096))] }) ∧
      ((s.reg 0x10).toNat % 16 ≠ agent → exec (.tlbinvAll agent part) s = .next (s.gutter (GRec.plate 0x0202)) ∧
        exec (.tlbinvPage agent part va) s = .next (s.gutter (GRec.plate 0x0202)))) ∧
    (∀ (p : Nat) (va : Option Nat) (rest : List (Nat × Option Nat)) (q : Partition), s.tlbinv = (p, va) :: rest → s.part? p = some q →
      (∀ u ∈ s.und, u.durable = false) →
      ∃ t w, exec .tlbinvComplete s = .next t ∧ t.tlbinv = rest ∧ t.part? p = some w ∧ t.mem = s.mem ∧
        ∀ x, x ∈ w.xlat ↔ x ∈ q.xlat ∧ ∃ v, va = some v ∧ ¬(x.va ≤ v ∧ v < x.va + x.size)) ∧
    (∀ line, ∃ t, exec (.lineWriteBack line) s = .next t ∧ t.mem = s.mem ∧ t.blocks = s.blocks ∧ t.dirty = s.dirty.filter (fun d => d.1 != line)) ∧
    (∃ t, exec .platePowerLoss s = .next t ∧ t.power = false ∧ t.eave = [] ∧ t.durp = [] ∧ t.blocks = [] ∧ t.courses = [] ∧ t.launches = [] ∧
      t.pend = [] ∧ t.copies = [] ∧ t.mccs = [] ∧ t.dirty = [] ∧ t.parts = [] ∧ t.hostLines = [] ∧
      (s.mem.wf = true → ∀ a, (∀ d ∈ s.dirty, d.1 ≠ a / 128) → (∀ p ∈ s.parts, p.line ≠ a / 128) → t.mem.get a = s.mem.get a))

namespace Sys2Proof.Claims

/-- The host caches none of the lines of `n` bytes, and no write from outside waits. -/
def linkFree (s : State) (a n : Nat) : Prop := s.linkWait = [] ∧ ∀ l ∈ linesAt a n, l ∉ s.hdmHost

/-- Bytes of plain device memory: of no page of the underlay table, of no accumulator partial, unmarked. -/
def plainDev (s : State) (a n : Nat) : Prop :=
  s.und = [] ∧ s.durp = [] ∧ s.eave = [] ∧ s.parts = [] ∧ s.poison = [] ∧ a + n ≤ devEnd ∧ 0 < n

end Sys2Proof.Claims

/-- R451, R453, R454, R457 to R462: reads by the host and by peers answer the bytes of device memory and change none, writes store theirs, an
access outside what is installed or exposed gets its error; a peer's atomic answers the old value and leaves the operation's; an accumulator
atomic adds its payload; a snoop is answered; a response completes its request, and so does a timeout, with poisoned data; a poison mark marks its
line, and what waited behind it follows; the topology table is written and announced. Where installed memory ends, that poisoned host data marks each
line that it touches, and that a topology update is one event, are the model's readings (log 36). -/
def Sys2Proof.Claims.LinkRequestsAreServed : Prop :=
  ∀ (s : State),
    (∀ (a n : Nat), s.hdmBad a n = false → plainDev s a n → ∃ t, exec (.hostHdmRead a n) s = .next t ∧ t.mem = s.mem ∧ t.blocks = s.blocks ∧
      t.out = s.out ++ [.hostData (s.mem.read a n) false] ∧ (∀ l, l ∈ t.hdmHost ↔ l ∈ s.hdmHost ∨ l ∈ linesAt a n)) ∧
    (∀ (a n : Nat), s.hdmBad a n = true → ∀ bs : List Byte, bs.length = n →
      exec (.hostHdmRead a n) s = .next (s.send .hostUr) ∧ ∀ bad, exec (.hostHdmWrite a ⟨bs, bad⟩) s = .next (s.send .hostUr)) ∧
    (∀ (a : Nat) (bs : List Byte) (bad : Bool), s.mem.wf = true → s.hdmBad a bs.length = false → plainDev s a bs.length → s.linkWait = [] →
      ∃ t, exec (.hostHdmWrite a ⟨bs, bad⟩) s = .next t ∧ t.linkWait = [] ∧ t.blocks = s.blocks ∧ .hostDone ∈ t.out ∧
        (∀ l, l ∈ t.poison ↔ bad = true ∧ l ∈ linesAt a bs.length) ∧
        ∀ b, t.mem.get b = if a ≤ b ∧ b < a + bs.length then bs.getD (b - a) 0 else s.mem.get b) ∧
    (∀ (peer a n : Nat), n ≤ 256 → plainDev s a n → ∃ t, exec (.peerReadRequest peer a n) s = .next t ∧ t.mem = s.mem ∧ t.blocks = s.blocks ∧
      t.out = s.out ++ [.peerData peer (s.mem.read a n) false]) ∧
    (∀ (peer a : Nat) (bs : List Byte), s.mem.wf = true → bs.length ≤ 256 → plainDev s a bs.length → linkFree s a bs.length →
      ∃ t, exec (.peerWriteRequest peer a bs) s = .next t ∧ t.linkWait = [] ∧ t.blocks = s.blocks ∧ .peerAck peer ∈ t.out ∧
        ∀ b, t.mem.get b = if a ≤ b ∧ b < a + bs.length then bs.getD (b - a) 0 else s.mem.get b) ∧
    (∀ (peer a n : Nat), devEnd < a + n ∨ n = 0 ∨ 256 < n → ∀ bs : List Byte, bs.length = n →
      exec (.peerReadRequest peer a n) s = .next (s.send (.peerErr peer)) ∧
      exec (.peerWriteRequest peer a bs) s = .next (s.send (.peerErr peer))) ∧
    (∀ (peer a : Nat) (op : AOp) (u w64 : Bool) (x : W64) (cmp : Option W64),
      let n := if w64 then 8 else 4
      s.mem.wf = true → a % n = 0 → plainDev s a n → linkFree s a n →
      let old := leNat (s.mem.read a n)
      ∃ t, exec (.peerAtomicRequest peer op u w64 a ⟨x, cmp⟩) s = .next t ∧ t.blocks = s.blocks ∧
        .peerData peer (s.mem.read a n) false ∈ t.out ∧
        (cmp = none → leNat (t.mem.read a n) = atomicNew op u (8 * n) old (x.toNat % 2 ^ (8 * n))) ∧
        (∀ c, cmp = some c → leNat (t.mem.read a n) = if old = c.toNat % 2 ^ (8 * n) then x.toNat % 2 ^ (8 * n) else old) ∧
        ∀ b, b < a ∨ a + n ≤ b → t.mem.get b = s.mem.get b) ∧
    (∀ (peer a : Nat) (payload : List Byte), payload.length ≤ 96 → s.mem.wf = true → plainDev s (a / 128 * 128) 128 →
      linkFree s (a / 128 * 128) 128 →
      ∃ t, exec (.accumulatorAtomic peer a payload) s = .next t ∧ t.blocks = s.blocks ∧ .peerAck peer ∈ t.out ∧
        Acc.ofLine (t.mem.read (a / 128 * 128) 128) =
          (Acc.ofLine (s.mem.read (a / 128 * 128) 128)).plus (Acc.ofRecord payload) true ∧
        ∀ b, b < a / 128 * 128 ∨ a / 128 * 128 + 128 ≤ b → t.mem.get b = s.mem.get b) ∧
    (∀ (line : Nat) (inv : Bool), ∃ t, exec (.hostSnoop line inv) s = .next t ∧ t.mem = s.mem ∧ (inv = false → t.host = s.host) ∧
      (∀ e ∈ t.hostLines, e.1 = line → inv = false ∧ e.2.2 = .s) ∧
      ((∀ e ∈ s.hostLines, e.1 = line → e.2.2 ≠ .m) → t.out = s.out ++ [.hostDone]) ∧
      ((∃ e ∈ s.hostLines, e.1 = line ∧ e.2.2 = .m) →
        t.out = s.out ++ [.hostData (s.bytesAt (.host (64 * line)) 64) (s.poisonAt (.host (64 * line)))])) ∧
    (∀ line, line ∈ s.bisnp → exec (.bisnpResponse line) s =
      .next ({ s with bisnp := s.bisnp.filter (· != line), hdmHost := s.hdmHost.filter (· != line) }).retryFw.retryRollbacks) ∧
    -- with no route to its peer a request waits unsent, and completes with an error at once
    (∀ (peer a : Nat) (op : ReqOp) (by_ : Option ReqBy), s.reachable peer = false → ∃ r, (s.request peer a op by_).reqs = s.reqs ++ [r] ∧
      (s.request peer a op by_).out = s.out ∧ r.peer = peer ∧ r.addr = a ∧ r.op = op ∧ (s.request peer a op by_).timedOut r = true) ∧
    (∀ (id : Nat) (r : PeerReq) (data : List Byte), s.reqs.find? (fun r => r.id == id) = some r →
      exec (.peerResponse id data) s = .next (({ s with reqs := s.reqs.filter (fun q => q.id != id) }).completeReq r
        ((data ++ zeros (ReqOp.answer r.op)).take (ReqOp.answer r.op)) false) ∧
      (let w := ({ s with reqs := s.reqs.filter (fun q => q.id != id) }).linkError r.peer (2 ^ 49 + r.peer % 1024 * 2 ^ 39 + r.addr)
       ((∃ n, r.op = .read n) ∨ r.op = .poisonMark → exec (.ualinkTimeout id) s = .next (w.completeReq r (zeros (ReqOp.answer r.op)) true)) ∧
       ((∀ n, r.op ≠ .read n) → r.op ≠ .poisonMark →
         exec (.ualinkTimeout id) s = .next ((w.noteLost r.peer (r.addr / 128)).completeReq r (zeros (ReqOp.answer r.op)) true)))) ∧
    (∀ (core id : Nat) (c : Course) (r : PeerReq) (data : List Byte) (bad : Bool) (left : List Nat), r.by_ = some (.course core id) →
      s.course? core id = some c → c.stat = .peer (r.id :: left) → r.id ∉ left →
      ∃ d, (s.completeReq r data bad).course? core id = some d ∧ d.stat = (if left = [] then .ready else .peer left) ∧
        { req := r.id, loc := .peer r.peer r.addr, data := data, bad := bad } ∈ d.resp) ∧
    (∀ (peer a : Nat), a < devEnd → s.und = [] → s.parts = [] →
      ∃ t, exec (.poisonMarkRequest peer ⟨true, a⟩) s = .next t ∧ t.mem = s.mem ∧ ∀ l, l ∈ t.poison ↔ l ∈ s.poison ∨ l = a / 128) ∧
    (∀ (peer a : Nat), (peer, a / 128) ∈ s.lost → s.reachable peer = true →
      exec (.poisonMarkRequest peer ⟨false, a⟩) s = .next
        ((({ s with lost := s.lost.filter (fun e => decide (e ≠ (peer, a / 128))) }).request peer (a / 128 * 128) .poisonMark none).sendHeld peer
          (a / 128))) ∧
    (∀ (e₀ : Nat × W64) (r : List (Nat × W64)), let es := e₀ :: r
      (es.map (·.1)).Nodup → ∃ t, exec (.topologyUpdate e₀ r) s = .next t ∧ t.out = s.out ++ [.msix 4] ∧ t.mem = s.mem ∧
      (∀ e ∈ es, e.1 < 1024 → aget? t.topo e.1 = some (e.2 &&& 0xFFFFFFFFFFFFFF0F)) ∧
      ∀ peer, peer ∉ es.map (·.1) → aget? t.topo peer = aget? s.topo peer)

/-- R456: the SPDM requester is answered in the order version, capabilities, algorithms, then digests, certificates, challenges, measurements
and a session; measurement 0 asks for their number, 0xFF for all six. The order, and the codes and payloads that the spec leaves to SPDM, are the
model's (log 16). -/
def Sys2Proof.Claims.AttestationAnswers : Prop :=
  ∀ (s : State),
    let answers : Instr → (Spdm → Spdm) → Prop := fun i f => ∃ t code payload, exec i s = .next t ∧ t.spdm = f s.spdm ∧
      t.out = s.out ++ [.spdm code payload] ∧ code ≠ 0x7F ∧ t.mem = s.mem ∧ t.blocks = s.blocks ∧ t.measured = s.measured
    answers .spdmGetVersion (fun _ => { version := true, caps := false, algs := false, keyex := false, session := false }) ∧
    (s.spdm.version = true → answers .spdmGetCapabilities (fun p => { p with caps := true })) ∧
    (s.spdm.caps = true → answers .spdmNegotiateAlgorithms (fun p => { p with algs := true })) ∧
    (s.spdm.algs = true → answers .spdmGetDigests id ∧ answers .spdmKeyExchange (fun p => { p with keyex := true }) ∧
      ∀ slot, slot ≤ 1 → answers (.spdmGetCertificate slot) id ∧ answers (.spdmChallenge slot) id) ∧
    (s.spdm.keyex = true → answers .spdmFinish (fun p => { p with keyex := false, session := true })) ∧
    (s.spdm.session = true → answers .spdmEndSession (fun p => { p with session := false })) ∧
    (s.spdm.algs = true → ∀ i, i ≤ 6 ∨ i = 0xFF → ∃ t payload, exec (.spdmGetMeasurements i) s = .next t ∧
      t.out = s.out ++ [.spdm 0x60 payload] ∧ t.spdm = s.spdm ∧
      payload = (if i = 0 then [6] else (if i = 0xFF then [1, 2, 3, 4, 5, 6] else [i]).flatMap (fun k => BitVec.ofNat 8 k :: s.measure k))) ∧
    (s.spdm.algs = false → ∀ i, ∃ t, exec (.spdmGetMeasurements i) s = .next t ∧ t.out = s.out ++ [.spdm 0x7F []] ∧ t.spdm = s.spdm)

/-- R448 to R463: the link, its peers, and the SPDM requester. -/
def Obligations.LinkAndAttestation : Prop := Sys2Proof.Claims.LinkRequestsAreServed ∧ Sys2Proof.Claims.AttestationAnswers

/-! ### Ownership, starts, islands, registers (19 R397; 25 R479 to R491) -/

/-- R397, R452, R490: a write of CLAIM succeeds where OWNER is EXPECT and the writer owns the device, or claims it for itself while nobody
does: OWNER then holds the new ID and the next epoch; a loss of the owner's link releases it. A register write of another agent changes nothing
but the gutter queue, a bad value is refused with a record, and a good one is stored. -/
def Obligations.OwnershipIsClaimed : Prop :=
  ∀ (s : State), swf 0 s.regs = true →
    let own : State → Nat := fun t => (t.reg 0x10).toNat
    (∀ (i : Instr) (agent : Nat) (expect : W32) (newid : Nat), 1 ≤ agent → agent ≤ 4 → newid < 16 → own s < 2 ^ 32 →
      (i = .claim agent expect (BitVec.ofNat 4 newid) ∨ i = .ownerHandover agent expect (BitVec.ofNat 4 newid) ∨
        (i = .ownerRelease agent expect ∧ newid = 0)) →
      let ok : Prop := own s = expect.toNat ∧ (own s % 16 = agent ∨ (own s % 16 = 0 ∧ newid = agent))
      ∃ t, exec i s = .next t ∧ t.mem = s.mem ∧ t.blocks = s.blocks ∧ (aget? t.claims agent = some true ↔ ok) ∧
        (ok → own t = newid + 16 * ((own s / 16 + 1) % 2 ^ 28) ∧ .msix 3 ∈ t.out) ∧ (¬ok → own t = own s)) ∧
    (own s < 2 ^ 32 → own s % 16 ≠ 0 → ∃ t, exec .ownerLinkDrop s = .next t ∧ own t = 16 * ((own s / 16 + 1) % 2 ^ 28) ∧ t.mem = s.mem) ∧
    (∀ (agent off : Nat) (x : W64),
      (off ≠ 0x1800 → s.regWrite off x ≠ .none → own s % 16 ≠ agent →
        exec (.registerWrite agent off x) s = .next (s.gutter (GRec.plate 0x0202))) ∧
      (off ≠ 0x1800 → agent ≠ 0 → own s % 16 = agent → s.regWrite off x = .keep → exec (.registerWrite agent off x) s = .next s) ∧
      (off ≠ 0x1800 → agent ≠ 0 → own s % 16 = agent → s.regWrite off x = .bad → exec (.registerWrite agent off x) s =
        .next (s.gutter { GRec.plate 0x0204 with addr := BitVec.ofNat 64 off, aux2 := x.setWidth 32 })) ∧
      (∀ y, off ≠ 0x1800 → agent ≠ 0 → own s % 16 = agent → s.regWrite off x = .put y → ∃ t, exec (.registerWrite agent off x) s = .next t ∧
        t.reg off = y ∧ (∀ o, o ≠ off → t.reg o = s.reg o) ∧ t.mem = s.mem ∧ t.blocks = s.blocks) ∧
      (1 ≤ agent → agent ≤ 4 → exec (.registerWrite agent 0x1800 x) s = .next (s.setReg 0x1800 x))) ∧
    (∀ (p : Nat) (x : W64), p < 8 →
      (s.regWrite (0x3000 + 0x100 * p + 0x08) x = .bad ↔ x.toNat % 4096 ≠ 0 ∨ (x ≠ s.reg (0x3000 + 0x100 * p + 0x08) ∧ ∃ b ∈ s.blocks, b.key.part = p)) ∧
      (s.regWrite (0x3000 + 0x100 * p + 0x10) x = .bad ↔ x.toNat % 256 = 0) ∧
      (s.regWrite (0x3000 + 0x100 * p + 0x28) x = .bad ↔ x.toNat % 32 ≠ 0))

/-- R478 to R484: a start that fails at no step leaves the device READY with nothing running, a cold one with HBM empty and no owner, a warm
one with the next epoch, its configuration kept and its recovery points scanned; one that fails names its step; a verification answers whether the
image may load; a compare of the manifest is busy until it reports, and reports an agreement as 0. That a cold start keeps SELF and clears banks and
quarantine is the model's reading (log 34). -/
def Sys2Proof.Claims.StartsAndVerification : Prop :=
  ∀ (s : State) (c : StartCheck), swf 0 s.regs = true →
    let started : State → Prop := fun t => t.blocks = [] ∧ t.courses = [] ∧ t.bins = [] ∧ t.mccs = [] ∧ t.copies = [] ∧ t.pend = [] ∧
      t.launches = [] ∧ t.l1 = [] ∧ t.reqs = [] ∧ t.gwait = [] ∧ t.gheld = []
    -- a warm start: the next epoch without an owner, the pointers of step 8 cleared, every other register kept, no point open
    let warm : State → Prop := fun t => t.blocks = [] ∧ t.courses = [] ∧ t.launches = [] ∧ t.reg 0x400 = 1 ∧
      ((s.reg 0x10).toNat < 2 ^ 32 → (t.reg 0x10).toNat = 16 * (((s.reg 0x10).toNat / 16 + 1) % 2 ^ 28)) ∧
      t.reg 0x108 = 0 ∧ t.reg 0x110 = 0 ∧ t.reg 0x120 = 0 ∧
      (∀ o, o ∉ [0x10, 0x108, 0x110, 0x120, 0x400] → (∀ p, p < 8 → o ≠ 0x200050 + 0x1000 * p ∧ o ≠ 0x200058 + 0x1000 * p) → t.reg o = s.reg o) ∧
      (∀ p q, p < 8 → t.part? p = some q → q.rpc = 0 ∧ q.rpa = q.rps ∧ q.sealing = false)
    (s.failStep c = 0 →
      (∃ t, exec (.powerOn c) s = .next t ∧ started t ∧ t.power = true ∧ t.reg 0x400 = 1 ∧ t.mem = [] ∧ t.poison = [] ∧ t.und = [] ∧
        t.reg 0x10 = 0 ∧ t.reg 0x300 = s.reg 0x300 ∧ t.banks = [] ∧ t.quarantine = [] ∧ t.tags = [] ∧ t.dirty = [] ∧ t.parts = [] ∧
        ∀ o, o ≠ 0x300 → o ≠ 0x400 → t.reg o = State.reset.reg o) ∧
      (∀ agent, agent ≠ 0 → (s.reg 0x10).toNat % 16 = agent →
        (∃ t, exec (.coldrst agent c) s = .next t ∧ started t ∧ t.reg 0x400 = 1 ∧ t.mem = [] ∧ t.poison = [] ∧ t.reg 0x10 = 0 ∧
          t.reg 0x300 = s.reg 0x300 ∧ ∀ o, o ≠ 0x300 → o ≠ 0x400 → t.reg o = State.reset.reg o) ∧
        (∃ t, exec (.warmrst agent c) s = .next t ∧ warm t)) ∧
      (∃ t, exec (.plateReset c) s = .next t ∧ warm t ∧
        (s.dirty = [] → s.parts = [] → s.und = [] → (∀ q ∈ s.partitions, q.rpc = 0) → (∀ p, p < 8 → s.reg (0x200 + 16 * p) = 0) →
          t.mem = s.mem ∧ t.poison = s.poison ∧ t.tags = s.tags ∧ t.eave = [] ∧ t.durp = []))) ∧
    -- the recovery-point scan of a partition: the records of its ring are those of storage
    (∀ (p : Nat) (q : Partition), s.part? p = some q →
      let bs : List Nat → Nat → List Byte := fun ring k => s.storedRun (s.live (ring.getD (k / 64) 0 + 64 * (k % 64))) 64
      let is_ : List Nat → Nat → Nat → Prop := fun ring k st => k < 256 ∧ leNat ((bs ring k).take 2) = st ∧ leNat (((bs ring k).drop 3).take 1) = p
      let point : List Nat → Nat → Nat := fun ring k => leNat (((bs ring k).drop 4).take 4)
      ∃ w, (s.scanPoints p).part? p = some w ∧ w.rpc = 0 ∧ w.rpa = w.rps ∧
        (s.ringOf p = none → w.rps = 0) ∧
        (∀ ring, s.ringOf p = some ring → (∀ k, is_ ring k 2 → point ring k ≤ w.rps.toNat) ∧
          (w.rps = 0 ∨ ∃ k, (is_ ring k 2 ∨ is_ ring k 1) ∧ point ring k = w.rps.toNat) ∧
          ((∀ k, ¬is_ ring k 1) → w.rps = 0 ∨ ∃ k, is_ ring k 2 ∧ point ring k = w.rps.toNat))) ∧
    (s.failStep c ≠ 0 → ∃ t, exec (.powerOn c) s = .next t ∧ started t ∧ t.reg 0x400 = BitVec.ofNat 64 (16 * s.failStep c)) ∧
    (s.fwPasses c 0 = false → s.failStep c = 1) ∧
    (∀ i, s.fwPasses c 0 = true → (i = 1 ∨ i = 2) → s.fwPasses c i = false → s.failStep c = 2) ∧
    ((∀ i, i < 3 → s.fwPasses c i = true) → s.failStep c = if 3 ≤ c.hwStep ∧ c.hwStep ≤ 8 then c.hwStep else 0) ∧
    (∀ i f, c.images[i]? = some f →
      (s.fwPasses c i = true ↔
        let n := f.bytes.length - 152
        let sig := f.bytes.drop n
        152 ≤ f.bytes.length ∧ fieldLE sig 0 2 = 1 ∧ (sig.drop 8).take 48 = sha384 (f.bytes.take n) ∧ f.sigOk = true ∧
          (s.fuses.get i).toNat ≤ fieldLE f.bytes 4 4 ∧
          ∃ k, aget? f.keys (fieldLE sig 4 4) = some k ∧ (i = 0 → sha384 k = s.rootHash))) ∧
    (∀ i, c.images[i]? = none → s.fwPasses c i = false) ∧
    (s.failStep c = 0 → c.scan = [] → ∃ t, exec (.powerOn c) s = .next t ∧ t.degraded = [] ∧ t.quarantine = [] ∧
      ∀ core, core < 768 → t.physCore core = { s with coreMap := [] }.physCore core) ∧
    (∀ agent, (s.reg 0x10).toNat % 16 ≠ agent → exec (.coldrst agent c) s = .next (s.gutter (GRec.plate 0x0202)) ∧
      exec (.warmrst agent c) s = .next (s.gutter (GRec.plate 0x0202))) ∧
    (∀ (agent part addr : Nat), 1 ≤ agent → agent ≤ 4 → part < 8 →
      let image := s.physBytes addr (max 64 (leNat (((s.physBytes addr 64).drop 24).take 8)))
      ∃ t, exec (.verify agent part addr) s = .next t ∧ t.reg 0x580 = (if s.mayLoad part image then 1 else 0) ∧
        (∀ o, o ≠ 0x580 → t.reg o = s.reg o) ∧ t.mem = s.mem ∧
        ((image.getD 8 0).getLsbD 0 = false → (s.mayLoad part image = true ↔ (s.reg (0x500 + 8 * part)).getLsbD 0 = true))) ∧
    (∀ agent, 1 ≤ agent → agent ≤ 4 → s.manBusy = none → ∃ t m, exec (.mancmd agent) s = .next t ∧ t.manBusy = some m ∧ t.reg 0x1810 = 3 ∧ t.mem = s.mem) ∧
    (∀ m present, s.manBusy = some (m, present) → ∃ t, exec .manifestCompareDone s = .next t ∧ t.manBusy = none ∧ t.mem = s.mem ∧
      (manHeaderBad m = true → t.reg 0x1810 = 2 ∧ t.manVal = zeros 48) ∧
      (manHeaderBad m = false → (∀ i, i < manCount m → manEntryBad m i = false ∧ (manEntry m i).drop 16 = (aget? present i).getD (zeros 48)) →
        t.reg 0x1810 = 0 ∧ t.manVal = zeros 48))

/-- R485 to R487, R435: islands step down under their conditions, never below 600 MHz, and back up to their limit; a die that overheats is reset;
the Plate cuts its power. The temperature that an island of a die reset for its heat reports is free above 125 (log 41). -/
def Sys2Proof.Claims.IslandsThrottle : Prop :=
  ∀ (s : State),
    (∃ t, exec .powerCapExceed s = .next t ∧ t.blocks = s.blocks ∧ t.mem = s.mem ∧ ∀ i, i < 32 →
      (t.island i).throt = true ∧ ((s.island i).freq ≤ 2400 → 600 ≤ (s.island i).freq →
        (t.island i).freq = max 600 ((s.island i).freq - 100) ∧ 600 ≤ (t.island i).freq)) ∧
    (∀ i c, i < 36 → ∃ t, exec (.tempExceed i c) s = .next t ∧ t.blocks = s.blocks ∧ (t.island i).temp = min 255 c ∧
      (∀ j, j ≠ i → t.island j = s.island j) ∧
      (115 < c → 600 ≤ (s.island i).freq → (t.island i).freq = 600 ∧ (t.island i).throt = true) ∧
      (105 < c → c ≤ 115 → 600 ≤ (s.island i).freq → (t.island i).freq = max 600 ((s.island i).freq - 100) ∧ (t.island i).throt = true) ∧
      (c ≤ 105 → (t.island i).freq = (s.island i).freq ∧ (t.island i).throt = (s.island i).throt)) ∧
    (∀ i, i < 36 → ∃ t, exec (.throttleRecover i) s = .next t ∧ t.blocks = s.blocks ∧
      (t.island i).freq = min (s.fmax i) ((s.island i).freq + 100) ∧
      (s.fmax i = 2400 → 2300 ≤ (s.island i).freq → (t.island i).throt = false ∧ (t.island i).reason = 0)) ∧
    (∀ die, die < 4 → ∃ t, exec (.dieOvertemp die) s = .next t ∧ t.diesOut = (s.resetDie die).diesOut ∧
      ∀ k, k < 8 → 126 ≤ (t.island (8 * die + k)).temp ∧ (s.island (8 * die + k)).temp ≤ (t.island (8 * die + k)).temp ∧
        (t.island (8 * die + k)).throt = true) ∧
    (∃ t, exec .plateOvertemp s = .next t ∧ t.power = false ∧ t.blocks = [] ∧ t.courses = [] ∧ t.launches = [] ∧ t.eave = [] ∧ t.durp = [])

/-- R435, R478 to R487: starts, verification, and the islands. -/
def Obligations.StartsAndThrottling : Prop := Sys2Proof.Claims.StartsAndVerification ∧ Sys2Proof.Claims.IslandsThrottle

/-- R464, R467 to R470, R476 to R478: a due rotation selects the next counter group; CTRSEL selects events and clears the counters; a PC sample
makes a record of the core's oldest course; a shadow read gives the value of a named register; a debugger is attached and detached by the owner, halts the
launch whose DEBUG it takes, saves, checks and restores its blocks and lets it go on; time only moves forward, at a rate that PTP slews. The model's
readings here: a rate beyond 500 ppm is ignored (log 36), ELIG counts the core's eligible courses (log 39), a reason of timing alone comes with the
sample (log 13), a shadow name is looked for from the lowest partition (log 25). -/
def Obligations.ObservationEvents : Prop :=
  ∀ (s : State) (agent part lnum core : Nat),
    let mine : Prop := agent ≠ 0 ∧ (s.reg 0x10).toNat % 16 = agent
    (∀ q, s.part? part = some q → q.rot < s.cycle / 65536 → exec (.counterGroupRotate part) s =
      .next (s.updPart part (fun q => { q with group := (q.group + 1) % ((s.oreg part 0x20).toNat % 4 + 1), rot := s.cycle / 65536 }))) ∧
    (∀ grp x, mine → swf 0 s.regs = true → part < 8 → grp < 4 → ∃ t, exec (.ctrsel agent part grp x) s = .next t ∧
      t.oreg part (8 * grp) = x ∧ t.mem = s.mem ∧
      ∀ e ∈ t.ctr, e ∈ s.ctr ∧ s.coreIn part (e.1 / 32) = false) ∧
    (∀ (quad : Nat) (reason : Byte), s.coreIn part core = true →
      let u : State := { s with samples := s.samples.filter (· != (core, quad)) }
      let made : BKey → Nat → Nat → W32 → W64 → Prop := fun k tl why mask pc => exec (.pcSample part core quad reason) s =
        .next (u.trace core part (nameOf k tl core) 0x01 why quad mask pc 0 0)
      ((core, quad) ∉ s.samples → exec (.pcSample part core quad reason) s = .next s) ∧
      ((core, quad) ∈ s.samples →
        (∀ c x, s.oldestCourse core = some c → s.ctxOf core c.id = some x →
          (∀ why, s.courseReason x.c = some why → made x.b.key (x.c.lowestTl x.c.mask) why x.c.mask x.pc) ∧
          (s.courseReason x.c = none → reason.toNat ∈ timingReasons →
            made x.b.key (x.c.lowestTl x.c.mask) reason.toNat x.c.mask x.pc)) ∧
        (s.oldestCourse core = none → made { part := part, lnum := 0, bl := 0 } 0xFFFF (s.waitReason core) 0 0))) ∧
    (∀ (name : List Byte) (o : BitVec 16) (sel : Byte) (b : Block) (l : Launch) (th : Thread), mine → swf 0 s.regs = true →
      s.namedThread name = some (b, l, th) →
      ∃ t, exec (.shadowRead agent name o sel) s = .next t ∧ t.mem = s.mem ∧ t.blocks = s.blocks ∧
        (shadowValue b l th o.toNat sel.toNat = none → t.reg 0x300020 = 2 ∧ t.reg 0x300028 = 0) ∧
        (∀ v, shadowValue b l th o.toNat sel.toNat = some v → t.reg 0x300020 = 1 ∧ t.reg 0x300028 = v) ∧
        (∀ n : Fin 240, o.toNat = n.val → sel = 0 → n.val < l.d.regs → t.reg 0x300020 = 1 ∧ t.reg 0x300028 = (th.v.get n.val).setWidth 64)) ∧
    (mine → swf 0 s.regs = true → s.dbgLaunch.2 = 0 → 0 < lnum → lnum < 2 ^ 32 → part < 8 →
      ∃ t, exec (.dbgattAttach agent part lnum) s = .next t ∧ t.dbgLaunch = (part, lnum) ∧ t.mem = s.mem ∧ t.blocks = s.blocks) ∧
    (mine → swf 0 s.regs = true → (∀ l, s.launch? s.dbgLaunch.1 s.dbgLaunch.2 = some l → l.halted = false) →
      ∃ t, exec (.dbgattDetach agent) s = .next t ∧ t.dbgLaunch = (0, 0) ∧ t.mem = s.mem ∧ t.blocks = s.blocks) ∧
    (∀ l, mine → swf 0 s.regs = true → s.dbgLaunch.2 ≠ 0 → s.haltedLaunch = some l →
      exec (.dbgattDetach agent) s = .next ((s.setReg 0x300100 0).unhalt s.dbgLaunch.1 s.dbgLaunch.2)) ∧
    (∀ (id : Nat) (x : Ctx) (t : TrapInfo), s.ctxOf core id = some x → x.c.stat = .trap t → t.code = 0x000C → x.c.inHandler = false →
      s.attached x.b.key.part x.b.key.lnum = true → exec (.debugHalt core id) s =
        .next (((s.updCourse core id (fun c => { c with stat := .debug t })).gutter (trapRec x t 0x0400 0 .none)).updLaunch
          x.b.key.part x.b.key.lnum (fun l => { l with halted := true }))) ∧
    (∀ (slot image : Nat) (l : Launch) (b c : Block), mine → s.haltedLaunch = some l → s.blockAt? core slot = some b → b.key.part = l.part →
      b.key.lnum = l.lnum → image ≠ 0 → image % 64 = 0 →
      let w := b.agents.foldl (fun t a => t.settle a) s
      w.blockAt? core slot = some c → w.blockSnoops l c image = [] → w.blockAtRest c = true → exec (.debugSave agent core slot image) s =
        .next ((w.saveBlock l c image).updLaunch l.part l.lnum (fun l => { l with images := l.images ++ [image] }))) ∧
    (∀ (bind : Bind) (l : Launch), mine → s.haltedLaunch = some l → l.part = part → l.lnum = lnum →
      exec (.debugRestore agent part lnum bind) s = .next (s.debugRestoreOne l bind)) ∧
    (∀ (binds : List Bind) (l m : Launch), mine → s.haltedLaunch = some l →
      let w := binds.foldl (fun t b =>
        match t.launch? l.part l.lnum with
        | some m => if m.halted && m.live then t.debugRestoreOne m b else t
        | none => t) s
      w.launch? l.part l.lnum = some m → (∀ v ∈ m.saved, ∀ p ∈ m.placed, p.1 ≠ v.bl / m.d.unitSize) →
      exec (.debugResume agent binds) s = .next (w.unhalt l.part l.lnum)) ∧
    (∀ (image : Nat) (l : Launch) (v : Saved), mine → swf 0 s.regs = true → s.launch? s.dbgLaunch.1 s.dbgLaunch.2 = some l →
      l.saved.find? (fun v => v.image == image) = some v →
      ∃ t, exec (.dbgchk agent image) s = .next t ∧ t.reg 0x300108 = BitVec.ofNat 64 (debugCheck s l v (s.imageReader v.image)) ∧
        t.mem = s.mem ∧ t.blocks = s.blocks) ∧
    (∀ ppm : Int,
      (-500 ≤ ppm → ppm ≤ 500 → exec (.ptpDiscipline ppm) s = .next { s with slew := ppm }) ∧
      (ppm < -500 ∨ 500 < ppm → exec (.ptpDiscipline ppm) s = .next s)) ∧
    (s.tick.time12 = s.time12 + (s.timeFrac + (5 * (1000000 + s.slew)).toNat) / 1000000 ∧ s.tick.cycle = s.cycle + 1) ∧
    (∀ ns,
      (mine → s.ns ≤ ns → ∃ t, exec (.timeStep agent ns) s = .next t ∧ t.ns = ns ∧ s.time12 ≤ t.time12) ∧
      (mine → ns < s.ns → exec (.timeStep agent ns) s = .next s))

/-! ### The machine as a whole (02 R24 to R54; 25 R479) -/

namespace Sys2Proof.Claims

/-- The files that software writes stand in canonical form: management registers, suspicion scores, the main and o files of every thread, the
block registers, the scalars of every MCC. -/
def FilesCanonical (s : State) : Prop :=
  swf 0 s.regs = true ∧ swf 0 s.scores = true ∧
  (∀ b ∈ s.blocks, swf 0 b.b = true ∧ ∀ t ∈ b.threads, swf 0 t.v = true ∧ swf 0 t.o = true) ∧
  ∀ m ∈ s.mccs, swf 0 m.x = true

/-- What a step adds around its instruction: nothing is issuing after it, and later free values are others (log 1). -/
def endOf : Host.Outcome State Fault Refusal → Host.Outcome State Fault Refusal
  | .next t => .next t.settleStep
  | .fault f => .fault f
  | .refused r => .refused r

/-- Two states that differ in their counters and triggers alone: what the issue of an instruction counts (R467, R472). -/
def SameButCounts (s t : State) : Prop := t = { s with ctr := t.ctr, trigHit := t.trigHit, trigStop := t.trigStop }

/-- An instruction's own limits in a place: its registers exist (R158), and the place allows it (R186, R356, R406, R46). -/
def Allowed (c : DCtx) (i : Instr) : Prop :=
  c.mcc = i.isMcc ∧ (∀ p ∈ i.pos, p.x.beyond c p.cls.w = false) ∧ i.handlerBad c = false ∧ i.gangBad c = false ∧
  (i.chain = true → c.chainPos < 15)

end Sys2Proof.Claims

/-- R479, R488: right after a cold start READY is set, nobody owns the device, nothing is resident, queued or outstanding, every byte of
device memory and every line tag reads zero, and the registers that have a default hold it; every file and memory is in canonical form. The default
of FMAX, 2,400 MHz, is the model's choice (log 5). -/
def Obligations.ResetState : Prop :=
  let s := State.reset
  s.reg 0x400 = 1 ∧ s.reg 0x10 = 0 ∧ s.reg 0x108 = 0 ∧ s.reg 0x110 = 0 ∧ s.reg 0x2010 = 100 ∧ s.reg 0x2018 = 3200 ∧ s.reg 0x2020 = 24 ∧
  (∀ p, p < 8 → s.reg (0x3000 + 0x100 * p) = 0 ∧ s.reg (0x3010 + 0x100 * p) = 3 ∧ s.reg (0x3018 + 0x100 * p) = 10000000) ∧
  (∀ i, i < 36 → s.reg (0x710000 + 8 * i) = 2400) ∧
  (∀ a, s.mem.get a = 0) ∧ (∀ l, s.tags.get l = 0) ∧ s.poison = [] ∧ s.und = [] ∧
  s.blocks = [] ∧ s.courses = [] ∧ s.bins = [] ∧ s.mccs = [] ∧ s.copies = [] ∧ s.pend = [] ∧ s.launches = [] ∧
  (∀ q ∈ s.partitions, q.queues = [] ∧ q.hwq = [] ∧ q.rpc = 0 ∧ q.rps = 0 ∧ q.rpa = 0 ∧ q.sealing = false) ∧
  s.memWf ∧ FilesCanonical s

/-- Every step keeps every memory in canonical form: addresses strictly rising, no byte listed that reads as unlisted, in device memory, in
host memory and in each block's scratchpad (R167, R479: what nothing has written reads zero). The form is the model's own; host memory follows log 6. -/
def Obligations.StepKeepsMemoriesCanonical : Prop :=
  ∀ s t : State, s.memWf → step s = .next t → t.memWf

/-- Every step keeps every register file in canonical form (R123, R158, R488: files start at zero or at defaults). The form is the model's own. -/
def Obligations.StepKeepsFilesCanonical : Prop :=
  ∀ s t : State, FilesCanonical s → step s = .next t → FilesCanonical t

/-- A step runs what it picks. An event that the machine takes runs as it is, as does the write at the head of the link's line; a course runs the instruction that the words at its PC decode
to, or the words of the entry that it re-injects, and an MCC the one at its PC; a course whose words decode to no instruction takes ILLEGAL in
every lane, with its first word and the reason (R53); with nothing left to do in it the core cycle ends, and what is programmed from outside
takes effect on a device that started (log 48). What is picked, and that each of these is one step, is the model's schedule (log 1). -/
def Obligations.StepRunsDecoded : Prop :=
  ∀ (s u : State),
    (s.pick = (u, .cycle) → step s = .next u.tick.settleStep) ∧
    (∀ c, s.pick = (u, .control c) → u.power = true → (u.reg 0x400).toNat / 16 ≠ 1 → step s = .next (u.control c).settleStep) ∧
    (∀ i, s.pick = (u, .event i) → u.answers i = true → step s = endOf (exec i { u with cur := .none })) ∧
    (∀ i rest, s.pick = (u, .link) → u.linkWait = i :: rest → u.answers i = true → step s = endOf (exec i { u with cur := .link })) ∧
    (∀ (core id : Nat) (c : Course) (x : Ctx) (bs : List Byte), s.pick = (u, .issue core id) → u.power = true →
      u.course? core id = some c → u.eligible c = true → ∀ quad, u.quadFor c = some quad → (u.issueOn c quad).issuing = some x →
      let v := (u.issueOn c quad).sampleIssue x quad
      v.sdcDue x = false →
      ((x.c.reinj = [] ∧ v.fetchAt x.l x.pc.toNat = .ok bs ∧
          ∀ k, k < 8 → v.compHit x (guardLanes x (leNat (bs.take 4))) k = none) ∨
        (∃ e rest, x.c.reinj = e :: rest ∧ bs = e.words.flatMap (fun w => natLE 4 w.toNat))) →
      (∀ i, decode (dctxOf x (leNat (bs.take 4))) bs = .ok i →
        ∃ w, SameButCounts (v.updCourse core id (fun c => { c with keep := chainOf i })) w ∧ step s = endOf (exec i w)) ∧
      (∀ r, decode (dctxOf x (leNat (bs.take 4))) bs = .illegal r → ∃ w t, SameButCounts v w ∧ step s = .next (w.takeTrap x t x.pc).settleStep ∧
        t.code = cIllegal ∧ t.mask = x.c.mask ∧ t.pc = x.pc ∧ t.aux1 = BitVec.ofNat 32 r ∧
        ∀ lane, lane < 32 → t.aux0.getD lane 0 = BitVec.ofNat 32 (leNat (bs.take 4)))) ∧
    (∀ (core : Nat) (m : Mcc) (x : MCtx) (bs : List Byte) (i : Instr), s.pick = (u, .mcc core) → u.power = true →
      u.mcc? core = some m → u.mccMay m = true →
      let v : State := { (u.updMcc core (fun m => { m with stat := .running })) with cur := .mcc core, used := (core, 4, 0) :: u.used }
      v.running = some x → v.fetchAt x.l x.m.pc.toNat = .ok bs → decode (dctxOfMcc x) bs = .ok i → step s = endOf (exec i v))

/-- R29, R33, R36, R42, R47: words written out from the encoding tables decode to the instructions they stand for. -/
def Obligations.DecodeWords : Prop :=
  let h : Hd := ⟨false, false, 7, false, none⟩
  let k : Ch := ⟨false, false, 7, none⟩
  -- iadd v3, v3, v5 (compact): OPC 0x20, PRED 7, DST 3, SRC0 5
  decodeWords {} [0x02819C80] = .ok (.iaddC k (.v 3) (.v 5)) ∧
  -- iadd.u v1, v2, v3: MODA U, DSTX 1, SRC1 2, SRC0 3
  decodeWords {} [0x10011C81, 0x00000403, 0] = .ok (.iadd h (.v 1) (.v 2) (.v 3) true false) ∧
  -- bra -3 (compact), guard not p2, chain clear: off17 = 0x1FFFD
  decodeWords {} [0xFFFEA808] = .ok (.braC ⟨false, true, 2, none⟩ 0x1FFFD) ∧
  -- ffma.rz v0, v1, v2, #literal
  decodeWords {} [0x02001D0F, 0x07FC0401, 0, 0x3F800000, 0] =
    .ok (.ffma ⟨false, false, 7, false, some 0x3F800000⟩ (.v 0) (.v 1) (.v 2) .lit (.mode .rz) ⟨false, false, false, false⟩ false) ∧
  -- ld.64.acq v4, [v2 + 8] in global memory
  decodeWords {} [0x00041DC1, 0x00000002, 0x02C00008] =
    .ok (.ld h (.v 4) { tgt := .global, base := .v 2, offs := 8, size := .b64, order := .acq, scope := .dev, cache := .dflt } false) ∧
  -- xadd x1, x2, -1 in the MCC
  decodeWords { mcc := true } [0x00011EC1, 0x000005DF, 0] = .ok (.xadd none 1 (.x 2) (.imm (-1))) ∧
  -- the all-zero word, an unassigned opcode, a compact word of an extended opcode, a thread opcode in the MCC
  decodeWords {} [0] = .illegal 1 ∧ decodeWords {} [0x00001C88] = .illegal 2 ∧
  decodeWords { mcc := true } [0x02819C80] = .illegal 6

/-- R34, R36 to R53: the decoder answers well-formed instructions alone, and none of their bits goes unread: the instruction's own encoding is
the words that it was decoded from, but for XBAR, whose ARRIVE and EXPECT do not read PD. -/
def Obligations.DecodeYieldsWellFormed : Prop :=
  ∀ (c : DCtx) (bs : List Byte) (i : Instr), decode c bs = .ok i →
    i.wf = true ∧ i.handlerBad c = false ∧ i.gangBad c = false ∧
    ((∀ h op a o, i ≠ .xbar h op a o) → ∃ ws, encode i = some ws ∧ ws <+: wordsOf bs)

/-- R24 to R52: every well-formed instruction that has an encoding is what its own words decode to, at every value of every field, in a place
that allows it; its words take the bytes that its length says. -/
def Obligations.RoundTrip : Prop :=
  ∀ (c : DCtx) (i : Instr) (ws : List Nat), i.wf = true → Allowed c i → encode i = some ws →
    decode c (bytesOf ws) = .ok i ∧ 4 * ws.length = i.size ∧ ∀ w ∈ ws, w < 2 ^ 32
end

