-- ==== Sys2Proof/Laws/Lanes.lean ====
section
/-!
SUPPORT. What a thread instruction whose lanes only compute does (R111): the one lemma that the statements about such instructions cite.
-/

namespace Sys2Proof.Machine

/-- A plain source is read as its value and changes nothing. -/
theorem readSource_plain (s : State) (x : Ctx) (lane : Nat) (t : Thread) (lit : Option W64) (i : Nat) (o : Opnd) (p : Pos) (a : LaneIn)
    (hr : x.c.reinj = []) (h : plainReady x lane t o p = true) :
    readSource s x lane t lit i o p a = .ok ({ a with vals := a.vals ++ [plainValue x lane t lit o p] }, s) := by
  have e : x.replay lane = none := by simp [Ctx.replay, hr]
  cases o <;> simp_all [readSource, plainReady]

/-- Plain sources read one after the other. -/
theorem readNext_foldl (x : Ctx) (lane : Nat) (t : Thread) (lit : Option W64) (hr : x.c.reinj = []) (l : List (Opnd × Pos)) (r : Reading)
    (h : ∀ o ∈ l, plainReady x lane t o.1 o.2 = true) :
    l.foldl (readNext x lane t lit) r =
      { n := r.n + l.length, inp := { r.inp with vals := r.inp.vals ++ l.map (fun o => plainValue x lane t lit o.1 o.2) }, s := r.s,
        stops := r.stops } := by
  induction l generalizing r with
  | nil => simp
  | cons o l ih =>
    rw [List.foldl_cons, readNext, readSource_plain _ _ _ _ _ _ _ _ _ hr (h o (by simp)), ih _ (fun o ho => h o (by simp [ho]))]
    simp [Nat.add_assoc, Nat.add_comm 1]

/-- The sources of a ready lane. -/
theorem readSources_plain (s : State) (x : Ctx) (lane : Nat) (t : Thread) (sh : Shape) (hr : x.c.reinj = [])
    (h : ∀ o ∈ sh.reads, plainReady x lane t o.1 o.2 = true) :
    readSources s x lane t sh.h.lit sh.srcs sh.rnd = .ok ({ vals := laneVals x sh (lane, t), ports := [], pops := [] }, s) := by
  simp only [readSources, readNext_foldl x lane t sh.h.lit hr (sourcesOf sh.srcs sh.rnd) _ h]
  simp [laneVals, Shape.reads]

/-- A ready lane computes. -/
theorem laneStep_plain (sh : Shape) (f : Ctx → Nat → Thread → List Nat → LaneRes) (x : Ctx) (lane : Nat) (t : Thread) (s : State)
    (hr : x.c.reinj = []) (hp : sh.pushPort = none) (h : ∀ o ∈ sh.reads, plainReady x lane t o.1 o.2 = true) :
    laneStep sh (fun x st lane t vals => .ok (f x lane t vals, st)) x lane t s =
      .ok ({ lane := lane, tl := t.tl, inp := { vals := laneVals x sh (lane, t), ports := [], pops := [] }, push := none,
             res := f x lane t (laneVals x sh (lane, t)) }, s) := by
  simp [laneStep, readSources_plain s x lane t sh hr h, hp]

theorem mem_insertBy {α : Type} (key : α → Nat) (x y : α) (l : List α) : y ∈ insertBy key x l ↔ y = x ∨ y ∈ l := by
  induction l with
  | nil => simp [insertBy]
  | cons z l ih =>
    rw [insertBy]
    split
    · simp
    · simp only [List.mem_cons, ih]
      tauto

theorem mem_sortBy_foldl {α : Type} (key : α → Nat) (y : α) (l t : List α) :
    y ∈ l.foldl (fun t x => insertBy key x t) t ↔ y ∈ t ∨ y ∈ l := by
  induction l generalizing t with
  | nil => simp
  | cons z l ih => rw [List.foldl_cons, ih, mem_insertBy, List.mem_cons]; tauto

/-- Sorting keeps the elements. -/
theorem mem_sortBy {α : Type} (key : α → Nat) (y : α) (l : List α) : y ∈ sortBy key l ↔ y ∈ l := by
  rw [sortBy, mem_sortBy_foldl]
  simp

/-- What a lane that computes has computed. -/
def laneComputed (x : Ctx) (sh : Shape) (f : Ctx → Nat → Thread → List Nat → LaneRes) (p : Nat × Thread) : LaneOut :=
  { lane := p.1, tl := p.2.tl, inp := { vals := laneVals x sh p, ports := [], pops := [] }, push := none,
    res := f x p.1 p.2 (laneVals x sh p) }

theorem runNext_foldl (sh : Shape) (f : Ctx → Nat → Thread → List Nat → LaneRes) (x : Ctx) (hr : x.c.reinj = []) (hp : sh.pushPort = none)
    (l : List (Nat × Thread)) (r : LaneRun) (h : ∀ p ∈ l, ∀ o ∈ sh.reads, plainReady x p.1 p.2 o.1 o.2 = true) :
    l.foldl (runNext sh (fun x st lane t vals => .ok (f x lane t vals, st)) x) r =
      { r with outs := r.outs ++ l.map (laneComputed x sh f) } := by
  induction l generalizing r with
  | nil => simp
  | cons p l ih =>
    rw [List.foldl_cons, runNext, laneStep_plain sh f x p.1 p.2 r.s hr hp (h p (by simp)), ih _ (fun q hq => h q (by simp [hq]))]
    simp [laneComputed]

/-- Every active lane of a ready instruction computes. -/
theorem runLanes_plain (sh : Shape) (f : Ctx → Nat → Thread → List Nat → LaneRes) (x : Ctx) (s : State) (hr : x.c.reinj = [])
    (hp : sh.pushPort = none) (h : ∀ p ∈ x.active sh.h.pneg sh.h.pred, ∀ o ∈ sh.reads, plainReady x p.1 p.2 o.1 o.2 = true) :
    runLanes sh (fun x st lane t vals => .ok (f x lane t vals, st)) x s = { s := s, outs := computed x sh f, stops := [] } := by
  rw [runLanes, byThread, runNext_foldl sh f x hr hp _ _ (fun p hp => h p ((mem_sortBy _ _ _).1 hp))]
  rfl

/-- Nothing stops an instruction none of whose lanes stops. -/
@[simp] theorem verdict_nil : verdict [] = .go := rfl

/-- A ready instruction whose lanes only compute writes their results, moves past itself and ends its chain position (R111). -/
theorem compute_next (s : State) (x : Ctx) (sh : Shape) (f : Ctx → Nat → Thread → List Nat → LaneRes) (h : LanesReady s x sh)
    (hf : fpeDue x (computed x sh f) = false) : s.compute sh f = .next (commitLanes sh x (computed x sh f) s) := by
  simp [State.compute, State.lanes, State.lanesWith, State.onCourse, h.issues, runLanes_plain sh f x s h.fresh h.noPort h.ready, hf]

/-! ### What the writes of an instruction leave alone -/

theorem SameButCores.rfl {s : State} : SameButCores s s := by simp [SameButCores]

theorem SameButCores.trans {s t u : State} (h : SameButCores s t) (g : SameButCores t u) : SameButCores s u := by
  unfold SameButCores at *
  rw [g, h]

theorem SameButCores.updBlock (s : State) (k : BKey) (f : Block → Block) : SameButCores s (s.updBlock k f) := by
  simp [SameButCores, State.updBlock]

theorem SameButCores.updThread (s : State) (k : BKey) (n : Nat) (f : Thread → Thread) : SameButCores s (s.updThread k n f) :=
  SameButCores.updBlock s k _

theorem SameButCores.updCourse (s : State) (n i : Nat) (f : Course → Course) : SameButCores s (s.updCourse n i f) := by
  simp [SameButCores, State.updCourse]

theorem SameButCores.foldl {α : Type} (g : State → α → State) (hg : ∀ s a, SameButCores s (g s a)) (l : List α) (s : State) :
    SameButCores s (l.foldl g s) := by
  induction l generalizing s with
  | nil => exact SameButCores.rfl
  | cons a l ih => exact (hg s a).trans (ih _)

theorem SameButCores.putDst (s : State) (k : BKey) (n : Nat) (o : Opnd) (w x : Nat) : SameButCores s (s.putDst k n o w x) := by
  unfold State.putDst
  split
  · exact SameButCores.updBlock _ _ _
  · exact SameButCores.updThread _ _ _ _

theorem SameButCores.write (sh : Shape) (k : BKey) (o : LaneOut) (s : State) (h : o.push = none) : SameButCores s (o.write sh k s) := by
  unfold LaneOut.write
  simp only [h]
  split
  · exact SameButCores.updThread _ _ _ _
  · exact SameButCores.updThread _ _ _ _
  · split
    · exact SameButCores.updThread _ _ _ _
    · exact (SameButCores.updThread _ _ _ _).trans (SameButCores.putDst _ _ _ _ _ _)

/-- The writes of lanes that push nothing touch registers, predicates, flags and the latch alone: blocks and courses (R111). -/
theorem SameButCores.writeLanes (sh : Shape) (x : Ctx) (outs : List LaneOut) (s : State) (h : ∀ o ∈ outs, o.push = none) :
    SameButCores s (writeLanes sh x outs s) := by
  have key : ∀ (l : List LaneOut) (s : State), (∀ o ∈ l, o.push = none) → SameButCores s
      (l.foldl (fun u o => o.write sh x.b.key (u.updThread x.b.key o.tl (fun t => (o.ports t).raise o.res.fl))) s) := by
    intro l
    induction l with
    | nil => intro s _; exact SameButCores.rfl
    | cons o l ih =>
      intro s hl
      exact ((SameButCores.updThread _ _ _ _).trans (SameButCores.write sh _ o _ (hl o (by simp)))).trans
        (ih _ (fun p hp => hl p (by simp [hp])))
  unfold Machine.writeLanes
  split
  · exact (key outs s h).trans (SameButCores.updCourse _ _ _ _)
  · exact key outs s h

theorem SameButCores.advance (s : State) (x : Ctx) (n : Nat) : SameButCores s (s.advance x n) := by
  unfold State.advance
  split
  · exact SameButCores.foldl _ (fun _ _ => SameButCores.updThread _ _ _ _) _ _
  · exact SameButCores.rfl

theorem SameButCores.chainEnd (s : State) (x : Ctx) (c : Bool) (h : x.c.reinj = []) : SameButCores s (s.chainEnd x c) := by
  simp only [State.chainEnd, h, List.isEmpty_nil, if_true]
  exact SameButCores.updCourse _ _ _ _

/-- The completion of a computing instruction leaves everything but blocks and courses as it was. -/
theorem SameButCores.commitLanes (sh : Shape) (x : Ctx) (outs : List LaneOut) (s : State) (hr : x.c.reinj = [])
    (h : ∀ o ∈ outs, o.push = none) : SameButCores s (commitLanes sh x outs s) :=
  ((SameButCores.writeLanes sh x outs s h).trans (SameButCores.advance _ _ _)).trans (SameButCores.chainEnd _ _ _ hr)

theorem computed_push (x : Ctx) (sh : Shape) (f : Ctx → Nat → Thread → List Nat → LaneRes) (o : LaneOut) (h : o ∈ computed x sh f) :
    o.push = none := by
  simp only [computed, List.mem_map] at h
  obtain ⟨p, -, rfl⟩ := h
  rfl

/-! ### What lanes read is as wide as its position -/

theorem regRun_foldl_lt (f : File 32) (n k b : Nat) :
    (List.range k).foldl (fun t i => t + (f.get (n + i)).toNat * 2 ^ (32 * i)) b < b + 2 ^ (32 * k) := by
  induction k with
  | zero => simp
  | succ k ih =>
    rw [List.range_succ, List.foldl_append]
    simp only [List.foldl_cons, List.foldl_nil]
    have h := (f.get (n + k)).isLt
    have e : 2 ^ (32 * (k + 1)) = 2 ^ 32 * 2 ^ (32 * k) := by rw [← Nat.pow_add]; congr 1; omega
    have m : (f.get (n + k)).toNat * 2 ^ (32 * k) ≤ (2 ^ 32 - 1) * 2 ^ (32 * k) := Nat.mul_le_mul_right _ (by omega)
    rw [e]
    have c : (2 ^ 32 - 1) * 2 ^ (32 * k) + 2 ^ (32 * k) = 2 ^ 32 * 2 ^ (32 * k) := by
      rw [Nat.sub_mul, Nat.one_mul]
      exact Nat.sub_add_cancel (Nat.le_mul_of_pos_left _ (by decide))
    omega

/-- A run of registers is as wide as they are. -/
theorem regRun_lt (f : File 32) (n k : Nat) : regRun f n k < 2 ^ (32 * k) := by
  have h := regRun_foldl_lt f n k 0
  rw [Nat.zero_add] at h
  exact h

/-- A position that is no packed floating-point position. -/
def Pos.whole (p : Pos) : Prop := p = .w32 ∨ p = .w64 ∨ p = .w128

theorem fcTable_lt (n : Nat) : fcTable.getD n 0 < 2 ^ 32 := by
  by_cases h : n < 31
  · revert h; revert n; decide
  · have l : fcTable.length = 31 := by decide
    rw [List.getD_eq_default _ _ (by omega)]
    decide

/-- A source that is no port supplies a value as wide as its position. -/
theorem plainValue_lt (x : Ctx) (lane : Nat) (t : Thread) (lit : Option W64) (o : Opnd) (p : Pos) (h : p.whole) :
    plainValue x lane t lit o p < 2 ^ p.bits := by
  have pos : 0 < 2 ^ p.bits := Nat.two_pow_pos _
  have wide : 32 * (p.bits / 32) = p.bits := by rcases h with rfl | rfl | rfl <;> decide
  have low : (32 : Nat) ≤ p.bits := by rcases h with rfl | rfl | rfl <;> decide
  have reg : ∀ (f : File 32) (n : Nat), regRun f n (p.bits / 32) < 2 ^ p.bits := by
    intro f n
    have := regRun_lt f n (p.bits / 32)
    rwa [wide] at this
  cases o with
  | v n => exact reg _ _
  | o n => exact reg _ _
  | b n => exact reg _ _
  | c n => exact reg _ _
  | l n => exact Nat.mod_lt _ pos
  | imm i => exact (BitVec.ofInt p.bits i).isLt
  | fc n =>
    have e : plainValue x lane t lit (.fc n) p = fcTable.getD n.val 0 := by
      rcases h with rfl | rfl | rfl <;> rfl
    rw [e]
    exact Nat.lt_of_lt_of_le (fcTable_lt _) (Nat.pow_le_pow_right (by decide) low)
  | lit => exact Nat.mod_lt _ pos
  | q n => exact pos
  | k n => exact pos

/-- Values that fit their positions, one for each. -/
def Fits (l : List (Opnd × Pos)) (v : List Nat) : Prop := List.Forall₂ (fun o x => x < 2 ^ o.2.bits) l v

/-- A source that a lane has read adds one value, which fits its position. -/
theorem readSource_fits (s : State) (x : Ctx) (lane : Nat) (t : Thread) (lit : Option W64) (i : Nat) (o : Opnd) (p : Pos) (a b : LaneIn)
    (u : State) (hp : p.whole) (h : readSource s x lane t lit i o p a = .ok (b, u)) :
    ∃ y, b.vals = a.vals ++ [y] ∧ y < 2 ^ p.bits := by
  have pos : 0 < 2 ^ p.bits := Nat.two_pow_pos _
  unfold readSource at h
  split at h
  · simp only [Except.ok.injEq, Prod.mk.injEq] at h
    obtain ⟨rfl, -⟩ := h
    exact ⟨_, rfl, Nat.mod_lt _ pos⟩
  · split at h
    · split at h
      · simp only [Except.ok.injEq, Prod.mk.injEq] at h
        obtain ⟨rfl, -⟩ := h
        exact ⟨_, rfl, Nat.mod_lt _ pos⟩
      · rename_i n _ _
        cases hq : popLane s x t n with
        | error e => rw [hq] at h; simp [Except.bind] at h
        | ok r =>
          rw [hq] at h
          simp only [Except.bind, Except.ok.injEq, Prod.mk.injEq] at h
          obtain ⟨rfl, -⟩ := h
          exact ⟨_, rfl, Nat.mod_lt _ pos⟩
    · simp only at h
      split at h
      · simp at h
      · split at h
        · simp at h
        · simp only [Except.ok.injEq, Prod.mk.injEq] at h
          obtain ⟨rfl, -⟩ := h
          exact ⟨_, rfl, plainValue_lt _ _ _ _ _ _ hp⟩
    · split at h
      · simp at h
      · simp only [Except.ok.injEq, Prod.mk.injEq] at h
        obtain ⟨rfl, -⟩ := h
        exact ⟨_, rfl, plainValue_lt _ _ _ _ _ _ hp⟩

theorem readNext_foldl_fits (x : Ctx) (lane : Nat) (t : Thread) (lit : Option W64) (l : List (Opnd × Pos)) (r : Reading)
    (hl : ∀ o ∈ l, o.2.whole) :
    ∃ w, (l.foldl (readNext x lane t lit) r).inp.vals = r.inp.vals ++ w ∧ Fits l w := by
  induction l generalizing r with
  | nil => exact ⟨[], by simp, List.Forall₂.nil⟩
  | cons o l ih =>
    obtain ⟨w, hw, hf⟩ := ih (readNext x lane t lit r o) (fun q hq => hl q (by simp [hq]))
    have one : ∃ y, (readNext x lane t lit r o).inp.vals = r.inp.vals ++ [y] ∧ y < 2 ^ o.2.bits := by
      unfold readNext
      split
      · rename_i a u hok
        exact readSource_fits _ _ _ _ _ _ _ _ _ _ _ (hl o (by simp)) hok
      · exact ⟨0, rfl, Nat.two_pow_pos _⟩
    obtain ⟨y, hy, hlt⟩ := one
    refine ⟨y :: w, ?_, List.Forall₂.cons hlt hf⟩
    rw [List.foldl_cons, hw, hy]
    simp

/-- What a lane has read fits its positions. -/
theorem readSources_fits (s : State) (x : Ctx) (lane : Nat) (t : Thread) (sh : Shape) (a : LaneIn) (u : State)
    (hl : ∀ o ∈ sh.reads, o.2.whole) (h : readSources s x lane t sh.h.lit sh.srcs sh.rnd = .ok (a, u)) : Fits sh.reads a.vals := by
  obtain ⟨w, hw, hf⟩ := readNext_foldl_fits x lane t sh.h.lit (sourcesOf sh.srcs sh.rnd)
    { n := 0, inp := { vals := [], ports := [], pops := [] }, s := s, stops := [] } hl
  unfold readSources at h
  simp only at h
  split at h
  · simp only [Except.ok.injEq, Prod.mk.injEq] at h
    obtain ⟨rfl, -⟩ := h
    rw [hw]
    exact hf
  · simp at h

/-- Two meanings that agree on values that fit their positions compute the same in a lane. -/
theorem laneStep_congr (sh : Shape) (f g : Ctx → Nat → Thread → List Nat → LaneRes) (x : Ctx) (lane : Nat) (t : Thread) (s : State)
    (hl : ∀ o ∈ sh.reads, o.2.whole) (h : ∀ u v, Fits sh.reads v → f x lane u v = g x lane u v) :
    laneStep sh (pureLane f) x lane t s = laneStep sh (pureLane g) x lane t s := by
  unfold laneStep
  split
  · rfl
  · rename_i a u hok
    have hv := readSources_fits s x lane t sh a u hl hok
    simp only [pureLane, h _ _ hv]

/-- The same for every lane of an instruction. -/
theorem runLanes_congr (sh : Shape) (f g : Ctx → Nat → Thread → List Nat → LaneRes) (x : Ctx) (s : State)
    (hl : ∀ o ∈ sh.reads, o.2.whole) (h : ∀ lane u v, Fits sh.reads v → f x lane u v = g x lane u v) :
    runLanes sh (pureLane f) x s = runLanes sh (pureLane g) x s := by
  unfold runLanes
  congr 1
  funext r p
  simp only [runNext, laneStep_congr sh f g x p.1 p.2 r.s hl (h p.1)]

/-- What the ready lanes of an instruction compute, likewise. -/
theorem computed_congr (sh : Shape) (f g : Ctx → Nat → Thread → List Nat → LaneRes) (x : Ctx)
    (hl : ∀ o ∈ sh.reads, o.2.whole) (h : ∀ lane u v, Fits sh.reads v → f x lane u v = g x lane u v) :
    computed x sh f = computed x sh g := by
  have fits : ∀ p, Fits sh.reads (laneVals x sh p) := by
    intro p
    unfold laneVals
    generalize sh.reads = l at hl
    induction l with
    | nil => exact List.Forall₂.nil
    | cons o l ih => exact List.Forall₂.cons (plainValue_lt _ _ _ _ _ _ (hl o (by simp))) (ih (fun q hq => hl q (by simp [hq])))
  unfold computed
  simp only [h _ _ _ (fits _)]

/-- Every lane that has run holds what the meaning gives it. -/
theorem runLanes_res (sh : Shape) (f : Ctx → Nat → Thread → List Nat → LaneRes) (x : Ctx) (s : State) (P : LaneRes → Prop)
    (h : ∀ lane t v, P (f x lane t v)) : ∀ o ∈ (runLanes sh (pureLane f) x s).outs, P o.res := by
  unfold runLanes
  have key : ∀ (l : List (Nat × Thread)) (r : LaneRun), (∀ o ∈ r.outs, P o.res) →
      ∀ o ∈ (l.foldl (runNext sh (pureLane f) x) r).outs, P o.res := by
    intro l
    induction l with
    | nil => intro r hr; exact hr
    | cons p l ih =>
      intro r hr
      refine ih _ ?_
      unfold runNext
      split
      · rename_i o s1 hok
        intro q hq
        rcases List.mem_append.1 hq with hq | hq
        · exact hr q hq
        · simp only [List.mem_singleton] at hq
          subst hq
          unfold laneStep at hok
          split at hok
          · split at hok
            · simp at hok
            · split at hok <;> simp at hok
          · simp only [pureLane] at hok
            split at hok
            · simp at hok
            · simp only [Except.ok.injEq, Prod.mk.injEq] at hok
              obtain ⟨rfl, -⟩ := hok
              exact h _ _ _
      · exact hr
  exact key _ _ (by simp)

/-- No lane traps where none raises an exception. -/
theorem fpeDue_of_silent (x : Ctx) (outs : List LaneOut) (h : ∀ o ∈ outs, o.res.fl = 0) : fpeDue x outs = false := by
  simp only [fpeDue, Bool.and_eq_false_iff]
  right
  rw [List.any_eq_false]
  intro o ho
  rw [h o ho]
  cases x.b.thread? o.tl <;> simp [Thread.enabled]

/-- An instruction that only computes, without exceptions, completes by computing whatever agrees with its meaning on values that fit
their positions. -/
theorem silent_of_compute (i : Instr) (sh : Shape) (f g : Ctx → Nat → Thread → List Nat → LaneRes) (he : ∀ s, exec i s = s.compute sh g)
    (hl : ∀ o ∈ sh.reads, o.2.whole) (hg : ∀ x lane t v, (g x lane t v).fl = 0)
    (h : ∀ x lane t v, Fits sh.reads v → f x lane t v = g x lane t v) : Silent i sh f := by
  refine ⟨fun s x r => ?_, fun s x r => ?_⟩
  · rw [he, computed_congr sh f g x hl (h x)]
    refine compute_next s x sh g r (fpeDue_of_silent x _ ?_)
    intro o ho
    simp only [computed, List.mem_map] at ho
    obtain ⟨p, -, rfl⟩ := ho
    exact hg _ _ _ _
  · have e := runLanes_congr sh f g x s hl (h x)
    have hgo : (runLanes sh (pureLane g) x s).stops = [] := e ▸ r.go
    have fl := fpeDue_of_silent x _ (runLanes_res sh g x s (fun r => r.fl = 0) (hg x))
    rw [he, e]
    have q : (fun (x : Ctx) (st : State) (lane : Nat) (t : Thread) (vals : List Nat) =>
      (Except.ok (g x lane t vals, st) : Except Stop (LaneRes × State))) = pureLane g := rfl
    simp only [State.compute, State.lanes, State.lanesWith, State.onCourse, r.issues, q, hgo, verdict_nil, fl]
    rfl

/-- An instruction that only computes completes by its own meaning. -/
theorem computes_of_compute (i : Instr) (sh : Shape) (g : Ctx → Nat → Thread → List Nat → LaneRes) (he : ∀ s, exec i s = s.compute sh g) :
    Computes i sh g := by
  refine ⟨fun s x r hf => ?_, fun s x r hf => ?_⟩
  · rw [he]
    exact compute_next s x sh g r hf
  · rw [he]
    have q : (fun (x : Ctx) (st : State) (lane : Nat) (t : Thread) (vals : List Nat) =>
      (Except.ok (g x lane t vals, st) : Except Stop (LaneRes × State))) = pureLane g := rfl
    simp only [State.compute, State.lanes, State.lanesWith, State.onCourse, r.issues, q, r.go, verdict_nil, hf]
    rfl

end Sys2Proof.Machine
end

