-- ==== Sys2Proof/Laws/Memory.lean ====
section
/-!
SUPPORT. Sparse lists, register files and memories: a read after a write, what a write leaves alone, and that every operation keeps the
canonical form.
-/

namespace Sys2Proof.Machine

/-! ### Sparse lists -/

section
variable {α : Type} [DecidableEq α] {d : α}

/-- The first key of a canonical list stands below every other. -/
theorem swf_cons_iff (k : Nat) (x : α) (m : List (Nat × α)) :
    swf d ((k, x) :: m) = true ↔ x ≠ d ∧ (∀ e ∈ m, k < e.1) ∧ swf d m = true := by
  induction m generalizing k x with
  | nil => simp [swf]
  | cons e m ih =>
    obtain ⟨j, y⟩ := e
    simp only [swf, Bool.and_eq_true, decide_eq_true_eq, ih, List.mem_cons, forall_eq_or_imp]
    constructor
    · rintro ⟨⟨h1, h2⟩, h3, h4, h5⟩
      exact ⟨h1, ⟨h2, fun e he => Nat.lt_trans h2 (h4 e he)⟩, h3, h4, h5⟩
    · rintro ⟨h1, ⟨h2, _⟩, h3, h4, h5⟩
      exact ⟨⟨h1, h2⟩, h3, h4, h5⟩

omit [DecidableEq α] in
/-- A key below every listed one reads as the default. -/
theorem sget_of_lt (m : List (Nat × α)) (a : Nat) (h : ∀ e ∈ m, a < e.1) : sget d m a = d := by
  induction m with
  | nil => rfl
  | cons e m ih =>
    obtain ⟨k, x⟩ := e
    have h1 : a < k := h (k, x) (by simp)
    rw [sget, if_neg (by omega), ih (fun e he => h e (by simp [he]))]

/-- The keys after a write are the old ones and perhaps the new one. -/
theorem mem_sset (m : List (Nat × α)) (a : Nat) (x : α) (e : Nat × α) (h : e ∈ sset d m a x) : e ∈ m ∨ e = (a, x) := by
  induction m with
  | nil =>
    rw [sset] at h
    split at h
    · simp at h
    · exact .inr (by simpa using h)
  | cons f m ih =>
    obtain ⟨k, y⟩ := f
    rw [sset] at h
    split at h
    · split at h
      · exact .inl h
      · rcases List.mem_cons.1 h with h | h
        · exact .inr h
        · exact .inl h
    · split at h
      · split at h
        · exact .inl (by simp [h])
        · rcases List.mem_cons.1 h with h | h
          · exact .inr h
          · exact .inl (by simp [h])
      · rcases List.mem_cons.1 h with h | h
        · exact .inl (by simp [h])
        · rcases ih h with h | h
          · exact .inl (by simp [h])
          · exact .inr h

/-- A write keeps the canonical form. -/
theorem swf_sset (m : List (Nat × α)) (a : Nat) (x : α) (h : swf d m = true) : swf d (sset d m a x) = true := by
  induction m with
  | nil =>
    rw [sset]
    split
    · rfl
    · next hx => simpa [swf] using hx
  | cons e m ih =>
    obtain ⟨k, y⟩ := e
    have h' := h
    rw [swf_cons_iff] at h'
    obtain ⟨hy, hk, hm⟩ := h'
    rw [sset]
    split
    · next ha =>
      split
      · exact h
      · next hx =>
        rw [swf_cons_iff]
        refine ⟨hx, ?_, h⟩
        intro e he
        rcases List.mem_cons.1 he with rfl | he
        · exact ha
        · exact Nat.lt_trans ha (hk e he)
    · split
      · next ha =>
        subst ha
        split
        · exact hm
        · next hx => rw [swf_cons_iff]; exact ⟨hx, hk, hm⟩
      · next h1 h2 =>
        rw [swf_cons_iff]
        refine ⟨hy, ?_, ih hm⟩
        intro e he
        rcases mem_sset m a x e he with he | rfl
        · exact hk e he
        · show k < a
          omega

/-- What a key reads as after a write to any key of a canonical list. -/
theorem sget_sset (m : List (Nat × α)) (a b : Nat) (x : α) (h : swf d m = true) :
    sget d (sset d m a x) b = if b = a then x else sget d m b := by
  induction m with
  | nil =>
    rw [sset]
    split
    · next hx => subst hx; simp [sget]
    · simp [sget]
  | cons e m ih =>
    obtain ⟨k, y⟩ := e
    rw [swf_cons_iff] at h
    obtain ⟨hy, hk, hm⟩ := h
    rw [sset]
    split
    · next ha =>
      split
      · next hx =>
        subst hx
        split
        · next hb => subst hb; exact sget_of_lt _ _ (by
            intro e he
            rcases List.mem_cons.1 he with rfl | he
            · exact ha
            · exact Nat.lt_trans ha (hk e he))
        · rfl
      · simp [sget]
    · split
      · next ha =>
        subst ha
        split
        · next hx =>
          subst hx
          split
          · next hb => subst hb; exact sget_of_lt _ _ hk
          · next hb => simp [sget, hb]
        · by_cases hb : b = a <;> simp [sget, hb]
      · next h1 h2 =>
        by_cases hb : b = k
        · subst hb; simp [sget, Ne.symm h2]
        · simp [sget, hb, ih hm]

/-- A part of a canonical list that keeps its order is canonical. -/
theorem swf_filter (m : List (Nat × α)) (p : Nat × α → Bool) (h : swf d m = true) : swf d (m.filter p) = true := by
  induction m with
  | nil => rfl
  | cons e m ih =>
    obtain ⟨k, y⟩ := e
    rw [swf_cons_iff] at h
    obtain ⟨hy, hk, hm⟩ := h
    rw [List.filter_cons]
    split
    · rw [swf_cons_iff]
      exact ⟨hy, fun e he => hk e (List.mem_filter.1 he).1, ih hm⟩
    · exact ih hm

end

/-! ### Register files -/

/-- A register reads as what was written to it; every other as before. -/
theorem File.get_set {w : Nat} (f : File w) (a b : Nat) (x : BitVec w) (h : swf 0 f = true) :
    (f.set a x).get b = if b = a then x else f.get b := sget_sset f a b x h

/-- Writing a register keeps the file canonical. -/
theorem File.set_wf {w : Nat} (f : File w) (a : Nat) (x : BitVec w) (h : swf 0 f = true) : swf 0 (f.set a x) = true := swf_sset f a x h

/-! ### Memories -/

/-- A byte reads as what was written to it; every other as before. -/
theorem Memory.get_set (m : Memory) (a b : Nat) (x : Byte) (h : m.wf = true) :
    (m.set a x).get b = if b = a then x else m.get b := sget_sset m a b x h

/-- Writing one byte keeps the canonical form. -/
theorem Memory.set_wf (m : Memory) (a : Nat) (x : Byte) (h : m.wf = true) : (m.set a x).wf = true := swf_sset m a x h

/-- Writing bytes keeps the canonical form. -/
theorem Memory.write_wf (m : Memory) (a : Nat) (bs : List Byte) (h : m.wf = true) : (m.write a bs).wf = true := by
  induction bs generalizing m a with
  | nil => exact h
  | cons b bs ih => exact ih _ _ (Memory.set_wf m a b h)

/-- What an address reads as after a write of bytes. -/
theorem Memory.get_write (m : Memory) (a : Nat) (bs : List Byte) (b : Nat) (h : m.wf = true) :
    (m.write a bs).get b = if a ≤ b ∧ b < a + bs.length then bs.getD (b - a) 0 else m.get b := by
  induction bs generalizing m a with
  | nil =>
    rw [if_neg]
    · rfl
    · intro hb; simp at hb; omega
  | cons x bs ih =>
    rw [Memory.write, ih _ _ (Memory.set_wf m a x h), Memory.get_set m a b x h]
    by_cases h1 : a + 1 ≤ b ∧ b < a + 1 + bs.length
    · have h2 : a ≤ b ∧ b < a + (x :: bs).length := by simp; omega
      rw [if_pos h1, if_pos h2]
      obtain ⟨n, rfl⟩ : ∃ n, b = a + 1 + n := ⟨b - (a + 1), by omega⟩
      have e1 : a + 1 + n - (a + 1) = n := by omega
      have e2 : a + 1 + n - a = n + 1 := by omega
      rw [e1, e2]
      simp
    · rw [if_neg h1]
      by_cases hb : b = a
      · subst hb
        rw [if_pos rfl, if_pos (by simp)]
        simp
      · have h2 : ¬(a ≤ b ∧ b < a + (x :: bs).length) := by simp; omega
        rw [if_neg hb, if_neg h2]

/-- An address outside the bytes written reads as before. -/
theorem Memory.get_write_of_out (m : Memory) (a : Nat) (bs : List Byte) (b : Nat) (h : m.wf = true)
    (hb : b < a ∨ a + bs.length ≤ b) : (m.write a bs).get b = m.get b := by
  rw [Memory.get_write m a bs b h, if_neg (by omega)]

/-- The bytes read are as many as asked for. -/
@[simp] theorem Memory.read_length (m : Memory) (a n : Nat) : (m.read a n).length = n := by
  induction n generalizing a with
  | zero => rfl
  | succ n ih => simp [Memory.read, ih]

/-- Byte `i` of a read. -/
theorem Memory.read_getD (m : Memory) (a n i : Nat) (h : i < n) : (m.read a n).getD i 0 = m.get (a + i) := by
  induction n generalizing a i with
  | zero => omega
  | succ n ih =>
    cases i with
    | zero => rfl
    | succ i =>
      rw [Memory.read, List.getD_cons_succ, ih (a + 1) i (by omega)]
      congr 1
      omega

/-- Two reads agree where every byte does. -/
theorem Memory.read_congr (m k : Memory) (a n : Nat) (h : ∀ i, a ≤ i → i < a + n → m.get i = k.get i) : m.read a n = k.read a n := by
  induction n generalizing a with
  | zero => rfl
  | succ n ih =>
    rw [Memory.read, Memory.read, h a (by omega) (by omega), ih (a + 1) (fun i h1 h2 => h i (by omega) (by omega))]

/-- Bytes read back after they were written. -/
theorem Memory.read_write (m : Memory) (a : Nat) (bs : List Byte) (h : m.wf = true) : (m.write a bs).read a bs.length = bs := by
  apply List.ext_getElem
  · simp
  · intro i h1 h2
    have e := Memory.read_getD (m.write a bs) a bs.length i (by simpa using h1)
    rw [Memory.get_write m a bs (a + i) h, if_pos (by omega), show a + i - a = i by omega] at e
    simpa [List.getD_eq_getElem?_getD, h1, h2] using e

/-- A read outside the bytes written is as before. -/
theorem Memory.read_write_of_out (m : Memory) (a : Nat) (bs : List Byte) (b n : Nat) (h : m.wf = true)
    (hb : b + n ≤ a ∨ a + bs.length ≤ b) : (m.write a bs).read b n = m.read b n :=
  Memory.read_congr _ _ _ _ (fun i h1 h2 => Memory.get_write_of_out m a bs i h (by omega))

/-- Dropping a range keeps the canonical form. -/
theorem Memory.clear_wf (m : Memory) (a n : Nat) (h : m.wf = true) : (m.clear a n).wf = true := swf_filter m _ h

/-- Writes of single bytes one after the other keep the canonical form. -/
theorem Memory.foldl_set_wf (l : List (Nat × Byte)) (f : Nat × Byte → Nat) (m : Memory) (h : m.wf = true) :
    (l.foldl (fun t c => t.set (f c) c.2) m).wf = true := by
  induction l generalizing m with
  | nil => exact h
  | cons c l ih => exact ih _ (Memory.set_wf m (f c) c.2 h)

/-- Copying a range keeps the canonical form. -/
theorem Memory.copyRange_wf (m : Memory) (a n : Nat) (t : Memory) (b : Nat) (h : t.wf = true) : (m.copyRange a n t b).wf = true :=
  Memory.foldl_set_wf _ (fun c => c.1 - a + b) _ (Memory.clear_wf t b n h)

/-- Laying a memory over another keeps the canonical form. -/
theorem Memory.overlay_wf (m o : Memory) (h : m.wf = true) : (m.overlay o).wf = true := Memory.foldl_set_wf o (fun c => c.1) m h

/-! ### Byte order -/

@[simp] theorem natLE_length (k x : Nat) : (natLE k x).length = k := by
  induction k generalizing x with
  | zero => rfl
  | succ k ih => simp [natLE, ih]

/-- A number comes back from its bytes modulo their width. -/
theorem leNat_natLE (k x : Nat) : leNat (natLE k x) = x % 2 ^ (8 * k) := by
  induction k generalizing x with
  | zero => simp [natLE, leNat, Nat.mod_one]
  | succ k ih =>
    have e : 2 ^ (8 * (k + 1)) = 256 * 2 ^ (8 * k) := by rw [Nat.mul_add, Nat.pow_add]; omega
    rw [natLE, leNat, ih, e, Nat.mod_mul]
    simp

end Sys2Proof.Machine
end

