-- ==== Sys2Proof/Laws/State.lean ====
section
/-!
SUPPORT. What each update of the state leaves as it was, field by field, and what it makes of the field it changes.
-/

namespace Sys2Proof.Machine

/-! ### State.setReg -/

section
variable (s : State) (a : Nat) (x : W64)

@[simp] theorem setReg_inbox : (s.setReg a x).inbox = s.inbox := rfl
@[simp] theorem setReg_cur : (s.setReg a x).cur = s.cur := rfl
@[simp] theorem setReg_free : (s.setReg a x).free = s.free := rfl
@[simp] theorem setReg_out : (s.setReg a x).out = s.out := rfl
@[simp] theorem setReg_events : (s.setReg a x).events = s.events := rfl
@[simp] theorem setReg_nextId : (s.setReg a x).nextId = s.nextId := rfl
@[simp] theorem setReg_blocks : (s.setReg a x).blocks = s.blocks := rfl
@[simp] theorem setReg_courses : (s.setReg a x).courses = s.courses := rfl
@[simp] theorem setReg_bins : (s.setReg a x).bins = s.bins := rfl
@[simp] theorem setReg_mccs : (s.setReg a x).mccs = s.mccs := rfl
@[simp] theorem setReg_copies : (s.setReg a x).copies = s.copies := rfl
@[simp] theorem setReg_mem : (s.setReg a x).mem = s.mem := rfl
@[simp] theorem setReg_eave : (s.setReg a x).eave = s.eave := rfl
@[simp] theorem setReg_durp : (s.setReg a x).durp = s.durp := rfl
@[simp] theorem setReg_fwWait : (s.setReg a x).fwWait = s.fwWait := rfl
@[simp] theorem setReg_host : (s.setReg a x).host = s.host := rfl
@[simp] theorem setReg_tags : (s.setReg a x).tags = s.tags := rfl
@[simp] theorem setReg_poison : (s.setReg a x).poison = s.poison := rfl
@[simp] theorem setReg_hostPoison : (s.setReg a x).hostPoison = s.hostPoison := rfl
@[simp] theorem setReg_dirty : (s.setReg a x).dirty = s.dirty := rfl
@[simp] theorem setReg_parts : (s.setReg a x).parts = s.parts := rfl
@[simp] theorem setReg_cover : (s.setReg a x).cover = s.cover := rfl
@[simp] theorem setReg_pend : (s.setReg a x).pend = s.pend := rfl
@[simp] theorem setReg_l1 : (s.setReg a x).l1 = s.l1 := rfl
@[simp] theorem setReg_owner : (s.setReg a x).owner = s.owner := rfl
@[simp] theorem setReg_ro : (s.setReg a x).ro = s.ro := rfl
@[simp] theorem setReg_und : (s.setReg a x).und = s.und := rfl
@[simp] theorem setReg_poolFree : (s.setReg a x).poolFree = s.poolFree := rfl
@[simp] theorem setReg_poolWait : (s.setReg a x).poolWait = s.poolWait := rfl
@[simp] theorem setReg_hostLines : (s.setReg a x).hostLines = s.hostLines := rfl
@[simp] theorem setReg_hdmSize : (s.setReg a x).hdmSize = s.hdmSize := rfl
@[simp] theorem setReg_hdmHost : (s.setReg a x).hdmHost = s.hdmHost := rfl
@[simp] theorem setReg_bisnp : (s.setReg a x).bisnp = s.bisnp := rfl
@[simp] theorem setReg_linkWait : (s.setReg a x).linkWait = s.linkWait := rfl
@[simp] theorem setReg_reqs : (s.setReg a x).reqs = s.reqs := rfl
@[simp] theorem setReg_lost : (s.setReg a x).lost = s.lost := rfl
@[simp] theorem setReg_spdm : (s.setReg a x).spdm = s.spdm := rfl
@[simp] theorem setReg_ideKeys : (s.setReg a x).ideKeys = s.ideKeys := rfl
@[simp] theorem setReg_launches : (s.setReg a x).launches = s.launches := rfl
@[simp] theorem setReg_partitions : (s.setReg a x).partitions = s.partitions := rfl
@[simp] theorem setReg_binds : (s.setReg a x).binds = s.binds := rfl
@[simp] theorem setReg_gwait : (s.setReg a x).gwait = s.gwait := rfl
@[simp] theorem setReg_gheld : (s.setReg a x).gheld = s.gheld := rfl
@[simp] theorem setReg_gopen : (s.setReg a x).gopen = s.gopen := rfl
@[simp] theorem setReg_gqBroken : (s.setReg a x).gqBroken = s.gqBroken := rfl
@[simp] theorem setReg_banks : (s.setReg a x).banks = s.banks := rfl
@[simp] theorem setReg_votes : (s.setReg a x).votes = s.votes := rfl
@[simp] theorem setReg_scores : (s.setReg a x).scores = s.scores := rfl
@[simp] theorem setReg_halved : (s.setReg a x).halved = s.halved := rfl
@[simp] theorem setReg_coreMap : (s.setReg a x).coreMap = s.coreMap := rfl
@[simp] theorem setReg_degraded : (s.setReg a x).degraded = s.degraded := rfl
@[simp] theorem setReg_quarantine : (s.setReg a x).quarantine = s.quarantine := rfl
@[simp] theorem setReg_repairs : (s.setReg a x).repairs = s.repairs := rfl
@[simp] theorem setReg_spares : (s.setReg a x).spares = s.spares := rfl
@[simp] theorem setReg_scanning : (s.setReg a x).scanning = s.scanning := rfl
@[simp] theorem setReg_scanned : (s.setReg a x).scanned = s.scanned := rfl
@[simp] theorem setReg_badCores : (s.setReg a x).badCores = s.badCores := rfl
@[simp] theorem setReg_fuses : (s.setReg a x).fuses = s.fuses := rfl
@[simp] theorem setReg_diesOut : (s.setReg a x).diesOut = s.diesOut := rfl
@[simp] theorem setReg_topo : (s.setReg a x).topo = s.topo := rfl
@[simp] theorem setReg_claims : (s.setReg a x).claims = s.claims := rfl
@[simp] theorem setReg_tlbinv : (s.setReg a x).tlbinv = s.tlbinv := rfl
@[simp] theorem setReg_manBusy : (s.setReg a x).manBusy = s.manBusy := rfl
@[simp] theorem setReg_manVal : (s.setReg a x).manVal = s.manVal := rfl
@[simp] theorem setReg_measured : (s.setReg a x).measured = s.measured := rfl
@[simp] theorem setReg_islands : (s.setReg a x).islands = s.islands := rfl
@[simp] theorem setReg_power : (s.setReg a x).power = s.power := rfl
@[simp] theorem setReg_ctr : (s.setReg a x).ctr = s.ctr := rfl
@[simp] theorem setReg_actcyc : (s.setReg a x).actcyc = s.actcyc := rfl
@[simp] theorem setReg_trig : (s.setReg a x).trig = s.trig := rfl
@[simp] theorem setReg_trigHit : (s.setReg a x).trigHit = s.trigHit := rfl
@[simp] theorem setReg_trigStop : (s.setReg a x).trigStop = s.trigStop := rfl
@[simp] theorem setReg_trigWr : (s.setReg a x).trigWr = s.trigWr := rfl
@[simp] theorem setReg_cycle : (s.setReg a x).cycle = s.cycle := rfl
@[simp] theorem setReg_time12 : (s.setReg a x).time12 = s.time12 := rfl
@[simp] theorem setReg_timeFrac : (s.setReg a x).timeFrac = s.timeFrac := rfl
@[simp] theorem setReg_slew : (s.setReg a x).slew = s.slew := rfl
@[simp] theorem setReg_samples : (s.setReg a x).samples = s.samples := rfl
@[simp] theorem setReg_recs : (s.setReg a x).recs = s.recs := rfl
@[simp] theorem setReg_used : (s.setReg a x).used = s.used := rfl
@[simp] theorem setReg_moved : (s.setReg a x).moved = s.moved := rfl
@[simp] theorem setReg_turn : (s.setReg a x).turn = s.turn := rfl
@[simp] theorem setReg_dieCycle : (s.setReg a x).dieCycle = s.dieCycle := rfl
@[simp] theorem setReg_rollbacks : (s.setReg a x).rollbacks = s.rollbacks := rfl
@[simp] theorem setReg_vacated : (s.setReg a x).vacated = s.vacated := rfl
@[simp] theorem setReg_rootHash : (s.setReg a x).rootHash = s.rootHash := rfl
@[simp] theorem setReg_encrypted : (s.setReg a x).encrypted = s.encrypted := rfl

end

/-! ### State.burn -/

section
variable (s : State) (n : Nat)

@[simp] theorem burn_inbox : (s.burn n).inbox = s.inbox := rfl
@[simp] theorem burn_cur : (s.burn n).cur = s.cur := rfl
@[simp] theorem burn_out : (s.burn n).out = s.out := rfl
@[simp] theorem burn_events : (s.burn n).events = s.events := rfl
@[simp] theorem burn_nextId : (s.burn n).nextId = s.nextId := rfl
@[simp] theorem burn_blocks : (s.burn n).blocks = s.blocks := rfl
@[simp] theorem burn_courses : (s.burn n).courses = s.courses := rfl
@[simp] theorem burn_bins : (s.burn n).bins = s.bins := rfl
@[simp] theorem burn_mccs : (s.burn n).mccs = s.mccs := rfl
@[simp] theorem burn_copies : (s.burn n).copies = s.copies := rfl
@[simp] theorem burn_mem : (s.burn n).mem = s.mem := rfl
@[simp] theorem burn_eave : (s.burn n).eave = s.eave := rfl
@[simp] theorem burn_durp : (s.burn n).durp = s.durp := rfl
@[simp] theorem burn_fwWait : (s.burn n).fwWait = s.fwWait := rfl
@[simp] theorem burn_host : (s.burn n).host = s.host := rfl
@[simp] theorem burn_tags : (s.burn n).tags = s.tags := rfl
@[simp] theorem burn_poison : (s.burn n).poison = s.poison := rfl
@[simp] theorem burn_hostPoison : (s.burn n).hostPoison = s.hostPoison := rfl
@[simp] theorem burn_dirty : (s.burn n).dirty = s.dirty := rfl
@[simp] theorem burn_parts : (s.burn n).parts = s.parts := rfl
@[simp] theorem burn_cover : (s.burn n).cover = s.cover := rfl
@[simp] theorem burn_pend : (s.burn n).pend = s.pend := rfl
@[simp] theorem burn_l1 : (s.burn n).l1 = s.l1 := rfl
@[simp] theorem burn_owner : (s.burn n).owner = s.owner := rfl
@[simp] theorem burn_ro : (s.burn n).ro = s.ro := rfl
@[simp] theorem burn_und : (s.burn n).und = s.und := rfl
@[simp] theorem burn_poolFree : (s.burn n).poolFree = s.poolFree := rfl
@[simp] theorem burn_poolWait : (s.burn n).poolWait = s.poolWait := rfl
@[simp] theorem burn_hostLines : (s.burn n).hostLines = s.hostLines := rfl
@[simp] theorem burn_hdmSize : (s.burn n).hdmSize = s.hdmSize := rfl
@[simp] theorem burn_hdmHost : (s.burn n).hdmHost = s.hdmHost := rfl
@[simp] theorem burn_bisnp : (s.burn n).bisnp = s.bisnp := rfl
@[simp] theorem burn_linkWait : (s.burn n).linkWait = s.linkWait := rfl
@[simp] theorem burn_reqs : (s.burn n).reqs = s.reqs := rfl
@[simp] theorem burn_lost : (s.burn n).lost = s.lost := rfl
@[simp] theorem burn_spdm : (s.burn n).spdm = s.spdm := rfl
@[simp] theorem burn_ideKeys : (s.burn n).ideKeys = s.ideKeys := rfl
@[simp] theorem burn_launches : (s.burn n).launches = s.launches := rfl
@[simp] theorem burn_partitions : (s.burn n).partitions = s.partitions := rfl
@[simp] theorem burn_binds : (s.burn n).binds = s.binds := rfl
@[simp] theorem burn_gwait : (s.burn n).gwait = s.gwait := rfl
@[simp] theorem burn_gheld : (s.burn n).gheld = s.gheld := rfl
@[simp] theorem burn_gopen : (s.burn n).gopen = s.gopen := rfl
@[simp] theorem burn_gqBroken : (s.burn n).gqBroken = s.gqBroken := rfl
@[simp] theorem burn_banks : (s.burn n).banks = s.banks := rfl
@[simp] theorem burn_votes : (s.burn n).votes = s.votes := rfl
@[simp] theorem burn_scores : (s.burn n).scores = s.scores := rfl
@[simp] theorem burn_halved : (s.burn n).halved = s.halved := rfl
@[simp] theorem burn_coreMap : (s.burn n).coreMap = s.coreMap := rfl
@[simp] theorem burn_degraded : (s.burn n).degraded = s.degraded := rfl
@[simp] theorem burn_quarantine : (s.burn n).quarantine = s.quarantine := rfl
@[simp] theorem burn_repairs : (s.burn n).repairs = s.repairs := rfl
@[simp] theorem burn_spares : (s.burn n).spares = s.spares := rfl
@[simp] theorem burn_scanning : (s.burn n).scanning = s.scanning := rfl
@[simp] theorem burn_scanned : (s.burn n).scanned = s.scanned := rfl
@[simp] theorem burn_badCores : (s.burn n).badCores = s.badCores := rfl
@[simp] theorem burn_fuses : (s.burn n).fuses = s.fuses := rfl
@[simp] theorem burn_diesOut : (s.burn n).diesOut = s.diesOut := rfl
@[simp] theorem burn_regs : (s.burn n).regs = s.regs := rfl
@[simp] theorem burn_topo : (s.burn n).topo = s.topo := rfl
@[simp] theorem burn_claims : (s.burn n).claims = s.claims := rfl
@[simp] theorem burn_tlbinv : (s.burn n).tlbinv = s.tlbinv := rfl
@[simp] theorem burn_manBusy : (s.burn n).manBusy = s.manBusy := rfl
@[simp] theorem burn_manVal : (s.burn n).manVal = s.manVal := rfl
@[simp] theorem burn_measured : (s.burn n).measured = s.measured := rfl
@[simp] theorem burn_islands : (s.burn n).islands = s.islands := rfl
@[simp] theorem burn_power : (s.burn n).power = s.power := rfl
@[simp] theorem burn_ctr : (s.burn n).ctr = s.ctr := rfl
@[simp] theorem burn_actcyc : (s.burn n).actcyc = s.actcyc := rfl
@[simp] theorem burn_trig : (s.burn n).trig = s.trig := rfl
@[simp] theorem burn_trigHit : (s.burn n).trigHit = s.trigHit := rfl
@[simp] theorem burn_trigStop : (s.burn n).trigStop = s.trigStop := rfl
@[simp] theorem burn_trigWr : (s.burn n).trigWr = s.trigWr := rfl
@[simp] theorem burn_cycle : (s.burn n).cycle = s.cycle := rfl
@[simp] theorem burn_time12 : (s.burn n).time12 = s.time12 := rfl
@[simp] theorem burn_timeFrac : (s.burn n).timeFrac = s.timeFrac := rfl
@[simp] theorem burn_slew : (s.burn n).slew = s.slew := rfl
@[simp] theorem burn_samples : (s.burn n).samples = s.samples := rfl
@[simp] theorem burn_recs : (s.burn n).recs = s.recs := rfl
@[simp] theorem burn_used : (s.burn n).used = s.used := rfl
@[simp] theorem burn_moved : (s.burn n).moved = s.moved := rfl
@[simp] theorem burn_turn : (s.burn n).turn = s.turn := rfl
@[simp] theorem burn_dieCycle : (s.burn n).dieCycle = s.dieCycle := rfl
@[simp] theorem burn_rollbacks : (s.burn n).rollbacks = s.rollbacks := rfl
@[simp] theorem burn_vacated : (s.burn n).vacated = s.vacated := rfl
@[simp] theorem burn_rootHash : (s.burn n).rootHash = s.rootHash := rfl
@[simp] theorem burn_encrypted : (s.burn n).encrypted = s.encrypted := rfl

end

/-! ### State.send -/

section
variable (s : State) (m : Msg)

@[simp] theorem send_inbox : (s.send m).inbox = s.inbox := rfl
@[simp] theorem send_cur : (s.send m).cur = s.cur := rfl
@[simp] theorem send_free : (s.send m).free = s.free := rfl
@[simp] theorem send_events : (s.send m).events = s.events := rfl
@[simp] theorem send_nextId : (s.send m).nextId = s.nextId := rfl
@[simp] theorem send_blocks : (s.send m).blocks = s.blocks := rfl
@[simp] theorem send_courses : (s.send m).courses = s.courses := rfl
@[simp] theorem send_bins : (s.send m).bins = s.bins := rfl
@[simp] theorem send_mccs : (s.send m).mccs = s.mccs := rfl
@[simp] theorem send_copies : (s.send m).copies = s.copies := rfl
@[simp] theorem send_mem : (s.send m).mem = s.mem := rfl
@[simp] theorem send_eave : (s.send m).eave = s.eave := rfl
@[simp] theorem send_durp : (s.send m).durp = s.durp := rfl
@[simp] theorem send_fwWait : (s.send m).fwWait = s.fwWait := rfl
@[simp] theorem send_host : (s.send m).host = s.host := rfl
@[simp] theorem send_tags : (s.send m).tags = s.tags := rfl
@[simp] theorem send_poison : (s.send m).poison = s.poison := rfl
@[simp] theorem send_hostPoison : (s.send m).hostPoison = s.hostPoison := rfl
@[simp] theorem send_dirty : (s.send m).dirty = s.dirty := rfl
@[simp] theorem send_parts : (s.send m).parts = s.parts := rfl
@[simp] theorem send_cover : (s.send m).cover = s.cover := rfl
@[simp] theorem send_pend : (s.send m).pend = s.pend := rfl
@[simp] theorem send_l1 : (s.send m).l1 = s.l1 := rfl
@[simp] theorem send_owner : (s.send m).owner = s.owner := rfl
@[simp] theorem send_ro : (s.send m).ro = s.ro := rfl
@[simp] theorem send_und : (s.send m).und = s.und := rfl
@[simp] theorem send_poolFree : (s.send m).poolFree = s.poolFree := rfl
@[simp] theorem send_poolWait : (s.send m).poolWait = s.poolWait := rfl
@[simp] theorem send_hostLines : (s.send m).hostLines = s.hostLines := rfl
@[simp] theorem send_hdmSize : (s.send m).hdmSize = s.hdmSize := rfl
@[simp] theorem send_hdmHost : (s.send m).hdmHost = s.hdmHost := rfl
@[simp] theorem send_bisnp : (s.send m).bisnp = s.bisnp := rfl
@[simp] theorem send_linkWait : (s.send m).linkWait = s.linkWait := rfl
@[simp] theorem send_reqs : (s.send m).reqs = s.reqs := rfl
@[simp] theorem send_lost : (s.send m).lost = s.lost := rfl
@[simp] theorem send_spdm : (s.send m).spdm = s.spdm := rfl
@[simp] theorem send_ideKeys : (s.send m).ideKeys = s.ideKeys := rfl
@[simp] theorem send_launches : (s.send m).launches = s.launches := rfl
@[simp] theorem send_partitions : (s.send m).partitions = s.partitions := rfl
@[simp] theorem send_binds : (s.send m).binds = s.binds := rfl
@[simp] theorem send_gwait : (s.send m).gwait = s.gwait := rfl
@[simp] theorem send_gheld : (s.send m).gheld = s.gheld := rfl
@[simp] theorem send_gopen : (s.send m).gopen = s.gopen := rfl
@[simp] theorem send_gqBroken : (s.send m).gqBroken = s.gqBroken := rfl
@[simp] theorem send_banks : (s.send m).banks = s.banks := rfl
@[simp] theorem send_votes : (s.send m).votes = s.votes := rfl
@[simp] theorem send_scores : (s.send m).scores = s.scores := rfl
@[simp] theorem send_halved : (s.send m).halved = s.halved := rfl
@[simp] theorem send_coreMap : (s.send m).coreMap = s.coreMap := rfl
@[simp] theorem send_degraded : (s.send m).degraded = s.degraded := rfl
@[simp] theorem send_quarantine : (s.send m).quarantine = s.quarantine := rfl
@[simp] theorem send_repairs : (s.send m).repairs = s.repairs := rfl
@[simp] theorem send_spares : (s.send m).spares = s.spares := rfl
@[simp] theorem send_scanning : (s.send m).scanning = s.scanning := rfl
@[simp] theorem send_scanned : (s.send m).scanned = s.scanned := rfl
@[simp] theorem send_badCores : (s.send m).badCores = s.badCores := rfl
@[simp] theorem send_fuses : (s.send m).fuses = s.fuses := rfl
@[simp] theorem send_diesOut : (s.send m).diesOut = s.diesOut := rfl
@[simp] theorem send_regs : (s.send m).regs = s.regs := rfl
@[simp] theorem send_topo : (s.send m).topo = s.topo := rfl
@[simp] theorem send_claims : (s.send m).claims = s.claims := rfl
@[simp] theorem send_tlbinv : (s.send m).tlbinv = s.tlbinv := rfl
@[simp] theorem send_manBusy : (s.send m).manBusy = s.manBusy := rfl
@[simp] theorem send_manVal : (s.send m).manVal = s.manVal := rfl
@[simp] theorem send_measured : (s.send m).measured = s.measured := rfl
@[simp] theorem send_islands : (s.send m).islands = s.islands := rfl
@[simp] theorem send_power : (s.send m).power = s.power := rfl
@[simp] theorem send_ctr : (s.send m).ctr = s.ctr := rfl
@[simp] theorem send_actcyc : (s.send m).actcyc = s.actcyc := rfl
@[simp] theorem send_trig : (s.send m).trig = s.trig := rfl
@[simp] theorem send_trigHit : (s.send m).trigHit = s.trigHit := rfl
@[simp] theorem send_trigStop : (s.send m).trigStop = s.trigStop := rfl
@[simp] theorem send_trigWr : (s.send m).trigWr = s.trigWr := rfl
@[simp] theorem send_cycle : (s.send m).cycle = s.cycle := rfl
@[simp] theorem send_time12 : (s.send m).time12 = s.time12 := rfl
@[simp] theorem send_timeFrac : (s.send m).timeFrac = s.timeFrac := rfl
@[simp] theorem send_slew : (s.send m).slew = s.slew := rfl
@[simp] theorem send_samples : (s.send m).samples = s.samples := rfl
@[simp] theorem send_recs : (s.send m).recs = s.recs := rfl
@[simp] theorem send_used : (s.send m).used = s.used := rfl
@[simp] theorem send_moved : (s.send m).moved = s.moved := rfl
@[simp] theorem send_turn : (s.send m).turn = s.turn := rfl
@[simp] theorem send_dieCycle : (s.send m).dieCycle = s.dieCycle := rfl
@[simp] theorem send_rollbacks : (s.send m).rollbacks = s.rollbacks := rfl
@[simp] theorem send_vacated : (s.send m).vacated = s.vacated := rfl
@[simp] theorem send_rootHash : (s.send m).rootHash = s.rootHash := rfl
@[simp] theorem send_encrypted : (s.send m).encrypted = s.encrypted := rfl

end

/-! ### State.bumpId -/

section
variable (s : State)

@[simp] theorem bumpId_inbox : (s.bumpId).inbox = s.inbox := rfl
@[simp] theorem bumpId_cur : (s.bumpId).cur = s.cur := rfl
@[simp] theorem bumpId_free : (s.bumpId).free = s.free := rfl
@[simp] theorem bumpId_out : (s.bumpId).out = s.out := rfl
@[simp] theorem bumpId_events : (s.bumpId).events = s.events := rfl
@[simp] theorem bumpId_blocks : (s.bumpId).blocks = s.blocks := rfl
@[simp] theorem bumpId_courses : (s.bumpId).courses = s.courses := rfl
@[simp] theorem bumpId_bins : (s.bumpId).bins = s.bins := rfl
@[simp] theorem bumpId_mccs : (s.bumpId).mccs = s.mccs := rfl
@[simp] theorem bumpId_copies : (s.bumpId).copies = s.copies := rfl
@[simp] theorem bumpId_mem : (s.bumpId).mem = s.mem := rfl
@[simp] theorem bumpId_eave : (s.bumpId).eave = s.eave := rfl
@[simp] theorem bumpId_durp : (s.bumpId).durp = s.durp := rfl
@[simp] theorem bumpId_fwWait : (s.bumpId).fwWait = s.fwWait := rfl
@[simp] theorem bumpId_host : (s.bumpId).host = s.host := rfl
@[simp] theorem bumpId_tags : (s.bumpId).tags = s.tags := rfl
@[simp] theorem bumpId_poison : (s.bumpId).poison = s.poison := rfl
@[simp] theorem bumpId_hostPoison : (s.bumpId).hostPoison = s.hostPoison := rfl
@[simp] theorem bumpId_dirty : (s.bumpId).dirty = s.dirty := rfl
@[simp] theorem bumpId_parts : (s.bumpId).parts = s.parts := rfl
@[simp] theorem bumpId_cover : (s.bumpId).cover = s.cover := rfl
@[simp] theorem bumpId_pend : (s.bumpId).pend = s.pend := rfl
@[simp] theorem bumpId_l1 : (s.bumpId).l1 = s.l1 := rfl
@[simp] theorem bumpId_owner : (s.bumpId).owner = s.owner := rfl
@[simp] theorem bumpId_ro : (s.bumpId).ro = s.ro := rfl
@[simp] theorem bumpId_und : (s.bumpId).und = s.und := rfl
@[simp] theorem bumpId_poolFree : (s.bumpId).poolFree = s.poolFree := rfl
@[simp] theorem bumpId_poolWait : (s.bumpId).poolWait = s.poolWait := rfl
@[simp] theorem bumpId_hostLines : (s.bumpId).hostLines = s.hostLines := rfl
@[simp] theorem bumpId_hdmSize : (s.bumpId).hdmSize = s.hdmSize := rfl
@[simp] theorem bumpId_hdmHost : (s.bumpId).hdmHost = s.hdmHost := rfl
@[simp] theorem bumpId_bisnp : (s.bumpId).bisnp = s.bisnp := rfl
@[simp] theorem bumpId_linkWait : (s.bumpId).linkWait = s.linkWait := rfl
@[simp] theorem bumpId_reqs : (s.bumpId).reqs = s.reqs := rfl
@[simp] theorem bumpId_lost : (s.bumpId).lost = s.lost := rfl
@[simp] theorem bumpId_spdm : (s.bumpId).spdm = s.spdm := rfl
@[simp] theorem bumpId_ideKeys : (s.bumpId).ideKeys = s.ideKeys := rfl
@[simp] theorem bumpId_launches : (s.bumpId).launches = s.launches := rfl
@[simp] theorem bumpId_partitions : (s.bumpId).partitions = s.partitions := rfl
@[simp] theorem bumpId_binds : (s.bumpId).binds = s.binds := rfl
@[simp] theorem bumpId_gwait : (s.bumpId).gwait = s.gwait := rfl
@[simp] theorem bumpId_gheld : (s.bumpId).gheld = s.gheld := rfl
@[simp] theorem bumpId_gopen : (s.bumpId).gopen = s.gopen := rfl
@[simp] theorem bumpId_gqBroken : (s.bumpId).gqBroken = s.gqBroken := rfl
@[simp] theorem bumpId_banks : (s.bumpId).banks = s.banks := rfl
@[simp] theorem bumpId_votes : (s.bumpId).votes = s.votes := rfl
@[simp] theorem bumpId_scores : (s.bumpId).scores = s.scores := rfl
@[simp] theorem bumpId_halved : (s.bumpId).halved = s.halved := rfl
@[simp] theorem bumpId_coreMap : (s.bumpId).coreMap = s.coreMap := rfl
@[simp] theorem bumpId_degraded : (s.bumpId).degraded = s.degraded := rfl
@[simp] theorem bumpId_quarantine : (s.bumpId).quarantine = s.quarantine := rfl
@[simp] theorem bumpId_repairs : (s.bumpId).repairs = s.repairs := rfl
@[simp] theorem bumpId_spares : (s.bumpId).spares = s.spares := rfl
@[simp] theorem bumpId_scanning : (s.bumpId).scanning = s.scanning := rfl
@[simp] theorem bumpId_scanned : (s.bumpId).scanned = s.scanned := rfl
@[simp] theorem bumpId_badCores : (s.bumpId).badCores = s.badCores := rfl
@[simp] theorem bumpId_fuses : (s.bumpId).fuses = s.fuses := rfl
@[simp] theorem bumpId_diesOut : (s.bumpId).diesOut = s.diesOut := rfl
@[simp] theorem bumpId_regs : (s.bumpId).regs = s.regs := rfl
@[simp] theorem bumpId_topo : (s.bumpId).topo = s.topo := rfl
@[simp] theorem bumpId_claims : (s.bumpId).claims = s.claims := rfl
@[simp] theorem bumpId_tlbinv : (s.bumpId).tlbinv = s.tlbinv := rfl
@[simp] theorem bumpId_manBusy : (s.bumpId).manBusy = s.manBusy := rfl
@[simp] theorem bumpId_manVal : (s.bumpId).manVal = s.manVal := rfl
@[simp] theorem bumpId_measured : (s.bumpId).measured = s.measured := rfl
@[simp] theorem bumpId_islands : (s.bumpId).islands = s.islands := rfl
@[simp] theorem bumpId_power : (s.bumpId).power = s.power := rfl
@[simp] theorem bumpId_ctr : (s.bumpId).ctr = s.ctr := rfl
@[simp] theorem bumpId_actcyc : (s.bumpId).actcyc = s.actcyc := rfl
@[simp] theorem bumpId_trig : (s.bumpId).trig = s.trig := rfl
@[simp] theorem bumpId_trigHit : (s.bumpId).trigHit = s.trigHit := rfl
@[simp] theorem bumpId_trigStop : (s.bumpId).trigStop = s.trigStop := rfl
@[simp] theorem bumpId_trigWr : (s.bumpId).trigWr = s.trigWr := rfl
@[simp] theorem bumpId_cycle : (s.bumpId).cycle = s.cycle := rfl
@[simp] theorem bumpId_time12 : (s.bumpId).time12 = s.time12 := rfl
@[simp] theorem bumpId_timeFrac : (s.bumpId).timeFrac = s.timeFrac := rfl
@[simp] theorem bumpId_slew : (s.bumpId).slew = s.slew := rfl
@[simp] theorem bumpId_samples : (s.bumpId).samples = s.samples := rfl
@[simp] theorem bumpId_recs : (s.bumpId).recs = s.recs := rfl
@[simp] theorem bumpId_used : (s.bumpId).used = s.used := rfl
@[simp] theorem bumpId_moved : (s.bumpId).moved = s.moved := rfl
@[simp] theorem bumpId_turn : (s.bumpId).turn = s.turn := rfl
@[simp] theorem bumpId_dieCycle : (s.bumpId).dieCycle = s.dieCycle := rfl
@[simp] theorem bumpId_rollbacks : (s.bumpId).rollbacks = s.rollbacks := rfl
@[simp] theorem bumpId_vacated : (s.bumpId).vacated = s.vacated := rfl
@[simp] theorem bumpId_rootHash : (s.bumpId).rootHash = s.rootHash := rfl
@[simp] theorem bumpId_encrypted : (s.bumpId).encrypted = s.encrypted := rfl

end

/-! ### State.updPart -/

section
variable (s : State) (p : Nat) (f : Partition → Partition)

@[simp] theorem updPart_inbox : (s.updPart p f).inbox = s.inbox := rfl
@[simp] theorem updPart_cur : (s.updPart p f).cur = s.cur := rfl
@[simp] theorem updPart_free : (s.updPart p f).free = s.free := rfl
@[simp] theorem updPart_out : (s.updPart p f).out = s.out := rfl
@[simp] theorem updPart_events : (s.updPart p f).events = s.events := rfl
@[simp] theorem updPart_nextId : (s.updPart p f).nextId = s.nextId := rfl
@[simp] theorem updPart_blocks : (s.updPart p f).blocks = s.blocks := rfl
@[simp] theorem updPart_courses : (s.updPart p f).courses = s.courses := rfl
@[simp] theorem updPart_bins : (s.updPart p f).bins = s.bins := rfl
@[simp] theorem updPart_mccs : (s.updPart p f).mccs = s.mccs := rfl
@[simp] theorem updPart_copies : (s.updPart p f).copies = s.copies := rfl
@[simp] theorem updPart_mem : (s.updPart p f).mem = s.mem := rfl
@[simp] theorem updPart_eave : (s.updPart p f).eave = s.eave := rfl
@[simp] theorem updPart_durp : (s.updPart p f).durp = s.durp := rfl
@[simp] theorem updPart_fwWait : (s.updPart p f).fwWait = s.fwWait := rfl
@[simp] theorem updPart_host : (s.updPart p f).host = s.host := rfl
@[simp] theorem updPart_tags : (s.updPart p f).tags = s.tags := rfl
@[simp] theorem updPart_poison : (s.updPart p f).poison = s.poison := rfl
@[simp] theorem updPart_hostPoison : (s.updPart p f).hostPoison = s.hostPoison := rfl
@[simp] theorem updPart_dirty : (s.updPart p f).dirty = s.dirty := rfl
@[simp] theorem updPart_parts : (s.updPart p f).parts = s.parts := rfl
@[simp] theorem updPart_cover : (s.updPart p f).cover = s.cover := rfl
@[simp] theorem updPart_pend : (s.updPart p f).pend = s.pend := rfl
@[simp] theorem updPart_l1 : (s.updPart p f).l1 = s.l1 := rfl
@[simp] theorem updPart_owner : (s.updPart p f).owner = s.owner := rfl
@[simp] theorem updPart_ro : (s.updPart p f).ro = s.ro := rfl
@[simp] theorem updPart_und : (s.updPart p f).und = s.und := rfl
@[simp] theorem updPart_poolFree : (s.updPart p f).poolFree = s.poolFree := rfl
@[simp] theorem updPart_poolWait : (s.updPart p f).poolWait = s.poolWait := rfl
@[simp] theorem updPart_hostLines : (s.updPart p f).hostLines = s.hostLines := rfl
@[simp] theorem updPart_hdmSize : (s.updPart p f).hdmSize = s.hdmSize := rfl
@[simp] theorem updPart_hdmHost : (s.updPart p f).hdmHost = s.hdmHost := rfl
@[simp] theorem updPart_bisnp : (s.updPart p f).bisnp = s.bisnp := rfl
@[simp] theorem updPart_linkWait : (s.updPart p f).linkWait = s.linkWait := rfl
@[simp] theorem updPart_reqs : (s.updPart p f).reqs = s.reqs := rfl
@[simp] theorem updPart_lost : (s.updPart p f).lost = s.lost := rfl
@[simp] theorem updPart_spdm : (s.updPart p f).spdm = s.spdm := rfl
@[simp] theorem updPart_ideKeys : (s.updPart p f).ideKeys = s.ideKeys := rfl
@[simp] theorem updPart_launches : (s.updPart p f).launches = s.launches := rfl
@[simp] theorem updPart_binds : (s.updPart p f).binds = s.binds := rfl
@[simp] theorem updPart_gwait : (s.updPart p f).gwait = s.gwait := rfl
@[simp] theorem updPart_gheld : (s.updPart p f).gheld = s.gheld := rfl
@[simp] theorem updPart_gopen : (s.updPart p f).gopen = s.gopen := rfl
@[simp] theorem updPart_gqBroken : (s.updPart p f).gqBroken = s.gqBroken := rfl
@[simp] theorem updPart_banks : (s.updPart p f).banks = s.banks := rfl
@[simp] theorem updPart_votes : (s.updPart p f).votes = s.votes := rfl
@[simp] theorem updPart_scores : (s.updPart p f).scores = s.scores := rfl
@[simp] theorem updPart_halved : (s.updPart p f).halved = s.halved := rfl
@[simp] theorem updPart_coreMap : (s.updPart p f).coreMap = s.coreMap := rfl
@[simp] theorem updPart_degraded : (s.updPart p f).degraded = s.degraded := rfl
@[simp] theorem updPart_quarantine : (s.updPart p f).quarantine = s.quarantine := rfl
@[simp] theorem updPart_repairs : (s.updPart p f).repairs = s.repairs := rfl
@[simp] theorem updPart_spares : (s.updPart p f).spares = s.spares := rfl
@[simp] theorem updPart_scanning : (s.updPart p f).scanning = s.scanning := rfl
@[simp] theorem updPart_scanned : (s.updPart p f).scanned = s.scanned := rfl
@[simp] theorem updPart_badCores : (s.updPart p f).badCores = s.badCores := rfl
@[simp] theorem updPart_fuses : (s.updPart p f).fuses = s.fuses := rfl
@[simp] theorem updPart_diesOut : (s.updPart p f).diesOut = s.diesOut := rfl
@[simp] theorem updPart_regs : (s.updPart p f).regs = s.regs := rfl
@[simp] theorem updPart_topo : (s.updPart p f).topo = s.topo := rfl
@[simp] theorem updPart_claims : (s.updPart p f).claims = s.claims := rfl
@[simp] theorem updPart_tlbinv : (s.updPart p f).tlbinv = s.tlbinv := rfl
@[simp] theorem updPart_manBusy : (s.updPart p f).manBusy = s.manBusy := rfl
@[simp] theorem updPart_manVal : (s.updPart p f).manVal = s.manVal := rfl
@[simp] theorem updPart_measured : (s.updPart p f).measured = s.measured := rfl
@[simp] theorem updPart_islands : (s.updPart p f).islands = s.islands := rfl
@[simp] theorem updPart_power : (s.updPart p f).power = s.power := rfl
@[simp] theorem updPart_ctr : (s.updPart p f).ctr = s.ctr := rfl
@[simp] theorem updPart_actcyc : (s.updPart p f).actcyc = s.actcyc := rfl
@[simp] theorem updPart_trig : (s.updPart p f).trig = s.trig := rfl
@[simp] theorem updPart_trigHit : (s.updPart p f).trigHit = s.trigHit := rfl
@[simp] theorem updPart_trigStop : (s.updPart p f).trigStop = s.trigStop := rfl
@[simp] theorem updPart_trigWr : (s.updPart p f).trigWr = s.trigWr := rfl
@[simp] theorem updPart_cycle : (s.updPart p f).cycle = s.cycle := rfl
@[simp] theorem updPart_time12 : (s.updPart p f).time12 = s.time12 := rfl
@[simp] theorem updPart_timeFrac : (s.updPart p f).timeFrac = s.timeFrac := rfl
@[simp] theorem updPart_slew : (s.updPart p f).slew = s.slew := rfl
@[simp] theorem updPart_samples : (s.updPart p f).samples = s.samples := rfl
@[simp] theorem updPart_recs : (s.updPart p f).recs = s.recs := rfl
@[simp] theorem updPart_used : (s.updPart p f).used = s.used := rfl
@[simp] theorem updPart_moved : (s.updPart p f).moved = s.moved := rfl
@[simp] theorem updPart_turn : (s.updPart p f).turn = s.turn := rfl
@[simp] theorem updPart_dieCycle : (s.updPart p f).dieCycle = s.dieCycle := rfl
@[simp] theorem updPart_rollbacks : (s.updPart p f).rollbacks = s.rollbacks := rfl
@[simp] theorem updPart_vacated : (s.updPart p f).vacated = s.vacated := rfl
@[simp] theorem updPart_rootHash : (s.updPart p f).rootHash = s.rootHash := rfl
@[simp] theorem updPart_encrypted : (s.updPart p f).encrypted = s.encrypted := rfl

end

/-! ### State.updLaunch -/

section
variable (s : State) (p n : Nat) (f : Launch → Launch)

@[simp] theorem updLaunch_inbox : (s.updLaunch p n f).inbox = s.inbox := rfl
@[simp] theorem updLaunch_cur : (s.updLaunch p n f).cur = s.cur := rfl
@[simp] theorem updLaunch_free : (s.updLaunch p n f).free = s.free := rfl
@[simp] theorem updLaunch_out : (s.updLaunch p n f).out = s.out := rfl
@[simp] theorem updLaunch_events : (s.updLaunch p n f).events = s.events := rfl
@[simp] theorem updLaunch_nextId : (s.updLaunch p n f).nextId = s.nextId := rfl
@[simp] theorem updLaunch_blocks : (s.updLaunch p n f).blocks = s.blocks := rfl
@[simp] theorem updLaunch_courses : (s.updLaunch p n f).courses = s.courses := rfl
@[simp] theorem updLaunch_bins : (s.updLaunch p n f).bins = s.bins := rfl
@[simp] theorem updLaunch_mccs : (s.updLaunch p n f).mccs = s.mccs := rfl
@[simp] theorem updLaunch_copies : (s.updLaunch p n f).copies = s.copies := rfl
@[simp] theorem updLaunch_mem : (s.updLaunch p n f).mem = s.mem := rfl
@[simp] theorem updLaunch_eave : (s.updLaunch p n f).eave = s.eave := rfl
@[simp] theorem updLaunch_durp : (s.updLaunch p n f).durp = s.durp := rfl
@[simp] theorem updLaunch_fwWait : (s.updLaunch p n f).fwWait = s.fwWait := rfl
@[simp] theorem updLaunch_host : (s.updLaunch p n f).host = s.host := rfl
@[simp] theorem updLaunch_tags : (s.updLaunch p n f).tags = s.tags := rfl
@[simp] theorem updLaunch_poison : (s.updLaunch p n f).poison = s.poison := rfl
@[simp] theorem updLaunch_hostPoison : (s.updLaunch p n f).hostPoison = s.hostPoison := rfl
@[simp] theorem updLaunch_dirty : (s.updLaunch p n f).dirty = s.dirty := rfl
@[simp] theorem updLaunch_parts : (s.updLaunch p n f).parts = s.parts := rfl
@[simp] theorem updLaunch_cover : (s.updLaunch p n f).cover = s.cover := rfl
@[simp] theorem updLaunch_pend : (s.updLaunch p n f).pend = s.pend := rfl
@[simp] theorem updLaunch_l1 : (s.updLaunch p n f).l1 = s.l1 := rfl
@[simp] theorem updLaunch_owner : (s.updLaunch p n f).owner = s.owner := rfl
@[simp] theorem updLaunch_ro : (s.updLaunch p n f).ro = s.ro := rfl
@[simp] theorem updLaunch_und : (s.updLaunch p n f).und = s.und := rfl
@[simp] theorem updLaunch_poolFree : (s.updLaunch p n f).poolFree = s.poolFree := rfl
@[simp] theorem updLaunch_poolWait : (s.updLaunch p n f).poolWait = s.poolWait := rfl
@[simp] theorem updLaunch_hostLines : (s.updLaunch p n f).hostLines = s.hostLines := rfl
@[simp] theorem updLaunch_hdmSize : (s.updLaunch p n f).hdmSize = s.hdmSize := rfl
@[simp] theorem updLaunch_hdmHost : (s.updLaunch p n f).hdmHost = s.hdmHost := rfl
@[simp] theorem updLaunch_bisnp : (s.updLaunch p n f).bisnp = s.bisnp := rfl
@[simp] theorem updLaunch_linkWait : (s.updLaunch p n f).linkWait = s.linkWait := rfl
@[simp] theorem updLaunch_reqs : (s.updLaunch p n f).reqs = s.reqs := rfl
@[simp] theorem updLaunch_lost : (s.updLaunch p n f).lost = s.lost := rfl
@[simp] theorem updLaunch_spdm : (s.updLaunch p n f).spdm = s.spdm := rfl
@[simp] theorem updLaunch_ideKeys : (s.updLaunch p n f).ideKeys = s.ideKeys := rfl
@[simp] theorem updLaunch_partitions : (s.updLaunch p n f).partitions = s.partitions := rfl
@[simp] theorem updLaunch_binds : (s.updLaunch p n f).binds = s.binds := rfl
@[simp] theorem updLaunch_gwait : (s.updLaunch p n f).gwait = s.gwait := rfl
@[simp] theorem updLaunch_gheld : (s.updLaunch p n f).gheld = s.gheld := rfl
@[simp] theorem updLaunch_gopen : (s.updLaunch p n f).gopen = s.gopen := rfl
@[simp] theorem updLaunch_gqBroken : (s.updLaunch p n f).gqBroken = s.gqBroken := rfl
@[simp] theorem updLaunch_banks : (s.updLaunch p n f).banks = s.banks := rfl
@[simp] theorem updLaunch_votes : (s.updLaunch p n f).votes = s.votes := rfl
@[simp] theorem updLaunch_scores : (s.updLaunch p n f).scores = s.scores := rfl
@[simp] theorem updLaunch_halved : (s.updLaunch p n f).halved = s.halved := rfl
@[simp] theorem updLaunch_coreMap : (s.updLaunch p n f).coreMap = s.coreMap := rfl
@[simp] theorem updLaunch_degraded : (s.updLaunch p n f).degraded = s.degraded := rfl
@[simp] theorem updLaunch_quarantine : (s.updLaunch p n f).quarantine = s.quarantine := rfl
@[simp] theorem updLaunch_repairs : (s.updLaunch p n f).repairs = s.repairs := rfl
@[simp] theorem updLaunch_spares : (s.updLaunch p n f).spares = s.spares := rfl
@[simp] theorem updLaunch_scanning : (s.updLaunch p n f).scanning = s.scanning := rfl
@[simp] theorem updLaunch_scanned : (s.updLaunch p n f).scanned = s.scanned := rfl
@[simp] theorem updLaunch_badCores : (s.updLaunch p n f).badCores = s.badCores := rfl
@[simp] theorem updLaunch_fuses : (s.updLaunch p n f).fuses = s.fuses := rfl
@[simp] theorem updLaunch_diesOut : (s.updLaunch p n f).diesOut = s.diesOut := rfl
@[simp] theorem updLaunch_regs : (s.updLaunch p n f).regs = s.regs := rfl
@[simp] theorem updLaunch_topo : (s.updLaunch p n f).topo = s.topo := rfl
@[simp] theorem updLaunch_claims : (s.updLaunch p n f).claims = s.claims := rfl
@[simp] theorem updLaunch_tlbinv : (s.updLaunch p n f).tlbinv = s.tlbinv := rfl
@[simp] theorem updLaunch_manBusy : (s.updLaunch p n f).manBusy = s.manBusy := rfl
@[simp] theorem updLaunch_manVal : (s.updLaunch p n f).manVal = s.manVal := rfl
@[simp] theorem updLaunch_measured : (s.updLaunch p n f).measured = s.measured := rfl
@[simp] theorem updLaunch_islands : (s.updLaunch p n f).islands = s.islands := rfl
@[simp] theorem updLaunch_power : (s.updLaunch p n f).power = s.power := rfl
@[simp] theorem updLaunch_ctr : (s.updLaunch p n f).ctr = s.ctr := rfl
@[simp] theorem updLaunch_actcyc : (s.updLaunch p n f).actcyc = s.actcyc := rfl
@[simp] theorem updLaunch_trig : (s.updLaunch p n f).trig = s.trig := rfl
@[simp] theorem updLaunch_trigHit : (s.updLaunch p n f).trigHit = s.trigHit := rfl
@[simp] theorem updLaunch_trigStop : (s.updLaunch p n f).trigStop = s.trigStop := rfl
@[simp] theorem updLaunch_trigWr : (s.updLaunch p n f).trigWr = s.trigWr := rfl
@[simp] theorem updLaunch_cycle : (s.updLaunch p n f).cycle = s.cycle := rfl
@[simp] theorem updLaunch_time12 : (s.updLaunch p n f).time12 = s.time12 := rfl
@[simp] theorem updLaunch_timeFrac : (s.updLaunch p n f).timeFrac = s.timeFrac := rfl
@[simp] theorem updLaunch_slew : (s.updLaunch p n f).slew = s.slew := rfl
@[simp] theorem updLaunch_samples : (s.updLaunch p n f).samples = s.samples := rfl
@[simp] theorem updLaunch_recs : (s.updLaunch p n f).recs = s.recs := rfl
@[simp] theorem updLaunch_used : (s.updLaunch p n f).used = s.used := rfl
@[simp] theorem updLaunch_moved : (s.updLaunch p n f).moved = s.moved := rfl
@[simp] theorem updLaunch_turn : (s.updLaunch p n f).turn = s.turn := rfl
@[simp] theorem updLaunch_dieCycle : (s.updLaunch p n f).dieCycle = s.dieCycle := rfl
@[simp] theorem updLaunch_rollbacks : (s.updLaunch p n f).rollbacks = s.rollbacks := rfl
@[simp] theorem updLaunch_vacated : (s.updLaunch p n f).vacated = s.vacated := rfl
@[simp] theorem updLaunch_rootHash : (s.updLaunch p n f).rootHash = s.rootHash := rfl
@[simp] theorem updLaunch_encrypted : (s.updLaunch p n f).encrypted = s.encrypted := rfl

end

/-! ### State.updBlock -/

section
variable (s : State) (k : BKey) (f : Block → Block)

@[simp] theorem updBlock_inbox : (s.updBlock k f).inbox = s.inbox := rfl
@[simp] theorem updBlock_cur : (s.updBlock k f).cur = s.cur := rfl
@[simp] theorem updBlock_free : (s.updBlock k f).free = s.free := rfl
@[simp] theorem updBlock_out : (s.updBlock k f).out = s.out := rfl
@[simp] theorem updBlock_events : (s.updBlock k f).events = s.events := rfl
@[simp] theorem updBlock_nextId : (s.updBlock k f).nextId = s.nextId := rfl
@[simp] theorem updBlock_courses : (s.updBlock k f).courses = s.courses := rfl
@[simp] theorem updBlock_bins : (s.updBlock k f).bins = s.bins := rfl
@[simp] theorem updBlock_mccs : (s.updBlock k f).mccs = s.mccs := rfl
@[simp] theorem updBlock_copies : (s.updBlock k f).copies = s.copies := rfl
@[simp] theorem updBlock_mem : (s.updBlock k f).mem = s.mem := rfl
@[simp] theorem updBlock_eave : (s.updBlock k f).eave = s.eave := rfl
@[simp] theorem updBlock_durp : (s.updBlock k f).durp = s.durp := rfl
@[simp] theorem updBlock_fwWait : (s.updBlock k f).fwWait = s.fwWait := rfl
@[simp] theorem updBlock_host : (s.updBlock k f).host = s.host := rfl
@[simp] theorem updBlock_tags : (s.updBlock k f).tags = s.tags := rfl
@[simp] theorem updBlock_poison : (s.updBlock k f).poison = s.poison := rfl
@[simp] theorem updBlock_hostPoison : (s.updBlock k f).hostPoison = s.hostPoison := rfl
@[simp] theorem updBlock_dirty : (s.updBlock k f).dirty = s.dirty := rfl
@[simp] theorem updBlock_parts : (s.updBlock k f).parts = s.parts := rfl
@[simp] theorem updBlock_cover : (s.updBlock k f).cover = s.cover := rfl
@[simp] theorem updBlock_pend : (s.updBlock k f).pend = s.pend := rfl
@[simp] theorem updBlock_l1 : (s.updBlock k f).l1 = s.l1 := rfl
@[simp] theorem updBlock_owner : (s.updBlock k f).owner = s.owner := rfl
@[simp] theorem updBlock_ro : (s.updBlock k f).ro = s.ro := rfl
@[simp] theorem updBlock_und : (s.updBlock k f).und = s.und := rfl
@[simp] theorem updBlock_poolFree : (s.updBlock k f).poolFree = s.poolFree := rfl
@[simp] theorem updBlock_poolWait : (s.updBlock k f).poolWait = s.poolWait := rfl
@[simp] theorem updBlock_hostLines : (s.updBlock k f).hostLines = s.hostLines := rfl
@[simp] theorem updBlock_hdmSize : (s.updBlock k f).hdmSize = s.hdmSize := rfl
@[simp] theorem updBlock_hdmHost : (s.updBlock k f).hdmHost = s.hdmHost := rfl
@[simp] theorem updBlock_bisnp : (s.updBlock k f).bisnp = s.bisnp := rfl
@[simp] theorem updBlock_linkWait : (s.updBlock k f).linkWait = s.linkWait := rfl
@[simp] theorem updBlock_reqs : (s.updBlock k f).reqs = s.reqs := rfl
@[simp] theorem updBlock_lost : (s.updBlock k f).lost = s.lost := rfl
@[simp] theorem updBlock_spdm : (s.updBlock k f).spdm = s.spdm := rfl
@[simp] theorem updBlock_ideKeys : (s.updBlock k f).ideKeys = s.ideKeys := rfl
@[simp] theorem updBlock_launches : (s.updBlock k f).launches = s.launches := rfl
@[simp] theorem updBlock_partitions : (s.updBlock k f).partitions = s.partitions := rfl
@[simp] theorem updBlock_binds : (s.updBlock k f).binds = s.binds := rfl
@[simp] theorem updBlock_gwait : (s.updBlock k f).gwait = s.gwait := rfl
@[simp] theorem updBlock_gheld : (s.updBlock k f).gheld = s.gheld := rfl
@[simp] theorem updBlock_gopen : (s.updBlock k f).gopen = s.gopen := rfl
@[simp] theorem updBlock_gqBroken : (s.updBlock k f).gqBroken = s.gqBroken := rfl
@[simp] theorem updBlock_banks : (s.updBlock k f).banks = s.banks := rfl
@[simp] theorem updBlock_votes : (s.updBlock k f).votes = s.votes := rfl
@[simp] theorem updBlock_scores : (s.updBlock k f).scores = s.scores := rfl
@[simp] theorem updBlock_halved : (s.updBlock k f).halved = s.halved := rfl
@[simp] theorem updBlock_coreMap : (s.updBlock k f).coreMap = s.coreMap := rfl
@[simp] theorem updBlock_degraded : (s.updBlock k f).degraded = s.degraded := rfl
@[simp] theorem updBlock_quarantine : (s.updBlock k f).quarantine = s.quarantine := rfl
@[simp] theorem updBlock_repairs : (s.updBlock k f).repairs = s.repairs := rfl
@[simp] theorem updBlock_spares : (s.updBlock k f).spares = s.spares := rfl
@[simp] theorem updBlock_scanning : (s.updBlock k f).scanning = s.scanning := rfl
@[simp] theorem updBlock_scanned : (s.updBlock k f).scanned = s.scanned := rfl
@[simp] theorem updBlock_badCores : (s.updBlock k f).badCores = s.badCores := rfl
@[simp] theorem updBlock_fuses : (s.updBlock k f).fuses = s.fuses := rfl
@[simp] theorem updBlock_diesOut : (s.updBlock k f).diesOut = s.diesOut := rfl
@[simp] theorem updBlock_regs : (s.updBlock k f).regs = s.regs := rfl
@[simp] theorem updBlock_topo : (s.updBlock k f).topo = s.topo := rfl
@[simp] theorem updBlock_claims : (s.updBlock k f).claims = s.claims := rfl
@[simp] theorem updBlock_tlbinv : (s.updBlock k f).tlbinv = s.tlbinv := rfl
@[simp] theorem updBlock_manBusy : (s.updBlock k f).manBusy = s.manBusy := rfl
@[simp] theorem updBlock_manVal : (s.updBlock k f).manVal = s.manVal := rfl
@[simp] theorem updBlock_measured : (s.updBlock k f).measured = s.measured := rfl
@[simp] theorem updBlock_islands : (s.updBlock k f).islands = s.islands := rfl
@[simp] theorem updBlock_power : (s.updBlock k f).power = s.power := rfl
@[simp] theorem updBlock_ctr : (s.updBlock k f).ctr = s.ctr := rfl
@[simp] theorem updBlock_actcyc : (s.updBlock k f).actcyc = s.actcyc := rfl
@[simp] theorem updBlock_trig : (s.updBlock k f).trig = s.trig := rfl
@[simp] theorem updBlock_trigHit : (s.updBlock k f).trigHit = s.trigHit := rfl
@[simp] theorem updBlock_trigStop : (s.updBlock k f).trigStop = s.trigStop := rfl
@[simp] theorem updBlock_trigWr : (s.updBlock k f).trigWr = s.trigWr := rfl
@[simp] theorem updBlock_cycle : (s.updBlock k f).cycle = s.cycle := rfl
@[simp] theorem updBlock_time12 : (s.updBlock k f).time12 = s.time12 := rfl
@[simp] theorem updBlock_timeFrac : (s.updBlock k f).timeFrac = s.timeFrac := rfl
@[simp] theorem updBlock_slew : (s.updBlock k f).slew = s.slew := rfl
@[simp] theorem updBlock_samples : (s.updBlock k f).samples = s.samples := rfl
@[simp] theorem updBlock_recs : (s.updBlock k f).recs = s.recs := rfl
@[simp] theorem updBlock_used : (s.updBlock k f).used = s.used := rfl
@[simp] theorem updBlock_moved : (s.updBlock k f).moved = s.moved := rfl
@[simp] theorem updBlock_turn : (s.updBlock k f).turn = s.turn := rfl
@[simp] theorem updBlock_dieCycle : (s.updBlock k f).dieCycle = s.dieCycle := rfl
@[simp] theorem updBlock_rollbacks : (s.updBlock k f).rollbacks = s.rollbacks := rfl
@[simp] theorem updBlock_vacated : (s.updBlock k f).vacated = s.vacated := rfl
@[simp] theorem updBlock_rootHash : (s.updBlock k f).rootHash = s.rootHash := rfl
@[simp] theorem updBlock_encrypted : (s.updBlock k f).encrypted = s.encrypted := rfl

end

/-! ### State.updThread -/

section
variable (s : State) (k : BKey) (t : Nat) (f : Thread → Thread)

@[simp] theorem updThread_inbox : (s.updThread k t f).inbox = s.inbox := rfl
@[simp] theorem updThread_cur : (s.updThread k t f).cur = s.cur := rfl
@[simp] theorem updThread_free : (s.updThread k t f).free = s.free := rfl
@[simp] theorem updThread_out : (s.updThread k t f).out = s.out := rfl
@[simp] theorem updThread_events : (s.updThread k t f).events = s.events := rfl
@[simp] theorem updThread_nextId : (s.updThread k t f).nextId = s.nextId := rfl
@[simp] theorem updThread_courses : (s.updThread k t f).courses = s.courses := rfl
@[simp] theorem updThread_bins : (s.updThread k t f).bins = s.bins := rfl
@[simp] theorem updThread_mccs : (s.updThread k t f).mccs = s.mccs := rfl
@[simp] theorem updThread_copies : (s.updThread k t f).copies = s.copies := rfl
@[simp] theorem updThread_mem : (s.updThread k t f).mem = s.mem := rfl
@[simp] theorem updThread_eave : (s.updThread k t f).eave = s.eave := rfl
@[simp] theorem updThread_durp : (s.updThread k t f).durp = s.durp := rfl
@[simp] theorem updThread_fwWait : (s.updThread k t f).fwWait = s.fwWait := rfl
@[simp] theorem updThread_host : (s.updThread k t f).host = s.host := rfl
@[simp] theorem updThread_tags : (s.updThread k t f).tags = s.tags := rfl
@[simp] theorem updThread_poison : (s.updThread k t f).poison = s.poison := rfl
@[simp] theorem updThread_hostPoison : (s.updThread k t f).hostPoison = s.hostPoison := rfl
@[simp] theorem updThread_dirty : (s.updThread k t f).dirty = s.dirty := rfl
@[simp] theorem updThread_parts : (s.updThread k t f).parts = s.parts := rfl
@[simp] theorem updThread_cover : (s.updThread k t f).cover = s.cover := rfl
@[simp] theorem updThread_pend : (s.updThread k t f).pend = s.pend := rfl
@[simp] theorem updThread_l1 : (s.updThread k t f).l1 = s.l1 := rfl
@[simp] theorem updThread_owner : (s.updThread k t f).owner = s.owner := rfl
@[simp] theorem updThread_ro : (s.updThread k t f).ro = s.ro := rfl
@[simp] theorem updThread_und : (s.updThread k t f).und = s.und := rfl
@[simp] theorem updThread_poolFree : (s.updThread k t f).poolFree = s.poolFree := rfl
@[simp] theorem updThread_poolWait : (s.updThread k t f).poolWait = s.poolWait := rfl
@[simp] theorem updThread_hostLines : (s.updThread k t f).hostLines = s.hostLines := rfl
@[simp] theorem updThread_hdmSize : (s.updThread k t f).hdmSize = s.hdmSize := rfl
@[simp] theorem updThread_hdmHost : (s.updThread k t f).hdmHost = s.hdmHost := rfl
@[simp] theorem updThread_bisnp : (s.updThread k t f).bisnp = s.bisnp := rfl
@[simp] theorem updThread_linkWait : (s.updThread k t f).linkWait = s.linkWait := rfl
@[simp] theorem updThread_reqs : (s.updThread k t f).reqs = s.reqs := rfl
@[simp] theorem updThread_lost : (s.updThread k t f).lost = s.lost := rfl
@[simp] theorem updThread_spdm : (s.updThread k t f).spdm = s.spdm := rfl
@[simp] theorem updThread_ideKeys : (s.updThread k t f).ideKeys = s.ideKeys := rfl
@[simp] theorem updThread_launches : (s.updThread k t f).launches = s.launches := rfl
@[simp] theorem updThread_partitions : (s.updThread k t f).partitions = s.partitions := rfl
@[simp] theorem updThread_binds : (s.updThread k t f).binds = s.binds := rfl
@[simp] theorem updThread_gwait : (s.updThread k t f).gwait = s.gwait := rfl
@[simp] theorem updThread_gheld : (s.updThread k t f).gheld = s.gheld := rfl
@[simp] theorem updThread_gopen : (s.updThread k t f).gopen = s.gopen := rfl
@[simp] theorem updThread_gqBroken : (s.updThread k t f).gqBroken = s.gqBroken := rfl
@[simp] theorem updThread_banks : (s.updThread k t f).banks = s.banks := rfl
@[simp] theorem updThread_votes : (s.updThread k t f).votes = s.votes := rfl
@[simp] theorem updThread_scores : (s.updThread k t f).scores = s.scores := rfl
@[simp] theorem updThread_halved : (s.updThread k t f).halved = s.halved := rfl
@[simp] theorem updThread_coreMap : (s.updThread k t f).coreMap = s.coreMap := rfl
@[simp] theorem updThread_degraded : (s.updThread k t f).degraded = s.degraded := rfl
@[simp] theorem updThread_quarantine : (s.updThread k t f).quarantine = s.quarantine := rfl
@[simp] theorem updThread_repairs : (s.updThread k t f).repairs = s.repairs := rfl
@[simp] theorem updThread_spares : (s.updThread k t f).spares = s.spares := rfl
@[simp] theorem updThread_scanning : (s.updThread k t f).scanning = s.scanning := rfl
@[simp] theorem updThread_scanned : (s.updThread k t f).scanned = s.scanned := rfl
@[simp] theorem updThread_badCores : (s.updThread k t f).badCores = s.badCores := rfl
@[simp] theorem updThread_fuses : (s.updThread k t f).fuses = s.fuses := rfl
@[simp] theorem updThread_diesOut : (s.updThread k t f).diesOut = s.diesOut := rfl
@[simp] theorem updThread_regs : (s.updThread k t f).regs = s.regs := rfl
@[simp] theorem updThread_topo : (s.updThread k t f).topo = s.topo := rfl
@[simp] theorem updThread_claims : (s.updThread k t f).claims = s.claims := rfl
@[simp] theorem updThread_tlbinv : (s.updThread k t f).tlbinv = s.tlbinv := rfl
@[simp] theorem updThread_manBusy : (s.updThread k t f).manBusy = s.manBusy := rfl
@[simp] theorem updThread_manVal : (s.updThread k t f).manVal = s.manVal := rfl
@[simp] theorem updThread_measured : (s.updThread k t f).measured = s.measured := rfl
@[simp] theorem updThread_islands : (s.updThread k t f).islands = s.islands := rfl
@[simp] theorem updThread_power : (s.updThread k t f).power = s.power := rfl
@[simp] theorem updThread_ctr : (s.updThread k t f).ctr = s.ctr := rfl
@[simp] theorem updThread_actcyc : (s.updThread k t f).actcyc = s.actcyc := rfl
@[simp] theorem updThread_trig : (s.updThread k t f).trig = s.trig := rfl
@[simp] theorem updThread_trigHit : (s.updThread k t f).trigHit = s.trigHit := rfl
@[simp] theorem updThread_trigStop : (s.updThread k t f).trigStop = s.trigStop := rfl
@[simp] theorem updThread_trigWr : (s.updThread k t f).trigWr = s.trigWr := rfl
@[simp] theorem updThread_cycle : (s.updThread k t f).cycle = s.cycle := rfl
@[simp] theorem updThread_time12 : (s.updThread k t f).time12 = s.time12 := rfl
@[simp] theorem updThread_timeFrac : (s.updThread k t f).timeFrac = s.timeFrac := rfl
@[simp] theorem updThread_slew : (s.updThread k t f).slew = s.slew := rfl
@[simp] theorem updThread_samples : (s.updThread k t f).samples = s.samples := rfl
@[simp] theorem updThread_recs : (s.updThread k t f).recs = s.recs := rfl
@[simp] theorem updThread_used : (s.updThread k t f).used = s.used := rfl
@[simp] theorem updThread_moved : (s.updThread k t f).moved = s.moved := rfl
@[simp] theorem updThread_turn : (s.updThread k t f).turn = s.turn := rfl
@[simp] theorem updThread_dieCycle : (s.updThread k t f).dieCycle = s.dieCycle := rfl
@[simp] theorem updThread_rollbacks : (s.updThread k t f).rollbacks = s.rollbacks := rfl
@[simp] theorem updThread_vacated : (s.updThread k t f).vacated = s.vacated := rfl
@[simp] theorem updThread_rootHash : (s.updThread k t f).rootHash = s.rootHash := rfl
@[simp] theorem updThread_encrypted : (s.updThread k t f).encrypted = s.encrypted := rfl

end

/-! ### State.updCourse -/

section
variable (s : State) (c i : Nat) (f : Course → Course)

@[simp] theorem updCourse_inbox : (s.updCourse c i f).inbox = s.inbox := rfl
@[simp] theorem updCourse_cur : (s.updCourse c i f).cur = s.cur := rfl
@[simp] theorem updCourse_free : (s.updCourse c i f).free = s.free := rfl
@[simp] theorem updCourse_out : (s.updCourse c i f).out = s.out := rfl
@[simp] theorem updCourse_events : (s.updCourse c i f).events = s.events := rfl
@[simp] theorem updCourse_nextId : (s.updCourse c i f).nextId = s.nextId := rfl
@[simp] theorem updCourse_blocks : (s.updCourse c i f).blocks = s.blocks := rfl
@[simp] theorem updCourse_bins : (s.updCourse c i f).bins = s.bins := rfl
@[simp] theorem updCourse_mccs : (s.updCourse c i f).mccs = s.mccs := rfl
@[simp] theorem updCourse_copies : (s.updCourse c i f).copies = s.copies := rfl
@[simp] theorem updCourse_mem : (s.updCourse c i f).mem = s.mem := rfl
@[simp] theorem updCourse_eave : (s.updCourse c i f).eave = s.eave := rfl
@[simp] theorem updCourse_durp : (s.updCourse c i f).durp = s.durp := rfl
@[simp] theorem updCourse_fwWait : (s.updCourse c i f).fwWait = s.fwWait := rfl
@[simp] theorem updCourse_host : (s.updCourse c i f).host = s.host := rfl
@[simp] theorem updCourse_tags : (s.updCourse c i f).tags = s.tags := rfl
@[simp] theorem updCourse_poison : (s.updCourse c i f).poison = s.poison := rfl
@[simp] theorem updCourse_hostPoison : (s.updCourse c i f).hostPoison = s.hostPoison := rfl
@[simp] theorem updCourse_dirty : (s.updCourse c i f).dirty = s.dirty := rfl
@[simp] theorem updCourse_parts : (s.updCourse c i f).parts = s.parts := rfl
@[simp] theorem updCourse_cover : (s.updCourse c i f).cover = s.cover := rfl
@[simp] theorem updCourse_pend : (s.updCourse c i f).pend = s.pend := rfl
@[simp] theorem updCourse_l1 : (s.updCourse c i f).l1 = s.l1 := rfl
@[simp] theorem updCourse_owner : (s.updCourse c i f).owner = s.owner := rfl
@[simp] theorem updCourse_ro : (s.updCourse c i f).ro = s.ro := rfl
@[simp] theorem updCourse_und : (s.updCourse c i f).und = s.und := rfl
@[simp] theorem updCourse_poolFree : (s.updCourse c i f).poolFree = s.poolFree := rfl
@[simp] theorem updCourse_poolWait : (s.updCourse c i f).poolWait = s.poolWait := rfl
@[simp] theorem updCourse_hostLines : (s.updCourse c i f).hostLines = s.hostLines := rfl
@[simp] theorem updCourse_hdmSize : (s.updCourse c i f).hdmSize = s.hdmSize := rfl
@[simp] theorem updCourse_hdmHost : (s.updCourse c i f).hdmHost = s.hdmHost := rfl
@[simp] theorem updCourse_bisnp : (s.updCourse c i f).bisnp = s.bisnp := rfl
@[simp] theorem updCourse_linkWait : (s.updCourse c i f).linkWait = s.linkWait := rfl
@[simp] theorem updCourse_reqs : (s.updCourse c i f).reqs = s.reqs := rfl
@[simp] theorem updCourse_lost : (s.updCourse c i f).lost = s.lost := rfl
@[simp] theorem updCourse_spdm : (s.updCourse c i f).spdm = s.spdm := rfl
@[simp] theorem updCourse_ideKeys : (s.updCourse c i f).ideKeys = s.ideKeys := rfl
@[simp] theorem updCourse_launches : (s.updCourse c i f).launches = s.launches := rfl
@[simp] theorem updCourse_partitions : (s.updCourse c i f).partitions = s.partitions := rfl
@[simp] theorem updCourse_binds : (s.updCourse c i f).binds = s.binds := rfl
@[simp] theorem updCourse_gwait : (s.updCourse c i f).gwait = s.gwait := rfl
@[simp] theorem updCourse_gheld : (s.updCourse c i f).gheld = s.gheld := rfl
@[simp] theorem updCourse_gopen : (s.updCourse c i f).gopen = s.gopen := rfl
@[simp] theorem updCourse_gqBroken : (s.updCourse c i f).gqBroken = s.gqBroken := rfl
@[simp] theorem updCourse_banks : (s.updCourse c i f).banks = s.banks := rfl
@[simp] theorem updCourse_votes : (s.updCourse c i f).votes = s.votes := rfl
@[simp] theorem updCourse_scores : (s.updCourse c i f).scores = s.scores := rfl
@[simp] theorem updCourse_halved : (s.updCourse c i f).halved = s.halved := rfl
@[simp] theorem updCourse_coreMap : (s.updCourse c i f).coreMap = s.coreMap := rfl
@[simp] theorem updCourse_degraded : (s.updCourse c i f).degraded = s.degraded := rfl
@[simp] theorem updCourse_quarantine : (s.updCourse c i f).quarantine = s.quarantine := rfl
@[simp] theorem updCourse_repairs : (s.updCourse c i f).repairs = s.repairs := rfl
@[simp] theorem updCourse_spares : (s.updCourse c i f).spares = s.spares := rfl
@[simp] theorem updCourse_scanning : (s.updCourse c i f).scanning = s.scanning := rfl
@[simp] theorem updCourse_scanned : (s.updCourse c i f).scanned = s.scanned := rfl
@[simp] theorem updCourse_badCores : (s.updCourse c i f).badCores = s.badCores := rfl
@[simp] theorem updCourse_fuses : (s.updCourse c i f).fuses = s.fuses := rfl
@[simp] theorem updCourse_diesOut : (s.updCourse c i f).diesOut = s.diesOut := rfl
@[simp] theorem updCourse_regs : (s.updCourse c i f).regs = s.regs := rfl
@[simp] theorem updCourse_topo : (s.updCourse c i f).topo = s.topo := rfl
@[simp] theorem updCourse_claims : (s.updCourse c i f).claims = s.claims := rfl
@[simp] theorem updCourse_tlbinv : (s.updCourse c i f).tlbinv = s.tlbinv := rfl
@[simp] theorem updCourse_manBusy : (s.updCourse c i f).manBusy = s.manBusy := rfl
@[simp] theorem updCourse_manVal : (s.updCourse c i f).manVal = s.manVal := rfl
@[simp] theorem updCourse_measured : (s.updCourse c i f).measured = s.measured := rfl
@[simp] theorem updCourse_islands : (s.updCourse c i f).islands = s.islands := rfl
@[simp] theorem updCourse_power : (s.updCourse c i f).power = s.power := rfl
@[simp] theorem updCourse_ctr : (s.updCourse c i f).ctr = s.ctr := rfl
@[simp] theorem updCourse_actcyc : (s.updCourse c i f).actcyc = s.actcyc := rfl
@[simp] theorem updCourse_trig : (s.updCourse c i f).trig = s.trig := rfl
@[simp] theorem updCourse_trigHit : (s.updCourse c i f).trigHit = s.trigHit := rfl
@[simp] theorem updCourse_trigStop : (s.updCourse c i f).trigStop = s.trigStop := rfl
@[simp] theorem updCourse_trigWr : (s.updCourse c i f).trigWr = s.trigWr := rfl
@[simp] theorem updCourse_cycle : (s.updCourse c i f).cycle = s.cycle := rfl
@[simp] theorem updCourse_time12 : (s.updCourse c i f).time12 = s.time12 := rfl
@[simp] theorem updCourse_timeFrac : (s.updCourse c i f).timeFrac = s.timeFrac := rfl
@[simp] theorem updCourse_slew : (s.updCourse c i f).slew = s.slew := rfl
@[simp] theorem updCourse_samples : (s.updCourse c i f).samples = s.samples := rfl
@[simp] theorem updCourse_recs : (s.updCourse c i f).recs = s.recs := rfl
@[simp] theorem updCourse_used : (s.updCourse c i f).used = s.used := rfl
@[simp] theorem updCourse_moved : (s.updCourse c i f).moved = s.moved := rfl
@[simp] theorem updCourse_turn : (s.updCourse c i f).turn = s.turn := rfl
@[simp] theorem updCourse_dieCycle : (s.updCourse c i f).dieCycle = s.dieCycle := rfl
@[simp] theorem updCourse_rollbacks : (s.updCourse c i f).rollbacks = s.rollbacks := rfl
@[simp] theorem updCourse_vacated : (s.updCourse c i f).vacated = s.vacated := rfl
@[simp] theorem updCourse_rootHash : (s.updCourse c i f).rootHash = s.rootHash := rfl
@[simp] theorem updCourse_encrypted : (s.updCourse c i f).encrypted = s.encrypted := rfl

end

/-! ### State.delCourse -/

section
variable (s : State) (c i : Nat)

@[simp] theorem delCourse_inbox : (s.delCourse c i).inbox = s.inbox := rfl
@[simp] theorem delCourse_cur : (s.delCourse c i).cur = s.cur := rfl
@[simp] theorem delCourse_free : (s.delCourse c i).free = s.free := rfl
@[simp] theorem delCourse_out : (s.delCourse c i).out = s.out := rfl
@[simp] theorem delCourse_events : (s.delCourse c i).events = s.events := rfl
@[simp] theorem delCourse_nextId : (s.delCourse c i).nextId = s.nextId := rfl
@[simp] theorem delCourse_blocks : (s.delCourse c i).blocks = s.blocks := rfl
@[simp] theorem delCourse_bins : (s.delCourse c i).bins = s.bins := rfl
@[simp] theorem delCourse_mccs : (s.delCourse c i).mccs = s.mccs := rfl
@[simp] theorem delCourse_copies : (s.delCourse c i).copies = s.copies := rfl
@[simp] theorem delCourse_mem : (s.delCourse c i).mem = s.mem := rfl
@[simp] theorem delCourse_eave : (s.delCourse c i).eave = s.eave := rfl
@[simp] theorem delCourse_durp : (s.delCourse c i).durp = s.durp := rfl
@[simp] theorem delCourse_fwWait : (s.delCourse c i).fwWait = s.fwWait := rfl
@[simp] theorem delCourse_host : (s.delCourse c i).host = s.host := rfl
@[simp] theorem delCourse_tags : (s.delCourse c i).tags = s.tags := rfl
@[simp] theorem delCourse_poison : (s.delCourse c i).poison = s.poison := rfl
@[simp] theorem delCourse_hostPoison : (s.delCourse c i).hostPoison = s.hostPoison := rfl
@[simp] theorem delCourse_dirty : (s.delCourse c i).dirty = s.dirty := rfl
@[simp] theorem delCourse_parts : (s.delCourse c i).parts = s.parts := rfl
@[simp] theorem delCourse_cover : (s.delCourse c i).cover = s.cover := rfl
@[simp] theorem delCourse_pend : (s.delCourse c i).pend = s.pend := rfl
@[simp] theorem delCourse_l1 : (s.delCourse c i).l1 = s.l1 := rfl
@[simp] theorem delCourse_owner : (s.delCourse c i).owner = s.owner := rfl
@[simp] theorem delCourse_ro : (s.delCourse c i).ro = s.ro := rfl
@[simp] theorem delCourse_und : (s.delCourse c i).und = s.und := rfl
@[simp] theorem delCourse_poolFree : (s.delCourse c i).poolFree = s.poolFree := rfl
@[simp] theorem delCourse_poolWait : (s.delCourse c i).poolWait = s.poolWait := rfl
@[simp] theorem delCourse_hostLines : (s.delCourse c i).hostLines = s.hostLines := rfl
@[simp] theorem delCourse_hdmSize : (s.delCourse c i).hdmSize = s.hdmSize := rfl
@[simp] theorem delCourse_hdmHost : (s.delCourse c i).hdmHost = s.hdmHost := rfl
@[simp] theorem delCourse_bisnp : (s.delCourse c i).bisnp = s.bisnp := rfl
@[simp] theorem delCourse_linkWait : (s.delCourse c i).linkWait = s.linkWait := rfl
@[simp] theorem delCourse_reqs : (s.delCourse c i).reqs = s.reqs := rfl
@[simp] theorem delCourse_lost : (s.delCourse c i).lost = s.lost := rfl
@[simp] theorem delCourse_spdm : (s.delCourse c i).spdm = s.spdm := rfl
@[simp] theorem delCourse_ideKeys : (s.delCourse c i).ideKeys = s.ideKeys := rfl
@[simp] theorem delCourse_launches : (s.delCourse c i).launches = s.launches := rfl
@[simp] theorem delCourse_partitions : (s.delCourse c i).partitions = s.partitions := rfl
@[simp] theorem delCourse_binds : (s.delCourse c i).binds = s.binds := rfl
@[simp] theorem delCourse_gwait : (s.delCourse c i).gwait = s.gwait := rfl
@[simp] theorem delCourse_gheld : (s.delCourse c i).gheld = s.gheld := rfl
@[simp] theorem delCourse_gopen : (s.delCourse c i).gopen = s.gopen := rfl
@[simp] theorem delCourse_gqBroken : (s.delCourse c i).gqBroken = s.gqBroken := rfl
@[simp] theorem delCourse_banks : (s.delCourse c i).banks = s.banks := rfl
@[simp] theorem delCourse_votes : (s.delCourse c i).votes = s.votes := rfl
@[simp] theorem delCourse_scores : (s.delCourse c i).scores = s.scores := rfl
@[simp] theorem delCourse_halved : (s.delCourse c i).halved = s.halved := rfl
@[simp] theorem delCourse_coreMap : (s.delCourse c i).coreMap = s.coreMap := rfl
@[simp] theorem delCourse_degraded : (s.delCourse c i).degraded = s.degraded := rfl
@[simp] theorem delCourse_quarantine : (s.delCourse c i).quarantine = s.quarantine := rfl
@[simp] theorem delCourse_repairs : (s.delCourse c i).repairs = s.repairs := rfl
@[simp] theorem delCourse_spares : (s.delCourse c i).spares = s.spares := rfl
@[simp] theorem delCourse_scanning : (s.delCourse c i).scanning = s.scanning := rfl
@[simp] theorem delCourse_scanned : (s.delCourse c i).scanned = s.scanned := rfl
@[simp] theorem delCourse_badCores : (s.delCourse c i).badCores = s.badCores := rfl
@[simp] theorem delCourse_fuses : (s.delCourse c i).fuses = s.fuses := rfl
@[simp] theorem delCourse_diesOut : (s.delCourse c i).diesOut = s.diesOut := rfl
@[simp] theorem delCourse_regs : (s.delCourse c i).regs = s.regs := rfl
@[simp] theorem delCourse_topo : (s.delCourse c i).topo = s.topo := rfl
@[simp] theorem delCourse_claims : (s.delCourse c i).claims = s.claims := rfl
@[simp] theorem delCourse_tlbinv : (s.delCourse c i).tlbinv = s.tlbinv := rfl
@[simp] theorem delCourse_manBusy : (s.delCourse c i).manBusy = s.manBusy := rfl
@[simp] theorem delCourse_manVal : (s.delCourse c i).manVal = s.manVal := rfl
@[simp] theorem delCourse_measured : (s.delCourse c i).measured = s.measured := rfl
@[simp] theorem delCourse_islands : (s.delCourse c i).islands = s.islands := rfl
@[simp] theorem delCourse_power : (s.delCourse c i).power = s.power := rfl
@[simp] theorem delCourse_ctr : (s.delCourse c i).ctr = s.ctr := rfl
@[simp] theorem delCourse_actcyc : (s.delCourse c i).actcyc = s.actcyc := rfl
@[simp] theorem delCourse_trig : (s.delCourse c i).trig = s.trig := rfl
@[simp] theorem delCourse_trigHit : (s.delCourse c i).trigHit = s.trigHit := rfl
@[simp] theorem delCourse_trigStop : (s.delCourse c i).trigStop = s.trigStop := rfl
@[simp] theorem delCourse_trigWr : (s.delCourse c i).trigWr = s.trigWr := rfl
@[simp] theorem delCourse_cycle : (s.delCourse c i).cycle = s.cycle := rfl
@[simp] theorem delCourse_time12 : (s.delCourse c i).time12 = s.time12 := rfl
@[simp] theorem delCourse_timeFrac : (s.delCourse c i).timeFrac = s.timeFrac := rfl
@[simp] theorem delCourse_slew : (s.delCourse c i).slew = s.slew := rfl
@[simp] theorem delCourse_samples : (s.delCourse c i).samples = s.samples := rfl
@[simp] theorem delCourse_recs : (s.delCourse c i).recs = s.recs := rfl
@[simp] theorem delCourse_used : (s.delCourse c i).used = s.used := rfl
@[simp] theorem delCourse_moved : (s.delCourse c i).moved = s.moved := rfl
@[simp] theorem delCourse_turn : (s.delCourse c i).turn = s.turn := rfl
@[simp] theorem delCourse_dieCycle : (s.delCourse c i).dieCycle = s.dieCycle := rfl
@[simp] theorem delCourse_rollbacks : (s.delCourse c i).rollbacks = s.rollbacks := rfl
@[simp] theorem delCourse_vacated : (s.delCourse c i).vacated = s.vacated := rfl
@[simp] theorem delCourse_rootHash : (s.delCourse c i).rootHash = s.rootHash := rfl
@[simp] theorem delCourse_encrypted : (s.delCourse c i).encrypted = s.encrypted := rfl

end

/-! ### State.updMcc -/

section
variable (s : State) (c : Nat) (f : Mcc → Mcc)

@[simp] theorem updMcc_inbox : (s.updMcc c f).inbox = s.inbox := rfl
@[simp] theorem updMcc_cur : (s.updMcc c f).cur = s.cur := rfl
@[simp] theorem updMcc_free : (s.updMcc c f).free = s.free := rfl
@[simp] theorem updMcc_out : (s.updMcc c f).out = s.out := rfl
@[simp] theorem updMcc_events : (s.updMcc c f).events = s.events := rfl
@[simp] theorem updMcc_nextId : (s.updMcc c f).nextId = s.nextId := rfl
@[simp] theorem updMcc_blocks : (s.updMcc c f).blocks = s.blocks := rfl
@[simp] theorem updMcc_courses : (s.updMcc c f).courses = s.courses := rfl
@[simp] theorem updMcc_bins : (s.updMcc c f).bins = s.bins := rfl
@[simp] theorem updMcc_copies : (s.updMcc c f).copies = s.copies := rfl
@[simp] theorem updMcc_mem : (s.updMcc c f).mem = s.mem := rfl
@[simp] theorem updMcc_eave : (s.updMcc c f).eave = s.eave := rfl
@[simp] theorem updMcc_durp : (s.updMcc c f).durp = s.durp := rfl
@[simp] theorem updMcc_fwWait : (s.updMcc c f).fwWait = s.fwWait := rfl
@[simp] theorem updMcc_host : (s.updMcc c f).host = s.host := rfl
@[simp] theorem updMcc_tags : (s.updMcc c f).tags = s.tags := rfl
@[simp] theorem updMcc_poison : (s.updMcc c f).poison = s.poison := rfl
@[simp] theorem updMcc_hostPoison : (s.updMcc c f).hostPoison = s.hostPoison := rfl
@[simp] theorem updMcc_dirty : (s.updMcc c f).dirty = s.dirty := rfl
@[simp] theorem updMcc_parts : (s.updMcc c f).parts = s.parts := rfl
@[simp] theorem updMcc_cover : (s.updMcc c f).cover = s.cover := rfl
@[simp] theorem updMcc_pend : (s.updMcc c f).pend = s.pend := rfl
@[simp] theorem updMcc_l1 : (s.updMcc c f).l1 = s.l1 := rfl
@[simp] theorem updMcc_owner : (s.updMcc c f).owner = s.owner := rfl
@[simp] theorem updMcc_ro : (s.updMcc c f).ro = s.ro := rfl
@[simp] theorem updMcc_und : (s.updMcc c f).und = s.und := rfl
@[simp] theorem updMcc_poolFree : (s.updMcc c f).poolFree = s.poolFree := rfl
@[simp] theorem updMcc_poolWait : (s.updMcc c f).poolWait = s.poolWait := rfl
@[simp] theorem updMcc_hostLines : (s.updMcc c f).hostLines = s.hostLines := rfl
@[simp] theorem updMcc_hdmSize : (s.updMcc c f).hdmSize = s.hdmSize := rfl
@[simp] theorem updMcc_hdmHost : (s.updMcc c f).hdmHost = s.hdmHost := rfl
@[simp] theorem updMcc_bisnp : (s.updMcc c f).bisnp = s.bisnp := rfl
@[simp] theorem updMcc_linkWait : (s.updMcc c f).linkWait = s.linkWait := rfl
@[simp] theorem updMcc_reqs : (s.updMcc c f).reqs = s.reqs := rfl
@[simp] theorem updMcc_lost : (s.updMcc c f).lost = s.lost := rfl
@[simp] theorem updMcc_spdm : (s.updMcc c f).spdm = s.spdm := rfl
@[simp] theorem updMcc_ideKeys : (s.updMcc c f).ideKeys = s.ideKeys := rfl
@[simp] theorem updMcc_launches : (s.updMcc c f).launches = s.launches := rfl
@[simp] theorem updMcc_partitions : (s.updMcc c f).partitions = s.partitions := rfl
@[simp] theorem updMcc_binds : (s.updMcc c f).binds = s.binds := rfl
@[simp] theorem updMcc_gwait : (s.updMcc c f).gwait = s.gwait := rfl
@[simp] theorem updMcc_gheld : (s.updMcc c f).gheld = s.gheld := rfl
@[simp] theorem updMcc_gopen : (s.updMcc c f).gopen = s.gopen := rfl
@[simp] theorem updMcc_gqBroken : (s.updMcc c f).gqBroken = s.gqBroken := rfl
@[simp] theorem updMcc_banks : (s.updMcc c f).banks = s.banks := rfl
@[simp] theorem updMcc_votes : (s.updMcc c f).votes = s.votes := rfl
@[simp] theorem updMcc_scores : (s.updMcc c f).scores = s.scores := rfl
@[simp] theorem updMcc_halved : (s.updMcc c f).halved = s.halved := rfl
@[simp] theorem updMcc_coreMap : (s.updMcc c f).coreMap = s.coreMap := rfl
@[simp] theorem updMcc_degraded : (s.updMcc c f).degraded = s.degraded := rfl
@[simp] theorem updMcc_quarantine : (s.updMcc c f).quarantine = s.quarantine := rfl
@[simp] theorem updMcc_repairs : (s.updMcc c f).repairs = s.repairs := rfl
@[simp] theorem updMcc_spares : (s.updMcc c f).spares = s.spares := rfl
@[simp] theorem updMcc_scanning : (s.updMcc c f).scanning = s.scanning := rfl
@[simp] theorem updMcc_scanned : (s.updMcc c f).scanned = s.scanned := rfl
@[simp] theorem updMcc_badCores : (s.updMcc c f).badCores = s.badCores := rfl
@[simp] theorem updMcc_fuses : (s.updMcc c f).fuses = s.fuses := rfl
@[simp] theorem updMcc_diesOut : (s.updMcc c f).diesOut = s.diesOut := rfl
@[simp] theorem updMcc_regs : (s.updMcc c f).regs = s.regs := rfl
@[simp] theorem updMcc_topo : (s.updMcc c f).topo = s.topo := rfl
@[simp] theorem updMcc_claims : (s.updMcc c f).claims = s.claims := rfl
@[simp] theorem updMcc_tlbinv : (s.updMcc c f).tlbinv = s.tlbinv := rfl
@[simp] theorem updMcc_manBusy : (s.updMcc c f).manBusy = s.manBusy := rfl
@[simp] theorem updMcc_manVal : (s.updMcc c f).manVal = s.manVal := rfl
@[simp] theorem updMcc_measured : (s.updMcc c f).measured = s.measured := rfl
@[simp] theorem updMcc_islands : (s.updMcc c f).islands = s.islands := rfl
@[simp] theorem updMcc_power : (s.updMcc c f).power = s.power := rfl
@[simp] theorem updMcc_ctr : (s.updMcc c f).ctr = s.ctr := rfl
@[simp] theorem updMcc_actcyc : (s.updMcc c f).actcyc = s.actcyc := rfl
@[simp] theorem updMcc_trig : (s.updMcc c f).trig = s.trig := rfl
@[simp] theorem updMcc_trigHit : (s.updMcc c f).trigHit = s.trigHit := rfl
@[simp] theorem updMcc_trigStop : (s.updMcc c f).trigStop = s.trigStop := rfl
@[simp] theorem updMcc_trigWr : (s.updMcc c f).trigWr = s.trigWr := rfl
@[simp] theorem updMcc_cycle : (s.updMcc c f).cycle = s.cycle := rfl
@[simp] theorem updMcc_time12 : (s.updMcc c f).time12 = s.time12 := rfl
@[simp] theorem updMcc_timeFrac : (s.updMcc c f).timeFrac = s.timeFrac := rfl
@[simp] theorem updMcc_slew : (s.updMcc c f).slew = s.slew := rfl
@[simp] theorem updMcc_samples : (s.updMcc c f).samples = s.samples := rfl
@[simp] theorem updMcc_recs : (s.updMcc c f).recs = s.recs := rfl
@[simp] theorem updMcc_used : (s.updMcc c f).used = s.used := rfl
@[simp] theorem updMcc_moved : (s.updMcc c f).moved = s.moved := rfl
@[simp] theorem updMcc_turn : (s.updMcc c f).turn = s.turn := rfl
@[simp] theorem updMcc_dieCycle : (s.updMcc c f).dieCycle = s.dieCycle := rfl
@[simp] theorem updMcc_rollbacks : (s.updMcc c f).rollbacks = s.rollbacks := rfl
@[simp] theorem updMcc_vacated : (s.updMcc c f).vacated = s.vacated := rfl
@[simp] theorem updMcc_rootHash : (s.updMcc c f).rootHash = s.rootHash := rfl
@[simp] theorem updMcc_encrypted : (s.updMcc c f).encrypted = s.encrypted := rfl

end

/-! ### State.updCopy -/

section
variable (s : State) (i : Nat) (f : Copy → Copy)

@[simp] theorem updCopy_inbox : (s.updCopy i f).inbox = s.inbox := rfl
@[simp] theorem updCopy_cur : (s.updCopy i f).cur = s.cur := rfl
@[simp] theorem updCopy_free : (s.updCopy i f).free = s.free := rfl
@[simp] theorem updCopy_out : (s.updCopy i f).out = s.out := rfl
@[simp] theorem updCopy_events : (s.updCopy i f).events = s.events := rfl
@[simp] theorem updCopy_nextId : (s.updCopy i f).nextId = s.nextId := rfl
@[simp] theorem updCopy_blocks : (s.updCopy i f).blocks = s.blocks := rfl
@[simp] theorem updCopy_courses : (s.updCopy i f).courses = s.courses := rfl
@[simp] theorem updCopy_bins : (s.updCopy i f).bins = s.bins := rfl
@[simp] theorem updCopy_mccs : (s.updCopy i f).mccs = s.mccs := rfl
@[simp] theorem updCopy_mem : (s.updCopy i f).mem = s.mem := rfl
@[simp] theorem updCopy_eave : (s.updCopy i f).eave = s.eave := rfl
@[simp] theorem updCopy_durp : (s.updCopy i f).durp = s.durp := rfl
@[simp] theorem updCopy_fwWait : (s.updCopy i f).fwWait = s.fwWait := rfl
@[simp] theorem updCopy_host : (s.updCopy i f).host = s.host := rfl
@[simp] theorem updCopy_tags : (s.updCopy i f).tags = s.tags := rfl
@[simp] theorem updCopy_poison : (s.updCopy i f).poison = s.poison := rfl
@[simp] theorem updCopy_hostPoison : (s.updCopy i f).hostPoison = s.hostPoison := rfl
@[simp] theorem updCopy_dirty : (s.updCopy i f).dirty = s.dirty := rfl
@[simp] theorem updCopy_parts : (s.updCopy i f).parts = s.parts := rfl
@[simp] theorem updCopy_cover : (s.updCopy i f).cover = s.cover := rfl
@[simp] theorem updCopy_pend : (s.updCopy i f).pend = s.pend := rfl
@[simp] theorem updCopy_l1 : (s.updCopy i f).l1 = s.l1 := rfl
@[simp] theorem updCopy_owner : (s.updCopy i f).owner = s.owner := rfl
@[simp] theorem updCopy_ro : (s.updCopy i f).ro = s.ro := rfl
@[simp] theorem updCopy_und : (s.updCopy i f).und = s.und := rfl
@[simp] theorem updCopy_poolFree : (s.updCopy i f).poolFree = s.poolFree := rfl
@[simp] theorem updCopy_poolWait : (s.updCopy i f).poolWait = s.poolWait := rfl
@[simp] theorem updCopy_hostLines : (s.updCopy i f).hostLines = s.hostLines := rfl
@[simp] theorem updCopy_hdmSize : (s.updCopy i f).hdmSize = s.hdmSize := rfl
@[simp] theorem updCopy_hdmHost : (s.updCopy i f).hdmHost = s.hdmHost := rfl
@[simp] theorem updCopy_bisnp : (s.updCopy i f).bisnp = s.bisnp := rfl
@[simp] theorem updCopy_linkWait : (s.updCopy i f).linkWait = s.linkWait := rfl
@[simp] theorem updCopy_reqs : (s.updCopy i f).reqs = s.reqs := rfl
@[simp] theorem updCopy_lost : (s.updCopy i f).lost = s.lost := rfl
@[simp] theorem updCopy_spdm : (s.updCopy i f).spdm = s.spdm := rfl
@[simp] theorem updCopy_ideKeys : (s.updCopy i f).ideKeys = s.ideKeys := rfl
@[simp] theorem updCopy_launches : (s.updCopy i f).launches = s.launches := rfl
@[simp] theorem updCopy_partitions : (s.updCopy i f).partitions = s.partitions := rfl
@[simp] theorem updCopy_binds : (s.updCopy i f).binds = s.binds := rfl
@[simp] theorem updCopy_gwait : (s.updCopy i f).gwait = s.gwait := rfl
@[simp] theorem updCopy_gheld : (s.updCopy i f).gheld = s.gheld := rfl
@[simp] theorem updCopy_gopen : (s.updCopy i f).gopen = s.gopen := rfl
@[simp] theorem updCopy_gqBroken : (s.updCopy i f).gqBroken = s.gqBroken := rfl
@[simp] theorem updCopy_banks : (s.updCopy i f).banks = s.banks := rfl
@[simp] theorem updCopy_votes : (s.updCopy i f).votes = s.votes := rfl
@[simp] theorem updCopy_scores : (s.updCopy i f).scores = s.scores := rfl
@[simp] theorem updCopy_halved : (s.updCopy i f).halved = s.halved := rfl
@[simp] theorem updCopy_coreMap : (s.updCopy i f).coreMap = s.coreMap := rfl
@[simp] theorem updCopy_degraded : (s.updCopy i f).degraded = s.degraded := rfl
@[simp] theorem updCopy_quarantine : (s.updCopy i f).quarantine = s.quarantine := rfl
@[simp] theorem updCopy_repairs : (s.updCopy i f).repairs = s.repairs := rfl
@[simp] theorem updCopy_spares : (s.updCopy i f).spares = s.spares := rfl
@[simp] theorem updCopy_scanning : (s.updCopy i f).scanning = s.scanning := rfl
@[simp] theorem updCopy_scanned : (s.updCopy i f).scanned = s.scanned := rfl
@[simp] theorem updCopy_badCores : (s.updCopy i f).badCores = s.badCores := rfl
@[simp] theorem updCopy_fuses : (s.updCopy i f).fuses = s.fuses := rfl
@[simp] theorem updCopy_diesOut : (s.updCopy i f).diesOut = s.diesOut := rfl
@[simp] theorem updCopy_regs : (s.updCopy i f).regs = s.regs := rfl
@[simp] theorem updCopy_topo : (s.updCopy i f).topo = s.topo := rfl
@[simp] theorem updCopy_claims : (s.updCopy i f).claims = s.claims := rfl
@[simp] theorem updCopy_tlbinv : (s.updCopy i f).tlbinv = s.tlbinv := rfl
@[simp] theorem updCopy_manBusy : (s.updCopy i f).manBusy = s.manBusy := rfl
@[simp] theorem updCopy_manVal : (s.updCopy i f).manVal = s.manVal := rfl
@[simp] theorem updCopy_measured : (s.updCopy i f).measured = s.measured := rfl
@[simp] theorem updCopy_islands : (s.updCopy i f).islands = s.islands := rfl
@[simp] theorem updCopy_power : (s.updCopy i f).power = s.power := rfl
@[simp] theorem updCopy_ctr : (s.updCopy i f).ctr = s.ctr := rfl
@[simp] theorem updCopy_actcyc : (s.updCopy i f).actcyc = s.actcyc := rfl
@[simp] theorem updCopy_trig : (s.updCopy i f).trig = s.trig := rfl
@[simp] theorem updCopy_trigHit : (s.updCopy i f).trigHit = s.trigHit := rfl
@[simp] theorem updCopy_trigStop : (s.updCopy i f).trigStop = s.trigStop := rfl
@[simp] theorem updCopy_trigWr : (s.updCopy i f).trigWr = s.trigWr := rfl
@[simp] theorem updCopy_cycle : (s.updCopy i f).cycle = s.cycle := rfl
@[simp] theorem updCopy_time12 : (s.updCopy i f).time12 = s.time12 := rfl
@[simp] theorem updCopy_timeFrac : (s.updCopy i f).timeFrac = s.timeFrac := rfl
@[simp] theorem updCopy_slew : (s.updCopy i f).slew = s.slew := rfl
@[simp] theorem updCopy_samples : (s.updCopy i f).samples = s.samples := rfl
@[simp] theorem updCopy_recs : (s.updCopy i f).recs = s.recs := rfl
@[simp] theorem updCopy_used : (s.updCopy i f).used = s.used := rfl
@[simp] theorem updCopy_moved : (s.updCopy i f).moved = s.moved := rfl
@[simp] theorem updCopy_turn : (s.updCopy i f).turn = s.turn := rfl
@[simp] theorem updCopy_dieCycle : (s.updCopy i f).dieCycle = s.dieCycle := rfl
@[simp] theorem updCopy_rollbacks : (s.updCopy i f).rollbacks = s.rollbacks := rfl
@[simp] theorem updCopy_vacated : (s.updCopy i f).vacated = s.vacated := rfl
@[simp] theorem updCopy_rootHash : (s.updCopy i f).rootHash = s.rootHash := rfl
@[simp] theorem updCopy_encrypted : (s.updCopy i f).encrypted = s.encrypted := rfl

end

/-! ### State.putMem -/

section
variable (s : State) (a : Nat) (l : List Byte)

@[simp] theorem putMem_inbox : (s.putMem a l).inbox = s.inbox := rfl
@[simp] theorem putMem_cur : (s.putMem a l).cur = s.cur := rfl
@[simp] theorem putMem_free : (s.putMem a l).free = s.free := rfl
@[simp] theorem putMem_out : (s.putMem a l).out = s.out := rfl
@[simp] theorem putMem_events : (s.putMem a l).events = s.events := rfl
@[simp] theorem putMem_nextId : (s.putMem a l).nextId = s.nextId := rfl
@[simp] theorem putMem_blocks : (s.putMem a l).blocks = s.blocks := rfl
@[simp] theorem putMem_courses : (s.putMem a l).courses = s.courses := rfl
@[simp] theorem putMem_bins : (s.putMem a l).bins = s.bins := rfl
@[simp] theorem putMem_mccs : (s.putMem a l).mccs = s.mccs := rfl
@[simp] theorem putMem_copies : (s.putMem a l).copies = s.copies := rfl
@[simp] theorem putMem_eave : (s.putMem a l).eave = s.eave := rfl
@[simp] theorem putMem_durp : (s.putMem a l).durp = s.durp := rfl
@[simp] theorem putMem_fwWait : (s.putMem a l).fwWait = s.fwWait := rfl
@[simp] theorem putMem_host : (s.putMem a l).host = s.host := rfl
@[simp] theorem putMem_tags : (s.putMem a l).tags = s.tags := rfl
@[simp] theorem putMem_poison : (s.putMem a l).poison = s.poison := rfl
@[simp] theorem putMem_hostPoison : (s.putMem a l).hostPoison = s.hostPoison := rfl
@[simp] theorem putMem_dirty : (s.putMem a l).dirty = s.dirty := rfl
@[simp] theorem putMem_parts : (s.putMem a l).parts = s.parts := rfl
@[simp] theorem putMem_cover : (s.putMem a l).cover = s.cover := rfl
@[simp] theorem putMem_pend : (s.putMem a l).pend = s.pend := rfl
@[simp] theorem putMem_l1 : (s.putMem a l).l1 = s.l1 := rfl
@[simp] theorem putMem_owner : (s.putMem a l).owner = s.owner := rfl
@[simp] theorem putMem_ro : (s.putMem a l).ro = s.ro := rfl
@[simp] theorem putMem_und : (s.putMem a l).und = s.und := rfl
@[simp] theorem putMem_poolFree : (s.putMem a l).poolFree = s.poolFree := rfl
@[simp] theorem putMem_poolWait : (s.putMem a l).poolWait = s.poolWait := rfl
@[simp] theorem putMem_hostLines : (s.putMem a l).hostLines = s.hostLines := rfl
@[simp] theorem putMem_hdmSize : (s.putMem a l).hdmSize = s.hdmSize := rfl
@[simp] theorem putMem_hdmHost : (s.putMem a l).hdmHost = s.hdmHost := rfl
@[simp] theorem putMem_bisnp : (s.putMem a l).bisnp = s.bisnp := rfl
@[simp] theorem putMem_linkWait : (s.putMem a l).linkWait = s.linkWait := rfl
@[simp] theorem putMem_reqs : (s.putMem a l).reqs = s.reqs := rfl
@[simp] theorem putMem_lost : (s.putMem a l).lost = s.lost := rfl
@[simp] theorem putMem_spdm : (s.putMem a l).spdm = s.spdm := rfl
@[simp] theorem putMem_ideKeys : (s.putMem a l).ideKeys = s.ideKeys := rfl
@[simp] theorem putMem_launches : (s.putMem a l).launches = s.launches := rfl
@[simp] theorem putMem_partitions : (s.putMem a l).partitions = s.partitions := rfl
@[simp] theorem putMem_binds : (s.putMem a l).binds = s.binds := rfl
@[simp] theorem putMem_gwait : (s.putMem a l).gwait = s.gwait := rfl
@[simp] theorem putMem_gheld : (s.putMem a l).gheld = s.gheld := rfl
@[simp] theorem putMem_gopen : (s.putMem a l).gopen = s.gopen := rfl
@[simp] theorem putMem_gqBroken : (s.putMem a l).gqBroken = s.gqBroken := rfl
@[simp] theorem putMem_banks : (s.putMem a l).banks = s.banks := rfl
@[simp] theorem putMem_votes : (s.putMem a l).votes = s.votes := rfl
@[simp] theorem putMem_scores : (s.putMem a l).scores = s.scores := rfl
@[simp] theorem putMem_halved : (s.putMem a l).halved = s.halved := rfl
@[simp] theorem putMem_coreMap : (s.putMem a l).coreMap = s.coreMap := rfl
@[simp] theorem putMem_degraded : (s.putMem a l).degraded = s.degraded := rfl
@[simp] theorem putMem_quarantine : (s.putMem a l).quarantine = s.quarantine := rfl
@[simp] theorem putMem_repairs : (s.putMem a l).repairs = s.repairs := rfl
@[simp] theorem putMem_spares : (s.putMem a l).spares = s.spares := rfl
@[simp] theorem putMem_scanning : (s.putMem a l).scanning = s.scanning := rfl
@[simp] theorem putMem_scanned : (s.putMem a l).scanned = s.scanned := rfl
@[simp] theorem putMem_badCores : (s.putMem a l).badCores = s.badCores := rfl
@[simp] theorem putMem_fuses : (s.putMem a l).fuses = s.fuses := rfl
@[simp] theorem putMem_diesOut : (s.putMem a l).diesOut = s.diesOut := rfl
@[simp] theorem putMem_regs : (s.putMem a l).regs = s.regs := rfl
@[simp] theorem putMem_topo : (s.putMem a l).topo = s.topo := rfl
@[simp] theorem putMem_claims : (s.putMem a l).claims = s.claims := rfl
@[simp] theorem putMem_tlbinv : (s.putMem a l).tlbinv = s.tlbinv := rfl
@[simp] theorem putMem_manBusy : (s.putMem a l).manBusy = s.manBusy := rfl
@[simp] theorem putMem_manVal : (s.putMem a l).manVal = s.manVal := rfl
@[simp] theorem putMem_measured : (s.putMem a l).measured = s.measured := rfl
@[simp] theorem putMem_islands : (s.putMem a l).islands = s.islands := rfl
@[simp] theorem putMem_power : (s.putMem a l).power = s.power := rfl
@[simp] theorem putMem_ctr : (s.putMem a l).ctr = s.ctr := rfl
@[simp] theorem putMem_actcyc : (s.putMem a l).actcyc = s.actcyc := rfl
@[simp] theorem putMem_trig : (s.putMem a l).trig = s.trig := rfl
@[simp] theorem putMem_trigHit : (s.putMem a l).trigHit = s.trigHit := rfl
@[simp] theorem putMem_trigStop : (s.putMem a l).trigStop = s.trigStop := rfl
@[simp] theorem putMem_trigWr : (s.putMem a l).trigWr = s.trigWr := rfl
@[simp] theorem putMem_cycle : (s.putMem a l).cycle = s.cycle := rfl
@[simp] theorem putMem_time12 : (s.putMem a l).time12 = s.time12 := rfl
@[simp] theorem putMem_timeFrac : (s.putMem a l).timeFrac = s.timeFrac := rfl
@[simp] theorem putMem_slew : (s.putMem a l).slew = s.slew := rfl
@[simp] theorem putMem_samples : (s.putMem a l).samples = s.samples := rfl
@[simp] theorem putMem_recs : (s.putMem a l).recs = s.recs := rfl
@[simp] theorem putMem_used : (s.putMem a l).used = s.used := rfl
@[simp] theorem putMem_moved : (s.putMem a l).moved = s.moved := rfl
@[simp] theorem putMem_turn : (s.putMem a l).turn = s.turn := rfl
@[simp] theorem putMem_dieCycle : (s.putMem a l).dieCycle = s.dieCycle := rfl
@[simp] theorem putMem_rollbacks : (s.putMem a l).rollbacks = s.rollbacks := rfl
@[simp] theorem putMem_vacated : (s.putMem a l).vacated = s.vacated := rfl
@[simp] theorem putMem_rootHash : (s.putMem a l).rootHash = s.rootHash := rfl
@[simp] theorem putMem_encrypted : (s.putMem a l).encrypted = s.encrypted := rfl

end

end Sys2Proof.Machine
end

