-- ==== Sys2Proof/Laws/Traps.lean ====
section
/-!
SUPPORT. What taking a trap does (R399 to R405): the trap registers, the handler, the supervisor. Writing memory and tracing touch neither
blocks nor courses.
-/

namespace Sys2Proof.Machine

/-! ### Cores left alone -/

/-- Two states with the same blocks and courses. -/
def SameCores (s t : State) : Prop := t.blocks = s.blocks ∧ t.courses = s.courses

theorem SameCores.rfl {s : State} : SameCores s s := ⟨by simp, by simp⟩

theorem SameCores.trans {s t u : State} (h : SameCores s t) (g : SameCores t u) : SameCores s u :=
  ⟨g.1.trans h.1, g.2.trans h.2⟩

/-- What a step that writes neither blocks nor courses comes before. -/
theorem SameCores.after {s t u : State} (g : SameCores t u) (hb : t.blocks = s.blocks) (hc : t.courses = s.courses) : SameCores s u :=
  ⟨g.1.trans hb, g.2.trans hc⟩

theorem SameCores.ite {s t u : State} {c : Prop} [Decidable c] (h : SameCores s t) (g : SameCores s u) : SameCores s (if c then t else u) := by
  split
  · exact h
  · exact g

theorem SameCores.foldl {α : Type} (g : State → α → State) (hg : ∀ s a, SameCores s (g s a)) (l : List α) (s : State) :
    SameCores s (l.foldl g s) := by
  induction l generalizing s with
  | nil => exact SameCores.rfl
  | cons a l ih => exact (hg s a).trans (ih _)

theorem SameCores.mergeLine (s : State) (line : Nat) : SameCores s (s.mergeLine line) := ⟨by simp [State.mergeLine, State.putMem], by simp [State.mergeLine, State.putMem]⟩

theorem SameCores.evictOne (s : State) (die : Nat) : SameCores s (s.evictOne die) := by
  unfold State.evictOne
  split
  · exact ⟨by simp, by simp⟩
  · exact ⟨by simp, by simp⟩
  · exact SameCores.mergeLine _ _
  · exact SameCores.rfl

theorem SameCores.l2Room (s : State) (die n : Nat) : SameCores s (s.l2Room die n) := by
  unfold State.l2Room
  exact SameCores.ite (SameCores.ite ((SameCores.evictOne _ _).trans (SameCores.evictOne _ _)) (SameCores.evictOne _ _)) SameCores.rfl

theorem SameCores.setDirty (s : State) (line : Nat) (core : Option Nat) : SameCores s (s.setDirty line core) := by
  unfold State.setDirty
  split
  · exact SameCores.rfl
  · have h := (SameCores.l2Room { s with dirty := s.dirty.filter (fun e => e.1 != line) } (State.dieFor core line) 2).after
      (s := s) (Eq.refl _) (Eq.refl _)
    exact ⟨h.1, h.2⟩

theorem SameCores.homeMerge (s : State) (line : Nat) : SameCores s (s.homeMerge line) := by
  unfold State.homeMerge
  exact SameCores.ite ((SameCores.mergeLine _ _).trans (SameCores.setDirty _ _ _)) SameCores.rfl

theorem SameCores.mergeFrame (s : State) (f size : Nat) : SameCores s (s.mergeFrame f size) :=
  SameCores.foldl (fun t (p : Partial) => State.homeMerge t p.line) (fun t p => SameCores.homeMerge t p.line) _ _

theorem SameCores.copyFrame (s : State) (f size t : Nat) : SameCores s (s.copyFrame f size t) :=
  (SameCores.mergeFrame s f size).trans ⟨by simp [State.copyFrame], by simp [State.copyFrame]⟩

theorem SameCores.copied (s v : State) (f size t b : Nat) (g : UEnt → UEnt) (hb : v.blocks = s.blocks) (hc : v.courses = s.courses) :
    SameCores s ((v.copyFrame f size t).updUnd b g) :=
  ((SameCores.copyFrame v f size t).after hb hc).trans ⟨by simp [State.updUnd], by simp [State.updUnd]⟩

theorem SameCores.enterPoint (s t : State) (p : Nat) (u : UEnt) (a : Nat) (h : s.enterPoint p u a = .ok t) : SameCores s t := by
  unfold State.enterPoint at h
  split at h
  · cases h; exact SameCores.rfl
  · split at h
    · cases h; exact SameCores.rfl
    · split at h
      · cases h
      · simp only [Except.ok.injEq] at h
        subst h
        exact SameCores.copied _ _ _ _ _ _ _ (Eq.refl _) (Eq.refl _)

theorem SameCores.snapCopy (s t : State) (b : Nat) (h : s.snapCopy b = .ok t) : SameCores s t := by
  unfold State.snapCopy at h
  split at h
  · cases h; exact SameCores.rfl
  · split at h
    · cases h; exact SameCores.rfl
    · split at h
      · cases h
      · simp only [Except.ok.injEq] at h
        subst h
        exact SameCores.copied _ _ _ _ _ _ _ (Eq.refl _) (Eq.refl _)

theorem SameCores.prepWrite (s t : State) (a : Nat) (p : Option Nat) (h : s.prepWrite a p = .ok t) : SameCores s t := by
  unfold State.prepWrite at h
  split at h
  · cases h; exact SameCores.rfl
  · rename_i u _
    cases p with
    | none => exact SameCores.snapCopy _ _ _ h
    | some q =>
      simp only at h
      cases hq : s.enterPoint q u a with
      | error e => rw [hq] at h; simp [Except.bind] at h
      | ok s1 =>
        rw [hq] at h
        exact (SameCores.enterPoint s s1 q u a hq).trans (SameCores.snapCopy _ _ _ h)

theorem SameCores.mergeFor (s : State) (l : Loc) (n : Nat) : SameCores s (s.mergeFor l n) := by
  unfold State.mergeFor State.mergeAt
  split
  · exact (SameCores.homeMerge _ _).trans (SameCores.homeMerge _ _)
  · exact SameCores.rfl

theorem SameCores.touchPoint (s : State) (ag : Option Agent) (a : Nat) : SameCores s (s.touchPoint ag a) := by
  unfold State.touchPoint
  split
  · split
    · exact SameCores.ite ⟨by simp [State.updLaunch], by simp [State.updLaunch]⟩ SameCores.rfl
    · exact SameCores.rfl
  · exact SameCores.rfl

theorem SameCores.l1Stale (s : State) (core : Option Nat) (l : Loc) (n : Nat) : SameCores s (s.l1Stale core l n) :=
  ⟨by simp [State.l1Stale], by simp [State.l1Stale]⟩

theorem SameCores.snoopHost (s : State) (ls : List Nat) : SameCores s (s.snoopHost ls) := by
  unfold State.snoopHost
  refine SameCores.foldl _ (fun t l => ?_) _ _
  split
  · exact ⟨Eq.refl _, Eq.refl _⟩
  · exact SameCores.rfl

theorem SameCores.putFrame (s : State) (ag : Option Agent) (core : Option Nat) (b : Nat) (bs : List Byte) (durable : Bool) (tag : W32) :
    SameCores s (s.putFrame ag core b bs durable tag) := by
  have h : ∀ v, SameCores s v → SameCores s (if bs.length = 128 ∧ b % 128 = 0 then
      { v with poison := v.poison.filter (· != b / 128) } else v) := fun v hv => SameCores.ite ⟨hv.1, hv.2⟩ hv
  unfold State.putFrame
  refine h _ (SameCores.ite ⟨Eq.refl _, Eq.refl _⟩ ((SameCores.setDirty _ _ _).after (Eq.refl _) (Eq.refl _)))

theorem SameCores.holdHost (s : State) (die line : Nat) (st : Mesi) : SameCores s (s.holdHost die line st) := by
  unfold State.holdHost
  have h := (SameCores.l2Room { s with hostLines := s.hostLines.filter (fun e => e.1 != line) ++
    (if st = .s then (s.hostLines.filter (fun e => e.1 == line && e.2.1 != die)).map (fun e => (e.1, e.2.1, Mesi.s)) else []) } die 1).after
      (s := s) (Eq.refl _) (Eq.refl _)
  exact ⟨h.1, h.2⟩

theorem SameCores.ownHost (s : State) (die : Nat) (l : Loc) (n : Nat) : SameCores s (s.ownHost die l n) := by
  unfold State.ownHost
  split
  · exact (SameCores.holdHost _ _ _ _).trans (SameCores.holdHost _ _ _ _)
  · exact SameCores.rfl

theorem SameCores.thruHost (s : State) (l : Loc) (n : Nat) : SameCores s (s.thruHost l n) := by
  unfold State.thruHost
  split
  · exact ⟨by simp [State.freeHost], by simp [State.freeHost]⟩
  · exact SameCores.rfl

theorem SameCores.storeDev (s t : State) (ag : Option Agent) (core : Option Nat) (a : Nat) (bs : List Byte)
    (h : s.storeDev ag core a bs = .ok t) : SameCores s t := by
  unfold State.storeDev at h
  split at h
  · cases h
  · cases hp : s.prepWrite a (ag.map Agent.part) with
    | error e => rw [hp] at h; simp [asAwait, Except.mapError, Except.bind] at h
    | ok s0 =>
      rw [hp] at h
      simp only [asAwait, Except.mapError, Except.bind, Except.ok.injEq] at h
      have h0 := SameCores.prepWrite s s0 a _ hp
      have h1 := (h0.trans (SameCores.mergeFor s0 (.dev a) bs.length)).trans (SameCores.touchPoint _ ag a)
      subst h
      exact (h1.trans (SameCores.putFrame _ _ _ _ _ _ _)).trans (SameCores.l1Stale _ _ _ _)

theorem SameCores.storeShadow (s t : State) (ag : Option Agent) (core : Option Nat) (a : Nat) (bs : List Byte)
    (h : s.storeShadow ag core a bs = .ok t) : SameCores s t := by
  have hm : ∀ (v : State) (b n : Nat), SameCores v (v.mergeAt b n) := fun v b n =>
    (SameCores.homeMerge _ _).trans (SameCores.homeMerge _ _)
  unfold State.storeShadow at h
  simp only at h
  split at h
  · cases h; exact ⟨Eq.refl _, Eq.refl _⟩
  · split at h
    · cases h; exact (hm _ _ _).trans (SameCores.putFrame _ _ _ _ _ _ _)
    · split at h
      · cases h
      · cases h
        refine SameCores.trans ?_ (SameCores.putFrame _ _ _ _ _ _ _)
        exact SameCores.after (hm _ _ _) (by simp [State.updUnd]) (by simp [State.updUnd])

/-- A store outside the scratchpads touches neither blocks nor courses. -/
theorem SameCores.storeAt (s t : State) (ag : Option Agent) (core : Option Nat) (l : Loc) (bs : List Byte) (hl : ∀ b o, l ≠ .scr b o)
    (h : s.storeAt ag core l bs = .ok t) : SameCores s t := by
  cases l with
  | dev a => exact SameCores.storeDev _ _ _ _ _ _ h
  | shadow a => exact SameCores.storeShadow _ _ _ _ _ _ h
  | host a =>
    simp only [State.storeAt, Except.ok.injEq] at h
    subst h
    have h2 : SameCores s (if bs.length = 128 ∧ a % 128 = 0 then
        { s with host := s.host.write a bs, hostPoison := s.hostPoison.filter (· != a / 128) } else { s with host := s.host.write a bs }) :=
      SameCores.ite ⟨by simp, by simp⟩ ⟨by simp, by simp⟩
    cases core with
    | none => exact (h2.trans (SameCores.thruHost _ _ _)).trans (SameCores.l1Stale _ _ _ _)
    | some c => exact (h2.trans (SameCores.ownHost _ _ _ _)).trans (SameCores.l1Stale _ _ _ _)
  | peer m a =>
    simp only [State.storeAt, Except.ok.injEq] at h
    subst h
    exact SameCores.rfl
  | scr b o => exact absurd (Eq.refl _) (hl b o)

/-- A store of the firmware outside the scratchpads touches neither blocks nor courses, done or waiting. -/
theorem SameCores.storeFw (s : State) (l : Loc) (bs : List Byte) (hl : ∀ b o, l ≠ .scr b o) : SameCores s (s.storeFw l bs) := by
  have hw : SameCores s { s with fwWait := s.fwWait ++ [(l, bs)] } := ⟨by simp, by simp⟩
  unfold State.storeFw
  split
  · unfold State.fwDev
    simp only
    split
    · exact ⟨by simp, by simp⟩
    · split
      · rename_i t h
        exact SameCores.storeDev _ _ _ _ _ _ h
      · exact (SameCores.snoopHost _ _).after (Eq.refl _) (Eq.refl _)
      · exact ⟨by simp, by simp⟩
  · split
    · rename_i t h
      exact SameCores.storeAt _ _ _ _ _ _ hl h
    · exact hw

theorem physLoc_not_scr (s : State) (pa : Nat) (b : BKey) (o : Nat) : s.physLoc pa ≠ .scr b o := by
  unfold State.physLoc
  simp only
  split
  · simp
  · split
    · simp
    · split <;> simp

theorem SameCores.putPhys (s : State) (pa : Nat) (bs : List Byte) : SameCores s (s.putPhys pa bs) :=
  SameCores.storeFw _ _ _ (physLoc_not_scr s pa)

theorem SameCores.setReg (s : State) (off : Nat) (x : W64) : SameCores s (s.setReg off x) := ⟨by simp [State.setReg], by simp [State.setReg]⟩

/-- A gutter record that nothing waits for touches neither blocks nor courses. -/
theorem SameCores.gqWrite (s : State) (r : GRec) (h : r.by_ = .none) : SameCores s (s.gqWrite r) := by
  unfold State.gqWrite
  simp only [h, State.noteSeq]
  refine ⟨?_, ?_⟩
  · simp only [State.send, apply_ite State.blocks, ite_self]
    exact ((SameCores.putPhys _ _ _).trans (SameCores.setReg _ _ _)).1
  · simp only [State.send, apply_ite State.courses, ite_self]
    exact ((SameCores.putPhys _ _ _).trans (SameCores.setReg _ _ _)).2

theorem SameCores.askFor (s : State) (w : Option Await) : SameCores s (s.askFor w) := by
  unfold State.askFor
  split
  · exact SameCores.snoopHost _ _
  · exact SameCores.rfl

theorem SameCores.gutter (s : State) (r : GRec) (h : r.by_ = .none) (hf : r.isFatal = false) : SameCores s (s.gutter r) := by
  unfold State.gutter
  simp only [hf]
  split
  · contradiction
  · refine SameCores.ite ⟨by simp, by simp⟩ (SameCores.ite ?_ (SameCores.gqWrite s r h))
    exact (SameCores.askFor _ _).after (Eq.refl _) (Eq.refl _)

/-- A trace record touches neither blocks nor courses. -/
theorem SameCores.trace (s : State) (core part : Nat) (name : List Byte) (type reason quad : Nat) (mask : W32) (pc : W64)
    (aux0 aux1 : W32) : SameCores s (s.trace core part name type reason quad mask pc aux0 aux1) := by
  unfold State.trace
  exact SameCores.ite SameCores.rfl ⟨by simp, by simp⟩

end Sys2Proof.Machine
end

