-- ==== Sys2Proof/Tests/Slice0.lean ====
section
/-!
SUPPORT. The model's own tests: words written out from the encoding tables, one ill-formed term for each check of WellFormed, single steps
whose results were worked out by hand from the rules, and for each statement a state that meets its hypotheses.
-/

set_option maxRecDepth 100000
set_option Elab.async false

namespace Sys2Proof.Tests

open Sys2Proof.Machine Sys2Proof.Claims

/-! ### Words, bit by bit (02 R24 to R50) -/

/-- PRED 7, PNEG 0, CHAIN 0, WBS 0, no literal. -/
def hd : Hd := ⟨false, false, 7, false, none⟩
/-- The same of a compact word. -/
def ch : Ch := ⟨false, false, 7, none⟩
/-- The MCC's place. -/
def inMcc : DCtx := { mcc := true }
/-- A global address without modifiers. -/
def mg : MemF := { tgt := .global, base := .v 0, offs := 0, size := .b32, order := .rlx, scope := .dev, cache := .dflt }
/-- An own-scratchpad address. -/
def mo : MemF := { mg with tgt := .own }

-- control: brx [v2] is OPC 0x03, SRC0 2
theorem test_decode_brx : decodeWords {} [0x00001C0D, 0x00000002, 0] = .ok (.brx hd (.v 2)) := by decide +kernel
-- integer: imad.s.sat v1, v2, v3, v4: OPC 0x24, SAT is MODA bit 4, SRC2 4
theorem test_decode_imad : decodeWords {} [0x20011C91, 0x00100602, 0] = .ok (.imad hd (.v 1) (.v 2) (.v 3) (.v 4) false true) := by
  decide +kernel
-- system: rdsr v0, %trapcause: OPC 0x0F, SREG 0x30
theorem test_decode_rdsr : decodeWords {} [0x00001C3D, 0, 0x30] = .ok (.rdsr hd (.v 0) .trapcause) := by decide +kernel
-- floating point: fadd.ru v1, -v2, |v3|: OPC 0x40, RND 2; SRC0 is v3 (ABS0: bit 3), SRC1 is v2 (NEG1: bit 1)
theorem test_decode_fadd : decodeWords {} [0x04011D01, 0x50000403, 0] =
    .ok (.fadd hd (.v 1) (.v 2) (.v 3) (.mode .ru) ⟨false, true, true, false⟩) := by decide +kernel
-- lanes: shfl.xor.w8 p2, v0, v1, 3: OPC 0x63, MODE 3, PD 2 at MODA 6:4, WIDTH 4 in MODC
theorem test_decode_shfl : decodeWords {} [0x46001D8D, 0x00000383, 4] = .ok (.shfl hd .xor .w8 2 (.v 0) (.v 1) (.imm 3)) := by decide +kernel
-- memory: st.b8 [s:v1 - 4], v2: OPC 0x71, SPACE 1 at MODC 21:20, OFFS 0xFFFFC
theorem test_decode_st : decodeWords {} [0x00001DC5, 0x00000401, 0x001FFFFC] =
    .ok (.st hd { tgt := .own, base := .v 1, offs := 0xFFFFC, size := .b8, order := .rlx, scope := .dev, cache := .dflt } (.v 2)) := by
  decide +kernel
-- streams: sskip q5, 2: OPC 0x82, SRC0 code 0x182, MODC 5
theorem test_decode_sskip : decodeWords {} [0x00001E09, 0x00000182, 5] = .ok (.sskip hd 5 (.imm 2) false) := by decide +kernel
-- accumulators: accadd k1, v2 as bf16: OPC 0x89, DSTX 0x171, FA 2 at MODC 15:12
theorem test_decode_accadd : decodeWords {} [0x01711E25, 0x00000002, 0x2000] = .ok (.accadd hd (.k 1) (.v 2) .bf16 0 false false) := by
  decide +kernel
-- copies: cpy from global v0 to the own scratchpad at v2, 64 bytes a v3: OPC 0xA0, DSP 1 at MODC 25:24
theorem test_decode_cpy : decodeWords {} [0x00001E81, 0x000C0400, 0x01000000] =
    .ok (.cpy hd { cache := .dflt, scope := .dev, rel := false, shadow := false, stamp := false, xb := none, ssp := .global, dsp := .own,
                   role := 0, long := false } (.v 0) (.v 2) (.v 3)) := by decide +kernel
-- matrix: mma tc1, ta0, tb2 of e4m3 by e4m3: OPC 0xC2, DSTX 0x29, SRC0 0x20, SRC1 0x26, WA 3, WB 3
theorem test_decode_mma : decodeWords inMcc [0x00291F09, 0x00004C20, 0x33] =
    .ok (.mma { f := .f1, sa := false, sb := false, wa := .e4m3, wb := .e4m3, row0 := 0, col0 := 0, cba := 0, cbb := 0, kb := 0 } 1 0 2) := by
  decide +kernel
-- recovery: rpseal v1, v2: OPC 0xE1
theorem test_decode_rpseal : decodeWords {} [0x00011F85, 0x00000002, 0] = .ok (.rpseal hd (.v 1) (.v 2)) := by decide +kernel
-- observation: pmark 0x1234, v7: OPC 0xE3
theorem test_decode_pmark : decodeWords {} [0x00001F8D, 0x00000007, 0x1234] = .ok (.pmark hd 0x1234 (.v 7)) := by decide +kernel
-- reasons (R53): a literal without 0x1FF, a chained branch, a reserved code, an odd pair, an FP constant in a pair's place,
-- a bit that no rule defines, a reserved CMP, RFT outside a handler
theorem test_decode_reasons :
    decodeWords {} [0x00001C83, 0x00000403, 0, 1, 0] = .illegal 7 ∧ decodeWords {} [0x00005C09, 0, 0] = .illegal 8 ∧
    decodeWords {} [0x00001C81, 0x0000050C, 0] = .illegal 4 ∧ decodeWords {} [0x00001C0D, 0x00000003, 0] = .illegal 5 ∧
    decodeWords {} [0x00001C0D, 0x000001E0, 0] = .illegal 0xA ∧ decodeWords {} [0x00001C81, 0x00000403, 1] = .illegal 3 ∧
    decodeWords {} [0x00001C01, 0, 0] = .illegal 1 ∧ decodeWords {} [0x00001C39, 0, 0] = .illegal 0xB := by decide +kernel

/-- Four-byte words from the table's numbering: the first word least significant. -/
theorem test_decodeTableWord : decodeTableWord 96 (0x10011C81 + 0x403 * 2 ^ 32) = some (.iadd hd (.v 1) (.v 2) (.v 3) true false) := by
  decide +kernel
/-- A compact NOP placed after reset is the instruction that the next step runs. -/
theorem test_placed_runs : ((State.reset.withFetchWord 32 0x00001C04).plan).2 = some (.nopC ch) := by decide +kernel
/-- So is an MCC instruction. -/
theorem test_placed_runs_mcc : ((State.reset.withFetchWord 96 (0x00011EC1 + 0x5DF * 2 ^ 32)).plan).2 =
    some (.xadd none 1 (.x 2) (.imm (-1))) := by decide +kernel

/-! ### WellFormed refuses (one term for each check) -/

theorem test_wf_codeable : Instr.wf (.mov hd (.v 0) (.imm 64)) = false := by decide +kernel
theorem test_wf_class : Instr.wf (.mov hd (.k 0) (.v 1)) = false := by decide +kernel
theorem test_wf_pair : Instr.wf (.movl hd (.v 1) (.v 2)) = false := by decide +kernel
theorem test_wf_mcc_codeable : Instr.wf (.xmov none 0 (.imm (-33))) = false := by decide +kernel
theorem test_wf_mcc_class : Instr.wf (.xmov none 0 (.tb 1)) = false := by decide +kernel
theorem test_wf_mcc_literal : Instr.wf (.xmov none 0 .lit) = false := by decide +kernel
theorem test_wf_literal : Instr.wf (.mov { hd with lit := some 5 } (.v 0) (.v 1)) = false := by decide +kernel
theorem test_wf_literal_half : Instr.wf (.mov { hd with lit := some 0x100000000 } (.v 0) .lit) = false := by decide +kernel
theorem test_wf_guard : Instr.wf (.mov { hd with pneg := true } (.v 0) (.v 1)) = false := by decide +kernel
theorem test_wf_chain : Instr.wf (.bra { hd with chain := true } 0) = false := by decide +kernel
theorem test_wf_wbs : Instr.wf (.st { hd with wbs := true } mg (.v 2)) = false := by decide +kernel
theorem test_wf_nine : Instr.wf (.bar hd (.imm 0) false 1025) = false := by decide +kernel
theorem test_wf_three : Instr.wf (.atom hd .xor true (.v 4) mg (.v 2)) = false := by decide +kernel
theorem test_wf_accepts : Instr.wf (.mov { hd with lit := some 0xFFFFFFFF80000000 } (.v 0) .lit) = true := by decide +kernel

/-! ### A small machine -/

/-- Thread 0 holds -1, 2, -2^31 and 3 in v0 to v3, and thread 1 holds 1, 5, 7 and 9; v4 to v7 are zero. -/
def labV (tl : Nat) : File 32 := if tl = 0 then [(0, 0xFFFFFFFF), (1, 2), (2, 0x80000000), (3, 3)] else [(0, 1), (1, 5), (2, 7), (3, 9)]
/-- A thread in course 1. -/
def labT (tl : Nat) : Thread := { Thread.fresh tl 0x4000 0 8 0 (.course 1) with v := labV tl }
/-- A launch of one block of two threads, both producers, every queue attached; its handlers are at 0x8000 and up. -/
def labL : Launch :=
  { placeLaunch [] with d := { placeDesc with bx := 2, producer := 0, handlers := [0x8000, 0x8100, 0x8200, 0x8300] } }
/-- Its block: b0 is 4; byte 0 of its scratchpad is 1 and byte 4 is 0x80. -/
def labB : Block := { placeBlock 1 with threads := [labT 0, labT 1], b := [(0, 4)], scratch := [(0, 1), (4, 0x80)] }
/-- Its course. -/
def labC : Course := { placeCourse 1 1 0 with lanes := [some 0, some 1] }
/-- Its MCC: x1 is 5 and x2 is -1. -/
def labM : Mcc := { Mcc.fresh 0 placeKey 0x5000 with x := [(1, 5), (2, 0xFFFFFFFFFFFFFFFF)] }
/-- The machine that they make: partition 0 is cores 0, 1, 32 and 33, and its first 2 MiB of addresses are its first 2 MiB of device
memory. The course issues. -/
def lab : State :=
  { ((State.reset.setReg 0x3000 (2 ^ 32 + 2 * 2 ^ 16 + 2 * 2 ^ 24)).setReg 0x3008 0x1000000) with
    mem := placeTables [], launches := [labL], blocks := [labB], courses := [labC], mccs := [labM], nextId := 2, cycle := 8,
    cur := .course 0 1 }
/-- The course with its block and launch. -/
def labX : Ctx := { core := 0, id := 1, c := labC, b := labB, l := labL }
/-- The same machine where its MCC runs. -/
def labm : State := { lab with cur := .mcc 0 }
/-- The MCC with its block and launch. -/
def labY : MCtx := { core := 0, m := labM, b := labB, l := labL }

theorem lab_issuing : lab.issuing = some labX := rfl
theorem labm_running : labm.running = some labY := rfl

/-- What a field of the state is after an instruction; none where it does not answer a next state. -/
def after {α : Type} (i : Instr) (s : State) (f : State → α) : Option α :=
  match exec i s with
  | .next t => some (f t)
  | _ => none

/-- Register v`n` of thread `tl` after an instruction of the course. -/
def vAfter (i : Instr) (tl n : Nat) : Option (Option W32) := after i lab (fun t => (t.thread? placeKey tl).map (fun u => u.v.get n))

/-! ### One step each (results by hand from the rules) -/

-- R190: -1 + 2 = 1 modulo 2^32; 1 + 5 = 6
theorem test_iadd : vAfter (.iadd hd (.v 4) (.v 0) (.v 1) false false) 0 4 = some (some 1) := by decide +kernel
-- unsigned and saturating: 2^32 - 1 + 2 clamps
theorem test_iadd_sat : vAfter (.iadd hd (.v 4) (.v 0) (.v 1) true true) 0 4 = some (some 0xFFFFFFFF) := by decide +kernel
-- 2 - (-1) = 3
theorem test_isub : vAfter (.isub hd (.v 4) (.v 1) (.v 0) false false) 0 4 = some (some 3) := by decide +kernel
-- a source that is the destination: -1 * 2 = -2
theorem test_imul_inplace : vAfter (.imul hd (.v 0) (.v 0) (.v 1) false false) 0 0 = some (some 0xFFFFFFFE) := by decide +kernel
-- the high half of (2^32 - 1) * 2 is 1
theorem test_imulh : vAfter (.imulh hd (.v 4) (.v 0) (.v 1) true) 0 4 = some (some 1) := by decide +kernel
-- R190: a shift of 255 is one of 32
theorem test_shl_clamps : vAfter (.shl hd (.v 4) (.v 1) (.v 0)) 0 4 = some (some 0) := by decide +kernel
theorem test_sar_clamps : vAfter (.sar hd (.v 4) (.v 2) (.v 0)) 0 4 = some (some 0xFFFFFFFF) := by decide +kernel
-- R191: the right shift of 3:2^31 by 2 puts the low bits of hi on top: 0x20000000 + 3 * 2^30 = 0xE0000000
theorem test_shf : vAfter (.shf hd (.v 4) (.v 2) (.v 3) (.v 1) false) 0 4 = some (some 0xE0000000) := by decide +kernel
-- R193: -2^31 / -1, and division by zero
theorem test_idiv_overflow : vAfter (.idiv hd (.v 4) (.v 2) (.v 0) false) 0 4 = some (some 0x80000000) := by decide +kernel
theorem test_idiv_zero : vAfter (.idiv hd (.v 4) (.v 1) (.v 5) false) 0 4 = some (some 0xFFFFFFFF) := by decide +kernel
theorem test_irem_zero : vAfter (.irem hd (.v 4) (.v 1) (.v 5) true) 0 4 = some (some 2) := by decide +kernel
-- R190: 31 leading zeros are below 2 in 30
theorem test_clz : vAfter (.clz hd (.v 4) (.v 1)) 0 4 = some (some 30) := by decide +kernel
-- R195: nibble 8 + 3 gives copies of the sign of byte 3 of a; PRMT with c = 0xB in byte 0
theorem test_prmt : vAfter (.prmt { hd with lit := some 0xB } (.v 4) (.v 2) (.v 1) .lit) 0 4 = some (some 0x000000FF) := by decide +kernel
-- R194: the mask and, in p1, the outcome: -1 < 2 signed
theorem test_icmp : vAfter (.icmp hd 1 (.v 4) (.v 0) (.v 1) false .lt) 0 4 = some (some 0xFFFFFFFF) := by decide +kernel
-- R43: under a guard that is false in both lanes nothing is written, and the course goes on
theorem test_guard : after (.iadd { hd with pred := 0 } (.v 4) (.v 0) (.v 1) false false) lab
    (fun t => (t.thread? placeKey 0).map (fun u => (u.v.get 4, u.pc))) = some (some (0, 0x400C)) := by decide +kernel
-- R123: the lane with the highest thread index is written last into b1: 1 + 5
theorem test_block_register : after (.iadd hd (.b 1) (.v 0) (.v 1) false false) lab (fun t => (t.block? placeKey).map (fun b => b.b.get 1)) =
    some (some 6) := by decide +kernel
-- R197, R40: 1.0 + 2^-25 is inexact; nearest stays 1.0 and up goes one further
theorem test_fadd_rn : vAfter (.fadd { hd with lit := some 0x33000000 } (.v 4) (.fc 2) .lit (.mode .rn) ⟨false, false, false, false⟩) 0 4 =
    some (some 0x3F800000) := by decide +kernel
theorem test_fadd_ru : vAfter (.fadd { hd with lit := some 0x33000000 } (.v 4) (.fc 2) .lit (.mode .ru) ⟨false, false, false, false⟩) 0 4 =
    some (some 0x3F800001) := by decide +kernel
-- R213: both lanes vote; only thread 0's operand is true under p0 = false inverted: all
theorem test_vote_ballot : vAfter (.vote hd .ballot 7 (.v 4) 0 true) 0 4 = some (some 3) := by decide +kernel
-- R214: lane 0 reads lane 1
theorem test_shfl : vAfter (.shfl hd .xor .w32 7 (.v 4) (.v 3) (.imm 1)) 0 4 = some (some 9) := by decide +kernel
-- R216: -1 + 1 over both lanes, as a pair
theorem test_cred : vAfter (.cred hd .add true (.v 4) (.v 0)) 1 5 = some (some 1) := by decide +kernel
-- R221: byte 4 of the scratchpad, sign-extended
theorem test_ld_sx : vAfter (.ld hd (.v 4) { mo with base := .imm 4, size := .b8 } true) 0 4 = some (some 0xFFFFFF80) := by decide +kernel
-- R219: an odd offset traps in both lanes
theorem test_ld_misaligned : after (.ld hd (.v 4) { mo with base := .imm 3 } false) lab
    (fun t => (t.thread? placeKey 1).map (fun u => (u.trapcause, u.trapmask, u.trapaux.headD 0))) = some (some (2, 3, 3)) := by decide +kernel
-- R223: the second lane reads what the first left, 1 + 2
theorem test_atom_add : vAfter (.atom hd .add false (.v 4) { mo with base := .imm 0 } (.v 1)) 1 4 = some (some 3) := by decide +kernel
-- R230: every presence bit is set
theorem test_probe : vAfter (.probe hd 7 (.v 4) { mo with base := .imm 0, size := .b8 }) 0 4 = some (some 1) := by decide +kernel
-- R179: four bytes an offset, from the branch's own address
theorem test_bra : after (.bra hd 0xFFFFFFFF) lab (fun t => (t.thread? placeKey 0).map (·.pc)) = some (some 0x3FFC) := by decide +kernel
-- R181
theorem test_exit : after (.exit hd) lab (fun t => (t.thread? placeKey 0).map (·.stat)) = some (some .exited) := by decide +kernel
-- R410, R400: TRAP enters the handler at 0x8200 with USER set and each lane's operand
theorem test_trap : after (.trap hd (.v 1)) lab (fun t => (t.thread? placeKey 1).map (fun u => (u.pc, u.trapcause, u.trapaux.headD 0))) =
    some (some (0x8200, 0x10102, 5)) := by decide +kernel
-- R411: no debugger, so BRK only goes on
theorem test_brk : after (.brk hd 7) lab (fun t => (t.thread? placeKey 0).map (·.pc)) = some (some 0x400C) := by decide +kernel
-- R298: 2 as bf16 in bits 15:0 is 2^-133 * 2; an integer format counts 2 as 2
theorem test_accadd : after (.accadd hd (.k 0) (.v 1) .i32 0 false false) lab
    (fun t => (t.thread? placeKey 0).map (fun u => ((u.acc 0).val, (u.acc 0).count))) = some (some (2 * 2 ^ 320, 1)) := by decide +kernel
-- R346: 5 + (-1)
theorem test_xadd : after (.xadd none 3 (.x 1) (.x 2)) labm (fun t => (t.mcc? 0).map (fun m => (m.x.get 3, m.pc))) = some (some (4, 0x500C)) := by
  decide +kernel
-- R347: XLOOP counts x1 down and branches while it is not 0
theorem test_xloop : after (.xloop 1 0xFFFFFFFF) labm (fun t => (t.mcc? 0).map (fun m => (m.x.get 1, m.pc))) = some (some (4, 0x4FFC)) := by
  decide +kernel
-- R357
theorem test_tzero : after (.tzero 0 ⟨0, 31, 0, 31⟩) labm (fun t => (t.mcc? 0).map (·.pc)) = some (some 0x500C) := by decide +kernel

/-! ### What meets the hypotheses of each statement: lanes -/

/-- Whether the lab's course is ready for an instruction of a shape. -/
def readyB (sh : Shape) : Bool :=
  sh.pushPort.isNone && (labX.active sh.h.pneg sh.h.pred).all (fun p => sh.reads.all (fun o => plainReady labX p.1 p.2 o.1 o.2))

theorem ready_of (sh : Shape) (h : readyB sh = true) : LanesReady lab labX sh := by
  simp only [readyB, Bool.and_eq_true, List.all_eq_true, Option.isNone_iff_eq_none] at h
  exact ⟨rfl, rfl, h.1, fun p hp o ho => h.2 p hp o ho⟩

theorem goes_pure (sh : Shape) (f : Ctx → Nat → Thread → List Nat → LaneRes) (h : readyB sh = true) : Goes lab labX sh (pureLane f) := by
  have r := ready_of sh h
  refine ⟨rfl, ?_⟩
  have e := runLanes_plain sh f labX lab r.fresh r.noPort r.ready
  unfold pureLane
  rw [e]


/-- Shapes of one, two and three sources. -/
def sh1 (i : Instr) : Shape := one i hd (.v 4) (.v 0) 0
def sh2 (i : Instr) : Shape := two i hd (.v 4) (.v 0) (.v 1) 0
def sh3 (i : Instr) : Shape := three i hd (.v 4) (.v 0) (.v 1) (.v 2) 0
def shc (i : Instr) : Shape := twoC i ch (.v 0) (.v 1) 0

theorem witness_IntegerArithmetic :
    (∀ i, i = .iadd hd (.v 4) (.v 0) (.v 1) true true ∨ i = .isub hd (.v 4) (.v 0) (.v 1) false true ∨
      i = .imul hd (.v 4) (.v 0) (.v 1) true false ∨ i = .imulh hd (.v 4) (.v 0) (.v 1) true ∨ i = .imin hd (.v 4) (.v 0) (.v 1) true ∨
      i = .imax hd (.v 4) (.v 0) (.v 1) true → LanesReady lab labX (sh2 i)) ∧
    LanesReady lab labX (shc (.iaddC ch (.v 0) (.v 1))) ∧ LanesReady lab labX (shc (.isubC ch (.v 0) (.v 1))) ∧
    LanesReady lab labX (sh3 (.imad hd (.v 4) (.v 0) (.v 1) (.v 2) false false)) ∧ LanesReady lab labX (sh1 (.iabs hd (.v 4) (.v 0) true)) ∧
    LanesReady lab labX (shapeX (.iadd64 hd (.v 4) (.v 0) (.v 2) true true) hd [(.v 2, .w64), (.v 0, .w64)] (some (.v 4, 64)) (some 0)) ∧
    LanesReady lab labX (shapeX (.lea hd (.v 4) (.v 0) (.v 2) true 3) hd [(.v 2, .w32), (.v 0, .w64)] (some (.v 4, 64)) (some 0)) :=
  ⟨fun _ _ => ready_of _ rfl, ready_of _ rfl, ready_of _ rfl, ready_of _ rfl, ready_of _ rfl, ready_of _ rfl, ready_of _ rfl⟩

theorem witness_IntegerLogic :
    (∀ i : Instr, LanesReady lab labX (sh2 i)) ∧ (∀ i : Instr, LanesReady lab labX (sh1 i)) ∧ (∀ i : Instr, LanesReady lab labX (shc i)) ∧
    LanesReady lab labX (shapeC (.movC ch (.v 4) (.v 0)) ch [(.v 0, .w32)] (some (.v 4, 32)) (some 0)) ∧
    LanesReady lab labX (shapeX (.movl hd (.v 4) (.v 0)) hd [(.v 0, .w64)] (some (.v 4, 64)) (some 0)) :=
  ⟨fun _ => ready_of _ rfl, fun _ => ready_of _ rfl, fun _ => ready_of _ rfl, ready_of _ rfl, ready_of _ rfl⟩

theorem witness_ShfFunnels : LanesReady lab labX (sh3 (.shf hd (.v 4) (.v 0) (.v 1) (.v 2) true)) ∧ 32 ≤ (32 : W32).toNat :=
  ⟨ready_of _ rfl, by decide⟩

theorem witness_BitFieldsExtractAndInsert : LanesReady lab labX (sh2 (.bfx hd (.v 4) (.v 0) (.v 1) true)) ∧
    LanesReady lab labX (sh3 (.bfi hd (.v 4) (.v 0) (.v 1) (.v 2))) := ⟨ready_of _ rfl, ready_of _ rfl⟩

theorem witness_BitCountsAndDivision : LanesReady lab labX (sh1 (.popc hd (.v 4) (.v 0))) ∧ LanesReady lab labX (sh1 (.clz hd (.v 4) (.v 0))) ∧
    LanesReady lab labX (sh1 (.brev hd (.v 4) (.v 0))) ∧ LanesReady lab labX (sh2 (.idiv hd (.v 4) (.v 0) (.v 1) true)) ∧
    LanesReady lab labX (sh2 (.irem hd (.v 4) (.v 0) (.v 1) true)) :=
  ⟨ready_of _ rfl, ready_of _ rfl, ready_of _ rfl, ready_of _ rfl, ready_of _ rfl⟩

theorem witness_IcmpWritesPredicateAndMask :
    LanesReady lab labX { sh2 (.icmp hd 7 (.v 4) (.v 0) (.v 1) true .lt) with pd := 7 } ∧
    LanesReady lab labX { sh2 (.icmp hd 1 (.v 4) (.v 0) (.v 1) true .lt) with pd := 1 } := ⟨ready_of _ rfl, ready_of _ rfl⟩

theorem witness_PrmtPermutesBytes : LanesReady lab labX (sh3 (.prmt hd (.v 4) (.v 0) (.v 1) (.v 2))) := ready_of _ rfl

/-- What a lane of the lab has computed. -/
def labOut (n val : Nat) : LaneOut :=
  { lane := n, tl := n, inp := { vals := [], ports := [], pops := [] }, push := none, res := LaneRes.value val }

/-- A destination of each kind, at the top of its file, and discarded. -/
theorem witness_ResultsReachTheirThread :
    (∀ q ∈ ([] : List LaneOut) ++ labOut 0 7 :: [labOut 1 9], ∀ t, q.res.th t = t) ∧ (∀ q ∈ [labOut 1 9], q.tl ≠ (labOut 0 7).tl) ∧
    lab.thread? labX.b.key 0 = some (labT 0) ∧ swf 0 (labT 0).v = true ∧ swf 0 (labT 0).o = true ∧ labX.c.reinj = [] ∧
    (sh2 .tsync).dst = some (.v 4, 32) ∧ (shapeX .tsync { hd with wbs := true } [] (some (.v 238, 64)) none).dst = some (.v 238, 64) := by
  refine ⟨?_, ?_, by decide +kernel, by decide +kernel, by decide +kernel, rfl, rfl, rfl⟩
  · intro q hq t
    simp only [List.nil_append, List.mem_cons, List.not_mem_nil, or_false] at hq
    rcases hq with rfl | rfl <;> rfl
  · simp [labOut]

theorem witness_CompletionWritesItsResults :
    labX.c.reinj = [] ∧ (∀ o ∈ [labOut 0 7, labOut 1 9], o.push = none ∧ ∀ t, (o.res.th t).tl = t.tl) ∧
    lab.block? labX.b.key = some labB ∧ swf 0 labB.b = true ∧ lab.course? labX.core labX.id = some labC ∧
    (shapeX .tsync hd [] (some (.b 31, 32)) (some 0)).dst = some (.b (31 : Fin 32), 32) ∧
    (shapeX .tsync hd [] none (some 0)).h.chain = false ∧ (shapeX .tsync { hd with chain := true } [] none (some 0)).h.chain = true := by
  refine ⟨rfl, ?_, by decide +kernel, by decide +kernel, by decide +kernel, rfl, rfl, rfl⟩
  intro o ho
  simp only [List.mem_cons, List.not_mem_nil, or_false] at ho
  rcases ho with rfl | rfl <;> exact ⟨rfl, fun _ => rfl⟩

theorem witness_FloatingPointOperations :
    (∀ i, LanesReady lab labX (ftwo i hd (.v 4) (.v 0) (.v 1) (.mode .rz))) ∧ (∀ i, LanesReady lab labX (fone i hd (.v 4) (.v 0) (.sr (.v 3)))) ∧
    (∀ i f, LanesReady lab labX (fone i hd (.v 4) (.v 0) (.mode .rn) (.elem f))) ∧
    (∀ (i : Instr) (p : Machine.Pos), LanesReady lab labX
      { shapeX i hd [(.v 0, p), (.v 1, p), (.v 2, p)] (some (.v 4, 32)) (some 1) with rnd := rndOpnd (.sr (.v 3)) }) ∧
    LanesReady lab labX (shapeC (.faddC ch (.v 0) (.v 1)) ch [(.v 1, .w32), (.v 0, .w32)] (some (.v 0, 32)) (some 1)) ∧
    ∀ (sh : Shape) (f : Ctx → Nat → Thread → List Nat → LaneRes), (∀ (n : Nat) (t : Thread) (v : List Nat), (f labX n t v).fl = 0) →
      fpeDue labX (computed labX sh f) = false := by
  refine ⟨fun _ => ready_of _ rfl, fun _ => ready_of _ rfl, fun _ f => ready_of _ (by cases f <;> rfl), fun _ p => ready_of _ ?_, ready_of _ rfl, ?_⟩
  · cases p with
    | elem f => cases f <;> rfl
    | _ => rfl
  intro sh f h
  apply fpeDue_of_silent
  intro o ho
  simp only [computed, List.mem_map] at ho
  obtain ⟨p, _, rfl⟩ := ho
  exact h _ _ _

theorem witness_ComparesAndSpecialFunctions :
    (∀ i, LanesReady lab labX (ftwo i hd (.v 4) (.v 0) (.v 1) (.mode .rn))) ∧
    LanesReady lab labX (fone (.fclass hd (.v 4) ⟨.v 0, .mode .rn⟩) hd (.v 4) (.v 0) (.mode .rn)) ∧
    (∀ i, LanesReady lab labX (shapeX i hd [(.v 0, .w32)] (some (.v 4, 32)) (some 3))) ∧
    (FVal.fin true 1 0).cmp (.fin false 1 0) < 0 ∧ (FVal.fin true 0 0).cmp (.fin false 0 0) = 0 := by
  refine ⟨fun _ => ready_of _ rfl, ready_of _ rfl, fun _ => ready_of _ rfl, by decide +kernel, by decide +kernel⟩

/-- An exact value that overflows FP32, one that is rounded, and quotients that do not overflow. -/
theorem witness_RoundingIsOfTheExactResult :
    fp32 ∈ fpFormats ∧ (fp32.round (.mode .rn) (.fin false 1 128)).2.getLsbD 2 = true ∧ (fp32.round (.mode .rn) (.fin true 1 (-200))).2.getLsbD 2 = false ∧
    ratOf (.fin true 3 1) = some ((-1) * 3 * (2 : ℚ) ^ (1 : Int)) ∧ (divF (.mode .rd) (.fin false 1 0) (.fin true 3 0)).fl.getLsbD 2 = false ∧
    (rcpF (.fin false 3 0)).fl.getLsbD 2 = false := by
  refine ⟨by simp [fpFormats], by decide +kernel, by decide +kernel, ?_, by decide +kernel, by decide +kernel⟩
  simp [ratOf]

/-- The lab with INX enabled, in which a third is inexact. -/
def labFT (tl : Nat) : Thread := { labT tl with fptrap := 16 }
def labF : State := { lab with blocks := [{ labB with threads := [labFT 0, labFT 1] }] }
def labFX : Ctx := { labX with b := { labB with threads := [labFT 0, labFT 1] } }
def third : Shape := fone (.frcp hd (.v 4) (.fc 5) false false) hd (.v 4) (.fc 5) (.mode .rn)
def thirdLane : LaneFn := pureLane (fun _ _ _ v => rcpF (fsrc false false (v.getD 0 0)))
theorem witness_FpeHoldsTheResults :
    (∀ u, exec (.frcp hd (.v 4) (.fc 5) false false) u = u.lanes (shapeX (.frcp hd (.v 4) (.fc 5) false false) hd [(.fc 5, .w32)] (some (.v 4, 32)) (some 3))
      (pureLane (fun _ _ _ v => rcpF (fsrc false false (v.getD 0 0))))) ∧
    Goes labF labFX third thirdLane ∧ fpeDue labFX (runLanes third thirdLane labFX labF).outs = true :=
  ⟨fun _ => rfl, ⟨rfl, by decide +kernel⟩, by decide +kernel⟩

theorem witness_PredicatesAndLanes :
    LanesReady lab labX { shapeX (.plop hd 1 2 3 4 0x80) hd [] none none with pd := 1 } ∧
    LanesReady lab labX (shapeX (.pmov hd (.inl (.v 4))) hd [] (some (.v 4, 32)) (some 0)) ∧
    LanesReady lab labX (shapeX (.pmov hd (.inr (.v 0, 127))) hd [(.v 0, .w32)] none none) ∧
    LanesReady lab labX { shapeX (.vote hd .all 7 (.v 4) 1 true) hd [] (some (.v 4, 32)) (some 0) with pd := 7 } ∧
    LanesReady lab labX { shapeX (.shfl hd .up .w2 1 (.v 4) (.v 0) (.v 1)) hd [(.v 1, .w32), (.v 0, .w32)] (some (.v 4, 32)) (some 0) with pd := 1 } ∧
    LanesReady lab labX { shapeX (.match_ hd true true 1 (.v 4) (.v 0)) hd [(.v 0, .w64)] (some (.v 4, 32)) (some 0) with pd := 1 } ∧
    LanesReady lab labX (shapeX (.cred hd .min true (.v 4) (.v 0)) hd [(.v 0, .w32)] (some (.v 4, 64)) (some 0)) ∧
    (∀ p ∈ [(31, true), (0, false)], (p : Nat × Bool).1 < 32) ∧ labOut 1 0 ∈ [labOut 0 0, labOut 1 0] :=
  ⟨ready_of _ rfl, ready_of _ rfl, ready_of _ rfl, ready_of _ rfl, ready_of _ rfl, ready_of _ rfl, ready_of _ rfl, by decide, by simp⟩

/-! ### Control and traps -/

/-- Nothing stops a lane of the lab's course. -/
def goesB (sh : Shape) (f : LaneFn) : Bool := (runLanes sh f labX lab).stops.isEmpty

theorem goes_of (sh : Shape) (f : LaneFn) (h : goesB sh f = true) : Goes lab labX sh f := ⟨rfl, List.isEmpty_iff.1 h⟩

/-- The lab's course inside a trap handler whose frame holds one entry, an IADD of both lanes. -/
def labEnt : LaneEnt := { LaneEnt.none with member := true }
def labE : RqEntry :=
  { pc := 0x4000, words := [0x00041C81, 0x00000201, 0], i := .iadd hd (.v 4) (.v 1) (.v 1) false false,
    lanes := [labEnt, labEnt] ++ List.replicate 30 LaneEnt.none }
def labFr (h : HClass) (es : List RqEntry) : Frame :=
  { resume := List.replicate 32 0x4010, latches := [], entries := es, hclass := h, inh := true, chain := 0, wait := none, bin := false }
def labCH (h : HClass) (es : List RqEntry) : Course := { labC with frame := some (labFr h es) }
def labH (h : HClass) (es : List RqEntry) : State := { lab with courses := [labCH h es] }
def labHX (h : HClass) (es : List RqEntry) : Ctx := { labX with c := labCH h es }

/-- Outside a handler, and inside one where both threads go the same way. -/
theorem witness_BranchesSplitCourses :
    Goes lab labX (still (.braC ch 1) (wide ch) (chSize ch)) (pureLane zeroLane) ∧ Goes lab labX (still (.bra hd 1) hd (hdSize hd)) (pureLane zeroLane) ∧
    Goes lab labX (plain (.brx hd (.v 4)) hd (hdSize hd) [(.v 4, .w64)] none) readTarget ∧
    Goes { lab with blocks := [{ labB with threads := [{ labT 0 with v := [] }, { labT 1 with v := [] }] }] }
      { labX with b := { labB with threads := [{ labT 0 with v := [] }, { labT 1 with v := [] }] } }
      (plain (.retC ch) (wide ch) (chSize ch) [(.v 0, .w64)] none) readTarget ∧
    Goes lab labX (plain (.ret hd (.v 4)) hd (hdSize hd) [(.v 4, .w64)] none) readTarget ∧
    Goes lab labX (plain (.call hd (.v 6) (.direct 1)) hd (hdSize hd) [] (some (.v 6, 64)))
      (pureLane (fun x _ _ _ => LaneRes.value (x.pc + BitVec.ofNat 64 (hdSize hd)).toNat)) ∧
    Goes lab labX (plain (.call hd (.v 6) (.ind (.v 4))) hd (hdSize hd) [(.v 4, .w64)] (some (.v 6, 64))) readTarget ∧
    labX.c.inHandler = false ∧
    Goes (labH .trap []) (labHX .trap []) (still (.bra hd 1) hd (hdSize hd)) (pureLane zeroLane) ∧ (labHX .trap []).c.inHandler = true ∧
    lab.course? labX.core labX.id = some labX.c ∧ labX.c.reinj = [] ∧ labX.c.members ≠ [] ∧ (labX.c.members.map (·.2)).Nodup :=
  ⟨goes_pure _ _ rfl, goes_pure _ _ rfl, goes_of _ _ (by decide +kernel), ⟨rfl, List.isEmpty_iff.1 (by decide +kernel)⟩,
    goes_of _ _ (by decide +kernel), goes_of _ _ (by decide +kernel), goes_of _ _ (by decide +kernel), by decide +kernel,
    ⟨rfl, List.isEmpty_iff.1 (by decide +kernel)⟩, by decide +kernel, by decide +kernel, rfl, by decide +kernel, by decide +kernel⟩

theorem witness_CoursesGoOnOrEnd :
    lab.issuing = some labX ∧ labX.c.reinj = [] ∧ labm.running = some labY ∧ lab.course? labX.core labX.id = some labC ∧
    (∃ p ∈ labC.members, p.1 ∉ [0]) := ⟨rfl, rfl, rfl, by decide +kernel, ⟨(1, 1), by decide +kernel, by decide⟩⟩

/-- The lab with the totals of its gang combined, and with thread 1 waiting at barrier 15. -/
def labG : State := { lab with launches := [{ labL with gbars := [(gangDone 0, Barrier.idle)] }] }
theorem witness_BarriersCollectAndRelease :
    Goes lab labX (plain (.barC ch (.imm 15)) (wide ch) (chSize ch) [(.imm 15, .w32)] none) (fun _ st _ _ v => .ok (LaneRes.value (v.headD 0 % 16), st)) ∧
    Goes lab labX (plain (.bar hd (.imm 15) true 0) hd (hdSize hd) [(.imm 15, .w32)] none) (fun _ st _ _ v => .ok (LaneRes.value (v.headD 0 % 16), st)) ∧
    (lab.releaseAll [labX.agent 0, labX.agent 1] .dev).2 = true ∧ lab.issuing = some labX ∧
    labG.launch? 0 1 = some { labL with gbars := [(gangDone 0, Barrier.idle)] } ∧
    (aget? [(gangDone 0, Barrier.idle)] (gangDone 0)).isSome = true ∧
    lab.block? placeKey = some labB ∧ 1 < (labB.threads.filter (fun t => decide (t.stat ≠ .exited))).length ∧ labB.atBarrier 15 = [] ∧ 1 ≤ 1 :=
  ⟨goes_of _ _ (by decide +kernel), goes_of _ _ (by decide +kernel), by decide +kernel, rfl, by decide +kernel, by decide +kernel, by decide +kernel,
    by decide +kernel, by decide +kernel, by decide⟩

/-- Thread 1 waits until the stamp at scratchpad offset 0, which is 1 + 0x80 * 2^32, reaches 1. -/
def waits (k : WKind) (a x : W64) (loc : Option Loc) : Wait := { kind := k, i := .nop hd, a := a, x := x, bar := 0, loc := loc, since := 0 }
def labW (w : Wait) : State :=
  { lab with blocks := [{ labB with threads := [labT 0, { labT 1 with stat := .waiting w }] }], courses := [{ labC with lanes := [some 0] }] }
theorem witness_WaitTestsStamps :
    (let i : Instr := .wait hd (.v 4) (.v 6) true .dev
     Goes lab labX (plain i hd (hdSize hd) [(.v 4, .w32), (.v 6, .w64)] none) (fun c st _ t v => waitLane i true c st t v)) ∧
    (let i : Instr := .wait hd (.v 4) (.v 6) false .sys
     Goes lab labX (plain i hd (hdSize hd) [(.v 4, .w64), (.v 6, .w64)] none) (fun c st _ t v => waitLane i false c st t v)) ∧
    (∃ r u, waitLane .tsync true labX lab (labT 0) [0, 2 ^ 40] = .ok (r, u)) ∧ (∃ r u, waitLane .tsync true labX lab (labT 0) [0, 1] = .ok (r, u)) ∧
    (let w := waits .wait 0 1 (some (.scr placeKey 0))
     let s := labW w
     ∃ b th, s.blockAt? 0 0 = some b ∧ s.thread? b.key 1 = some th ∧ th.stat = .waiting w ∧ w.kind = .wait ∧ w.loc = some (.scr placeKey 0) ∧
       (s.stampAt (some (.thread b.key 1)) (.scr placeKey 0)).1 ≥ w.x.toNat) := by
  refine ⟨goes_of _ _ (by decide +kernel), goes_of _ _ (by decide +kernel), ⟨_, _, rfl⟩, ⟨_, _, rfl⟩, ?_⟩
  exact ⟨_, _, rfl, rfl, rfl, rfl, rfl, by decide +kernel⟩

/-- A trap of the lab's course with a cause. -/
def trapOf (code : Nat) : TrapInfo := TrapInfo.simple code 3 0x4000
/-- Every frame of core 0 in use by other courses. -/
def labFull : State := { lab with courses := labC :: (List.range 32).map (fun n => placeCourse (n + 2) 0x0E 0) }

theorem witness_TrapRegistersAreWritten :
    FrameFree lab labX ∧ labX.c.members = [] ++ (0, 0) :: [(1, 1)] ∧ (∀ p ∈ [(1, 1)], (p : Nat × Nat).2 ≠ 0) ∧
    lab.thread? labX.b.key 0 = some (labT 0) ∧ (trapOf 0x0103).code < 2 ^ 16 :=
  ⟨Or.inr (Or.inr (by decide +kernel)), by decide +kernel, by decide, by decide +kernel, by decide⟩

theorem witness_TrapsAreDelivered :
    FrameFree lab labX ∧ labX.c.inHandler = false ∧ handlerOf labX 0x0100 ≠ 0 ∧ handlerOf labX 0x0103 ≠ 0 ∧ handlerOf labX 0x0001 = 0 ∧
    lab.course? labX.core labX.id = some labX.c ∧
    FrameFree (labH .trap []) (labHX .trap []) ∧ (labHX .trap []).c.inHandler = true ∧
    (labH .trap []).course? 0 1 = some (labHX .trap []).c ∧
    labX.c.frame = none ∧ 32 ≤ labFull.frameCount labX.core ∧ labFull.course? labX.core labX.id = some labX.c :=
  ⟨Or.inr (Or.inr (by decide +kernel)), by decide +kernel, by decide +kernel, by decide +kernel, by decide +kernel, by decide +kernel,
    Or.inl (by decide +kernel), by decide +kernel, by decide +kernel, rfl, by decide +kernel, by decide +kernel⟩

/-- The lab with a debugger attached to its launch. -/
def labD : State := lab.setReg 0x300100 1
theorem witness_TrapInstructionsAndReturn :
    Goes lab labX (shapeX (.trap hd (.v 1)) hd [(.v 1, .w32)] none none) (fun _ st _ _ v => .ok (LaneRes.value (v.headD 0), st)) ∧
    labX.c.masked .trap = false ∧ labX.active false 7 ≠ [] ∧
    (labH .trap []).issuing = some (labHX .trap []) ∧ (labHX .trap []).c.masked .trap = true ∧ (labHX .trap []).c.reinj = [] ∧
    lab.issuing = some labX ∧ labX.active false 0 = [] ∧ labD.issuing = some labX ∧ labD.attached labX.b.key.part labX.b.key.lnum = true ∧
    lab.attached labX.b.key.part labX.b.key.lnum = false ∧
    (labHX .trap []).c.frame = some (labFr .trap []) ∧ (labFr .trap []).hclass ≠ .sdc ∧ (labFr .trap []).bin = false ∧ (labFr .trap []).wait = none ∧
    (labFr .trap []).entries = [] ∧ ((labHX .trap []).c.members.map (·.2)).Nodup :=
  ⟨goes_of _ _ (by decide +kernel), by decide +kernel, by decide +kernel, rfl, by decide +kernel, rfl, rfl, by decide +kernel, rfl,
    by decide +kernel, by decide +kernel, rfl, by decide, rfl, rfl, rfl, by decide +kernel⟩

/-- Lane 1 and the last word of RES, at entry 0. -/
theorem witness_SpecialRegistersAndEntries :
    (∀ r, Goes lab labX (shapeX (.rdsr hd (.v 4) r) hd [] (some (.v 4, 64)) (some 0)) (pureLane (fun _ _ _ _ => LaneRes.value 0))) ∧
    LanesReady lab labX (shapeX (.wrsr hd .rngctr (.v 0)) hd [(.v 0, .w64)] none none) ∧
    lab.part? labX.b.key.part = some (Partition.fresh 0) ∧ labX.b.hasMcc = true ∧
    lab.mccs.find? (fun m => decide (m.key = labX.b.key)) = some labM ∧ labX.c.inHandler = false ∧
    (let sh := shapeX (.rqset hd (.res 3 (.v 1)) 0) hd [(.v 1, .w32)] none none
     let g : LaneFn := fun _ st _ _ v => .ok (LaneRes.value (v.headD 0), st)
     let s := labH .trap [labE]
     let x := labHX .trap [labE]
     Goes s x sh g ∧ x.c.reinj = [] ∧ s.course? x.core x.id = some x.c ∧ x.c.frame = some (labFr .trap [labE]) ∧
     (labFr .trap [labE]).entries[(0 : Fin 8).val]? = some labE ∧ labE.lanes.length = 32 ∧ (runLanes sh g x s).s.courses = s.courses ∧
     labE.lanes[1]? = some labEnt) := by
  refine ⟨fun r => goes_pure _ _ rfl, ready_of _ rfl, by decide +kernel, rfl, by decide +kernel, by decide +kernel, ?_⟩
  exact ⟨⟨rfl, List.isEmpty_iff.1 (by decide +kernel)⟩, rfl, by decide +kernel, rfl, rfl, by decide, by decide +kernel, by decide +kernel⟩

/-! ### Memory, queues, streams, accumulators -/

/-- An access outstanding of thread 0. -/
def pendOf (loc : Loc) (k : PKind) : Pend :=
  { n := 5, ag := .thread placeKey 0, core := 0, loc := loc, va := 0, bytes := [1, 2], kind := k, grp := 0, sent := none }
def labP (p : Pend) : State := { lab with pend := [p] }

/-- A store to the scratchpad's last bytes, of the full width, and stores outstanding to a scratchpad and to device memory. -/
theorem witness_StoresAreIssuedAndPerformed :
    (∃ r u, stLane { mo with base := .v 4, size := .b64 } labX lab 0 (labT 0) [65528, 7] = .ok (r, u)) ∧
    (∃ r u, stLane { mg with base := .v 4, size := .b128 } labX lab 0 (labT 0) [0x1000, 7] = .ok (r, u)) ∧
    (let p := pendOf (.scr placeKey 65534) .store
     (labP p).pend.find? (fun q => q.n == p.n) = some p ∧ (labP p).mayPerform p = true ∧ (labP p).block? placeKey = some labB ∧
       labB.scratch.wf = true) ∧
    (let p := pendOf (.dev 0x1000) .store
     (labP p).pend.find? (fun q => q.n == p.n) = some p ∧ (labP p).mayPerform p = true ∧ undOf (labP p).und 0x1000 = none ∧
       ∀ q ∈ (labP p).parts, q.line ≠ 0x1000 / 128 ∧ q.line ≠ (0x1000 + p.bytes.length - 1) / 128) := by
  refine ⟨⟨_, _, rfl⟩, ⟨_, _, rfl⟩, by decide +kernel, ?_⟩
  exact ⟨by decide +kernel, by decide +kernel, by decide +kernel, by intro q hq; cases hq⟩

theorem ownReady_lab (tl : Nat) {off : Int} {n : Nat} (h1 : off % (n : Int) = 0) (h2 : 0 ≤ off) (h3 : off + n ≤ 65536) :
    OwnReady lab labX labB tl off n :=
  ⟨by decide +kernel, h1, h2, h3, (by intro e he; cases he), List.not_mem_nil, rfl⟩

/-- The last word of the allocation, the first word beyond it, an offset of -1, an odd one, and a role that a gang of four has not. -/
theorem witness_ScratchpadAccessesAndAtomics :
    OwnReady lab labX labB 0 (ownOff { mo with offs := 4 } [65528]) 4 ∧ OwnReady lab labX labB 0 (ownOff mo [0]) 4 ∧
    OwnReady lab labX labB 0 (ownOff { mo with size := .b64 } [65528]) 8 ∧
    (ownOff mo [65533] % 4 ≠ 0) ∧ (ownOff mo [65536] % 4 = 0 ∧ (labX.l.d.scratch : Int) < ownOff mo [65536] + 4) ∧
    (ownOff { mo with offs := 0xFFFFC } [0] % 4 = 0 ∧ ownOff { mo with offs := 0xFFFFC } [0] < 0) ∧
    (labX.l.d.gangw * labX.l.d.gangh ≤ (4 : Fin 127).val) ∧
    leNat (labB.scratch.read 0 4) = 1 ∧ (1 : Nat) < 2 ^ Sz.b32.bits := by
  refine ⟨ownReady_lab 0 ?_ ?_ ?_, ownReady_lab 0 ?_ ?_ ?_, ownReady_lab 0 ?_ ?_ ?_, ?_, ?_, ?_, ?_, ?_, ?_⟩ <;> decide +kernel

/-- Both lanes of the lab meet a condition. -/
theorem eachLane_lab {sh : Shape} {P : Thread → List Nat → Prop} (hh : sh.h = hd) (h0 : P (labT 0) (laneVals labX sh (0, labT 0)))
    (h1 : P (labT 1) (laneVals labX sh (1, labT 1))) : EachLane labX sh P := by
  have e : labX.active hd.pneg hd.pred = [(0, labT 0), (1, labT 1)] := by decide +kernel
  intro p hp
  rw [hh, e] at hp
  rcases List.mem_cons.1 hp with rfl | hp
  · exact h0
  · rcases List.mem_singleton.1 hp with rfl
    exact h1

/-- LD, ST, ATOM and CAS at base v4, which is 0 in both lanes. -/
theorem witness_ScratchpadAccessesAndAtomics_run :
    (let m : MemF := { mo with base := .v 4 }
     let sh := lsu (.ld hd (.v 4) m true) hd (memSrcs m none none) (some (.v 4, max 32 m.size.bits))
     LanesReady lab labX sh ∧ EachLane labX sh (fun t v => OwnReady lab labX labB t.tl (ownOff m v) m.size.bytes)) ∧
    (let m : MemF := { mo with base := .v 4, offs := 4 }
     let sh := lsu (.st hd m (.v 0)) hd (memSrcs m (some (.v 0, dataPos m)) none) none
     LanesReady lab labX sh ∧ EachLane labX sh (fun _ v => InOwn labX (ownOff m v) m.size.bytes)) ∧
    (let m : MemF := { mo with base := .v 4 }
     let sh := lsu (.atom hd .max false (.v 4) m (.v 0)) hd (memSrcs m (some (.v 0, dataPos m)) none) (some (.v 4, max 32 m.size.bits))
     LanesReady lab labX sh ∧ EachLane labX sh (fun t v => OwnReady lab labX labB t.tl (ownOff m v) m.size.bytes ∧
       lab.releasable (labX.agent t.tl) m.scope = true)) ∧
    (let m : MemF := { mo with base := .v 4 }
     let sh := { lsu (.cas hd 1 (.v 4) m (.v 0) (.v 1)) hd (memSrcs m (some (.v 0, dataPos m)) (some (.v 1, dataPos m)))
       (some (.v 4, max 32 m.size.bits)) with pd := 1 }
     LanesReady lab labX sh ∧ EachLane labX sh (fun t v => OwnReady lab labX labB t.tl (ownOff m v) m.size.bytes ∧
       lab.releasable (labX.agent t.tl) m.scope = true)) := by
  refine ⟨⟨ready_of _ rfl, eachLane_lab rfl (ownReady_lab 0 ?_ ?_ ?_) (ownReady_lab 1 ?_ ?_ ?_)⟩,
    ⟨ready_of _ rfl, eachLane_lab rfl ⟨?_, ?_, ?_⟩ ⟨?_, ?_, ?_⟩⟩,
    ⟨ready_of _ rfl, eachLane_lab rfl ⟨ownReady_lab 0 ?_ ?_ ?_, ?_⟩ ⟨ownReady_lab 1 ?_ ?_ ?_, ?_⟩⟩,
    ⟨ready_of _ rfl, eachLane_lab rfl ⟨ownReady_lab 0 ?_ ?_ ?_, ?_⟩ ⟨ownReady_lab 1 ?_ ?_ ?_, ?_⟩⟩⟩ <;> decide +kernel

/-- FENCE at rec with nothing outstanding; PROBE of the first byte; RNG of both kinds; a dated read-only point. -/
theorem witness_FencesOrder_run :
    (lab.issuing = some labX ∧ labX.c.reinj = []) ∧
    (((labX.active hd.pneg hd.pred).map (fun p => p.2.tl)).Nodup ∧ ∀ p ∈ labX.active hd.pneg hd.pred, lab.releasable (labX.agent p.2.tl) .recov = true) ∧
    (let m : MemF := { mo with base := .v 4, size := .b8 }
     let sh := { lsu (.probe hd 1 (.v 4) m) hd (memSrcs m none none) (some (.v 4, 32)) with pd := 1 }
     LanesReady lab labX sh ∧ EachLane labX sh (fun _ v => 0 ≤ ownOff m v ∧ ownOff m v + 1 ≤ labX.l.d.scratch)) ∧
    (let sh := lsu (.rng hd .n4 (.v 4) none) hd [] (some (.v 4, rngBits .n4))
     LanesReady lab labX sh ∧ EachLane labX sh (fun t _ => t.rngctr.toNat ≠ 2 ^ 64 - 1)) ∧
    LanesReady lab labX (lsu (.rng hd .n1 (.v 4) (some (.v 6))) hd [(.v 6, .w64)] (some (.v 4, rngBits .n1))) ∧
    (let p := pendOf (.dev 0) .ro
     (labP p).pend.find? (fun q => q.n == p.n) = some p ∧ (labP p).mayPerform p = true ∧ p.kind = .ro ∧ p.ag = .thread placeKey 0 ∧
       (labP p).thread? placeKey 0 = some (labT 0)) := by
  refine ⟨⟨rfl, rfl⟩, ⟨?_, ?_⟩, ⟨ready_of _ rfl, eachLane_lab rfl ⟨?_, ?_⟩ ⟨?_, ?_⟩⟩, ⟨ready_of _ rfl, eachLane_lab rfl ?_ ?_⟩, ready_of _ rfl, ?_⟩ <;>
    decide +kernel

/-- The lab where thread 0 alone is in the course: its LDC of address 0. -/
def labOne : State := { lab with courses := [{ labC with lanes := [some 0] }] }
def labOneX : Ctx := { labX with c := { labC with lanes := [some 0] } }
theorem witness_MemoryInstructions_ldc :
    let m : MemF := { mg with base := .v 4 }
    let sh := lsu (.ldc hd (.v 4) m false) hd (memSrcs m none none) (some (.v 4, max 32 m.size.bits))
    LanesReady labOne labOneX sh ∧ labOneX.active hd.pneg hd.pred = [(0, labT 0)] ∧
    (BitVec.ofInt 64 (((laneVals labOneX sh (0, labT 0)).headD 0 : Nat) + m.offs.toInt : Int)).toNat = 0 ∧
    labOne.pendOf (labOneX.agent 0) = [] ∧
    (match labOne.resolve 0 0 true false with
     | .ok l w => decide (l = .dev 0) && !((labOne.noteLeaf 0 w).mergeFor l m.size.bytes).poisonRun l m.size.bytes
     | _ => false) = true := by
  refine ⟨⟨rfl, rfl, rfl, ?_⟩, ?_, ?_, rfl, ?_⟩ <;> decide +kernel

theorem witness_FencesOrder :
    (FKind.acq ≠ .rel ∧ FKind.ar ≠ .rel ∧ FKind.rel ≠ .acq) ∧ (labP (pendOf (.dev 0) .store)).pendOf (labX.agent 0) ≠ [] ∧
    lab.thread? labX.b.key 0 = some (labT 0) ∧
    (let q := pendOf (.dev 0) (.fence .dev)
     q ∈ (labP q).pend ∧ q.ag = { q with n := 6, kind := .store }.ag ∧ q.n < { q with n := 6, kind := .store }.n ∧ q.kind = .fence .dev) ∧
    (labP (pendOf (.dev 0) .store)).releasable (labX.agent 0) .recov = false := by decide +kernel

/-- One form of each memory instruction, and an LD of global memory. -/
theorem witness_MemoryInstructions :
    Goes lab labX (lsu (.ld hd (.v 4) { mo with base := .v 4 } true) hd (memSrcs { mo with base := .v 4 } none none) (some (.v 4, 32)))
      (ldLane { mo with base := .v 4 } true) ∧
    Goes lab labX (lsu (.ld hd (.v 4) { mg with base := .v 4, size := .b128 } false) hd (memSrcs { mg with base := .v 4, size := .b128 } none none)
      (some (.v 4, 128))) (ldLane { mg with base := .v 4, size := .b128 } false) ∧
    Goes lab labX (lsu (.st hd { mo with base := .v 4 } (.v 0)) hd (memSrcs { mo with base := .v 4 } (some (.v 0, .w32)) none) none)
      (stLane { mo with base := .v 4 }) ∧
    Goes lab labX (lsu (.ldc hd (.v 4) { mg with base := .v 4 } false) hd (memSrcs { mg with base := .v 4 } none none) (some (.v 4, 32)))
      (ldcLane { mg with base := .v 4 } false) ∧
    Goes lab labX (lsu (.atom hd .max false (.v 4) { mo with base := .v 4 } (.v 0)) hd (memSrcs { mo with base := .v 4 } (some (.v 0, .w32)) none)
      (some (.v 4, 32))) (atomLane .max false { mo with base := .v 4 }) ∧
    Goes lab labX { lsu (.cas hd 1 (.v 4) { mo with base := .v 4 } (.v 0) (.v 1)) hd (memSrcs { mo with base := .v 4 } (some (.v 0, .w32)) (some (.v 1, .w32)))
      (some (.v 4, 32)) with pd := 1 } (casLane { mo with base := .v 4 }) ∧
    Goes lab labX (lsu (.fence hd .ar .recov true) hd [] none) (fenceLane (fenceNeed .recov) (fenceDoes .ar .recov true)) ∧
    Goes lab labX (lsu (.afence hd) hd [] none) (fenceLane none (fun x st tl => (fencePend st x tl .dev).acquire (x.agent tl) x.core)) ∧
    Goes lab labX (lsu (.cinv hd) hd [] none)
      (fenceLane none readOnlyPointOf) ∧
    Goes lab labX { lsu (.probe hd 1 (.v 4) { mo with base := .v 4, size := .b8 }) hd (memSrcs { mo with base := .v 4, size := .b8 } none none)
      (some (.v 4, 32)) with pd := 1 } (probeLane { mo with base := .v 4, size := .b8 }) ∧
    Goes lab labX (lsu (.rng hd .n4 (.v 4) none) hd [] (some (.v 4, 128))) (rngLane 128 true) ∧ lab.issuing = some labX ∧ labX.c.reinj = [] ∧
    lab.block? labX.b.key = some labB ∧ 0 ≤ ownOff mo [65535] ∧ ownOff mo [65535] + 1 ≤ labX.l.d.scratch ∧
    (labT 0).rngctr.toNat ≠ 2 ^ 64 - 1 ∧ ({ labT 0 with rngctr := 0xFFFFFFFFFFFFFFFF } : Thread).rngctr.toNat = 2 ^ 64 - 1 := by
  refine ⟨?_, ?_, ?_, ?_, ?_, ?_, ?_, ?_, ?_, ?_, ?_, rfl, rfl, ?_, ?_, ?_, ?_, ?_⟩
  all_goals first | exact goes_of _ _ (by decide +kernel) | decide +kernel

/-- A barrier of count 1 at offset 16, whose phase a thread has waited for. -/
theorem witness_XbarBarriers :
    Goes lab labX { shapeM (.xbar hd (.init (.imm 1)) (.imm 16) 0) hd (xbarSrcs (.init (.imm 1)) (.imm 16)) (xbarDst (.init (.imm 1))) with pd := 7 } (xbarLane (.init (.imm 1)) 0) ∧
    Goes lab labX { shapeM (.xbar hd (.wait (.imm 1)) (.imm 16) 0) hd (xbarSrcs (.wait (.imm 1)) (.imm 16)) (xbarDst (.wait (.imm 1))) with pd := 7 } (xbarWaitLane 0) ∧
    (let w := waits .xbar 16 1 none
     let s := labW w
     ∃ b t, s.blockAt? 0 0 = some b ∧ s.thread? b.key 1 = some t ∧ t.stat = .waiting w ∧ w.kind = .xbar ∧ (s.xb b.key w.a.toNat).phase ≠ w.x.setWidth 32) ∧
    (let b : Xb := { pend := 2 ^ 39 - 1, err := false, left := 0, count := 65535, phase := 0xFFFFFFFF }
     b.left = 0 ∧ b.pend ≠ 0 ∧ b.count < 2 ^ 16 ∧ -(2 ^ 39) ≤ b.pend + (-1) ∧ b.pend + (-1) < 2 ^ 39 ∧ ¬(-(2 ^ 39) ≤ b.pend + 1 ∧ b.pend + 1 < 2 ^ 39)) := by
  refine ⟨goes_of _ _ (by decide +kernel), goes_of _ _ (by decide +kernel), ⟨_, _, rfl, rfl, rfl, rfl, by decide +kernel⟩, by decide⟩

/-- An element pushed to queue 63 and not yet delivered, in a machine where nothing can come before it. -/
def labQe : QElem := { lnum := 1, bl := 0, tl := 0, n := 0, val := 7, delivered := false }
def labQ : State :=
  { lab with
    partitions := [{ Partition.fresh 0 with hwq := [(63, [labQe])] }]
    launches := [{ labL with pushed := [(63, 0, 0, 1)] }]
    blocks := [{ labB with threads := [{ labT 0 with stat := .exited }, { labT 1 with stat := .exited }] }] }
theorem witness_QueuesPushPopDeliver :
    Goes lab labX (shapeM (.qpush hd (.imm 63) (.v 0) true) hd [(.imm 63, .w32), (.v 0, .w64)] none) qpushLane ∧ labX.c.part = 0 ∧
    lab.releasable (labX.agent 0) .dev = true ∧ lab.hwLen labX.b.key.part 63 + 2 ≤ 1024 ∧
    (64 : Nat) ≤ [64].headD 0 ∧ ({ labL with d := { labL.d with qmask := 0 } } : Launch).d.qmask.getLsbD 63 = false ∧
    Goes lab labX { shapeM (.qpop hd 1 (.v 4) (.imm 63) true true) hd [(.imm 63, .w32)] (some (.v 4, 64)) with pd := 1 } qpopLane ∧
    labQ.deliverable 0 63 = some labQe := by
  refine ⟨goes_of _ _ (by decide +kernel), ?_, ?_, ?_, ?_, ?_, goes_of _ _ (by decide +kernel), ?_⟩ <;> decide +kernel

/-- A descriptor of 4-byte elements: four of them from offset 0 of the own scratchpad, to be read and written. -/
def labDesc : List Byte := zeros 8 ++ natLE 8 4 ++ zeros 8 ++ natLE 4 4 ++ natLE 4 4 ++ zeros 24 ++ [2, 2 + 8, 1, 0] ++ zeros 4
def labPort : Port := { Port.unbound with bound := true, desc := 0x100 }
def labS : State :=
  { lab with blocks := [{ labB with
      descs := [{ addr := 0x100, bytes := labDesc }]
      pushes := [{ n := 1, tl := 0, port := 0, loc := .scr placeKey 0, bytes := [1, 2, 3, 4] }]
      threads := [{ labT 0 with ports := [labPort] }, { labT 1 with ports := [labPort] }] }] }
def labST : Thread := { labT 0 with ports := [labPort] }
def labSB : Block := labS.blocks.headD labB
def labSX : Ctx := { labX with b := labSB }

theorem witness_StreamPortsMove :
    Goes labS labSX (lsu (.sskip hd 0 (.imm 2) true) hd [(.imm 2, .w32)] none) (sskipLane 0 true) ∧ Goes labS labSX (lsu (.spos hd 0 (.v 4) false) hd [] (some (.v 4, 64)))
      (sposLane 0 false) ∧
    Goes labS labSX { lsu (.stest hd 0 1 (.v 4) .eos true) hd [] (some (.v 4, 32)) with pd := 1 } (stestLane 0 .eos true false) ∧
    Goes labS labSX (lsu (.sseek hd 0 (.v 4) false) hd [(.v 4, .w64)] none) (sseekLane 0 false) ∧ Goes labS labSX (lsu (.scfg hd 0 .len (.v 4)) hd [(.v 4, .w64)] none)
      (scfgLane 0 .len) ∧
    Goes lab labX (lsu (.sclose hd 0) hd [] none)
      (pureLane (fun _ _ _ _ => { LaneRes.value 0 with th := fun u => u.setPort 0 { u.port 0 with bound := false, pre := [] } })) ∧
    (∃ e, sidePort labS labSX labST 0 true = .ok (labPort, e)) ∧ (∃ e, sidePort labS labSX labST 0 false = .ok (labPort, e)) ∧
    (labST.port 0).bound = true ∧ (∃ e, labSX.b.desc (labST.port 0).desc = some e ∧ e.dir ≠ 1 ∧ streamLength labSX.b e { labPort with rpos := 4 } ≤ 4 ∧
      (labST.port 0).nextAhead < streamLength labSB e (labST.port 0)) ∧ ((labT 0).port 15).bound = false ∧
    labS.blockAt? 0 0 = some labSB ∧ labSB.thread? 0 = some labST ∧ labS.launch? 0 1 = some labL ∧
    labST.ports.foldl (fun k p => k + p.pre.length) 0 < 64 ∧ labST.stat ≠ .exited ∧
    (∃ p, labSB.pushes[0]? = some p ∧ labS.mayPush labSB p = true) := by
  refine ⟨⟨rfl, ?_⟩, ⟨rfl, ?_⟩, ⟨rfl, ?_⟩, ⟨rfl, ?_⟩, ⟨rfl, ?_⟩, goes_pure _ _ rfl, ⟨_, rfl⟩, ⟨_, rfl⟩, rfl, ⟨_, rfl, ?_, ?_, ?_⟩, ?_, ?_, ?_, ?_,
    ?_, ?_, ⟨_, rfl, ?_⟩⟩
  all_goals first | exact List.isEmpty_iff.1 (by decide +kernel) | decide +kernel

/-- What reading ahead reads: element 0, at offset 0. -/
theorem witness_StreamPortsMove_ahead :
    ∃ e a z loc wk bs s1 s2, labSB.desc (labST.port 0).desc = some e ∧
      (let x : Ctx := ⟨0, 0, Course.idle 0 0 0, labSB, labL⟩
       elemAddr labS x 0 0 0 0 false e (labST.port 0) (labST.port 0).nextAhead = .ok (a, z, s1) ∧
       elemLoc s1 labSB labL 0 0 false false (labST.port 0).nextAhead e.own a e.size = .ok (loc, wk) ∧
       readElem (s1.noteLeaf labSB.key.part wk) x 0 0 loc wk a.toNat e.size (decide (e.cache ≥ 3)) = .ok (bs, s2)) :=
  ⟨_, _, _, _, _, _, _, _, rfl, rfl, rfl, rfl⟩

/-- SOPEN of that descriptor, where memory holds it at virtual address 0x100. -/
theorem witness_StreamPortsMove_open :
    Goes { lab with mem := Memory.write (placeTables []) 0x100 labDesc } labX
      (lsu (.sopen { hd with lit := some 0x100 } 0 .lit (.v 4) none false) { hd with lit := some 0x100 } ([(.lit, .w64), (.v 4, .w32)] ++ (none : Option (Opnd × Machine.Pos)).toList) none)
      (sopenLane 0 false (fun v => BitVec.ofInt 64 (sintOf 32 v))) :=
  ⟨rfl, List.isEmpty_iff.1 (by decide +kernel)⟩

theorem witness_AccumulatorRegisters :
    (∀ (i : Instr) (f : Thread → Bool → Acc), Goes lab labX (shapeX i hd [] none none)
      (fun x st _ t _ => .ok ({ LaneRes.value 0 with th := fun u => u.setAcc 7 (f t (Config.rawNorm st.free)) }, st.burn.count x.core 0x04 0))) ∧
    LanesReady lab labX (shapeX (.accrds hd (.v 4) (.k 0) (.seg 9)) hd [] (some (.v 4, 64)) none) ∧
    LanesReady lab labX { shapeX (.acctest hd .zero 1 (.v 4) (.k 0)) hd [] (some (.v 4, 32)) none with pd := 1 } ∧
    LanesReady lab labX (shapeX (.accwrs hd (.k 0) (.v 0) (.seg 9)) hd [(.v 0, .w64)] none none) ∧
    Goes lab labX (shapeX (.accadd hd (.k 7) (.v 0) .bf16 1 false true) hd [(.v 0, .elem .bf16)] none none)
      (fun x st _ t v =>
        let a := (t.acc 7).add (element .bf16 false true (v.getD 0 0) 1) (Config.rawNorm st.free)
        .ok ({ LaneRes.value 0 with th := fun u => u.setAcc 7 a }, st.burn.count x.core 0x04 1)) :=
  ⟨fun _ _ => ⟨rfl, rfl⟩, ready_of _ rfl, ready_of _ rfl, ready_of _ rfl, goes_of _ _ (by decide +kernel)⟩

/-- A term at the lowest exponent, and sums on both sides of the end of the range. -/
theorem witness_AccumulationIsExact :
    (-320 : Int) ≤ -320 ∧ ((2 ^ 639 - 1 : Int) < 2 ^ 639 ∧ -(2 ^ 639) ≤ (2 ^ 639 - 1 : Int)) ∧ ¬(2 ^ 639 : Int) < 2 ^ 639 ∧ (0 : Int) ≤ 1 ∧ (-1 : Int) < 0 := by
  decide +kernel

theorem witness_SumsDependOnNoOrder :
    ([FVal.fin false 1 0, .nan] ++ [FVal.fin true 3 (-320)]).Perm [.fin true 3 (-320), .fin false 1 0, .nan] ∧
    (∀ m s e, FVal.fin s m e ∈ [FVal.fin true 3 (-320), .fin false 1 0, .nan] → -320 ≤ e) ∧ -(2 ^ 639) ≤ Acc.zero.val ∧ Acc.zero.val < 2 ^ 639 ∧
    (Acc.zero.val.natAbs : Int) + ([FVal.fin true 3 (-320), .fin false 1 0, .nan].map
      (fun t => match t with | .fin _ m e => ((m * 2 ^ (e + 320).toNat : Nat) : Int) | _ => 0)).sum < 2 ^ 639 := by
  refine ⟨?_, ?_, by decide +kernel, by decide +kernel, by decide +kernel⟩
  · exact (List.perm_append_comm (l₁ := [FVal.fin false 1 0, .nan]) (l₂ := [FVal.fin true 3 (-320)]))
  · intro m s e h
    simp only [List.mem_cons, FVal.fin.injEq, reduceCtorEq, List.not_mem_nil, or_false] at h
    omega

/-- An accumulator in use, one whose POISON flag is set, and a partial of line 3. -/
def labAP : State := { lab with parts := [{ line := 3, die := 1, acc := Acc.zero }] }
theorem witness_AccumulatorsMeetMemory :
    Goes lab labX { shapeX (.accrnd hd (.v 4) (.k 0) .f32 false (.mode .rn)) hd [] (some (.v 4, 32)) none with rnd := rndOpnd (.mode .rn) } (accrndLane (.k 0) .f32 false (.mode .rn)) ∧
    (({ labT 0 with k := [{ Acc.zero with poison := true }] } : Thread).acc 0).poison = true ∧ ((labT 0).acc 7).poison = false ∧
    Goes lab labX (shapeX (.accred hd (.k 0) (.k 1) .w32) hd [] none none) (pureLane zeroLane) ∧
    Goes lab labX (shapeX (.accld hd (.k 0) { mo with base := .v 4, size := .b8 }) hd (memSrcs { mo with base := .v 4, size := .b8 } none none) none none)
      (accldLane false (.k 0) { mo with base := .v 4, size := .b8 }) ∧
    (∃ g v, accstLane { mo with base := .v 4, size := .b8 } (.k 0) labX lab 0 (labT 0) [0] = .ok (g, v)) ∧
    (∃ g v, aaccLane { mg with base := .v 4, size := .b8 } (.acc (.k 0)) labX lab 0 (labT 0) [0] = .ok (g, v)) ∧
    (∃ g v, amacLane { mg with base := .v 4, size := .b8 } .f32 false labX lab 0 (labT 0) [0, 0x3F800000, 0x3F800000] = .ok (g, v)) ∧
    (∃ p ∈ labAP.parts, p.line = 3 ∧ p.die = 1) := by
  refine ⟨goes_of _ _ (by decide +kernel), by decide +kernel, by decide +kernel, goes_pure _ _ rfl, goes_of _ _ (by decide +kernel), ⟨_, _, rfl⟩, ⟨_, _, rfl⟩,
    ⟨_, _, rfl⟩, ⟨_, List.mem_cons_self .., rfl, rfl⟩⟩

/-! ### Copies -/

/-- A copy of a byte count within the own scratchpad, or from global memory. -/
def cf : CpyF := { cache := .dflt, scope := .dev, rel := false, shadow := false, stamp := false, xb := none, ssp := .own, dsp := .own, role := 0, long := false }
def cfg : CpyF := { cf with ssp := .global }
/-- The lab with all 2 MiB of its page under the underlay. -/
def labU : State := { lab with mem := (placeTables []).write 0x1003000 (natLE 8 (1 + 2 + 4 + 8 + 16 + 64 + 5 * 2 ^ 50)) }

/-- Operands read as 0 and 0 and a count of 4, in both lanes. -/
def labOps (sp : CSpace) (m : CpyF) : List (Opnd × Machine.Pos) := [(.v 4, spacePos sp), (.v 4, .w32), (.imm 4, countPos m)]
def readsAs (s : State) (x : Ctx) (lane : Nat) (t : Thread) (ops : List (Opnd × Machine.Pos)) (vals : List Nat) : Bool :=
  match readSources s x lane t none ops none with
  | .ok r => r.1.vals == vals
  | .error _ => false

theorem reads_of {s : State} {x : Ctx} {lane : Nat} {t : Thread} {ops : List (Opnd × Machine.Pos)} {vals : List Nat}
    (h : readsAs s x lane t ops vals = true) : ∃ r, readSources s x lane t none ops none = .ok r ∧ r.1.vals = vals := by
  unfold readsAs at h
  split at h
  · exact ⟨_, by assumption, by simpa using h⟩
  · cases h

/-- Copies of each kind, a publication of the whole page, and a copy in a course with a lane outside the producer group. -/
theorem witness_CopiesIssueForProducers :
    (∀ p ∈ labX.active hd.pneg hd.pred, labX.l.d.isProducer p.2.tl = true) ∧
    (∀ p ∈ labX.active hd.pneg hd.pred, ∃ r,
      readSources lab labX p.1 p.2 hd.lit [(.v 4, spacePos .own), (.v 4, .w32), (.imm 4, countPos cf)] none = .ok r ∧ r.1.vals = [0, 0, 4]) ∧
    (∃ cs t, plansOf labX .cpy 1 cf [] (fun _ => [0, 0, 4]) (byThread (labX.active hd.pneg hd.pred)) lab = some (cs, t) ∧ cs.length = 2) ∧
    (∃ cs t, plansOf labX .cpyg 1 cfg [(0, 0), (1, 0)] (fun _ => [0, 0, 4]) ((labX.active hd.pneg hd.pred).take 1) lab = some (cs, t) ∧ cs.length = 1) ∧
    (∃ cs t, plansOf labX .cpys 1 { cf with dsp := .global } [(0, 0), (1, 0)] (fun _ => [0, 0, 4]) ((labX.active hd.pneg hd.pred).take 1) lab = some (cs, t) ∧
      cs.length = 1) ∧
    (∃ cs t, plansOf labX .cpym 1 { cfg with dsp := .role } [(0, 0), (1, 3)] (fun l => if l = 0 then [0, 0, 4] else [0, 3, 4])
      ((labX.active hd.pneg hd.pred).take 1) lab = some (cs, t) ∧ cs.length = 1) ∧
    (∃ cs t, plansOf labX .cpyx 2 cf [] (fun _ => [0, 0, 4]) (byThread (labX.active hd.pneg hd.pred)) lab = some (cs, t) ∧ cs.length = 2) ∧
    (∃ cs t, plansOf labX (.cpya (.elem .f32)) 4 { cf with dsp := .global } [] (fun _ => [0, 0, 4]) (byThread (labX.active hd.pneg hd.pred)) lab = some (cs, t) ∧
      cs.length = 2) ∧
    lab.copyCount 0 + 2 ≤ 256 ∧
    (∃ g, readSources labU labX 0 (labT 0) (some 0x200000) ([(.v 4, .w64), (.lit, .w64)] ++ ((none : Option Opnd).map (fun p => (p, Machine.Pos.w64))).toList) none =
      .ok g ∧ ∃ r t, publishStops labU labX 0 (g.1.vals.getD 0 0) (g.1.vals.getD 1 0) none = .ok (r, t)) ∧
    Goes lab labX (lsu (.cpyq hd (.v 4) true) hd [] (some (.v 4, 32)))
      (fun x s _ t _ => .ok (LaneRes.value (s.copiesOf x.b.key t.tl), s)) ∧
    (let d : LDesc := { labL.d with producer := 1 }
     let x : Ctx := { labX with l := { labL with d := d } }
     let s : State := { lab with launches := [{ labL with d := d }] }
     s.issuing = some x ∧ (∃ p ∈ x.active hd.pneg hd.pred, x.l.d.isProducer p.2.tl = false) ∧
     (∀ p ∈ x.active hd.pneg hd.pred, ∀ q ∈ x.active hd.pneg hd.pred, p.1 = q.1 → p = q) ∧
     (∀ p ∈ x.active hd.pneg hd.pred, ∃ r, readSources s x p.1 p.2 hd.lit [(.v 4, spacePos .own), (.v 4, spacePos .own), (.imm 4, countPos cf)] none = .ok r)) := by
  refine ⟨by decide +kernel, ?_, ⟨_, _, rfl, rfl⟩, ⟨_, _, rfl, rfl⟩, ⟨_, _, rfl, rfl⟩, ⟨_, _, rfl, rfl⟩, ⟨_, _, rfl, rfl⟩, ⟨_, _, rfl, rfl⟩,
    by decide +kernel, ⟨_, rfl, _, _, rfl⟩, goes_of _ _ (by decide +kernel), rfl, by decide +kernel, by decide +kernel, ?_⟩
  · intro p hp
    have e : labX.active hd.pneg hd.pred = [(0, labT 0), (1, labT 1)] := by decide +kernel
    rw [e] at hp
    rcases List.mem_cons.1 hp with rfl | hp
    · exact reads_of (by decide +kernel)
    · rcases List.mem_singleton.1 hp with rfl
      exact reads_of (by decide +kernel)
  · intro p hp
    have e : (({ labX with l := { labL with d := { labL.d with producer := 1 } } } : Ctx).active hd.pneg hd.pred) = [(0, labT 0), (1, labT 1)] := by
      decide +kernel
    rw [e] at hp
    rcases List.mem_cons.1 hp with rfl | hp
    · exact ⟨_, rfl⟩
    · rcases List.mem_singleton.1 hp with rfl
      exact ⟨_, rfl⟩

theorem witness_CopiesMoveTheRows :
    (let r : CRec := CRec.ofCount 16777216
     (0 < 16 ∧ 16 ∣ r.xlen) ∧ r.bad .cpy 16 cf [] = false) ∧
    (let r : CRec := { CRec.ofCount 4 with ycnt := 65535, zcnt := 2, moff := 4, rrole := 767 }
     (0 < 1 ∧ 1 ∣ r.xlen) ∧ r.bad .cpym 1 { cf with role := 127 } [1, 2] = false) ∧
    (CRec.ofCount 4).bad .cpyg 4 cf [] = false ∧ ({ CRec.ofCount 4 with sflags := 1 } : CRec).bad .cpys 4 cf [] = false := by decide +kernel

/-- A copy between scratchpads of one line, with a stamp to come, from byte 0 to byte 128. -/
def labCopy : Copy :=
  { id := 7, core := 0, key := placeKey, tl := 0, kind := .cpy, runs := [⟨0, 128, 4⟩], ssp := .own, dsp := .own, src := some placeKey,
    dsts := [placeKey], cache := .dflt, scope := .dev, rel := some 7, shadow := false,
    stamp := some { own := true, addr := 8, val := 3 }, xb := none, todo := [(0, 1)], slow := [], err := false, swapped := false, base := 0, len := 0,
    resp := [], acks := [] }
def labCp (c : Copy) : State := { lab with copies := [c], blocks := [{ labB with absent := [(1, 7)] }] }
/-- A copy to an address that nothing maps. -/
def labLost : Copy := { labCopy with runs := [⟨0, 2 ^ 40, 4⟩], dsp := .global, dsts := [], todo := [(0, 2 ^ 33)] }
/-- A publication of the first page, which has a publication shadow. -/
def labPub : Copy := { labCopy with kind := .publish, runs := [⟨0, 0, 0x200000⟩], ssp := .global, dsp := .global, src := none, dsts := [], stamp := none, todo := [], len := 0x200000 }
def labPg : State :=
  { labU with
    copies := [labPub]
    und := [{ base := 0, size := 0x200000, prim := 0, snapOf := none, snap := none, pub := some 0x200000, point := none, va := 0, under := true,
              durable := false, maps := [(0, 0)], swapped := false }] }

theorem witness_CopiesMakeProgress :
    (let s := labCp labCopy
     LineReady s 7 0 1 labCopy ∧ s.block? placeKey = some { labB with absent := [(1, 7)] } ∧ piecesOf labCopy 1 = [⟨0, 128, 4⟩] ∧
     aget? [(1, 7)] 1 = some 7) ∧
    (let s := labCp labLost
     s.copy? 7 = some labLost ∧ s.copyReleased labLost = true ∧ (∀ p ∈ piecesOf labLost (2 ^ 33), s.pieceWaits labLost p = false) ∧
     (∃ p ∈ piecesOf labLost (2 ^ 33), s.pieceMissing labLost (labLost.recv 0) p ≠ none ∨ s.pieceFaults labLost (labLost.recv 0) p = true)) ∧
    (let c : Copy := { labLost with slow := [(0, 2 ^ 33, none)] }
     let s := labCp c
     c.slow.find? (fun e => e.1 == 0 && e.2.1 == 2 ^ 33) = some (0, 2 ^ 33, none) ∧ s.slowAsked (.copy 7 0 (2 ^ 33)) = false ∧
     (piecesOf c (2 ^ 33)).findSome? (fun p => s.pieceMissing c (c.recv 0) p) = some (2 ^ 40, true)) ∧
    (let c : Copy := { labCopy with slow := [(0, 1, none)] }
     let s := labCp c
     (piecesOf c 1).findSome? (fun p => s.pieceMissing c (c.recv 0) p) = none ∧ ∀ p ∈ piecesOf c 1, s.pieceWaits c p = false) ∧
    (let c : Copy := { labCopy with todo := [] }
     let s := labCp c
     s.copy? 7 = some c ∧ s.stampDue c = true ∧ s.block? c.key = some { labB with absent := [(1, 7)] }) ∧
    (labPg.copy? 7 = some labPub ∧ labPg.copyReleased labPub = true ∧ labPg.publishBlocked labPub = false ∧
     labPub.runs.filterMap (fun p => (undOf labPg.und p.s).bind (fun u => if u.pub.isSome then some u.base else none)) = [0] ∧
     labPg.hostIn [0] = [] ∧ ∃ w, State.prepPages 0 [0] labPg = .ok w) ∧
    (let q : Course := { labC with stat := .presence placeKey 0 }
     ({ lab with courses := [q] } : State).course? 0 1 = some q ∧ ({ lab with courses := [q] } : State).clearedBy placeKey 0 = none) ∧
    (let m : Mcc := { labM with stat := .presence 0 }
     ({ lab with mccs := [m] } : State).mcc? 0 = some m ∧ lab.course? 0 0 = none) := by
  refine ⟨⟨⟨?_, ?_, ?_, ?_, ?_, ?_⟩, ?_⟩, ?_, ?_, ?_, ?_, ⟨?_, ?_, ?_, ?_, ?_, ⟨_, rfl⟩⟩, ?_, ?_⟩ <;> decide +kernel
/-! ### The matrix control core -/

/-- An answer that is there. -/
def isOk {α β : Type} (e : Except α β) : Bool := match e with | .ok _ => true | .error _ => false
theorem ok_of {α β : Type} {e : Except α β} (h : isOk e = true) : ∃ r, e = .ok r := by
  cases e with
  | ok r => exact ⟨r, rfl⟩
  | error _ => cases h
theorem ok2_of {α β γ : Type} {e : Except α (β × γ)} (h : isOk e = true) : ∃ a b, e = .ok (a, b) := by
  obtain ⟨r, h⟩ := ok_of h
  exact ⟨r.1, r.2, h⟩

theorem witness_MccScalarsAndBranches :
    labm.running = some labY ∧
    ((mval labY none (.x 2)).toInt < 0 ∧ ¬(mval labY none (.x 2)).toInt ≥ 0 ∧ (mval labY none (.x 0)).toInt = 0) ∧
    (labY.m.x.get 1 - 1 ≠ 0 ∧ ({ labM with x := [(1, 1)] } : Mcc).x.get 1 - 1 = 0) ∧
    (labY.m.pc + BitVec.ofInt 64 (4 * (0x7FFFFFFF : BitVec 32).toInt)).toNat % 4 = 0 ∧ (mval labY none (.x 0)).toNat % 4 = 0 ∧
    (mval labY none (.x 1)).toNat % 4 ≠ 0 ∧ labY.m.staging = [] := by
  refine ⟨rfl, ?_⟩
  decide +kernel

/-- The scratchpad's last word, the word beyond it, an offset of -4 and an odd one; a stamp that is reached and one that is not. -/
def xo (base : MOpnd) (offs : BitVec 20) : XMem := { own := true, base := base, offs := offs, size := .b32, cache := .dflt }
def xk : XStamp := { own := true, base := .imm 0, offs := 0 }
theorem witness_MccMemory :
    labm.running = some labY ∧
    (∃ p bs t, mccAt labm labY true (mval labY none (.imm 65532)) 0 4 true false = .ok p ∧ mccLoad labm labY p 4 (mBypass .dflt p.w) = .ok (bs, t)) ∧
    (∃ p, mccAt labm labY false (mval labY none (.imm 0)) 0x1000 4 true false = .ok p) ∧
    (∃ p, mccAt labm labY true (mval labY none (.imm 0)) 0 4 false true = .ok p) ∧
    (let o : MOpnd → BitVec 20 → Int := fun b k => (((mval labY none b).toNat % 2 ^ 32 : Nat) : Int) + k.toInt
     o (.imm 1) 0 % 4 ≠ 0 ∧ (o (.imm 65536) 0 % 4 = 0 ∧ (labY.l.d.scratch : Int) < o (.imm 65536) 0 + 4) ∧
     (o (.imm 0) 0xFFFFC % 4 = 0 ∧ o (.imm 0) 0xFFFFC < 0) ∧ (0 ≤ o (.imm 65532) 0 ∧ o (.imm 65532) 0 + 4 ≤ labY.l.d.scratch)) ∧
    (∃ p, mccAt labm labY true (mval labY none (.imm 0)) 0 8 false true = .ok p) ∧ labm.mccSettled labY.b.key = true ∧
    ({ labm with pend := [{ pendOf (.scr placeKey 0) .store with ag := .mcc placeKey }] } : State).mccSettled labY.b.key = false ∧
    (∃ p, mccAt labm labY true (mval labY none (.imm 0)) 0 8 true false = .ok p ∧
      (1 ≤ ((labm.noteLeaf 0 p.w).stampAt (some (.mcc placeKey)) p.loc).1 ∧ ((labm.noteLeaf 0 p.w).stampAt (some (.mcc placeKey)) p.loc).1 < 2 ^ 63)) ∧
    (let s : State := { labm with blocks := [{ labB with poison := [0] }] }
     ∃ x p, s.running = some x ∧ mccAt s x true (mval x none (.imm 0)) 0 8 true false = .ok p ∧ x.m.staging = [] ∧
       ((s.noteLeaf 0 p.w).stampAt (some (.mcc placeKey)) p.loc).2.poisonLoad x.agent p.loc 8 = true) := by
  refine ⟨rfl, ⟨_, _, _, rfl, rfl⟩, ok_of ?_, ⟨_, rfl⟩, ?_, ⟨_, rfl⟩, ?_, ?_, ⟨_, rfl, ?_⟩, ⟨_, _, rfl, rfl, ?_⟩⟩ <;> decide +kernel

/-- The same machine with a code library at 0x1000. -/
def labLib : State := labm.setReg 0x3028 0x1000
/-- Rows that are there, of 32 bytes each. -/
theorem rows_of {e : Except MStop (List (List Byte) × State)}
    (h : (match e with | .ok r => r.1.all (fun r => r.length == 32) | .error _ => false) = true) :
    ∃ rows u, e = .ok (rows, u) ∧ ∀ r ∈ rows, r.length = 32 := by
  cases e with
  | ok r => exact ⟨r.1, r.2, rfl, fun q hq => by simpa using List.all_eq_true.1 h q hq⟩
  | error _ => cases h

theorem witness_TileLatchesLoad :
    labm.running = some labY ∧ (∃ rows, tileRead labm labY [(65472, 64)] = .ok rows) ∧
    (let io := 0
     let v := labm.forward labY.agent (.scr labY.b.key io) (labm.bytesAt (.scr labY.b.key io) 64)
     io + 64 ≤ labY.l.d.scratch ∧ labm.clearedBy labY.b.key (io / 128) = none ∧
     ∃ rows, tileRead labm labY ((io, 64) :: (List.range 32).map (fun r => (((v.getD (2 * r) 0).toNat + 256 * (v.getD (2 * r + 1) 0).toNat) * 16, 16))) = .ok rows) ∧
    (∃ rows, tileRead labm labY [(0, 32)] = .ok rows) ∧ (∃ rows u, globRead labm labY [(0x1000, 32)] = .ok (rows, u)) ∧
    (labLib.running = some labY ∧ labLib.preg 0 0x28 ≠ 0 ∧
      ∃ rows u, globRead labLib labY [(((labLib.preg 0 0x28).toNat + 32 * 15) % 2 ^ 64, 32)] = .ok (rows, u)) ∧
    (labm.preg 0 0x28 = 0 ∧ labY.m.staging = []) ∧
    (∃ rows, tileRead labm labY ((List.range 32).map (fun i => (i * 2048, 32))) = .ok rows) ∧
    (∃ rows u, globRead labm labY ((List.range 32).map (fun i => ((0x1000 + i * 32) % 2 ^ 64, 32))) = .ok (rows, u) ∧ ∀ r ∈ rows, r.length = 32) ∧
    (65472 + 64 ≤ labY.l.d.scratch ∧ labm.block? labY.b.key = some labB ∧ labY.b.absent = [] ∧ labY.b.poison = [] ∧ labm.pendOf labY.agent = []) := by
  refine ⟨rfl, ok_of ?_, ⟨?_, ?_, ok_of ?_⟩, ok_of ?_, ok2_of ?_, ⟨rfl, ?_, ok2_of ?_⟩, ?_, ok_of ?_, rows_of ?_, ?_⟩ <;> decide +kernel

/-- A multiply of 8-bit integers into the whole of tile 0, and its descriptor: one step, one tile. -/
def mulf : MulF := { f := .f1, sa := false, sb := false, wa := .i8, wb := .i8, row0 := 0, col0 := 0, cba := 0, cbb := 0, kb := 0 }
def wdesc : List Byte := zeros 32 ++ natLE 4 1 ++ [1, 1] ++ zeros 26
def labWk : Walk := { m := mulf, t := 0, d := 3, addr := 0, bytes := wdesc, budget := 0, pc := 0x5000, next := 0x500C }
/-- The lab with another MCC. -/
def labMm (m : Mcc) : State := { labm with mccs := [m] }
def labYm (m : Mcc) : MCtx := { labY with m := m }

/-- A region of one cell at the corner and one of every cell; a tile that holds 1, one that waits for a multiply, a row that holds no number. -/
theorem witness_TilesClearAddAndDrain :
    labm.running = some labY ∧ (fits ⟨31, 0, 31, 0⟩ ∧ fits ⟨0, 31, 0, 31⟩) ∧ (∀ g ∈ labY.m.staging, g.t ≠ 0) ∧
    (∃ g ∈ (labYm { labM with staging := [labY.stage mulf 0 0 0 none] }).m.staging, g.t = 0) ∧
    (∃ rows, tileRead labm labY ((List.range 1).map (fun i => (i, 128))) = .ok rows) ∧
    ((0 + 31 * 2048 + 31 * 4 + 4 ≤ labY.l.d.scratch ∧ (2048 : Nat) % 4 = 0) ∧ (cellOf (labY.m.tile 0) 31 31).poison = false) ∧
    (0 + 31 * 128 + 32 * Sys2Proof.Fmt.bits .e4m3 / 8 ≤ labY.l.d.scratch ∧ 8192 + 31 + 1 ≤ labY.l.d.scratch ∧ labm.staged labY.m < 2) ∧
    (let row : List Acc := [{ Acc.zero with val := 2 ^ 319 }]
     (∃ c ∈ row, 2 ^ ((-1 : Int) + 320).toNat ≤ c.val.natAbs) ∧ (∀ c ∈ row, c.val.natAbs < 2 ^ ((-1 : Int) + 321).toNat) ∧
     ∀ c ∈ row, ¬(c.nan ∨ c.pinf ∨ c.ninf ∨ c.ovf)) ∧
    (∃ c ∈ [{ Acc.zero with ovf := true }], c.nan ∨ c.pinf ∨ c.ninf ∨ c.ovf) ∧ (∀ c ∈ [Acc.zero], c.val = 0) ∧
    (labm.pendOf (.tile labY.b.key false) = [] ∧ labm.pendOf (.tile labY.b.key true) = []) := by
  refine ⟨rfl, ⟨⟨?_, ?_⟩, ?_, ?_⟩, ?_, ⟨_, List.mem_cons_self .., rfl⟩, ok_of ?_, ?_, ?_, ?_, ?_, ?_, ?_⟩ <;> decide +kernel

/-- Segments that are full: that of the last tile, and the first of two; one that is not. -/
theorem witness_MultipliesDrainExactly_segments :
    (let e := WDesc.of wdesc
     let c : Mcc := { labM with mdone := 1 }
     c.mdone.toNat + 1 = 2 ^ e.segLen c.mseg.toNat ∧ e.segs ≤ c.mseg.toNat + 1 ∧ e.tcols ≤ c.mcol.toNat + 1 ∧ e.trows ≤ c.mrow.toNat + 1 ∧
       labM.mdone.toNat + 1 ≠ 2 ^ e.segLen labM.mseg.toNat) ∧
    (let e := WDesc.of (zeros 32 ++ natLE 4 65 ++ [1, 1] ++ zeros 26)
     let c : Mcc := { labM with mdone := 0xFFFFFFFFFFFFFFFF }
     c.mdone.toNat + 1 = 2 ^ e.segLen c.mseg.toNat ∧ c.mseg.toNat + 1 < e.segs) := by decide +kernel

/-- The four MCCs of the truss, each with its first TMMA. -/
def labTr (core : Nat) : Mcc := { labM with core := core, staging := [(labYm { labM with core := core }).stage mulf 0 0 0 (some 0)] }
def labTruss : State := { labm with mccs := [labTr 0, labTr 1, labTr 32, labTr 33] }
/-- A walk under way, at its one step. -/
def labWm : Mcc := { labM with walk := some labWk, stat := .walk, wip := true, budgetDone := 1 }
def labErr : Sys2Proof.FlashFault := { errs := [.cell 31 0 1 0], sticky := false, unit := 0 }

theorem witness_MultipliesDrainExactly :
    (labm.running = some labY ∧ labm.staged labY.m = 0) ∧
    (let m : Mcc := { labM with staging := [labY.stage mulf 0 0 0 none, labY.stage mulf 1 0 0 none] }
     (labMm m).running = some (labYm m) ∧ 2 ≤ (labMm m).staged m) ∧
    (2 ≤ labY.l.d.gangw ∧ labY.l.d.gangw % 2 = 0 ∧ 2 ≤ labY.l.d.gangh ∧ labY.l.d.gangh % 2 = 0 ∧ (∀ c ∈ trussOf 0, c ∉ labm.quarantine) ∧
      labm.jointDone labY.m = true ∧ labTruss.running = some (labYm (labTr 0)) ∧ labTruss.jointDone (labTr 0) = false) ∧
    (let s : State := { labm with blocks := [{ labB with scratch := Memory.write [] 0 wdesc }] }
     ∃ x, s.running = some x ∧ s.forward x.agent (.scr x.b.key 0) (s.bytesAt (.scr x.b.key 0) 64) = wdesc ∧ (WDesc.of wdesc).ok wdesc mulf = true ∧
       s.poisonAt (.scr x.b.key 0) = false ∧ s.clearedBy x.b.key 0 = none ∧ x.m.budgetDone = 0 ∧ x.m.wip = false) ∧
    (labWm.wip = true ∧ labWm.within (WDesc.of wdesc) = true ∧ labWm.budgetDone ≠ 0) ∧
    (∃ rows, tileRead labm labY [(65504, 32)] = .ok rows) ∧
    (let g := labY.stage mulf 0 0 0 none
     let m : Mcc := { labM with staging := [g] }
     (labMm m).mctx 0 = some (labYm m) ∧ g.joint = none ∧ m.stat = .running ∧ 0 < g.m.side ∧ g.row0 + g.m.side ≤ 32 ∧ g.col0 + g.m.side ≤ 32 ∧
       (labMm m).mccs.filter (fun c => c.core == 0) = [m] ∧
       (labErr.sticky = false ∧ 31 < g.m.side ∧ residue 1 0 % flashM ≠ 0) ∧
       (∀ k, k < g.fa.kc → g.aVal 31 k = .fin false 0 0 ∧ g.bVal k 31 = .fin false 0 0)) ∧
    ((labMm labWm).mctx 0 = some (labYm labWm) ∧ (labMm labWm).stepFree labWm labWk 0 = true ∧
      ∃ rows, tileRead (labMm labWm) (labYm labWm) ((labWm.stepRuns (WDesc.of labWk.bytes) labWk.m 0).1 ++ (labWm.stepRuns (WDesc.of labWk.bytes) labWk.m 0).2) =
        .ok rows) ∧
    (labTruss.trussMccs 0 = [labTr 0, labTr 1, labTr 32, labTr 33] ∧ [(labTr 0).joining, (labTr 1).joining, (labTr 32).joining, (labTr 33).joining].all (·.isSome) ∧
      [0, 1, 32, 33].Nodup) ∧
    (let m : Mcc := { labM with stat := .tsync }
     (labMm m).trussMccs 0 = [m] ∧ (labMm m).jointDone m = true ∧ (labMm m).mcc? m.core = some m) := by
  refine ⟨⟨rfl, ?_⟩, ⟨rfl, ?_⟩, ⟨?_, ?_, ?_, ?_, ?_, ?_, rfl, ?_⟩, ⟨_, rfl, ?_⟩, ?_, ok_of ?_, ⟨rfl, ?_⟩, ⟨rfl, ?_, ok_of ?_⟩, ?_, ?_⟩ <;> decide +kernel
/-! ### Recovery points, observation, threads and launches -/

/-- The lab with a ring of recovery points in durable memory at 0x8000, and a state of partition 0. -/
def labRb : State :=
  (State.setReg { lab with mem := (placeTables []).write 0x1003000 (natLE 8 (1 + 2 + 4 + 8 + 16 + 32 + 64 + 128 + 5 * 2 ^ 50)) } 0x200 0x8000)
def labR (q : Partition) : State := { labRb with partitions := [q] }
def labPt : Partition := Partition.fresh 0
def labSeal : Seal := { n := 1, ring := [0x8000, 0x9000, 0xA000, 0xB000], lnum := 1 }

theorem witness_RecoveryPointsOpenAndSeal :
    (∃ r, (labR labPt).ringOf 0 = some r) ∧
    (let i : Instr := .rpopen hd (.v 4) (.v 1)
     Goes (labR labPt) labX (lsu i hd [(.v 1, .w32)] (some (.v 4, 32))) (fun x st _ _ v => pointLane st x v)) ∧
    (let i : Instr := .rpseal hd (.v 4) (.v 1)
     Goes (labR labPt) labX (lsu i hd [(.v 1, .w32)] (some (.v 4, 32))) (fun x st _ _ v => pointLane st x v)) ∧
    (let q : Partition := { labPt with rpc := 1 }
     (labR q).part? 0 = some q ∧ (1 : W32) ≠ 0 ∧ q.rpc = 1 ∧ q.sealing = false ∧ (q.rpc ≠ 0xFFFFFFFF ∧ q.rpa.toNat < 0xFFFFFFFF ∧ q.rps.toNat < 0xFFFFFFFF) ∧
       (0 ≤ q.rps.toNat ∧ q.rpc ≠ 0)) ∧
    (let q : Partition := { labPt with rpc := 1, sealing := true, sealNow := some labSeal }
     (labR q).part? 0 = some q ∧ q.rpc = 1 ∧ q.sealing = true ∧ q.rps.toNat < 1 ∧
       (((labR q).sealers 0).foldl (fun t a => t.settle a) (labR q)).sealReleased 0 = true) ∧
    (openStatus labPt 1 = some 0 ∧ openStatus labPt 2 = some 3 ∧ openStatus { labPt with rpa := 1 } 2 = none) ∧
    (let q : Partition := { labPt with rpa := 1, sealNow := some labSeal }
     let s := labR q
     s.part? 0 = some q ∧ q.sealNow = some labSeal ∧ q.sealing = false ∧ q.rpa.toNat = labSeal.n ∧ q.rps.toNat < labSeal.n ∧
       s.drainAll.hostIn ((s.drainAll.pointPages 0 labSeal.n).map (fun e => e.1.base)) = [] ∧
       isOk (s.drainAll.storeAt none none (.dev (labSeal.ring.getD (labSeal.n % 256 / 64) 0 + 64 * (labSeal.n % 64)))
         (natLE 2 2 ++ zeros 1 ++ natLE 1 0 ++ natLE 4 labSeal.n ++ natLE 4 labSeal.lnum ++ natLE 4 0 ++ zeros 48)) = true) := by
  refine ⟨⟨[0x8000, 0x9000, 0xA000, 0xB000], ?_⟩, ⟨rfl, List.isEmpty_iff.1 ?_⟩, ⟨rfl, List.isEmpty_iff.1 ?_⟩, ⟨rfl, ?_⟩, ⟨rfl, ?_⟩, ?_, ⟨rfl, ?_⟩⟩ <;> decide +kernel

theorem witness_ObservationInstructions :
    (let s := lab.setReg 0x200020 7
     (s.oreg labX.b.key.part 0x20).getLsbD 2 = true ∧ (3 : BitVec 2).toNat ≤ (s.oreg labX.b.key.part 0x20).toNat % 4) ∧
    (lab.oreg labX.b.key.part 0x20).getLsbD 2 = false ∧
    LanesReady lab labX (shapeX (.pmark hd 0xFFFF (.v 0)) hd [(.v 0, .w32)] none none) ∧
    lab.releasable (labX.agent 0) .dev = true ∧ (labP (pendOf (.dev 0) .store)).releasable (labX.agent 0) .dev = false := by
  refine ⟨?_, ?_, ready_of _ rfl, ?_, ?_⟩ <;> decide +kernel

/-- A bin of thread 1, filed at cycle 0. -/
def labBin : Bin := { core := 0, id := 2, slot := 0, producer := true, key := 0x4000, threads := [(1, 0)], full := false }
def labBn (b : Bin) (c : Course) (cycle : Nat) : State := { lab with bins := [b], courses := [c], cycle := cycle }
def labTi (code : Nat) : TrapInfo := TrapInfo.simple code 3 0x4000

theorem witness_ThreadsAreFiledAgain :
    (let s := labBn labBin { labC with lanes := [some 0] } 64
     s.bins.find? (fun b => b.core == 0 && b.id == 2) = some labBin ∧
     (((s.blockAt? 0 0).bind (fun k => s.launch? k.key.part k.key.lnum)).map (fun l => l.d.age)).getD 0 = 64 ∧ labBin.oldest + 64 ≤ s.cycle ∧
     (labBn labBin labC 63).cycle < labBin.oldest + 64 ∧ (∃ c ∈ s.courses, c.core = 0 ∧ s.eligible c = true) ∧
     (∃ x, s.ctxOf 0 1 = some x ∧ x.c.members.length = 1 ∧ x.c.chain = 0 ∧ x.c.reinj = [] ∧ x.c.frame = none ∧ x.c.stat = .ready ∧ x.pc = labBin.key ∧
       x.c.slot = labBin.slot ∧ x.l.d.isProducer ((x.c.members.head?.map (·.2)).getD 0) = labBin.producer)) ∧
    (let s := labBn labBin { labC with stat := .debug (labTi 0xC) } 0
     s.oldestBin 0 = some labBin ∧ (∀ c ∈ s.courses, c.core = 0 → s.eligible c = false)) ∧
    (let b : Bin := { labBin with full := true }
     (labBn b labC 0).deferredBin 0 = some b ∧ ((labBn b labC 0).courses.filter (fun c => c.core == 0)).length < 128) ∧
    lab.deferredBin 0 = none ∧
    (let c : Course := { labC with stat := .frame (labTi 2), resume := [0x4000] }
     (∃ x, (labBn labBin c 0).ctxOf 0 1 = some x ∧ x.c.stat = .frame (labTi 2)) ∧ (labBn labBin c 0).frameCount 0 < 32 ∧
     32 ≤ ({ lab with courses := c :: List.replicate 32 (labCH .trap []) } : State).frameCount 0) := by
  refine ⟨⟨rfl, ?_, ?_, ?_, ⟨_, List.mem_cons_self .., ?_⟩, ⟨_, rfl, ?_⟩⟩, ⟨rfl, ?_⟩, ⟨rfl, ?_⟩, rfl, ⟨_, rfl, ?_⟩, ?_, ?_⟩ <;> decide +kernel

/-- A descriptor that is accepted: blocks of two threads, one gang of a truss. -/
def goodDesc : List Byte :=
  natLE 8 0x4000 ++ zeros 34 ++ natLE 2 240 ++ [8, 255, 2, 2, 1, 0, 0, 0] ++ natLE 4 65536 ++ natLE 2 64 ++ natLE 2 2 ++ natLE 2 1 ++ natLE 2 1 ++
    natLE 4 4 ++ natLE 4 1 ++ natLE 4 1 ++ zeros 176
/-- The lab with that descriptor at virtual address 0x10000. -/
def labSub : State := { lab with mem := (placeTables []).write 0x10000 goodDesc }

theorem witness_LaunchesAreSubmitted :
    (let sh := plain (.dlaunch hd (.v 4) (.v 5) 63) hd (hdSize hd) [(.v 5, .w64)] (some (.v 4, 32))
     let f : LaneFn := fun _ st _ _ v => if v.headD 0 % 256 ≠ 0 then .error (targetStop (v.headD 0)) else .ok (LaneRes.value (v.headD 0), st)
     Goes lab labX sh f) ∧
    (lab.releaseAll [labX.agent 0, labX.agent 1] .dev).2 = true ∧
    ((lab.reg 0x400).getLsbD 0 = true ∧ lab.partOn 0 = true ∧ lab.partOn 7 = false ∧ lab.power = true) ∧ ((lab.setReg 0x400 0).reg 0x400).getLsbD 0 = false ∧
    (∃ q, labSub.part? 0 = some q ∧ (labSub.submit 0 63 0x10000).1 ≠ 0) ∧ (lab.readBytes 0 (2 ^ 40) 256).1 = none := by
  refine ⟨goes_of _ _ ?_, ?_, ?_, ?_, ⟨_, rfl, ?_⟩, ?_⟩ <;> decide +kernel
/-! ### The course of a launch, and the supervisor -/

/-- A launch of one block of two threads, queued first in queue 63, and one of higher priority that needs a core's whole scratchpad. -/
def labQ1 : Launch :=
  { placeLaunch [] with
    queue := 63, stat := .queued, next := 0, placed := [], seqNext := 0, roles := [(0, 0)]
    d := { placeDesc with bx := 2, gangw := 0, gangh := 0, gx := 1, rw := 1, rh := 1, regs := 8, accs := 0, scratch := 128, tileent := 0, producer := 255 } }
def labQ2 : Launch := { labQ1 with lnum := 2, queue := 62, d := { labQ1.d with prio := 7, scratch := 393216 } }
/-- The state after an instruction, or the same state. -/
def next (i : Instr) (s : State) : State := match exec i s with | .next t => t | _ => s
/-- The first launch waits; it runs; the second waits; the first is pre-empted. -/
def lab1 : State :=
  { lab with launches := [labQ1], blocks := [], courses := [], mccs := [], partitions := [{ Partition.fresh 0 with queues := [(63, [1]), (62, [2])] }] }
def bind1 : Bind := { bl := 0, core := 0, slot := 0, role := 0xFFFFFFFF, gx0 := 0, gy0 := 0, seq := 0, image := 0, valid := true }
def lab2 : State := next (.dispatchUnit 0 1 [bind1]) lab1
def lab3 : State := { lab2 with launches := lab2.launches ++ [labQ2] }
def lab4 : State := next (.preemptVacate 0 1 2 [0] [0x2000000]) lab3
/-- The same where the second launch is not there. -/
def lab5 : State := { lab4 with launches := lab4.launches.take 1 }
/-- The block done. -/
def labDone : Block := { labB with threads := [{ labT 0 with stat := .exited }, { labT 1 with stat := .exited }], hasMcc := false }
def labDn (det : Bool) : State := { lab with blocks := [labDone], mccs := [], courses := [], launches := [{ labL with d := { labL.d with determ := det } }] }

/-- A launch is dispatched on its core. -/
theorem witness_LaunchesRunTheirCourse_dispatch : ∃ l0 ∈ lab1.launch? 0 1, l0.stat = .queued ∧
      (let l := lab1.asPlaced l0
       let w := lab1.updLaunch 0 1 (fun _ => l)
       l.saved = [] ∧ w.mayPlace l = true ∧ l.nextUnit = some 0 ∧
       (∃ r ∈ w.served 0, r.2.1 = 0 ∧ r.1.lnum = 1 ∧ ∀ v : Bool,
         [{ bind1 with valid := v }] = ((w.bindsFor r.1 0 r.2.2.2).zip [{ bind1 with valid := v }]).map
           (fun p => { p.1 with slot := p.2.slot, valid := p.2.valid })) ∧
       w.badPage l = none) ∧ lab1.blockAt? 0 0 = none := by decide +kernel
/-- It gives way to the other one, and comes to rest as it was asked to. -/
theorem witness_LaunchesRunTheirCourse_preempt : ∃ r ∈ lab3.launch? 0 2, ∃ l ∈ lab3.launch? 0 1, l.stopping = none ∧
      lab3.stuck (lab3.asPlaced r) = true ∧ (lab3.victimFor (lab3.asPlaced r)).map (·.lnum) = some 1 ∧
      [0] ∈ lab3.asksOf (lab3.asPlaced r) l ∧ l.mayVacate [0] [0] = true ∧ l.stat = .started ∧ (∃ p ∈ l.placed, p.1 = 0) ∧
      lab3.mayGiveUp l [0] = true ∧ ({ l with stopping := some ([0], [64]) } : Launch).stopping = some ([0], [64]) := by decide +kernel
/-- Its image can be restored. -/
theorem witness_LaunchesRunTheirCourse_restore : ∃ l ∈ lab5.launch? 0 1, l.saved ≠ [] ∧ (∃ r ∈ lab5.served 0, r.2.1 = 0 ∧ r.1.lnum = 1 ∧
      ({ bind1 with image := 0x2000000, seq := 1 } : Bind) ∈ lab5.bindsFor l 0 r.2.2.2) ∧
      ∀ v ∈ l.saved.filter (fun v => v.bl / l.d.unitSize == 0), lab5.copyInto { part := 0, lnum := 1, bl := v.bl } = false ∧
        lab5.imageLost l v = false ∧ lab5.imageCheck l v = 0 := by decide +kernel
/-- What the other clauses meet: a block done, alone and under determ; a page that a range names and no underlay holds; a watchdog over its limit. -/
theorem witness_LaunchesRunTheirCourse :
    (let r : Machine.Range := { base := 0x1000, len := 8, kind := 1 }
     lab1.badPage { labL with ranges := [r], stat := .queued } = some 0) ∧
    ((labDn false).blockDone labDone = true ∧ ∀ c ∈ (labDn true).unitResident labL 0, (labDn true).blockDone c = true) ∧
    ((lab.reg 0x10).toNat % 16 = 0 ∧ ((lab.setReg 0x10 1).reg 0x10).toNat % 16 = 1) ∧
    (labPg.poolDry 0 = true ∧ 0 ∉ labPg.pagesWanted ∧ lab.poolDry 0 = false ∧ (∃ t, lab.snapCopy 0 = .ok t)) ∧
    (∃ n, ({ labPg with und := labPg.und.map (fun u => { u with snapOf := some (0, 1) }) } : State).snapCopy 0 = .error n) ∧
    (let l : Launch := { labL with wdog12 := 12001, d := { labL.d with wdog := 1 } }
     l.live = true ∧ 12000 * l.d.wdog < l.wdog12 ∧ ({ lab with launches := [l] } : State).launch? 0 1 = some l) := by
  refine ⟨by decide +kernel, by decide +kernel, by decide +kernel, ⟨by decide +kernel, by decide +kernel, by decide +kernel, ⟨_, rfl⟩⟩, ⟨0, rfl⟩, by decide +kernel⟩

/-- The lab's course with a trap to be taken by the supervisor, and one with a fault awaiting its answer. -/
def labTrap (code : Nat) : State := { lab with courses := [{ labC with stat := .trap (labTi code) }] }
def labFault : Course := { labCH .trap [] with stat := .fault (labTi 4) (some 5) }
/-- A ring at 0x40000 whose entries from 0 to `tail` stand. -/
def labGq (tail : W64) : State := (lab.setReg 0x100 0x40000).setReg 0x108 tail

theorem witness_SupervisorAnswersCauses :
    (∀ code : Nat, code = 2 ∨ code = 4 ∨ code = 0x000C → ∃ x, (labTrap code).ctxOf 0 1 = some x ∧ x.c.stat = .trap (labTi code) ∧ x.c.inHandler = false) ∧
    ((labTi 2).replayable = false ∧ (labTi 4).replayable = true ∧ lab.attached 0 1 = false) ∧
    (∀ cause : Nat, cause = 2 ∨ cause = 4 →
      let m : Mcc := { labM with stat := .fault none, fault := { pc := 0x5000, cause := cause, aux0 := 0, aux1 := 0 } }
      (labMm m).mctx 0 = some (labYm m) ∧ m.stat = .fault none) ∧ containedCause 2 = false ∧
    ((labGq 4094).gqUnusable = false ∧ (labGq 4094).gqUsed + 2 ≤ 4096 ∧ (labGq 4095).gqUsed < 4096 ∧ 4096 < (labGq 4095).gqUsed + 2 ∧
      (labGq 4096).gqUsed = 4096 ∧ (labGq 4096).gheld = [] ∧ (labGq 4096).gwait = [] ∧ swf 0 (labGq 4096).regs = true ∧ gqHead (labGq 4096) = 0) ∧
    ((∃ q ∈ [trapRec labX (labTi 4) 4 2 .none], q.core = (trapRec labX (labTi 2) 2 1 .none).core ∧ q.core ≠ plateCore) ∧
      (trapRec labX (labTi 2) 2 1 .none).isFatal = true ∧ (trapRec labX (labTi 4) 4 2 (.course 0 1)).isFatal = false) ∧
    (let g : GOpen := { seq := 0, by_ := .course 0 1, answered := false }
     ({ labGq 4096 with gopen := [g] } : State).gopen.find? (fun g => g.seq == 0 && !g.answered) = some g ∧
     (({ labGq 4096 with gopen := [g] } : State).fatalSource g.by_).isNone = true ∧
     (({ labGq 4096 with gopen := [g], courses := [labFault] } : State).fatalSource g.by_).isSome = true) ∧
    (({ lab with courses := [labFault] } : State).course? 0 1 = some labFault ∧ labFault.frame = some (labFr .trap [])) ∧
    ((lab.reg 0x10).toNat % 16 ≠ 1 ∧ ((lab.setReg 0x10 1).reg 0x10).toNat % 16 = 1) := by
  refine ⟨?_, by decide +kernel, ?_, by decide +kernel, by decide +kernel, by decide +kernel, by decide +kernel, by decide +kernel, by decide +kernel⟩
  · rintro _ (rfl | rfl | rfl) <;> exact ⟨_, rfl, rfl, rfl⟩
  · rintro _ (rfl | rfl) <;> exact ⟨rfl, rfl⟩
/-! ### Errors, translation, links, ownership, starts, observation -/

/-- A bank in each state that R427 tells apart; a stamp at a queue's head that is POISON; a core at 32; an MCC that waits for a vote. -/
def labBank (valid uc : Bool) : Bank :=
  { unit := 3, valid := valid, uc := uc, ovf := false, poisoned := false, kind := 0, count := 65535, time := 0, addr := 0, synd := 0, buf := [], corr := 0 }
def labVote : VoteSt := { core := 0, since := 0, op := labY.stage mulf 0 0 0 none, arrayBad := false }
theorem witness_ErrorsAreRecordedAndContained :
    ((labBank false false).valid = false ∧ (labBank true false).uc = false ∧ (labBank true true).uc = true ∧ (labBank true true).count = 65535) ∧
    (coreUnit 0x1C00 = none ∧ coreUnit 3 = some 3 ∧ lab.logicalCore 3 = some 3 ∧ lab.logicalCore 192 = none) ∧
    ((lab.reg 0x10).toNat % 16 ≠ 1 ∧ ((lab.setReg 0x10 1).reg 0x10).toNat % 16 = 1) ∧
    lab.canVote 0 1 = true ∧
    ({ lab with votes := [labVote] } : State).votes.find? (fun w => w.core == 0) = some labVote ∧
    (labTrap 0x0010).raised 0 1 0x0010 = containedCause 0x0010 ∧ (labTrap 2).raised 0 1 2 = false ∧
    (let l : Launch := { labQ1 with d := { labQ1.d with deps := [(0x1000, 1)] } }
     ({ lab1 with launches := [l], poison := [0x1000 / 128] } : State).firmwarePoison l = true) ∧
    (let s : State := { State.reset with time12 := 12 * 86400000000000 }
     s.halved < s.ns / 86400000000000 ∧ swf 0 s.scores = true) ∧
    (let s : State := { State.reset with scores := [(5, 32)] }
     32 ≤ s.scoreOf 5 ∧ 5 ∉ s.quarantine ∧ 5 ∉ s.degraded ∧ s.coreIdle 5 = true) ∧
    (3 ∈ ({ lab with diesOut := [3] } : State).diesOut ∧ lab.eave.length < eaveLines) ∧
    (767 < 768 ∧ State.reset.coreIdle 767 = true ∧ dieOf 767 ∉ State.reset.diesOut ∧ 767 ∉ State.reset.scanning) ∧
    (let s : State := { State.reset with quarantine := [767], spares := [(3, 16)] }
     767 ∈ s.quarantine ∧ s.coreIdle 767 = true ∧ 767 ∉ s.degraded ∧
       s.nextSpare (dieOf 767) = none ∧ ({ s with spares := [(3, 15)] } : State).nextSpare (dieOf 767) = some 15) := by
  refine ⟨?_, ?_, ?_, ?_, rfl, ?_, ?_, ?_, ?_, ?_, ?_, ?_, ?_⟩ <;> decide +kernel

theorem witness_TranslationsAndLines :
    ((lab.reg 0x10).toNat % 16 ≠ 1 ∧ ((lab.setReg 0x10 1).reg 0x10).toNat % 16 = 1) ∧
    (let s : State := { lab with tlbinv := [(0, some 0)] }
     s.tlbinv = [(0, some 0)] ∧ s.part? 0 = some (Partition.fresh 0) ∧ ∀ u ∈ s.und, u.durable = false) := by
  refine ⟨?_, rfl, rfl, by intro u hu; cases hu⟩
  decide +kernel

/-- A read that is outstanding to a peer. -/
def labReq (op : ReqOp) (by_ : Option ReqBy) : PeerReq := { id := 4, peer := 1023, addr := 0x1000, op := op, by_ := by_, since := 0 }
theorem witness_LinkAndAttestation :
    (State.reset.hdmBad (devEnd - 64) 64 = false ∧ State.reset.hdmBad (devEnd - 64) 65 = true) ∧
    plainDev lab 0x2000 256 ∧ linkFree lab 0x2000 256 ∧ lab.mem.wf = true ∧ (devEnd < devEnd - 1 + 2 ∧ 256 < 257) ∧
    ((0x2000 : Nat) % 8 = 0 ∧ (96 : Nat) ≤ 96) ∧
    ((3, 0, Mesi.m) ∈ ({ lab with hostLines := [(3, 0, .m)] } : State).hostLines ∧ lab.hostLines = []) ∧
    5 ∈ ({ lab with bisnp := [5] } : State).bisnp ∧
    (∀ op, ({ lab with reqs := [labReq op none] } : State).reqs.find? (fun r => r.id == 4) = some (labReq op none)) ∧
    (let c : Course := { labC with stat := .peer [4, 9] }
     ({ lab with courses := [c] } : State).course? 0 1 = some c ∧ c.stat = .peer ((labReq (.read 4) (some (.course 0 1))).id :: [9]) ∧ 4 ∉ [9]) ∧
    (0x1000 < devEnd ∧ lab.und = [] ∧ lab.parts = [] ∧ (1023, 32) ∈ ({ lab with lost := [(1023, 0x1000 / 128)] } : State).lost ∧
      lab.reachable 1023 = true ∧ ([(0, 0xFF), (1023, 1)] : List (Nat × W64)).map (·.1) = [0, 1023]) ∧
    (({ lab with spdm := { version := true, caps := true, algs := true, keyex := true, session := true } } : State).spdm.session = true ∧
      lab.spdm.algs = false) := by
  refine ⟨?_, ⟨rfl, rfl, rfl, rfl, rfl, ?_, ?_⟩, ⟨rfl, ?_⟩, ?_, ?_, ?_, ?_, ?_, fun _ => rfl, ⟨rfl, rfl, ?_⟩, ?_, ?_⟩ <;> decide +kernel

/-- Register values that are stored, refused, and no register's; a claim by nobody's and by the owner's hand. -/
theorem witness_OwnershipIsClaimed :
    swf 0 lab.regs = true ∧
    ((lab.reg 0x10).toNat % 16 = 0 ∧ ((lab.setReg 0x10 0xFFFFFFF1).reg 0x10).toNat % 16 = 1 ∧ ((lab.setReg 0x10 0xFFFFFFF1).reg 0x10).toNat < 2 ^ 32) ∧
    (lab.regWrite 0x3108 0x1000 = .put 0x1000 ∧ lab.regWrite 0x3108 1 = .bad ∧ lab.regWrite 0x3110 0x100 = .bad ∧ lab.regWrite 0x3128 31 = .bad ∧
      lab.regWrite 0x3108 1 ≠ .none) ∧
    (∃ b ∈ lab.blocks, b.key.part = 0) := by
  refine ⟨?_, ?_, ?_, ⟨labB, List.mem_cons_self .., rfl⟩⟩ <;> decide +kernel

/-- A manifest of one entry, which agrees. -/
def labMan : List Byte := natLE 2 0x4E4D ++ natLE 2 1 ++ natLE 2 1 ++ zeros 10 ++ natLE 2 1 ++ zeros 62
/-- A firmware image of eight bytes with its signature record, and a device whose fuses hold the hash of its key. -/
def labFw : FwImage :=
  { bytes := zeros 4 ++ natLE 4 7 ++ natLE 2 1 ++ zeros 2 ++ natLE 4 9 ++ sha384 (zeros 4 ++ natLE 4 7) ++ zeros 96, keys := [(9, [1])], sigOk := true }
def labStart : State := { lab with rootHash := sha384 [1] }
/-- The lab with its first page durable and a seal ring in it. -/
def labRing : State :=
  ({ lab with mem := (placeTables []).write 0x1003000 (natLE 8 (1 + 2 + 4 + 8 + 16 + 32 + 5 * 2 ^ 50)) } : State).setReg 0x200 0x4000
theorem witness_StartsAndThrottling :
    swf 0 lab.regs = true ∧ (labStart.failStep { images := [labFw, labFw, labFw], hwStep := 0, scan := [] } = 0 ∧
      lab.fwPasses { images := [], hwStep := 0, scan := [] } 0 = false) ∧
    (labStart.part? 7 = some (Partition.fresh 7) ∧ labStart.ringOf 7 = none ∧ labRing.ringOf 0 = some [0x4000, 0x5000, 0x6000, 0x7000]) ∧
    ((lab.reg 0x10).toNat % 16 ≠ 1 ∧ ((lab.setReg 0x10 1).reg 0x10).toNat % 16 = 1) ∧
    ((lab.physBytes 0x2000 64).getD 8 0).getLsbD 0 = false ∧ lab.manBusy = none ∧
    (manHeaderBad labMan = false ∧ (∀ i, i < manCount labMan → manEntryBad labMan i = false ∧ (manEntry labMan i).drop 16 = (aget? [] i).getD (zeros 48)) ∧
      manHeaderBad [] = true) ∧
    ((lab.island 0).freq = 2400 ∧ lab.fmax 0 = 2400) := by
  refine ⟨?_, ?_, ?_, ?_, ?_, ?_, ?_⟩ <;> decide +kernel

/-- The lab where agent 1 owns the device, debugs launch 1, which is halted, samples its PCs, and has one image of it. -/
def labO : State := (lab.setReg 0x10 1).setReg 0x200020 (7 + 10 * 256)
def labOd : State := labO.setReg 0x300100 1
def labOh : State := { labOd with launches := [{ labL with halted := true }], courses := [] }
def labSv : Saved :=
  { bl := 3, image := 64, live := [], absent := [], crews := [], waits := [], report := (0, 0, 0), held := [], pushes := [] }
theorem witness_ObservationEvents :
    ((1 : Nat) ≠ 0 ∧ (labO.reg 0x10).toNat % 16 = 1 ∧ swf 0 labO.regs = true ∧ swf 0 labOd.regs = true) ∧
    (let s : State := { labO with cycle := 65536 }
     s.part? 0 = some (Partition.fresh 0) ∧ (Partition.fresh 0).rot < s.cycle / 65536) ∧
    (let s : State := { labO with samples := [(0, 3)] }
     s.coreIn 0 0 = true ∧ labO.sampling 0 = some 10 ∧ (0, 3) ∈ s.samples ∧ (0, 2) ∉ s.samples ∧
       s.oldestCourse 0 = some labC ∧ s.courseReason labC = none ∧ s.courseReason { labC with stat := .presence placeKey 0 } = some 5 ∧
       ({ s with courses := [] } : State).oldestCourse 0 = none ∧ (1 : Byte).toNat ∈ timingReasons) ∧ labO.ctxOf 0 1 = some labX ∧
    labO.namedThread (natLE 4 1 ++ zeros 8) = some (labB, labL, labT 0) ∧ (shadowValue labB labL (labT 0) 512 0 = none ∧ (239 : Nat) < labL.d.regs) ∧
    (labO.dbgLaunch.2 = 0 ∧ labOd.dbgLaunch.2 ≠ 0 ∧ labOd.launch? 0 1 = some labL ∧ labL.halted = false) ∧
    (labOh.haltedLaunch = some { labL with halted := true }) ∧
    (let s : State := { labOd with courses := [{ labC with stat := .trap (labTi 0x000C) }] }
     ∃ x, s.ctxOf 0 1 = some x ∧ x.c.stat = .trap (labTi 0x000C) ∧ x.c.inHandler = false ∧ s.attached x.b.key.part x.b.key.lnum = true) ∧
    (let s : State := { labOh with blocks := [labDone], mccs := [] }
     (labDone.agents.foldl (fun t a => t.settle a) s).blockAt? 0 0 = some labDone ∧
       (labDone.agents.foldl (fun t a => t.settle a) s).blockSnoops { labL with halted := true } labDone 64 = [] ∧
       (labDone.agents.foldl (fun t a => t.settle a) s).blockAtRest labDone = true) ∧
    (let l : Launch := { labL with saved := [labSv] }
     ({ labOd with launches := [l] } : State).launch? labOd.dbgLaunch.1 labOd.dbgLaunch.2 = some l ∧ l.saved.find? (fun v => v.image == 64) = some labSv) ∧
    ((-500 : Int) ≤ 500 ∧ labO.ns ≤ labO.ns + 1000000) := by
  refine ⟨?_, ⟨rfl, ?_⟩, ?_, rfl, rfl, ?_, ⟨?_, ?_, rfl, rfl⟩, rfl, ⟨_, rfl, rfl, ?_, ?_⟩, ⟨rfl, ?_, ?_⟩, ⟨rfl, rfl⟩, ?_⟩ <;> decide +kernel

/-! ### The machine as a whole -/

/-- The reset state meets the invariants, and a step from it and from the lab goes on; the lab meets them too. -/
theorem witness_StepKeepsMemoriesCanonical : State.reset.memWf ∧ (∃ t, step State.reset = .next t) ∧ lab.memWf := by
  unfold State.memWf
  refine ⟨by decide +kernel, ⟨_, rfl⟩, by decide +kernel⟩
theorem witness_StepKeepsFilesCanonical : FilesCanonical State.reset ∧ FilesCanonical lab := by
  unfold FilesCanonical
  refine ⟨?_, ?_⟩ <;> decide +kernel
/-- The lab where words stand at the course's PC, or at the MCC's. -/
def labText (at_ : Nat) (ws : List Nat) : Launch := { labL with text := { labL.text with dev := Memory.write [] at_ (bytesOf ws) } }
def labRun (ws : List Nat) (c : Course) : State :=
  { lab with launches := [labText 0x4000 ws], mccs := [], blocks := [{ labB with hasMcc := false }], courses := [c] }
def labRunX (ws : List Nat) (c : Course) : Ctx := { core := 0, id := 1, c := { c with quad := some 0, flight := true }, b := { labB with hasMcc := false }, l := labText 0x4000 ws }
def labIss (ws : List Nat) (c : Course) : State := ((labRun ws c).issueOn c 0).sampleIssue (labRunX ws c) 0

/-- An answer that is there and meets a test. -/
theorem ok_and {α β : Type} {e : Except α β} {p : β → Bool} (h : (match e with | .ok r => p r | .error _ => false) = true) :
    ∃ r, e = .ok r ∧ p r = true := by
  cases e with
  | ok r => exact ⟨r, rfl, h⟩
  | error _ => cases h

/-- Nothing to run; an event; an instruction and a word that is none at the course's PC, an entry that it re-injects; an instruction of the MCC. -/
theorem witness_StepRunsDecoded :
    (({ lab with power := false } : State).pick = ({ lab with power := false }, .cycle)) ∧
    (let s : State := { lab with inbox := [.event .suspectHalve] }
     s.pick = (lab, .event .suspectHalve) ∧ lab.answers .suspectHalve = true) ∧
    (let s : State := { State.reset with linkWait := [.suspectHalve] }
     s.pick = ({ s with moved := 1, turn := 1 }, .link) ∧ s.answers .suspectHalve = true) ∧
    (∀ w : Nat, w = 0x02819C80 ∨ w = 0 →
     let s := labRun [w] labC
     let x := labRunX [w] labC
     s.pick = (s, .issue 0 1) ∧ s.power = true ∧ s.course? 0 1 = some labC ∧ s.eligible labC = true ∧ s.quadFor labC = some 0 ∧
       (s.issueOn labC 0).issuing = some x ∧
       (labIss [w] labC).sdcDue x = false ∧ x.c.reinj = [] ∧ (∃ bs, (labIss [w] labC).fetchAt x.l x.pc.toNat = .ok bs ∧ decide (leNat (bs.take 4) = w) = true) ∧
       ∀ k, k < 8 → (labIss [w] labC).compHit x (guardLanes x w) k = none) ∧
    (decode (dctxOf (labRunX [0x02819C80] labC) 0x02819C80) (natLE 4 0x02819C80) = .ok (.iaddC ch (.v 3) (.v 5)) ∧
     decode (dctxOf (labRunX [0] labC) 0) (natLE 4 0) = .illegal 1) ∧
    (let c : Course := { labC with reinj := [labE], resume := [0x4010], chain := 0 }
     let s := labRun [0] c
     s.pick = (s, .issue 0 1) ∧ s.eligible c = true ∧ s.quadFor c = some 0 ∧ (s.issueOn c 0).issuing = some (labRunX [0] c) ∧ (labIss [0] c).sdcDue (labRunX [0] c) = false ∧
       (labRunX [0] c).c.reinj = labE :: [] ∧
       decode (dctxOf (labRunX [0] c) (labE.words.headD 0).toNat) (labE.words.flatMap (fun w => natLE 4 w.toNat)) = .ok labE.i) ∧
    (let l := labText 0x5000 [0x00011EC1, 0x000005DF, 0]
     let s : State := { lab with launches := [l], courses := [] }
     let x : MCtx := { labY with l := l }
     s.pick = (s, .mcc 0) ∧ s.mcc? 0 = some labM ∧ s.mccMay labM = true ∧
       ({ (s.updMcc 0 (fun m => { m with stat := .running })) with cur := .mcc 0, used := (0, 4, 0) :: s.used } : State).running = some x ∧
       ∃ bs, ({ (s.updMcc 0 (fun m => { m with stat := .running })) with cur := .mcc 0, used := (0, 4, 0) :: s.used } : State).fetchAt x.l x.m.pc.toNat = .ok bs ∧
         decide (decode (dctxOfMcc x) bs = .ok (.xadd none 1 (.x 2) (.imm (-1)))) = true) := by
  refine ⟨rfl, ⟨rfl, rfl⟩, ⟨rfl, rfl⟩, ?_, ?_, ⟨rfl, ?_, ?_, rfl, ?_, rfl, ?_⟩, ⟨rfl, ?_, ?_, rfl, ok_and ?_⟩⟩
  · rintro _ (rfl | rfl)
    · exact ⟨rfl, rfl, rfl, by decide +kernel, by decide +kernel, rfl, by decide +kernel, rfl, ok_and (by decide +kernel), by decide +kernel⟩
    · exact ⟨rfl, rfl, rfl, by decide +kernel, by decide +kernel, rfl, by decide +kernel, rfl, ok_and (by decide +kernel), by decide +kernel⟩
  all_goals decide +kernel

theorem witness_DecodeYieldsWellFormed : decode {} (bytesOf [0x00041DC1, 0x00000002, 0x02C00008]) = .ok (.ld hd (.v 4) { mg with base := .v 2, offs := 8, size := .b64, order := .acq } false) := by
  decide +kernel

/-- A long form with a literal, a compact one, and one of the MCC. -/
theorem witness_RoundTrip :
    (let i : Instr := .ffma { hd with lit := some 0x3F800000 } (.v 0) (.v 1) (.v 2) .lit (.mode .rz) ⟨false, false, false, false⟩ false
     i.wf = true ∧ Allowed {} i ∧ encode i = some [0x02001D0F, 0x07FC0401, 0, 0x3F800000, 0]) ∧
    ((Instr.braC ⟨false, true, 2, none⟩ 0x1FFFD).wf = true ∧ Allowed {} (.braC ⟨false, true, 2, none⟩ 0x1FFFD) ∧ encode (.braC ⟨false, true, 2, none⟩ 0x1FFFD) = some [0xFFFEA808]) ∧
    ((Instr.xadd none 1 (.x 2) (.imm (-1))).wf = true ∧ Allowed inMcc (.xadd none 1 (.x 2) (.imm (-1))) ∧
      encode (.xadd none 1 (.x 2) (.imm (-1))) = some [0x00011EC1, 0x000005DF, 0]) := by
  unfold Allowed
  refine ⟨?_, ?_, ?_⟩ <;> decide +kernel

/-! ### Further clauses -/

/-- A barrier open with every thread expected, one that closes when a thread leaves, and a gang barrier. -/
theorem witness_CoursesGoOnOrEnd_exit :
    (lab.block? placeKey = some labB ∧ lab.thread? placeKey 0 = some (labT 0) ∧ lab.launch? placeKey.part placeKey.lnum = some labL) ∧
    (let low : Barrier → Barrier := fun x => if x.isOpen = true ∧ x.cnt = 0 then { x with exp := x.exp - 1 } else x
     let o : Barrier := { arr := 0, exp := 2, cnt := 0, isOpen := true }
     (∀ i, i < 16 → (low (labB.barrier i)).isOpen = true → (low (labB.barrier i)).arr < (low (labB.barrier i)).exp) ∧
     (∀ i, i < 16 → (low (({ labB with bars := [o] } : Block).barrier i)).isOpen = true →
       (low (({ labB with bars := [o] } : Block).barrier i)).arr < (low (({ labB with bars := [o] } : Block).barrier i)).exp) ∧
     (aget? [((0 : Nat), o)] 0 = some o ∧ o.isOpen = true ∧ o.arr < o.exp - 1) ∧ (aget? labL.gbars 0).any (fun x => x.isOpen) = false) := by
  refine ⟨⟨rfl, rfl, rfl⟩, ?_, ?_, ?_, ?_⟩ <;> decide +kernel

/-- No bin for the PC; one that takes the thread; one that it fills. -/
theorem witness_CoursesGoOnOrEnd_file :
    let fit : Bin → Bool := fun x => x.core == labB.core && x.slot == labB.slot && x.producer == labL.d.isProducer 0 && x.key == 0x4000 &&
      decide (x.threads.length < 32)
    (∀ c ∈ lab.blocks, c.core = labB.core → ∀ t ∈ c.threads, t.stat ≠ .unfiled) ∧
    (lab.bins.any fit = false ∧ (lab.bins.filter (fun x => x.core == labB.core)).length < 16) ∧
    (fit labBin = true ∧ labBin.threads.length < 31) ∧
    (let b : Bin := { labBin with threads := (List.range 31).map (fun n => (n + 1, 0)) }
     fit b = true ∧ b.threads.length = 31 ∧ lab.blockAt? labB.core labB.slot = some labB ∧ (lab.courses.filter (fun c => c.core == labB.core)).length < 128) := by
  refine ⟨?_, ?_, ?_, ?_⟩ <;> decide +kernel

/-- The arrival that closes a phase, while thread 1 waits. -/
theorem witness_BarriersCollectAndRelease_waiter :
    let w : Wait := { waits .bar 0 0 none with bar := 15 }
    let b : Block := { labB with bars := List.replicate 15 Barrier.idle ++ [{ arr := 1, exp := 2, cnt := 0, isOpen := true }]
                                 threads := [labT 0, { labT 1 with stat := .waiting w }] }
    let s : State := { lab with blocks := [b] }
    s.block? placeKey = some b ∧ (b.barrier 15).isOpen = true ∧ (b.barrier 15).exp ≤ (b.barrier 15).arr + 1 ∧ b.atBarrier 15 = [1] ∧
      s.thread? placeKey 1 = some { labT 1 with stat := .waiting w } := by decide +kernel

/-- At the foot of the scratchpad, at its last 16 bytes, beyond them, below it, and misaligned. -/
theorem witness_XbarBarriers_bytes :
    lab.block? labX.b.key = some labB ∧ lab.releasable (labX.agent 0) .dev = true ∧
    (let at_ : Nat → BitVec 20 → Int := fun v offs => (v : Nat) + offs.toInt
     (at_ 0 0 % 16 = 0 ∧ 0 ≤ at_ 0 0 ∧ at_ 0 0 + 16 ≤ labX.l.d.scratch) ∧ (at_ 65520 0 % 16 = 0 ∧ at_ 65520 0 + 16 ≤ labX.l.d.scratch) ∧
     (at_ 65536 0 % 16 = 0 ∧ (labX.l.d.scratch : Int) < at_ 65536 0 + 16) ∧ (at_ 0 0xFFFF0 % 16 = 0 ∧ at_ 0 0xFFFF0 < 0) ∧ at_ 1 0 % 16 ≠ 0) := by
  refine ⟨rfl, ?_, ?_⟩ <;> decide +kernel
/-- A descriptor at hand, one that is read, a block with no place left; an offset that is aligned, and one that is not. -/
theorem witness_StreamPortsMove_binds :
    (labS.block? labSX.b.key = some labSB ∧ labSB.descs.length ≤ 16 ∧ labSB.descs.find? (fun e => e.addr == 0x100) = some { addr := 0x100, bytes := labDesc } ∧
      descBad labDesc = false ∧ descBad (zeros 64) = true ∧ (SDesc.of labDesc).idx = false ∧ patternAligned (SDesc.of labDesc) 0 = true ∧
      patternAligned (SDesc.of labDesc) 1 = false) ∧
    (let s : State := { lab with mem := Memory.write (placeTables []) 0x100 labDesc }
     labB.descs.find? (fun e => e.addr == 0x100) = none ∧ s.block? labX.b.key = some labB ∧
     ∃ r, readDesc s labX 0 0x100 = .ok r ∧ (!descBad r.1 && !(SDesc.of r.1).idx && patternAligned (SDesc.of r.1) 0 &&
       ((r.2.block? labX.b.key).map (fun b1 => decide (b1.descs.length < 16))).getD false) = true) ∧
    (let b : Block := { labB with descs := (List.range 16).map (fun n => { addr := BitVec.ofNat 64 (0x1000 + 64 * n), bytes := labDesc }) }
     let s : State := { lab with mem := Memory.write (placeTables []) 0x100 labDesc, blocks := [b] }
     b.descs.find? (fun e => e.addr == 0x100) = none ∧ b.descs.length ≤ 16 ∧
     ∃ r, readDesc s { labX with b := b } 0 0x100 = .ok r ∧ (!descBad r.1 && !(SDesc.of r.1).idx &&
       ((r.2.block? labX.b.key).map (fun b1 => decide (16 ≤ b1.descs.length))).getD false) = true) := by
  refine ⟨?_, ⟨rfl, rfl, ok_and ?_⟩, ⟨?_, ?_, ok_and ?_⟩⟩ <;> decide +kernel

/-- A pop of what was read ahead, a pop that reads, a push within the length and one beyond it. -/
theorem witness_StreamPortsMove_pops :
    (labST.port 0).bound = true ∧ labS.block? labSX.b.key = some labSB ∧ labSX.c.frame = none ∧
    (∃ e, labSX.b.desc (labST.port 0).desc = some e ∧ labSB.desc (labST.port 0).desc = some e ∧ e.dir ≠ 1 ∧ e.dir ≠ 0 ∧ e.idx = false ∧
      (labST.port 0).rpos.toNat < streamLength labSX.b e (labST.port 0) ∧ (labST.port 0).wpos.toNat < streamLength labSX.b e (labST.port 0) ∧
      streamLength labSX.b e { labPort with wpos := 4 } ≤ 4 ∧
      (labST.port 0).pre.find? (fun y => y.1 == (labST.port 0).rpos) = none ∧
      (({ labPort with pre := [(0, 7)] } : Port).pre.find? (fun y => y.1 == (0 : W64))) = some (0, 7)) ∧
    (∃ e a z loc wk bs s1 s2, labSX.b.desc (labST.port 0).desc = some e ∧
      elemAddr labS labSX 0 rankPop rankPopPoison 0 false e (labST.port 0) 0 = .ok (a, z, s1) ∧
      elemLoc s1 labSX.b labSX.l rankPop 0 false false 0 e.own a e.size = .ok (loc, wk) ∧
      readElem (s1.noteLeaf labSX.b.key.part wk) labSX 0 rankPopPoison loc wk a.toNat e.size (decide (e.cache ≥ 3)) = .ok (bs, s2)) ∧
    (∃ e a z loc wk s1, labSX.b.desc (labST.port 0).desc = some e ∧
      elemAddr labS labSX 0 rankPush rankPushPoison 0 true e (labST.port 0) 0 = .ok (a, z, s1) ∧
      elemLoc s1 labSX.b labSX.l rankPush 0 true false 0 e.own a e.size = .ok (loc, wk)) := by
  refine ⟨rfl, rfl, rfl, ⟨_, rfl, rfl, ?_⟩, ⟨_, _, _, _, _, _, _, _, rfl, rfl, rfl, rfl⟩, ⟨_, _, _, _, _, _, rfl, rfl, rfl⟩⟩
  decide +kernel
/-- A line in the scratchpad and one in memory; an add to a peer that can go; an eviction where the L2 has room, and one where a line other than its own is there. -/
theorem witness_AccumulatorsMeetMemory_lines :
    (let m : MemF := { mo with base := .v 4, size := .b8 }
     placeOf labX m [0] = .scr placeKey 0 ∧
     (∀ opc ∈ [0x95, 0x96, 0x97], ∃ a, checkPlace lab labX (placeOf labX m [0]) (aux2Of opc (spaceOf m) (roleOf m [0]) true)
        { n := 128, rd := decide (opc ≠ 0x95), wr := true, add := decide (opc ≠ 0x95) } = .ok a)) ∧
    (let m : MemF := { mg with base := .v 4, size := .b8 }
     placeOf labX m [0x1000] = .glob 0x1000 ∧
     (∀ opc ∈ [0x95, 0x96, 0x97], ∃ a, checkPlace lab labX (placeOf labX m [0x1000]) (aux2Of opc (spaceOf m) (roleOf m [0x1000]) true)
        { n := 128, rd := decide (opc ≠ 0x95), wr := true, add := decide (opc ≠ 0x95) } = .ok a)) ∧
    (let p := pendOf (.peer 1023 0) (.add Acc.zero false)
     (labP p).pend.find? (fun q => q.n == p.n) = some p ∧ (labP p).mayPerform p = true ∧ (∃ t, exec (.accessPerformed p.n) (labP p) = .next t)) ∧
    ((∀ p ∈ labAP.parts, p.line = 3) ∧
      (let s : State := { labAP with parts := labAP.parts ++ [{ line := 4, die := 0, acc := Acc.zero }] }
       (∃ p ∈ s.parts, p.line = 3 ∧ p.die = 1) ∧ 2 * (s.dirty.length + s.parts.length) + s.hostLines.length ≤ l2Units)) := by
  refine ⟨⟨rfl, ?_⟩, ⟨rfl, ?_⟩, ⟨rfl, ?_, ⟨_, rfl⟩⟩, ?_, ⟨_, List.mem_cons_self .., rfl, rfl⟩, ?_⟩
  · intro opc h
    simp only [List.mem_cons, List.not_mem_nil, or_false] at h
    rcases h with rfl | rfl | rfl <;> exact ⟨_, rfl⟩
  · intro opc h
    simp only [List.mem_cons, List.not_mem_nil, or_false] at h
    rcases h with rfl | rfl | rfl <;> exact ok_of (by decide +kernel)
  all_goals decide +kernel
/-- Two wrong rows, where the launch votes, where a thread takes the trap, and where the block is contained; segments that step to the next tile of a row and to the next row. -/
theorem witness_MultipliesDrainExactly_rows :
    (let f : Sys2Proof.FlashFault := { errs := [.cell 31 0 1 0, .cell 0 5 1 0], sticky := false, unit := 0 }
     let g := labY.stage mulf 0 0 0 none
     let m : Mcc := { labM with staging := [g] }
     let ls : List Launch := [{ labL with d := { labL.d with trelvy := true } }, labL, { labL with d := { labL.d with handlers := [] } }]
     (∀ l ∈ ls, let s : State := { labMm m with launches := [l] }
       ∃ x, s.mctx 0 = some x ∧ x.m = m ∧ x.l = l ∧ s.mccs.filter (fun c => c.core == 0) = [x.m] ∧ s.scoreOf 0 < 60 ∧ x.b.sdcThread ≠ none) ∧
     (∀ z, m.stat ≠ .sdc z) ∧ m.stat ≠ .vote ∧ g.joint = none ∧ g.m.side ≤ 32 ∧ 31 < g.m.side ∧ (31 : Nat) ≠ 0 ∧ residue 1 0 % flashM ≠ 0 ∧
     f.errs = [.cell 31 0 1 0, .cell 0 5 1 0] ∧ ls.map (fun l => (l.d.trelvy, l.handler .sdc == 0, l.stat)) =
       [(true, false, .started), (false, false, .started), (false, true, .started)]) ∧
    (let e := WDesc.of (zeros 32 ++ natLE 4 1 ++ [2, 2] ++ zeros 26)
     let c : Mcc := { labM with mdone := 1 }
     c.mdone.toNat + 1 = 2 ^ e.segLen c.mseg.toNat ∧ e.segs ≤ c.mseg.toNat + 1 ∧ c.mcol.toNat + 1 < e.tcols ∧
     e.tcols ≤ ({ c with mcol := 1 } : Mcc).mcol.toNat + 1 ∧ c.mrow.toNat + 1 < e.trows) := by
  refine ⟨⟨?_, ?_, ?_, ?_, ?_, ?_, ?_, ?_, ?_, ?_⟩, ?_⟩
  · intro l h
    simp only [List.mem_cons, List.not_mem_nil, or_false] at h
    rcases h with rfl | rfl | rfl <;> exact ⟨_, rfl, rfl, rfl, by decide +kernel, by decide +kernel, by decide +kernel⟩
  · intro z h; cases h
  all_goals decide +kernel
/-- A timing event, and another one, as the counter's selection. -/
theorem witness_ObservationInstructions_own :
    (let s := lab.setReg 0x200020 7
     timingEvent ((s.oreg labX.b.key.part (8 * (3 : BitVec 2).toNat)).toNat / 2 ^ (8 * (7 : BitVec 3).toNat) % 2 ^ 8) = false ∧
       timingEvent 0x06 = true ∧ timingEvent 0x02 = false) ∧
    (∀ r ∈ (labR labPt).rollbacks, (0 : Nat) ∉ r.discard) := by
  refine ⟨?_, ?_⟩ <;> decide +kernel

/-- A unit asked to vacate while its course is under way, and one whose block is at rest. -/
theorem witness_LaunchesRunTheirCourse_vacate :
    (∃ l, lab3.launch? 0 1 = some l ∧ [0] ≠ ([] : List Nat) ∧ ([0] : List Nat).Nodup ∧ [0x2000000].length = [0].length * l.d.unitSize ∧
      (∀ a ∈ [0x2000000], a ≠ 0 ∧ a % 64 = 0) ∧
      (let t := (([0].flatMap (fun u => lab3.unitResident l u)).flatMap (·.agents)).foldl (fun t a => t.settle a) lab3
       l.gangsQuiet [0] = true ∧ (∀ u ∈ [0], ∀ b ∈ t.unitResident l u, t.blockAtRest b = true) ∧ t.imageSnoops l [0] [0x2000000] = [] ∧ 0 < l.d.unitSize)) ∧
    (let s : State := { lab3 with courses := lab3.courses.map (fun c => { c with chain := 1 }) }
     ∃ l, s.launch? 0 1 = some l ∧
      (let t := (([0].flatMap (fun u => s.unitResident l u)).flatMap (·.agents)).foldl (fun t a => t.settle a) s
       ¬(∀ u ∈ [0], ∀ b ∈ t.unitResident l u, t.blockAtRest b = true))) := by
  refine ⟨⟨_, rfl, ?_⟩, ⟨_, rfl, ?_⟩⟩ <;> decide +kernel

/-- An image of the first block: its threads as it holds them; no MCC is on its core. -/
theorem witness_LaunchesRunTheirCourse_image : ∃ l ∈ lab5.launch? 0 1, ∃ v ∈ l.saved,
      (∃ t ∈ (readThreads (lab5.imageReader v.image) l.d lab5.events).1, t.t.tl < l.d.threads) ∧
      (let ts := (readThreads (lab5.imageReader v.image) l.d lab5.events).1
       (ts.map (·.t.tl)).Nodup ∧ ∀ m ∈ lab5.mccs, m.core ≠ bind1.core) := by decide +kernel
/-- A ring that can be written; one in host memory; one whose next line the host caches; one that cannot be used, with and without room behind it. -/
theorem witness_SupervisorAnswersCauses_ring :
    (∀ n : Nat, n = 4094 ∨ n = 4095 ∨ n = 4096 → (labGq (BitVec.ofNat 64 n)).ringStop = none) ∧
    (let s := (labGq 0).setReg 0x100 (2 ^ 48)
     s.gqUnusable = false ∧ (s.physLoc ((gqBase s).toNat + 64 * ((gqTail s).toNat % 4096)) = .host 0)) ∧
    (let s : State := { labGq 0 with hdmHost := [2048] }
     s.gqUnusable = false ∧ s.ringStop ≠ none ∧ s.gheld.length < 256) ∧
    (lab.gqUnusable = true ∧ ({ labGq 0 with gqBroken := true } : State).gqUnusable = true ∧ lab.gheld.length < 256 ∧
      256 ≤ (List.replicate 256 (GRec.plate 0x0300)).length) := by
  refine ⟨?_, ?_, ?_, ?_⟩
  · rintro _ (rfl | rfl | rfl) <;> decide +kernel
  all_goals decide +kernel

/-- A vote that is awaited; a launch that is contained; a page with a snapshot; a line that a die alone holds modified. -/
theorem witness_ErrorsAreRecordedAndContained_ends :
    (let m : Mcc := { labM with stat := .vote, staging := [labVote.op] }
     let s : State := { labMm m with votes := [labVote] }
     s.mctx 0 = some (labYm m) ∧ s.votes.find? (fun w => w.core == 0) = some labVote ∧ (labYm m).m.stat = .vote ∧ s.scoreOf 0 < 56 ∧
       s.physCore 1 ≠ s.physCore 0 ∧ s.mccs.filter (fun c => c.core == 0) = [m] ∧ 0 < labVote.op.m.side ∧ labVote.op.row0 + labVote.op.m.side ≤ 32 ∧
       labVote.op.col0 + labVote.op.m.side ≤ 32 ∧ (labYm m).l.stat = .started ∧ s.scoreOf 1 < 60) ∧
    (lab.launch? 0 1 = some labL ∧ labL.stat = .started ∧ lab.part? 0 = some (Partition.fresh 0) ∧ (Partition.fresh 0).rpc = 0 ∧
      (∀ u ∈ lab.und, u.snapOf ≠ some (0, 1)) ∧ labL.contained < max 1 (lab.preg 0 0x10).toNat) ∧
    (let s : State := { labPg with und := labPg.und.map (fun u => { u with snapOf := some (0, 1), snap := some 0x400000 }) }
     (s.und.map (·.base)).Nodup ∧ ∃ u ∈ s.und, u.snapOf = some (0, 1) ∧ u.snap = some 0x400000) ∧
    (let s : State := { lab with dirty := [(5, 3)] }
     s.parts = [] ∧ (5, 3) ∈ s.dirty ∧ s.durableLine 5 = false ∧ (∃ p ∈ labAP.parts, p.die = 1) ∧
       (∃ c, c < 768 ∧ dieOf c = 0 ∧ s.coreIn 0 c = true)) := by
  refine ⟨⟨rfl, ?_⟩, ?_, ?_, ⟨rfl, ?_, ?_, ?_, ⟨0, ?_⟩⟩⟩ <;> decide +kernel

/-- A walk that finds its leaf; a store that no cache holds. -/
theorem witness_TranslationsAndLines_walk :
    (∃ e b size pa, lab.xlate 0 (vaBits 0x1000) = .leaf e b size pa ∧ 0 < size) ∧ lab.part? 0 = some (Partition.fresh 0) ∧ lab.parts = [] ∧
    lab.mem.wf = true ∧ (∀ d ∈ lab.dirty, d.1 ≠ 0x1000 / 128) := by
  refine ⟨⟨_, _, _, _, rfl, ?_⟩, ?_, ?_, ?_, ?_⟩ <;> decide +kernel

/-- A peer to which no route is up. -/
theorem witness_LinkAndAttestation_unreachable : ({ lab with topo := [(1023, 15)] } : State).reachable 1023 = false := by decide +kernel

/-- A value that a register keeps as it was. -/
theorem witness_OwnershipIsClaimed_keep : lab.regWrite 0x2038 7 = .keep := by decide +kernel
/-- The core cycle that comes from outside, and what is programmed from there. -/
theorem witness_StepRunsDecoded_control :
    (({ lab with inbox := [.cycle] } : State).pick = (lab, .cycle)) ∧
    (({ lab with inbox := [.control (.encrypt 3 0 true)] } : State).pick = (lab, .control (.encrypt 3 0 true))) ∧
    (lab.power = true ∧ (lab.reg 0x400).toNat / 16 ≠ 1) := by
  refine ⟨rfl, rfl, rfl, ?_⟩
  decide +kernel
end Sys2Proof.Tests
end

section
/-!
SUPPORT and the settlement of O32: sums in a long accumulator (04 R102 to R105), as one sum of exact integers reduced once, an or of flags, and a
number of terms; none of which depends on order or grouping.
-/

namespace Sys2Proof.Machine

/-! ### The reduction of R102 -/

theorem accWrap_of_range {x : Int} (low : -(2 ^ 639) ≤ x) (high : x < 2 ^ 639) : accWrap x = x :=
  BitVec.toInt_ofInt_eq_self (by decide) low high

theorem accWrap_of_abs_le {x b : Int} (h : |x| ≤ b) (hb : b < 2 ^ 639) : accWrap x = x :=
  have inside := abs_lt.1 (h.trans_lt hb)
  accWrap_of_range inside.1.le inside.2

theorem accWrap_zero : accWrap 0 = 0 := accWrap_of_abs_le abs_zero.le (by positivity)

theorem accWrap_accWrap_add (x y : Int) : accWrap (accWrap x + y) = accWrap (x + y) := by
  simp only [accWrap, BitVec.toInt_ofInt, Int.bmod_add_bmod]

theorem accWrap_add_accWrap (x y : Int) : accWrap (x + accWrap y) = accWrap (x + y) := by
  simp only [accWrap, BitVec.toInt_ofInt, Int.add_bmod_bmod]

theorem accWrap_accWrap (x : Int) : accWrap (accWrap x) = accWrap x := by
  simp only [accWrap, BitVec.toInt_ofInt, Int.bmod_bmod]

/-! ### One addition -/

/-- The integer that a term adds to an accumulator's value; a special term adds none (R103). -/
def addend : FVal → Int
  | .fin s m e => termOf s m e
  | _ => 0

/-- A finite term no finer than the accumulator's resolution loses no bit. -/
theorem abs_addend_fin (s : Bool) (m : Nat) (e : Int) (h : -320 ≤ e) : |addend (.fin s m e)| = ((m * 2 ^ (e + 320).toNat : Nat) : Int) := by
  have hs : e + 320 ≥ 0 := by omega
  have nonneg : (0 : Int) ≤ (m : Int) * 2 ^ (e + 320).toNat := by positivity
  cases s <;> simp [addend, termOf, hs, abs_of_nonneg nonneg]

variable (k a : Acc) (t : FVal) (z : Bool)

/-- A value in the range grows by the term, reduced into the range. -/
theorem Acc.add_val (h : accWrap k.val = k.val) : (k.add t z).val = accWrap (k.val + addend t) := by
  rcases t with _ | (_ | _) | _ <;> simp [Acc.add, Acc.hold, addend, h]

theorem Acc.add_ovf (h : accWrap (k.val + addend t) = k.val + addend t) : (k.add t z).ovf = k.ovf := by
  rcases t with _ | (_ | _) | ⟨s, m, e⟩
  case fin => simp [Acc.add, Acc.hold, show accWrap (k.val + termOf s m e) = k.val + termOf s m e from h]
  all_goals rfl

theorem Acc.add_nan : (k.add t z).nan = (k.nan || t.isNan) := by
  rcases t with _ | (_ | _) | _ <;> simp [Acc.add, Acc.hold, FVal.isNan]

theorem Acc.add_pinf : (k.add t z).pinf = (k.pinf || decide (t = .inf false)) := by
  rcases t with _ | (_ | _) | _ <;> simp [Acc.add, Acc.hold]

theorem Acc.add_ninf : (k.add t z).ninf = (k.ninf || decide (t = .inf true)) := by
  rcases t with _ | (_ | _) | _ <;> simp [Acc.add, Acc.hold]

theorem Acc.add_poison : (k.add t z).poison = (k.poison || false) := by
  rcases t with _ | (_ | _) | _ <;> simp [Acc.add, Acc.hold]

theorem Acc.add_count : (k.add t z).count = k.count + 1 := by
  rcases t with _ | (_ | _) | _ <;> rfl

theorem Acc.plus_val : (k.plus a z).val = accWrap (k.val + a.val) := by rw [Acc.plus, Acc.hold]

theorem Acc.plus_count : (k.plus a z).count = k.count + a.count := rfl

theorem Acc.plus_ovf (h : accWrap (k.val + a.val) = k.val + a.val) : (k.plus a z).ovf = (k.ovf || a.ovf) := by
  simp [Acc.plus, Acc.hold, Acc.orFlags, h]

/-! ### Several additions -/

/-- The terms of a list added one after the other. -/
def Acc.addAll (k : Acc) (ts : List FVal) (z : Bool) : Acc := ts.foldl (fun c t => c.add t z) k

variable (ts us ws : List FVal)

@[simp] theorem Acc.addAll_nil : k.addAll [] z = k := rfl

@[simp] theorem Acc.addAll_cons : k.addAll (t :: ts) z = (k.add t z).addAll ts z := rfl

theorem Acc.addAll_val (h : accWrap k.val = k.val) : (k.addAll ts z).val = accWrap (k.val + (ts.map addend).sum) := by
  induction ts generalizing k with
  | nil => simp [h]
  | cons t ts ih =>
    have step := k.add_val t z h
    rw [addAll_cons, ih _ (by rw [step, accWrap_accWrap]), step, accWrap_accWrap_add, List.map_cons, List.sum_cons, add_assoc]

theorem Acc.addAll_count : (k.addAll ts z).count = k.count + BitVec.ofNat 32 ts.length := by
  induction ts generalizing k with
  | nil => simp
  | cons t ts ih =>
    rw [addAll_cons, ih, add_count, List.length_cons, Nat.add_comm, BitVec.ofNat_add, BitVec.add_assoc]
    rfl

/-- A flag that an addition raises where its term says so is raised by a list where one of its terms says so. -/
theorem Acc.addAll_flag (flag : Acc → Bool) (raises : FVal → Bool) (h : ∀ c t, flag (c.add t z) = (flag c || raises t)) :
    flag (k.addAll ts z) = (flag k || ts.any raises) := by
  induction ts generalizing k with
  | nil => simp
  | cons t ts ih => rw [addAll_cons, ih, h, List.any_cons, Bool.or_assoc]

/-- Where the magnitudes together stay below the range's end, no partial sum leaves the range: no addition raises OVF, and the value stays
within the magnitudes. -/
theorem Acc.addAll_within (h : |k.val| + (ts.map (fun t => |addend t|)).sum < 2 ^ 639) :
    (k.addAll ts z).ovf = k.ovf ∧ |(k.addAll ts z).val| ≤ |k.val| + (ts.map (fun t => |addend t|)).sum := by
  induction ts generalizing k with
  | nil => simp
  | cons t ts ih =>
    have rest : 0 ≤ (ts.map (fun t => |addend t|)).sum := List.sum_nonneg (by simp)
    rw [List.map_cons, List.sum_cons] at h ⊢
    have one : |k.val + addend t| ≤ |k.val| + |addend t| := abs_add_le _ _
    have fits : accWrap (k.val + addend t) = k.val + addend t := accWrap_of_abs_le (by linarith only [one, rest]) h
    have val : (k.add t z).val = k.val + addend t := by
      rw [k.add_val t z (accWrap_of_abs_le (by linarith only [abs_nonneg (addend t), rest]) h), fits]
    obtain ⟨ovf, bound⟩ := ih (k.add t z) ((by rw [val]; linarith only [one] : _ ≤ _).trans_lt h)
    rw [val] at bound
    exact ⟨by rw [addAll_cons, ovf, k.add_ovf t z fits], bound.trans (by linarith only [one])⟩

/-! ### Order and grouping (R105) -/

variable {ts us ws} (hp : (ts ++ us).Perm ws)
include hp

theorem sum_map_of_perm (g : FVal → Int) : (ws.map g).sum = (ts.map g).sum + (us.map g).sum := by
  rw [← (hp.map g).sum_eq, List.map_append, List.sum_append]

/-- The value is the one sum of all addends, reduced once. -/
theorem Acc.val_of_perm (h : accWrap k.val = k.val) :
    (k.addAll ws z).val = ((k.addAll ts z).plus (Acc.zero.addAll us z) z).val := by
  rw [plus_val, k.addAll_val z ws h, k.addAll_val z ts h, Acc.zero.addAll_val z us accWrap_zero, accWrap_accWrap_add, accWrap_add_accWrap,
    sum_map_of_perm hp]
  simp [Acc.zero, add_assoc]

theorem Acc.count_of_perm : (k.addAll ws z).count = ((k.addAll ts z).plus (Acc.zero.addAll us z) z).count := by
  rw [plus_count, addAll_count, addAll_count, addAll_count, ← hp.length_eq, List.length_append, BitVec.ofNat_add]
  simp [Acc.zero, BitVec.add_assoc]

/-- A flag that additions and sums only or together. -/
theorem Acc.flag_of_perm (flag : Acc → Bool) (raises : FVal → Bool) (hadd : ∀ c t, flag (c.add t z) = (flag c || raises t))
    (hplus : ∀ c a, flag (c.plus a z) = (flag c || flag a)) (hzero : flag Acc.zero = false) :
    flag (k.addAll ws z) = flag ((k.addAll ts z).plus (Acc.zero.addAll us z) z) := by
  rw [hplus, k.addAll_flag z ws flag raises hadd, k.addAll_flag z ts flag raises hadd, Acc.zero.addAll_flag z us flag raises hadd, hzero,
    ← hp.any_eq, List.any_append, Bool.false_or, Bool.or_assoc]

/-- Neither order raises OVF where no partial sum of either can leave the range. -/
theorem Acc.ovf_of_perm (h : |k.val| + (ws.map (fun t => |addend t|)).sum < 2 ^ 639) :
    (k.addAll ws z).ovf = ((k.addAll ts z).plus (Acc.zero.addAll us z) z).ovf := by
  have split := sum_map_of_perm hp (fun t => |addend t|)
  have nonneg : ∀ l : List FVal, 0 ≤ (l.map (fun t => |addend t|)).sum := fun l => List.sum_nonneg (by simp)
  have zero : |Acc.zero.val| = 0 := rfl
  obtain ⟨all, -⟩ := k.addAll_within z ws h
  obtain ⟨left, leftBound⟩ := k.addAll_within z ts ((by linarith only [split, nonneg us] : _ ≤ _).trans_lt h)
  obtain ⟨right, rightBound⟩ := Acc.zero.addAll_within z us ((by linarith only [zero, split, nonneg ts, abs_nonneg k.val] : _ ≤ _).trans_lt h)
  have sum := abs_add_le (k.addAll ts z).val (Acc.zero.addAll us z).val
  have fits := accWrap_of_abs_le (sum.trans (by linarith only [leftBound, rightBound, zero, split])) h
  rw [plus_ovf _ _ _ fits, all, left, right]
  simp [Acc.zero]

end Sys2Proof.Machine

namespace Sys2Proof.Claims

open Sys2Proof.Machine

/-- Settles O32: value, flags and count of a sum are a sum, ors and a number over all its terms, and below the range's end every addition
is exact. -/
theorem sumsDependOnNoOrder : Obligations.SumsDependOnNoOrder := by
  intro k ts us ws z hp hres low high
  refine ⟨k.val_of_perm z hp (accWrap_of_range low high), k.flag_of_perm z hp Acc.nan _ (Acc.add_nan · · z) (fun _ _ => rfl) rfl,
    k.flag_of_perm z hp Acc.pinf _ (Acc.add_pinf · · z) (fun _ _ => rfl) rfl,
    k.flag_of_perm z hp Acc.ninf _ (Acc.add_ninf · · z) (fun _ _ => rfl) rfl,
    k.flag_of_perm z hp Acc.poison _ (Acc.add_poison · · z) (fun _ _ => rfl) rfl, k.count_of_perm z hp, fun small => ?_⟩
  refine k.ovf_of_perm z hp ?_
  have same : ws.map (fun t => |addend t|) =
      ws.map (fun t => match t with | .fin _ m e => ((m * 2 ^ (e + 320).toNat : Nat) : Int) | _ => 0) := by
    refine List.map_congr_left (fun t ht => ?_)
    rcases t with _ | _ | ⟨s, m, e⟩
    case fin => exact abs_addend_fin s m e (hres m s e ht)
    all_goals rfl
  rw [same, Int.abs_eq_natAbs]
  exact small

end Sys2Proof.Claims
end

section
/-!
SUPPORT and the settlement of O18: WAIT tests the stamp of each lane, and a waiting thread's stamp is tested again (01 R19, R20; 08 R187).
-/

namespace Sys2Proof.Machine

/-- An instruction none of whose lanes stops completes by what it does with what they computed (R111). -/
theorem lanesWith_next (s : State) (x : Ctx) (sh : Shape) (f : LaneFn) (fin : Ctx → List LaneOut → State → State) (h : Goes s x sh f) :
    s.lanesWith sh f fin = .next (fin x (runLanes sh f x s).outs (runLanes sh f x s).s) := by
  simp [State.lanesWith, State.onCourse, h.issues, h.go]

/-! ### One lane of WAIT -/

/-- Where a lane of WAIT finds its stamp. -/
def waitPlace (sp : Bool) (c : Ctx) (v : List Nat) : Place := if sp then .scr c.b.key (v.headD 0 : Nat) else .glob (v.headD 0)

/-- The stamp as a lane of WAIT reads it at `p`, with the state after the read. -/
def waitStamp (c : Ctx) (st : State) (t : Thread) (p : At) : Nat × State :=
  (st.noteLeaf c.b.key.part p.w).stampAt (some (c.agent t.tl)) p.loc

/-- What a lane of WAIT leaves its thread waiting for. -/
def waitFor (i : Instr) (st : State) (v : List Nat) (p : At) : Wait :=
  waitAt st .wait i (BitVec.ofNat 64 (v.headD 0)) (BitVec.ofNat 64 (v.getD 1 0)) 0 (some p.loc)

/-- The result of a lane of WAIT by its stamp at `p`. -/
def waitResult (i : Instr) (c : Ctx) (st : State) (t : Thread) (v : List Nat) (p : At) : LaneRes :=
  if (waitStamp c st t p).1 ≥ v.getD 1 0 then LaneRes.value 1
  else { LaneRes.value 0 with th := fun th => { th with stat := .waiting (waitFor i st v p) } }

theorem waitResult_of_reached {i : Instr} {c : Ctx} {st : State} {t : Thread} {v : List Nat} {p : At}
    (h : v.getD 1 0 ≤ (waitStamp c st t p).1) : waitResult i c st t v p = LaneRes.value 1 := if_pos h

theorem waitResult_of_early {i : Instr} {c : Ctx} {st : State} {t : Thread} {v : List Nat} {p : At}
    (h : (waitStamp c st t p).1 < v.getD 1 0) :
    waitResult i c st t v p = { LaneRes.value 0 with th := fun th => { th with stat := .waiting (waitFor i st v p) } } :=
  if_neg (Nat.not_le_of_lt h)

/-- A lane of WAIT checks its place, then tests the stamp there. -/
theorem waitLane_eq (i : Instr) (sp : Bool) (c : Ctx) (st : State) (t : Thread) (v : List Nat) :
    waitLane i sp c st t v = (checkPlace st c (waitPlace sp c v) 0 { n := 8, rd := true, wr := false }).bind
      (fun p => .ok (waitResult i c st t v p, (waitStamp c st t p).2)) := by
  refine congrArg (Except.bind _) (funext fun p => ?_)
  by_cases reached : v.getD 1 0 ≤ (waitStamp c st t p).1
  · rw [waitResult_of_reached reached]
    exact if_pos reached
  · rw [waitResult_of_early (Nat.lt_of_not_le reached)]
    exact if_neg reached

/-- A lane of WAIT that does not trap has a place, and its result is by the stamp there. -/
theorem waitLane_ok {i : Instr} {sp : Bool} {c : Ctx} {st u : State} {t : Thread} {v : List Nat} {r : LaneRes}
    (h : waitLane i sp c st t v = .ok (r, u)) :
    ∃ p : At, checkPlace st c (waitPlace sp c v) 0 { n := 8, rd := true, wr := false } = .ok p ∧ r = waitResult i c st t v p := by
  rw [waitLane_eq] at h
  cases hp : checkPlace st c (waitPlace sp c v) 0 { n := 8, rd := true, wr := false } with
  | error e =>
    rw [hp] at h
    cases h
  | ok p =>
    rw [hp] at h
    cases h
    exact ⟨p, rfl, rfl⟩

/-! ### A stamp tested again -/

/-- A waiting thread whose stamp has reached its comparand departs as an acquire. -/
theorem retest_of_reached {s : State} {k : BKey} {tl : Nat} {th : Thread} {w : Wait} {l : Loc} (ht : s.thread? k tl = some th)
    (hs : th.stat = .waiting w) (hk : w.kind = .wait) (hl : w.loc = some l)
    (reached : (s.stampAt (some (.thread k tl)) l).1 ≥ w.x.toNat) :
    s.retest k tl = (s.stampAt (some (.thread k tl)) l).2.departAcq k tl := by
  simp [State.retest, ht, hs, hk, hl, reached]

theorem exec_stampReevaluate (core slot tl : Nat) (s : State) :
    exec (.stampReevaluate core slot tl) s = execStampReevaluate core slot tl s := rfl

/-- The event of a stamp that a thread waits on tests that thread's stamp. -/
theorem exec_stampReevaluate_thread {s : State} {core slot tl : Nat} {b : Block} (hn : tl ≠ 1024) (hb : s.blockAt? core slot = some b) :
    exec (.stampReevaluate core slot tl) s = .next (s.retest b.key tl) := by
  rw [exec_stampReevaluate]
  simp only [execStampReevaluate, hn, hb, if_false]

end Sys2Proof.Machine

namespace Sys2Proof.Claims

open Sys2Proof.Machine

/-- The shape of WAIT on a scratchpad or a global stamp. -/
def waitShape (h : Hd) (a y : Opnd) (sp : Bool) (scope : Scope) : Shape :=
  plain (.wait h a y sp scope) h (hdSize h) [(a, if sp then .w32 else .w64), (y, .w64)] none

/-- How WAIT ends: a lane whose condition holds goes on, any other waits, and all leave the course. -/
def waitEnd (sh : Shape) (x : Ctx) (outs : List LaneOut) (s : State) : State :=
  (writeLanes sh x outs s).partWays x sh.size
    (outs.map (fun o => (o.lane, o.tl, if o.res.val = 1 then none else (writeLanes sh x outs s).waitOf x.b.key o.tl))) true

theorem exec_wait (h : Hd) (a y : Opnd) (sp : Bool) (scope : Scope) (s : State) :
    exec (.wait h a y sp scope) s = s.lanesWith (waitShape h a y sp scope)
      (fun c st _ t v => waitLane (.wait h a y sp scope) sp c st t v) (waitEnd (waitShape h a y sp scope)) := rfl

/-- Settles O18: no lane stops, so WAIT parts its lanes by what each test gave; a lane's test, and a later one, go by the stamp as it reads. -/
theorem waitTestsStamps : Obligations.WaitTestsStamps := by
  intro s h a y sp scope
  refine ⟨fun x goes => (exec_wait h a y sp scope s).trans (lanesWith_next s x _ _ _ goes), ?_, ?_⟩
  · intro i c st u t v r hr
    obtain ⟨p, hp, rfl⟩ := waitLane_ok hr
    refine ⟨p, hp, fun reached => ?_, fun early => ?_⟩
    · rw [waitResult_of_reached reached]
      exact ⟨rfl, fun _ => rfl⟩
    · rw [waitResult_of_early early]
      exact ⟨rfl, fun _ => ⟨waitFor i st v p, rfl, rfl, rfl, rfl, rfl⟩⟩
  · intro core slot tl b th w l hn hb ht hs hk hl reached
    rw [exec_stampReevaluate_thread hn hb, retest_of_reached ht hs hk hl reached]

end Sys2Proof.Claims
end

section
/-!
SUPPORT. The integer arithmetic of the model in terms of bit vectors (R190).
-/

namespace Sys2Proof.Machine

open Sys2Proof.Claims

/-- A 32-bit source as an integer is the reading of its pattern. -/
theorem int32_eq_asInt (u : Bool) (x : Nat) : int32 u x = asInt u (BitVec.ofNat 32 x) := by
  cases u
  · rfl
  · simp [int32, asInt]

/-- A 64-bit source as an integer is the reading of its pattern. -/
theorem int64_eq_asInt (u : Bool) (x : Nat) : int64 u x = asInt u (BitVec.ofNat 64 x) := by
  cases u
  · rfl
  · simp [int64, asInt]

/-- The result of the model is the exact value, narrowed. -/
theorem intResult_eq_narrowed (w : Nat) (u sat : Bool) (x : Int) : intResult w u sat x = (narrowed w u sat x).toNat := by
  have full : ((2 ^ w : Nat) : Int) = 2 ^ w := by push_cast; rfl
  have half : ((2 ^ (w - 1) : Nat) : Int) = 2 ^ (w - 1) := by push_cast; rfl
  unfold intResult narrowed
  rw [full, half]
  cases sat
  · rfl
  · cases u
    · simp [min_comm]
    · simp [min_comm]

/-- An exact value that is neither clamped nor narrowed further is its pattern. -/
theorem narrowed_unclamped (w : Nat) (u : Bool) (x : Int) : narrowed w u false x = BitVec.ofInt w x := rfl

/-- The pattern of a reading is the pattern read. -/
theorem ofInt_asInt {w : Nat} (u : Bool) (y : BitVec w) : BitVec.ofInt w (asInt u y) = y := by
  cases u
  · exact BitVec.ofInt_toInt
  · simp [asInt]

/-- The lesser source, as a pattern. -/
theorem opMin_eq (u : Bool) (a b : Nat) :
    opMin u a b = (if asInt u (BitVec.ofNat 32 a) ≤ asInt u (BitVec.ofNat 32 b) then BitVec.ofNat 32 a else BitVec.ofNat 32 b).toNat := by
  rw [opMin, pat32, int32_eq_asInt, int32_eq_asInt, min_def, apply_ite (BitVec.ofInt 32), ofInt_asInt, ofInt_asInt]

/-- The greater source, as a pattern. -/
theorem opMax_eq (u : Bool) (a b : Nat) :
    opMax u a b = (if asInt u (BitVec.ofNat 32 a) ≤ asInt u (BitVec.ofNat 32 b) then BitVec.ofNat 32 b else BitVec.ofNat 32 a).toNat := by
  rw [opMax, pat32, int32_eq_asInt, int32_eq_asInt, max_def, apply_ite (BitVec.ofInt 32), ofInt_asInt, ofInt_asInt]

/-- The high word of a product. -/
theorem opMulh_eq (u : Bool) (a b : Nat) :
    opMulh u a b = (BitVec.ofInt 32 ((asInt u (BitVec.ofNat 32 a) * asInt u (BitVec.ofNat 32 b)).fdiv (2 ^ 32))).toNat := by
  rw [opMulh, pat32, int32_eq_asInt, int32_eq_asInt, Int.fdiv_eq_ediv_of_nonneg _ (by decide)]

/-- The compact sum neither clamps nor depends on the reading. -/
theorem opAdd_unclamped (a b : Nat) : opAdd false false a b = (BitVec.ofNat 32 a + BitVec.ofNat 32 b).toNat := by
  rw [opAdd, intResult_eq_narrowed, int32_eq_asInt, int32_eq_asInt, narrowed_unclamped, BitVec.ofInt_add, ofInt_asInt, ofInt_asInt]

/-- The compact difference likewise. -/
theorem opSub_unclamped (a b : Nat) : opSub false false a b = (BitVec.ofNat 32 a - BitVec.ofNat 32 b).toNat := by
  rw [opSub, intResult_eq_narrowed, int32_eq_asInt, int32_eq_asInt, narrowed_unclamped, sub_eq_add_neg, BitVec.ofInt_add,
    BitVec.ofInt_neg, ofInt_asInt, ofInt_asInt, BitVec.sub_eq_add_neg]

/-- A reading, at a wider width, is the pattern extended by its reading's sign. -/
theorem ofInt_asInt_wide (u : Bool) (y : W32) : BitVec.ofInt 64 (asInt u y) = if u then y.setWidth 64 else y.signExtend 64 := by
  cases u
  · rfl
  · simp [asInt, BitVec.ofInt_natCast]

/-- A shift to the left multiplies. -/
theorem shiftLeft_eq_mul_ofInt (y : W64) (n : Nat) : y <<< n = y * BitVec.ofInt 64 (2 ^ n) := by
  rw [BitVec.shiftLeft_eq_mul_twoPow]
  congr 1
  apply BitVec.eq_of_toNat_eq
  have e : ((2 : Int) ^ n) = ((2 ^ n : Nat) : Int) := by push_cast; rfl
  rw [e, BitVec.ofInt_natCast, BitVec.toNat_ofNat, BitVec.toNat_twoPow]

/-- LEA adds its offset, extended and shifted. -/
theorem opLea_eq (u : Bool) (n a b : Nat) :
    opLea u n a b = (BitVec.ofNat 64 a +
      (if u then (BitVec.ofNat 32 b).setWidth 64 else (BitVec.ofNat 32 b).signExtend 64) <<< n).toNat := by
  have low : BitVec.ofNat 64 (a % 2 ^ 64) = BitVec.ofNat 64 a := BitVec.eq_of_toNat_eq (by simp)
  rw [opLea, intResult_eq_narrowed, int32_eq_asInt, narrowed_unclamped, BitVec.ofInt_add, BitVec.ofInt_mul, ofInt_asInt_wide,
    shiftLeft_eq_mul_ofInt, BitVec.ofInt_natCast, low]

/-! ### The shared forms complete (R176) -/

theorem whole_w32 : Pos.whole .w32 := .inl rfl

theorem whole_w64 : Pos.whole .w64 := .inr (.inl rfl)

/-- An instruction whose lanes compute the value `f` of their sources, with whole sources, completes by any meaning that agrees with `f`. -/
theorem silent_of_values {i : Instr} {sh : Shape} {f r : List Nat → Nat}
    (he : ∀ s, exec i s = s.compute sh (fun _ _ _ v => LaneRes.value (f v))) (hl : ∀ o ∈ sh.reads, o.2.whole) (hf : ∀ v, f v = r v) :
    Silent i sh (fun _ _ _ v => LaneRes.value (r v)) := by
  obtain rfl : f = r := funext hf
  exact silent_of_compute i sh _ _ he hl (fun _ _ _ _ => rfl) (fun _ _ _ _ _ => rfl)

/-- A one-source form on the ALU. -/
theorem silent_alu1 {i : Instr} {h : Hd} {d a : Opnd} {f : Nat → Nat} {r : W32 → W32} (he : ∀ s, exec i s = alu1 s i h d a f)
    (hf : ∀ x, f x = (r (BitVec.ofNat 32 x)).toNat) : Silent i (one i h d a 0) (of1 r) :=
  silent_of_values he (List.forall_mem_singleton.2 whole_w32) (fun _ => hf _)

/-- A two-source form on the ALU. -/
theorem silent_alu2 {i : Instr} {h : Hd} {d a b : Opnd} {f : Nat → Nat → Nat} {r : W32 → W32 → W32}
    (he : ∀ s, exec i s = alu2 s i h d a b f) (hf : ∀ x y, f x y = (r (BitVec.ofNat 32 x) (BitVec.ofNat 32 y)).toNat) :
    Silent i (two i h d a b 0) (of2 r) :=
  silent_of_values he (List.forall_mem_cons.2 ⟨whole_w32, List.forall_mem_singleton.2 whole_w32⟩) (fun _ => hf _ _)

/-- A compact form on the ALU. -/
theorem silent_alu2C {i : Instr} {h : Ch} {d b : Opnd} {f : Nat → Nat → Nat} {r : W32 → W32 → W32}
    (he : ∀ s, exec i s = alu2C s i h d b f) (hf : ∀ x y, f x y = (r (BitVec.ofNat 32 x) (BitVec.ofNat 32 y)).toNat) :
    Silent i (twoC i h d b 0) (of2 r) :=
  silent_of_values he (List.forall_mem_cons.2 ⟨whole_w32, List.forall_mem_singleton.2 whole_w32⟩) (fun _ => hf _ _)

/-- A three-source form on the ALU. -/
theorem silent_alu3 {i : Instr} {h : Hd} {d a b c : Opnd} {f : Nat → Nat → Nat → Nat} {r : W32 → W32 → W32 → W32}
    (he : ∀ s, exec i s = alu3 s i h d a b c f)
    (hf : ∀ x y z, f x y z = (r (BitVec.ofNat 32 x) (BitVec.ofNat 32 y) (BitVec.ofNat 32 z)).toNat) :
    Silent i (three i h d a b c 0) (of3 r) :=
  silent_of_values he
    (List.forall_mem_cons.2 ⟨whole_w32, List.forall_mem_cons.2 ⟨whole_w32, List.forall_mem_singleton.2 whole_w32⟩⟩) (fun _ => hf _ _ _)

end Sys2Proof.Machine

namespace Sys2Proof.Claims

open Sys2Proof.Machine

/-- Settles O1: each row is a shared form of the ALU, whose operation is the exact value of the row, narrowed. -/
theorem integerArithmetic : Obligations.IntegerArithmetic := by
  unfold Obligations.IntegerArithmetic
  intro h k d a b c u sat n
  have exact32 : ∀ x : Int, intResult 32 u sat x = (narrowed 32 u sat x).toNat := intResult_eq_narrowed 32 u sat
  exact ⟨silent_alu2C (fun _ => rfl) opAdd_unclamped, silent_alu2C (fun _ => rfl) opSub_unclamped,
    silent_alu2 (fun _ => rfl) (fun x y => by rw [opAdd, exact32, int32_eq_asInt, int32_eq_asInt]),
    silent_alu2 (fun _ => rfl) (fun x y => by rw [opSub, exact32, int32_eq_asInt, int32_eq_asInt]),
    silent_alu2 (fun _ => rfl) (fun x y => by rw [opMul, exact32, int32_eq_asInt, int32_eq_asInt]),
    silent_alu2 (fun _ => rfl) (opMulh_eq u),
    silent_alu3 (fun _ => rfl) (fun x y z => by rw [opMad, exact32, int32_eq_asInt, int32_eq_asInt, int32_eq_asInt]),
    silent_alu2 (fun _ => rfl) (opMin_eq u), silent_alu2 (fun _ => rfl) (opMax_eq u),
    silent_alu1 (fun _ => rfl) (fun x => intResult_eq_narrowed 32 false sat _),
    silent_of_values (fun _ => rfl) (List.forall_mem_cons.2 ⟨whole_w64, List.forall_mem_singleton.2 whole_w64⟩)
      (fun v => by rw [opAdd64, intResult_eq_narrowed, int64_eq_asInt, int64_eq_asInt]),
    silent_of_values (fun _ => rfl) (List.forall_mem_cons.2 ⟨whole_w32, List.forall_mem_singleton.2 whole_w64⟩)
      (fun v => opLea_eq u n.toNat _ _)⟩

end Sys2Proof.Claims
end

section
namespace Sys2Proof.Claims
/-- Settles O58: each line is one evaluation of the decoder. -/
theorem decodeWords : Obligations.DecodeWords := by
  unfold Obligations.DecodeWords
  refine ⟨?_, ?_, ?_, ?_, ?_, ?_, ?_, ?_, ?_⟩
  all_goals decide +kernel
end Sys2Proof.Claims
end

section
/-!
SUPPORT. What an item of the schedule comes to, and what counting leaves (log 1; R467).
-/

namespace Sys2Proof.Machine

open Sys2Proof.Claims

/-! ### A step -/

/-- A step that comes to no instruction ends there. -/
theorem step_of_plan_none {s t : State} (h : s.plan = (t, none)) : step s = .next t.settleStep := by
  simp only [step, h]

/-- A step runs the instruction that it comes to. -/
theorem step_of_plan_some {s t : State} {i : Instr} (h : s.plan = (t, some i)) : step s = endOf (exec i t) := by
  simp only [step, h]
  cases exec i t <;> rfl

theorem plan_of_pick {s u : State} {it : Item} (h : s.pick = (u, it)) : s.plan = u.take it := by rw [State.plan, h]

/-- A step whose item comes to no instruction ends there. -/
theorem step_of_take_none {s u t : State} {it : Item} (hp : s.pick = (u, it)) (h : u.take it = (t, none)) :
    step s = .next t.settleStep :=
  step_of_plan_none ((plan_of_pick hp).trans h)

/-- A step runs the instruction that its item comes to. -/
theorem step_of_take_some {s u t : State} {it : Item} {i : Instr} (hp : s.pick = (u, it)) (h : u.take it = (t, some i)) :
    step s = endOf (exec i t) :=
  step_of_plan_some ((plan_of_pick hp).trans h)

/-! ### What an item comes to -/

theorem take_control (u : State) (c : Control) (hp : u.power = true) (hr : (u.reg 0x400).toNat / 16 ≠ 1) :
    u.take (.control c) = (u.control c, none) := by
  simp [State.take, hp, hr]

theorem take_event (u : State) (i : Instr) (h : u.answers i = true) : u.take (.event i) = ({ u with cur := .none }, some i) := by
  simp [State.take, h]

theorem take_link (u : State) (i : Instr) (rest : List Instr) (hl : u.linkWait = i :: rest) (h : u.answers i = true) :
    u.take .link = ({ u with cur := .link }, some i) := by
  simp [State.take, hl, h]

theorem take_issue (u : State) (core id : Nat) (hp : u.power = true) : u.take (.issue core id) = u.takeCourse core id := by
  simp [State.take, hp]

theorem take_mcc (u : State) (core : Nat) (hp : u.power = true) : u.take (.mcc core) = u.takeMcc core := by
  simp [State.take, hp]

/-- An eligible course with a quadrant, whose thread takes no report, issues. -/
theorem takeCourse_issues {u : State} {core id quad : Nat} {c : Course} {x : Ctx} (hc : u.course? core id = some c)
    (he : u.eligible c = true) (hq : u.quadFor c = some quad) (hx : (u.issueOn c quad).issuing = some x)
    (hs : ((u.issueOn c quad).sampleIssue x quad).sdcDue x = false) :
    u.takeCourse core id = ((u.issueOn c quad).sampleIssue x quad).issueCourse x := by
  simp [State.takeCourse, hc, he, hq, hx, hs]

/-- An MCC that may execute runs what the words at its PC decode to. -/
theorem takeMcc_runs {u : State} {core : Nat} {m : Mcc} {x : MCtx} {bs : List Byte} {i : Instr} (hm : u.mcc? core = some m)
    (hmay : u.mccMay m = true)
    (hx : State.running { (u.updMcc core (fun m => { m with stat := .running })) with cur := .mcc core, used := (core, 4, 0) :: u.used } = some x)
    (hf : State.fetchAt { (u.updMcc core (fun m => { m with stat := .running })) with cur := .mcc core, used := (core, 4, 0) :: u.used } x.l
      x.m.pc.toNat = .ok bs)
    (hd : decode (dctxOfMcc x) bs = .ok i) :
    u.takeMcc core =
      ({ (u.updMcc core (fun m => { m with stat := .running })) with cur := .mcc core, used := (core, 4, 0) :: u.used }, some i) := by
  simp only [State.takeMcc, hm, hmay, hx, hf, hd]
  rfl

end Sys2Proof.Machine

namespace Sys2Proof.Claims

open Sys2Proof.Machine

/-! ### Counting -/

theorem SameButCounts.refl (s : State) : SameButCounts s s := rfl

theorem SameButCounts.trans {s t u : State} (h : SameButCounts s t) (g : SameButCounts t u) : SameButCounts s u := by
  unfold SameButCounts at *
  rw [g, h]

/-- Counting an event changes counters alone. -/
theorem SameButCounts.count (s : State) (core code n : Nat) : SameButCounts s (s.count core code n) := by
  have step : ∀ (l : List Nat) (g : State → Nat → State), (∀ t i, SameButCounts t (g t i)) → ∀ t, SameButCounts t (l.foldl g t) := by
    intro l g hg
    induction l with
    | nil => exact fun t => SameButCounts.refl t
    | cons i l ih => exact fun t => (hg t i).trans (ih _)
  unfold State.count
  split
  · exact SameButCounts.refl s
  · refine step _ _ (fun t i => ?_) s
    dsimp only
    split <;> rfl

/-- So does marking triggers. -/
theorem SameButCounts.markTriggers (s : State) (part core : Nat) (tags comps : List Nat) :
    SameButCounts s (s.markTriggers part core tags comps) := rfl

/-- What courses become does not read the counters. -/
theorem SameButCounts.updCourse {s t : State} (h : SameButCounts s t) (core id : Nat) (f : Course → Course) :
    SameButCounts (s.updCourse core id f) (t.updCourse core id f) := by
  unfold SameButCounts at *
  rw [h]
  rfl

end Sys2Proof.Claims

namespace Sys2Proof.Machine

open Sys2Proof.Claims

/-! ### The issue of a course -/

/-- A course is the one that it is found by. -/
theorem core_id_of_course? {s : State} {core id : Nat} {c : Course} (h : s.course? core id = some c) : c.core = core ∧ c.id = id := by
  have := List.find?_some h
  simpa using this

/-- A context that issues is that of the course that issues. -/
theorem core_id_of_issuing {s : State} {core id : Nat} {x : Ctx} (hc : s.cur = .course core id) (h : s.issuing = some x) :
    x.core = core ∧ x.id = id := by
  simp only [State.issuing, hc, Option.bind_eq_some_iff, Option.map_eq_some_iff] at h
  obtain ⟨c, -, b, -, l, -, rfl⟩ := h
  exact ⟨rfl, rfl⟩

/-- Bytes that decode are counted and issue. -/
theorem issueBytes_ok {s : State} {x : Ctx} {bs : List Byte} {i : Instr} (h : decode (dctxOf x (leNat (bs.take 4))) bs = .ok i) :
    ∃ w, SameButCounts s w ∧ issueBytes s x bs = (w.updCourse x.core x.id (fun c => { c with keep := chainOf i }), some i) := by
  simp only [issueBytes, h]
  refine ⟨_, ?_, rfl⟩
  split
  · exact SameButCounts.refl s
  · exact (SameButCounts.count s _ _ _).trans (SameButCounts.count _ _ _ _)

/-- Bytes that decode to no instruction take ILLEGAL. -/
theorem issueBytes_illegal {s : State} {x : Ctx} {bs : List Byte} {r : Nat}
    (h : decode (dctxOf x (leNat (bs.take 4))) bs = .illegal r) :
    issueBytes s x bs = (s.illegal x (BitVec.ofNat 32 (leNat (bs.take 4))) r, none) := by
  simp only [issueBytes, h]

/-- A course issues the bytes at its PC, where no comparator hits, or those of the entry that it re-injects. -/
theorem issueCourse_issues {v : State} {x : Ctx} {bs : List Byte}
    (h : (x.c.reinj = [] ∧ v.fetchAt x.l x.pc.toNat = .ok bs ∧
        ∀ k, k < 8 → v.compHit x (guardLanes x (leNat (bs.take 4))) k = none) ∨
      (∃ e rest, x.c.reinj = e :: rest ∧ bs = e.words.flatMap (fun w => natLE 4 w.toNat))) :
    ∃ w, SameButCounts v w ∧ v.issueCourse x = issueBytes w x bs := by
  rcases h with ⟨hr, hf, hn⟩ | ⟨e, rest, hr, rfl⟩
  · have quiet : v.compHits x (guardLanes x (leNat (bs.take 4))) = [] := by
      unfold State.compHits
      split
      · rfl
      · exact List.filterMap_eq_nil_iff.2 (fun k hk => hn k (List.mem_range.1 hk))
    exact ⟨_, SameButCounts.markTriggers v x.b.key.part x.core [] [], by simp only [State.issueCourse, hr, hf, quiet]; rfl⟩
  · exact ⟨v, SameButCounts.refl v, by simp only [State.issueCourse, hr]⟩

end Sys2Proof.Machine

namespace Sys2Proof.Claims

open Sys2Proof.Machine

/-- Settles O57: each pick by what its item comes to. -/
theorem stepRunsDecoded : Obligations.StepRunsDecoded := by
  unfold Obligations.StepRunsDecoded
  intro s u
  refine ⟨fun hp => step_of_take_none hp rfl, fun c hp hpow hreg => step_of_take_none hp (take_control u c hpow hreg),
    fun i hp ha => step_of_take_some hp (take_event u i ha), fun i rest hp hl ha => step_of_take_some hp (take_link u i rest hl ha),
    ?issue, fun core m x bs i hp hpow hm hmay hx hf hd => step_of_take_some hp ((take_mcc u core hpow).trans (takeMcc_runs hm hmay hx hf hd))⟩
  intro core id c x bs hp hpow hc he quad hq hx v hs hb
  obtain ⟨hcore, hid⟩ := core_id_of_course? hc
  obtain ⟨xcore, xid⟩ := core_id_of_issuing rfl hx
  obtain ⟨w, hw, hi⟩ := issueCourse_issues hb
  have ht : u.take (.issue core id) = issueBytes w x bs := (take_issue u core id hpow).trans ((takeCourse_issues hc he hq hx hs).trans hi)
  refine ⟨fun i hd => ?_, fun r hd => ?_⟩
  · obtain ⟨y, hy, hi⟩ := issueBytes_ok (s := w) hd
    rw [xcore, xid, hcore, hid] at hi
    exact ⟨_, (hw.trans hy).updCourse core id _, step_of_take_some hp (ht.trans hi)⟩
  · refine ⟨w, _, hw, step_of_take_none hp (ht.trans (issueBytes_illegal hd)), rfl, rfl, rfl, rfl, fun lane hl => ?_⟩
    simp only [everyLane]
    rw [List.getD_eq_getElem _ _ (by simpa using hl), List.getElem_replicate]

end Sys2Proof.Claims
end

section
/-!
SUPPORT. Bit fields, the words that they stand in, and the bytes that hold the words (02 R24, R29, R33): what a field of a sum of fields is, and
that words and bytes come back from one another.
-/

namespace Sys2Proof

/-! ### Bits and fields of sums -/

theorem bn_lt_two (b : Bool) : bn b < 2 := by cases b <;> decide

theorem bn_bt (n k : Nat) : bn (bt n k) = n / 2 ^ k % 2 := by
  have h : n / 2 ^ k % 2 < 2 := Nat.mod_lt _ (by decide)
  unfold bt bn
  split
  · next hb => exact (beq_iff_eq.1 hb).symm
  · next hb => simp only [beq_iff_eq] at hb; omega

theorem bt_of_eq_bn {n k : Nat} {b : Bool} (h : n / 2 ^ k % 2 = bn b) : bt n k = b := by
  cases b <;> simp [bt, bn, h] at *

/-- A field of a sum is not touched by what stands above it. -/
theorem fld_add_mul_of_above {x m y hi lo : Nat} (h : m % 2 ^ (hi + 1) = 0) (hl : lo ≤ hi) : fld (x + m * y) hi lo = fld x hi lo := by
  obtain ⟨q, rfl⟩ := Nat.dvd_of_mod_eq_zero h
  have e : 2 ^ (hi + 1) = 2 ^ lo * 2 ^ (hi - lo + 1) := by rw [← Nat.pow_add]; congr 1; omega
  unfold fld
  rw [e, Nat.mul_assoc, Nat.mul_assoc, Nat.add_mul_div_left _ _ (Nat.two_pow_pos _), Nat.add_mul_mod_self_left]

/-- A field of a sum is not touched by what stands below it. -/
theorem fld_add_mul_of_below {x m y hi lo : Nat} (h : 2 ^ lo % m = 0) (hx : x < m) : fld (x + m * y) hi lo = fld (m * y) hi lo := by
  obtain ⟨q, hq⟩ := Nat.dvd_of_mod_eq_zero h
  unfold fld
  rw [hq, ← Nat.div_div_eq_div_mul, ← Nat.div_div_eq_div_mul, Nat.add_mul_div_left _ _ (by omega), Nat.div_eq_of_lt hx,
    Nat.mul_div_cancel_left _ (by omega), Nat.zero_add]

/-- The field that a number fills. -/
theorem fld_mul_self {m y hi lo : Nat} (h : m = 2 ^ lo) (hy : y < 2 ^ (hi - lo + 1)) : fld (m * y) hi lo = y := by
  unfold fld
  rw [h, Nat.mul_div_cancel_left _ (Nat.two_pow_pos _), Nat.mod_eq_of_lt hy]

/-- The lowest field. -/
theorem fld_zero_self {y hi : Nat} (hy : y < 2 ^ (hi + 1)) : fld y hi 0 = y := by
  simpa using fld_mul_self (m := 1) (lo := 0) rfl hy

theorem bt_eq_fld (n k : Nat) : bt n k = (fld n k k == 1) := by simp [bt, fld]

theorem bt_add_mul_of_above {x m y k : Nat} (h : m % 2 ^ (k + 1) = 0) : bt (x + m * y) k = bt x k := by
  rw [bt_eq_fld, bt_eq_fld, fld_add_mul_of_above h (Nat.le_refl _)]

theorem bt_add_mul_of_below {x m y k : Nat} (h : 2 ^ k % m = 0) (hx : x < m) : bt (x + m * y) k = bt (m * y) k := by
  rw [bt_eq_fld, bt_eq_fld, fld_add_mul_of_below h hx]

theorem bt_mul_bn {m k : Nat} {b : Bool} (h : m = 2 ^ k) : bt (m * bn b) k = b := by
  rw [bt_eq_fld, fld_mul_self h (by simpa using bn_lt_two b)]
  cases b <;> rfl

theorem bt_bn (b : Bool) : bt (bn b) 0 = b := by cases b <;> rfl

theorem fld_lt (n hi lo : Nat) : fld n hi lo < 2 ^ (hi - lo + 1) := Nat.mod_lt _ (Nat.two_pow_pos _)

/-! ### Bits outside a mask (R34) -/

theorem land_run (n a b : Nat) : n &&& 2 ^ a * (2 ^ b - 1) = 2 ^ a * (n / 2 ^ a % 2 ^ b) := by
  apply Nat.eq_of_testBit_eq
  intro j
  simp only [Nat.testBit_and, Nat.testBit_two_pow_mul, Nat.testBit_two_pow_sub_one, Nat.testBit_mod_two_pow, Nat.testBit_div_two_pow]
  by_cases h : a ≤ j
  · have e : a + (j - a) = j := by omega
    simp [h, Bool.and_comm]
  · simp [h]

/-- No bit of a number meets a run of bits where that field is zero. -/
theorem land_run_eq_zero (n a b : Nat) : n &&& 2 ^ a * (2 ^ b - 1) = 0 ↔ n / 2 ^ a % 2 ^ b = 0 := by
  rw [land_run, Nat.mul_eq_zero]
  simp

/-- The bits of a list of runs, each by its lowest bit and its length. -/
def runs (l : List (Nat × Nat)) : Nat := l.foldr (fun r t => 2 ^ r.1 * (2 ^ r.2 - 1) ||| t) 0

theorem land_runs_eq_zero (n : Nat) (l : List (Nat × Nat)) : n &&& runs l = 0 ↔ ∀ r ∈ l, n / 2 ^ r.1 % 2 ^ r.2 = 0 := by
  induction l with
  | nil => simp [runs]
  | cons r l ih =>
    have e : runs (r :: l) = 2 ^ r.1 * (2 ^ r.2 - 1) ||| runs l := rfl
    rw [e, Nat.and_or_distrib_left, Nat.or_eq_zero_iff, land_run_eq_zero, ih]
    simp

/-- No bit is set outside a mask where the runs of bits outside it are zero. -/
theorem extraBits_of_runs {m w : Nat} (l : List (Nat × Nat)) (h : 2 ^ w - 1 - m = runs l) (n : Nat) :
    extraBits n m w = false ↔ ∀ r ∈ l, n / 2 ^ r.1 % 2 ^ r.2 = 0 := by
  rw [← land_runs_eq_zero, ← h]
  simp [extraBits]

theorem extraBits_low {n w : Nat} (k : Nat) (hk : k ≤ w) (hn : n < 2 ^ w) : extraBits n (2 ^ k - 1) w = false ↔ n < 2 ^ k := by
  have e : 2 ^ w = 2 ^ k * 2 ^ (w - k) := by rw [← Nat.pow_add]; congr 1; omega
  have m : 2 ^ w - 1 - (2 ^ k - 1) = 2 ^ k * (2 ^ (w - k) - 1) := by
    have p := Nat.two_pow_pos k
    rw [Nat.mul_sub, ← e]
    omega
  have small : n / 2 ^ k < 2 ^ (w - k) := (Nat.div_lt_iff_lt_mul (Nat.two_pow_pos k)).2 (by rwa [Nat.mul_comm, ← e])
  rw [extraBits, m, bne_eq_false_iff_eq, land_run_eq_zero, Nat.mod_eq_of_lt small, Nat.div_eq_zero_iff]
  have p := Nat.two_pow_pos k
  omega

/-! ### Words and bytes (R24) -/

theorem wordOf_lt (a b c d : Byte) : wordOf [a, b, c, d] < 2 ^ 32 := by
  have ha := a.isLt
  have hb := b.isLt
  have hc := c.isLt
  have hd := d.isLt
  simp only [wordOf]
  omega

theorem lt_of_mem_wordsOf (bs : List Byte) : ∀ w ∈ wordsOf bs, w < 2 ^ 32 := by
  induction bs using wordsOf.induct with
  | case1 a b c d t ih =>
    intro w hw
    rcases List.mem_cons.1 hw with rfl | hw
    · exact wordOf_lt a b c d
    · exact ih w hw
  | case2 bs h =>
    intro w hw
    rw [wordsOf] at hw
    · simp at hw
    · exact h

/-- Words come back from their bytes. -/
theorem wordsOf_bytesOf (ws : List Nat) (h : ∀ w ∈ ws, w < 2 ^ 32) : wordsOf (bytesOf ws) = ws := by
  induction ws with
  | nil => rfl
  | cons w ws ih =>
    have hw : w < 2 ^ 32 := h w (by simp)
    have e : wordOf [BitVec.ofNat 8 w, BitVec.ofNat 8 (w / 2 ^ 8), BitVec.ofNat 8 (w / 2 ^ 16), BitVec.ofNat 8 (w / 2 ^ 24)] = w := by
      simp only [wordOf, BitVec.toNat_ofNat]
      omega
    simp only [bytesOf, List.cons_append, List.nil_append, wordsOf, e, ih (fun v hv => h v (by simp [hv]))]

/-! ### The first word (R29, R33) -/

section
variable {len opc pred top : Nat} {pneg chain : Bool} (hlen : len < 4) (hopc : opc < 2 ^ 8) (hpred : pred < 8)
include hlen

theorem firstWord_len : fld (firstWord len opc pred pneg chain top) 1 0 = len := by
  unfold fld firstWord
  omega

include hopc

theorem firstWord_opc : fld (firstWord len opc pred pneg chain top) 9 2 = opc := by
  unfold fld firstWord
  omega

include hpred

theorem firstWord_pred : fld (firstWord len opc pred pneg chain top) 12 10 = pred := by
  unfold fld firstWord
  omega

theorem firstWord_pneg : bt (firstWord len opc pred pneg chain top) 13 = pneg := by
  have := bn_lt_two pneg
  apply bt_of_eq_bn
  unfold firstWord
  omega

theorem firstWord_chain : bt (firstWord len opc pred pneg chain top) 14 = chain := by
  have := bn_lt_two pneg
  have := bn_lt_two chain
  apply bt_of_eq_bn
  unfold firstWord
  omega

theorem firstWord_div : firstWord len opc pred pneg chain top / 2 ^ 15 = top := by
  have := bn_lt_two pneg
  have := bn_lt_two chain
  unfold firstWord
  omega

/-- A field above bit 14 is a field of the top. -/
theorem firstWord_fld (hi lo : Nat) :
    fld (firstWord len opc pred pneg chain top) (15 + hi) (15 + lo) = fld top hi lo := by
  have e : 15 + hi - (15 + lo) = hi - lo := by omega
  unfold fld
  rw [e, Nat.pow_add, ← Nat.div_div_eq_div_mul, firstWord_div hlen hopc hpred]

theorem firstWord_lt (htop : top < 2 ^ 17) : firstWord len opc pred pneg chain top < 2 ^ 32 := by
  have := bn_lt_two pneg
  have := bn_lt_two chain
  unfold firstWord
  omega

end

/-- A first word is the sum of its fields. -/
theorem firstWord_of_fld (w : Nat) :
    firstWord (fld w 1 0) (fld w 9 2) (fld w 12 10) (bt w 13) (bt w 14) (w / 2 ^ 15) = w := by
  simp only [firstWord, bn_bt, fld]
  omega

/-! ### The literal's words (R25) -/

theorem litWords_lt (l : Option W64) : ∀ w ∈ litWords l, w < 2 ^ 32 := by
  cases l with
  | none => simp [litWords]
  | some x =>
    have := x.isLt
    simp only [litWords, List.mem_cons, List.not_mem_nil, or_false]
    rintro w (rfl | rfl)
    · exact Nat.mod_lt _ (by decide)
    · omega

theorem ofNat_litWords (x : W64) : BitVec.ofNat 64 (x.toNat % 2 ^ 32 + 2 ^ 32 * (x.toNat / 2 ^ 32)) = x := by
  rw [Nat.mod_add_div]
  simp

theorem litWords_ofNat {a b : Nat} (ha : a < 2 ^ 32) (hb : b < 2 ^ 32) : litWords (some (.ofNat 64 (a + 2 ^ 32 * b))) = [a, b] := by
  simp only [litWords, BitVec.toNat_ofNat]
  congr 1
  · omega
  · congr 1
    omega

end Sys2Proof
end

section
/-!
SUPPORT. Operand codes and field values: each comes back from its code, and a code that names a value is that value's code (02 R36, R42; 08 R196; 19 R412).
-/

namespace Sys2Proof

/-! ### Field values -/

/-- A field of `w` bits that names values by their codes: each value comes back from its code, and a code that names a value is the value's. -/
structure Codes {α : Type} (dec : Nat → Option α) (enc : α → Nat) (w : Nat) : Prop where
  dec_enc : ∀ c, dec (enc c) = some c
  enc_of_dec : ∀ n c, dec n = some c → enc c = n
  lt : ∀ c, enc c < 2 ^ w

/-- The code in the field is the code of what it is read as. -/
theorem Codes.enc_getD {α : Type} {dec : Nat → Option α} {enc : α → Nat} {w : Nat} (H : Codes dec enc w) {n : Nat} (d : α)
    (h : (dec n).isNone = false) : enc ((dec n).getD d) = n := by
  cases e : dec n with
  | none => simp [e] at h
  | some c => simpa using H.enc_of_dec n c e

/-- A field of `w` bits each of whose codes names a value. -/
structure FullCodes {α : Type} (dec : Nat → α) (enc : α → Nat) (w : Nat) : Prop where
  dec_enc : ∀ c, dec (enc c) = c
  enc_dec : ∀ n, n < 2 ^ w → enc (dec n) = n
  lt : ∀ c, enc c < 2 ^ w

theorem RMode.codes : Codes RMode.ofCode RMode.code 3 where
  dec_enc c := by cases c <;> rfl
  enc_of_dec n c h := by unfold RMode.ofCode at h; split at h <;> cases h <;> rfl
  lt c := by cases c <;> decide

theorem Fmt.codes : Codes Fmt.ofCode Fmt.code 4 where
  dec_enc c := by cases c <;> rfl
  enc_of_dec n c h := by unfold Fmt.ofCode at h; split at h <;> cases h <;> rfl
  lt c := by cases c <;> decide

theorem Cmp.codes : Codes Cmp.ofCode Cmp.code 3 where
  dec_enc c := by cases c <;> rfl
  enc_of_dec n c h := by unfold Cmp.ofCode at h; split at h <;> cases h <;> rfl
  lt c := by cases c <;> decide

theorem Sz.codes : Codes Sz.ofCode Sz.code 3 where
  dec_enc c := by cases c <;> rfl
  enc_of_dec n c h := by unfold Sz.ofCode at h; split at h <;> cases h <;> rfl
  lt c := by cases c <;> decide

theorem Scope.codes : Codes Scope.ofCode Scope.code 2 where
  dec_enc c := by cases c <;> rfl
  enc_of_dec n c h := by unfold Scope.ofCode at h; split at h <;> cases h <;> rfl
  lt c := by cases c <;> decide

theorem Cache.codes : Codes Cache.ofCode Cache.code 3 where
  dec_enc c := by cases c <;> rfl
  enc_of_dec n c h := by unfold Cache.ofCode at h; split at h <;> cases h <;> rfl
  lt c := by cases c <;> decide

theorem AOp.codes : Codes AOp.ofCode AOp.code 3 where
  dec_enc c := by cases c <;> rfl
  enc_of_dec n c h := by unfold AOp.ofCode at h; split at h <;> cases h <;> rfl
  lt c := by cases c <;> decide

theorem FKind.codes : Codes FKind.ofCode FKind.code 2 where
  dec_enc c := by cases c <;> rfl
  enc_of_dec n c h := by unfold FKind.ofCode at h; split at h <;> cases h <;> rfl
  lt c := by cases c <;> decide

theorem RCnt.codes : Codes RCnt.ofCode RCnt.code 2 where
  dec_enc c := by cases c <;> rfl
  enc_of_dec n c h := by unfold RCnt.ofCode at h; split at h <;> cases h <;> rfl
  lt c := by cases c <;> decide

theorem Wid.codes : Codes Wid.ofCode Wid.code 3 where
  dec_enc c := by cases c <;> rfl
  enc_of_dec n c h := by unfold Wid.ofCode at h; split at h <;> cases h <;> rfl
  lt c := by cases c <;> decide

theorem COp.codes : Codes COp.ofCode COp.code 3 where
  dec_enc c := by cases c <;> rfl
  enc_of_dec n c h := by unfold COp.ofCode at h; split at h <;> cases h <;> rfl
  lt c := by cases c <;> decide

theorem CSpace.codes : Codes CSpace.ofCode CSpace.code 2 where
  dec_enc c := by cases c <;> rfl
  enc_of_dec n c h := by unfold CSpace.ofCode at h; split at h <;> cases h <;> rfl
  lt c := by cases c <;> decide

theorem Fus.codes : Codes Fus.ofCode Fus.code 2 where
  dec_enc c := by cases c <;> rfl
  enc_of_dec n c h := by unfold Fus.ofCode at h; split at h <;> cases h <;> rfl
  lt c := by cases c <;> decide

theorem XCond.codes : Codes XCond.ofCode XCond.code 3 where
  dec_enc c := by cases c <;> rfl
  enc_of_dec n c h := by unfold XCond.ofCode at h; split at h <;> cases h <;> rfl
  lt c := by cases c <;> decide

theorem AccSel.codes : Codes AccSel.ofCode AccSel.code 4 where
  dec_enc c := by
    cases c with
    | seg n => simp [AccSel.ofCode, AccSel.code]
    | flg => rfl
    | cnt => rfl
  enc_of_dec n c h := by
    unfold AccSel.ofCode at h
    split at h
    · cases h; rfl
    · split at h
      · next e => cases h; exact e.symm
      · split at h
        · next e => cases h; exact e.symm
        · cases h
  lt c := by
    cases c with
    | seg n => exact Nat.lt_of_lt_of_le n.isLt (by decide)
    | flg => decide
    | cnt => decide

theorem Ord4.codes : FullCodes Ord4.ofCode Ord4.code 2 where
  dec_enc c := by cases c <;> rfl
  enc_dec := by decide
  lt c := by cases c <;> decide

theorem FCmp.codes : FullCodes FCmp.ofCode FCmp.code 3 where
  dec_enc c := by cases c <;> rfl
  enc_dec := by decide
  lt c := by cases c <;> decide

theorem VMode.codes : FullCodes VMode.ofCode VMode.code 2 where
  dec_enc c := by cases c <;> rfl
  enc_dec := by decide
  lt c := by cases c <;> decide

theorem ShMode.codes : FullCodes ShMode.ofCode ShMode.code 2 where
  dec_enc c := by cases c <;> rfl
  enc_dec := by decide
  lt c := by cases c <;> decide

theorem SField.codes : FullCodes SField.ofCode SField.code 2 where
  dec_enc c := by cases c <;> rfl
  enc_dec := by decide
  lt c := by cases c <;> decide

theorem XlOp.codes : FullCodes XlOp.ofCode XlOp.code 2 where
  dec_enc c := by cases c <;> rfl
  enc_dec := by decide
  lt c := by cases c <;> decide

theorem XsOp.codes : FullCodes XsOp.ofCode XsOp.code 2 where
  dec_enc c := by cases c <;> rfl
  enc_dec := by decide
  lt c := by cases c <;> decide

theorem fin_val {n : Nat} [NeZero n] (x : Fin n) : fin n x.val = x := Fin.ofNat_val_eq_self x

theorem ofNat_toNat {w : Nat} (x : BitVec w) : BitVec.ofNat w x.toNat = x := by simp

theorem toNat_ofNat {w n : Nat} (h : n < 2 ^ w) : (BitVec.ofNat w n).toNat = n := by
  rw [BitVec.toNat_ofNat, Nat.mod_eq_of_lt h]

theorem SReg.ofCode_code (r : SReg) : SReg.ofCode r.code = some r := by
  cases r with
  | tid i => revert i; decide
  | bid i => revert i; decide
  | send n => revert n; decide
  | trapaux n => revert n; decide
  | rq n f => revert n f; decide
  | _ => rfl

theorem SReg.code_of_ofCode {n : Nat} {r : SReg} (h : SReg.ofCode n = some r) : r.code = n := by
  have table : ∀ n, n < 0x180 → ((SReg.ofCode n).map SReg.code).getD n = n := by decide +kernel
  by_cases hn : n < 0x180
  · simpa [h] using table n hn
  · have none : SReg.ofCode n = none := by
      unfold SReg.ofCode
      repeat' first | rw [dif_neg (by omega)] | rw [if_neg (by omega)]
    rw [none] at h
    cases h

theorem SReg.codes : Codes SReg.ofCode SReg.code 10 where
  dec_enc := SReg.ofCode_code
  enc_of_dec _ _ h := SReg.code_of_ofCode h
  lt c := by
    cases c with
    | tid i => have := i.isLt; simp only [SReg.code]; omega
    | bid i => have := i.isLt; simp only [SReg.code]; omega
    | send i => have := i.isLt; simp only [SReg.code]; omega
    | trapaux i => have := i.isLt; simp only [SReg.code]; omega
    | rq i j => have := i.isLt; have := j.isLt; simp only [SReg.code]; omega
    | _ => decide

/-! ### Operand codes (R36) -/

theorem Opnd.code_lt {x : Opnd} (h : x.codeable = true) : x.code < 2 ^ 9 := by
  cases x with
  | v n | q n | o n | l n | b n | c n | k n | fc n => simp only [Opnd.code]; omega
  | imm i =>
    simp only [Opnd.codeable, decide_eq_true_eq] at h
    simp only [Opnd.code]
    split <;> omega
  | lit => decide

theorem Opnd.ofCode_code {x : Opnd} (h : x.codeable = true) : Opnd.ofCode x.code = some x := by
  cases x with
  | v n => simp [Opnd.ofCode, Opnd.code]
  | q n => revert n; decide
  | o n => revert n; decide
  | l n => revert n; decide
  | b n => revert n; decide
  | c n => revert n; decide
  | k n => revert n; decide
  | fc n => revert n; decide
  | imm i =>
    simp only [Opnd.codeable, decide_eq_true_eq] at h
    obtain ⟨low, high⟩ := h
    interval_cases i <;> rfl
  | lit => rfl

theorem Opnd.dec_code {x : Opnd} (h : x.codeable = true) : Opnd.dec x.code = x := by simp [Opnd.dec, Opnd.ofCode_code h]

theorem Opnd.code_of_ofCode {n : Nat} (hn : n < 2 ^ 9) {x : Opnd} (h : Opnd.ofCode n = some x) : x.code = n := by
  have table : ∀ n, n < 2 ^ 9 → ((Opnd.ofCode n).map Opnd.code).getD n = n := by decide +kernel
  simpa [h] using table n hn

/-- A field that holds no reserved code holds the code of what it is read as. -/
theorem Opnd.code_dec {n : Nat} (hn : n < 2 ^ 9) (h : (Opnd.ofCode n).isNone = false) : (Opnd.dec n).code = n := by
  cases e : Opnd.ofCode n with
  | none => simp [e] at h
  | some x => simpa [Opnd.dec, e] using Opnd.code_of_ofCode hn e

theorem Opnd.codeable_dec {n : Nat} (hn : n < 2 ^ 9) : (Opnd.dec n).codeable = true := by
  revert n
  decide +kernel

/-- The code 0x1FF alone is read as the literal. -/
theorem Opnd.dec_eq_lit_iff {n : Nat} (hn : n < 2 ^ 9) : Opnd.dec n = .lit ↔ n = 0x1FF := by
  revert n
  decide +kernel

/-! ### Codes of MCC operands (R42) -/

theorem MOpnd.code_lt {x : MOpnd} (h : x.codeable = true) : x.code < 2 ^ 9 := by
  cases x with
  | x n | ta n | tb n | tc n | cb n | sc n | c n => simp only [MOpnd.code]; omega
  | imm i =>
    simp only [MOpnd.codeable, decide_eq_true_eq] at h
    simp only [MOpnd.code]
    split <;> omega
  | lit => decide

theorem MOpnd.ofCode_code {x : MOpnd} (h : x.codeable = true) : MOpnd.ofCode x.code = some x := by
  cases x with
  | x n => revert n; decide
  | ta n => revert n; decide
  | tb n => revert n; decide
  | tc n => revert n; decide
  | cb n => revert n; decide
  | sc n => revert n; decide
  | c n => revert n; decide
  | imm i =>
    simp only [MOpnd.codeable, decide_eq_true_eq] at h
    obtain ⟨low, high⟩ := h
    interval_cases i <;> rfl
  | lit => rfl

theorem MOpnd.dec_code {x : MOpnd} (h : x.codeable = true) : MOpnd.dec x.code = x := by simp [MOpnd.dec, MOpnd.ofCode_code h]

theorem MOpnd.code_of_ofCode {n : Nat} (hn : n < 2 ^ 9) {x : MOpnd} (h : MOpnd.ofCode n = some x) : x.code = n := by
  have table : ∀ n, n < 2 ^ 9 → ((MOpnd.ofCode n).map MOpnd.code).getD n = n := by decide +kernel
  simpa [h] using table n hn

/-- A field that holds a listed code holds the code of what it is read as. -/
theorem MOpnd.code_dec {n : Nat} (hn : n < 2 ^ 9) (h : (MOpnd.ofCode n).isNone = false) : (MOpnd.dec n).code = n := by
  cases e : MOpnd.ofCode n with
  | none => simp [e] at h
  | some x => simpa [MOpnd.dec, e] using MOpnd.code_of_ofCode hn e

theorem MOpnd.codeable_dec {n : Nat} (hn : n < 2 ^ 9) : (MOpnd.dec n).codeable = true := by
  revert n
  decide +kernel

/-- The code 0x1FF alone is read as the literal. -/
theorem MOpnd.dec_eq_lit_iff {n : Nat} (hn : n < 2 ^ 9) : MOpnd.dec n = .lit ↔ n = 0x1FF := by
  revert n
  decide +kernel

end Sys2Proof
end

section
/-!
SUPPORT. Groups of fields that several instructions share: rounding, source modifiers, addresses, copies, multiplies, regions. Each group comes back from
its fields, and fields that hold no reserved value are those of what they are read as (02 R47 to R49; 08 R196; 12 R273; 16 R348 to R350).
-/

namespace Sys2Proof

/-- Every field holds what fits in its bits (R33). -/
structure XF.Fits (f : XF) : Prop where
  opc : f.opc < 2 ^ 8
  moda : f.moda < 2 ^ 7
  dx : f.dx < 2 ^ 9
  modb : f.modb < 2 ^ 5
  s2 : f.s2 < 2 ^ 9
  s1 : f.s1 < 2 ^ 9
  s0 : f.s0 < 2 ^ 9
  modc : f.modc < 2 ^ 32

/-! ### Rounding (R196) -/

theorem Rnd.enc_fst_lt (r : Rnd) : r.enc.1 < 6 := by
  rcases r with m | r
  · cases m <;> decide
  · simp [Rnd.enc]

theorem Rnd.dec_enc {r : Rnd} (h : ∀ p ∈ r.pos, p.x.codeable = true) : Rnd.dec r.enc.1 r.enc.2 = r := by
  rcases r with m | r
  · cases m <;> rfl
  · simp [Rnd.dec, Rnd.enc, Opnd.dec_code (h ⟨r, .s32, false⟩ (by simp [Rnd.pos]))]

theorem Rnd.bad9_enc (r : Rnd) : Rnd.bad9 r.enc.1 = false := by
  have := r.enc_fst_lt
  simp [Rnd.bad9]
  omega

theorem Rnd.bad3_enc (r : Rnd) : Rnd.bad3 r.enc.1 r.enc.2 = false := by
  rcases r with m | r <;> simp [Rnd.bad3, Rnd.enc]

theorem Rnd.enc_dec {m rc : Nat} (h3 : Rnd.bad3 m rc = false) (h9 : Rnd.bad9 m = false) (hr : (Opnd.ofCode rc).isNone = false)
    (hlt : rc < 2 ^ 9) : (Rnd.dec m rc).enc = (m, rc) := by
  simp only [Rnd.bad3, Rnd.bad9, decide_eq_false_iff_not, Bool.and_eq_false_iff, not_not] at h3 h9
  unfold Rnd.dec
  split
  · next h => simp [Rnd.enc, h, Opnd.code_dec hlt hr]
  · next h =>
    have zero : rc = 0 := by tauto
    have known : (RMode.ofCode m).isNone = false := by
      have : m < 5 := by omega
      interval_cases m <;> rfl
    simp [Rnd.enc, RMode.codes.enc_getD _ known, zero]

theorem Rnd.all_codeable_dec {m rc : Nat} (hlt : rc < 2 ^ 9) : ((Rnd.dec m rc).pos.all fun p => p.x.codeable) = true := by
  unfold Rnd.dec
  split
  · simp [Rnd.pos, Opnd.codeable_dec hlt]
  · simp [Rnd.pos]

theorem Rnd.exists_lit_dec {m rc : Nat} (h3 : Rnd.bad3 m rc = false) (hlt : rc < 2 ^ 9) :
    (∃ p ∈ (Rnd.dec m rc).pos, p.x = .lit) ↔ rc = 0x1FF := by
  simp only [Rnd.bad3, decide_eq_false_iff_not, Bool.and_eq_false_iff, not_not] at h3
  unfold Rnd.dec
  split
  · simp [Rnd.pos, Opnd.dec_eq_lit_iff hlt]
  · next h =>
    have zero : rc = 0 := by tauto
    simp [Rnd.pos, zero]

/-! ### Source modifiers (R196), and U and SAT (R189) -/

theorem SMod.dec_enc (m : SMod) : SMod.dec m.enc = m := by
  obtain ⟨a, b, c, d⟩ := m
  revert a b c d
  decide

theorem SMod.enc_dec {n : Nat} (h : n < 2 ^ 5) : (SMod.dec n).enc + 4 * bn (bt n 2) = n := by
  simp only [SMod.dec, SMod.enc, bn_bt]
  omega

/-! ### Addresses (R47, R48) -/

/-- SPACE of an address. -/
def Target.code : Target → Nat
  | .global => 0
  | .own => 1
  | _ => 2

theorem Target.code_lt (t : Target) : t.code < 3 := by cases t <;> simp [Target.code]

theorem MemF.modc_eq (m : MemF) : m.modc = m.offs.toNat + 2 ^ 20 * m.tgt.code + 2 ^ 22 * m.size.code +
    2 ^ 25 * m.order.code + 2 ^ 27 * m.scope.code + 2 ^ 29 * m.cache.code := by
  unfold MemF.modc Target.code
  split <;> simp_all

theorem MemF.role_lt (m : MemF) : m.role < 2 ^ 7 := by
  unfold MemF.role
  split
  · omega
  · decide
  · decide

section
variable (m : MemF)

theorem MemF.modc_lt : m.modc < 2 ^ 32 := by
  have := m.tgt.code_lt
  have := Sz.codes.lt m.size
  have := Ord4.codes.lt m.order
  have := Scope.codes.lt m.scope
  have := Cache.codes.lt m.cache
  rw [MemF.modc_eq]
  omega

theorem MemF.fld_modc : fld m.modc 19 0 = m.offs.toNat ∧ fld m.modc 21 20 = m.tgt.code ∧ fld m.modc 24 22 = m.size.code ∧
    fld m.modc 26 25 = m.order.code ∧ fld m.modc 28 27 = m.scope.code ∧ fld m.modc 31 29 = m.cache.code := by
  have := m.tgt.code_lt
  have := Sz.codes.lt m.size
  have := Ord4.codes.lt m.order
  have := Scope.codes.lt m.scope
  have := Cache.codes.lt m.cache
  rw [MemF.modc_eq]
  unfold fld
  refine ⟨?_, ?_, ?_, ?_, ?_, ?_⟩ <;> omega

end

theorem MemF.base_mem_pos (m : MemF) : ∃ p ∈ m.pos, p.x = m.base := by
  unfold MemF.pos
  split <;> simp

/-- An address comes back from its fields, whatever stands beside it. -/
theorem MemF.dec_memX {m : MemF} (opc d s1 modb : Nat) {s2 : Nat} (hp : ∀ p ∈ m.pos, Opnd.dec p.x.code = p.x)
    (hs : (∃ r, m.tgt = .laneRole r) → s2 = m.s2) : MemF.dec (memX opc m d s1 s2 modb) = m := by
  obtain ⟨hoffs, htgt, hsize, horder, hscope, hcache⟩ := m.fld_modc
  obtain ⟨p, hbase, hpx⟩ := m.base_mem_pos
  have base : Opnd.dec m.base.code = m.base := hpx ▸ hp p hbase
  have tgt : (MemF.dec (memX opc m d s1 s2 modb)).tgt = m.tgt := by
    simp only [MemF.dec, memX, htgt]
    rcases e : m.tgt with _ | _ | n | r
    · rfl
    · rfl
    · have : n.val < 127 := n.isLt
      simp [Target.code, MemF.role, e]
    · have r' : Opnd.dec r.code = r := hp ⟨r, .off32, false⟩ (by simp [MemF.pos, e])
      have s2' : s2 = r.code := by rw [hs ⟨r, e⟩, MemF.s2, e]
      simp [Target.code, MemF.role, e, s2', r']
  rcases m with ⟨t, b, o, sz, ord, sc, ca⟩
  simp only [MemF.dec, memX, hoffs, hsize, horder, hscope, hcache, base, Sz.codes.dec_enc, Ord4.codes.dec_enc, Scope.codes.dec_enc,
    Cache.codes.dec_enc, Option.getD_some, ofNat_toNat] at tgt ⊢
  rw [tgt]

theorem MemF.bad9_memX (m : MemF) (opc d s1 s2 modb : Nat) : MemF.bad9 (memX opc m d s1 s2 modb) = false := by
  obtain ⟨-, htgt, hsize, -, hscope, hcache⟩ := m.fld_modc
  simp only [MemF.bad9, memX, htgt, hsize, hscope, hcache, Sz.codes.dec_enc, Scope.codes.dec_enc, Cache.codes.dec_enc, MemF.role]
  cases m.tgt <;> simp [Target.code]

theorem MemF.dec_base (f : XF) : (MemF.dec f).base = .dec f.s0 := rfl

section
variable {f : XF} (hf : f.Fits) (h9 : MemF.bad9 f = false)
include h9

/-- What the address fields hold where none is reserved. -/
theorem MemF.of_bad9 : fld f.modc 21 20 ≠ 3 ∧ (Sz.ofCode (fld f.modc 24 22)).isNone = false ∧
    (Scope.ofCode (fld f.modc 28 27)).isNone = false ∧ (Cache.ofCode (fld f.modc 31 29)).isNone = false ∧
    (fld f.modc 21 20 ≠ 2 → f.moda = 0) := by
  simp only [MemF.bad9, Bool.or_eq_false_iff, beq_eq_false_iff_ne, Bool.and_eq_false_iff, bne_eq_false_iff_eq] at h9
  tauto

include hf

/-- SPACE, ROLE and SRC2 of a target. -/
theorem MemF.tgt_dec : (fld f.modc 21 20 = 0 ∧ f.moda = 0 ∧ (MemF.dec f).tgt = .global) ∨
    (fld f.modc 21 20 = 1 ∧ f.moda = 0 ∧ (MemF.dec f).tgt = .own) ∨
    (fld f.modc 21 20 = 2 ∧ f.moda < 127 ∧ ∃ n : Fin 127, n.val = f.moda ∧ (MemF.dec f).tgt = .role n) ∨
    (fld f.modc 21 20 = 2 ∧ f.moda = 127 ∧ (MemF.dec f).tgt = .laneRole (.dec f.s2)) := by
  obtain ⟨h3, -, -, -, h2⟩ := MemF.of_bad9 h9
  have := fld_lt f.modc 21 20
  have := hf.moda
  simp only [MemF.dec]
  split
  · next e => exact .inl ⟨e, h2 (by omega), rfl⟩
  · next e =>
    refine .inr (.inr ?_)
    split
    · next h => exact .inl ⟨e, h, _, rfl, rfl⟩
    · exact .inr ⟨e, by omega, rfl⟩
  · next n0 n2 =>
    have n0 : fld f.modc 21 20 ≠ 0 := n0
    have n2 : fld f.modc 21 20 ≠ 2 := n2
    exact .inr (.inl ⟨by omega, h2 n2, rfl⟩)

theorem MemF.role_dec : (MemF.dec f).role = f.moda := by
  unfold MemF.role
  rcases MemF.tgt_dec hf h9 with ⟨-, h, e⟩ | ⟨-, h, e⟩ | ⟨-, -, n, h, e⟩ | ⟨-, h, e⟩ <;> simp [e, h]

theorem MemF.modc_dec : (MemF.dec f).modc = f.modc := by
  obtain ⟨-, hsz, hsc, hca, -⟩ := MemF.of_bad9 h9
  have tgt : (MemF.dec f).tgt.code = fld f.modc 21 20 := by
    rcases MemF.tgt_dec hf h9 with ⟨h, -, e⟩ | ⟨h, -, e⟩ | ⟨h, -, n, -, e⟩ | ⟨h, -, e⟩ <;> rw [e, h] <;> rfl
  have size : (MemF.dec f).size.code = fld f.modc 24 22 := Sz.codes.enc_getD _ hsz
  have order : (MemF.dec f).order.code = fld f.modc 26 25 := Ord4.codes.enc_dec _ (fld_lt _ _ _)
  have scope : (MemF.dec f).scope.code = fld f.modc 28 27 := Scope.codes.enc_getD _ hsc
  have cache : (MemF.dec f).cache.code = fld f.modc 31 29 := Cache.codes.enc_getD _ hca
  have offs : (MemF.dec f).offs.toNat = fld f.modc 19 0 := toNat_ofNat (fld_lt _ _ _)
  have := hf.modc
  rw [MemF.modc_eq, tgt, size, order, scope, cache, offs]
  unfold fld
  omega

theorem MemF.s2_dec (hr : (Opnd.ofCode f.s2).isNone = false) : (MemF.dec f).s2 = if f.moda = 127 then f.s2 else 0 := by
  unfold MemF.s2
  rcases MemF.tgt_dec hf h9 with ⟨-, h, e⟩ | ⟨-, h, e⟩ | ⟨-, h, n, -, e⟩ | ⟨-, h, e⟩
  · simp [e, h]
  · simp [e, h]
  · rw [e, if_neg (by omega)]
  · simp [e, h, Opnd.code_dec hf.s2 hr]

/-- The address reads the literal where its base does, or its role. -/
theorem MemF.exists_lit_dec :
    (∃ p ∈ (MemF.dec f).pos, p.x = .lit) ↔ f.s0 = 0x1FF ∨ f.moda = 127 ∧ f.s2 = 0x1FF := by
  have base : (MemF.dec f).base = .dec f.s0 := rfl
  unfold MemF.pos
  rcases MemF.tgt_dec hf h9 with ⟨-, h, e⟩ | ⟨-, h, e⟩ | ⟨-, -, n, h, e⟩ | ⟨-, h, e⟩
  · simp [e, h, base, Opnd.dec_eq_lit_iff hf.s0]
  · simp [e, h, base, Opnd.dec_eq_lit_iff hf.s0]
  · have : f.moda ≠ 127 := by omega
    simp [e, this, base, Opnd.dec_eq_lit_iff hf.s0]
  · simp [e, h, base, Opnd.dec_eq_lit_iff hf.s0, Opnd.dec_eq_lit_iff hf.s2]

theorem MemF.all_codeable_dec : ((MemF.dec f).pos.all fun p => p.x.codeable) = true := by
  have base : (MemF.dec f).base = .dec f.s0 := rfl
  unfold MemF.pos
  rcases MemF.tgt_dec hf h9 with ⟨-, -, e⟩ | ⟨-, -, e⟩ | ⟨-, -, n, -, e⟩ | ⟨-, -, e⟩ <;>
    simp [e, base, Opnd.codeable_dec hf.s0, Opnd.codeable_dec hf.s2]

end

/-! ### Copies (R273) -/

/-- The receive barrier's number with its flag in bit 28. -/
def xbCode : Option (BitVec 15) → Nat × Nat
  | some x => (x.toNat, 1)
  | none => (0, 0)

theorem CpyF.modc_eq (f : CpyF) : f.modc = (xbCode f.xb).1 + 2 ^ 16 * bn f.long + 2 ^ 17 * f.role.toNat + 2 ^ 24 * f.dsp.code +
    2 ^ 26 * f.ssp.code + 2 ^ 28 * (xbCode f.xb).2 + 2 ^ 29 * bn f.stamp + 2 ^ 30 * bn f.shadow + 2 ^ 31 * bn f.rel := by
  unfold CpyF.modc xbCode
  split
  · simp_all; omega
  · simp_all

theorem xbCode_lt (x : Option (BitVec 15)) : (xbCode x).1 < 2 ^ 15 ∧ (xbCode x).2 < 2 := by
  unfold xbCode
  split
  · simp; omega
  · simp

section
variable (f : CpyF)

theorem CpyF.modc_fields : fld f.modc 14 0 = (xbCode f.xb).1 ∧ f.modc / 2 ^ 15 % 2 = 0 ∧ f.modc / 2 ^ 16 % 2 = bn f.long ∧
    fld f.modc 23 17 = f.role.toNat ∧ fld f.modc 25 24 = f.dsp.code ∧ fld f.modc 27 26 = f.ssp.code ∧
    f.modc / 2 ^ 28 % 2 = (xbCode f.xb).2 ∧ f.modc / 2 ^ 29 % 2 = bn f.stamp ∧ f.modc / 2 ^ 30 % 2 = bn f.shadow ∧
    f.modc / 2 ^ 31 % 2 = bn f.rel ∧ f.modc < 2 ^ 32 := by
  obtain ⟨h1, h2⟩ := xbCode_lt f.xb
  have := bn_lt_two f.long
  have := bn_lt_two f.stamp
  have := bn_lt_two f.shadow
  have := bn_lt_two f.rel
  have := CSpace.codes.lt f.dsp
  have := CSpace.codes.lt f.ssp
  rw [CpyF.modc_eq]
  unfold fld
  refine ⟨?_, ?_, ?_, ?_, ?_, ?_, ?_, ?_, ?_, ?_, ?_⟩ <;> omega

theorem CpyF.moda_fields : fld f.moda 4 2 = f.cache.code ∧ fld f.moda 1 0 = f.scope.code ∧ f.moda < 2 ^ 5 := by
  have := Cache.codes.lt f.cache
  have := Scope.codes.lt f.scope
  unfold CpyF.moda fld
  refine ⟨?_, ?_, ?_⟩ <;> omega

end

theorem bt_xb (f : CpyF) : bt f.modc 28 = f.xb.isSome := by
  obtain ⟨-, -, -, -, -, -, h, -⟩ := f.modc_fields
  apply bt_of_eq_bn
  rw [h]
  cases f.xb <;> rfl

/-- The fields of a copy come back, whatever stands beside them. -/
theorem CpyF.dec_cpyX (f : CpyF) (opc : Nat) (s d x : Opnd) (modb : Nat) : CpyF.dec (cpyX opc f s d x modb) = f := by
  obtain ⟨hxb, -, hlong, hrole, hdsp, hssp, -, hstamp, hshadow, hrel, -⟩ := f.modc_fields
  obtain ⟨hcache, hscope, -⟩ := f.moda_fields
  have xb : (if f.xb.isSome then some (BitVec.ofNat 15 (xbCode f.xb).1) else none) = f.xb := by
    cases f.xb <;> simp [xbCode]
  rcases f with ⟨ca, sc, rl, sh, st, xb0, ss, ds, ro, lo⟩
  simp only [CpyF.dec, cpyX, bt_xb, hxb, bt_of_eq_bn hlong, hrole, hdsp, hssp, bt_of_eq_bn hstamp, bt_of_eq_bn hshadow, bt_of_eq_bn hrel,
    hcache, hscope, Cache.codes.dec_enc, Scope.codes.dec_enc, CSpace.codes.dec_enc, Option.getD_some, ofNat_toNat, xb]

theorem CpyF.bad9_cpyX (f : CpyF) (opc : Nat) (s d x : Opnd) (modb : Nat) : CpyF.bad9 (cpyX opc f s d x modb) = false := by
  obtain ⟨hxb, -, -, -, hdsp, hssp, -⟩ := f.modc_fields
  obtain ⟨hcache, hscope, -⟩ := f.moda_fields
  simp only [CpyF.bad9, cpyX, hcache, hscope, hdsp, hssp, Cache.codes.dec_enc, Scope.codes.dec_enc, CSpace.codes.dec_enc, bt_xb, hxb]
  cases f.xb <;> simp [xbCode]


section
variable {f : XF} (hf : f.Fits) (h9 : CpyF.bad9 f = false)
include h9

theorem CpyF.moda_dec (h : f.moda < 2 ^ 5) : (CpyF.dec f).moda = f.moda := by
  simp only [CpyF.bad9, Bool.or_eq_false_iff] at h9
  obtain ⟨⟨⟨⟨hca, hsc⟩, -⟩, -⟩, -⟩ := h9
  have scope : (CpyF.dec f).scope.code = fld f.moda 1 0 := Scope.codes.enc_getD _ hsc
  have cache : (CpyF.dec f).cache.code = fld f.moda 4 2 := Cache.codes.enc_getD _ hca
  rw [CpyF.moda, scope, cache]
  unfold fld
  omega

include hf

theorem CpyF.modc_dec (h : f.modc / 2 ^ 15 % 2 = 0) : (CpyF.dec f).modc = f.modc := by
  simp only [CpyF.bad9, Bool.or_eq_false_iff] at h9
  obtain ⟨⟨⟨-, hss⟩, hds⟩, hxb⟩ := h9
  have ssp : (CpyF.dec f).ssp.code = fld f.modc 27 26 := CSpace.codes.enc_getD _ hss
  have dsp : (CpyF.dec f).dsp.code = fld f.modc 25 24 := CSpace.codes.enc_getD _ hds
  have role : (CpyF.dec f).role.toNat = fld f.modc 23 17 := toNat_ofNat (fld_lt _ _ _)
  have long : bn (CpyF.dec f).long = f.modc / 2 ^ 16 % 2 := bn_bt _ _
  have stamp : bn (CpyF.dec f).stamp = f.modc / 2 ^ 29 % 2 := bn_bt _ _
  have shadow : bn (CpyF.dec f).shadow = f.modc / 2 ^ 30 % 2 := bn_bt _ _
  have rel : bn (CpyF.dec f).rel = f.modc / 2 ^ 31 % 2 := bn_bt _ _
  have xb : (xbCode (CpyF.dec f).xb).1 = fld f.modc 14 0 ∧ (xbCode (CpyF.dec f).xb).2 = f.modc / 2 ^ 28 % 2 := by
    have e := bn_bt f.modc 28
    unfold CpyF.dec
    cases hb : bt f.modc 28 with
    | false =>
      simp only [hb, Bool.not_false, Bool.true_and, bne_eq_false_iff_eq] at hxb
      rw [hb] at e
      exact ⟨hxb.symm, e⟩
    | true =>
      rw [hb] at e
      exact ⟨toNat_ofNat (fld_lt _ _ _), e⟩
  have := hf.modc
  rw [CpyF.modc_eq, ssp, dsp, role, long, stamp, shadow, rel, xb.1, xb.2]
  unfold fld
  omega

end

/-! ### Multiplies and regions (R350) -/

section
variable (m : MulF)

theorem MulF.modc_fields : fld m.modc 3 0 = m.wa.code ∧ fld m.modc 7 4 = m.wb.code ∧ fld m.modc 12 8 = m.row0.toNat ∧
    fld m.modc 17 13 = m.col0.toNat ∧ fld m.modc 19 18 = m.cba.toNat ∧ fld m.modc 21 20 = m.cbb.toNat ∧ fld m.modc 26 22 = m.kb.toNat ∧
    m.modc < 2 ^ 27 := by
  have := Fmt.codes.lt m.wa
  have := Fmt.codes.lt m.wb
  unfold MulF.modc fld
  refine ⟨?_, ?_, ?_, ?_, ?_, ?_, ?_, ?_⟩ <;> omega

theorem MulF.moda_fields : fld m.moda 1 0 = m.f.code ∧ bt m.moda 2 = m.sa ∧ bt m.moda 3 = m.sb ∧ m.moda < 2 ^ 4 := by
  have := Fus.codes.lt m.f
  have := bn_lt_two m.sa
  have := bn_lt_two m.sb
  refine ⟨?_, bt_of_eq_bn ?_, bt_of_eq_bn ?_, ?_⟩ <;> simp only [MulF.moda, fld] <;> omega

/-- The fields of a multiply come back, whatever stands beside them. -/
theorem MulF.dec_fields (o d b s2 s1 s0 : Nat) : MulF.dec ⟨o, m.moda, d, b, s2, s1, s0, m.modc⟩ = m ∧
    MulF.bad9 ⟨o, m.moda, d, b, s2, s1, s0, m.modc⟩ = false := by
  obtain ⟨hwa, hwb, hrow, hcol, hcba, hcbb, hkb, -⟩ := m.modc_fields
  obtain ⟨hff, hsa, hsb, -⟩ := m.moda_fields
  simp [MulF.dec, MulF.bad9, hwa, hwb, hrow, hcol, hcba, hcbb, hkb, hff, hsa, hsb, Fmt.codes.dec_enc, Fus.codes.dec_enc]

end

theorem MulF.enc_dec {f : XF} (h9 : MulF.bad9 f = false) (ha : f.moda < 2 ^ 4) (hc : f.modc < 2 ^ 27) :
    (MulF.dec f).moda = f.moda ∧ (MulF.dec f).modc = f.modc := by
  simp only [MulF.bad9, Bool.or_eq_false_iff] at h9
  obtain ⟨⟨hf, hwa⟩, hwb⟩ := h9
  have fus : (MulF.dec f).f.code = fld f.moda 1 0 := Fus.codes.enc_getD _ hf
  have wa : (MulF.dec f).wa.code = fld f.modc 3 0 := Fmt.codes.enc_getD _ hwa
  have wb : (MulF.dec f).wb.code = fld f.modc 7 4 := Fmt.codes.enc_getD _ hwb
  rw [MulF.moda, MulF.modc, fus, wa, wb]
  simp only [MulF.dec, BitVec.toNat_ofNat, bn_bt, fld]
  omega

theorem Region.dec_modc (r : Region) : Region.dec r.modc = r := by
  rcases r with ⟨a, b, c, d⟩
  simp only [Region.dec, Region.modc, Region.mk.injEq]
  refine ⟨?_, ?_, ?_, ?_⟩ <;> apply BitVec.eq_of_toNat_eq <;> rw [BitVec.toNat_ofNat] <;> unfold fld <;> omega

theorem Region.modc_lt (r : Region) : r.modc < 2 ^ 20 := by
  unfold Region.modc
  omega

theorem Region.modc_dec {c : Nat} (h : c < 2 ^ 20) : (Region.dec c).modc = c := by
  simp only [Region.dec, Region.modc, BitVec.toNat_ofNat, fld]
  omega

/-! ### Addresses of the MCC (R348, R349) -/

section
variable (m : XMem)

theorem XMem.modc_fields : fld m.modc 19 0 = m.offs.toNat ∧ fld m.modc 21 20 = bn m.own ∧ fld m.modc 24 22 = m.size.code ∧
    fld m.modc 26 25 = 0 ∧ fld m.modc 28 27 = 0 ∧ fld m.modc 31 29 = m.cache.code ∧ m.modc < 2 ^ 32 := by
  have := Sz.codes.lt m.size
  have := Cache.codes.lt m.cache
  have := bn_lt_two m.own
  unfold XMem.modc fld
  refine ⟨?_, ?_, ?_, ?_, ?_, ?_, ?_⟩ <;> omega

theorem bn_beq_one (b : Bool) : (bn b == 1) = b := by cases b <;> rfl

/-- The address of XLD and XST comes back from its fields, its base from the base's code. -/
theorem XMem.dec_fields (o d b s2 s1 : Nat) : XMem.dec ⟨o, 0, d, b, s2, s1, m.base.code, m.modc⟩ = { m with base := .dec m.base.code } ∧
    XMem.bad9 ⟨o, 0, d, b, s2, s1, m.base.code, m.modc⟩ = false := by
  obtain ⟨hoffs, hown, hsize, hord, hsc, hcache, -⟩ := m.modc_fields
  have := bn_lt_two m.own
  simp [XMem.dec, XMem.bad9, hoffs, hown, hsize, hord, hsc, hcache, Sz.codes.dec_enc, Cache.codes.dec_enc, bn_beq_one]
  omega

end

theorem XMem.modc_dec {f : XF} (hf : f.Fits) (h9 : XMem.bad9 f = false) : (XMem.dec f).modc = f.modc ∧ f.moda = 0 := by
  simp only [XMem.bad9, Bool.or_eq_false_iff, decide_eq_false_iff_not, bne_eq_false_iff_eq] at h9
  obtain ⟨⟨⟨⟨⟨hown, hord⟩, hsc⟩, hsz⟩, hca⟩, ha⟩ := h9
  have size : (XMem.dec f).size.code = fld f.modc 24 22 := Sz.codes.enc_getD _ hsz
  have cache : (XMem.dec f).cache.code = fld f.modc 31 29 := Cache.codes.enc_getD _ hca
  have own : bn (XMem.dec f).own = fld f.modc 21 20 := by
    have : fld f.modc 21 20 = 0 ∨ fld f.modc 21 20 = 1 := by omega
    rcases this with h | h <;> simp [XMem.dec, h, bn]
  have offs : (XMem.dec f).offs.toNat = fld f.modc 19 0 := toNat_ofNat (fld_lt _ _ _)
  have := hf.modc
  refine ⟨?_, ha⟩
  rw [XMem.modc, size, cache, own, offs]
  unfold fld at *
  omega

theorem XStamp.modc_lt (a : XStamp) : a.modc < 2 ^ 22 ∧ fld a.modc 21 20 < 2 := by
  have := bn_lt_two a.own
  unfold XStamp.modc fld
  omega

/-- A stamp address comes back from its fields, its base from the base's code. -/
theorem XStamp.dec_fields (a : XStamp) (o ma d b s2 s1 : Nat) :
    XStamp.dec ⟨o, ma, d, b, s2, s1, a.base.code, a.modc⟩ = { a with base := .dec a.base.code } := by
  have := bn_lt_two a.own
  have own : fld a.modc 21 20 = bn a.own := by unfold XStamp.modc fld; omega
  have offs : fld a.modc 19 0 = a.offs.toNat := by unfold XStamp.modc fld; omega
  simp [XStamp.dec, own, offs, bn_beq_one]

theorem XStamp.modc_dec {f : XF} (hc : f.modc < 2 ^ 22) (h : f.modc / 2 ^ 20 % 4 < 2) : (XStamp.dec f).modc = f.modc := by
  have own : bn (XStamp.dec f).own = fld f.modc 21 20 := by
    have : fld f.modc 21 20 = 0 ∨ fld f.modc 21 20 = 1 := by unfold fld; omega
    rcases this with h | h <;> simp [XStamp.dec, h, bn]
  have offs : (XStamp.dec f).offs.toNat = fld f.modc 19 0 := toNat_ofNat (fld_lt _ _ _)
  rw [XStamp.modc, own, offs]
  unfold fld at *
  omega

theorem XMem.dec_base (f : XF) : (XMem.dec f).base = .dec f.s0 := rfl

theorem XStamp.dec_base (f : XF) : (XStamp.dec f).base = .dec f.s0 := rfl

/-! ### Register codes of the MCC (R42, R344) -/

section
variable {n : Nat} (hn : n < 2 ^ 9)
include hn

theorem xOf_isNone_iff : (xOf n).isNone = false ↔ n < 0x20 := by
  revert n
  decide +kernel

theorem taOf_isNone_iff : (taOf n).isNone = false ↔ 0x20 ≤ n ∧ n < 0x24 := by
  revert n
  decide +kernel

theorem tbOf_isNone_iff : (tbOf n).isNone = false ↔ 0x24 ≤ n ∧ n < 0x28 := by
  revert n
  decide +kernel

theorem tcOf_isNone_iff : (tcOf n).isNone = false ↔ 0x28 ≤ n ∧ n < 0x2A := by
  revert n
  decide +kernel

theorem cbOf_isNone_iff : (cbOf n).isNone = false ↔ 0x2A ≤ n ∧ n < 0x2E := by
  revert n
  decide +kernel

theorem scOf_isNone_iff : (scOf n).isNone = false ↔ 0x2E ≤ n ∧ n < 0x30 := by
  revert n
  decide +kernel

theorem taOf_eq_some_iff {t : Fin 4} : taOf n = some t ↔ 0x20 + t.val = n := by
  revert n
  revert t
  decide +kernel

theorem tbOf_eq_some_iff {t : Fin 4} : tbOf n = some t ↔ 0x24 + t.val = n := by
  revert n
  revert t
  decide +kernel

omit hn in
/-- A register of a kind has the code that it is read from. -/
theorem registers_of_codes (n : Nat) : (n < 0x20 → xc ((xOf n).getD 0) = n) ∧ (0x20 ≤ n ∧ n < 0x24 → tac ((taOf n).getD 0) = n) ∧
    (0x24 ≤ n ∧ n < 0x28 → tbc ((tbOf n).getD 0) = n) ∧ (0x28 ≤ n ∧ n < 0x2A → tcc ((tcOf n).getD 0) = n) ∧
    (0x2A ≤ n ∧ n < 0x2E → 0x2A + ((cbOf n).getD 0).val = n) ∧ (0x2E ≤ n ∧ n < 0x30 → 0x2E + ((scOf n).getD 0).val = n) := by
  by_cases h : n < 0x30
  · revert n
    decide +kernel
  · refine ⟨?_, ?_, ?_, ?_, ?_, ?_⟩ <;> omega

end

end Sys2Proof
end

section
/-!
SUPPORT. Each arm of the opcode map, read backwards: an arm that a word's fields pass encodes to these very fields
(02 R36 to R42, R53).
-/

namespace Sys2Proof

/-! ### The masks of the arms -/

/-- Below a mask of low bits stand the numbers up to it. -/
theorem extraBits_le {n m w : Nat} (h : 2 ^ w % (m + 1) = 0) (hn : n < 2 ^ w) : extraBits n m w = false ↔ n < m + 1 := by
  obtain ⟨k, hk, e⟩ := (Nat.dvd_prime_pow Nat.prime_two).1 (Nat.dvd_of_mod_eq_zero h)
  have m' : m = 2 ^ k - 1 := by omega
  rw [e, m']
  exact extraBits_low k hk hn

section
variable (n : Nat)

theorem extraBits_0x18 : extraBits n 0x18 7 = false ↔ n % 2 ^ 3 = 0 ∧ n / 2 ^ 5 % 2 ^ 2 = 0 := by
  simpa using extraBits_of_runs [(0, 3), (5, 2)] (m := 0x18) (w := 7) rfl n

theorem extraBits_0x08 : extraBits n 0x08 7 = false ↔ n % 2 ^ 3 = 0 ∧ n / 2 ^ 4 % 2 ^ 3 = 0 := by
  simpa using extraBits_of_runs [(0, 3), (4, 3)] (m := 0x08) (w := 7) rfl n

theorem extraBits_0x10 : extraBits n 0x10 7 = false ↔ n % 2 ^ 4 = 0 ∧ n / 2 ^ 5 % 2 ^ 2 = 0 := by
  simpa using extraBits_of_runs [(0, 4), (5, 2)] (m := 0x10) (w := 7) rfl n

theorem extraBits_0x04 : extraBits n 0x04 7 = false ↔ n % 2 ^ 2 = 0 ∧ n / 2 ^ 3 % 2 ^ 4 = 0 := by
  simpa using extraBits_of_runs [(0, 2), (3, 4)] (m := 0x04) (w := 7) rfl n

theorem extraBits_0x70 : extraBits n 0x70 7 = false ↔ n % 2 ^ 4 = 0 := by
  simpa using extraBits_of_runs [(0, 4)] (m := 0x70) (w := 7) rfl n

theorem extraBits_0x73 : extraBits n 0x73 7 = false ↔ n / 2 ^ 2 % 2 ^ 2 = 0 := by
  simpa using extraBits_of_runs [(2, 2)] (m := 0x73) (w := 7) rfl n

theorem extraBits_0x77 : extraBits n 0x77 7 = false ↔ n / 2 ^ 3 % 2 ^ 1 = 0 := by
  simpa using extraBits_of_runs [(3, 1)] (m := 0x77) (w := 7) rfl n

theorem extraBits_0x7A : extraBits n 0x7A 7 = false ↔ n % 2 ^ 1 = 0 ∧ n / 2 ^ 2 % 2 ^ 1 = 0 := by
  simpa using extraBits_of_runs [(0, 1), (2, 1)] (m := 0x7A) (w := 7) rfl n

theorem extraBits_0x09 : extraBits n 0x09 5 = false ↔ n / 2 ^ 1 % 2 ^ 2 = 0 ∧ n / 2 ^ 4 % 2 ^ 1 = 0 := by
  simpa using extraBits_of_runs [(1, 2), (4, 1)] (m := 0x09) (w := 5) rfl n

theorem extraBits_0x12 : extraBits n 0x12 5 = false ↔ n % 2 ^ 1 = 0 ∧ n / 2 ^ 2 % 2 ^ 2 = 0 := by
  simpa using extraBits_of_runs [(0, 1), (2, 2)] (m := 0x12) (w := 5) rfl n

theorem extraBits_0x1B : extraBits n 0x1B 5 = false ↔ n / 2 ^ 2 % 2 ^ 1 = 0 := by
  simpa using extraBits_of_runs [(2, 1)] (m := 0x1B) (w := 5) rfl n

theorem extraBits_0x00EFF1FF :
    extraBits n 0x00EFF1FF 32 = false ↔ n / 2 ^ 9 % 2 ^ 3 = 0 ∧ n / 2 ^ 20 % 2 ^ 1 = 0 ∧ n / 2 ^ 24 % 2 ^ 8 = 0 := by
  simpa using extraBits_of_runs [(9, 3), (20, 1), (24, 8)] (m := 0x00EFF1FF) (w := 32) rfl n

theorem extraBits_0xF0F000 :
    extraBits n 0xF0F000 32 = false ↔ n % 2 ^ 12 = 0 ∧ n / 2 ^ 16 % 2 ^ 4 = 0 ∧ n / 2 ^ 24 % 2 ^ 8 = 0 := by
  simpa using extraBits_of_runs [(0, 12), (16, 4), (24, 8)] (m := 0xF0F000) (w := 32) rfl n

theorem extraBits_0xFFF000 : extraBits n 0xFFF000 32 = false ↔ n % 2 ^ 12 = 0 ∧ n / 2 ^ 24 % 2 ^ 8 = 0 := by
  simpa using extraBits_of_runs [(0, 12), (24, 8)] (m := 0xFFF000) (w := 32) rfl n

theorem extraBits_0x1FF000 : extraBits n 0x1FF000 32 = false ↔ n % 2 ^ 12 = 0 ∧ n / 2 ^ 21 % 2 ^ 11 = 0 := by
  simpa using extraBits_of_runs [(0, 12), (21, 11)] (m := 0x1FF000) (w := 32) rfl n

theorem extraBits_0xF01FF : extraBits n 0xF01FF 32 = false ↔ n / 2 ^ 9 % 2 ^ 7 = 0 ∧ n / 2 ^ 20 % 2 ^ 12 = 0 := by
  simpa using extraBits_of_runs [(9, 7), (20, 12)] (m := 0xF01FF) (w := 32) rfl n

theorem extraBits_0xFFFF7FFF : extraBits n 0xFFFF7FFF 32 = false ↔ n / 2 ^ 15 % 2 ^ 1 = 0 := by
  simpa using extraBits_of_runs [(15, 1)] (m := 0xFFFF7FFF) (w := 32) rfl n

end

/-- Everything that the words of an instruction set is read: the fields that its description does not use are zero, and no reserved value is met. -/
structure Arm.Clean (f : XF) (a : Arm) : Prop where
  dx : a.ud = false → f.dx = 0
  s0 : a.u0 = false → f.s0 = 0
  s1 : a.u1 = false → f.s1 = 0
  s2 : a.u2 = false → f.s2 = 0
  moda : extraBits f.moda a.am 7 = false
  modb : extraBits f.modb a.bm 5 = false
  modc : extraBits f.modc a.cm 32 = false
  three : a.three = false
  nine : a.nine = false

/-- The fields of an extended thread instruction. -/
def encFields (i : Instr) : Option XF := (encCompute i).orElse fun _ => encMemory i

/-- XBAR (R232). -/
def Instr.isXbar : Instr → Bool
  | .xbar .. => true
  | _ => false

/-- What is read from fields that are all read: an instruction with the header, whose operands have codes, which reads the literal where a field
names it, and whose own fields are these. XBAR alone reads fields that are not its own. -/
structure Arm.Yields (h : Hd) (f : XF) (a : Arm) : Prop where
  hd : a.i.hd = some h
  lit : hasLit f a.rs = true ↔ ∃ p ∈ a.i.pos, p.x = .lit
  codes : (a.i.pos.all fun p => p.x.codeable) = true
  enc : a.i.isXbar = false → encFields a.i = some f

theorem hasReserved_iff {f : XF} {rs : Option Nat} : hasReserved f rs = false ↔ (Opnd.ofCode f.dx).isNone = false ∧
    (Opnd.ofCode f.s0).isNone = false ∧ (Opnd.ofCode f.s1).isNone = false ∧ (Opnd.ofCode f.s2).isNone = false ∧
    ∀ r ∈ rs, (Opnd.ofCode r).isNone = false := by
  cases rs <;> simp [hasReserved, and_assoc]


section
variable {f : XF} (hf : f.Fits)
include hf

theorem XF.Fits.lits : (Opnd.dec f.dx = .lit ↔ f.dx = 0x1FF) ∧ (Opnd.dec f.s0 = .lit ↔ f.s0 = 0x1FF) ∧
    (Opnd.dec f.s1 = .lit ↔ f.s1 = 0x1FF) ∧ (Opnd.dec f.s2 = .lit ↔ f.s2 = 0x1FF) :=
  ⟨Opnd.dec_eq_lit_iff hf.dx, Opnd.dec_eq_lit_iff hf.s0, Opnd.dec_eq_lit_iff hf.s1, Opnd.dec_eq_lit_iff hf.s2⟩

theorem XF.Fits.codeables : (Opnd.dec f.dx).codeable = true ∧ (Opnd.dec f.s0).codeable = true ∧ (Opnd.dec f.s1).codeable = true ∧
    (Opnd.dec f.s2).codeable = true :=
  ⟨Opnd.codeable_dec hf.dx, Opnd.codeable_dec hf.s0, Opnd.codeable_dec hf.s1, Opnd.codeable_dec hf.s2⟩

theorem XF.Fits.codes {rs : Option Nat} (hr : hasReserved f rs = false) : (Opnd.dec f.dx).code = f.dx ∧ (Opnd.dec f.s0).code = f.s0 ∧
    (Opnd.dec f.s1).code = f.s1 ∧ (Opnd.dec f.s2).code = f.s2 := by
  obtain ⟨rd, r0, r1, r2, -⟩ := hasReserved_iff.1 hr
  exact ⟨Opnd.code_dec hf.dx rd, Opnd.code_dec hf.s0 r0, Opnd.code_dec hf.s1 r1, Opnd.code_dec hf.s2 r2⟩

end

theorem hasLit_iff {f : XF} {rs : Option Nat} :
    hasLit f rs = true ↔ f.dx = 0x1FF ∨ f.s0 = 0x1FF ∨ f.s1 = 0x1FF ∨ f.s2 = 0x1FF ∨ rs = some 0x1FF := by
  simp [hasLit, or_assoc]

/-- A property that a member of a list has, its head's or one of its tail's. -/
theorem exists_mem_cons_iff {α : Type} {p : α → Prop} {x : α} {l : List α} : (∃ y ∈ x :: l, p y) ↔ p x ∨ ∃ y ∈ l, p y := by simp

/-- Fields are equal where each is. -/
theorem XF.mk_eq_iff {f : XF} {o a d b x y z c : Nat} : XF.mk o a d b x y z c = f ↔
    o = f.opc ∧ a = f.moda ∧ d = f.dx ∧ b = f.modb ∧ x = f.s2 ∧ y = f.s1 ∧ z = f.s0 ∧ c = f.modc := by
  cases f
  simp

@[simp] theorem bn_false : bn false = 0 := rfl

@[simp] theorem bn_true : bn true = 1 := rfl

theorem bt_eq_true_iff {n k : Nat} : bt n k = true ↔ n / 2 ^ k % 2 = 1 := by simp [bt]

theorem bt_eq_false_iff {n k : Nat} : bt n k = false ↔ n / 2 ^ k % 2 = 0 := by
  have := Nat.mod_two_eq_zero_or_one (n / 2 ^ k)
  simp [bt]

theorem fin_eq_mod {n : Nat} [NeZero n] (x : Nat) : (fin n x).val = x % n := rfl

theorem FullCodes.enc_mod {α : Type} {dec : Nat → α} {enc : α → Nat} {w : Nat} (H : FullCodes dec enc w) {n m : Nat} (h : m = 2 ^ w) :
    enc (dec (n % m)) = n % m := by
  subst h
  exact H.enc_dec _ (Nat.mod_lt _ (Nat.two_pow_pos w))

/-- The destination of RNG (R242). -/
def RCnt.dst : RCnt → Cls
  | .n1 => { w := 32, v := true, o := true }
  | .n2 => .vo64
  | .n4 => { w := 128, v := true }

theorem Instr.pos_rng (h : Hd) (c : RCnt) (d : Opnd) (x : Option Opnd) :
    (Instr.rng h c d x).pos = ⟨d, c.dst, true⟩ :: (x.map fun a => ⟨a, .s64, false⟩).toList := by cases c <;> rfl

theorem exists_mem_append_iff {α : Type} {p : α → Prop} {l m : List α} : (∃ y ∈ l ++ m, p y) ↔ (∃ y ∈ l, p y) ∨ ∃ y ∈ m, p y := by
  simp only [List.mem_append, or_and_right, exists_or]

theorem armControl_yields {h : Hd} {f : XF} {a : Arm} (ha : armControl h f = some a) (hf : f.Fits) (hc : a.Clean f)
    (hr : hasReserved f a.rs = false) (h9 : a.i.nineOk = true) : a.Yields h f := by
  have lits := hf.lits
  have codeables := hf.codeables
  have codes := hf.codes hr
  have la := hf.moda
  have lb := hf.modb
  have lc := hf.modc
  obtain ⟨cd, c0, c1, c2, ca, cb, cc, c3, c9⟩ := hc
  unfold armControl at ha
  dsimp only at ha
  repeat' split at ha
  all_goals cases ha
  all_goals simp (disch := omega) only [forall_const, reduceCtorEq, false_implies, Bool.or_eq_false_iff, bne_eq_false_iff_eq,
    beq_eq_false_iff_ne, decide_eq_false_iff_not, bt_eq_true_iff, extraBits_le] at *
  all_goals simp only [fld, Nat.reduceSub, Nat.reduceAdd, Nat.reducePow, Nat.pow_zero, Nat.div_one] at *
  all_goals
    refine ⟨rfl, ?_, ?_, fun hx => ?_⟩ <;> dsimp only
    · simp only [hasLit_iff, Instr.pos, exists_mem_cons_iff, lits, List.not_mem_nil, false_and, exists_false, reduceCtorEq, or_false,
        iff_false, not_or]
      all_goals omega
    · simp only [Instr.pos, List.all_cons, List.all_nil, codeables, Bool.and_self]
    · simp only [encFields, encCompute, encMemory, Option.orElse_some, Option.some.injEq, XF.mk_eq_iff, codes, true_and, fin_eq_mod,
        BitVec.toNat_ofNat, bn_bt, Nat.reducePow, Nat.pow_zero, Nat.div_one, c9, Scope.codes.enc_getD, SReg.codes.enc_getD]
      all_goals omega

theorem armInteger_yields {h : Hd} {f : XF} {a : Arm} (ha : armInteger h f = some a) (hf : f.Fits) (hc : a.Clean f)
    (hr : hasReserved f a.rs = false) (h9 : a.i.nineOk = true) : a.Yields h f := by
  have lits := hf.lits
  have codeables := hf.codeables
  have codes := hf.codes hr
  have la := hf.moda
  have lb := hf.modb
  have lc := hf.modc
  obtain ⟨cd, c0, c1, c2, ca, cb, cc, c3, c9⟩ := hc
  unfold armInteger at ha
  dsimp only at ha
  repeat' split at ha
  all_goals cases ha
  all_goals simp (disch := omega) only [forall_const, reduceCtorEq, false_implies, extraBits_le, extraBits_0x18, extraBits_0x08,
    extraBits_0x10] at *
  all_goals simp only [fld, Nat.reduceSub, Nat.reduceAdd, Nat.reducePow, Nat.pow_zero, Nat.div_one] at *
  all_goals
    refine ⟨rfl, ?_, ?_, fun hx => ?_⟩ <;> dsimp only
    · simp only [hasLit_iff, Instr.pos, exists_mem_cons_iff, lits, List.not_mem_nil, false_and, exists_false, reduceCtorEq, or_false]
      all_goals omega
    · simp only [Instr.pos, List.all_cons, List.all_nil, codeables, Bool.and_self]
    · simp only [encFields, encCompute, encMemory, Option.orElse_some, Option.some.injEq, XF.mk_eq_iff, codes, bn_false, true_and,
        fin_eq_mod, BitVec.toNat_ofNat, bn_bt, Nat.reducePow, Nat.pow_zero, Nat.div_one, c9, usMod, Cmp.codes.enc_getD]
      all_goals omega

theorem armFloat_yields {h : Hd} {f : XF} {a : Arm} (ha : armFloat h f = some a) (hf : f.Fits) (hc : a.Clean f)
    (hr : hasReserved f a.rs = false) (h9 : a.i.nineOk = true) : a.Yields h f := by
  have lits := hf.lits
  have codeables := hf.codeables
  have codes := hf.codes hr
  have rc : fld f.modc 8 0 < 2 ^ 9 := fld_lt _ _ _
  have sm := SMod.enc_dec hf.modb
  obtain ⟨-, -, -, -, rr⟩ := hasReserved_iff.1 hr
  have la := hf.moda
  have lb := hf.modb
  have lc := hf.modc
  obtain ⟨cd, c0, c1, c2, ca, cb, cc, c3, c9⟩ := hc
  unfold armFloat at ha
  dsimp only at ha
  repeat' split at ha
  all_goals cases ha
  all_goals simp (disch := omega) only [forall_const, reduceCtorEq, false_implies, Bool.or_eq_false_iff, true_and, false_and,
    extraBits_le, Option.mem_def, Option.some.injEq, forall_eq', extraBits_0x1B, extraBits_0x09, extraBits_0x12, extraBits_0x77,
    extraBits_0x00EFF1FF] at *
  all_goals simp only [fld, bn_bt, Nat.reduceSub, Nat.reduceAdd, Nat.reducePow, Nat.pow_zero, Nat.div_one] at *
  all_goals
    refine ⟨rfl, ?_, ?_, fun hx => ?_⟩ <;> dsimp only
    · simp only [hasLit_iff, Instr.pos, exists_mem_cons_iff, lits, List.not_mem_nil, false_and, exists_false, reduceCtorEq, or_false,
        List.cons_append, List.nil_append, Rnd.exists_lit_dec, c3, rc, Option.some.injEq, Nat.reducePow]
      all_goals omega
    · simp only [Instr.pos, List.all_cons, List.all_nil, codeables, Bool.and_self, List.cons_append, List.nil_append,
        Rnd.all_codeable_dec, rc, Nat.reducePow]
    · simp only [encFields, encCompute, encMemory, Option.orElse_some, Option.some.injEq, XF.mk_eq_iff, codes, bn_false, true_and,
        fin_eq_mod, BitVec.toNat_ofNat, bn_bt, Nat.reducePow, Nat.pow_zero, Nat.div_one, c9, cvtX, FCmp.codes.enc_mod, Fmt.codes.enc_getD,
        Rnd.enc_dec, c3, rr, rc]
      all_goals omega

theorem armLane_yields {h : Hd} {f : XF} {a : Arm} (ha : armLane h f = some a) (hf : f.Fits) (hc : a.Clean f)
    (hr : hasReserved f a.rs = false) (h9 : a.i.nineOk = true) : a.Yields h f := by
  have lits := hf.lits
  have codeables := hf.codeables
  have codes := hf.codes hr
  have la := hf.moda
  have lb := hf.modb
  have lc := hf.modc
  obtain ⟨cd, c0, c1, c2, ca, cb, cc, c3, c9⟩ := hc
  unfold armLane at ha
  dsimp only at ha
  repeat' split at ha
  all_goals cases ha
  all_goals simp (disch := omega) only [forall_const, reduceCtorEq, false_implies, bt_eq_true_iff, extraBits_le, extraBits_0x70,
    extraBits_0x73] at *
  all_goals simp only [fld, Nat.reduceSub, Nat.reduceAdd, Nat.reducePow, Nat.pow_zero, Nat.div_one] at *
  all_goals
    refine ⟨rfl, ?_, ?_, fun hx => ?_⟩ <;> dsimp only
    · simp only [hasLit_iff, Instr.pos, exists_mem_cons_iff, lits, List.not_mem_nil, false_and, exists_false, reduceCtorEq, or_false,
        iff_false, not_or]
      all_goals omega
    · simp only [Instr.pos, List.all_cons, List.all_nil, codeables, Bool.and_self]
    · simp only [encFields, encCompute, encMemory, Option.orElse_some, Option.some.injEq, XF.mk_eq_iff, codes, true_and, fin_eq_mod,
        BitVec.toNat_ofNat, bn_bt, Nat.reducePow, Nat.pow_zero, Nat.div_one, c9, VMode.codes.enc_mod, ShMode.codes.enc_mod,
        Wid.codes.enc_getD, COp.codes.enc_getD]
      all_goals omega

theorem armMemory_yields {h : Hd} {f : XF} {a : Arm} (ha : armMemory h f = some a) (hf : f.Fits) (hc : a.Clean f)
    (hr : hasReserved f a.rs = false) (h9 : a.i.nineOk = true) : a.Yields h f := by
  have lits := hf.lits
  have codeables := hf.codeables
  have codes := hf.codes hr
  obtain ⟨-, -, -, r2, -⟩ := hasReserved_iff.1 hr
  have la := hf.moda
  have lb := hf.modb
  have lc := hf.modc
  obtain ⟨cd, c0, c1, c2, ca, cb, cc, c3, c9⟩ := hc
  unfold armMemory at ha
  dsimp only at ha
  repeat' split at ha
  all_goals cases ha
  all_goals simp (disch := omega) only [forall_const, reduceCtorEq, false_implies, Bool.or_eq_false_iff, bne_eq_false_iff_eq,
    beq_eq_false_iff_ne, true_and, bt_eq_true_iff, bt_eq_false_iff, extraBits_le, extraBits_0x73, extraBits_0x77] at *
  all_goals simp only [fld, Nat.reduceSub, Nat.reduceAdd, Nat.reducePow, Nat.pow_zero, Nat.div_one] at *
  all_goals
    refine ⟨rfl, ?_, ?_, fun hx => ?_⟩ <;> dsimp only
    · simp only [hasLit_iff, Instr.pos, exists_mem_cons_iff, lits, List.not_mem_nil, false_and, exists_false, reduceCtorEq, or_false,
        iff_false, not_or, ↓Instr.pos_rng, exists_mem_append_iff, List.cons_append, MemF.exists_lit_dec hf, c9, Option.map_some,
        Option.toList_some, Option.map_none, Option.toList_none]
      all_goals omega
    · simp only [Instr.pos, List.all_cons, List.all_nil, codeables, Bool.and_self, ↓Instr.pos_rng, List.all_append, List.cons_append,
        MemF.all_codeable_dec hf, c9, Option.map_some, Option.toList_some, Option.map_none, Option.toList_none]
    · simp only [Instr.isXbar, reduceCtorEq] at hx
      all_goals simp only [encFields, encCompute, encMemory, Option.orElse_none, Option.some.injEq, XF.mk_eq_iff, codes, bn_false,
        bn_true, true_and, and_true,
        fin_eq_mod, bn_bt, Nat.reducePow, Nat.pow_zero, Nat.div_one, c9, memX, MemF.role_dec hf, MemF.modc_dec hf, MemF.s2_dec hf,
          ite_eq_left_iff, r2, MemF.dec_base, AOp.codes.enc_getD, FKind.codes.enc_getD, Scope.codes.enc_getD, RCnt.codes.enc_getD,
          Option.isSome_some, Option.isSome_none]
      all_goals omega

theorem armStream_yields {h : Hd} {f : XF} {a : Arm} (ha : armStream h f = some a) (hf : f.Fits) (hc : a.Clean f)
    (hr : hasReserved f a.rs = false) (h9 : a.i.nineOk = true) : a.Yields h f := by
  have lits := hf.lits
  have codeables := hf.codeables
  have codes := hf.codes hr
  have la := hf.moda
  have lb := hf.modb
  have lc := hf.modc
  obtain ⟨cd, c0, c1, c2, ca, cb, cc, c3, c9⟩ := hc
  unfold armStream at ha
  dsimp only at ha
  repeat' split at ha
  all_goals cases ha
  all_goals simp (disch := omega) only [forall_const, reduceCtorEq, false_implies, bt_eq_true_iff, bt_eq_false_iff, extraBits_le,
    extraBits_0x04] at *
  all_goals simp only [fld, Nat.reduceSub, Nat.reduceAdd, Nat.reducePow, Nat.pow_zero, Nat.div_one] at *
  all_goals
    refine ⟨rfl, ?_, ?_, fun hx => ?_⟩ <;> dsimp only
    · simp only [hasLit_iff, Instr.pos, exists_mem_cons_iff, lits, List.not_mem_nil, false_and, exists_false, reduceCtorEq, or_false,
        iff_false, not_or, List.cons_append, List.nil_append, Option.map_some, Option.toList_some, Option.map_none, Option.toList_none]
      all_goals omega
    · simp only [Instr.pos, List.all_cons, List.all_nil, codeables, Bool.and_self, List.cons_append, List.nil_append, Option.map_some,
        Option.toList_some, Option.map_none, Option.toList_none]
    · simp only [encFields, encCompute, encMemory, Option.orElse_none, Option.some.injEq, XF.mk_eq_iff, codes, bn_false, bn_true,
        true_and, fin_eq_mod, bn_bt, Nat.reducePow, Nat.pow_zero, Nat.div_one, SField.codes.enc_mod, Option.isSome_some, Option.isSome_none]
      all_goals omega

theorem armAcc_yields {h : Hd} {f : XF} {a : Arm} (ha : armAcc h f = some a) (hf : f.Fits) (hc : a.Clean f)
    (hr : hasReserved f a.rs = false) (h9 : a.i.nineOk = true) : a.Yields h f := by
  have lits := hf.lits
  have codeables := hf.codeables
  have codes := hf.codes hr
  have rc : fld f.modc 8 0 < 2 ^ 9 := fld_lt _ _ _
  obtain ⟨-, -, -, r2, rr⟩ := hasReserved_iff.1 hr
  have la := hf.moda
  have lb := hf.modb
  have lc := hf.modc
  obtain ⟨cd, c0, c1, c2, ca, cb, cc, c3, c9⟩ := hc
  unfold armAcc at ha
  dsimp only at ha
  repeat' split at ha
  all_goals cases ha
  all_goals simp (disch := omega) only [forall_const, reduceCtorEq, false_implies, Bool.or_eq_false_iff, bne_eq_false_iff_eq,
    beq_eq_false_iff_ne, true_and, bt_eq_true_iff, extraBits_le, Option.mem_def, Option.some.injEq, forall_eq', extraBits_0x73,
      extraBits_0xF0F000, extraBits_0xFFF000, extraBits_0x1FF000, extraBits_0xF01FF] at *
  all_goals simp only [fld, Nat.reduceSub, Nat.reduceAdd, Nat.reducePow, Nat.pow_zero, Nat.div_one] at *
  all_goals
    refine ⟨rfl, ?_, ?_, fun hx => ?_⟩ <;> dsimp only
    · simp only [hasLit_iff, Instr.pos, exists_mem_cons_iff, lits, List.not_mem_nil, false_and, exists_false, reduceCtorEq, or_false,
        exists_mem_append_iff, List.cons_append, List.nil_append, MemF.exists_lit_dec hf, c9, Rnd.exists_lit_dec, c3, rc,
        Option.some.injEq, Nat.reducePow]
      all_goals omega
    · simp only [Instr.pos, List.all_cons, List.all_nil, codeables, Bool.and_self, List.all_append, List.cons_append, List.nil_append,
        MemF.all_codeable_dec hf, c9, Rnd.all_codeable_dec, rc, Nat.reducePow]
    · simp only [encFields, encCompute, encMemory, Option.orElse_none, Option.some.injEq, XF.mk_eq_iff, codes, true_and, and_true,
        fin_eq_mod, BitVec.toNat_ofNat, bn_bt, Nat.reducePow, Nat.pow_zero, Nat.div_one, c9, memX, MemF.role_dec hf, MemF.modc_dec hf,
          MemF.s2_dec hf, ite_eq_left_iff, r2, MemF.dec_base, AccSel.codes.enc_getD, Wid.codes.enc_getD, Fmt.codes.enc_getD, Rnd.enc_dec,
          c3, rr, rc]
      all_goals omega

theorem armCopy_yields {h : Hd} {f : XF} {a : Arm} (ha : armCopy h f = some a) (hf : f.Fits) (hc : a.Clean f)
    (hr : hasReserved f a.rs = false) (h9 : a.i.nineOk = true) : a.Yields h f := by
  have lits := hf.lits
  have codeables := hf.codeables
  have codes := hf.codes hr
  have la := hf.moda
  have lb := hf.modb
  have lc := hf.modc
  obtain ⟨cd, c0, c1, c2, ca, cb, cc, c3, c9⟩ := hc
  unfold armCopy at ha
  dsimp only at ha
  repeat' split at ha
  all_goals cases ha
  all_goals simp (disch := omega) only [forall_const, reduceCtorEq, false_implies, Bool.or_eq_false_iff, bne_eq_false_iff_eq,
    true_and, bt_eq_true_iff, bt_eq_false_iff, extraBits_le, extraBits_0xFFFF7FFF] at *
  all_goals simp only [fld, Nat.reduceSub, Nat.reduceAdd, Nat.reducePow, Nat.pow_zero, Nat.div_one] at *
  all_goals
    refine ⟨rfl, ?_, ?_, fun hx => ?_⟩ <;> dsimp only
    · simp only [hasLit_iff, Instr.pos, exists_mem_cons_iff, lits, List.not_mem_nil, false_and, exists_false, reduceCtorEq, or_false,
        List.cons_append, List.nil_append, Option.map_some, Option.toList_some, Option.map_none, Option.toList_none]
      all_goals omega
    · simp only [Instr.pos, List.all_cons, List.all_nil, codeables, Bool.and_self, List.cons_append, List.nil_append, Option.map_some,
        Option.toList_some, Option.map_none, Option.toList_none]
    · simp only [encFields, encCompute, encMemory, Option.orElse_none, Option.some.injEq, XF.mk_eq_iff, codes, true_and, and_true,
        fin_eq_mod, BitVec.toNat_ofNat, bn_bt, Nat.reduceAdd, Nat.reducePow, Nat.pow_zero, Nat.div_one, c9, cpyX, if_true,
          Bool.false_eq_true, if_false, CpyF.moda_dec, CpyF.modc_dec hf, ca, cc, Nat.reducePow, Fmt.codes.enc_getD, Option.isSome_some,
          Option.isSome_none]
      all_goals omega


/-- What is read from fields that are all read by the MCC: an instruction of the MCC, whose operands have codes, which reads the literal where a
field names it, and whose own fields are these. -/
structure Arm.MccYields (lit : Option W64) (f : XF) (a : Arm) : Prop where
  mcc : a.i.isMcc = true
  mlit : a.i.mlit = lit ∨ a.i.mlit = none ∧ a.i.mpos = []
  lit : hasLit f none = true ↔ ∃ p ∈ a.i.mpos, p.1 = .lit
  codes : (a.i.mpos.all fun p => p.1.codeable) = true
  enc : encMcc a.i = some f

section
variable {f : XF} (hf : f.Fits)
include hf

theorem XF.Fits.mccLits : (MOpnd.dec f.s0 = .lit ↔ f.s0 = 0x1FF) ∧ (MOpnd.dec f.s1 = .lit ↔ f.s1 = 0x1FF) ∧
    (MOpnd.dec f.s2 = .lit ↔ f.s2 = 0x1FF) :=
  ⟨MOpnd.dec_eq_lit_iff hf.s0, MOpnd.dec_eq_lit_iff hf.s1, MOpnd.dec_eq_lit_iff hf.s2⟩

theorem XF.Fits.mccCodeables : (MOpnd.dec f.s0).codeable = true ∧ (MOpnd.dec f.s1).codeable = true ∧ (MOpnd.dec f.s2).codeable = true :=
  ⟨MOpnd.codeable_dec hf.s0, MOpnd.codeable_dec hf.s1, MOpnd.codeable_dec hf.s2⟩

theorem XF.Fits.mccCodes {a : Arm} (h5 : mccFive f a = false) : (MOpnd.dec f.s0).code = f.s0 ∧ (MOpnd.dec f.s1).code = f.s1 ∧
    (MOpnd.dec f.s2).code = f.s2 := by
  have listed : ∀ n ∈ [f.dx, f.s0, f.s1, f.s2], (MOpnd.ofCode n).isNone = false := by
    simp only [mccFive, Bool.or_eq_false_iff, List.any_eq_false, Bool.not_eq_true] at h5
    exact h5.1.1
  exact ⟨MOpnd.code_dec hf.s0 (listed _ (by simp)), MOpnd.code_dec hf.s1 (listed _ (by simp)), MOpnd.code_dec hf.s2 (listed _ (by simp))⟩

end

theorem armXScalar_yields {lit : Option W64} {f : XF} {a : Arm} (ha : armXScalar lit f = some a) (hf : f.Fits) (hc : a.Clean f)
    (h5 : mccFive f a = false) (c5 : a.five = false) : a.MccYields lit f := by
  have lits := hf.mccLits
  have codeables := hf.mccCodeables
  have codes := hf.mccCodes h5
  have la := hf.moda
  have lb := hf.modb
  have lc := hf.modc
  obtain ⟨cd, c0, c1, c2, ca, cb, cc, c3, c9⟩ := hc
  unfold armXScalar at ha
  dsimp only at ha
  repeat' split at ha
  all_goals cases ha
  all_goals simp only [Bool.or_eq_false_iff, Bool.and_eq_false_iff, xOf_isNone_iff hf.dx] at c5
  all_goals simp (disch := omega) only [forall_const, reduceCtorEq, false_implies, Bool.or_eq_false_iff, Bool.and_eq_false_iff,
    bne_eq_false_iff_eq, not_le, Bool.not_eq_false',
    decide_eq_false_iff_not, true_and, false_and, bt_eq_true_iff, bt_eq_false_iff, extraBits_le] at *
  all_goals simp only [fld, Nat.reduceSub, Nat.reduceAdd, Nat.reducePow, Nat.pow_zero, Nat.div_one] at *
  all_goals
    refine ⟨rfl, ?_, ?_, ?_, ?_⟩ <;> dsimp only
    · simp only [Instr.mlit, Instr.mpos, true_or, and_self, or_true]
    · rw [hasLit_iff]
      simp only [Instr.mpos, exists_mem_cons_iff, lits, List.not_mem_nil, false_and, exists_false, reduceCtorEq, or_false, iff_false,
        not_or, XMem.dec_base, XStamp.dec_base]
      all_goals omega
    · simp only [Instr.mpos, List.all_cons, List.all_nil, codeables, Bool.and_self, XMem.dec_base, XStamp.dec_base]
    · refine Eq.trans (b := some _) rfl ?_
      simp (disch := omega) only [Option.some.injEq, registers_of_codes, XStamp.modc_dec]
      simp only [XF.mk_eq_iff, codes, bn_false, bn_true, true_and, and_true, XMem.dec_base, XStamp.dec_base, XMem.modc_dec hf,
        Option.isSome_some, Option.isSome_none,
        BitVec.toNat_ofNat, bn_bt, Nat.reducePow, Nat.pow_zero, Nat.div_one, c9, XlOp.codes.enc_mod, XsOp.codes.enc_mod,
          Cmp.codes.enc_getD, XCond.codes.enc_getD]
      all_goals omega

theorem armTile_yields {lit : Option W64} {f : XF} {a : Arm} (ha : armTile lit f = some a) (hf : f.Fits) (hc : a.Clean f)
    (h5 : mccFive f a = false) (c5 : a.five = false) : a.MccYields lit f := by
  have lits := hf.mccLits
  have codeables := hf.mccCodeables
  have codes := hf.mccCodes h5
  have la := hf.moda
  have lb := hf.modb
  have lc := hf.modc
  obtain ⟨cd, c0, c1, c2, ca, cb, cc, c3, c9⟩ := hc
  unfold armTile at ha
  dsimp only at ha
  repeat' split at ha
  all_goals cases ha
  all_goals simp only [Bool.or_eq_false_iff, xOf_isNone_iff hf.dx, tcOf_isNone_iff hf.dx, taOf_isNone_iff hf.dx, taOf_isNone_iff hf.s0,
    tbOf_isNone_iff hf.s1, tcOf_isNone_iff hf.s0, cbOf_isNone_iff hf.dx, scOf_isNone_iff hf.dx] at c5
  all_goals simp (disch := omega) only [forall_const, reduceCtorEq, false_implies, Bool.or_eq_false_iff, Bool.and_eq_false_iff,
    bne_eq_false_iff_eq, bt_eq_true_iff, bt_eq_false_iff, Option.isNone_none, Option.isNone_some, taOf_eq_some_iff hf.dx,
    tbOf_eq_some_iff hf.dx, extraBits_le, extraBits_0x7A] at *
  all_goals simp only [fld, Nat.reduceSub, Nat.reduceAdd, Nat.reducePow, Nat.pow_zero, Nat.div_one] at *
  all_goals
    refine ⟨rfl, ?_, ?_, ?_, ?_⟩ <;> dsimp only
    · simp only [Instr.mlit, Instr.mpos, true_or, and_self, or_true]
    · rw [hasLit_iff]
      simp only [Instr.mpos, exists_mem_cons_iff, lits, List.not_mem_nil, false_and, exists_false, reduceCtorEq, or_false, iff_false,
        not_or]
      all_goals omega
    · simp only [Instr.mpos, List.all_cons, List.all_nil, codeables, Bool.and_self]
    · refine Eq.trans (b := some _) rfl ?_
      simp (disch := omega) only [Option.some.injEq, registers_of_codes, Region.modc_dec]
      simp only [XF.mk_eq_iff, codes, tac, tbc, true_and, and_true, fin_eq_mod, BitVec.toNat_ofNat, bn_bt, Nat.reducePow, Nat.pow_zero,
        Nat.div_one, c9, Fmt.codes.enc_getD, RMode.codes.enc_getD, MulF.enc_dec, ca, cc, Fus.codes.enc_getD, Option.getD_some]
      all_goals omega

end Sys2Proof
end

section
/-!
SUPPORT. What a decoder that gives no reason has found (R53), and what of it makes a well-formed instruction.
-/

namespace Sys2Proof

/-! ### No reason of a list holds (R53) -/

theorem firstReason_eq_none {l : List (Nat × Bool)} : firstReason l = none ↔ ∀ p ∈ l, p.2 = false := by
  induction l with
  | nil => simp [firstReason]
  | cons p l ih =>
    obtain ⟨n, b⟩ := p
    cases b <;> simp [firstReason, ih]

/-- No reason of R53 stands against a thread instruction. -/
structure ThreadOk (c : DCtx) (h : Hd) (f : XF) (a : Arm) : Prop where
  lit : h.lit.isSome = hasLit f a.rs
  lit32 : litBad32 h.lit a.i.pos = false
  chain : h.chain = true → a.i.chainOk = true ∧ c.chainPos < 15
  handler : a.i.handlerBad c = false
  reserved : hasReserved f a.rs = false
  classes : ∀ p ∈ a.i.pos, p.cls.fault p.x ≠ 5 ∧ p.x.beyond c p.cls.w = false ∧ p.cls.fault p.x ≠ 10
  ports : streamQ f = false
  clean : a.Clean f
  wbs : h.wbs = true → a.i.wbsOk = true
  threeOk : a.i.threeOk = true
  guard : (h.pred, h.pneg) ≠ (7, true)
  nineOk : a.i.nineOk = true
  gang : a.i.gangBad c = false

theorem threadReason_eq_none {c : DCtx} {h : Hd} {f : XF} {a : Arm} : threadReason c h f a = none ↔ ThreadOk c h f a := by
  simp only [threadReason, firstReason_eq_none, List.forall_mem_cons, List.not_mem_nil, false_implies, implies_true, and_true,
    Bool.or_eq_false_iff, Bool.and_eq_false_imp, bne_eq_false_iff_eq, decide_eq_false_iff_not, Bool.not_eq_true', Bool.not_eq_false',
    List.any_eq_false, Pos.five, Bool.not_eq_true, beq_eq_false_iff_ne, beq_iff_eq, not_le]
  constructor
  · rintro ⟨⟨lit, lit32⟩, chain, handler, reserved, ⟨five, ports⟩, ten, ⟨⟨⟨⟨⟨⟨⟨⟨⟨d, z0⟩, z1⟩, z2⟩, ma⟩, mb⟩, mc⟩, wbs⟩, three⟩, threeOk⟩,
      ⟨⟨guard, nine⟩, nineOk⟩, gang⟩
    exact ⟨lit, lit32, chain, handler, reserved, fun p hp => ⟨(five p hp).1, (five p hp).2, ten p hp⟩, ports,
      ⟨d, z0, z1, z2, ma, mb, mc, three, nine⟩, wbs, threeOk, by simpa using guard, nineOk, gang⟩
  · rintro ⟨lit, lit32, chain, handler, reserved, classes, ports, ⟨d, z0, z1, z2, ma, mb, mc, three, nine⟩, wbs, threeOk, guard, nineOk,
      gang⟩
    exact ⟨⟨lit, lit32⟩, chain, handler, reserved, ⟨fun p hp => ⟨(classes p hp).1, (classes p hp).2.1⟩, ports⟩,
      fun p hp => (classes p hp).2.2,
      ⟨⟨⟨⟨⟨⟨⟨⟨⟨d, z0⟩, z1⟩, z2⟩, ma⟩, mb⟩, mc⟩, wbs⟩, three⟩, threeOk⟩, ⟨⟨by simpa using guard, nine⟩, nineOk⟩, gang⟩

/-- No reason of R53 stands against an MCC instruction. -/
structure MccOk (c : DCtx) (lit : Option W64) (f : XF) (a : Arm) : Prop where
  lit : lit.isSome = hasLit f none
  five : a.five = false
  codes : mccFive f a = false
  classes : ∀ p ∈ a.i.mpos, p.2.ok p.1 = true
  clean : a.Clean f
  threeOk : a.i.threeOk = true
  nineOk : a.i.nineOk = true
  gang : a.i.gangBad c = false

theorem mccReason_eq_none {c : DCtx} {lit : Option W64} {f : XF} {a : Arm} : mccReason c lit f a = none ↔ MccOk c lit f a := by
  simp only [mccReason, firstReason_eq_none, List.forall_mem_cons, List.not_mem_nil, false_implies, implies_true, and_true,
    Bool.or_eq_false_iff, Bool.and_eq_false_imp, bne_eq_false_iff_eq, Bool.not_eq_true', Bool.not_eq_false',
    List.any_eq_false, Bool.not_eq_false]
  constructor
  · rintro ⟨lit, ⟨⟨five, codes⟩, classes⟩, ⟨⟨⟨⟨⟨⟨⟨⟨d, z0⟩, z1⟩, z2⟩, ma⟩, mb⟩, mc⟩, three⟩, threeOk⟩, ⟨nine, nineOk⟩, gang⟩
    exact ⟨lit, five, codes, classes, ⟨d, z0, z1, z2, ma, mb, mc, three, nine⟩, threeOk, nineOk, gang⟩
  · rintro ⟨lit, five, codes, classes, ⟨d, z0, z1, z2, ma, mb, mc, three, nine⟩, threeOk, nineOk, gang⟩
    exact ⟨lit, ⟨⟨five, codes⟩, classes⟩, ⟨⟨⟨⟨⟨⟨⟨⟨d, z0⟩, z1⟩, z2⟩, ma⟩, mb⟩, mc⟩, three⟩, threeOk⟩, ⟨nine, nineOk⟩, gang⟩

/-- No reason of R53 stands against a compact instruction. -/
structure CompactOk (c : DCtx) (h : Ch) (i : Instr) (bad3 : Bool) (opc src : Nat) : Prop where
  lit : h.lit.isSome = (opc != 2 && src == 0x1FF)
  lit32 : litBad32 h.lit i.pos = false
  chain : h.chain = true → i.chainOk = true ∧ c.chainPos < 15
  handler : i.handlerBad c = false
  reserved : opc ≠ 2 → c.mcc = false → (Opnd.ofCode src).isNone = false
  classes : ∀ p ∈ i.pos, p.cls.fault p.x ≠ 5 ∧ p.x.beyond c p.cls.w = false ∧ p.cls.fault p.x ≠ 10
  mccCode : c.mcc = true → (MOpnd.ofCode src).isNone = false
  zeros : bad3 = false
  guard : (h.pred, h.pneg) ≠ (7, true)
  nineOk : i.nineOk = true

theorem compactReason_eq_none {c : DCtx} {h : Ch} {i : Instr} {bad3 : Bool} {opc src : Nat} :
    compactReason c h i bad3 opc src = none ↔ CompactOk c h i bad3 opc src := by
  simp only [compactReason, firstReason_eq_none, List.forall_mem_cons, List.not_mem_nil, false_implies, implies_true, and_true,
    Bool.or_eq_false_iff, Bool.and_eq_false_imp, bne_eq_false_iff_eq, decide_eq_false_iff_not, Bool.not_eq_true', Bool.not_eq_false',
    List.any_eq_false, Pos.five, Bool.not_eq_true, beq_eq_false_iff_ne, beq_iff_eq, not_le, bne_iff_ne, Bool.and_eq_true]
  constructor
  · rintro ⟨⟨lit, lit32⟩, chain, handler, reserved, ⟨five, code⟩, ten, zeros, guard, nineOk⟩
    exact ⟨lit, lit32, chain, handler, fun o m => reserved ⟨o, m⟩, fun p hp => ⟨(five p hp).1, (five p hp).2, ten p hp⟩, code, zeros,
      by simpa using guard, nineOk⟩
  · rintro ⟨lit, lit32, chain, handler, reserved, classes, code, zeros, guard, nineOk⟩
    exact ⟨⟨lit, lit32⟩, chain, handler, fun r => reserved r.1 r.2, ⟨fun p hp => ⟨(classes p hp).1, (classes p hp).2.1⟩, code⟩,
      fun p hp => (classes p hp).2.2, zeros, by simpa using guard, nineOk⟩

/-! ### Classes and literals -/

/-- A class refuses an operand for one of two reasons (R37, R38, R40). -/
theorem Cls.fault_cases (k : Cls) (x : Opnd) : k.fault x = 0 ∨ k.fault x = 5 ∨ k.fault x = 10 := by
  cases x <;> simp only [Cls.fault] <;> split_ifs <;> simp

/-- A class that gives neither reason accepts. -/
theorem Cls.ok_of_fault {k : Cls} {x : Opnd} (h5 : k.fault x ≠ 5) (h10 : k.fault x ≠ 10) : k.ok x = true := by
  rcases k.fault_cases x with h | h | h
  · simp [Cls.ok, h]
  · exact absurd h h5
  · exact absurd h h10

theorem Cls.fault_of_ok {k : Cls} {x : Opnd} (h : k.ok x = true) : k.fault x ≠ 5 ∧ k.fault x ≠ 10 := by
  have : k.fault x = 0 := by simpa [Cls.ok] using h
  simp [this]

/-- A position is a source, or takes no literal. -/
def Pos.litSource (p : Pos) : Bool := !p.dst || !p.cls.lit

theorem Pos.litSource_source (x : Opnd) (k : Cls) : Pos.litSource ⟨x, k, false⟩ = true := rfl

theorem Pos.litSource_dst (x : Opnd) (k : Cls) : Pos.litSource ⟨x, k, true⟩ = !k.lit := rfl

theorem Rnd.all_litSource (r : Rnd) : r.pos.all Pos.litSource = true := by cases r <;> rfl

theorem MemF.all_litSource (m : MemF) : m.pos.all Pos.litSource = true := by
  unfold MemF.pos
  split <;> rfl

/-- No destination takes a literal (R175). -/
theorem Instr.all_litSource (i : Instr) : i.pos.all Pos.litSource = true := by
  have opt : ∀ (o : Option Opnd) (k : Cls), ((o.map fun a => (⟨a, k, false⟩ : Pos)).toList.all Pos.litSource) = true := by
    rintro (_ | _) k <;> rfl
  have ld : ∀ z : Sz, (Cls.ldDst z).lit = false := by rintro (_ | _ | _ | _ | _) <;> rfl
  cases i
  case' call h d t => cases t
  case' rqset h o n => cases o
  case' pmov h x => cases x
  case' rng h c d x => cases c
  case' xbar h o a b => cases o
  case' aacc h m t => cases t
  case' pfop h d a b o f r m => cases o
  all_goals simp only [Instr.pos, List.all_cons, List.all_append, List.all_nil, Pos.litSource_source, Pos.litSource_dst, Rnd.all_litSource,
    MemF.all_litSource, opt, ld, apply_ite Cls.lit, ite_self, Cls.vo64, Cls.vob, Cls.d32, Cls.d64, Cls.dC, Cls.acc, Cls.atDst,
      Bool.not_false,
    Bool.and_self]

theorem Instr.dst_refuses_lit {i : Instr} {p : Pos} (hp : p ∈ i.pos) (hd : p.dst = true) : p.cls.lit = false := by
  have h := List.all_eq_true.1 i.all_litSource p hp
  simpa [Pos.litSource, hd] using h

/-- A class without the literal refuses it. -/
theorem Cls.lit_of_ok {k : Cls} (h : k.ok .lit = true) : k.lit = true := by
  by_contra hk
  simp [Cls.ok, Cls.fault, Bool.not_eq_true _ ▸ hk] at h

/-- The rule of R25 and R26: the literal is there where a position names it, and where one is 32 bits wide it is well-formed. -/
theorem litFault_eq_false_iff {lit : Option W64} {ps : List Pos} : litFault lit ps = false ↔
    (lit.isSome = true ↔ ∃ p ∈ ps, p.x = .lit) ∧ ∀ x, lit = some x → ∀ p ∈ ps, p.x = .lit → p.cls.w = 32 → litOk32 x = true := by
  cases lit with
  | none => simp [litFault]
  | some x =>
    by_cases used : ∃ p ∈ ps, p.x = .lit
    · simp only [litFault, Option.isSome_some, used, Option.some.injEq, forall_eq', true_and]
      have u : (ps.any fun p => p.x == .lit) = true := by simpa using used
      simp only [u, Bool.not_true, Bool.false_or, Bool.and_eq_false_imp, List.any_eq_true, Bool.and_eq_true, beq_iff_eq, Bool.not_eq_false']
      exact ⟨fun h p hp hl hw => h ⟨p, hp, hl, hw⟩, fun h ⟨p, hp, hl, hw⟩ => h p hp hl hw⟩
    · have u : (ps.any fun p => p.x == .lit) = false := by simpa using used
      simp [litFault, used, u]

theorem litBad32_eq_false_iff {lit : Option W64} {ps : List Pos} : litBad32 lit ps = false ↔
    ∀ x, lit = some x → ∀ p ∈ ps, p.x = .lit → p.cls.w = 32 → p.dst = false → litOk32 x = true := by
  cases lit with
  | none => simp [litBad32]
  | some x =>
    simp only [litBad32, Option.some.injEq, forall_eq', Bool.and_eq_false_imp, List.any_eq_true, Bool.and_eq_true, beq_iff_eq,
      Bool.not_eq_false', Bool.not_eq_true']
    exact ⟨fun h p hp hl hw hd => h ⟨p, hp, ⟨hl, hw⟩, hd⟩, fun h ⟨p, hp, ⟨hl, hw⟩, hd⟩ => h p hp hl hw hd⟩

theorem mlitFault_eq_false_iff {lit : Option W64} {ps : List (MOpnd × MCls)} : mlitFault lit ps = false ↔
    (lit.isSome = true ↔ ∃ p ∈ ps, p.1 = .lit) := by
  rw [mlitFault, bne_eq_false_iff_eq, Bool.eq_iff_iff, List.any_eq_true]
  simp only [beq_iff_eq]
  exact iff_comm

/-- The decoder reads the literal of no destination; positions whose classes hold have none there. -/
theorem litFault_of_ok {i : Instr} {lit : Option W64} (hl : lit.isSome = true ↔ ∃ p ∈ i.pos, p.x = .lit) (h32 : litBad32 lit i.pos = false)
    (hc : ∀ p ∈ i.pos, p.cls.ok p.x = true) : litFault lit i.pos = false := by
  refine litFault_eq_false_iff.2 ⟨hl, fun x hx p hp hpl hw => ?_⟩
  refine litBad32_eq_false_iff.1 h32 x hx p hp hpl hw ?_
  by_contra hd
  have refuses := Instr.dst_refuses_lit hp (by simpa using hd)
  have accepts := Cls.lit_of_ok (hpl ▸ hc p hp)
  simp [refuses] at accepts

theorem litBad32_of_litFault {lit : Option W64} {ps : List Pos} (h : litFault lit ps = false) : litBad32 lit ps = false :=
  litBad32_eq_false_iff.2 fun x hx p hp hl hw _ => (litFault_eq_false_iff.1 h).2 x hx p hp hl hw

/-! ### The kinds of instructions -/

theorem Instr.of_hd {i : Instr} {h : Hd} (e : i.hd = some h) : i.ch = none ∧ i.isMcc = false ∧ i.mpos = [] := by
  cases i <;> cases e <;> exact ⟨rfl, rfl, rfl⟩

theorem Instr.of_ch {i : Instr} {h : Ch} (e : i.ch = some h) : i.hd = none ∧ i.isMcc = false ∧ i.mpos = [] ∧ i.wbs = false ∧ i.threeOk = true := by
  cases i <;> cases e <;> exact ⟨rfl, rfl, rfl, rfl, rfl⟩

theorem Instr.of_isMcc {i : Instr} (e : i.isMcc = true) : i.hd = none ∧ i.ch = none ∧ i.pos = [] := by
  cases i <;> cases e <;> exact ⟨rfl, rfl, rfl⟩

/-! ### Well-formed instructions, by kind -/

/-- A thread instruction with its control fields, those of a compact word standing as an extended one's (R31). -/
structure Instr.Header (i : Instr) (h : Hd) : Prop where
  encodable : i.encodable = true
  mcc : i.isMcc = false
  mpos : i.mpos = []
  lit : i.lit = h.lit
  guard : i.guard = (h.pred, h.pneg)
  chain : i.chain = h.chain
  wbs : i.wbs = h.wbs

theorem Instr.header_of_hd {i : Instr} {h : Hd} (e : i.hd = some h) : i.Header h := by
  obtain ⟨ch, mcc, mpos⟩ := Instr.of_hd e
  refine ⟨?_, mcc, mpos, ?_, ?_, ?_, ?_⟩
  · simp [Instr.encodable, e]
  · simp only [Instr.lit, e]
  · simp only [Instr.guard, e]
  · simp only [Instr.chain, e]
  · simp only [Instr.wbs, e]

theorem Instr.header_of_ch {i : Instr} {h : Ch} (e : i.ch = some h) : i.Header (Machine.hdOf h) := by
  obtain ⟨hd, mcc, mpos, wbs, -⟩ := Instr.of_ch e
  refine ⟨?_, mcc, mpos, ?_, ?_, ?_, wbs⟩
  · simp [Instr.encodable, e]
  · simp only [Instr.lit, hd, e, Machine.hdOf]
  · simp only [Instr.guard, hd, e, Machine.hdOf]
  · simp only [Instr.chain, hd, e, Machine.hdOf]

/-- What well-formedness asks of a thread instruction. -/
structure Instr.ThreadWf (i : Instr) (h : Hd) : Prop where
  codes : (i.pos.all fun p => p.x.codeable) = true
  classes : ∀ p ∈ i.pos, p.cls.ok p.x = true
  lit : litFault h.lit i.pos = false
  guard : (h.pred, h.pneg) ≠ (7, true)
  chain : h.chain = true → i.chainOk = true
  wbs : h.wbs = true → i.wbsOk = true
  nineOk : i.nineOk = true
  threeOk : i.threeOk = true

theorem Instr.wf_thread_iff {i : Instr} {h : Hd} (e : i.Header h) : i.wf = true ↔ i.ThreadWf h := by
  have codes : (i.pos.all fun p => p.x.codeable && p.cls.ok p.x) = true ↔
      (i.pos.all fun p => p.x.codeable) = true ∧ ∀ p ∈ i.pos, p.cls.ok p.x = true := by
    simp only [List.all_eq_true, Bool.and_eq_true]
    exact forall₂_and
  simp only [Instr.wf, codes, e.mcc, e.mpos, e.encodable, e.lit, e.guard, e.chain, e.wbs,
    List.all_nil, Bool.and_true, if_true, Bool.false_eq_true, if_false, Bool.and_eq_true, Bool.not_eq_true', bne_iff_ne, Bool.or_eq_true]
  constructor
  · rintro ⟨⟨⟨⟨⟨⟨⟨codes, classes⟩, lit⟩, guard⟩, chain⟩, wbs⟩, nineOk⟩, threeOk⟩
    exact ⟨codes, classes, lit, guard, fun t => by simpa [t] using chain, fun t => by simpa [t] using wbs, nineOk, threeOk⟩
  · rintro ⟨codes, classes, lit, guard, chain, wbs, nineOk, threeOk⟩
    refine ⟨⟨⟨⟨⟨⟨⟨codes, classes⟩, lit⟩, guard⟩, ?_⟩, ?_⟩, nineOk⟩, threeOk⟩
    · cases t : h.chain
      · exact .inr rfl
      · exact .inl (chain t)
    · cases t : h.wbs
      · exact .inr rfl
      · exact .inl (wbs t)

/-- What well-formedness asks of an MCC instruction. -/
structure Instr.MccWf (i : Instr) : Prop where
  codes : (i.mpos.all fun p => p.1.codeable) = true
  classes : ∀ p ∈ i.mpos, p.2.ok p.1 = true
  lit : i.mlit.isSome = true ↔ ∃ p ∈ i.mpos, p.1 = .lit
  nineOk : i.nineOk = true
  threeOk : i.threeOk = true

theorem Instr.wf_mcc_iff {i : Instr} (e : i.isMcc = true) : i.wf = true ↔ i.MccWf := by
  obtain ⟨hd, ch, pos⟩ := Instr.of_isMcc e
  have codes : (i.mpos.all fun p => p.1.codeable && p.2.ok p.1) = true ↔
      (i.mpos.all fun p => p.1.codeable) = true ∧ ∀ p ∈ i.mpos, p.2.ok p.1 = true := by
    simp only [List.all_eq_true, Bool.and_eq_true]
    exact forall₂_and
  have guard : ((7, false) != ((7, true) : Fin 8 × Bool)) = true := rfl
  simp only [Instr.wf, codes, e, pos, hd, ch, Instr.guard, Instr.chain, Instr.wbs, guard, List.all_nil, Bool.true_and, if_true,
    Bool.and_eq_true,
    Bool.not_eq_true', Bool.not_false, Bool.or_true, Bool.and_true, mlitFault_eq_false_iff]
  constructor
  · rintro ⟨⟨⟨⟨codes, classes⟩, lit⟩, nineOk⟩, threeOk⟩
    exact ⟨codes, classes, lit, nineOk, threeOk⟩
  · rintro ⟨codes, classes, lit, nineOk, threeOk⟩
    exact ⟨⟨⟨⟨codes, classes⟩, lit⟩, nineOk⟩, threeOk⟩

end Sys2Proof
end

section
/-!
SUPPORT and the settlement of O59: what the decoder answers is well-formed, and its own encoding is the words that it was decoded from.
-/

namespace Sys2Proof

/-! ### Extended instructions (R33) -/

theorem armThread_yields {h : Hd} {f : XF} {a : Arm} (ha : armThread h f = some a) (hf : f.Fits) (hc : a.Clean f)
    (hr : hasReserved f a.rs = false) (h9 : a.i.nineOk = true) : a.Yields h f := by
  unfold armThread at ha
  split_ifs at ha
  · exact armControl_yields ha hf hc hr h9
  · exact armInteger_yields ha hf hc hr h9
  · exact armFloat_yields ha hf hc hr h9
  · exact armLane_yields ha hf hc hr h9
  · exact armMemory_yields ha hf hc hr h9
  · exact armStream_yields ha hf hc hr h9
  · exact armAcc_yields ha hf hc hr h9
  · exact armCopy_yields ha hf hc hr h9

/-- A thread instruction against which no reason stands is well-formed. -/
theorem ThreadOk.threadWf {c : DCtx} {h : Hd} {f : XF} {a : Arm} (ok : ThreadOk c h f a) (y : a.Yields h f) : a.i.ThreadWf h := by
  have classes : ∀ p ∈ a.i.pos, p.cls.ok p.x = true := fun p hp => Cls.ok_of_fault (ok.classes p hp).1 (ok.classes p hp).2.2
  refine ⟨y.codes, classes, litFault_of_ok ?_ ok.lit32 classes, ok.guard, fun t => (ok.chain t).1, ok.wbs, ok.nineOk, ok.threeOk⟩
  rw [ok.lit]
  exact y.lit

theorem encode_of_hd {i : Instr} {h : Hd} {f : XF} (e : i.hd = some h) (hf : encFields i = some f) : encode i = some (f.words h) := by
  have enc : ((encCompute i).orElse fun _ => encMemory i) = some f := hf
  simp only [encode, (Instr.of_hd e).1, e, enc, Option.map_some]

theorem encode_of_isMcc {i : Instr} {f : XF} (e : i.isMcc = true) (hf : encMcc i = some f) :
    encode i = some (f.words ⟨false, false, 7, false, i.mlit⟩) := by
  simp only [encode, (Instr.of_isMcc e).1, (Instr.of_isMcc e).2.1, hf, Option.map_some]

theorem encode_of_ch {i : Instr} {c : Ch} {opc top : Nat} (e : i.ch = some c) (hf : encCompact i = some (opc, top)) :
    encode i = some (firstWord (if c.lit.isSome then 2 else 0) opc c.pred.val c.pneg c.chain top :: litWords c.lit) := by
  simp only [encode, e, hf, Option.map_some]

/-! ### Instructions of the MCC (R52) -/

/-- NOP is the one instruction of the MCC that a thread has too. -/
theorem armMcc_eq_some {lit : Option W64} {f : XF} {a : Arm} (ha : armMcc lit f = some a) (hf : f.Fits) (hc : a.Clean f)
    (h5 : mccFive f a = false) (c5 : a.five = false) :
    (f = { opc := 1 } ∧ a = { i := .nop ⟨false, false, 7, false, lit⟩ }) ∨ a.MccYields lit f := by
  unfold armMcc at ha
  split_ifs at ha with hn
  · cases ha
    refine .inl ⟨?_, rfl⟩
    have moda := (extraBits_low 0 (by decide) hf.moda).1 hc.moda
    have modb := (extraBits_low 0 (by decide) hf.modb).1 hc.modb
    have modc := (extraBits_low 0 (by decide) hf.modc).1 hc.modc
    exact (XF.mk_eq_iff.2 ⟨hn.symm, by omega, (hc.dx rfl).symm, by omega, (hc.s2 rfl).symm, (hc.s1 rfl).symm, (hc.s0 rfl).symm, by omega⟩).symm
  · exact .inr (armXScalar_yields ha hf hc h5 c5)
  · exact .inr (armTile_yields ha hf hc h5 c5)

/-- NOP without a literal is well-formed. -/
theorem wf_nop_of_mcc : (Instr.nop ⟨false, false, 7, false, none⟩).wf = true := by decide

theorem Instr.eq_xbar {i : Instr} (e : i.isXbar = true) : ∃ h op a o, i = .xbar h op a o := by
  cases i <;> cases e
  exact ⟨_, _, _, _, rfl⟩

theorem Instr.handlerBad_of_isMcc {i : Instr} (c : DCtx) (e : i.isMcc = true) : i.handlerBad c = false := by
  cases i <;> cases e <;> rfl

/-- An MCC instruction against which no reason stands is well-formed, and its words are its fields'. -/
theorem MccOk.wf {c : DCtx} {lit : Option W64} {f : XF} {a : Arm} (ok : MccOk c lit f a) (ha : armMcc lit f = some a) (hf : f.Fits) :
    a.i.wf = true ∧ a.i.handlerBad c = false ∧ encode a.i = some (f.words ⟨false, false, 7, false, lit⟩) := by
  have hl := ok.lit
  rcases armMcc_eq_some ha hf ok.clean ok.codes ok.five with ⟨rfl, rfl⟩ | y
  · have absent : lit = none := by simpa using hl.trans (by rfl : hasLit { opc := 1 } none = false)
    subst absent
    exact ⟨wf_nop_of_mcc, rfl, rfl⟩
  · rw [Bool.eq_iff_iff, y.lit] at hl
    have mlit : a.i.mlit = lit := by
      rcases y.mlit with e | ⟨e, p⟩
      · exact e
      · have : lit = none := by simpa [p] using hl
        rw [e, this]
    refine ⟨(Instr.wf_mcc_iff y.mcc).2 ⟨y.codes, ok.classes, mlit ▸ hl, ok.nineOk, ok.threeOk⟩, Instr.handlerBad_of_isMcc c y.mcc, ?_⟩
    rw [encode_of_isMcc y.mcc y.enc, mlit]

/-! ### The fields of words -/

/-- The fields that stand in three words (R33). -/
def XF.ofWords (w0 w1 w2 : Nat) : XF where
  opc := fld w0 9 2
  moda := fld w0 31 25
  dx := fld w0 24 16
  modb := fld w1 31 27
  s2 := fld w1 26 18
  s1 := fld w1 17 9
  s0 := fld w1 8 0
  modc := w2

/-- The header that stands in a first word. -/
def Hd.ofWord (w0 : Nat) (lit : Option W64) : Hd := ⟨bt w0 14, bt w0 13, fin 8 (fld w0 12 10), bt w0 15, lit⟩

theorem XF.ofWords_fits (w0 w1 : Nat) {w2 : Nat} (h : w2 < 2 ^ 32) : (XF.ofWords w0 w1 w2).Fits :=
  ⟨fld_lt _ _ _, fld_lt _ _ _, fld_lt _ _ _, fld_lt _ _ _, fld_lt _ _ _, fld_lt _ _ _, fld_lt _ _ _, h⟩

theorem words_ofWords {w0 w1 w2 : Nat} {lit : Option W64} (h0 : w0 < 2 ^ 32) (h1 : w1 < 2 ^ 32)
    (hlen : fld w0 1 0 = if lit.isSome then 3 else 1) : (XF.ofWords w0 w1 w2).words (Hd.ofWord w0 lit) = [w0, w1, w2] ++ litWords lit := by
  have top : bn (bt w0 15) + 2 * fld w0 24 16 + 2 ^ 10 * fld w0 31 25 = w0 / 2 ^ 15 := by
    simp only [bn_bt, fld]
    omega
  have low : (fin 8 (fld w0 12 10)).val = fld w0 12 10 := by
    rw [fin_eq_mod]
    exact Nat.mod_eq_of_lt (fld_lt _ _ _)
  have second : fld w1 8 0 + 2 ^ 9 * fld w1 17 9 + 2 ^ 18 * fld w1 26 18 + 2 ^ 27 * fld w1 31 27 = w1 := by
    simp only [fld]
    omega
  have len : (if (Hd.ofWord w0 lit).lit.isSome then 3 else 1) = fld w0 1 0 := hlen.symm
  rw [XF.words, len]
  simp only [XF.ofWords, Hd.ofWord, top, low, second, firstWord_of_fld]

/-- What extended words decode to, outside the MCC. -/
theorem decodeExt_thread {c : DCtx} (hc : c.mcc = false) (w0 w1 w2 : Nat) (lit : Option W64) (i : Instr) :
    decodeExt c w0 w1 w2 lit = .ok i ↔ ∃ a, armThread (Hd.ofWord w0 lit) (XF.ofWords w0 w1 w2) = some a ∧
      ThreadOk c (Hd.ofWord w0 lit) (XF.ofWords w0 w1 w2) a ∧ a.i = i := by
  simp only [← threadReason_eq_none, decodeExt, hc, Bool.false_eq_true, if_false, Hd.ofWord, XF.ofWords]
  split
  · next h => simp [h]
  · next a h =>
    simp only [h, Option.some.injEq, exists_eq_left']
    split
    · next r hr => simp [hr]
    · next hr => simp [hr]

/-- What extended words decode to in the MCC: no guard, CHAIN or WBS (R52). -/
theorem decodeExt_mcc {c : DCtx} (hc : c.mcc = true) (w0 w1 w2 : Nat) (lit : Option W64) (i : Instr) :
    decodeExt c w0 w1 w2 lit = .ok i ↔ Hd.ofWord w0 lit = ⟨false, false, 7, false, lit⟩ ∧
      ∃ a, armMcc lit (XF.ofWords w0 w1 w2) = some a ∧ MccOk c lit (XF.ofWords w0 w1 w2) a ∧ a.i = i := by
  simp only [← mccReason_eq_none, decodeExt, hc, if_true, Hd.ofWord, XF.ofWords, Hd.mk.injEq, and_true]
  split
  · next h =>
    simp only [reduceCtorEq, false_iff, not_and]
    simp only [Bool.or_eq_true, bne_iff_ne] at h
    rintro ⟨h1, h2, h3, h4⟩
    simp [h1, h2, h3, h4] at h
  · next h =>
    simp only [Bool.or_eq_true, bne_iff_ne, not_or, not_not, Bool.not_eq_true] at h
    obtain ⟨⟨⟨h3, h2⟩, h1⟩, h4⟩ := h
    simp only [h1, h2, h3, h4, true_and]
    split
    · next h => simp [h]
    · next a h =>
      simp only [h, Option.some.injEq, exists_eq_left']
      split
      · next r hr => simp [hr]
      · next hr => simp [hr]

/-- What extended words decode to is well-formed and has these words. -/
theorem decodeExt_ok {c : DCtx} {w0 w1 w2 : Nat} {lit : Option W64} {i : Instr} (hd : decodeExt c w0 w1 w2 lit = .ok i) (h0 : w0 < 2 ^ 32)
    (h1 : w1 < 2 ^ 32) (h2 : w2 < 2 ^ 32) (hlen : fld w0 1 0 = if lit.isSome then 3 else 1) :
    i.wf = true ∧ i.handlerBad c = false ∧ i.gangBad c = false ∧ (i.isXbar = false → encode i = some ([w0, w1, w2] ++ litWords lit)) := by
  rw [← words_ofWords h0 h1 hlen]
  have fits := XF.ofWords_fits w0 w1 h2
  cases hc : c.mcc with
  | false =>
    obtain ⟨a, ha, ok, rfl⟩ := (decodeExt_thread hc w0 w1 w2 lit i).1 hd
    have y := armThread_yields ha fits ok.clean ok.reserved ok.nineOk
    exact ⟨(Instr.wf_thread_iff (Instr.header_of_hd y.hd)).2 (ok.threadWf y), ok.handler, ok.gang, fun x => encode_of_hd y.hd (y.enc x)⟩
  | true =>
    obtain ⟨head, a, ha, ok, rfl⟩ := (decodeExt_mcc hc w0 w1 w2 lit i).1 hd
    obtain ⟨wf, handler, enc⟩ := ok.wf ha fits
    exact ⟨wf, handler, ok.gang, fun _ => head ▸ enc⟩

/-! ### Compact instructions (R29, R30) -/

/-- What a compact word is read as where its marked fields are zero: an instruction with the header, whose operands have codes, which reads the
literal where its source names it, and whose own fields are these. -/
structure CompactYields (h : Ch) (opc top : Nat) (i : Instr) : Prop where
  ch : i.ch = some h
  lit : (opc != 2 && top / 256 == 0x1FF) = true ↔ ∃ p ∈ i.pos, p.x = .lit
  codes : (i.pos.all fun p => p.x.codeable) = true
  enc : encCompact i = some (opc, top)
  gang : ∀ c, i.gangBad c = false

theorem armCompact_yields {h : Ch} {opc top : Nat} {i : Instr} (ha : armCompact h opc top = some (i, false)) (ht : top < 2 ^ 17)
    (hs : opc ≠ 1 → opc ≠ 2 → (Opnd.ofCode (top / 256)).isNone = false) : CompactYields h opc top i := by
  have low : top % 256 < 2 ^ 9 := by omega
  have high : top / 256 < 2 ^ 9 := by omega
  have registers : ∀ n, n < 256 → (Opnd.ofCode n).isNone = false := by decide +kernel
  have dcode := Opnd.code_dec low (registers _ (Nat.mod_lt _ (by decide)))
  have dlit := Opnd.dec_eq_lit_iff low
  have slit := Opnd.dec_eq_lit_iff high
  have dcodeable := Opnd.codeable_dec low
  have scodeable := Opnd.codeable_dec high
  have vcodeable : (Opnd.v 0).codeable = true := rfl
  have scode := fun o1 o2 => Opnd.code_dec high (hs o1 o2)
  unfold armCompact at ha
  dsimp only at ha
  split at ha
  all_goals simp only [Option.some.injEq, Prod.mk.injEq, and_true, bne_eq_false_iff_eq, reduceCtorEq] at ha
  case' h_1 | h_3 | h_4 | h_5 | h_6 | h_7 => obtain ⟨rfl, zero⟩ := ha
  case' h_2 | h_8 | h_9 | h_10 | h_11 | h_12 | h_13 | h_14 | h_15 | h_16 | h_17 => subst ha
  all_goals
    refine ⟨rfl, ?_, ?_, ?_, fun _ => rfl⟩
    · simp only [Instr.pos, exists_mem_cons_iff, dlit, slit, List.not_mem_nil, false_and, exists_false, reduceCtorEq, or_false,
        Bool.and_eq_true, bne_iff_ne, beq_iff_eq, iff_false, not_and]
      omega
    · simp only [Instr.pos, List.all_cons, List.all_nil, dcodeable, scodeable, Bool.and_self, vcodeable]
    · refine Eq.trans (b := some _) rfl ?_
      simp (disch := decide) only [Option.some.injEq, Prod.mk.injEq, true_and, dcode, scode, BitVec.toNat_ofNat]
      omega

/-- The header that stands in a compact word. -/
def Ch.ofWord (w0 : Nat) (lit : Option W64) : Ch := ⟨bt w0 14, bt w0 13, fin 8 (fld w0 12 10), lit⟩

/-- What a compact word decodes to; the MCC takes no guard and no CHAIN (R52). -/
theorem decodeCompact_ok_iff (c : DCtx) (w0 : Nat) (lit : Option W64) (i : Instr) :
    decodeCompact c w0 lit = .ok i ↔
      (c.mcc = true → (Ch.ofWord w0 lit).pred = 7 ∧ (Ch.ofWord w0 lit).pneg = false ∧ (Ch.ofWord w0 lit).chain = false) ∧
      armCompact (Ch.ofWord w0 lit) (fld w0 9 2) (fld w0 31 15) = some (i, false) ∧
      CompactOk c (Ch.ofWord w0 lit) i false (fld w0 9 2) (fld w0 31 23) := by
  simp only [← compactReason_eq_none, decodeCompact, Ch.ofWord]
  split
  · next h =>
    simp only [Bool.and_eq_true, Bool.or_eq_true, bne_iff_ne] at h
    simp only [reduceCtorEq, false_iff, not_and]
    intro g
    obtain ⟨h1, h2, h3⟩ := g h.1
    simp [h1, h2, h3] at h
  · next h =>
    have guard : c.mcc = true → fin 8 (fld w0 12 10) = 7 ∧ bt w0 13 = false ∧ bt w0 14 = false := by
      intro hc
      simpa [hc, and_assoc] using h
    rw [and_iff_right guard]
    split
    · next h => simp [h]
    · next j bad3 h =>
      simp only [h, Option.some.injEq, Prod.mk.injEq]
      split
      · next r hr =>
        simp only [reduceCtorEq, false_iff, not_and, and_imp]
        rintro rfl rfl
        simp [hr]
      · next hr =>
        have zeros := (compactReason_eq_none.1 hr).zeros
        subst zeros
        simp only [Dec.ok.injEq, and_true]
        exact ⟨fun e => ⟨e, e ▸ hr⟩, fun e => e.1⟩

/-- The MCC's one compact word (R52). -/
theorem opc_eq_one_of_mcc {h : Ch} {opc top : Nat} {p : Instr × Bool} (ha : armCompact h opc top = some p)
    (ho : opc ≠ 1 → opcMcc opc = true) : opc = 1 := by
  by_contra h1
  have range := ho h1
  simp only [opcMcc, Bool.or_eq_true, Bool.and_eq_true, decide_eq_true_eq] at range
  unfold armCompact at ha
  dsimp only at ha
  split at ha
  case h_18 => cases ha
  all_goals omega

/-- What a compact word decodes to is well-formed and has this word. -/
theorem decodeCompact_ok {c : DCtx} {w0 : Nat} {lit : Option W64} {i : Instr} (hd : decodeCompact c w0 lit = .ok i) (h0 : w0 < 2 ^ 32)
    (ho : c.mcc = true → fld w0 9 2 ≠ 1 → opcMcc (fld w0 9 2) = true) (hlen : fld w0 1 0 = if lit.isSome then 2 else 0) :
    i.wf = true ∧ i.handlerBad c = false ∧ i.gangBad c = false ∧ encode i = some (w0 :: litWords lit) := by
  obtain ⟨-, ha, ok⟩ := (decodeCompact_ok_iff c w0 lit i).1 hd
  have top : fld w0 31 15 = w0 / 2 ^ 15 := by simp only [fld]; omega
  have src : fld w0 31 15 / 256 = fld w0 31 23 := by simp only [fld]; omega
  have y := armCompact_yields ha (fld_lt _ _ _) (fun o1 o2 => by
    rw [src]
    refine ok.reserved o2 ?_
    by_contra hm
    exact o1 (opc_eq_one_of_mcc ha (ho (by simpa using hm))))
  have classes : ∀ p ∈ i.pos, p.cls.ok p.x = true := fun p hp => Cls.ok_of_fault (ok.classes p hp).1 (ok.classes p hp).2.2
  have hl := y.lit
  rw [src, ← ok.lit] at hl
  refine ⟨(Instr.wf_thread_iff (Instr.header_of_ch y.ch)).2 ⟨y.codes, classes, litFault_of_ok hl ok.lit32 classes, ok.guard,
    fun t => (ok.chain t).1, fun t => Bool.noConfusion t, ok.nineOk, (Instr.of_ch y.ch).2.2.2.2⟩, ok.handler, y.gang c, ?_⟩
  have pred : (Ch.ofWord w0 lit).pred.val = fld w0 12 10 := by
    simp only [Ch.ofWord, fin_eq_mod]
    exact Nat.mod_eq_of_lt (fld_lt _ _ _)
  have len : (if (Ch.ofWord w0 lit).lit.isSome then 2 else 0) = fld w0 1 0 := hlen.symm
  rw [encode_of_ch y.ch y.enc, pred, len, top]
  simp only [Ch.ofWord, firstWord_of_fld]

/-! ### Words (R24, R25) -/

/-- The agent runs the opcode (R51, R52). -/
def OpcRuns (c : DCtx) (opc : Nat) : Prop := opcAssigned opc = true ∧ (opc ≠ 1 → opcMcc opc = c.mcc)

theorem opcReason_eq_none {c : DCtx} {opc : Nat} :
    firstReason [(1, !opcAssigned opc), (6, opc != 1 && opcMcc opc != c.mcc)] = none ↔ OpcRuns c opc := by
  simp only [firstReason_eq_none, List.forall_mem_cons, List.not_mem_nil, false_implies, implies_true, and_true, OpcRuns,
    Bool.not_eq_false', Bool.and_eq_false_imp, bne_iff_ne, bne_eq_false_iff_eq]

/-- Words decode to an instruction where their agent runs the opcode, as the length of their first says (R24). -/
theorem decodeWords_cons_ok {c : DCtx} {w0 : Nat} {rest : List Nat} {i : Instr} (hd : decodeWords c (w0 :: rest) = .ok i) :
    OpcRuns c (fld w0 9 2) ∧
    ((fld w0 1 0 = 0 ∧ decodeCompact c w0 none = .ok i) ∨
     (fld w0 1 0 = 2 ∧ ∃ a b t, rest = a :: b :: t ∧ decodeCompact c w0 (some (.ofNat 64 (a + 2 ^ 32 * b))) = .ok i) ∨
     (fld w0 1 0 = 1 ∧ ∃ w1 w2 t, rest = w1 :: w2 :: t ∧ decodeExt c w0 w1 w2 none = .ok i) ∨
     (fld w0 1 0 = 3 ∧ ∃ w1 w2 a b t, rest = w1 :: w2 :: a :: b :: t ∧ decodeExt c w0 w1 w2 (some (.ofNat 64 (a + 2 ^ 32 * b))) = .ok i)) := by
  unfold decodeWords at hd
  dsimp only at hd
  split at hd
  case h_5 => cases hd
  all_goals
    next len =>
    split at hd
    · cases hd
    · next hr => exact ⟨opcReason_eq_none.1 hr, by simp [len, hd, -Nat.reducePow]⟩

/-- What words decode to is well-formed and has the first of them. -/
theorem decodeWords_ok {c : DCtx} {ws : List Nat} {i : Instr} (hd : decodeWords c ws = .ok i) (hw : ∀ w ∈ ws, w < 2 ^ 32) :
    i.wf = true ∧ i.handlerBad c = false ∧ i.gangBad c = false ∧ (i.isXbar = false → ∃ us, encode i = some us ∧ us <+: ws) := by
  cases ws with
  | nil => cases hd
  | cons w0 rest =>
    obtain ⟨⟨-, agent⟩, form⟩ := decodeWords_cons_ok hd
    clear hd
    have mcc : c.mcc = true → fld w0 9 2 ≠ 1 → opcMcc (fld w0 9 2) = true := fun hc ho => (agent ho).trans hc
    have w0lt := hw w0 (by simp)
    rcases form with ⟨len, hd⟩ | ⟨len, a, b, t, rfl, hd⟩ | ⟨len, w1, w2, t, rfl, hd⟩ | ⟨len, w1, w2, a, b, t, rfl, hd⟩
    · obtain ⟨wf, handler, gang, enc⟩ := decodeCompact_ok hd w0lt mcc len
      exact ⟨wf, handler, gang, fun _ => ⟨_, enc, by simp [litWords]⟩⟩
    · obtain ⟨wf, handler, gang, enc⟩ := decodeCompact_ok hd w0lt mcc len
      rw [litWords_ofNat (hw a (by simp)) (hw b (by simp))] at enc
      exact ⟨wf, handler, gang, fun _ => ⟨_, enc, by simp⟩⟩
    · obtain ⟨wf, handler, gang, enc⟩ := decodeExt_ok hd w0lt (hw w1 (by simp)) (hw w2 (by simp)) len
      exact ⟨wf, handler, gang, fun hx => ⟨_, enc hx, by simp [litWords]⟩⟩
    · obtain ⟨wf, handler, gang, enc⟩ := decodeExt_ok hd w0lt (hw w1 (by simp)) (hw w2 (by simp)) len
      rw [litWords_ofNat (hw a (by simp)) (hw b (by simp))] at enc
      exact ⟨wf, handler, gang, fun hx => ⟨_, enc hx, by simp⟩⟩

end Sys2Proof

namespace Sys2Proof.Claims

/-- Settles O59: the fields that the decoder reads are all that the words hold, and each is the code of what it is read as. -/
theorem decodeYieldsWellFormed : Obligations.DecodeYieldsWellFormed := by
  unfold Obligations.DecodeYieldsWellFormed
  intro c bs i hd
  obtain ⟨wf, handler, gang, enc⟩ := decodeWords_ok hd (lt_of_mem_wordsOf bs)
  refine ⟨wf, handler, gang, fun hx => enc ?_⟩
  by_contra x
  obtain ⟨h, op, a, o, rfl⟩ := Instr.eq_xbar (by simpa using x)
  exact hx h op a o rfl

end Sys2Proof.Claims
end

section
/-!
SUPPORT. The fields of an instruction are read as the instruction (02 R24 to R52): the arm of its opcode answers it, uses the fields that are set,
and finds no reserved code in them.
-/

namespace Sys2Proof

/-! ### Field values as numbers of their width -/

/-- A bit as a number of one bit. -/
def bitFin (b : Bool) : Fin 2 := ⟨bn b, bn_lt_two b⟩

theorem bn_eq_val (b : Bool) : bn b = (bitFin b).val := rfl

theorem bitFin_false : (bitFin false).val = 0 := rfl

theorem fld_of_lt {n hi lo : Nat} (h : n < 2 ^ lo) : fld n hi lo = 0 := by simp [fld, Nat.div_eq_of_lt h]

theorem bt_of_lt {n k : Nat} (h : n < 2 ^ k) : bt n k = false := by simp [bt, Nat.div_eq_of_lt h]

theorem fld_zero (hi lo : Nat) : fld 0 hi lo = 0 := by simp [fld]

theorem bt_zero (k : Nat) : bt 0 k = false := by simp [bt]

/-- Fields that are constants of their encoding: XBAR's operation with PD = 7, AACC's and CPYA's whole lines, PUBLISH's stamp. -/
theorem literal_fields : fld 0x70 2 0 = 0 ∧ fld 0x71 2 0 = 1 ∧ fld 0x72 2 0 = 2 ∧ fld 0x73 2 0 = 3 ∧ fld 0x70 6 4 = 7 ∧ fld 0x73 6 4 = 7 ∧
    bt 16 4 = true ∧ fld 16 3 0 = 0 ∧ bt (2 ^ 29 + 2 ^ 16) 29 = true := by decide

theorem fld_mul_of_above {m y hi lo : Nat} (h : m % 2 ^ (hi + 1) = 0) (hl : lo ≤ hi) : fld (m * y) hi lo = 0 := by
  simpa [fld_zero] using fld_add_mul_of_above (x := 0) (y := y) h hl

theorem bt_mul_of_above {m y k : Nat} (h : m % 2 ^ (k + 1) = 0) : bt (m * y) k = false := by
  simpa [bt_zero] using bt_add_mul_of_above (x := 0) (y := y) h

theorem bt_one : bt 1 0 = true := rfl

theorem bt_mul_val {m k : Nat} {b : Bool} (h : m = 2 ^ k) : bt (m * (bitFin b).val) k = b := bt_mul_bn h

theorem bt_val (b : Bool) : bt (bitFin b).val 0 = b := bt_bn b

/-- The code of a value as a number of its field's width. -/
def Codes.val {α : Type} {dec : Nat → Option α} {enc : α → Nat} {w : Nat} (H : Codes dec enc w) (c : α) : Fin (2 ^ w) := ⟨enc c, H.lt c⟩

theorem Codes.enc_eq_val {α : Type} {dec : Nat → Option α} {enc : α → Nat} {w : Nat} (H : Codes dec enc w) (c : α) : enc c = (H.val c).val := rfl

theorem Codes.dec_val {α : Type} {dec : Nat → Option α} {enc : α → Nat} {w : Nat} (H : Codes dec enc w) (c : α) : dec (H.val c).val = some c :=
  H.dec_enc c

def FullCodes.val {α : Type} {dec : Nat → α} {enc : α → Nat} {w : Nat} (H : FullCodes dec enc w) (c : α) : Fin (2 ^ w) := ⟨enc c, H.lt c⟩

theorem FullCodes.enc_eq_val {α : Type} {dec : Nat → α} {enc : α → Nat} {w : Nat} (H : FullCodes dec enc w) (c : α) : enc c = (H.val c).val := rfl

theorem FullCodes.dec_val {α : Type} {dec : Nat → α} {enc : α → Nat} {w : Nat} (H : FullCodes dec enc w) (c : α) : dec (H.val c).val = c :=
  H.dec_enc c

theorem usMod_false_add (u : Bool) (n : Nat) : usMod u false + n = n + 8 * (bitFin u).val := by
  rw [usMod, bn_eq_val, bn_eq_val, bitFin_false]
  omega

/-- MODB of a source modifier with NEG2 in its place. -/
theorem SMod.enc_n2 (m : SMod) (b : Bool) : m.enc + 4 * bn b =
    (bitFin m.n0).val + 2 * (bitFin m.n1).val + 4 * (bitFin b).val + 8 * (bitFin m.a0).val + 16 * (bitFin m.a1).val := by
  simp only [SMod.enc, bn_eq_val]
  omega

/-- MODC of PFOP with its operation before its format. -/
theorem pfop_modc (x n : Nat) (b : Bool) : x + 2 ^ 12 * bn b + 512 * n = x + 512 * n + 4096 * (bitFin b).val := by
  rw [bn_eq_val]
  omega

/-! ### What fields are read as -/

/-- An arm reads the instruction's own fields as the instruction. -/
structure Arm.Reads (i : Instr) (f : XF) (a : Arm) : Prop where
  i : a.i = i
  fits : f.Fits
  clean : a.Clean f
  reserved : hasReserved f a.rs = false

/-- What an operand with a code is in a field of 9 bits. -/
structure Opnd.Coded (x : Opnd) : Prop where
  lt : x.code < 2 ^ 9
  dec : Opnd.dec x.code = x
  some : (Opnd.ofCode x.code).isNone = false

theorem Opnd.coded {x : Opnd} (h : x.codeable = true) : x.Coded :=
  ⟨Opnd.code_lt h, Opnd.dec_code h, by simp [Opnd.ofCode_code h]⟩

theorem ofCode_zero : (Opnd.ofCode 0).isNone = false := rfl

/-! ### The operands of a rounding and of an address, in their fields -/

theorem Rnd.forall_lt_iff (r : Rnd) : (∀ p ∈ r.pos, p.x.code < 2 ^ 9) ↔ r.enc.1 < 6 ∧ r.enc.2 < 2 ^ 9 := by
  have h := r.enc_fst_lt
  cases r with
  | mode m => simp [Rnd.pos, Rnd.enc] at h ⊢; exact h
  | sr x => simp [Rnd.pos, Rnd.enc]

theorem Rnd.forall_dec_iff (r : Rnd) : (∀ p ∈ r.pos, Opnd.dec p.x.code = p.x) ↔ Rnd.dec r.enc.1 r.enc.2 = r := by
  cases r with
  | mode m => cases m <;> simp [Rnd.pos, Rnd.enc, Rnd.dec, RMode.code, RMode.ofCode]
  | sr x => simp [Rnd.pos, Rnd.enc, Rnd.dec]

theorem Rnd.forall_listed_iff (r : Rnd) : (∀ p ∈ r.pos, (Opnd.ofCode p.x.code).isNone = false) ↔ (Opnd.ofCode r.enc.2).isNone = false := by
  cases r with
  | mode m => simp [Rnd.pos, Rnd.enc, ofCode_zero]
  | sr x => simp [Rnd.pos, Rnd.enc]

/-- A property of an address's operands is one of its base and of its role per lane. -/
theorem MemF.forall_pos_iff {P : Opnd → Prop} (m : MemF) : (∀ p ∈ m.pos, P p.x) ↔ P m.base ∧ ∀ r, m.tgt = .laneRole r → P r := by
  unfold MemF.pos
  split <;> simp_all

/-- A property of SRC2's code is one of the role per lane, where zero has it. -/
theorem MemF.s2_iff {P : Nat → Prop} (m : MemF) (h0 : P 0) : P m.s2 ↔ ∀ r, m.tgt = .laneRole r → P r.code := by
  unfold MemF.s2
  split <;> simp_all

theorem MemF.forall_lt_iff (m : MemF) : (∀ p ∈ m.pos, p.x.code < 2 ^ 9) ↔ m.base.code < 2 ^ 9 ∧ m.s2 < 2 ^ 9 ∧ m.role < 2 ^ 7 ∧ m.modc < 2 ^ 32 := by
  rw [m.forall_pos_iff (P := fun x => x.code < 2 ^ 9), m.s2_iff (P := fun n => n < 2 ^ 9) (by decide)]
  simp only [m.role_lt, m.modc_lt, and_self, and_true]

theorem MemF.forall_listed_iff (m : MemF) : (∀ p ∈ m.pos, (Opnd.ofCode p.x.code).isNone = false) ↔
    (Opnd.ofCode m.base.code).isNone = false ∧ (Opnd.ofCode m.s2).isNone = false := by
  rw [m.forall_pos_iff (P := fun x => (Opnd.ofCode x.code).isNone = false),
    m.s2_iff (P := fun n => (Opnd.ofCode n).isNone = false) ofCode_zero]

/-- A role for each lane. -/
def MemF.isLane (m : MemF) : Bool :=
  match m.tgt with
  | .laneRole _ => true
  | _ => false

theorem MemF.isLane_iff (m : MemF) : m.isLane = true ↔ ∃ r, m.tgt = .laneRole r := by
  unfold MemF.isLane
  split <;> simp_all

theorem MemF.s2_of_not_isLane {m : MemF} (h : m.isLane = false) : m.s2 = 0 := by
  unfold MemF.isLane at h
  unfold MemF.s2
  split <;> simp_all

theorem MemF.role_eq_127_iff (m : MemF) : (m.role == 127) = m.isLane := by
  unfold MemF.role MemF.isLane
  split
  · next n e => simpa [e] using (by omega : n.val ≠ 127)
  · next e => simp [e]
  · next h1 h2 => simp_all

theorem MemF.s2_of_role (m : MemF) : (m.isLane = false → m.s2 = 0) ↔ True := iff_true_intro MemF.s2_of_not_isLane

theorem MemF.forall_dec_iff (m : MemF) : (∀ p ∈ m.pos, Opnd.dec p.x.code = p.x) ↔
    (∀ opc d s1 modb, MemF.dec (memX opc m d s1 m.s2 modb) = m) ∧
      ∀ opc d s1 modb s2, m.isLane = false → MemF.dec (memX opc m d s1 s2 modb) = m := by
  constructor
  · exact fun hp => ⟨fun opc d s1 modb => MemF.dec_memX opc d s1 modb hp (fun _ => rfl),
      fun opc d s1 modb s2 hl => MemF.dec_memX opc d s1 modb hp (fun hr => by simp [m.isLane_iff.2 hr] at hl)⟩
  · intro h
    have e := h.1 0 0 0 0
    rw [m.forall_pos_iff (P := fun x => Opnd.dec x.code = x)]
    refine ⟨congrArg MemF.base e, fun r hr => ?_⟩
    have t := congrArg MemF.tgt e
    simp only [MemF.dec, memX, m.fld_modc.2.1] at t
    simpa [hr, Target.code, MemF.role, MemF.s2] using t

theorem memX_fields (opc : Nat) (m : MemF) (d s1 s2 modb : Nat) : (memX opc m d s1 s2 modb).opc = opc ∧ (memX opc m d s1 s2 modb).moda = m.role ∧
    (memX opc m d s1 s2 modb).dx = d ∧ (memX opc m d s1 s2 modb).modb = modb ∧ (memX opc m d s1 s2 modb).s2 = s2 ∧
    (memX opc m d s1 s2 modb).s1 = s1 ∧ (memX opc m d s1 s2 modb).s0 = m.base.code ∧ (memX opc m d s1 s2 modb).modc = m.modc :=
  ⟨rfl, rfl, rfl, rfl, rfl, rfl, rfl, rfl⟩

/-- The address of an instruction whose SRC2 is another operand, or none. -/
def Instr.laneless : Instr → Option MemF
  | .ldc _ _ m _ | .cas _ _ _ m _ _ | .pref _ m | .aacc _ m _ | .amac _ m _ _ _ _ => some m
  | _ => none

/-- Such an address has no role per lane (R217, R308). -/
theorem Instr.isLane_of_laneless {i : Instr} {m : MemF} (h9 : i.nineOk = true) (e : i.laneless = some m) : m.isLane = false := by
  have glob : m.isGlobal = true → m.isLane = false := by
    intro g
    have : m.tgt = .global := by simpa [MemF.isGlobal] using g
    simp [MemF.isLane, this]
  cases i <;> cases e
  all_goals simp only [Instr.nineOk, Bool.and_eq_true] at h9
  case pref => exact glob h9.2
  case ldc | aacc | amac => exact glob h9.1.2
  case cas =>
    obtain ⟨-, tgt⟩ := h9
    unfold MemF.isLane
    cases t : m.tgt <;> simp [t] at tgt ⊢

theorem cpyX_fields (opc : Nat) (f : CpyF) (s d x : Opnd) (modb : Nat) : (cpyX opc f s d x modb).opc = opc ∧
    (cpyX opc f s d x modb).moda = f.moda ∧ (cpyX opc f s d x modb).dx = 0 ∧ (cpyX opc f s d x modb).modb = modb ∧
    (cpyX opc f s d x modb).s2 = x.code ∧ (cpyX opc f s d x modb).s1 = d.code ∧ (cpyX opc f s d x modb).s0 = s.code ∧
    (cpyX opc f s d x modb).modc = f.modc :=
  ⟨rfl, rfl, rfl, rfl, rfl, rfl, rfl, rfl⟩

theorem CpyF.moda_lt (f : CpyF) : f.moda < 2 ^ 7 := by
  have := f.moda_fields.2.2
  omega

theorem CpyF.modc_lt (f : CpyF) : f.modc < 2 ^ 32 := by
  obtain ⟨-, -, -, -, -, -, -, -, -, -, lt⟩ := f.modc_fields
  exact lt

theorem CpyF.extraBits_moda (f : CpyF) : extraBits f.moda 0x1F 7 = false :=
  (extraBits_low 5 (by decide) f.moda_lt).2 f.moda_fields.2.2

theorem CpyF.extraBits_modc (f : CpyF) : extraBits f.modc 0xFFFF7FFF 32 = false := by
  rw [extraBits_0xFFFF7FFF]
  exact f.modc_fields.2.1

/-! ### The groups of the opcode map -/

/-- The groups of extended thread instructions, each with an arm of the opcode map. -/
inductive Group where
  | control | integer | float | lane | memory | stream | acc | copy

/-- The arm of a group. -/
def Group.arm : Group → Hd → XF → Option Arm
  | .control => armControl
  | .integer => armInteger
  | .float => armFloat
  | .lane => armLane
  | .memory => armMemory
  | .stream => armStream
  | .acc => armAcc
  | .copy => armCopy

/-- The group of an instruction. -/
def Instr.group : Instr → Option Group
  | .nop .. | .bra .. | .brx .. | .call .. | .ret .. | .exit .. | .reform .. | .yield .. | .bar .. | .gbar .. | .wait ..
  | .trap .. | .brk .. | .rft .. | .rdsr .. | .wrsr .. | .rqset .. | .dlaunch .. => some .control
  | .iadd .. | .isub .. | .imul .. | .imulh .. | .imad .. | .imin .. | .imax .. | .iabs .. | .iadd64 .. | .lea .. | .and ..
  | .or .. | .xor .. | .shl .. | .shr .. | .sar .. | .shf .. | .bfx .. | .bfi .. | .popc .. | .clz .. | .brev .. | .mov ..
  | .movl .. | .sel .. | .icmp .. | .idiv .. | .irem .. | .prmt .. => some .integer
  | .fadd .. | .fsub .. | .fmul .. | .ffma .. | .fmin .. | .fmax .. | .fcmp .. | .fclass .. | .fdiv .. | .fsqrt .. | .frcp ..
  | .frsq .. | .fexp2 .. | .flog2 .. | .fsin .. | .fcos .. | .ftanh .. | .fcvt .. | .i2f .. | .f2i .. | .pfop .. | .frnd ..
  | .fscale .. => some .float
  | .plop .. | .pmov .. | .vote .. | .shfl .. | .match_ .. | .cred .. => some .lane
  | .ld .. | .st .. | .ldc .. | .atom .. | .cas .. | .fence .. | .afence .. | .cinv .. | .pref .. | .qpush .. | .qpop ..
  | .rng .. | .probe .. | .xbar .. => some .memory
  | .sopen .. | .sclose .. | .sskip .. | .spos .. | .stest .. | .sseek .. | .scfg .. => some .stream
  | .accz .. | .accadd .. | .accmac .. | .accdot .. | .accneg .. | .accscl .. | .accmov .. | .accnorm .. | .accrnd ..
  | .accrds .. | .accwrs .. | .accred .. | .accld .. | .accst .. | .aacc .. | .amac .. | .acctest .. | .accaddk .. => some .acc
  | .cpy .. | .cpyg .. | .cpys .. | .cpym .. | .cpya .. | .publish .. | .cpyq .. | .cpyx .. | .rpopen .. | .rpseal .. | .ctrrd ..
  | .pmark .. | .tsrd .. => some .copy
  | _ => none

theorem Instr.group_of_hd {i : Instr} {h : Hd} (e : i.hd = some h) : ∃ g, i.group = some g := by
  cases i <;> cases e <;> exact ⟨_, rfl⟩

/-- The opcode of an instruction leads to the arm of its group. -/
theorem armThread_of_group {i : Instr} {g : Group} {f : XF} (hg : i.group = some g) (he : encFields i = some f) (h : Hd) :
    armThread h f = g.arm h f := by
  cases i <;> cases hg
  case' call d t => cases t
  case' rqset o n => cases o
  case' pfop d a b o z r m => cases o
  case' pmov x => cases x
  case' xbar o a b => cases o
  case' stest p q d m b => cases m
  case' aacc m t => cases t
  case' acctest m p d a => cases m
  case' cpya g t s d x => cases t
  all_goals
    cases he
    rfl

/-! ### The arms -/

/-- An instruction of this group is read from its own fields. -/
theorem armControl_reads {i : Instr} {h : Hd} {f : XF} (hg : i.group = some .control) (hd : i.hd = some h)
    (hc : ∀ p ∈ i.pos, p.x.codeable = true) (he : encFields i = some f) : ∃ a, armControl h f = some a ∧ a.Reads i f := by
  have lt : ∀ p ∈ i.pos, p.x.code < 2 ^ 9 := fun p hp => (Opnd.coded (hc p hp)).lt
  have dec : ∀ p ∈ i.pos, Opnd.dec p.x.code = p.x := fun p hp => (Opnd.coded (hc p hp)).dec
  have listed : ∀ p ∈ i.pos, (Opnd.ofCode p.x.code).isNone = false := fun p hp => (Opnd.coded (hc p hp)).some
  cases i <;> cases hg <;> cases hd
  case' call d t => cases t
  case' rqset o n => cases o
  all_goals
    cases he
    simp only [Instr.pos, List.forall_mem_cons, List.not_mem_nil, false_implies, implies_true, and_true] at lt dec listed
    refine ⟨_, rfl, ?_⟩
    try simp (disch := omega) only [bn_eq_val, Scope.codes.enc_eq_val, SReg.codes.enc_eq_val, fld_of_lt, bt_of_lt, fld_add_mul_of_above,
      fld_add_mul_of_below, fld_mul_self, fld_zero_self, bt_one, bt_add_mul_of_above, bt_val, fin_val, ofNat_toNat, Option.getD_some,
      Option.isNone_some, if_true, if_false, Bool.false_eq_true, Scope.codes.dec_val, SReg.codes.dec_val, dec]
    refine ⟨rfl, ?_, ?_, ?_⟩
    case' refine_1 => constructor <;> dsimp only <;> omega
    case' refine_2 => constructor <;> simp (disch := omega) only [forall_const, reduceCtorEq, false_implies, Bool.or_eq_false_iff,
      bne_eq_false_iff_eq, beq_eq_false_iff_ne, decide_eq_false_iff_not, Nat.reduceAdd, Nat.reducePow, and_self, extraBits_le] <;> omega
    case' refine_3 => simp only [hasReserved_iff, listed, ofCode_zero, Option.mem_def, reduceCtorEq, false_implies, implies_true, and_self]

/-- An instruction of this group is read from its own fields. -/
theorem armInteger_reads {i : Instr} {h : Hd} {f : XF} (hg : i.group = some .integer) (hd : i.hd = some h)
    (hc : ∀ p ∈ i.pos, p.x.codeable = true) (he : encFields i = some f) : ∃ a, armInteger h f = some a ∧ a.Reads i f := by
  have lt : ∀ p ∈ i.pos, p.x.code < 2 ^ 9 := fun p hp => (Opnd.coded (hc p hp)).lt
  have dec : ∀ p ∈ i.pos, Opnd.dec p.x.code = p.x := fun p hp => (Opnd.coded (hc p hp)).dec
  have listed : ∀ p ∈ i.pos, (Opnd.ofCode p.x.code).isNone = false := fun p hp => (Opnd.coded (hc p hp)).some
  cases i <;> cases hg <;> cases hd
  all_goals
    cases he
    simp only [Instr.pos, List.forall_mem_cons, List.not_mem_nil, false_implies, implies_true, and_true] at lt dec listed
    refine ⟨_, rfl, ?_⟩
    simp (disch := omega) only [↓usMod_false_add, usMod, bn_eq_val, bitFin_false, Cmp.codes.enc_eq_val, Nat.mul_zero, Nat.add_zero,
      fld_add_mul_of_above, fld_add_mul_of_below, fld_mul_self, fld_zero_self, bt_add_mul_of_above, bt_add_mul_of_below, bt_mul_val,
      bt_val, fin_val, ofNat_toNat, Option.getD_some, Option.isNone_some, Cmp.codes.dec_val, dec]
    refine ⟨rfl, ?_, ?_, ?_⟩
    case' refine_1 => constructor <;> dsimp only <;> omega
    case' refine_2 => constructor <;> simp (disch := omega) only [forall_const, reduceCtorEq, false_implies, Nat.reduceAdd, Nat.reducePow,
      extraBits_le, extraBits_0x18, extraBits_0x08, extraBits_0x10] <;> omega
    case' refine_3 => simp only [hasReserved_iff, listed, ofCode_zero, Option.mem_def, reduceCtorEq, false_implies, implies_true, and_self]

/-- An instruction of this group is read from its own fields. -/
theorem armFloat_reads {i : Instr} {h : Hd} {f : XF} (hg : i.group = some .float) (hd : i.hd = some h)
    (hc : ∀ p ∈ i.pos, p.x.codeable = true) (he : encFields i = some f) : ∃ a, armFloat h f = some a ∧ a.Reads i f := by
  have lt : ∀ p ∈ i.pos, p.x.code < 2 ^ 9 := fun p hp => (Opnd.coded (hc p hp)).lt
  have dec : ∀ p ∈ i.pos, Opnd.dec p.x.code = p.x := fun p hp => (Opnd.coded (hc p hp)).dec
  have listed : ∀ p ∈ i.pos, (Opnd.ofCode p.x.code).isNone = false := fun p hp => (Opnd.coded (hc p hp)).some
  cases i <;> cases hg <;> cases hd
  case' pfop d a b o z r m => cases o
  all_goals
    cases he
    simp only [Instr.pos, List.forall_mem_cons, List.not_mem_nil, false_implies, implies_true, and_true, List.forall_mem_append,
      Rnd.forall_lt_iff,
      Rnd.forall_dec_iff, Rnd.forall_listed_iff] at lt dec listed
    refine ⟨_, rfl, ?_⟩
    simp (disch := omega) only [cvtX, ↓SMod.enc_n2, SMod.enc, SMod.dec, ↓pfop_modc, bn_eq_val, bitFin_false, Fmt.codes.enc_eq_val,
      FCmp.codes.enc_eq_val, fld_of_lt, Rnd.bad3_enc, Rnd.bad9_enc, Bool.or_false, Nat.mul_zero, Nat.add_zero, fld_add_mul_of_above,
      fld_add_mul_of_below, fld_mul_self, fld_zero_self, bt_add_mul_of_above, bt_add_mul_of_below, bt_mul_val, bt_val, fin_val,
        ofNat_toNat, Option.getD_some, Option.isNone_some, Fmt.codes.dec_val, FCmp.codes.dec_val, dec]
    refine ⟨rfl, ?_, ?_, ?_⟩
    case' refine_1 => constructor <;> dsimp only <;> omega
    case' refine_2 => constructor <;> simp (disch := omega) only [forall_const, reduceCtorEq, false_implies, Nat.reduceAdd, Nat.reducePow,
      extraBits_le, extraBits_0x1B, extraBits_0x09, extraBits_0x12, extraBits_0x77, extraBits_0x00EFF1FF] <;> omega
    case' refine_3 => simp only [hasReserved_iff, listed, ofCode_zero, Option.mem_def, reduceCtorEq, false_implies, implies_true,
      and_self, Option.some.injEq, forall_eq']

/-- An instruction of this group is read from its own fields. -/
theorem armLane_reads {i : Instr} {h : Hd} {f : XF} (hg : i.group = some .lane) (hd : i.hd = some h)
    (hc : ∀ p ∈ i.pos, p.x.codeable = true) (he : encFields i = some f) : ∃ a, armLane h f = some a ∧ a.Reads i f := by
  have lt : ∀ p ∈ i.pos, p.x.code < 2 ^ 9 := fun p hp => (Opnd.coded (hc p hp)).lt
  have dec : ∀ p ∈ i.pos, Opnd.dec p.x.code = p.x := fun p hp => (Opnd.coded (hc p hp)).dec
  have listed : ∀ p ∈ i.pos, (Opnd.ofCode p.x.code).isNone = false := fun p hp => (Opnd.coded (hc p hp)).some
  cases i <;> cases hg <;> cases hd
  case' pmov x => cases x
  all_goals
    cases he
    simp only [Instr.pos, List.forall_mem_cons, List.not_mem_nil, false_implies, implies_true, and_true] at lt dec listed
    refine ⟨_, rfl, ?_⟩
    simp (disch := omega) only [bn_eq_val, Wid.codes.enc_eq_val, COp.codes.enc_eq_val, VMode.codes.enc_eq_val, ShMode.codes.enc_eq_val,
      fld_of_lt, bt_of_lt, fld_add_mul_of_above, fld_add_mul_of_below, fld_mul_self, fld_zero_self, bt_one, bt_add_mul_of_above,
      bt_add_mul_of_below, bt_mul_val, bt_val, fin_val, ofNat_toNat, Option.getD_some, Option.isNone_some, if_true, if_false,
        Bool.false_eq_true, Wid.codes.dec_val, COp.codes.dec_val, VMode.codes.dec_val, ShMode.codes.dec_val, dec]
    refine ⟨rfl, ?_, ?_, ?_⟩
    case' refine_1 => constructor <;> dsimp only <;> omega
    case' refine_2 => constructor <;> simp (disch := omega) only [forall_const, reduceCtorEq, false_implies, Nat.reduceAdd, Nat.reducePow,
      extraBits_le, extraBits_0x70, extraBits_0x73] <;> omega
    case' refine_3 => simp only [hasReserved_iff, listed, ofCode_zero, Option.mem_def, reduceCtorEq, false_implies, implies_true, and_self]

/-- An instruction of this group is read from its own fields. -/
theorem armMemory_reads {i : Instr} {h : Hd} {f : XF} (hg : i.group = some .memory) (hd : i.hd = some h)
    (hc : ∀ p ∈ i.pos, p.x.codeable = true) (h9 : i.nineOk = true) (he : encFields i = some f) : ∃ a, armMemory h f = some a ∧ a.Reads i f := by
  have lt : ∀ p ∈ i.pos, p.x.code < 2 ^ 9 := fun p hp => (Opnd.coded (hc p hp)).lt
  have dec : ∀ p ∈ i.pos, Opnd.dec p.x.code = p.x := fun p hp => (Opnd.coded (hc p hp)).dec
  have listed : ∀ p ∈ i.pos, (Opnd.ofCode p.x.code).isNone = false := fun p hp => (Opnd.coded (hc p hp)).some
  have lane : ∀ m, i.laneless = some m → m.isLane = false := fun m => Instr.isLane_of_laneless h9
  cases i <;> cases hg <;> cases hd
  case' ldc d m x => replace lane := lane m rfl
  case' cas p d m x y => replace lane := lane m rfl
  case' pref m => replace lane := lane m rfl
  case' rng c d x => cases x
  case' xbar o a b => cases o
  all_goals
    cases he
    simp only [Instr.pos, List.forall_mem_cons, List.not_mem_nil, false_implies, implies_true, and_true, List.forall_mem_append,
      MemF.forall_lt_iff,
      MemF.forall_dec_iff, MemF.forall_listed_iff, ↓Instr.pos_rng, Option.map_some,
      Option.map_none, Option.toList_some, Option.toList_none] at lt dec listed
    refine ⟨_, rfl, ?_⟩
    try simp (disch := first | omega | assumption) only [memX_fields, MemF.bad9_memX, MemF.role_eq_127_iff, Option.isSome_some,
      Option.isSome_none, bn_eq_val, bitFin_false, Scope.codes.enc_eq_val, AOp.codes.enc_eq_val, FKind.codes.enc_eq_val,
      RCnt.codes.enc_eq_val, literal_fields, bt_of_lt, Bool.or_false, Nat.mul_zero, Nat.add_zero, fld_add_mul_of_above,
        fld_add_mul_of_below, fld_mul_self, fld_zero_self, bt_add_mul_of_above, bt_add_mul_of_below, bt_mul_val, bt_val, fin_val,
        ofNat_toNat, Option.getD_some, Option.isNone_some, if_true, if_false, Bool.false_eq_true, Scope.codes.dec_val, AOp.codes.dec_val,
        FKind.codes.dec_val, RCnt.codes.dec_val, dec]
    refine ⟨rfl, ?_, ?_, ?_⟩
    case' refine_1 => constructor <;> simp only [memX_fields] <;> omega
    case' refine_2 => constructor <;> simp (disch := first | omega | assumption) only [forall_const, reduceCtorEq, false_implies,
      bne_eq_false_iff_eq, Nat.reduceAdd, Nat.reducePow, extraBits_le, extraBits_0x73, extraBits_0x77, MemF.s2_of_role,
      MemF.s2_of_not_isLane, memX_fields] <;> omega
    case' refine_3 => simp (disch := assumption) only [hasReserved_iff, listed, ofCode_zero, Option.mem_def, reduceCtorEq, false_implies,
      implies_true, and_self, memX_fields, MemF.s2_of_not_isLane]

/-- An instruction of this group is read from its own fields. -/
theorem armStream_reads {i : Instr} {h : Hd} {f : XF} (hg : i.group = some .stream) (hd : i.hd = some h)
    (hc : ∀ p ∈ i.pos, p.x.codeable = true) (he : encFields i = some f) : ∃ a, armStream h f = some a ∧ a.Reads i f := by
  have lt : ∀ p ∈ i.pos, p.x.code < 2 ^ 9 := fun p hp => (Opnd.coded (hc p hp)).lt
  have dec : ∀ p ∈ i.pos, Opnd.dec p.x.code = p.x := fun p hp => (Opnd.coded (hc p hp)).dec
  have listed : ∀ p ∈ i.pos, (Opnd.ofCode p.x.code).isNone = false := fun p hp => (Opnd.coded (hc p hp)).some
  cases i <;> cases hg <;> cases hd
  case' sopen p a o x w => cases x
  case' stest p q d m b => cases m
  all_goals
    cases he
    simp only [Instr.pos, List.forall_mem_cons, List.not_mem_nil, false_implies, implies_true, and_true, List.forall_mem_append,
      Option.map_some,
      Option.map_none, Option.toList_some, Option.toList_none] at lt dec listed
    refine ⟨_, rfl, ?_⟩
    simp (disch := omega) only [Option.isSome_some, Option.isSome_none, bn_eq_val, bitFin_false, SField.codes.enc_eq_val, bt_of_lt,
      Nat.mul_zero, Nat.add_zero, fld_mul_of_above, bt_mul_of_above, fld_add_mul_of_above, fld_add_mul_of_below, fld_mul_self,
      fld_zero_self, bt_add_mul_of_above, bt_add_mul_of_below, bt_mul_val, bt_val, fin_val, if_true, if_false, Bool.false_eq_true,
        SField.codes.dec_val, dec]
    refine ⟨rfl, ?_, ?_, ?_⟩
    case' refine_1 => constructor <;> dsimp only <;> omega
    case' refine_2 => constructor <;> simp (disch := omega) only [forall_const, reduceCtorEq, false_implies, Nat.reduceAdd, Nat.reducePow,
      extraBits_le, extraBits_0x04] <;> omega
    case' refine_3 => simp only [hasReserved_iff, listed, ofCode_zero, Option.mem_def, reduceCtorEq, false_implies, implies_true, and_self]

/-- An instruction of this group is read from its own fields. -/
theorem armAcc_reads {i : Instr} {h : Hd} {f : XF} (hg : i.group = some .acc) (hd : i.hd = some h)
    (hc : ∀ p ∈ i.pos, p.x.codeable = true) (h9 : i.nineOk = true) (he : encFields i = some f) : ∃ a, armAcc h f = some a ∧ a.Reads i f := by
  have lt : ∀ p ∈ i.pos, p.x.code < 2 ^ 9 := fun p hp => (Opnd.coded (hc p hp)).lt
  have dec : ∀ p ∈ i.pos, Opnd.dec p.x.code = p.x := fun p hp => (Opnd.coded (hc p hp)).dec
  have listed : ∀ p ∈ i.pos, (Opnd.ofCode p.x.code).isNone = false := fun p hp => (Opnd.coded (hc p hp)).some
  have lane : ∀ m, i.laneless = some m → m.isLane = false := fun m => Instr.isLane_of_laneless h9
  cases i <;> cases hg <;> cases hd
  case' amac m a b g n => replace lane := lane m rfl
  case' aacc m t =>
    replace lane := lane m rfl
    cases t
  case' acctest m p d a => cases m
  all_goals
    cases he
    simp only [Instr.pos, List.forall_mem_cons, List.not_mem_nil, false_implies, implies_true, and_true, List.forall_mem_append,
      Rnd.forall_lt_iff,
      Rnd.forall_dec_iff, Rnd.forall_listed_iff, MemF.forall_lt_iff,
      MemF.forall_dec_iff, MemF.forall_listed_iff] at lt dec listed
    refine ⟨_, rfl, ?_⟩
    simp (disch := first | omega | assumption) only [memX_fields, MemF.bad9_memX, MemF.role_eq_127_iff, bn_eq_val, Fmt.codes.enc_eq_val,
      Wid.codes.enc_eq_val, AccSel.codes.enc_eq_val, literal_fields, fld_of_lt, bt_of_lt, Rnd.bad3_enc, Rnd.bad9_enc, Bool.or_false,
      fld_mul_of_above, fld_add_mul_of_above, fld_add_mul_of_below, fld_mul_self, fld_zero_self, bt_add_mul_of_above, bt_add_mul_of_below,
        bt_mul_val, bt_val, fin_val, ofNat_toNat, Option.getD_some, Option.isNone_some, if_true, if_false, Bool.false_eq_true,
        Fmt.codes.dec_val, Wid.codes.dec_val, AccSel.codes.dec_val, dec]
    refine ⟨rfl, ?_, ?_, ?_⟩
    case' refine_1 => constructor <;> simp only [memX_fields] <;> omega
    case' refine_2 => constructor <;> simp (disch := first | omega | assumption) only [forall_const, reduceCtorEq, false_implies,
      bne_eq_false_iff_eq, Nat.reduceAdd, Nat.reducePow, extraBits_le, extraBits_0x73, extraBits_0xF0F000, extraBits_0xFFF000,
      extraBits_0x1FF000, extraBits_0xF01FF, MemF.s2_of_role, MemF.s2_of_not_isLane, memX_fields] <;> omega
    case' refine_3 => simp (disch := assumption) only [hasReserved_iff, listed, ofCode_zero, Option.mem_def, reduceCtorEq, false_implies,
      implies_true, and_self, Option.some.injEq, forall_eq', memX_fields, MemF.s2_of_not_isLane]

/-- An instruction of this group is read from its own fields. -/
theorem armCopy_reads {i : Instr} {h : Hd} {f : XF} (hg : i.group = some .copy) (hd : i.hd = some h)
    (hc : ∀ p ∈ i.pos, p.x.codeable = true) (he : encFields i = some f) : ∃ a, armCopy h f = some a ∧ a.Reads i f := by
  have lt : ∀ p ∈ i.pos, p.x.code < 2 ^ 9 := fun p hp => (Opnd.coded (hc p hp)).lt
  have dec : ∀ p ∈ i.pos, Opnd.dec p.x.code = p.x := fun p hp => (Opnd.coded (hc p hp)).dec
  have listed : ∀ p ∈ i.pos, (Opnd.ofCode p.x.code).isNone = false := fun p hp => (Opnd.coded (hc p hp)).some
  cases i <;> cases hg <;> cases hd
  case' cpya g t s d x => cases t
  case' publish b n x => cases x
  all_goals
    cases he
    simp only [Instr.pos, List.forall_mem_cons, List.not_mem_nil, false_implies, implies_true, and_true, List.forall_mem_append,
      Option.map_some,
      Option.map_none, Option.toList_some, Option.toList_none] at lt dec listed
    refine ⟨_, rfl, ?_⟩
    simp (disch := omega) only [cpyX_fields, CpyF.dec_cpyX, CpyF.bad9_cpyX, Option.isSome_some, Option.isSome_none, bn_eq_val,
      Fmt.codes.enc_eq_val, literal_fields, bt_of_lt, Bool.or_false, fld_add_mul_of_above, fld_add_mul_of_below, fld_mul_self,
      fld_zero_self, bt_val, fin_val, ofNat_toNat, Option.getD_some, Option.isNone_some, if_true, if_false, Bool.false_eq_true,
        Fmt.codes.dec_val, dec]
    refine ⟨rfl, ?_, ?_, ?_⟩
    case' refine_1 => constructor <;> simp only [cpyX_fields, CpyF.moda_lt, CpyF.modc_lt] <;> omega
    case' refine_2 => constructor <;> simp (disch := omega) only [forall_const, reduceCtorEq, false_implies, Bool.or_eq_false_iff,
      bne_eq_false_iff_eq, Nat.reduceAdd, Nat.reducePow, and_self, extraBits_le, CpyF.extraBits_modc, CpyF.extraBits_moda,
        cpyX_fields] <;> omega
    case' refine_3 => simp only [hasReserved_iff, listed, ofCode_zero, Option.mem_def, reduceCtorEq, false_implies, implies_true,
      and_self, cpyX_fields]

/-- An extended thread instruction is read from its own fields. -/
theorem armThread_reads {i : Instr} {h : Hd} {f : XF} (hd : i.hd = some h) (hc : ∀ p ∈ i.pos, p.x.codeable = true)
    (h9 : i.nineOk = true) (he : encFields i = some f) : ∃ a, armThread h f = some a ∧ a.Reads i f := by
  obtain ⟨g, hg⟩ := Instr.group_of_hd hd
  rw [armThread_of_group hg he]
  cases g with
  | control => exact armControl_reads hg hd hc he
  | integer => exact armInteger_reads hg hd hc he
  | float => exact armFloat_reads hg hd hc he
  | lane => exact armLane_reads hg hd hc he
  | memory => exact armMemory_reads hg hd hc h9 he
  | stream => exact armStream_reads hg hd hc he
  | acc => exact armAcc_reads hg hd hc h9 he
  | copy => exact armCopy_reads hg hd hc he

end Sys2Proof
end

section
/-!
SUPPORT. The fields of an instruction of the MCC are read as the instruction (02 R42; 16 R344 to R350).
-/

namespace Sys2Proof

/-- An arm of the MCC reads the instruction's own fields as the instruction. -/
structure Arm.MccReads (i : Instr) (f : XF) (a : Arm) : Prop where
  i : a.i = i
  fits : f.Fits
  clean : a.Clean f
  listed : ∀ n ∈ [f.dx, f.s0, f.s1, f.s2], (MOpnd.ofCode n).isNone = false
  five : a.five = false

theorem Arm.Clean.mccFive {f : XF} {a : Arm} (hc : a.Clean f) (hl : ∀ n ∈ [f.dx, f.s0, f.s1, f.s2], (MOpnd.ofCode n).isNone = false) :
    mccFive f a = false := by
  simp only [Sys2Proof.mccFive, Bool.or_eq_false_iff, Bool.and_eq_false_imp, List.any_eq_false, Bool.not_eq_true, Bool.not_eq_true',
    Bool.and_eq_true, bne_eq_false_iff_eq]
  exact ⟨⟨hl, fun _ => ⟨⟨hc.dx, hc.s0⟩, hc.s1⟩⟩, fun h => hc.s2 h.2⟩

theorem MOpnd.listed {x : MOpnd} (h : x.codeable = true) : (MOpnd.ofCode x.code).isNone = false := by simp [MOpnd.ofCode_code h]

/-! ### The registers in their fields -/

theorem registers_dec : (∀ d, xOf (xc d) = some d) ∧ (∀ t, taOf (tac t) = some t) ∧ (∀ t, tbOf (tbc t) = some t) ∧ (∀ t, taOf (tbc t) = none) ∧
    (∀ t, tcOf (tcc t) = some t) ∧ (∀ t : Fin 4, cbOf (0x2A + t.val) = some t) ∧ ∀ t : Fin 2, scOf (0x2E + t.val) = some t := by decide

theorem registers_listed : (∀ d, (MOpnd.ofCode (xc d)).isNone = false) ∧ (∀ t, (MOpnd.ofCode (tac t)).isNone = false) ∧
    (∀ t, (MOpnd.ofCode (tbc t)).isNone = false) ∧ (∀ t, (MOpnd.ofCode (tcc t)).isNone = false) ∧
    (∀ t : Fin 4, (MOpnd.ofCode (0x2A + t.val)).isNone = false) ∧ (∀ t : Fin 2, (MOpnd.ofCode (0x2E + t.val)).isNone = false) ∧
    (MOpnd.ofCode 0).isNone = false := by decide

/-! ### The groups of fields in theirs -/

theorem MulF.moda_lt (m : MulF) : m.moda < 2 ^ 7 := by
  have := m.moda_fields.2.2.2
  omega

theorem MulF.modc_lt (m : MulF) : m.modc < 2 ^ 32 := by
  obtain ⟨-, -, -, -, -, -, -, lt⟩ := m.modc_fields
  omega

theorem MulF.extraBits_moda (m : MulF) : extraBits m.moda 0x0F 7 = false := (extraBits_low 4 (by decide) m.moda_lt).2 m.moda_fields.2.2.2

theorem MulF.extraBits_modc (m : MulF) : extraBits m.modc 0x07FFFFFF 32 = false := by
  obtain ⟨-, -, -, -, -, -, -, lt⟩ := m.modc_fields
  exact (extraBits_low 27 (by decide) m.modc_lt).2 lt

theorem Region.modc_lt_word (r : Region) : r.modc < 2 ^ 32 := by
  have := r.modc_lt
  omega

theorem Region.extraBits_modc (r : Region) : extraBits r.modc 0xFFFFF 32 = false := (extraBits_low 20 (by decide) r.modc_lt_word).2 r.modc_lt

theorem XMem.modc_lt (m : XMem) : m.modc < 2 ^ 32 := by
  obtain ⟨-, -, -, -, -, -, lt⟩ := m.modc_fields
  exact lt

theorem XMem.extraBits_modc (m : XMem) : extraBits m.modc 0xFFFFFFFF 32 = false := (extraBits_low 32 (by decide) m.modc_lt).2 m.modc_lt

theorem XStamp.modc_lt_word (a : XStamp) : a.modc < 2 ^ 32 := by
  have := a.modc_lt.1
  omega

theorem XStamp.extraBits_modc (a : XStamp) : extraBits a.modc 0x3FFFFF 32 = false := (extraBits_low 22 (by decide) a.modc_lt_word).2 a.modc_lt.1

theorem XStamp.space_lt (a : XStamp) : decide (2 ≤ fld a.modc 21 20) = false := by
  have := a.modc_lt.2
  simpa using this

/-- The bits of a MODA that says whether the high half of a product is signed or not. -/
theorem bt_high (u : Bool) : bt ((bitFin u).val + 2) 1 = true ∧ bt ((bitFin u).val + 2) 0 = u := by cases u <;> decide

theorem bt_two_zero : bt 2 0 = false := by decide

/-- TACC's arm is one arm in both of its forms. -/
theorem armTile_tacc {lit : Option W64} {f : XF} (h : f.opc = 0xCD) : armTile lit f = some (
    if bt f.moda 0 = true then
      { i := .tacc lit ((tcOf f.dx).getD 0) (.lines (.dec f.s0) (.dec f.s1)) (.dec f.modc), ud := true, u0 := true, u1 := true, am := 1,
        cm := 0xFFFFF, five := (tcOf f.dx).isNone }
    else
      { i := .tacc lit ((tcOf f.dx).getD 0) (.tile ((tcOf f.s0).getD 0)) (.dec f.modc), ud := true, u0 := true, am := 1, cm := 0xFFFFF,
        five := (tcOf f.dx).isNone || (tcOf f.s0).isNone }) := by
  cases f
  cases h
  exact (apply_ite some _ _ _).symm

/-- An instruction of the MCC's scalars is read from its own fields. -/
theorem armXScalar_reads {i : Instr} {f : XF} (hm : i.isMcc = true) (hc : ∀ p ∈ i.mpos, p.1.codeable = true) (he : encMcc i = some f)
    (ho : f.opc < 0xC0) : ∃ a, armXScalar i.mlit f = some a ∧ a.MccReads i f := by
  have lt : ∀ p ∈ i.mpos, p.1.code < 2 ^ 9 := fun p hp => MOpnd.code_lt (hc p hp)
  have dec : ∀ p ∈ i.mpos, MOpnd.dec p.1.code = p.1 := fun p hp => MOpnd.dec_code (hc p hp)
  have listed : ∀ p ∈ i.mpos, (MOpnd.ofCode p.1.code).isNone = false := fun p hp => MOpnd.listed (hc p hp)
  cases i <;> cases hm
  case' xmul l d a b m => cases m
  case' xjmp l d t =>
    cases t
    all_goals cases d
  case' xsig l k => cases k
  case' tdrain l t o p d c r => cases d
  case' tcode l t a => cases a
  case' tld l t o p rb nr => cases t
  case' tacc l t a r => cases a
  all_goals
    cases he
    simp only [Nat.reduceLT] at ho
  all_goals
    simp only [Instr.mpos, List.forall_mem_cons, List.not_mem_nil, false_implies, implies_true, and_true] at lt dec listed
    refine ⟨_, rfl, ?_⟩
    try simp (disch := omega) only [bn_eq_val, Option.isSome_some, Option.isSome_none, Cmp.codes.enc_eq_val, XCond.codes.enc_eq_val,
      XlOp.codes.enc_eq_val, XsOp.codes.enc_eq_val, fld_of_lt, bt_of_lt, bt_one, Bool.or_false, bt_mul_of_above, fld_add_mul_of_above,
      fld_zero_self, bt_add_mul_of_above, bt_add_mul_of_below, bt_mul_val, bt_val, ofNat_toNat, Option.getD_some, Option.isNone_some,
        if_true, if_false, Bool.false_eq_true, Cmp.codes.dec_val, XCond.codes.dec_val, XlOp.codes.dec_val, XsOp.codes.dec_val,
        Bool.not_true, Bool.not_false, Bool.false_and, Bool.and_false, dec, registers_dec, bt_high, XMem.dec_fields, XStamp.dec_fields,
        XStamp.space_lt, bne_self_eq_false]
    refine ⟨rfl, ?_, ?_, ?_, ?_⟩
    case' refine_1 => constructor <;> simp only [xc, XMem.modc_lt, XStamp.modc_lt_word] <;> omega
    case' refine_2 => constructor <;> simp (disch := omega) only [forall_const, reduceCtorEq, false_implies, Nat.reduceAdd, Nat.reducePow,
      XMem.extraBits_modc, XStamp.extraBits_modc, extraBits_le] <;> omega
    case' refine_3 => simp only [List.forall_mem_cons, registers_listed, listed, List.not_mem_nil, false_implies, implies_true, and_self]
    case' refine_4 => rfl

/-- An instruction of the tile unit is read from its own fields. -/
theorem armTile_reads {i : Instr} {f : XF} (hm : i.isMcc = true) (hc : ∀ p ∈ i.mpos, p.1.codeable = true) (he : encMcc i = some f)
    (ho : 0xC0 ≤ f.opc) : ∃ a, armTile i.mlit f = some a ∧ a.MccReads i f := by
  have lt : ∀ p ∈ i.mpos, p.1.code < 2 ^ 9 := fun p hp => MOpnd.code_lt (hc p hp)
  have dec : ∀ p ∈ i.mpos, MOpnd.dec p.1.code = p.1 := fun p hp => MOpnd.dec_code (hc p hp)
  have listed : ∀ p ∈ i.mpos, (MOpnd.ofCode p.1.code).isNone = false := fun p hp => MOpnd.listed (hc p hp)
  cases i <;> cases hm
  case' xmul l d a b m => cases m
  case' xjmp l d t =>
    cases t
    all_goals cases d
  case' xsig l k => cases k
  case' tdrain l t o p d c r => cases d
  case' tcode l t a => cases a
  case' tld l t o p rb nr => cases t
  case' tacc l t a r => cases a
  all_goals
    cases he
    simp only [Nat.reduceLeDiff] at ho
  case' tacc.refl.tile.refl => rw [armTile_tacc rfl]
  case' tacc.refl.lines.refl => rw [armTile_tacc rfl]
  all_goals
    simp only [Instr.mpos, List.forall_mem_cons, List.not_mem_nil, false_implies, implies_true, and_true] at lt dec listed
    refine ⟨_, rfl, ?_⟩
    try simp (disch := omega) only [bn_eq_val, RMode.codes.enc_eq_val, Fmt.codes.enc_eq_val, Fus.codes.enc_eq_val, fld_of_lt, bt_of_lt,
      bt_one, Bool.or_false, bt_mul_of_above, fld_add_mul_of_above, fld_add_mul_of_below, fld_mul_self, fld_zero_self,
      bt_add_mul_of_above, bt_add_mul_of_below, bt_mul_val, bt_val, fin_val, ofNat_toNat, Option.getD_some, Option.isNone_some, if_true,
        if_false, Bool.false_eq_true, RMode.codes.dec_val, Fmt.codes.dec_val, Fus.codes.dec_val, Bool.and_true, Bool.and_false, dec,
        registers_dec, bt_two_zero, MulF.dec_fields, Region.dec_modc, bne_self_eq_false]
    refine ⟨rfl, ?_, ?_, ?_, ?_⟩
    case' refine_1 => constructor <;> simp only [xc, tac, tbc, tcc, MulF.moda_lt, MulF.modc_lt, Region.modc_lt_word] <;> omega
    case' refine_2 => constructor <;> simp (disch := omega) only [forall_const, reduceCtorEq, false_implies, Nat.reduceAdd, Nat.reducePow,
      MulF.extraBits_moda, MulF.extraBits_modc, Region.extraBits_modc, extraBits_le, extraBits_0x7A] <;> omega
    case' refine_3 => simp only [List.forall_mem_cons, registers_listed, listed, List.not_mem_nil, false_implies, implies_true, and_self]
    case' refine_4 => rfl

theorem opc_of_encMcc {i : Instr} {f : XF} (he : encMcc i = some f) : 0xB0 ≤ f.opc ∧ f.opc < 0xCF := by
  cases i
  case' xmul l d a b m => cases m
  case' xjmp l d t => cases t
  case' xsig l k => cases k
  case' tdrain l t o p d c r => cases d
  case' tcode l t a => cases a
  case' tacc l t a r => cases a
  all_goals cases he
  all_goals simp only [Nat.reduceLeDiff, Nat.reduceLT, and_self]

/-- An instruction of the MCC is read from its own fields. -/
theorem armMcc_reads {i : Instr} {f : XF} (hm : i.isMcc = true) (hc : ∀ p ∈ i.mpos, p.1.codeable = true) (he : encMcc i = some f) :
    ∃ a, armMcc i.mlit f = some a ∧ a.MccReads i f := by
  have not_nop : f.opc ≠ 1 := by
    have := (opc_of_encMcc he).1
    omega
  rw [armMcc, if_neg not_nop]
  by_cases ho : f.opc < 0xC0
  · rw [if_pos ho]
    exact armXScalar_reads hm hc he ho
  · rw [if_neg ho]
    exact armTile_reads hm hc he (by omega)

end Sys2Proof
end

section
/-!
SUPPORT and the settlement of O60: a well-formed instruction is what its own words decode to.
-/

namespace Sys2Proof

/-! ### The opcode of an instruction (R51, R52) -/

/-- The group's instructions take no queue port. -/
def Group.portless : Group → Bool
  | .stream => true
  | _ => false

theorem opc_of_encFields {i : Instr} {g : Group} {f : XF} (hg : i.group = some g) (he : encFields i = some f) :
    opcAssigned f.opc = true ∧ opcMcc f.opc = false ∧ (decide (0x80 ≤ f.opc) && decide (f.opc ≤ 0x86)) = g.portless := by
  cases i <;> cases hg
  case' call d t => cases t
  case' rqset o n => cases o
  case' pfop d a b o z r m => cases o
  case' pmov x => cases x
  case' xbar o a b => cases o
  case' stest p q d m b => cases m
  case' aacc m t => cases t
  case' acctest m p d a => cases m
  case' cpya g t s d x => cases t
  all_goals
    cases he
    exact ⟨rfl, rfl, rfl⟩

theorem opcMcc_of_encMcc {i : Instr} {f : XF} (he : encMcc i = some f) : opcAssigned f.opc = true ∧ opcMcc f.opc = true ∧ i.isMcc = true := by
  cases i
  case' xmul l d a b m => cases m
  case' xjmp l d t => cases t
  case' xsig l k => cases k
  case' tdrain l t o p d c r => cases d
  case' tcode l t a => cases a
  case' tacc l t a r => cases a
  all_goals cases he
  all_goals exact ⟨rfl, rfl, rfl⟩

/-! ### No queue port stands in a field of a stream instruction (R245) -/

/-- A class without ports refuses them. -/
theorem Cls.port_of_ok {k : Cls} {n : Fin 16} (h : k.ok (.q n) = true) : k.q = true := by
  by_contra hk
  simp [Cls.ok, Cls.fault, Bool.not_eq_true _ ▸ hk] at h

/-- The code of a port. -/
def portCode (n : Nat) : Bool := match Opnd.ofCode n with | some (.q _) => true | _ => false

theorem streamQ_eq (f : XF) :
    streamQ f = (decide (0x80 ≤ f.opc) && decide (f.opc ≤ 0x86) && [f.dx, f.s0, f.s1, f.s2].any portCode) := rfl

theorem portCode_code {x : Opnd} {k : Cls} (hx : x.codeable = true) (hk : k.ok x = true) (hq : k.q = false) : portCode x.code = false := by
  rw [portCode, Opnd.ofCode_code hx]
  cases x
  case q n => exact absurd (Cls.port_of_ok hk) (by simp [hq])
  all_goals rfl

theorem portCode_zero : portCode 0 = false := rfl

/-- No position of a stream instruction takes a port. -/
theorem streamQ_eq_false {i : Instr} {h : Hd} {f : XF} (hd : i.hd = some h) (he : encFields i = some f)
    (hc : ∀ p ∈ i.pos, p.x.codeable = true) (hk : ∀ p ∈ i.pos, p.cls.ok p.x = true) : streamQ f = false := by
  have port : ∀ p ∈ i.pos, p.cls.q = false → portCode p.x.code = false := fun p hp => portCode_code (hc p hp) (hk p hp)
  obtain ⟨g, hg⟩ := Instr.group_of_hd hd
  rw [streamQ_eq, (opc_of_encFields hg he).2.2]
  cases g
  case stream =>
    suffices ∀ n ∈ [f.dx, f.s0, f.s1, f.s2], portCode n = false by
      simpa only [Group.portless, Bool.true_and, List.any_eq_false, Bool.not_eq_true] using this
    cases i <;> cases hg
    case' sopen p a o x w => cases x
    case' stest p q d m b => cases m
    all_goals
      cases he
      simp [Instr.pos, Cls.vob, Cls.vo64, Cls.noq, apply_ite Cls.q] at port
      simp [port, portCode_zero]
  all_goals rfl

/-! ### The fields that stand in an instruction's own words (R29, R33) -/

/-- The first word of extended fields. -/
def XF.firstWord (f : XF) (h : Hd) : Nat :=
  Sys2Proof.firstWord (if h.lit.isSome then 3 else 1) f.opc h.pred.val h.pneg h.chain (bn h.wbs + 2 * f.dx + 2 ^ 10 * f.moda)

/-- The second word of extended fields. -/
def XF.secondWord (f : XF) : Nat := f.s0 + 2 ^ 9 * f.s1 + 2 ^ 18 * f.s2 + 2 ^ 27 * f.modb

theorem XF.words_eq (f : XF) (h : Hd) : f.words h = f.firstWord h :: f.secondWord :: f.modc :: litWords h.lit := rfl

theorem len_lt (h : Hd) : (if h.lit.isSome then 3 else 1) < 4 := by split <;> decide

theorem XF.Fits.ofWords {f : XF} (hf : f.Fits) (h : Hd) : XF.ofWords (f.firstWord h) f.secondWord f.modc = f := by
  obtain ⟨opc, moda, dx, modb, s2, s1, s0, modc⟩ := hf
  have wbs := bn_lt_two h.wbs
  have top := firstWord_fld (pneg := h.pneg) (chain := h.chain) (top := bn h.wbs + 2 * f.dx + 2 ^ 10 * f.moda) (len_lt h) opc h.pred.isLt
  refine XF.mk_eq_iff.2 ⟨Sys2Proof.firstWord_opc (len_lt h) opc, (top 16 10).trans ?_, (top 9 1).trans ?_, ?_, ?_, ?_, ?_, rfl⟩
  all_goals
    simp only [fld, XF.secondWord]
    omega

theorem XF.Fits.hd_ofWord {f : XF} (hf : f.Fits) (h : Hd) : Hd.ofWord (f.firstWord h) h.lit = h := by
  have wbs : bt (f.firstWord h) 15 = h.wbs := by
    have := bn_lt_two h.wbs
    refine bt_of_eq_bn ?_
    rw [XF.firstWord, firstWord_div (len_lt h) hf.opc h.pred.isLt]
    omega
  rw [Hd.ofWord, wbs, XF.firstWord, firstWord_chain (len_lt h) hf.opc h.pred.isLt, firstWord_pneg (len_lt h) hf.opc h.pred.isLt,
    firstWord_pred (len_lt h) hf.opc h.pred.isLt, fin_val]

theorem XF.firstWord_len (f : XF) (h : Hd) : fld (f.firstWord h) 1 0 = if h.lit.isSome then 3 else 1 := Sys2Proof.firstWord_len (len_lt h)

theorem XF.Fits.firstWord_opc {f : XF} (hf : f.Fits) (h : Hd) : fld (f.firstWord h) 9 2 = f.opc :=
  Sys2Proof.firstWord_opc (len_lt h) hf.opc

theorem XF.Fits.words_lt {f : XF} (hf : f.Fits) (h : Hd) : ∀ w ∈ f.words h, w < 2 ^ 32 := by
  have first : f.firstWord h < 2 ^ 32 := by
    have := bn_lt_two h.wbs
    have := hf.dx
    have := hf.moda
    exact firstWord_lt (len_lt h) hf.opc h.pred.isLt (by omega)
  have second : f.secondWord < 2 ^ 32 := by
    obtain ⟨-, -, -, modb, s2, s1, s0, -⟩ := hf
    simp only [XF.secondWord]
    omega
  rw [XF.words_eq]
  simp only [List.forall_mem_cons]
  exact ⟨first, second, hf.modc, litWords_lt h.lit⟩

/-! ### Words are read by their length (R24) -/

theorem litWords_length (l : Option W64) : (litWords l).length = if l.isSome then 2 else 0 := by cases l <;> rfl

theorem litWords_some (x : W64) : ∃ a b, litWords (some x) = [a, b] ∧ BitVec.ofNat 64 (a + 2 ^ 32 * b) = x :=
  ⟨_, _, rfl, ofNat_litWords x⟩

/-- Extended words with their literal's are decoded as their fields. -/
theorem decodeWords_ext {c : DCtx} {w0 w1 w2 : Nat} {lit : Option W64} (ho : OpcRuns c (fld w0 9 2))
    (hl : fld w0 1 0 = if lit.isSome then 3 else 1) : decodeWords c (w0 :: w1 :: w2 :: litWords lit) = decodeExt c w0 w1 w2 lit := by
  cases lit with
  | none =>
    replace hl : fld w0 1 0 = 1 := hl
    rw [litWords]
    unfold decodeWords
    simp only [hl, opcReason_eq_none.2 ho]
  | some x =>
    replace hl : fld w0 1 0 = 3 := hl
    obtain ⟨a, b, words, value⟩ := litWords_some x
    rw [words]
    unfold decodeWords
    simp only [hl, opcReason_eq_none.2 ho, value]

/-- A compact word with its literal's is decoded as its fields. -/
theorem decodeWords_compact {c : DCtx} {w0 : Nat} {lit : Option W64} (ho : OpcRuns c (fld w0 9 2))
    (hl : fld w0 1 0 = if lit.isSome then 2 else 0) : decodeWords c (w0 :: litWords lit) = decodeCompact c w0 lit := by
  cases lit with
  | none =>
    replace hl : fld w0 1 0 = 0 := hl
    rw [litWords]
    unfold decodeWords
    simp only [hl, opcReason_eq_none.2 ho]
  | some x =>
    replace hl : fld w0 1 0 = 2 := hl
    obtain ⟨a, b, words, value⟩ := litWords_some x
    rw [words]
    unfold decodeWords
    simp only [hl, opcReason_eq_none.2 ho, value]

/-! ### Extended instructions (R33) -/

theorem codeable_of_all {ps : List Pos} (h : (ps.all fun p => p.x.codeable) = true) : ∀ p ∈ ps, p.x.codeable = true := by
  simpa only [List.all_eq_true] using h

theorem runs_of_thread {c : DCtx} {opc : Nat} (hc : c.mcc = false) (h : opcAssigned opc = true) (hm : opcMcc opc = false) : OpcRuns c opc :=
  ⟨h, fun _ => hm.trans hc.symm⟩

theorem Opnd.fits_in {c : DCtx} {i : Instr} (hk : ∀ p ∈ i.pos, p.cls.ok p.x = true) (hb : ∀ p ∈ i.pos, p.x.beyond c p.cls.w = false) :
    ∀ p ∈ i.pos, p.cls.fault p.x ≠ 5 ∧ p.x.beyond c p.cls.w = false ∧ p.cls.fault p.x ≠ 10 :=
  fun p hp => ⟨(Cls.fault_of_ok (hk p hp)).1, hb p hp, (Cls.fault_of_ok (hk p hp)).2⟩

/-- No reason stands against the fields of a well-formed instruction in a place that allows it. -/
theorem Instr.ThreadWf.threadOk {c : DCtx} {i : Instr} {h : Hd} {f : XF} {a : Arm} (wf : i.ThreadWf h) (hd : i.hd = some h)
    (al : Claims.Allowed c i) (he : encFields i = some f) (ha : armThread h f = some a) (r : a.Reads i f) : ThreadOk c h f a := by
  obtain ⟨rfl, fits, clean, reserved⟩ := r
  obtain ⟨-, beyond, handler, gang, chain⟩ := al
  have y := armThread_yields ha fits clean reserved wf.nineOk
  have lit : h.lit.isSome = hasLit f a.rs := by
    rw [Bool.eq_iff_iff, y.lit]
    exact (litFault_eq_false_iff.1 wf.lit).1
  exact ⟨lit, litBad32_of_litFault wf.lit, fun t => ⟨wf.chain t, chain ((Instr.header_of_hd hd).chain.trans t)⟩, handler, reserved,
    Opnd.fits_in wf.classes beyond, streamQ_eq_false hd he (codeable_of_all wf.codes) wf.classes, clean, wf.wbs, wf.threeOk, wf.guard,
    wf.nineOk, gang⟩

theorem decodeWords_thread {c : DCtx} {i : Instr} {h : Hd} {f : XF} (wf : i.ThreadWf h) (hd : i.hd = some h) (al : Claims.Allowed c i)
    (he : encFields i = some f) : decodeWords c (f.words h) = .ok i ∧ ∀ w ∈ f.words h, w < 2 ^ 32 := by
  obtain ⟨a, ha, reads⟩ := armThread_reads hd (codeable_of_all wf.codes) wf.nineOk he
  obtain ⟨g, hg⟩ := Instr.group_of_hd hd
  obtain ⟨assigned, notMcc, -⟩ := opc_of_encFields hg he
  have thread : c.mcc = false := al.1.trans (Instr.of_hd hd).2.1
  have opc : fld (f.firstWord h) 9 2 = f.opc := reads.fits.firstWord_opc h
  refine ⟨?_, reads.fits.words_lt h⟩
  rw [XF.words_eq, decodeWords_ext (opc ▸ runs_of_thread thread assigned notMcc) (f.firstWord_len h), decodeExt_thread thread,
    reads.fits.ofWords, reads.fits.hd_ofWord]
  exact ⟨a, ha, wf.threadOk hd al he ha reads, reads.i⟩

/-! ### Instructions of the MCC (R52) -/

theorem decodeWords_mcc {c : DCtx} {i : Instr} {f : XF} (wf : i.MccWf) (hm : i.isMcc = true) (al : Claims.Allowed c i)
    (he : encMcc i = some f) : decodeWords c (f.words ⟨false, false, 7, false, i.mlit⟩) = .ok i ∧
      ∀ w ∈ f.words ⟨false, false, 7, false, i.mlit⟩, w < 2 ^ 32 := by
  have codes : ∀ p ∈ i.mpos, p.1.codeable = true := by simpa only [List.all_eq_true] using wf.codes
  obtain ⟨a, ha, rfl, fits, clean, listed, five⟩ := armMcc_reads hm codes he
  obtain ⟨assigned, mccOnly, -⟩ := opcMcc_of_encMcc he
  have mcc : c.mcc = true := al.1.trans hm
  generalize hh : (⟨false, false, 7, false, a.i.mlit⟩ : Hd) = h
  have hlit : h.lit = a.i.mlit := by rw [← hh]
  have opc : fld (f.firstWord h) 9 2 = f.opc := fits.firstWord_opc h
  have five' := clean.mccFive listed
  have lit : a.i.mlit.isSome = hasLit f none := by
    rcases armMcc_eq_some ha fits clean five' five with ⟨-, e⟩ | y
    · rw [e] at hm
      cases hm
    · rw [Bool.eq_iff_iff, y.lit]
      exact wf.lit
  refine ⟨?_, fits.words_lt h⟩
  rw [XF.words_eq, decodeWords_ext (opc ▸ ⟨assigned, fun _ => mccOnly.trans mcc.symm⟩) (f.firstWord_len h), decodeExt_mcc mcc,
    fits.ofWords, fits.hd_ofWord, hlit]
  exact ⟨hh.symm, a, ha, ⟨lit, five, five', wf.classes, clean, wf.threeOk, wf.nineOk, al.2.2.2.1⟩, rfl⟩

/-! ### Compact instructions (R29, R30) -/

/-- A compact word is read from its own fields. -/
structure CompactReads (h : Ch) (opc top : Nat) (i : Instr) : Prop where
  arm : armCompact h opc top = some (i, false)
  opc_lt : opc < 2 ^ 8
  top_lt : top < 2 ^ 17
  source : opc ≠ 2 → (Opnd.ofCode (top / 256)).isNone = false
  assigned : opcAssigned opc = true
  notMcc : opcMcc opc = false

/-- A compact destination has a code of 8 bits. -/
theorem Opnd.code_lt_of_dC {x : Opnd} (h : Cls.dC.ok x = true) : x.code < 256 := by
  cases x with
  | v n => exact Nat.lt_trans n.isLt (by decide)
  | q n => exact Nat.add_lt_add_left n.isLt 0xF0
  | _ => cases h

theorem encCompact_reads {i : Instr} {h : Ch} {opc top : Nat} (hd : i.ch = some h) (hc : ∀ p ∈ i.pos, p.x.codeable = true)
    (hk : ∀ p ∈ i.pos, p.cls.ok p.x = true) (he : encCompact i = some (opc, top)) : CompactReads h opc top i := by
  have coded : ∀ p ∈ i.pos, p.x.Coded := fun p hp => Opnd.coded (hc p hp)
  have dst : ∀ p ∈ i.pos, p.cls = .dC → p.x.code < 256 := fun p hp e => Opnd.code_lt_of_dC (e ▸ hk p hp)
  have low : ∀ {x y}, x < 256 → (x + 256 * y) % 256 = x ∧ (x + 256 * y) / 256 = y := by omega
  cases i <;> cases hd <;> cases he
  all_goals simp only [Instr.pos, List.forall_mem_cons, List.not_mem_nil, false_implies, implies_true, and_true, forall_const] at coded dst
  case' nopC | retC | exitC | reformC | yieldC => exact ⟨rfl, by decide, by decide, fun _ => rfl, rfl, rfl⟩
  case' braC off => exact ⟨by simp [armCompact], by decide, off.isLt, fun o => absurd rfl o, rfl, rfl⟩
  case' barC s =>
    have := coded.lt
    exact ⟨by simp [armCompact, coded.dec], by decide, by omega, fun _ => by simp [coded.some], rfl, rfl⟩
  case' movC => replace coded := And.intro coded.1 (And.intro coded.2 coded.1)
  all_goals
    next d s =>
    have dlt := dst.1
    have slt := coded.2.1.lt
    refine ⟨?_, by decide, by omega, fun _ => ?_, rfl, rfl⟩
    · refine Eq.trans (b := some _) rfl ?_
      simp only [low dlt, coded.1.dec, coded.2.1.dec]
    · simp only [low dlt, coded.2.1.some]

theorem compactLen_lt (h : Ch) : (if h.lit.isSome then 2 else 0) < 4 := by split <;> decide

/-- No reason stands against the fields of a well-formed compact instruction in a place that allows it. -/
theorem Instr.ThreadWf.compactOk {c : DCtx} {i : Instr} {h : Ch} {opc top : Nat} (wf : i.ThreadWf (Machine.hdOf h)) (hd : i.ch = some h)
    (al : Claims.Allowed c i) (r : CompactReads h opc top i) : CompactOk c h i false opc (top / 256) := by
  obtain ⟨mcc, beyond, handler, -, chain⟩ := al
  have thread : c.mcc = false := mcc.trans (Instr.of_ch hd).2.1
  have y := armCompact_yields r.arm r.top_lt fun _ => r.source
  refine ⟨?_, litBad32_of_litFault wf.lit, fun t => ⟨wf.chain t, chain ((Instr.header_of_ch hd).chain.trans t)⟩, handler,
    fun o _ => r.source o, Opnd.fits_in wf.classes beyond, fun m => absurd m (by simp [thread]), rfl, wf.guard, wf.nineOk⟩
  rw [Bool.eq_iff_iff, y.lit]
  exact (litFault_eq_false_iff.1 wf.lit).1

theorem decodeWords_ch {c : DCtx} {i : Instr} {h : Ch} {opc top : Nat} (wf : i.ThreadWf (Machine.hdOf h)) (hd : i.ch = some h)
    (al : Claims.Allowed c i) (he : encCompact i = some (opc, top)) :
    let ws := firstWord (if h.lit.isSome then 2 else 0) opc h.pred.val h.pneg h.chain top :: litWords h.lit
    decodeWords c ws = .ok i ∧ ∀ w ∈ ws, w < 2 ^ 32 := by
  intro ws
  have r := encCompact_reads hd (codeable_of_all wf.codes) wf.classes he
  have thread : c.mcc = false := al.1.trans (Instr.of_ch hd).2.1
  have len := compactLen_lt h
  have word : Ch.ofWord (firstWord (if h.lit.isSome then 2 else 0) opc h.pred.val h.pneg h.chain top) h.lit = h := by
    rw [Ch.ofWord, firstWord_chain len r.opc_lt h.pred.isLt, firstWord_pneg len r.opc_lt h.pred.isLt, firstWord_pred len r.opc_lt h.pred.isLt,
      fin_val]
  have whole := (firstWord_fld (pneg := h.pneg) (chain := h.chain) (top := top) len r.opc_lt h.pred.isLt 16 0).trans (fld_zero_self r.top_lt)
  have source : fld top 16 8 = top / 256 := Nat.mod_eq_of_lt (by have := r.top_lt; omega)
  have high := (firstWord_fld (pneg := h.pneg) (chain := h.chain) (top := top) len r.opc_lt h.pred.isLt 16 8).trans source
  have opcode := firstWord_opc (pred := h.pred.val) (pneg := h.pneg) (chain := h.chain) (top := top) len r.opc_lt
  constructor
  · rw [decodeWords_compact (opcode.symm ▸ runs_of_thread thread r.assigned r.notMcc) (firstWord_len len), decodeCompact_ok_iff, word, opcode, whole, high]
    exact ⟨fun m => absurd m (by simp [thread]), r.arm, wf.compactOk hd al r⟩
  · simp only [ws, List.forall_mem_cons]
    exact ⟨firstWord_lt len r.opc_lt h.pred.isLt r.top_lt, litWords_lt h.lit⟩

/-! ### The words of an instruction (R24) -/

/-- An instruction with words is a compact one, an extended one or one of the MCC. -/
theorem encode_cases {i : Instr} {ws : List Nat} (he : encode i = some ws) :
    (∃ h opc top, i.ch = some h ∧ encCompact i = some (opc, top) ∧
      ws = firstWord (if h.lit.isSome then 2 else 0) opc h.pred.val h.pneg h.chain top :: litWords h.lit) ∨
    (∃ h f, i.hd = some h ∧ encFields i = some f ∧ ws = f.words h) ∨
    ∃ f, i.ch = none ∧ i.hd = none ∧ encMcc i = some f ∧ ws = f.words ⟨false, false, 7, false, i.mlit⟩ := by
  unfold encode at he
  split at he
  · next h hc =>
    obtain ⟨⟨opc, top⟩, e, rfl⟩ := Option.map_eq_some_iff.1 he
    exact .inl ⟨h, opc, top, hc, e, rfl⟩
  · next h hd _ =>
    obtain ⟨f, e, rfl⟩ := Option.map_eq_some_iff.1 he
    exact .inr (.inl ⟨h, f, hd, e, rfl⟩)
  · next hc hd =>
    obtain ⟨f, e, rfl⟩ := Option.map_eq_some_iff.1 he
    exact .inr (.inr ⟨f, Option.eq_none_iff_forall_ne_some.2 hc, Option.eq_none_iff_forall_ne_some.2 hd, e, rfl⟩)

theorem words_size {i : Instr} {f : XF} {h : Hd} (hc : i.ch = none) (hl : i.lit = h.lit) : 4 * (f.words h).length = i.size := by
  simp only [XF.words_eq, List.length_cons, litWords_length, Instr.size, hc, hl]
  split <;> rfl

theorem compactWords_size {i : Instr} {h : Ch} (w : Nat) (hc : i.ch = some h) : 4 * (w :: litWords h.lit).length = i.size := by
  simp only [List.length_cons, litWords_length, Instr.size, hc]
  split <;> rfl

end Sys2Proof

namespace Sys2Proof.Claims

/-- Settles O60: the decoder reads each field of the words as what the encoder laid there, and finds no reason against a well-formed instruction. -/
theorem roundTrip : Obligations.RoundTrip := by
  unfold Obligations.RoundTrip
  intro c i ws hwf al he
  suffices Sys2Proof.decodeWords c ws = .ok i ∧ 4 * ws.length = i.size ∧ ∀ w ∈ ws, w < 2 ^ 32 by
    obtain ⟨hd, size, lt⟩ := this
    exact ⟨by rw [decode, wordsOf_bytesOf ws lt, hd], size, lt⟩
  rcases encode_cases he with ⟨h, opc, top, hd, enc, rfl⟩ | ⟨h, f, hd, enc, rfl⟩ | ⟨f, hc, hd, enc, rfl⟩
  · obtain ⟨ok, lt⟩ := decodeWords_ch ((Instr.wf_thread_iff (Instr.header_of_ch hd)).1 hwf) hd al enc
    exact ⟨ok, compactWords_size _ hd, lt⟩
  · have header := Instr.header_of_hd hd
    obtain ⟨ok, lt⟩ := decodeWords_thread ((Instr.wf_thread_iff header).1 hwf) hd al enc
    exact ⟨ok, words_size (Instr.of_hd hd).1 header.lit, lt⟩
  · have mcc := (opcMcc_of_encMcc enc).2.2
    obtain ⟨ok, lt⟩ := decodeWords_mcc ((Instr.wf_mcc_iff mcc).1 hwf) mcc al enc
    exact ⟨ok, words_size hc (by simp only [Instr.lit, hd, hc]), lt⟩

end Sys2Proof.Claims
end

section
/-!
SUPPORT. What the lanes of a completed instruction write to their block, and what they leave (05 R111, R123; 08 R177).
-/

namespace Sys2Proof.Machine

/-! ### One update of a state, read back -/

/-- An update of the elements that pass a test leaves which they are: the first of them is the updated first. -/
theorem find?_map_ite {α : Type} {p : α → Bool} {f : α → α} (hf : ∀ a, p a = true → p (f a) = true) (l : List α) :
    (l.map fun a => if p a then f a else a).find? p = (l.find? p).map f := by
  induction l with
  | nil => rfl
  | cons a l ih =>
    cases h : p a
    · simp [h, ih]
    · simp [h, hf a h]

/-- An update of the elements that pass a test leaves the first that passes a test that holds of none of them. -/
theorem find?_map_ite_ne {α : Type} {p q : α → Bool} {f : α → α} (hq : ∀ a, q a = true → p a = false) (hf : ∀ a, q a = true → p (f a) = false)
    (l : List α) : (l.map fun a => if q a then f a else a).find? p = l.find? p := by
  induction l with
  | nil => rfl
  | cons a l ih =>
    cases h : q a
    · simp [h, List.find?_cons, ih]
    · simp [h, hq a h, hf a h, ih]

theorem block?_updBlock (s : State) (k : BKey) {f : Block → Block} (hf : ∀ b, (f b).key = b.key) :
    (s.updBlock k f).block? k = (s.block? k).map f := by
  have := find?_map_ite (p := fun b : Block => decide (b.key = k)) (f := f) (by simp [hf]) s.blocks
  simpa only [State.block?, State.updBlock, decide_eq_true_eq] using this

theorem block?_updBlock_of_ne (s : State) {j k : BKey} (h : j ≠ k) {f : Block → Block} (hf : ∀ b, (f b).key = b.key) :
    (s.updBlock k f).block? j = s.block? j := by
  have := find?_map_ite_ne (p := fun b : Block => decide (b.key = j)) (q := fun b => decide (b.key = k)) (f := f)
    (by rintro b hb; simp at hb; simp [hb, h.symm]) (by rintro b hb; simp at hb; simp [hf, hb, h.symm]) s.blocks
  simpa only [State.block?, State.updBlock, decide_eq_true_eq] using this

theorem course?_updCourse (s : State) (core id : Nat) {f : Course → Course} (hf : ∀ c, (f c).core = c.core ∧ (f c).id = c.id) :
    (s.updCourse core id f).course? core id = (s.course? core id).map f :=
  find?_map_ite (p := fun c : Course => c.core == core && c.id == id) (by simp [hf]) s.courses

theorem course?_updCourse_of_ne (s : State) {core id n i : Nat} (h : ¬(n = core ∧ i = id)) {f : Course → Course}
    (hf : ∀ c, (f c).core = c.core ∧ (f c).id = c.id) : (s.updCourse core id f).course? n i = s.course? n i := by
  refine find?_map_ite_ne (p := fun c : Course => c.core == n && c.id == i) (q := fun c => c.core == core && c.id == id) ?_ ?_ s.courses
  all_goals
    intro c hc
    simp only [Bool.and_eq_true, beq_iff_eq] at hc
    rw [Bool.eq_false_iff]
    simp only [ne_eq, hf, hc, Bool.and_eq_true, beq_iff_eq]
    exact fun e => h ⟨e.1.symm, e.2.symm⟩

theorem course?_of_courses {s t : State} (h : t.courses = s.courses) (core id : Nat) : t.course? core id = s.course? core id := by
  simp only [State.course?, h]

/-! ### What is written to one block -/

/-- A thread updated where it is the one of an index. -/
def Thread.upd (tl : Nat) (f : Thread → Thread) (t : Thread) : Thread := if t.tl == tl then f t else t

/-- A block with its threads, its registers and its pushes written. -/
def Block.wrote (b : Block) (T : Thread → Thread) (R : File 32 → File 32) (ps : List Push) : Block :=
  { b with threads := b.threads.map T, b := R b.b, pushes := ps }

/-- From one state to another the threads and the registers of one block were written, and, unless the writes were quiet, its pushes; of the
blocks no other one was. -/
structure Writes (quiet : Prop) (k : BKey) (T : Thread → Thread) (R : File 32 → File 32) (s t : State) : Prop where
  others : ∀ j, j ≠ k → t.block? j = s.block? j
  block : ∃ P : Block → List Push, (quiet → ∀ b, P b = b.pushes) ∧ t.block? k = (s.block? k).map fun b => b.wrote T R (P b)

variable {q : Prop} {k : BKey} {s t u : State}

theorem Writes.refl : Writes q k id id s s :=
  ⟨fun _ _ => rfl, ⟨Block.pushes, fun _ _ => rfl, by simp [Block.wrote]⟩⟩

theorem Writes.trans {T T' : Thread → Thread} {R R' : File 32 → File 32} (h : Writes q k T R s t) (g : Writes q k T' R' t u) :
    Writes q k (T' ∘ T) (R' ∘ R) s u := by
  obtain ⟨others, P, quiet, block⟩ := h
  obtain ⟨others', P', quiet', block'⟩ := g
  refine ⟨fun j hj => (others' j hj).trans (others j hj), fun b => P' (b.wrote T R (P b)), fun hq b => ?_, ?_⟩
  · exact (quiet' hq _).trans (quiet hq b)
  · rw [block', block, Option.map_map]
    congr 1
    funext b
    simp [Block.wrote]

theorem Writes.updBlock {f : Block → Block} {T : Thread → Thread} {R : File 32 → File 32} {P : Block → List Push}
    (hf : ∀ b, f b = b.wrote T R (P b)) (hq : q → ∀ b, P b = b.pushes) : Writes q k T R s (s.updBlock k f) := by
  have key : ∀ b, (f b).key = b.key := fun b => by rw [hf b, Block.wrote]
  refine ⟨fun j hj => block?_updBlock_of_ne s hj key, P, hq, ?_⟩
  rw [block?_updBlock s k key, funext hf]

theorem Writes.updThread (tl : Nat) (f : Thread → Thread) : Writes q k (Thread.upd tl f) id s (s.updThread k tl f) :=
  Writes.updBlock (P := Block.pushes) (fun _ => rfl) fun _ _ => rfl

theorem Writes.registers (R : File 32 → File 32) : Writes q k id R s (s.updBlock k fun b => { b with b := R b.b }) :=
  Writes.updBlock (P := Block.pushes) (fun b => by simp [Block.wrote]) fun _ _ => rfl

theorem Writes.pushes (hq : ¬q) (P : Block → List Push) : Writes q k id id s (s.updBlock k fun b => { b with pushes := P b }) :=
  Writes.updBlock (P := P) (fun b => by simp [Block.wrote]) fun h => absurd h hq

theorem Writes.addPush (hq : ¬q) (tl : Nat) (d : Deferred) (x : Nat) : Writes q k id id s (s.addPush k tl d x) := by
  obtain ⟨others, block⟩ := Writes.pushes (s := s) (k := k) hq
    fun b => b.pushes ++ [⟨s.nextId, s.events, b.portThru tl d.port, tl, d.port, d.loc, natLE d.size x⟩]
  exact ⟨others, block⟩

theorem Writes.foldl {α : Type} {T : α → Thread → Thread} {R : α → File 32 → File 32} {step : State → α → State} {l : List α}
    (h : ∀ a ∈ l, ∀ s, Writes q k (T a) (R a) s (step s a)) (s : State) :
    Writes q k (fun t => l.foldl (fun t a => T a t) t) (fun f => l.foldl (fun f a => R a f) f) s (l.foldl step s) := by
  induction l generalizing s with
  | nil => exact Writes.refl
  | cons a l ih => exact (h a (by simp) s).trans (ih (fun b hb => h b (by simp [hb])) _)

theorem Writes.updCourse (core n : Nat) (f : Course → Course) : Writes q k id id s (s.updCourse core n f) :=
  ⟨fun _ _ => rfl, Block.pushes, fun _ _ => rfl, by simp [Block.wrote, State.block?]⟩

/-! ### Runs of registers (R38) -/

/-- A run of registers, the first and how many, written with a value; no run is none. -/
def putRun : Option (Nat × Nat) → Nat → File 32 → File 32
  | some (n, k), x, f => regPut f n k x
  | none, _, f => f

theorem regPut_wf {f : File 32} (hf : swf 0 f = true) (n k x : Nat) : swf 0 (regPut f n k x) = true := by
  induction k with
  | zero => exact hf
  | succ k ih =>
    rw [regPut, List.range_succ, List.foldl_append]
    exact File.set_wf _ _ _ ih

theorem regPut_get {f : File 32} (hf : swf 0 f = true) (n k x m : Nat) :
    (regPut f n k x).get m = if n ≤ m ∧ m < n + k then BitVec.ofNat 32 (x / 2 ^ (32 * (m - n))) else f.get m := by
  induction k with
  | zero => simp [regPut]
  | succ k ih =>
    have step : regPut f n (k + 1) x = (regPut f n k x).set (n + k) (BitVec.ofNat 32 (x / 2 ^ (32 * k))) := by
      simp [regPut, List.range_succ]
    rw [step, File.get_set _ _ _ _ (regPut_wf hf n k x), ih]
    by_cases last : m = n + k
    · subst last
      simp
    · have : (n ≤ m ∧ m < n + (k + 1)) ↔ (n ≤ m ∧ m < n + k) := by omega
      simp [last, this]

theorem putRun_wf (r : Option (Nat × Nat)) (x : Nat) {f : File 32} (hf : swf 0 f = true) : swf 0 (putRun r x f) = true := by
  cases r with
  | none => exact hf
  | some r => exact regPut_wf hf _ _ _

/-- Of several values written to one run the last stands. -/
theorem putRun_foldl_get (r : Option (Nat × Nat)) (x : Nat) (l : List Nat) {f : File 32} (hf : swf 0 f = true) (m : Nat) :
    (putRun r x (l.foldl (fun f y => putRun r y f) f)).get m = (putRun r x f).get m := by
  induction l generalizing f with
  | nil => rfl
  | cons y l ih =>
    rw [List.foldl_cons, ih (putRun_wf r y hf)]
    cases r with
    | none => rfl
    | some r =>
      simp only [putRun]
      rw [regPut_get (regPut_wf hf _ _ _), regPut_get hf, regPut_get hf]
      split <;> rfl

/-! ### What a lane writes to its thread -/

/-- The number of a v register. -/
def vIndex : Opnd → Option Nat
  | .v n => some n.val
  | _ => none

/-- The number of an o register. -/
def oIndex : Opnd → Option Nat
  | .o n => some n.val
  | _ => none

/-- The number of a block register. -/
def bIndex : Opnd → Option Nat
  | .b n => some n.val
  | _ => none

/-- The run of registers of one file that an instruction's lanes write; none under WBS (R44). -/
def Shape.run (sh : Shape) (index : Opnd → Option Nat) : Option (Nat × Nat) :=
  if sh.h.wbs then none else sh.dst.bind fun p => (index p.1).map fun n => (n, p.2 / 32)

/-- The run that a destination names in one file, whether or not it is written. -/
def Shape.named (sh : Shape) (index : Opnd → Option Nat) : Option (Nat × Nat) := sh.dst.bind fun p => (index p.1).map fun n => (n, p.2 / 32)

theorem putRun_get (sh : Shape) (index : Opnd → Option Nat) (x : Nat) {f : File 32} (hf : swf 0 f = true) (m : Nat) :
    (putRun (sh.run index) x f).get m =
      match sh.named index with
      | some (n, k) => if sh.h.wbs = false ∧ n ≤ m ∧ m < n + k then BitVec.ofNat 32 (x / 2 ^ (32 * (m - n))) else f.get m
      | none => f.get m := by
  change (putRun (if sh.h.wbs then none else sh.named index) x f).get m = _
  rcases sh.named index with _ | ⟨n, k⟩
  · cases sh.h.wbs <;> rfl
  · cases sh.h.wbs
    · simpa [putRun] using regPut_get hf n k x m
    · simp [putRun]

/-- A value written to a thread's own registers. -/
def Shape.put (sh : Shape) (x : Nat) (t : Thread) : Thread :=
  if sh.h.wbs then t
  else
    match sh.dst with
    | some (d, w) => t.put d w x
    | none => t

theorem Shape.put_eq (sh : Shape) (x : Nat) (t : Thread) : sh.put x t =
    { t with v := putRun (sh.run vIndex) x t.v, o := putRun (sh.run oIndex) x t.o, poison := (sh.put x t).poison } := by
  unfold Shape.put Shape.run
  cases sh.h.wbs
  · rcases sh.dst with _ | ⟨d, w⟩
    · rfl
    · cases d <;> rfl
  · rfl

/-- A predicate file with one predicate written; 7 writes none. -/
def predPut (p : Fin 8) (x : Bool) (ps : BitVec 7) : BitVec 7 :=
  if p.val = 7 then ps else if x then ps ||| (1 <<< p.val : BitVec 7) else ps &&& ~~~(1 <<< p.val : BitVec 7)

theorem setPred_eq (t : Thread) (p : Fin 8) (x : Bool) : t.setPred p x = { t with preds := predPut p x t.preds } := by
  unfold Thread.setPred predPut
  split <;> rfl

theorem predPut_getLsbD (p i : Fin 8) (hi : i ≠ 7) (x : Bool) (ps : BitVec 7) :
    (predPut p x ps).getLsbD i.val = if i = p then x else ps.getLsbD i.val := by
  have lt : i.val < 7 := by omega
  have bit : (BitVec.ofNat 7 (1 <<< p.val)).getLsbD i.val = decide (p = i) := by
    rw [BitVec.getLsbD_ofNat, Nat.one_shiftLeft, Nat.testBit_two_pow]
    simp [lt, Fin.ext_iff]
  unfold predPut
  by_cases e : i = p
  · subst e
    have ne : i.val ≠ 7 := by omega
    cases x <;> simp [ne, lt, bit, -BitVec.getLsbD_eq_getElem]
  · split
    · simp
    · cases x <;> simp [Ne.symm e, lt, bit, -BitVec.getLsbD_eq_getElem]

theorem ports_eq (o : LaneOut) (t : Thread) : o.ports t = { t with ports := (o.ports t).ports } := by
  have key : ∀ (l : List (Fin 16 × Port)) (t : Thread),
      l.foldl (fun u p => u.putPort p.1 p.2) t = { t with ports := (l.foldl (fun u p => u.putPort p.1 p.2) t).ports } := by
    intro l
    induction l with
    | nil => intro t; rfl
    | cons p l ih => intro t; exact ih _
  unfold LaneOut.ports
  cases o.push with
  | none => exact key _ t
  | some p => 
    dsimp only
    rw [key]
    rfl

theorem Thread.upd_id (tl : Nat) : Thread.upd tl (fun t => t) = id := by
  funext t
  exact ite_self t

theorem Thread.upd_tl {tl : Nat} {f : Thread → Thread} (hf : ∀ t, (f t).tl = t.tl) (t : Thread) : (Thread.upd tl f t).tl = t.tl := by
  unfold Thread.upd
  split
  · exact hf t
  · rfl

/-- What a lane of a completed instruction writes to the threads of its block: its own thread. -/
def LaneOut.onThread (sh : Shape) (o : LaneOut) : Thread → Thread :=
  Thread.upd o.tl (sh.put o.res.val) ∘ Thread.upd o.tl (fun t => (o.res.th t).setPred sh.pd o.res.pd) ∘
    Thread.upd o.tl (fun t => (o.ports t).raise o.res.fl)

theorem Writes.result {sh : Shape} {o : LaneOut} (hq : q → o.push = none) (s : State) :
    Writes q k (Thread.upd o.tl (sh.put o.res.val)) (putRun (sh.run bIndex) o.res.val) s
      (match sh.dst with
        | none => s
        | some (.q _, _) =>
          match o.push with
          | some (_, d) => s.addPush k o.tl d o.res.val
          | none => s
        | some (d, w) => if sh.h.wbs then s else s.putDst k o.tl d w o.res.val) := by
  unfold Shape.put Shape.run
  have nothing : ∀ s, Writes q k (Thread.upd o.tl fun t => t) id s s := fun s => (Thread.upd_id o.tl).symm ▸ Writes.refl
  have registers : ∀ R, Writes q k (Thread.upd o.tl fun t => t) R s (s.updBlock k fun b => { b with b := R b.b }) :=
    fun R => (Thread.upd_id o.tl).symm ▸ Writes.registers R
  rcases sh.dst with _ | ⟨d, w⟩
  · cases sh.h.wbs <;> exact nothing s
  · cases d
    case q n =>
      cases e : o.push with
      | none => cases sh.h.wbs <;> exact nothing s
      | some p =>
        have pushed : Writes q k (Thread.upd o.tl fun t => t) id s (s.addPush k o.tl p.2 o.res.val) :=
          (Thread.upd_id o.tl).symm ▸ Writes.addPush (fun h => by simp [e] at hq; exact hq h) _ _ _
        cases sh.h.wbs <;> exact pushed
    case b n =>
      cases sh.h.wbs
      · exact registers _
      · exact nothing s
    all_goals
      cases sh.h.wbs
      · exact Writes.updThread _ _
      · exact nothing s

theorem Writes.lane {sh : Shape} {o : LaneOut} (hq : q → o.push = none) (s : State) :
    Writes q k (o.onThread sh) (putRun (sh.run bIndex) o.res.val) s
      (o.write sh k (s.updThread k o.tl fun t => (o.ports t).raise o.res.fl)) :=
  ((Writes.updThread o.tl fun t => (o.ports t).raise o.res.fl).trans
    (Writes.updThread o.tl fun t => (o.res.th t).setPred sh.pd o.res.pd)).trans (Writes.result hq _)

/-- A thread of a course that has moved past an instruction. -/
def Ctx.past (x : Ctx) (n : Nat) (t : Thread) : Thread :=
  x.c.members.foldl (fun t p => Thread.upd p.2 (fun th => { th with pc := th.pc + BitVec.ofNat 64 n }) t) t

theorem Ctx.past_eq (x : Ctx) (n : Nat) (t : Thread) :
    x.past n t = { t with pc := t.pc + BitVec.ofNat 64 (n * x.c.members.countP fun p => p.2 == t.tl) } := by
  unfold Ctx.past
  induction x.c.members generalizing t with
  | nil => simp
  | cons p l ih =>
    rw [List.foldl_cons, ih, List.countP_cons]
    by_cases e : t.tl = p.2
    · simp [Thread.upd, e, Nat.mul_add, BitVec.ofNat_add, BitVec.add_assoc, BitVec.add_comm]
    · simp [Thread.upd, e, Ne.symm e]

/-- What a completed instruction writes to its block. -/
theorem commitLanes_writes {sh : Shape} {x : Ctx} {outs : List LaneOut} (hr : x.c.reinj = []) (hq : q → ∀ o ∈ outs, o.push = none) (s : State) :
    Writes q x.b.key (fun t => x.past sh.size (outs.foldl (fun t o => o.onThread sh t) t))
      (fun f => outs.foldl (fun f o => putRun (sh.run bIndex) o.res.val f) f) s (commitLanes sh x outs s) := by
  have lanes := Writes.foldl (q := q) (k := x.b.key) (T := LaneOut.onThread sh) (R := fun o => putRun (sh.run bIndex) o.res.val)
    (step := fun u o => o.write sh x.b.key (u.updThread x.b.key o.tl fun t => (o.ports t).raise o.res.fl))
    (fun o ho s => Writes.lane (fun h => hq h o ho) s) s
  have written : Writes q x.b.key (fun t => outs.foldl (fun t o => o.onThread sh t) t)
      (fun f => outs.foldl (fun f o => putRun (sh.run bIndex) o.res.val f) f) s (writeLanes sh x outs s) := by
    unfold writeLanes
    cases sh.latch with
    | none => exact lanes
    | some n => exact lanes.trans (Writes.updCourse _ _ _)
  have moved : ∀ s : State, Writes q x.b.key (x.past sh.size) id s (s.advance x sh.size) := by
    intro s
    simp only [State.advance, hr, List.isEmpty_nil, if_true]
    have registers : (fun f : File 32 => x.c.members.foldl (fun f _ => id f) f) = id := by
      funext f
      exact List.foldl_fixed _
    rw [← registers]
    exact Writes.foldl (R := fun _ => id) (fun p _ s => Writes.updThread p.2 _) s
  have ended : ∀ s : State, Writes q x.b.key id id s (s.chainEnd x sh.h.chain) := by
    intro s
    simp only [State.chainEnd, hr, List.isEmpty_nil, if_true]
    exact Writes.updCourse _ _ _
  exact (written.trans (moved _)).trans (ended _)

/-! ### The threads of the block after a completed instruction -/

/-- A thread written is the thread of its index. -/
theorem Writes.thread? {T : Thread → Thread} {R : File 32 → File 32} (w : Writes q k T R s t) (hT : ∀ t, (T t).tl = t.tl) (tl : Nat) :
    t.thread? k tl = (s.thread? k tl).map T := by
  obtain ⟨-, P, -, block⟩ := w
  have find : ∀ (b : Block) (ps : List Push), (b.wrote T R ps).thread? tl = (b.thread? tl).map T := by
    intro b ps
    simp only [Block.thread?, Block.wrote, List.find?_map, Function.comp_def, hT]
  simp only [State.thread?, block, Option.bind_map, Function.comp_def, find, Option.map_bind]

theorem LaneOut.onThread_tl (sh : Shape) {o : LaneOut} (ho : ∀ t, (o.res.th t).tl = t.tl) (t : Thread) : (o.onThread sh t).tl = t.tl := by
  refine (Thread.upd_tl (fun u => ?_) _).trans ((Thread.upd_tl (fun u => ?_) _).trans (Thread.upd_tl (fun u => ?_) _))
  · rw [Shape.put_eq]
  · rw [setPred_eq]
    exact ho u
  · rw [ports_eq]
    rfl

theorem foldl_onThread_tl (sh : Shape) {ls : List LaneOut} (hl : ∀ o ∈ ls, ∀ t, (o.res.th t).tl = t.tl) (t : Thread) :
    (ls.foldl (fun t o => o.onThread sh t) t).tl = t.tl := by
  induction ls generalizing t with
  | nil => rfl
  | cons o ls ih => exact (ih (fun p hp => hl p (by simp [hp])) _).trans (LaneOut.onThread_tl sh (hl o (by simp)) t)

theorem past_foldl_tl (sh : Shape) (x : Ctx) {ls : List LaneOut} (hl : ∀ o ∈ ls, ∀ t, (o.res.th t).tl = t.tl) (t : Thread) :
    (x.past sh.size (ls.foldl (fun t o => o.onThread sh t) t)).tl = t.tl := by
  rw [Ctx.past_eq]
  exact foldl_onThread_tl sh hl t

theorem thread?_commitLanes {sh : Shape} {x : Ctx} {outs : List LaneOut} (hr : x.c.reinj = [])
    (hl : ∀ o ∈ outs, ∀ t, (o.res.th t).tl = t.tl) (s : State) (tl : Nat) :
    (commitLanes sh x outs s).thread? x.b.key tl =
      (s.thread? x.b.key tl).map fun t => x.past sh.size (outs.foldl (fun t o => o.onThread sh t) t) :=
  (commitLanes_writes (q := False) hr (fun h => h.elim) s).thread? (past_foldl_tl sh x hl) tl

end Sys2Proof.Machine
end

section
/-!
SUPPORT and the settlement of O8: what a completed instruction leaves in the thread of a lane.
-/

namespace Sys2Proof.Machine

/-- A lane writes no thread but its own. -/
theorem LaneOut.onThread_of_ne (sh : Shape) {o : LaneOut} {t : Thread} (h : t.tl ≠ o.tl) : o.onThread sh t = t := by
  simp [LaneOut.onThread, Thread.upd, h]

/-- The results of lanes on a thread that does nothing else: its registers, its predicates and its flags. -/
def Thread.results (sh : Shape) (ls : List LaneOut) (t : Thread) : Thread :=
  { t with
    v := (ls.map fun o => o.res.val).foldl (fun f x => putRun (sh.run vIndex) x f) t.v
    o := (ls.map fun o => o.res.val).foldl (fun f x => putRun (sh.run oIndex) x f) t.o
    preds := (ls.map fun o => o.res.pd).foldl (fun ps x => predPut sh.pd x ps) t.preds
    fpflags := ls.foldl (fun f q => f ||| q.res.fl.setWidth 32) t.fpflags }

/-- A lane that computes alone writes its results, and ports and marks. -/
theorem LaneOut.onThread_of_tl (sh : Shape) {o : LaneOut} {t : Thread} (hid : ∀ t, o.res.th t = t) (h : t.tl = o.tl) :
    ∃ ps ms, o.onThread sh t = { t.results sh [o] with ports := ps, poison := ms } := by
  have own : ∀ (f : Thread → Thread) (u : Thread), u.tl = o.tl → Thread.upd o.tl f u = f u := fun f u hu => by simp [Thread.upd, hu]
  have raised : ((o.ports t).raise o.res.fl).tl = o.tl := by
    rw [ports_eq]
    exact h
  have e : o.onThread sh t = sh.put o.res.val (((o.ports t).raise o.res.fl).setPred sh.pd o.res.pd) := by
    simp only [LaneOut.onThread, Function.comp_apply]
    rw [own _ t h, own _ _ raised, hid, own _ _ (by rw [setPred_eq]; exact raised)]
  rw [e, setPred_eq, Shape.put_eq, ports_eq]
  exact ⟨_, _, rfl⟩

/-- The lanes of a thread, one after the other. -/
theorem foldl_onThread (sh : Shape) {ls : List LaneOut} (hid : ∀ o ∈ ls, ∀ t, o.res.th t = t) (t : Thread) :
    ∃ ps ms, ls.foldl (fun t o => o.onThread sh t) t =
      { t.results sh (ls.filter fun o => o.tl == t.tl) with ports := ps, poison := ms } := by
  induction ls generalizing t with
  | nil => exact ⟨t.ports, t.poison, rfl⟩
  | cons o ls ih =>
    have rest := ih (fun p hp => hid p (by simp [hp]))
    rw [List.foldl_cons]
    by_cases h : o.tl = t.tl
    · obtain ⟨ps, ms, e⟩ := LaneOut.onThread_of_tl sh (hid o (by simp)) h.symm
      obtain ⟨ps', ms', e'⟩ := rest (o.onThread sh t)
      rw [e', e, List.filter_cons_of_pos (by simpa using h)]
      exact ⟨ps', ms', rfl⟩
    · rw [LaneOut.onThread_of_ne sh (Ne.symm h), List.filter_cons_of_neg (by simpa using h)]
      exact rest t

/-! ### The last lane of a thread -/

/-- Of several lanes of a thread the last one's value stands in its registers. -/
theorem putRun_last_get (sh : Shape) (index : Opnd → Option Nat) (xs : List Nat) (x : Nat) {f : File 32} (hf : swf 0 f = true) (m : Nat) :
    ((xs ++ [x]).foldl (fun f x => putRun (sh.run index) x f) f).get m = (putRun (sh.run index) x f).get m := by
  rw [List.foldl_append]
  exact putRun_foldl_get _ _ _ hf m

/-- Of several lanes of a thread the last one's predicate stands. -/
theorem predPut_last (p : Fin 8) (xs : List Bool) (x : Bool) (ps : BitVec 7) (i : Fin 8) (hi : i ≠ 7) :
    ((xs ++ [x]).foldl (fun ps x => predPut p x ps) ps).getLsbD i.val = if i = p then x else ps.getLsbD i.val := by
  rw [List.foldl_append, List.foldl_cons, List.foldl_nil, predPut_getLsbD _ _ hi]
  split
  · rfl
  · next ne =>
    induction xs generalizing ps with
    | nil => rfl
    | cons y ys ih => rw [List.foldl_cons, ih, predPut_getLsbD _ _ hi, if_neg ne]

theorem tl_of_thread? {s : State} {k : BKey} {tl : Nat} {th : Thread} (h : s.thread? k tl = some th) : th.tl = tl := by
  obtain ⟨b, -, hb⟩ := Option.bind_eq_some_iff.1 h
  simpa using List.find?_some hb

end Sys2Proof.Machine

namespace Sys2Proof.Claims
open Machine

/-- Settles O8: a thread's lanes write it one after the other, each the same registers and the same predicate. -/
theorem resultsReachTheirThread : Obligations.ResultsReachTheirThread := by
  unfold Obligations.ResultsReachTheirThread
  intro s x sh before after o th hr hid hlast hth hv ho
  have tl : th.tl = o.tl := tl_of_thread? hth
  obtain ⟨ps, ms, e⟩ := foldl_onThread sh hid th
  have mine : (before ++ o :: after).filter (fun q => q.tl == o.tl) = before.filter (fun q => q.tl == o.tl) ++ [o] := by
    have rest : after.filter (fun q => q.tl == o.tl) = [] := List.filter_eq_nil_iff.2 (by simpa using hlast)
    rw [List.filter_append, List.filter_cons_of_pos (by simp), rest]
  have found := thread?_commitLanes (sh := sh) hr (fun q hq t => by rw [hid q hq]) s o.tl
  rw [hth, Option.map_some, e, Ctx.past_eq, tl, mine] at found
  refine ⟨_, found, fun m => ?_, fun m => ?_, fun p => ?_, by rw [mine]; rfl, ?_, rfl, rfl, rfl, rfl, rfl, rfl, rfl, rfl, rfl, rfl⟩
  · simp only [Thread.results, List.map_append, List.map_cons, List.map_nil, putRun_last_get _ _ _ _ hv, putRun_get _ _ _ hv, Shape.named]
    rcases sh.dst with _ | ⟨d, w⟩
    · rfl
    · cases d <;> rfl
  · simp only [Thread.results, List.map_append, List.map_cons, List.map_nil, putRun_last_get _ _ _ _ ho, putRun_get _ _ _ ho, Shape.named]
    rcases sh.dst with _ | ⟨d, w⟩
    · rfl
    · cases d <;> rfl
  · by_cases p7 : p = 7
    · subst p7
      rfl
    · have ne : p.val ≠ 7 := by omega
      simp only [Thread.pred, ne, p7, if_false, Thread.results, List.map_append, List.map_cons, List.map_nil, predPut_last _ _ _ _ _ p7]
  · simp only [Thread.results, tl]

end Sys2Proof.Claims
end

section
/-!
SUPPORT and the settlement of O9: what a completed instruction leaves of its course and of its block.
-/

namespace Sys2Proof.Machine

/-! ### The course of a completed instruction (R43 to R46) -/

theorem foldl_courses {α : Type} {step : State → α → State} (h : ∀ s a, (step s a).courses = s.courses) (l : List α) (s : State) :
    (l.foldl step s).courses = s.courses := by
  induction l generalizing s with
  | nil => rfl
  | cons a l ih => exact (ih _).trans (h s a)

theorem write_courses (sh : Shape) (k : BKey) (o : LaneOut) (s : State) : (o.write sh k s).courses = s.courses := by
  unfold LaneOut.write
  rcases sh.dst with _ | ⟨d, w⟩
  · rfl
  · cases d
    case q n => cases o.push <;> rfl
    all_goals cases sh.h.wbs <;> rfl

theorem advance_courses (s : State) (x : Ctx) (n : Nat) : (s.advance x n).courses = s.courses := by
  unfold State.advance
  split
  · exact foldl_courses (fun s p => updThread_courses s _ _ _) _ _
  · rfl

/-- A course after its instruction: the pipe's latch, and the chain. -/
def Course.completed (c : Course) (sh : Shape) (outs : List LaneOut) : Course :=
  (match sh.latch with
    | some n => c.setLatch n (latchOf outs)
    | none => c).chained sh.h.chain

theorem chained_core_id (c : Course) (b : Bool) : (c.chained b).core = c.core ∧ (c.chained b).id = c.id := by cases b <;> exact ⟨rfl, rfl⟩

theorem setLatch_core_id (c : Course) (n : Nat) (v : Latch) : (c.setLatch n v).core = c.core ∧ (c.setLatch n v).id = c.id := ⟨rfl, rfl⟩

theorem course?_commitLanes {sh : Shape} {x : Ctx} (hr : x.c.reinj = []) (outs : List LaneOut) (s : State) :
    (commitLanes sh x outs s).course? x.core x.id = (s.course? x.core x.id).map fun c => c.completed sh outs := by
  have lanes := foldl_courses (step := fun u o => o.write sh x.b.key (u.updThread x.b.key o.tl fun t => (o.ports t).raise o.res.fl))
    (fun s o => write_courses sh _ o _) outs s
  simp only [commitLanes, State.chainEnd, hr, List.isEmpty_nil, if_true]
  rw [course?_updCourse _ _ _ fun c => chained_core_id c _, course?_of_courses (advance_courses _ _ _)]
  unfold writeLanes Course.completed
  cases sh.latch with
  | none => rw [course?_of_courses lanes]
  | some n =>
    simp only [hr, List.isEmpty_nil, if_true]
    rw [course?_updCourse _ _ _ fun c => setLatch_core_id c _ _, course?_of_courses lanes, Option.map_map]
    rfl

theorem course?_commitLanes_of_ne {sh : Shape} {x : Ctx} (hr : x.c.reinj = []) (outs : List LaneOut) (s : State) {n i : Nat}
    (h : ¬(n = x.core ∧ i = x.id)) : (commitLanes sh x outs s).course? n i = s.course? n i := by
  have lanes := foldl_courses (step := fun u o => o.write sh x.b.key (u.updThread x.b.key o.tl fun t => (o.ports t).raise o.res.fl))
    (fun s o => write_courses sh _ o _) outs s
  simp only [commitLanes, State.chainEnd, hr, List.isEmpty_nil, if_true]
  rw [course?_updCourse_of_ne _ h fun c => chained_core_id c _, course?_of_courses (advance_courses _ _ _)]
  unfold writeLanes
  cases sh.latch with
  | none => exact course?_of_courses lanes _ _
  | some m => exact (course?_updCourse_of_ne _ h fun c => setLatch_core_id c _ _).trans (course?_of_courses lanes _ _)

/-! ### What no lane writes -/

theorem run_bIndex_none {sh : Shape} (h : ∀ n w, sh.dst ≠ some (.b n, w)) : sh.run bIndex = none := by
  have unnamed : sh.named bIndex = none := by
    unfold Shape.named
    rcases e : sh.dst with _ | ⟨d, w⟩
    · rfl
    · cases d
      case b n => exact absurd e (h n w)
      all_goals rfl
  change (if sh.h.wbs then _ else sh.named bIndex) = _
  rw [unnamed, ite_self]

theorem foldl_putRun_none {sh : Shape} {index : Opnd → Option Nat} (h : sh.run index = none) (ls : List LaneOut) :
    (fun f => ls.foldl (fun f o => putRun (sh.run index) o.res.val f) f) = id := by
  rw [h]
  funext f
  exact List.foldl_fixed _

theorem foldl_onThread_of_ne (sh : Shape) {ls : List LaneOut} {t : Thread} (h : ∀ o ∈ ls, o.tl ≠ t.tl) :
    ls.foldl (fun t o => o.onThread sh t) t = t := by
  induction ls with
  | nil => rfl
  | cons o ls ih =>
    rw [List.foldl_cons, LaneOut.onThread_of_ne sh (Ne.symm (h o (by simp)))]
    exact ih fun p hp => h p (by simp [hp])

/-! ### The latches -/

theorem getD_setAt {α : Type} (d : α) (l : List α) (n m : Nat) (x : α) : (setAt d l n x).getD m d = if m = n then x else l.getD m d := by
  induction l generalizing n m with
  | nil =>
    induction n generalizing m with
    | zero => cases m <;> simp [setAt]
    | succ n ih =>
      cases m with
      | zero => simp [setAt]
      | succ m => simpa [setAt] using ih m
  | cons y l ih =>
    cases n with
    | zero => cases m <;> simp [setAt]
    | succ n =>
      cases m with
      | zero => simp [setAt]
      | succ m => simpa [setAt] using ih n m

theorem latch_setLatch (c : Course) (n m : Nat) (v : Latch) : (c.setLatch n v).latch m = if m = n then v else c.latch m :=
  getD_setAt _ _ _ _ _

theorem latchOf_get (outs : List LaneOut) {lane : Nat} (h : lane < 32) : (latchOf outs).get lane =
    match outs.find? (fun o => o.lane == lane) with
    | some o => BitVec.ofNat 64 o.res.val
    | none => 0 := by
  have at_ : lanes32[lane]? = some lane := by simp [lanes32, h]
  simp only [Latch.get, latchOf, List.getD_eq_getElem?_getD, List.getElem?_map, at_, Option.map_some, Option.getD_some]
  cases outs.find? fun o => o.lane == lane <;> rfl

theorem latch_endChain (c : Course) (m : Nat) : (c.endChain.latch m).valid = false := by
  simp only [Course.latch, Course.endChain, List.getD_eq_getElem?_getD, List.getElem?_map]
  cases c.latches[m]? <;> rfl

theorem completed_of_end {sh : Shape} (h : sh.h.chain = false) (c : Course) (outs : List LaneOut) :
    (c.completed sh outs).chain = 0 ∧ ∀ m, ((c.completed sh outs).latch m).valid = false := by
  unfold Course.completed
  rw [h]
  exact ⟨rfl, latch_endChain _⟩

theorem completed_of_chain {sh : Shape} (h : sh.h.chain = true) (c : Course) (outs : List LaneOut) :
    (c.completed sh outs).chain = c.chain + 1 ∧ ∀ m, (c.completed sh outs).latch m =
      match sh.latch with
      | some n => if m = n then latchOf outs else c.latch m
      | none => c.latch m := by
  unfold Course.completed
  rw [h]
  cases sh.latch with
  | none => exact ⟨rfl, fun _ => rfl⟩
  | some n => exact ⟨rfl, fun m => latch_setLatch c n m _⟩

/-! ### Lanes in order -/

theorem insertBy_sorted {α : Type} (key : α → Nat) (x : α) {l : List α} (h : l.Pairwise fun a b => key a ≤ key b) :
    (insertBy key x l).Pairwise fun a b => key a ≤ key b := by
  induction l with
  | nil => simp [insertBy]
  | cons y l ih =>
    obtain ⟨first, rest⟩ := List.pairwise_cons.1 h
    unfold insertBy
    split
    · next lt =>
      refine List.pairwise_cons.2 ⟨fun a ha => ?_, h⟩
      rcases List.mem_cons.1 ha with rfl | ha
      · omega
      · have := first a ha
        omega
    · next ge =>
      refine List.pairwise_cons.2 ⟨fun a ha => ?_, ih rest⟩
      rcases (mem_insertBy key x a l).1 ha with rfl | ha
      · omega
      · exact first a ha

theorem sortBy_sorted {α : Type} (key : α → Nat) (l : List α) : (sortBy key l).Pairwise fun a b => key a ≤ key b := by
  have : ∀ (l t : List α), t.Pairwise (fun a b => key a ≤ key b) →
      (l.foldl (fun t x => insertBy key x t) t).Pairwise fun a b => key a ≤ key b := by
    intro l
    induction l with
    | nil => exact fun t h => h
    | cons x l ih => exact fun t h => ih _ (insertBy_sorted key x h)
  exact this l [] List.Pairwise.nil

end Sys2Proof.Machine

namespace Sys2Proof.Claims
open Machine

theorem completionTouchesItsOwnBlock : CompletionTouchesItsOwnBlock := by
  intro s x sh outs hr hq t
  have w := commitLanes_writes (q := True) (sh := sh) hr (fun _ o ho => (hq o ho).1) s
  have hl : ∀ o ∈ outs, ∀ t, (o.res.th t).tl = t.tl := fun o ho => (hq o ho).2
  refine ⟨SameButCores.commitLanes sh x outs s hr fun o ho => (hq o ho).1, w.others, fun _ _ => course?_commitLanes_of_ne hr outs s,
    fun b hb => ?_, fun tl htl => ?_⟩
  · obtain ⟨P, quiet, block⟩ := w.block
    rw [hb, Option.map_some, quiet trivial] at block
    refine ⟨_, block, rfl, ?_, fun hd => ?_⟩
    · simp only [Block.wrote, List.map_map, Function.comp_def, past_foldl_tl sh x hl]
    · exact congrFun (foldl_putRun_none (run_bIndex_none hd) outs) b.b
  · rw [thread?_commitLanes hr hl]
    cases hth : s.thread? x.b.key tl with
    | none => rfl
    | some th =>
      have same := tl_of_thread? hth
      rw [Option.map_some, Option.map_some, foldl_onThread_of_ne sh (by simpa [same] using htl), Ctx.past_eq, same]

theorem blockRegisterTakesTheLastLane : BlockRegisterTakesTheLastLane := by
  refine ⟨fun s x sh before o n w b hr wbs dst hb hwf => ?_, fun x sh f => ?_⟩
  · obtain ⟨P, -, block⟩ := (commitLanes_writes (q := False) (sh := sh) (outs := before ++ [o]) hr (fun h => h.elim) s).block
    rw [hb, Option.map_some] at block
    refine ⟨_, block, fun m => ?_⟩
    have last := putRun_last_get sh bIndex (before.map fun o => o.res.val) o.res.val hwf m
    rw [← List.map_singleton (f := fun o : LaneOut => o.res.val), ← List.map_append, List.foldl_map] at last
    refine last.trans ((putRun_get sh bIndex o.res.val hwf m).trans ?_)
    simp only [Shape.named, dst, wbs, Option.bind_some, bIndex, Option.map_some, true_and]
  · exact List.pairwise_map.2 (sortBy_sorted _ _)

theorem latchHoldsTheResults : LatchHoldsTheResults := by
  intro s x sh outs c hr hc
  refine ⟨c.completed sh outs, by rw [course?_commitLanes hr, hc]; rfl, fun chain => ?_, fun chain => ?_⟩
  · exact completed_of_end chain c outs
  · obtain ⟨next, latch⟩ := completed_of_chain chain c outs
    refine ⟨next, fun m => ?_⟩
    rw [latch m]
    cases sh.latch with
    | none => rfl
    | some n =>
      dsimp only
      split
      · exact ⟨rfl, rfl, fun lane h => latchOf_get outs h⟩
      · rfl

/-- Settles O9: the lanes write their own threads and the block's registers alone; the last writer's value stands, and the latch is the course's. -/
theorem completionWritesItsResults : Obligations.CompletionWritesItsResults :=
  ⟨completionTouchesItsOwnBlock, blockRegisterTakesTheLastLane, latchHoldsTheResults⟩

end Sys2Proof.Claims
end

section
/-!
SUPPORT and the settlement of O31: every operation that gives an accumulator a new value reduces the exact result into the range (04 R102, R103;
13 R299).
-/

namespace Sys2Proof.Machine

/-- The values of an accumulator (R102). -/
def InAccRange (y : Int) : Prop := -(2 ^ 639) ≤ y ∧ y < 2 ^ 639

/-- `r` has the exact value `y` where that lies in the range, with OVF as `was`, and elsewhere `y` modulo 2^640, with OVF set (R102, R299). -/
def HoldsExact (r : Acc) (y : Int) (was : Bool) : Prop :=
  InAccRange r.val ∧ (InAccRange y → r.val = y ∧ r.ovf = was) ∧ (¬InAccRange y → r.ovf = true ∧ (r.val - y) % 2 ^ 640 = 0)

/-- A pattern of n + 1 bits is from -2^n to below 2^n. -/
theorem toInt_range {n : Nat} (x : BitVec (n + 1)) : -(2 ^ n) ≤ x.toInt ∧ x.toInt < 2 ^ n :=
  ⟨by simpa using x.le_toInt, by simpa using x.toInt_lt⟩

/-- Reducing an integer to n bits changes it by a multiple of 2^n. -/
theorem toInt_ofInt_sub_emod (n : Nat) (x : Int) : ((BitVec.ofInt n x).toInt - x) % 2 ^ n = 0 := by
  have cong : (x.bmod (2 ^ n)) % ((2 ^ n : Nat) : Int) = x % ((2 ^ n : Nat) : Int) := Int.bmod_emod
  rw [BitVec.toInt_ofInt, ← Int.emod_emod_of_dvd _ (dvd_refl _), Int.sub_emod]
  push_cast at cong
  rw [cong, sub_self]
  simp

theorem accWrap_inRange (x : Int) : InAccRange (accWrap x) := toInt_range (n := 639) _

theorem accWrap_eq_iff {x : Int} : accWrap x = x ↔ InAccRange x :=
  ⟨fun h => h ▸ accWrap_inRange x, fun h => accWrap_of_range h.1 h.2⟩

/-- The reduction changes a value by a multiple of 2^640. -/
theorem accWrap_sub_emod (x : Int) : (accWrap x - x) % 2 ^ 640 = 0 := toInt_ofInt_sub_emod 640 x

section
variable (k : Acc) (x : Int) (n : W32) (z : Bool)

@[simp] theorem Acc.hold_val : (k.hold x n z).val = accWrap x := by rw [Acc.hold]
@[simp] theorem Acc.hold_ovf : (k.hold x n z).ovf = (k.ovf || decide (accWrap x ≠ x)) := by rw [Acc.hold]
@[simp] theorem Acc.hold_nan : (k.hold x n z).nan = k.nan := by rw [Acc.hold]
@[simp] theorem Acc.hold_pinf : (k.hold x n z).pinf = k.pinf := by rw [Acc.hold]
@[simp] theorem Acc.hold_ninf : (k.hold x n z).ninf = k.ninf := by rw [Acc.hold]
@[simp] theorem Acc.hold_poison : (k.hold x n z).poison = k.poison := by rw [Acc.hold]
@[simp] theorem Acc.hold_count : (k.hold x n z).count = n := by rw [Acc.hold]
@[simp] theorem Acc.hold_norm : (k.hold x n z).norm = z := by rw [Acc.hold]

end

/-- `hold` of R299 is exact in the range, and elsewhere exact modulo 2^640 with OVF. -/
theorem Acc.hold_holdsExact (k : Acc) (x : Int) (n : W32) (z : Bool) : HoldsExact (k.hold x n z) x k.ovf := by
  rw [HoldsExact, Acc.hold_val, Acc.hold_ovf]
  refine ⟨accWrap_inRange x, fun inside => ?_, fun outside => ⟨?_, accWrap_sub_emod x⟩⟩
  · simp [accWrap_eq_iff.2 inside]
  · simp [accWrap_eq_iff, outside]

theorem Acc.negate_holdsExact (k : Acc) (z : Bool) : HoldsExact (k.negate z) (-k.val) k.ovf := by
  rw [Acc.negate]
  exact k.swapInf.hold_holdsExact _ _ z

/-- A negation exchanges the infinities and counts no term. -/
theorem Acc.negate_flags (k : Acc) (z : Bool) :
    (k.negate z).pinf = k.ninf ∧ (k.negate z).ninf = k.pinf ∧ (k.negate z).count = k.count := by
  simp [Acc.negate, Acc.swapInf]

theorem Acc.plus_holdsExact (k a : Acc) (z : Bool) : HoldsExact (k.plus a z) (k.val + a.val) (k.ovf || a.ovf) := by
  rw [Acc.plus]
  exact (k.orFlags a).hold_holdsExact _ _ z

/-- A finite term is held where it has been added. -/
theorem Acc.add_fin (k : Acc) (s : Bool) (m : Nat) (e : Int) (z : Bool) :
    k.add (.fin s m e) z = k.hold (k.val + termOf s m e) (k.count + 1) z := rfl

/-- A term no finer than the resolution is the integer that it is at 2^-320. -/
theorem termOf_of_resolution (s : Bool) (m : Nat) {e : Int} (h : -320 ≤ e) :
    termOf s m e = (if s then -1 else 1) * m * 2 ^ (e + 320).toNat := by
  have fine : e + 320 ≥ 0 := by omega
  cases s <;> simp [termOf, fine]

/-- A negative scaling divides toward minus infinity. -/
theorem Acc.scale_holdsExact_of_neg (k : Acc) {t : Int} (h : t < 0) (z : Bool) :
    HoldsExact (k.scale t z) (k.val.fdiv (2 ^ (-t).toNat)) k.ovf := by
  rw [Acc.scale, if_neg (by omega), Int.fdiv_eq_ediv_of_nonneg _ (by positivity)]
  exact k.hold_holdsExact _ _ z

/-- Any other scaling multiplies. -/
theorem Acc.scale_holdsExact_of_nonneg (k : Acc) {t : Int} (h : 0 ≤ t) (z : Bool) : HoldsExact (k.scale t z) (k.val * 2 ^ t.toNat) k.ovf := by
  have exact_ : (if k.val = 0 then 0 else k.val * 2 ^ t.toNat) = k.val * 2 ^ t.toNat := by
    split
    case isTrue none => rw [none, zero_mul]
    case isFalse => rfl
  rw [Acc.scale, if_pos h, exact_]
  exact k.hold_holdsExact _ _ z

end Sys2Proof.Machine

namespace Sys2Proof.Claims

open Sys2Proof.Machine

/-- Settles O31: each operation is one `hold` of its exact result, and a special term sets its flag alone. -/
theorem accumulationIsExact : Obligations.AccumulationIsExact := by
  intro k z
  refine ⟨fun s m e fine => ?_, rfl, rfl, rfl, ⟨?_, k.negate_flags z⟩, fun t nonneg => k.scale_holdsExact_of_nonneg nonneg z,
    fun t neg => k.scale_holdsExact_of_neg neg z, fun a => ⟨k.plus_holdsExact a z, rfl, rfl, rfl, rfl, rfl⟩⟩
  rotate_left
  · exact k.negate_holdsExact z
  rw [← termOf_of_resolution s m fine, Acc.add_fin]
  exact ⟨k.hold_holdsExact _ _ z, by simp⟩

end Sys2Proof.Claims
end

section
/-!
SUPPORT and the settlement of O13: FPE with the results of its instruction held in an entry (04 R101; 19 R403).
-/

namespace Sys2Proof.Machine

/-- An instruction one of whose lanes raises an exception that it traps on takes FPE (R101). -/
theorem lanes_raiseFpe {s : State} {x : Ctx} {sh : Shape} {f : LaneFn} (h : Goes s x sh f) (due : fpeDue x (runLanes sh f x s).outs = true) :
    s.lanes sh f = .next (raiseFpe sh x (runLanes sh f x s).outs (runLanes sh f x s).s) := by
  rw [State.lanes, lanesWith_next s x sh f _ h, if_pos due]

/-! ### The trap -/

/-- The exceptions of a lane that its thread traps on. -/
def trapped (x : Ctx) (o : LaneOut) : FFlags := ((x.b.thread? o.tl).map fun t => t.enabled o.res.fl).getD 0

/-- The trap of an instruction whose lanes have computed `outs` (R101, R400). -/
def fpeTrap (sh : Shape) (x : Ctx) (outs : List LaneOut) : TrapInfo :=
  { TrapInfo.simple cFpe (maskOfLanes ((outs.filter fun o => trapped x o ≠ 0).map (·.lane))) x.pc with
    aux0 := everyLane (((outs.filter fun o => trapped x o ≠ 0).foldl (fun f o => f ||| trapped x o) 0).setWidth 32),
    entries := [entryFor sh x.pc outs] }

theorem raiseFpe_eq (sh : Shape) (x : Ctx) (outs : List LaneOut) (s : State) :
    raiseFpe sh x outs s =
      (outs.foldl (fun u o => u.updThread x.b.key o.tl fun t => (o.ports t).raise o.res.fl) s).takeTrap x (fpeTrap sh x outs)
        (x.pc + BitVec.ofNat 64 sh.size) := rfl

theorem getD_everyLane (w : W32) {lane : Nat} (h : lane < 32) : (everyLane w).getD lane 0 = w := by
  rw [everyLane, List.getD_eq_getElem?_getD, List.getElem?_replicate_of_lt h, Option.getD_some]

/-- Lanes that raise nothing add nothing to a union of flags. -/
theorem foldl_or_filter {α : Type} {w : Nat} (g : α → BitVec w) (l : List α) (a : BitVec w) :
    (l.filter fun o => g o ≠ 0).foldl (fun f o => f ||| g o) a = l.foldl (fun f o => f ||| g o) a := by
  induction l generalizing a with
  | nil => rfl
  | cons o l ih =>
    rw [List.filter_cons, List.foldl_cons, ← ih]
    by_cases quiet : g o = 0
    · rw [if_neg (by simpa using quiet), quiet, show a ||| 0 = a from BitVec.or_zero]
    · rw [if_pos (by simpa using quiet), List.foldl_cons]

/-- The first auxiliary word of every lane holds all the exceptions that lanes trap on. -/
theorem fpeTrap_aux0 (sh : Shape) (x : Ctx) (outs : List LaneOut) {lane : Nat} (h : lane < 32) :
    (fpeTrap sh x outs).aux0.getD lane 0 = (outs.foldl (fun f o => f ||| trapped x o) 0).setWidth 32 := by
  rw [fpeTrap, getD_everyLane _ h, foldl_or_filter]

/-! ### The entry -/

/-- A lane's record of an entry that holds its results (R403). -/
def heldLane (sh : Shape) (o : LaneOut) : LaneEnt :=
  { member := true, resv := true, isDone := false, cancel := false, effd := false,
    opcap := BitVec.ofNat 3 (2 ^ sh.srcs.length - 1), ops := (o.inp.vals.take sh.srcs.length).map fun v => BitVec.ofNat 64 v,
    res := BitVec.ofNat 128 (o.res.val % 2 ^ 127 + if o.res.pd then 2 ^ 127 else 0), push := o.push.map (·.2) }

theorem entryFor_lane (sh : Shape) (pc : W64) (outs : List LaneOut) {lane : Nat} (h : lane < 32) :
    (entryFor sh pc outs).lanes.getD lane LaneEnt.none = ((outs.find? fun o => o.lane == lane).map (heldLane sh)).getD LaneEnt.none := by
  have at_ : lanes32[lane]? = some lane := by simp [lanes32, h]
  simp only [entryFor, List.getD_eq_getElem?_getD, List.getElem?_map, at_, Option.map_some, Option.getD_some]
  cases outs.find? fun o => o.lane == lane <;> rfl

/-- A record's low bits are the lane's value. -/
theorem heldLane_value (sh : Shape) (o : LaneOut) : (heldLane sh o).res.setWidth 64 = BitVec.ofNat 64 o.res.val := by
  apply BitVec.eq_of_toNat_eq
  simp only [heldLane, BitVec.toNat_setWidth, BitVec.toNat_ofNat]
  split <;> omega

/-- A record's top bit is the lane's predicate. -/
theorem heldLane_pred (sh : Shape) (o : LaneOut) : (heldLane sh o).res.getLsbD 127 = o.res.pd := by
  have low : o.res.val % 2 ^ 127 < 2 ^ 127 := Nat.mod_lt _ (by decide)
  rw [heldLane, BitVec.getLsbD_ofNat]
  cases o.res.pd
  · rw [if_neg Bool.false_ne_true, Nat.add_zero, Nat.testBit_lt_two_pow low]
    rfl
  · rw [if_pos rfl, Nat.add_comm, Nat.testBit_two_pow_add_eq, Nat.testBit_lt_two_pow low]
    rfl

end Sys2Proof.Machine

namespace Sys2Proof.Claims

open Sys2Proof.Machine

/-- Settles O13: the trap is FPE with the entry that holds every active lane's record. -/
theorem fpeHoldsTheResults : Obligations.FpeHoldsTheResults := by
  intro s x i sh f he goes due outs en
  refine ⟨fpeTrap sh x outs, ?_, rfl, rfl, rfl, rfl, rfl, rfl, fun lane h => fpeTrap_aux0 sh x outs h,
    entryFor sh x.pc outs, rfl, rfl, rfl, fun lane h => ?_⟩
  · rw [he, lanes_raiseFpe goes due, raiseFpe_eq]
  · rw [entryFor_lane sh x.pc outs h]
    cases outs.find? fun o => o.lane == lane with
    | none => rfl
    | some o => exact ⟨rfl, rfl, heldLane_value sh o, heldLane_pred sh o⟩

end Sys2Proof.Claims
end

section
/-!
SUPPORT and the settlement of O10: the floating-point operations and conversions compute what the statements say of them (08 R196 to R209).
-/

namespace Sys2Proof.Machine

open Sys2Proof.Claims

/-! ### The readings of the statements -/

theorem isRd_eq_toDown (r : Rnd) : isRd r = toDown r := by
  rcases r with m | o
  · cases m <;> rfl
  · rfl

theorem minF_eq_lesser (big : Bool) (a b : FVal) : minF big a b = lesser big a b := by
  unfold minF lesser
  cases a.isNan
  case true => rfl
  cases b.isNan
  case true => rfl
  have less : (decide (a.cmp b < 0) || (decide (a.cmp b = 0) && a.sign && !b.sign)) =
      decide (a.cmp b < 0 ∨ (a.cmp b = 0 ∧ a.sign = true ∧ b.sign = false)) := by simp [Bool.and_assoc]
  simp only [less]
  by_cases h : a.cmp b < 0 ∨ (a.cmp b = 0 ∧ a.sign = true ∧ b.sign = false)
  · cases big <;> simp [h]
  · cases big <;> simp [h]

theorem scaleF_of_le (n : Int) (low : -600 ≤ n) (high : n ≤ 600) (x : FVal) : scaleF n x = Claims.scaled n x := by
  have unclamped : max (-600) (min 600 n) = n := by omega
  cases x with
  | fin s m e => rw [scaleF, Claims.scaled, unclamped]
  | _ => rfl

theorem sintOf_eq_toInt (n x : Nat) : sintOf n x = (BitVec.ofNat n x).toInt := by
  rw [sintOf, BitVec.toInt_eq_toNat_cond, BitVec.toNat_ofNat]
  push_cast
  rfl

/-- One half of PFOP. -/
theorem pfHalf_eq_halfOf (op : POp) (g : FFmt) (r : Rnd) (m : SMod) (k : Nat) (v : List Nat) : pfHalf op g r m k v = halfOf op g r m k v := by
  cases op with
  | min | max => simp only [pfHalf, halfOf, minF_eq_lesser]; rfl
  | mul => rfl
  | add | fma => simp only [pfHalf, halfOf, isRd_eq_toDown]; rfl

/-! ### Instructions that only compute -/

/-- An instruction completes by computing whatever is its own meaning. -/
theorem computes_of_eq {i : Instr} {sh : Shape} {f g : Ctx → Nat → Thread → List Nat → LaneRes} (he : ∀ s, exec i s = s.compute sh g)
    (h : ∀ x lane t v, g x lane t v = f x lane t v) : Computes i sh f := by
  obtain rfl : g = f := by
    funext x lane t v
    exact h x lane t v
  exact computes_of_compute i sh g he

/-- The random bits are a whole source, so that the reads of an instruction are whole where its sources are. -/
theorem reads_whole {sh : Shape} (h : ∀ o ∈ sh.srcs, o.2.whole) : ∀ o ∈ sh.reads, o.2.whole := by
  intro o ho
  unfold Shape.reads sourcesOf at ho
  cases hr : sh.rnd with
  | none =>
    rw [hr] at ho
    exact h o ho
  | some r =>
    rw [hr] at ho
    simp only [List.mem_append, List.mem_replicate, List.mem_singleton] at ho
    rcases ho with (src | ⟨-, rfl⟩) | rfl
    · exact h o src
    · exact whole_w32
    · exact whole_w32

/-! ### Special values (R201, R208) -/

section
variable (rm : RM) (fl : FFlags) (s t : Bool) (p q : Nat) (e g : Int) (x : FVal)

/-- A lane's value and flags. -/
def LaneRes.Is (y : LaneRes) (z : Nat) (fl : FFlags) : Prop := y.val = z ∧ y.fl = fl

theorem fput_nan : (fput rm .nan fl).Is 0x7FC00000 fl := ⟨rfl, BitVec.zero_or⟩

theorem fput_inf : (fput rm (.inf s) fl).Is (if s then 0xFF800000 else 0x7F800000) fl := by
  cases s <;> exact ⟨rfl, BitVec.zero_or⟩

theorem fput_zero : (fput rm (.fin s 0 e) fl).Is (if s then 0x80000000 else 0) fl := by
  cases s <;> exact ⟨rfl, BitVec.zero_or⟩

/-- The sign of a quotient. -/
theorem ite_ne_swap {α : Type} (a b : α) : (if (s != t) = true then a else b) = if s = t then b else a := by
  cases s <;> cases t <;> rfl

theorem fput_quotient_inf : (fput rm (.inf (s != t)) fl).Is (if s = t then 0x7F800000 else 0xFF800000) fl := by
  rw [← ite_ne_swap]
  exact fput_inf rm fl (s != t)

theorem fput_quotient_zero : (fput rm (.fin (s != t) 0 0) fl).Is (if s = t then 0 else 0x80000000) fl := by
  rw [← ite_ne_swap]
  exact fput_zero rm fl (s != t) 0

theorem divF_nan_right : divF rm x .nan = fput rm .nan 0 := by cases x <;> rfl

/-- The quotient of finite values: zeros first, else the rounded quotient. -/
theorem divF_fin : divF rm (.fin s p e) (.fin t q g) =
    if q = 0 then (if p = 0 then fput rm .nan flInv else fput rm (.inf (s != t)) flDz)
    else if p = 0 then fput rm (.fin (s != t) 0 0) 0
    else { LaneRes.value (roundSigned fp32 rm (s != t) (magDiv p e q g tailBits)).1 with
           fl := (roundSigned fp32 rm (s != t) (magDiv p e q g tailBits)).2 } := rfl

theorem divF_by_zero (hp : p ≠ 0) : divF rm (.fin s p e) (.fin t 0 g) = fput rm (.inf (s != t)) flDz := by
  rw [divF_fin, if_pos rfl, if_neg hp]

theorem divF_zero (hq : q ≠ 0) : divF rm (.fin s 0 e) (.fin t q g) = fput rm (.fin (s != t) 0 0) 0 := by
  rw [divF_fin, if_neg hq, if_pos rfl]

theorem sqrtF_of_neg (hp : p ≠ 0) : sqrtF rm (.fin true p e) = fput rm .nan flInv := by
  simp only [sqrtF, hp, if_true, if_false]
  rfl

theorem scaleF_special (n : Int) : scaleF n .nan = .nan ∧ scaleF n (.inf s) = .inf s ∧ scaleF n (.fin s 0 e) = .fin s 0 e := ⟨rfl, rfl, rfl⟩

end

end Sys2Proof.Machine

namespace Sys2Proof.Claims

open Sys2Proof.Machine

/-- The special cases of FDIV, FSQRT, FRND and FSCALE, and each row as the meaning of its instruction. -/
theorem floatingPointRoundsOnce : FloatingPointRoundsOnce := by
  intro h k d a b c r m n0 a0 n1 a1 n2
  refine ⟨computes_of_eq (fun _ => rfl) (fun _ _ _ _ => rfl), computes_of_eq (fun _ => rfl) (fun _ _ _ _ => rfl),
    computes_of_eq (fun _ => rfl) (fun _ _ _ v => by rw [isRd_eq_toDown]; rfl),
    computes_of_eq (fun _ => rfl) (fun _ _ _ v => by rw [isRd_eq_toDown]; rfl),
    computes_of_eq (fun _ => rfl) (fun _ _ _ _ => rfl),
    computes_of_eq (fun _ => rfl) (fun _ _ _ v => by rw [isRd_eq_toDown]; rfl),
    computes_of_eq (fun _ => rfl) (fun _ _ _ _ => rfl), computes_of_eq (fun _ => rfl) (fun _ _ _ _ => rfl),
    computes_of_eq (fun _ => rfl) (fun _ _ _ v => by rw [sintOf_eq_toInt]; rfl),
    silent_of_compute _ _ _ _ (fun _ => rfl) (reads_whole (List.forall_mem_singleton.2 whole_w32)) (fun _ _ _ _ => rfl) (fun _ _ _ _ _ => rfl), ?_⟩
  intro rm s t p q e g hp hq is inf nil
  refine ⟨fun x => ⟨fput_nan rm 0, divF_nan_right rm x ▸ fput_nan rm 0⟩, divF_by_zero rm s t p e g hp ▸ fput_quotient_inf rm flDz s t,
    fput_nan rm flInv, fput_nan rm flInv, fput_quotient_inf rm 0 s t, fput_quotient_inf rm 0 s t, fput_quotient_zero rm 0 s t,
    fput_quotient_zero rm 0 s t, divF_zero rm s t q e g hq ▸ fput_quotient_zero rm 0 s t, fput_nan rm 0, fput_inf rm 0 false,
    fput_nan rm flInv, fput_zero rm 0 false 0, fput_zero rm 0 true 0, sqrtF_of_neg rm p e hp ▸ fput_nan rm flInv, rfl, rfl, rfl, rfl, rfl,
    scaleF_of_le, fun n => scaleF_special s e n⟩

theorem conversionsAndHalves : ConversionsAndHalves := by
  intro h d a b dfmt sfmt sel u bf r op m
  refine ⟨computes_of_eq (fun _ => rfl) (fun _ _ _ _ => rfl), computes_of_eq (fun _ => rfl) (fun _ _ _ _ => rfl),
    computes_of_eq (fun _ => rfl) (fun _ _ _ v => ?_), ?_⟩
  · cases u <;> rfl
  · cases op <;> exact computes_of_eq (fun _ => rfl) (fun _ _ _ v => by simp only [pfHalf_eq_halfOf])

/-- Settles O10: every row is an instruction that only computes, by the meaning that the statement gives it. -/
theorem floatingPointOperations : Obligations.FloatingPointOperations := ⟨floatingPointRoundsOnce, conversionsAndHalves⟩

end Sys2Proof.Claims
end

section
/-!
SUPPORT. What an instruction's lanes have computed, and how an instruction whose lanes write their own results completes (R101, R111).
-/

namespace Sys2Proof.Machine

/-- A lane that has run holds what its function gave it. -/
theorem laneStep_res {sh : Shape} {f : LaneFn} {x : Ctx} {lane : Nat} {t : Thread} {s u : State} {o : LaneOut}
    (h : laneStep sh f x lane t s = .ok (o, u)) : ∃ t1 s1 v, f x s1 lane t1 v = .ok (o.res, u) := by
  unfold laneStep at h
  split at h
  · split at h
    · cases h
    · split at h <;> cases h
  · next a s1 _ =>
    simp only at h
    split at h
    · cases h
    · next p s2 _ =>
      split at h
      · cases h
      · next r s3 run =>
        cases h
        exact ⟨_, s2, a.vals, run⟩

/-- Every lane that has run holds what its function gives, whatever it holds of every result of the function. -/
theorem runLanes_all {sh : Shape} {f : LaneFn} {x : Ctx} {s : State} {P : LaneRes → Prop}
    (h : ∀ st lane t v r u, f x st lane t v = .ok (r, u) → P r) : ∀ o ∈ (runLanes sh f x s).outs, P o.res := by
  have key : ∀ (l : List (Nat × Thread)) (r : LaneRun), (∀ o ∈ r.outs, P o.res) → ∀ o ∈ (l.foldl (runNext sh f x) r).outs, P o.res := by
    intro l
    induction l with
    | nil => exact fun r hr => hr
    | cons p l ih =>
      intro r hr
      refine ih _ ?_
      unfold runNext
      split
      · next o u ran =>
        intro q hq
        rcases List.mem_append.1 hq with old | new
        · exact hr q old
        · obtain rfl := List.mem_singleton.1 new
          obtain ⟨t, s1, v, res⟩ := laneStep_res ran
          exact h _ _ _ _ _ _ res
      · exact hr
  exact key _ _ (by simp)

/-- An instruction completes by what it does with what its lanes computed. -/
theorem completesAs_of_lanesWith {i : Instr} {sh : Shape} {f : LaneFn} {fin : Ctx → List LaneOut → State → State}
    (he : ∀ s, exec i s = s.lanesWith sh f fin) : CompletesAs i sh f fin :=
  fun s x goes => (he s).trans (lanesWith_next s x sh f fin goes)

/-- An instruction whose lanes write their own results completes where no lane traps on an exception. -/
theorem completes_of_lanes {i : Instr} {sh : Shape} {f : LaneFn} (he : ∀ s, exec i s = s.lanes sh f) : Completes i sh f := by
  intro s x goes quiet
  rw [he, State.lanes, lanesWith_next s x sh f _ goes, if_neg (by simp [quiet])]

/-- It completes in every case where no lane raises an exception. -/
theorem completesAs_of_lanes {i : Instr} {sh : Shape} {f : LaneFn} (he : ∀ s, exec i s = s.lanes sh f)
    (hf : ∀ x st lane t v r u, f x st lane t v = .ok (r, u) → r.fl = 0) : CompletesAs i sh f (commitLanes sh) :=
  fun s x goes => completes_of_lanes he s x goes (fpeDue_of_silent x _ (runLanes_all (P := fun r => r.fl = 0) (hf x)))

end Sys2Proof.Machine
end

section
/-!
SUPPORT. What the merges of lines and the notes of translations leave alone (05 R140, R145; 01 R21).
-/

namespace Sys2Proof.Machine

variable (s : State)

@[simp] theorem mergeLine_pend (line : Nat) : (s.mergeLine line).pend = s.pend := by rw [State.mergeLine, putMem_pend]

@[simp] theorem evictOne_pend (die : Nat) : (s.evictOne die).pend = s.pend := by
  unfold State.evictOne
  split
  · rfl
  · rfl
  · exact mergeLine_pend s _
  · rfl

@[simp] theorem l2Room_pend (die n : Nat) : (s.l2Room die n).pend = s.pend := by
  unfold State.l2Room
  dsimp only
  split
  · split
    · rw [evictOne_pend, evictOne_pend]
    · rw [evictOne_pend]
  · rfl

@[simp] theorem setDirty_pend (line : Nat) (core : Option Nat) : (s.setDirty line core).pend = s.pend := by
  unfold State.setDirty
  split
  · rfl
  · exact l2Room_pend _ _ _

@[simp] theorem homeMerge_pend (line : Nat) : (s.homeMerge line).pend = s.pend := by
  unfold State.homeMerge
  split
  · rw [setDirty_pend, mergeLine_pend]
  · rfl

/-- Steps none of which touches a field leave it. -/
theorem foldl_field {α β : Type} (field : State → β) {step : State → α → State} (h : ∀ t a, field (step t a) = field t) (l : List α) :
    field (l.foldl step s) = field s := by
  induction l generalizing s with
  | nil => rfl
  | cons a l ih => exact (ih _).trans (h s a)

@[simp] theorem mergeFrame_pend (f size : Nat) : (s.mergeFrame f size).pend = s.pend :=
  foldl_field s State.pend (fun t (p : Partial) => homeMerge_pend t p.line) _

@[simp] theorem makeDurable_pend (f size : Nat) : (s.makeDurable f size).pend = s.pend := mergeFrame_pend s f size

@[simp] theorem notePage_pend (base size part va : Nat) (under durable : Bool) :
    (s.notePage base size part va under durable).pend = s.pend := by
  unfold State.notePage
  split
  · rfl
  · split
    · next v _ =>
      change (if durable && !v.durable then _ else s : State).pend = _
      split
      · exact foldl_field s State.pend (fun t f => makeDurable_pend t f v.size) _
      · rfl
    · change (if durable then _ else s : State).pend = _
      split
      · exact makeDurable_pend s base size
      · rfl

@[simp] theorem noteLeaf_pend (p : Nat) (w : PWalk) (dies : List Nat) : (s.noteLeaf p w dies).pend = s.pend := by
  have noted : ∀ (b : Bool) (f : Partition → Partition), (if b then s else s.updPart p f).pend = s.pend := by
    intro b f
    cases b <;> rfl
  unfold State.noteLeaf
  split
  · dsimp only
    split
    · rw [notePage_pend, noted]
    · exact noted _ _
  · rfl

end Sys2Proof.Machine
end

section
/-!
SUPPORT and the settlement of O33: accumulators rounded, reduced, loaded, stored and added to memory (04 R107, R109; 13 R300 to R311; 23 R458).
-/

namespace Sys2Proof.Machine

open Sys2Proof.Claims

/-! ### ACCRND (R109, R300) -/

theorem operand_of_unpoisoned {c : Acc} (h : c.poison = false) : c.operand = some (accOperand c) := by
  rw [Acc.operand, if_neg (by simp [h])]
  unfold accOperand
  simp only [apply_ite some]
  rfl

/-- Rounding an accumulator without POISON is one rounding of its operand. -/
theorem accRound_eq {c : Acc} (h : c.poison = false) (f : Fmt) (rm : RM) (u : Bool) :
    c.round f rm u = ((f.round rm (accOperand c).1 u).1, (accOperand c).2 ||| (f.round rm (accOperand c).1 u).2) := by
  rw [Acc.round, operand_of_unpoisoned h]

theorem accrndLane_of_poison {k : Opnd} {dfmt : Fmt} {u : Bool} {r : Rnd} {x : Ctx} {s : State} {lane : Nat} {th : Thread} {v : List Nat}
    (h : (th.acc (kIx k)).poison = true) : accrndLane k dfmt u r x s lane th v =
      .error (.trap { rank := rankExec, code := cPoison, aux0 := BitVec.ofNat 32 (kIx k), aux1 := 0, aux2 := 0, aux3 := 0 }) :=
  if_pos h

theorem accrndLane_of_unpoisoned {k : Opnd} {dfmt : Fmt} {u : Bool} {r : Rnd} {x : Ctx} {s : State} {lane : Nat} {th : Thread}
    {v : List Nat} (h : (th.acc (kIx k)).poison = false) : accrndLane k dfmt u r x s lane th v =
      .ok ({ LaneRes.value (if dfmt.fp.isNone && !u then
          (BitVec.ofInt 32 (sintOf dfmt.bits (dfmt.round (rmAt r v) (accOperand (th.acc (kIx k))).1 u).1)).toNat
          else (dfmt.round (rmAt r v) (accOperand (th.acc (kIx k))).1 u).1) with
        fl := (accOperand (th.acc (kIx k))).2 ||| (dfmt.round (rmAt r v) (accOperand (th.acc (kIx k))).1 u).2 }, s) := by
  rw [accrndLane, if_neg (by simp [h]), accRound_eq h]

/-! ### ACCRED (R302) -/

theorem orFlags_foldl (l : List Acc) (k : Acc) :
    (l.foldl Acc.orFlags k).nan = (k.nan || l.any (·.nan)) ∧ (l.foldl Acc.orFlags k).pinf = (k.pinf || l.any (·.pinf)) ∧
    (l.foldl Acc.orFlags k).ninf = (k.ninf || l.any (·.ninf)) ∧ (l.foldl Acc.orFlags k).ovf = (k.ovf || l.any (·.ovf)) ∧
    (l.foldl Acc.orFlags k).poison = (k.poison || l.any (·.poison)) := by
  induction l generalizing k with
  | nil => simp
  | cons a l ih =>
    obtain ⟨nan, pinf, ninf, ovf, poison⟩ := ih (k.orFlags a)
    rw [List.foldl_cons, nan, pinf, ninf, ovf, poison]
    simp [Acc.orFlags, Bool.or_assoc]

/-- The sum of a segment's accumulators is exact, and its flags are those of any of them (R302). -/
theorem sumOf_spec (l : List Acc) : (Acc.sumOf l).norm = true ∧ InAccRange (Acc.sumOf l).val ∧
    ((Acc.sumOf l).val - (l.map (·.val)).sum) % 2 ^ 640 = 0 ∧
    ((Acc.sumOf l).ovf = true ↔ (∃ c ∈ l, c.ovf = true) ∨ ¬InAccRange (l.map (·.val)).sum) ∧
    ((Acc.sumOf l).nan = true ↔ ∃ c ∈ l, c.nan = true) ∧ ((Acc.sumOf l).poison = true ↔ ∃ c ∈ l, c.poison = true) ∧
    (Acc.sumOf l).count = (l.map (·.count)).foldl (· + ·) 0 := by
  obtain ⟨nan, -, -, ovf, poison⟩ := orFlags_foldl l Acc.zero
  rw [Acc.sumOf, Acc.hold_norm, Acc.hold_val, Acc.hold_ovf, Acc.hold_nan, Acc.hold_poison, Acc.hold_count, nan, ovf, poison]
  exact ⟨rfl, accWrap_inRange _, accWrap_sub_emod _, by simp [Acc.zero, accWrap_eq_iff], by simp [Acc.zero], by simp [Acc.zero], rfl⟩

/-- The order of the lanes does not matter. -/
theorem sumOf_perm {l l' : List Acc} (h : l.Perm l') : Acc.sumOf l = Acc.sumOf l' := by
  have flags : l.foldl Acc.orFlags Acc.zero = l'.foldl Acc.orFlags Acc.zero :=
    h.foldl_eq' (fun a _ b _ k => by simp [Acc.orFlags, Bool.or_right_comm]) _
  have count : (l.map (·.count)).foldl (· + ·) 0 = (l'.map (·.count)).foldl (· + ·) 0 :=
    (h.map _).foldl_eq' (fun a _ b _ k => by rw [BitVec.add_assoc, BitVec.add_comm a, BitVec.add_assoc]) _
  rw [Acc.sumOf, Acc.sumOf, flags, count, (h.map (·.val)).sum_eq]

/-! ### Lanes that go to memory (R308 to R311) -/

theorem ok_of_map {α β : Type} {e : Except Stop α} {g : α → β} {b : β} (h : e.map g = .ok b) : ∃ a, e = .ok a ∧ g a = b := by
  cases e with
  | error _ => cases h
  | ok a => exact ⟨a, rfl, by injection h⟩

theorem ok_of_bind {α β : Type} {e : Except Stop α} {g : α → Except Stop β} {b : β} (h : e.bind g = .ok b) :
    ∃ a, e = .ok a ∧ g a = .ok b := by
  cases e with
  | error _ => cases h
  | ok a => exact ⟨a, rfl, h⟩

/-- A lane whose place is checked goes there, its page noted. -/
theorem locate_ok {s : State} {x : Ctx} {opc : Nat} {m : MemF} {vals : List Nat} {nd : Need} {a : At}
    (h : checkPlace s x (placeOf x m vals) (aux2Of opc (spaceOf m) (roleOf m vals) nd.wr) nd = .ok a) :
    locate s x opc m vals nd =
      .ok (placeOf x m vals, aux2Of opc (spaceOf m) (roleOf m vals) nd.wr, a, s.noteLeaf x.b.key.part a.w) := by
  rw [locate, h]
  rfl

section
variable {m : MemF} {k : Opnd} {t : AaccT} {fmt : Fmt} {neg wbs : Bool} {x : Ctx} {s u : State} {lane : Nat} {th : Thread} {v : List Nat}
  {r : LaneRes}

theorem accldLane_fl (h : accldLane wbs k m x s lane th v = .ok (r, u)) : r.fl = 0 := by
  obtain ⟨_, -, read⟩ := ok_of_bind h
  obtain ⟨_, -, res⟩ := ok_of_map read
  cases res
  rfl

theorem accstLane_fl (h : accstLane m k x s lane th v = .ok (r, u)) : r.fl = 0 := by
  obtain ⟨_, -, res⟩ := ok_of_map h
  cases res
  rfl

theorem aaccLane_fl (h : aaccLane m t x s lane th v = .ok (r, u)) : r.fl = 0 := by
  obtain ⟨_, -, res⟩ := ok_of_map h
  cases res
  rfl

theorem amacLane_fl (h : amacLane m fmt neg x s lane th v = .ok (r, u)) : r.fl = 0 := by
  obtain ⟨_, -, res⟩ := ok_of_map h
  cases res
  rfl

end

theorem accLine_eq_toLine (c : Acc) : accLine c = c.toLine := by rw [accLine, Acc.toLine, Acc.bits, Acc.normalized]

/-- A lane goes on, issues nothing but one access at the checked address, and keeps its thread. -/
def IssuesOne (f : LaneFn) (s : State) (x : Ctx) (lane : Nat) (th : Thread) (vals : List Nat) (at_ : At) (kind : PKind)
    (bytes : List Byte) : Prop :=
  ∃ g v p, f x s lane th vals = .ok (g, v) ∧ (∀ w, g.th w = w) ∧
    v = { s.noteLeaf x.b.key.part at_.w with pend := v.pend, nextId := v.nextId } ∧ v.pend = s.pend ++ [p] ∧
    p.ag = x.agent th.tl ∧ p.core = x.core ∧ p.loc = at_.loc ∧ p.kind = kind ∧ p.bytes = bytes ∧ p.sent = none

/-- Issuing an access appends it to those outstanding. -/
theorem issuesOne_of_issueAccess {f : LaneFn} {s : State} {x : Ctx} {lane : Nat} {th : Thread} {vals : List Nat} {at_ : At} {kind : PKind}
    {bytes : List Byte} (thru home : Bool)
    (h : f x s lane th vals = .ok (LaneRes.value 0,
      (s.noteLeaf x.b.key.part at_.w).issueAccess (x.agent th.tl) x.core at_.loc at_.va bytes kind thru home)) :
    IssuesOne f s x lane th vals at_ kind bytes :=
  ⟨_, _, _, h, fun _ => rfl, rfl, by rw [State.issueAccess, bumpId_pend, noteLeaf_pend], rfl, rfl, rfl, rfl, rfl, rfl⟩

section
variable {m : MemF} {s : State} {x : Ctx} {lane : Nat} {th : Thread} {vals : List Nat} {at_ : At}

theorem accstLane_issues {k : Opnd} (h : checkPlace s x (placeOf x m vals) (aux2Of 0x95 (spaceOf m) (roleOf m vals) true)
      { n := 128, rd := false, wr := true } = .ok at_) :
    IssuesOne (accstLane m k) s x lane th vals at_
      (if m.order = .rel ∨ m.order = .ar ∨ m.scope = .recov then .release m.scope else .store) (accLine (th.acc (kIx k))) := by
  have same : (releases m.order = true ∨ m.scope = .recov) = (m.order = .rel ∨ m.order = .ar ∨ m.scope = .recov) := by
    cases m.order <;> simp [releases]
  refine issuesOne_of_issueAccess (curOf m) true ?_
  rw [accstLane, locate_ok (nd := { n := 128, rd := false, wr := true }) h, accLine_eq_toLine]
  simp only [Except.map, same]

theorem aaccLane_issues {t : AaccT} (h : checkPlace s x (placeOf x m vals) (aux2Of 0x96 (spaceOf m) (roleOf m vals) true)
      { n := 128, rd := true, wr := true, add := true } = .ok at_) :
    IssuesOne (aaccLane m t) s x lane th vals at_ (.add (match t with
      | .elem f _ => Acc.zero.add (element f false false (vals.getD 1 0) 0) true
      | .acc ka => th.acc (kIx ka)) (decide (m.scope ≠ .dev))) (zeros 128) := by
  refine issuesOne_of_issueAccess false false ?_
  unfold aaccLane
  dsimp only
  rw [locate_ok (nd := { n := 128, rd := true, wr := true, add := true }) h]
  cases t <;> rfl

theorem amacLane_issues {fmt : Fmt} {neg : Bool} (h : checkPlace s x (placeOf x m vals) (aux2Of 0x97 (spaceOf m) (roleOf m vals) true)
      { n := 128, rd := true, wr := true, add := true } = .ok at_) :
    IssuesOne (amacLane m fmt neg) s x lane th vals at_
      (.add (Acc.zero.add (product fmt fmt false neg (vals.getD 1 0) (vals.getD 2 0) 0) true) (decide (m.scope ≠ .dev))) (zeros 128) := by
  refine issuesOne_of_issueAccess false false ?_
  rw [amacLane, locate_ok (nd := { n := 128, rd := true, wr := true, add := true }) h]
  rfl

theorem placeOf_global (h : m.tgt = .global) : placeOf x m vals = .glob (BitVec.ofInt 64 ((vals.headD 0 : Nat) + m.offs.toInt)).toNat := by
  simp only [placeOf, h]

theorem placeOf_own (h : m.tgt = .own) : placeOf x m vals = .scr x.b.key ((vals.headD 0 : Nat) + m.offs.toInt) := by
  simp only [placeOf, h]

end

/-- An add to a peer goes out as the term's record, padded to 32 bytes (R312, R458). -/
theorem padded_record (t : Acc) : padTo 32 t.record =
    t.trim ++ zeros 2 ++ natLE 4 t.count.toNat ++ zeros ((32 - (t.trim.length + 6) % 32) % 32) := by
  have length : t.record.length = t.trim.length + 6 := by simp [Acc.record, zeros, natLE]
  rw [padTo, length, Acc.record]

theorem perform_add_peer {s : State} {p : Pend} {term : Acc} {sys : Bool} {peer a : Nat} (hk : p.kind = .add term sys)
    (hl : p.loc = .peer peer a) :
    s.perform p = (s.request peer a (.accAtomic (padTo 32 term.record)) (some (.pend p.n))).markSent p.n := by
  simp only [State.perform, hk, hl]

theorem exec_accessPerformed_of_mayPerform {s : State} {p : Pend} (hp : s.pend.find? (fun q => q.n == p.n) = some p)
    (may : s.mayPerform p = true) : exec (.accessPerformed p.n) s = .next (s.perform p) := by
  change execAccessPerformed p.n s = _
  simp only [execAccessPerformed, hp, may, if_true]

/-! ### The eviction of a partial (R306) -/

/-- An L2 with the room that is asked for gives nothing up. -/
theorem l2Room_of_room {s : State} {die n : Nat} (h : 2 * s.dirty.length + 2 * s.parts.length + s.hostLines.length + n ≤ l2Units) :
    s.l2Room die n = s :=
  if_neg (by simp [h])

/-- Where there is no partial, what leaves an L2 merges none. -/
theorem evictOne_of_no_parts {s : State} (h : s.parts = []) (die : Nat) : (s.evictOne die).mem = s.mem ∧ (s.evictOne die).parts = [] := by
  unfold State.evictOne
  split
  · exact ⟨rfl, h⟩
  · exact ⟨rfl, h⟩
  · next found => simp [h] at found
  · exact ⟨rfl, h⟩

theorem l2Room_of_no_parts {s : State} (h : s.parts = []) (die n : Nat) : (s.l2Room die n).mem = s.mem ∧ (s.l2Room die n).parts = [] := by
  obtain ⟨mem, parts⟩ := evictOne_of_no_parts h die
  obtain ⟨mem2, parts2⟩ := evictOne_of_no_parts parts die
  unfold State.l2Room
  dsimp only
  split
  · split
    · exact ⟨mem2.trans mem, parts2⟩
    · exact ⟨mem, parts⟩
  · exact ⟨rfl, h⟩

/-- A line becomes modified without a merge where there is no partial, or room for the line. -/
theorem setDirty_mem_parts {s : State} (line : Nat) (core : Option Nat)
    (h : s.parts = [] ∨ 2 * s.dirty.length + 2 * s.parts.length + s.hostLines.length + 2 ≤ l2Units) :
    (s.setDirty line core).mem = s.mem ∧ (s.setDirty line core).parts = s.parts := by
  unfold State.setDirty
  split
  · exact ⟨rfl, rfl⟩
  · rcases h with none | room
    · obtain ⟨mem, parts⟩ := l2Room_of_no_parts (s := { s with dirty := s.dirty.filter fun e => e.1 != line }) none (State.dieFor core line) 2
      exact ⟨mem, parts.trans none.symm⟩
    · have fewer := List.length_filter_le (fun e : Nat × Nat => e.1 != line) s.dirty
      dsimp only
      rw [l2Room_of_room (by dsimp only; omega)]
      exact ⟨rfl, rfl⟩

theorem exec_aLineEvict_of_partial {s : State} {line die : Nat} (h : ∃ p ∈ s.parts, p.line = line ∧ p.die = die) :
    exec (.aLineEvict line die) s = .next ((s.mergeLine line).setDirty line none) := by
  obtain ⟨p, hp, hline, hdie⟩ := h
  have held : (s.parts.any fun p => p.line == line && p.die == die) = true := List.any_eq_true.2 ⟨p, hp, by simp [hline, hdie]⟩
  have here : (s.parts.any fun p => p.line == line) = true := List.any_eq_true.2 ⟨p, hp, by simp [hline]⟩
  change execALineEvict line die s = _
  rw [execALineEvict, if_pos held, State.homeMerge, if_pos here]

section
variable (s : State) (line : Nat)

theorem mergeLine_parts : (s.mergeLine line).parts = s.parts.filter fun p => p.line != line := by rw [State.mergeLine]

theorem mergeLine_dirty : (s.mergeLine line).dirty = s.dirty := by rw [State.mergeLine, putMem_dirty]

theorem mergeLine_hostLines : (s.mergeLine line).hostLines = s.hostLines := by rw [State.mergeLine, putMem_hostLines]

theorem mergeLine_mem : (s.mergeLine line).mem = s.mem.write (128 * line) (((s.parts.filter fun p => p.line == line).foldl
    (fun c p => c.plus p.acc true) (Acc.ofLine (s.storedRun (128 * line) 128))).toLine) := by
  rw [State.mergeLine, State.putMem]

end

/-- A merge takes a partial away, and the last one where all are of its line. -/
theorem mergeLine_room {s : State} {line : Nat} (some_ : ∃ p ∈ s.parts, p.line = line)
    (h : (∀ p ∈ s.parts, p.line = line) ∨ 2 * (s.dirty.length + s.parts.length) + s.hostLines.length ≤ l2Units) :
    (s.mergeLine line).parts = [] ∨
      2 * (s.mergeLine line).dirty.length + 2 * (s.mergeLine line).parts.length + (s.mergeLine line).hostLines.length + 2 ≤ l2Units := by
  rcases h with all | room
  · refine .inl ?_
    rw [mergeLine_parts, List.filter_eq_nil_iff]
    intro p hp
    simp [all p hp]
  · obtain ⟨p, hp, hline⟩ := some_
    have fewer : (s.parts.filter fun p => p.line != line).length < s.parts.length :=
      List.length_filter_lt_length_iff_exists.2 ⟨p, hp, by simp [hline]⟩
    refine .inr ?_
    rw [mergeLine_parts, mergeLine_dirty, mergeLine_hostLines]
    omega

end Sys2Proof.Machine

namespace Sys2Proof.Claims

open Sys2Proof.Machine

/-- Settles O33: each instruction's lanes write their own results, a checked lane issues one access, and an eviction is one merge with room for its
line. -/
theorem accumulatorsMeetMemory : Obligations.AccumulatorsMeetMemory := by
  intro h d k ks a b dfmt fmt u neg r wid m t
  have quiet : ∀ {i : Instr} {sh : Shape} {f : LaneFn}, (∀ s, exec i s = s.lanes sh f) →
      (∀ {x s lane th v g w}, f x s lane th v = .ok (g, w) → g.fl = 0) → CompletesAs i sh f (commitLanes sh) :=
    fun he hf => completesAs_of_lanes he fun _ _ _ _ _ _ _ => hf
  refine ⟨completes_of_lanes fun _ => by cases r <;> rfl,
    fun x s lane th v => ⟨fun bad => ⟨_, accrndLane_of_poison bad, rfl, rfl⟩, fun good => ?_⟩,
    ⟨Acc.sumOf, completesAs_of_lanesWith fun _ => rfl, fun l => ?_, fun _ _ => sumOf_perm⟩,
    ⟨quiet (fun _ => rfl) accldLane_fl, quiet (fun _ => rfl) accstLane_fl, quiet (fun _ => by cases t <;> rfl) aaccLane_fl,
      quiet (fun _ => rfl) amacLane_fl⟩,
    fun s x lane th vals at_ => ⟨placeOf_global, placeOf_own, accstLane_issues, aaccLane_issues, amacLane_issues⟩, ?_, ?_⟩
  · refine ⟨_, accrndLane_of_unpoisoned good, fun _ => rfl, rfl, ?_⟩
    rw [sintOf_eq_toInt]
    rfl
  · obtain ⟨norm, ⟨low, high⟩, rest⟩ := sumOf_spec l
    exact ⟨norm, low, high, rest⟩
  · intro s t p term sys peer a hp may hk hl ran
    rw [exec_accessPerformed_of_mayPerform hp may, perform_add_peer hk hl, padded_record] at ran
    injection ran with ran
    exact ran.symm
  · intro s line die found room
    have held : ∃ p ∈ s.parts, p.line = line := found.imp fun p hp => ⟨hp.1, hp.2.1⟩
    obtain ⟨mem, parts⟩ := setDirty_mem_parts line none (mergeLine_room held room)
    refine ⟨_, exec_aLineEvict_of_partial found, fun q hq => ?_, mem.trans (mergeLine_mem s line)⟩
    rw [parts, mergeLine_parts] at hq
    simpa using (List.mem_filter.1 hq).2

end Sys2Proof.Claims
end

section
/-!
SUPPORT. Rounding a magnitude to a multiple of a power of two (04 R94, R96): which of the two integers around its quotient `Mag.roundAt` picks.
-/

namespace Sys2Proof

/-- `n` is the integer that the mode makes of a real magnitude `q` of sign `s` (R94, R96). -/
def RoundsInt (rm : RM) (s : Bool) (q : ℝ) (n : Nat) : Prop :=
  |q - n| < 1 ∧
  match rm with
  | .mode .rz => (n : ℝ) ≤ q
  | .mode .ru => if s then (n : ℝ) ≤ q else q ≤ n
  | .mode .rd => if s then q ≤ n else (n : ℝ) ≤ q
  | .mode .rn => |q - n| ≤ 1 / 2 ∧ (|q - n| = 1 / 2 → n % 2 = 0)
  | .mode .ra => |q - n| ≤ 1 / 2 ∧ (|q - n| = 1 / 2 → q ≤ n)
  | .sr _ => True

/-- Of a rational magnitude it is what R208 asks for. -/
theorem RoundsInt.integralOf {rm : RM} {s : Bool} {q : ℚ} {n : Nat} (h : RoundsInt rm s (q : ℝ) n) : Claims.IntegralOf rm s q n := by
  obtain ⟨near, mode⟩ := h
  refine ⟨by exact_mod_cast near, ?_⟩
  rcases rm with (_ | _ | _ | _ | _) | _
  case sr => trivial
  case mode.rz => exact_mod_cast mode
  case mode.ru | mode.rd => cases s <;> exact_mod_cast mode
  case mode.rn | mode.ra =>
    obtain ⟨half, tie⟩ := mode
    have cast : ((|q - n| : ℚ) : ℝ) = |(q : ℝ) - n| := by push_cast; rfl
    refine ⟨by rw [← Rat.cast_le (K := ℝ), cast]; simpa using half, fun e => ?_⟩
    have := tie (by rw [← cast, e]; norm_num)
    exact_mod_cast this

/-- Whether going up from `n`, with the part `r` of a unit left, is what the mode calls for. -/
def UpRight (rm : RM) (s : Bool) (n : Nat) (r : ℝ) (up : Bool) : Prop :=
  match rm with
  | .mode .rz => up = false
  | .mode .ru => up = !s
  | .mode .rd => up = s
  | .mode .rn => (up = true → 1 / 2 ≤ r ∧ (r = 1 / 2 → n % 2 = 1)) ∧ (up = false → r ≤ 1 / 2 ∧ (r = 1 / 2 → n % 2 = 0))
  | .mode .ra => (up = true → 1 / 2 ≤ r) ∧ (up = false → r < 1 / 2)
  | .sr _ => True

/-- Nothing is left: the integer itself. -/
theorem roundsInt_self (rm : RM) (s : Bool) (n : Nat) : RoundsInt rm s n n := by
  refine ⟨by simp, ?_⟩
  rcases rm with (_ | _ | _ | _ | _) | _ <;> simp

theorem roundsInt_down {rm : RM} {s : Bool} {n : Nat} {r : ℝ} (pos : 0 < r) (lt : r < 1) (h : UpRight rm s n r false) :
    RoundsInt rm s (n + r) n := by
  have left : |(n : ℝ) + r - n| = r := by rw [add_sub_cancel_left, abs_of_pos pos]
  refine ⟨by rwa [left], ?_⟩
  rcases rm with (_ | _ | _ | _ | _) | _
  case sr => trivial
  case mode.rz => simp [pos.le]
  case mode.ru => cases s <;> simp_all [UpRight, pos.le]
  case mode.rd => cases s <;> simp_all [UpRight, pos.le]
  case mode.rn =>
    obtain ⟨half, tie⟩ := h.2 rfl
    exact ⟨by rw [left]; exact half, by rw [left]; exact tie⟩
  case mode.ra =>
    have half : r < 1 / 2 := h.2 rfl
    exact ⟨by rw [left]; exact half.le, fun e => absurd (left ▸ e) half.ne⟩

theorem roundsInt_up {rm : RM} {s : Bool} {n : Nat} {r : ℝ} (pos : 0 < r) (lt : r < 1) (h : UpRight rm s n r true) :
    RoundsInt rm s (n + r) (n + 1) := by
  have left : |(n : ℝ) + r - ((n + 1 : Nat) : ℝ)| = 1 - r := by
    rw [Nat.cast_add_one, add_sub_add_left_eq_sub, abs_sub_comm, abs_of_pos (sub_pos.2 lt)]
  have above : (n : ℝ) + r ≤ ((n + 1 : Nat) : ℝ) := by push_cast; linarith
  refine ⟨by rw [left]; linarith, ?_⟩
  rcases rm with (_ | _ | _ | _ | _) | _
  case sr => trivial
  case mode.rz => simp [UpRight] at h
  case mode.ru => cases s <;> simp_all [UpRight]
  case mode.rd => cases s <;> simp_all [UpRight]
  case mode.rn =>
    obtain ⟨half, tie⟩ := h.1 rfl
    refine ⟨by rw [left]; linarith, fun e => ?_⟩
    have := tie (by rw [left] at e; linarith)
    omega
  case mode.ra =>
    have half : 1 / 2 ≤ r := h.1 rfl
    exact ⟨by rw [left]; linarith, fun _ => above⟩

/-! ### Magnitudes -/

/-- The real numbers that a magnitude stands for. -/
def Mag.Holds (g : Mag) (x : ℝ) : Prop :=
  if g.sticky then (g.m : ℝ) * 2 ^ g.e < x ∧ x < (g.m + 1) * 2 ^ g.e else x = g.m * 2 ^ g.e

theorem Mag.holds_exact (m : Nat) (e : Int) : (Mag.mk m e false).Holds (m * 2 ^ e) := by simp [Mag.Holds]

/-- A magnitude with more bits stands for the same numbers; a sticky one has them already. -/
theorem Mag.below_holds {g : Mag} {x : ℝ} {q : Int} {k : Nat} (h : g.Holds x) (hs : g.sticky = true → g.e ≤ q - k) :
    (g.below q k).Holds x ∧ (g.below q k).e ≤ q - k := by
  unfold Mag.below
  split
  case isTrue low => exact ⟨h, low⟩
  case isFalse high =>
    have plain : g.sticky = false := by
      cases hg : g.sticky
      · rfl
      · exact absurd (hs hg) high
    refine ⟨?_, le_refl _⟩
    have lift : (2 : ℝ) ^ g.e = 2 ^ (g.e - (q - k)).toNat * 2 ^ (q - k) := by
      rw [← zpow_natCast, ← zpow_add₀ two_ne_zero]
      congr 1
      omega
    simp only [Mag.Holds, plain, Bool.false_eq_true, if_false] at h ⊢
    rw [h, lift]
    push_cast
    ring

/-- Whether `Mag.roundAt` goes up from a quotient `n` with remainder `rem` of 2^sh. -/
def goesUp (rm : RM) (neg sticky : Bool) (n rem sh : Nat) : Bool :=
  match rm with
  | .mode .rn => decide (rem > 2 ^ (sh - 1)) || (decide (rem = 2 ^ (sh - 1)) && (sticky || n % 2 == 1))
  | .mode .ra => decide (rem ≥ 2 ^ (sh - 1))
  | .mode .rz => false
  | .mode .ru => !neg && (decide (rem ≠ 0) || sticky)
  | .mode .rd => neg && (decide (rem ≠ 0) || sticky)
  | .sr r => decide (rem * 65536 / 2 ^ sh + r % 65536 ≥ 65536)

/-- What `Mag.roundAt` makes of a magnitude that has the bits it looks at. -/
def Mag.quotient (g : Mag) (rm : RM) (neg : Bool) (sh : Nat) : Nat × Bool :=
  let inex := decide (g.m % 2 ^ sh ≠ 0) || g.sticky
  (if inex && goesUp rm neg g.sticky (g.m / 2 ^ sh) (g.m % 2 ^ sh) sh then g.m / 2 ^ sh + 1 else g.m / 2 ^ sh, inex)

theorem Mag.roundAt_eq (g : Mag) (rm : RM) (neg : Bool) (q : Int) :
    g.roundAt rm neg q = (g.below q 17).quotient rm neg (q - (g.below q 17).e).toNat := by
  unfold Mag.roundAt Mag.quotient goesUp
  rcases rm with (_ | _ | _ | _ | _) | _ <;> rfl

/-- A half of the divisor in terms of the remainder's part of a unit. -/
theorem half_iff (t : ℝ) (d : Nat) : (1 / 2 ≤ t / 2 ^ (d + 1) ↔ 2 ^ d ≤ t) ∧ (t / 2 ^ (d + 1) ≤ 1 / 2 ↔ t ≤ 2 ^ d) := by
  have pos : (0 : ℝ) < 2 ^ (d + 1) := by positivity
  rw [le_div_iff₀ pos, div_le_iff₀ pos, pow_succ]
  constructor <;> constructor <;> intro h <;> linarith

/-- `t` is a remainder with its endless tail, where it has one. -/
def Tailed (sticky : Bool) (rem : Nat) (t : ℝ) : Prop := if sticky then (rem : ℝ) < t ∧ t < rem + 1 else t = rem

section
variable {sticky : Bool} {n rem d : Nat} {t : ℝ}

theorem Tailed.le (h : Tailed sticky rem t) : (rem : ℝ) ≤ t := by
  cases sticky
  · exact (show t = rem from h).ge
  · exact (show (rem : ℝ) < t ∧ t < rem + 1 from h).1.le

theorem Tailed.lt_add_one (h : Tailed sticky rem t) : t < rem + 1 := by
  cases sticky
  · exact (show t = rem from h) ▸ lt_add_one _
  · exact (show (rem : ℝ) < t ∧ t < rem + 1 from h).2

/-- With its tail a remainder is above a power of two that it passes, or meets with a tail. -/
theorem Tailed.pow_lt (h : Tailed sticky rem t) (hd : 2 ^ d < rem ∨ (rem = 2 ^ d ∧ sticky = true)) : (2 : ℝ) ^ d < t := by
  rcases hd with lt | ⟨rfl, rfl⟩
  · have lt' : (2 : ℝ) ^ d < rem := by exact_mod_cast lt
    exact lt'.trans_le h.le
  · have tail : ((2 ^ d : Nat) : ℝ) < t := (show _ ∧ _ from h).1
    exact_mod_cast tail

/-- It is below one that it does not reach. -/
theorem Tailed.lt_pow (h : Tailed sticky rem t) (hd : rem < 2 ^ d) : t < (2 : ℝ) ^ d := by
  have step : (rem : ℝ) + 1 ≤ 2 ^ d := by exact_mod_cast hd
  exact h.lt_add_one.trans_le step

/-- It meets one without a tail. -/
theorem Tailed.eq_pow (h : Tailed sticky rem t) (hd : rem = 2 ^ d) (hs : sticky = false) : t = (2 : ℝ) ^ d := by
  subst hs hd
  exact_mod_cast (show t = ((2 ^ d : Nat) : ℝ) from h)

/-- Ties away from zero: up from a half on. -/
theorem upRight_ra (neg : Bool) (h : Tailed sticky rem t) :
    UpRight (.mode .ra) neg n (t / 2 ^ (d + 1)) (goesUp (.mode .ra) neg sticky n rem (d + 1)) := by
  obtain ⟨low, -⟩ := half_iff t d
  simp only [UpRight, goesUp, Nat.add_sub_cancel, decide_eq_true_eq, decide_eq_false_iff_not, low, not_le]
  constructor
  · intro ge
    have ge' : (2 : ℝ) ^ d ≤ rem := by exact_mod_cast ge
    exact ge'.trans h.le
  · intro lt
    exact not_le.1 fun le => absurd (h.lt_pow lt) (not_lt.2 (low.1 le))

/-- Ties to even: up above a half, and at a half from an odd integer. -/
theorem upRight_rn (neg : Bool) (h : Tailed sticky rem t) :
    UpRight (.mode .rn) neg n (t / 2 ^ (d + 1)) (goesUp (.mode .rn) neg sticky n rem (d + 1)) := by
  obtain ⟨low, high⟩ := half_iff t d
  have tie : t / 2 ^ (d + 1) = 1 / 2 ↔ t = (2 : ℝ) ^ d := by rw [le_antisymm_iff, high, low, ← le_antisymm_iff]
  simp only [UpRight, goesUp, Nat.add_sub_cancel, low, high, tie]
  constructor
  · intro up
    simp only [Bool.or_eq_true, Bool.and_eq_true, decide_eq_true_eq, beq_iff_eq] at up
    rcases up with lt | ⟨eq, hs | odd⟩
    · exact ⟨(h.pow_lt (.inl lt)).le, fun e => absurd e (h.pow_lt (.inl lt)).ne'⟩
    · exact ⟨(h.pow_lt (.inr ⟨eq, hs⟩)).le, fun e => absurd e (h.pow_lt (.inr ⟨eq, hs⟩)).ne'⟩
    · have reached : (2 : ℝ) ^ d = rem := by exact_mod_cast eq.symm
      exact ⟨reached ▸ h.le, fun _ => odd⟩
  · intro down
    simp only [Bool.or_eq_false_iff, Bool.and_eq_false_iff, decide_eq_false_iff_not, not_lt, beq_eq_false_iff_ne] at down
    obtain ⟨le, rest⟩ := down
    rcases le.lt_or_eq with lt | eq
    · exact ⟨(h.lt_pow lt).le, fun e => absurd e (h.lt_pow lt).ne⟩
    · obtain ⟨hs, parity⟩ : sticky = false ∧ n % 2 ≠ 1 := by simpa [eq] using rest
      exact ⟨(h.eq_pow eq hs).le, fun _ => by omega⟩

/-- Where something is left, `Mag.roundAt` goes up where the mode calls for it. -/
theorem goesUp_upRight (rm : RM) (neg : Bool) {sh : Nat} (hsh : 0 < sh) (inex : rem ≠ 0 ∨ sticky = true) (h : Tailed sticky rem t) :
    UpRight rm neg n (t / 2 ^ sh) (goesUp rm neg sticky n rem sh) := by
  obtain ⟨d, rfl⟩ : ∃ d, sh = d + 1 := ⟨sh - 1, by omega⟩
  rcases rm with (_ | _ | _ | _ | _) | _
  case sr => trivial
  case mode.rz => rfl
  case mode.ru | mode.rd =>
    rcases inex with left | tail
    · simp [UpRight, goesUp, left]
    · simp [UpRight, goesUp, tail]
  case mode.ra => exact upRight_ra neg h
  case mode.rn => exact upRight_rn neg h

end

/-- A number that a magnitude stands for, divided: the quotient, and the remainder with its tail. -/
theorem Mag.holds_split {g : Mag} {x : ℝ} (h : g.Holds x) (sh : Nat) :
    ∃ t, x / 2 ^ g.e / 2 ^ sh = (g.m / 2 ^ sh : Nat) + t / 2 ^ sh ∧ Tailed g.sticky (g.m % 2 ^ sh) t := by
  have unit : (0 : ℝ) < 2 ^ g.e := by positivity
  have split : (g.m : ℝ) = 2 ^ sh * (g.m / 2 ^ sh : Nat) + (g.m % 2 ^ sh : Nat) := by exact_mod_cast (Nat.div_add_mod g.m (2 ^ sh)).symm
  refine ⟨x / 2 ^ g.e - 2 ^ sh * (g.m / 2 ^ sh : Nat), by field_simp; ring, ?_⟩
  unfold Mag.Holds at h
  unfold Tailed
  split
  case isTrue hs =>
    rw [if_pos hs, ← lt_div_iff₀ unit, ← div_lt_iff₀ unit] at h
    constructor <;> linarith
  case isFalse hs =>
    rw [if_neg hs] at h
    rw [h, mul_div_assoc, div_self unit.ne', mul_one]
    linarith

/-- The quotient that `Mag.quotient` makes of a magnitude is what the mode makes of every number that it stands for. -/
theorem Mag.quotient_roundsInt {g : Mag} {x : ℝ} (h : g.Holds x) (rm : RM) (neg : Bool) {sh : Nat} (hsh : 0 < sh) :
    RoundsInt rm neg (x / 2 ^ g.e / 2 ^ sh) (g.quotient rm neg sh).1 ∧
      ((g.quotient rm neg sh).2 = true ↔ x / 2 ^ g.e / 2 ^ sh ≠ (g.quotient rm neg sh).1) := by
  obtain ⟨t, part, tailed⟩ := Mag.holds_split h sh
  have size : (0 : ℝ) < 2 ^ sh := by positivity
  rw [part]
  by_cases inex : g.m % 2 ^ sh ≠ 0 ∨ g.sticky = true
  case neg =>
    obtain ⟨rem, hs⟩ : g.m % 2 ^ sh = 0 ∧ g.sticky = false := by simpa using inex
    have none : t = 0 := by simpa [Tailed, rem, hs] using tailed
    have whole : g.quotient rm neg sh = (g.m / 2 ^ sh, false) := by simp [Mag.quotient, rem, hs]
    rw [none, zero_div, add_zero, whole]
    exact ⟨roundsInt_self rm neg _, by simp⟩
  case pos =>
    have pos : 0 < t := by
      rcases inex with rem | hs
      · exact (show (0 : ℝ) < (g.m % 2 ^ sh : Nat) by exact_mod_cast Nat.pos_of_ne_zero rem).trans_le tailed.le
      · rw [Tailed, if_pos hs] at tailed
        exact (Nat.cast_nonneg _).trans_lt tailed.1
    have lt : t / 2 ^ sh < 1 := (div_lt_one size).2 (tailed.lt_pow (Nat.mod_lt _ (Nat.two_pow_pos sh)))
    have gt : 0 < t / 2 ^ sh := div_pos pos size
    have right := goesUp_upRight (n := g.m / 2 ^ sh) rm neg hsh inex tailed
    have flag : (decide (g.m % 2 ^ sh ≠ 0) || g.sticky) = true := by simpa using inex
    simp only [Mag.quotient, flag, Bool.true_and, true_iff]
    split
    case isTrue up =>
      rw [up] at right
      refine ⟨roundsInt_up gt lt right, fun e => ?_⟩
      push_cast at e
      linarith
    case isFalse down =>
      rw [Bool.eq_false_of_not_eq_true down] at right
      exact ⟨roundsInt_down gt lt right, fun e => by linarith⟩

/-- Rounding a magnitude to a multiple of 2^q gives what the mode makes of its quotient by 2^q (R94, R96), and whether the two differ. -/
theorem Mag.roundAt_roundsInt {g : Mag} {x : ℝ} (h : g.Holds x) (rm : RM) (neg : Bool) {q : Int} (hs : g.sticky = true → g.e ≤ q - 17) :
    RoundsInt rm neg (x / 2 ^ q) (g.roundAt rm neg q).1 ∧ ((g.roundAt rm neg q).2 = true ↔ x / 2 ^ q ≠ (g.roundAt rm neg q).1) := by
  obtain ⟨holds, low⟩ := Mag.below_holds (k := 17) h hs
  push_cast at low
  have unit : x / 2 ^ q = x / 2 ^ (g.below q 17).e / 2 ^ (q - (g.below q 17).e).toNat := by
    rw [div_div, ← zpow_natCast, ← zpow_add₀ two_ne_zero]
    congr 2
    omega
  rw [Mag.roundAt_eq, unit]
  exact Mag.quotient_roundsInt holds rm neg (by omega)

end Sys2Proof
end

section
/-!
SUPPORT. The finite values of a floating-point format (04 R87, R94, R95): beside the integers of the unit at which a value is rounded there are only
values below all of its binade, so that the integer that the mode picks is the value that it picks.
-/

namespace Sys2Proof

open Claims

/-! ### The mode's pick -/

/-- Whether `v` is what the mode makes of the real number `x`, as far as the value `w` can tell (R94, R96); `even` says whether the encoding of `v`
is. -/
def Picks (rm : RM) (even : Prop) (x v w : ℝ) : Prop :=
  match rm with
  | .mode .rd => v ≤ x ∧ (w ≤ x → w ≤ v)
  | .mode .ru => x ≤ v ∧ (x ≤ w → v ≤ w)
  | .mode .rz => |v| ≤ |x| ∧ (|w| ≤ |x| → |w| ≤ |v|)
  | .mode .rn => |v - x| ≤ |w - x| ∧ (w ≠ v → |w - x| = |v - x| → even)
  | .mode .ra => |v - x| ≤ |w - x| ∧ (w ≠ v → |w - x| = |v - x| → |w| ≤ |v|)
  | .sr _ => min v x ≤ w → w ≤ max v x → w = v

/-- Picking does not depend on the unit. -/
theorem Picks.scale {rm : RM} {even : Prop} {x v w u : ℝ} (hu : 0 < u) (h : Picks rm even x v w) : Picks rm even (x * u) (v * u) (w * u) := by
  have abs_mul_unit : ∀ a : ℝ, |a * u| = |a| * u := fun a => by rw [abs_mul, abs_of_pos hu]
  rcases rm with (_ | _ | _ | _ | _) | _
  case sr =>
    simp only [Picks, ← min_mul_of_nonneg _ _ hu.le, ← max_mul_of_nonneg _ _ hu.le, mul_le_mul_iff_left₀ hu, mul_left_inj' hu.ne'] at h ⊢
    exact h
  all_goals
    simp only [Picks, ← sub_mul, abs_mul_unit, mul_le_mul_iff_left₀ hu, ne_eq, mul_left_inj' hu.ne'] at h ⊢
    exact h

/-- A value in units of the rounding of `X`: an integer, or nearer to zero than some integer that is no further from zero than `X`. -/
def OnGrid (X W : ℝ) : Prop := (∃ k : Int, W = k) ∨ ∃ l : Nat, |W| < l ∧ (l : ℝ) ≤ X

theorem OnGrid.abs {X W : ℝ} (h : OnGrid X W) : OnGrid X |W| := by
  rcases h with ⟨k, rfl⟩ | ⟨l, lt, le⟩
  · exact .inl ⟨|k|, by push_cast; rfl⟩
  · exact .inr ⟨l, by rwa [abs_abs], le⟩

section
variable {X W : ℝ} {n : Nat}

/-- The integer below is the greatest value below. -/
theorem OnGrid.le_floor (h : OnGrid X W) (near : |X - n| < 1) (le : W ≤ X) : W ≤ n := by
  obtain ⟨-, near⟩ := abs_lt.1 near
  rcases h with ⟨k, rfl⟩ | ⟨l, lt, small⟩
  · have : (k : ℝ) < (n : Int) + 1 := by push_cast; linarith
    have : k ≤ n := by exact_mod_cast Int.lt_add_one_iff.1 (by exact_mod_cast this)
    exact_mod_cast this
  · have : (l : ℝ) < n + 1 := by linarith
    have : l ≤ n := Nat.lt_succ_iff.1 (by exact_mod_cast this)
    exact (le_abs_self W).trans (lt.le.trans (by exact_mod_cast this))

/-- The integer above is the least value above. -/
theorem OnGrid.ceil_le (h : OnGrid X W) (near : |X - n| < 1) (le : X ≤ W) : (n : ℝ) ≤ W := by
  obtain ⟨near, -⟩ := abs_lt.1 near
  rcases h with ⟨k, rfl⟩ | ⟨l, lt, small⟩
  · have : ((n : Int) : ℝ) < k + 1 := by push_cast; linarith
    have : (n : Int) ≤ k := Int.lt_add_one_iff.1 (by exact_mod_cast this)
    exact_mod_cast this
  · have := le_abs_self W
    linarith

/-- An integer within a half is a nearest value, and another value as near is an integer a half away. -/
theorem OnGrid.nearest (h : OnGrid X W) (half : |X - n| ≤ 1 / 2) :
    |n - X| ≤ |W - X| ∧ (W ≠ n → |W - X| = |n - X| → |X - n| = 1 / 2) := by
  have away : ∀ k : Int, (k : ℝ) ≠ n → 1 - |X - n| ≤ |k - X| := by
    intro k ne
    have : (1 : ℝ) ≤ |(k : ℝ) - n| := by
      have : k - n ≠ 0 := fun e => ne (by exact_mod_cast sub_eq_zero.1 e)
      exact_mod_cast Int.one_le_abs this
    have := abs_sub_le (k : ℝ) X n
    linarith
  rw [abs_sub_comm (n : ℝ) X]
  rcases h with ⟨k, rfl⟩ | ⟨l, lt, small⟩
  · by_cases same : (k : ℝ) = n
    · exact ⟨by rw [same, abs_sub_comm], fun ne => absurd same ne⟩
    · have := away k same
      exact ⟨by linarith, fun _ e => by linarith⟩
  · have closer : |(l : ℝ) - X| < |W - X| := by
      have := le_abs_self W
      rw [abs_sub_comm, abs_of_nonneg (by linarith), abs_sub_comm, abs_of_nonneg (by linarith)]
      linarith
    have : |X - n| ≤ |(l : ℝ) - X| := by
      by_cases same : ((l : Int) : ℝ) = n
      · rw [← same, abs_sub_comm]
        norm_cast
      · have := away l same
        push_cast at this
        linarith
    exact ⟨by linarith, fun _ e => by linarith⟩

/-- The value that an integer is between `X` and itself is the integer itself. -/
theorem OnGrid.eq_of_between (h : OnGrid X W) (near : |X - n| < 1) (low : min (n : ℝ) X ≤ W) (high : W ≤ max (n : ℝ) X) : W = n := by
  rcases le_total (n : ℝ) X with le | le
  · rw [min_eq_left le] at low
    rw [max_eq_right le] at high
    exact le_antisymm (h.le_floor near high) low
  · rw [min_eq_right le] at low
    rw [max_eq_left le] at high
    exact le_antisymm high (h.ceil_le near low)

end

/-- The sign of a value. -/
def sgn (s : Bool) : ℝ := if s then -1 else 1

theorem abs_sgn_mul (s : Bool) (a : ℝ) : |sgn s * a| = |a| := by cases s <;> simp [sgn]

theorem sgn_mul_inj (s : Bool) {a b : ℝ} : sgn s * a = sgn s * b ↔ a = b := by cases s <;> simp [sgn]

/-- The integer that the mode makes of a magnitude is the value that it picks. -/
theorem picks_of_roundsInt {rm : RM} {s : Bool} {X W : ℝ} {n : Nat} {even : Prop} (h : RoundsInt rm s X n) (pos : 0 ≤ X) (hw : OnGrid X W)
    (he : n % 2 = 0 → even) : Picks rm even (sgn s * X) (sgn s * n) (sgn s * W) := by
  obtain ⟨near, mode⟩ := h
  have size : |(n : ℝ)| = n := abs_of_nonneg (Nat.cast_nonneg n)
  rcases rm with (_ | _ | _ | _ | _) | _
  case mode.rn =>
    obtain ⟨half, tie⟩ := mode
    obtain ⟨best, other⟩ := hw.nearest half
    simp only [Picks, ← mul_sub, abs_sgn_mul, ne_eq, sgn_mul_inj]
    exact ⟨best, fun ne e => he (tie (other ne e))⟩
  case mode.rz =>
    simp only [Picks, abs_sgn_mul, size, abs_of_nonneg pos]
    exact ⟨mode, hw.abs.le_floor near⟩
  case mode.ru =>
    cases s
    · simp only [Picks, sgn, Bool.false_eq_true, if_false, one_mul] at mode ⊢
      exact ⟨mode, hw.ceil_le near⟩
    · simp only [Picks, sgn, if_true, neg_one_mul, neg_le_neg_iff] at mode ⊢
      exact ⟨mode, hw.le_floor near⟩
  case mode.rd =>
    cases s
    · simp only [Picks, sgn, Bool.false_eq_true, if_false, one_mul] at mode ⊢
      exact ⟨mode, hw.le_floor near⟩
    · simp only [Picks, sgn, if_true, neg_one_mul, neg_le_neg_iff] at mode ⊢
      exact ⟨mode, hw.ceil_le near⟩
  case mode.ra =>
    obtain ⟨half, tie⟩ := mode
    obtain ⟨best, other⟩ := hw.nearest half
    simp only [Picks, ← mul_sub, abs_sgn_mul, ne_eq, sgn_mul_inj, size]
    refine ⟨best, fun ne e => ?_⟩
    have below := tie (other ne e)
    rw [abs_of_nonneg (sub_nonneg.2 below)] at e
    obtain ⟨high, low⟩ := abs_le.1 e.le
    exact abs_le.2 ⟨by linarith, by linarith⟩
  case sr =>
    have between := hw.eq_of_between near
    cases s
    · simp only [Picks, sgn, Bool.false_eq_true, if_false, one_mul]
      exact between
    · simp only [Picks, sgn, if_true, neg_one_mul, min_neg_neg, max_neg_neg, neg_le_neg_iff, neg_inj]
      exact fun low high => between high low

end Sys2Proof
end

section
/-!
SUPPORT. The encodings of a floating-point format as a rising sequence of values (04 R87, R88, R95).
-/

namespace Sys2Proof

open Claims

/-- What every format of R87 has: a significand of two bits or more, a sign bit above every finite encoding, and an infinity above them. -/
structure FFmt.Regular (f : FFmt) : Prop where
  bits : 2 ≤ f.p
  wide : 2 ≤ f.w
  fits : f.maxEnc < 2 ^ (f.w - 1)
  inf : ∀ i, f.infEnc = some i → f.maxEnc < i

theorem regular_of_mem {f : FFmt} (h : f ∈ fpFormats) : f.Regular := by
  simp only [fpFormats, List.mem_cons, List.not_mem_nil, or_false] at h
  rcases h with rfl | rfl | rfl | rfl | rfl | rfl | rfl | rfl
  all_goals exact ⟨by decide, by decide, by decide, fun i hi => by cases hi <;> decide⟩

/-- The significand of an encoding without its sign bit, with the hidden bit. -/
def FFmt.sig (f : FFmt) (x : Nat) : Nat := if x / 2 ^ (f.p - 1) = 0 then x % 2 ^ (f.p - 1) else x % 2 ^ (f.p - 1) + 2 ^ (f.p - 1)

/-- The binade of an encoding, above the subnormal one. -/
def FFmt.binade (f : FFmt) (x : Nat) : Nat := x / 2 ^ (f.p - 1) - 1

/-- The magnitude of an encoding in units of the subnormal spacing. -/
def FFmt.units (f : FFmt) (x : Nat) : Nat := f.sig x * 2 ^ f.binade x

/-- The exponent of the subnormal spacing. -/
def FFmt.spacing (f : FFmt) : Int := 2 - f.bias - f.p

theorem FFmt.decode_eq (f : FFmt) (x : Nat) : f.decode x =
    if f.infEnc = some (x % 2 ^ (f.w - 1)) then .inf (x.testBit (f.w - 1))
    else if x % 2 ^ (f.w - 1) > f.maxEnc then .nan
    else .fin (x.testBit (f.w - 1)) (f.sig (x % 2 ^ (f.w - 1))) (f.spacing + f.binade (x % 2 ^ (f.w - 1))) := by
  unfold FFmt.decode FFmt.sig FFmt.binade FFmt.spacing
  dsimp only
  refine if_congr Iff.rfl rfl (if_congr Iff.rfl rfl ?_)
  split
  case isTrue subnormal => simp [subnormal]
  case isFalse normal =>
    congr 1
    generalize x % 2 ^ (f.w - 1) / 2 ^ (f.p - 1) = c at normal ⊢
    omega

section
variable {f : FFmt}

theorem FFmt.two_pow_p (h : 2 ≤ f.p) : 2 ^ f.p = 2 * 2 ^ (f.p - 1) := by
  rw [← pow_succ']
  congr 1
  omega

theorem FFmt.sig_lt (h : 2 ≤ f.p) (x : Nat) : f.sig x < 2 ^ f.p := by
  have low : x % 2 ^ (f.p - 1) < 2 ^ (f.p - 1) := Nat.mod_lt _ (Nat.two_pow_pos _)
  have := FFmt.two_pow_p h
  unfold FFmt.sig
  split <;> omega

/-- `n` units of a binade, at most twice the binade's width, and at least its width but in the subnormal binade, as an encoding. -/
theorem FFmt.units_encode (h : 2 ≤ f.p) {n k : Nat} (high : n ≤ 2 ^ f.p) (low : k = 0 ∨ 2 ^ (f.p - 1) ≤ n) :
    f.units (n + 2 ^ (f.p - 1) * k) = n * 2 ^ k := by
  have pos : 0 < 2 ^ (f.p - 1) := Nat.two_pow_pos _
  rw [FFmt.two_pow_p h] at high
  unfold FFmt.units FFmt.sig FFmt.binade
  generalize 2 ^ (f.p - 1) = b at *
  rw [Nat.add_mul_div_left _ _ pos, Nat.add_mul_mod_self_left]
  rcases lt_or_ge n b with sub | norm
  · obtain rfl : k = 0 := by omega
    simp [Nat.div_eq_of_lt sub, Nat.mod_eq_of_lt sub]
  · rcases high.lt_or_eq with lt | rfl
    · have one : n / b = 1 := Nat.div_eq_of_lt_le (by omega) (by omega)
      have rest : n % b = n - b := by
        have := Nat.div_add_mod n b
        rw [one] at this
        omega
      rw [one, rest, if_neg (by omega)]
      congr 1
      · omega
      · congr 1
        omega
    · have two : 2 * b / b = 2 := Nat.mul_div_cancel _ pos
      have rest : 2 * b % b = 0 := Nat.mul_mod_left _ _
      rw [two, rest, if_neg (by omega), show 2 + k - 1 = k + 1 by omega, pow_succ]
      ring

/-- A greater encoding has a greater magnitude. -/
theorem FFmt.units_strictMono (h : 2 ≤ f.p) : StrictMono f.units := by
  refine strictMono_nat_of_lt_succ fun x => ?_
  have pos : 0 < 2 ^ (f.p - 1) := Nat.two_pow_pos _
  have parts := Nat.div_add_mod x (2 ^ (f.p - 1))
  have low : x % 2 ^ (f.p - 1) < 2 ^ (f.p - 1) := Nat.mod_lt _ pos
  have p2 := FFmt.two_pow_p h
  rcases Nat.eq_zero_or_pos (x / 2 ^ (f.p - 1)) with sub | norm
  · have here : f.units (x + 2 ^ (f.p - 1) * 0) = x * 2 ^ 0 := FFmt.units_encode h (by rw [sub] at parts; omega) (.inl rfl)
    have next : f.units (x + 1 + 2 ^ (f.p - 1) * 0) = (x + 1) * 2 ^ 0 := FFmt.units_encode h (by rw [sub] at parts; omega) (.inl rfl)
    simp only [mul_zero, add_zero, pow_zero, mul_one] at here next
    omega
  · obtain ⟨k, hk⟩ : ∃ k, x / 2 ^ (f.p - 1) = k + 1 := ⟨_, (Nat.sub_add_cancel norm).symm⟩
    rw [hk, mul_add, mul_one] at parts
    have here := FFmt.units_encode (f := f) h (n := x % 2 ^ (f.p - 1) + 2 ^ (f.p - 1)) (k := k) (by omega) (.inr (by omega))
    have next := FFmt.units_encode (f := f) h (n := x % 2 ^ (f.p - 1) + 2 ^ (f.p - 1) + 1) (k := k) (by omega) (.inr (by omega))
    rw [show x % 2 ^ (f.p - 1) + 2 ^ (f.p - 1) + 2 ^ (f.p - 1) * k = x by omega] at here
    rw [show x % 2 ^ (f.p - 1) + 2 ^ (f.p - 1) + 1 + 2 ^ (f.p - 1) * k = x + 1 by omega] at next
    rw [here, next]
    exact Nat.mul_lt_mul_of_pos_right (Nat.lt_succ_self _) (Nat.two_pow_pos _)

/-- The real number that a finite encoding without its sign bit is. -/
noncomputable def FFmt.mag (f : FFmt) (x : Nat) : ℝ := f.units x * 2 ^ f.spacing

/-- A finite encoding is its magnitude with its sign. -/
theorem ratOf_decode {x : Nat} {w : ℚ} (h : ratOf (f.decode x) = some w) :
    (w : ℝ) = sgn (x.testBit (f.w - 1)) * f.mag (x % 2 ^ (f.w - 1)) := by
  rw [FFmt.decode_eq] at h
  split at h
  · cases h
  · split at h
    · cases h
    · simp only [ratOf, Option.some.injEq] at h
      rw [← h, FFmt.mag, FFmt.units, zpow_add₀ two_ne_zero, zpow_natCast]
      cases x.testBit (f.w - 1) <;> (push_cast; simp only [sgn, Bool.false_eq_true, if_false, if_true]; ring)

/-- An encoding up to the largest finite one, with a sign, is finite. -/
theorem ratOf_decode_signed (hf : f.Regular) {x : Nat} (hx : x ≤ f.maxEnc) (s : Bool) :
    ∃ v, ratOf (f.decode (f.signed s x)) = some v ∧ (v : ℝ) = sgn s * f.mag x := by
  have low : x < 2 ^ (f.w - 1) := hx.trans_lt hf.fits
  have rest : f.signed s x % 2 ^ (f.w - 1) = x := by cases s <;> simp [FFmt.signed, Nat.mod_eq_of_lt low]
  have sign : (f.signed s x).testBit (f.w - 1) = s := by
    cases s
    · simp [FFmt.signed, Nat.testBit_lt_two_pow low]
    · simp only [FFmt.signed, if_true]
      rw [Nat.add_comm, Nat.testBit_two_pow_add_eq, Nat.testBit_lt_two_pow low]
      rfl
  have noInf : f.infEnc ≠ some x := fun e => absurd (hf.inf x e) (by omega)
  have finite : ∃ v, ratOf (f.decode (f.signed s x)) = some v := by
    rw [FFmt.decode_eq, rest, if_neg noInf, if_neg (by omega)]
    exact ⟨_, rfl⟩
  obtain ⟨v, hv⟩ := finite
  exact ⟨v, hv, by rw [ratOf_decode hv, rest, sign]⟩

/-- A finite value in units of 2^q, at or above the subnormal spacing, is on the grid of a number that is subnormal or fills a significand. -/
theorem onGrid_mag (h : 2 ≤ f.p) {q : Int} {X : ℝ} (hq : f.spacing ≤ q) (hX : q = f.spacing ∨ (2 : ℝ) ^ (f.p - 1) ≤ X) (s : Bool)
    (x : Nat) : OnGrid X (sgn s * f.mag x / 2 ^ q) := by
  obtain ⟨d, rfl⟩ : ∃ d : Nat, q = f.spacing + d := ⟨(q - f.spacing).toNat, by omega⟩
  have unit : (2 : ℝ) ^ f.spacing ≠ 0 := by positivity
  have value : sgn s * f.mag x / 2 ^ (f.spacing + d) = sgn s * (f.sig x * 2 ^ f.binade x / 2 ^ d) := by
    rw [FFmt.mag, FFmt.units, zpow_add₀ two_ne_zero, zpow_natCast]
    push_cast
    field_simp
  rw [value]
  rcases le_or_gt d (f.binade x) with le | lt
  · obtain ⟨e, he⟩ := Nat.exists_eq_add_of_le le
    refine .inl ⟨(if s then -1 else 1) * (f.sig x * 2 ^ e : Nat), ?_⟩
    rw [he, pow_add]
    cases s <;> (simp only [sgn, Bool.false_eq_true, if_false, if_true]; push_cast; field_simp)
  · have full : (2 : ℝ) ^ (f.p - 1) ≤ X := hX.resolve_left (by omega)
    refine .inr ⟨2 ^ (f.p - 1), ?_, by exact_mod_cast full⟩
    rw [abs_sgn_mul, abs_of_nonneg (by positivity), div_lt_iff₀ (by positivity)]
    have small : f.sig x * 2 ^ f.binade x < 2 ^ (f.p - 1) * 2 ^ d := calc
      f.sig x * 2 ^ f.binade x < 2 ^ f.p * 2 ^ f.binade x := Nat.mul_lt_mul_of_pos_right (FFmt.sig_lt h x) (Nat.two_pow_pos _)
      _ = 2 ^ (f.p - 1) * 2 ^ (f.binade x + 1) := by rw [FFmt.two_pow_p h]; ring
      _ ≤ 2 ^ (f.p - 1) * 2 ^ d := Nat.mul_le_mul_left _ (Nat.pow_le_pow_right (by decide) lt)
    exact_mod_cast small

end

end Sys2Proof
end

section
/-!
SUPPORT. Rounding to a floating-point format (04 R95 to R97, R99): what `FFmt.roundMag` makes of a magnitude.
-/

namespace Sys2Proof

open Claims

/-! ### The unit of a rounding -/

/-- The binade of a magnitude: 2 to it is at most the magnitude, which is below its double. -/
def Mag.binade (g : Mag) : Int := g.e + (Nat.log2 g.m : Int)

/-- The exponent of the unit at which a magnitude is rounded, with the exponent unbounded below. -/
def FFmt.freeUnit (f : FFmt) (g : Mag) : Int := g.binade - (f.p - 1 : Nat)

/-- The exponent of the unit at which a magnitude is rounded: no finer than the subnormal spacing. -/
def FFmt.unit (f : FFmt) (g : Mag) : Int := max (f.freeUnit g) (1 - (f.bias : Int) - (f.p - 1 : Nat))

/-- Whether the rounded value with the exponent unbounded below is subnormal (R100). -/
def FFmt.tiny (f : FFmt) (rm : RM) (neg : Bool) (g : Mag) : Bool :=
  decide (f.freeUnit g < 1 - (f.bias : Int) - (f.p - 1 : Nat)) &&
    decide (((g.roundAt rm neg (f.freeUnit g)).1 : Int) < 2 ^ (1 - (f.bias : Int) - f.freeUnit g).toNat)

/-- The encoding of a rounded magnitude, without bound. -/
def FFmt.encoded (f : FFmt) (rm : RM) (neg : Bool) (g : Mag) : Nat :=
  if (g.roundAt rm neg (f.unit g)).1 = 0 then 0 else f.encode (g.roundAt rm neg (f.unit g)).1 (f.unit g)

/-- The exceptions of a rounding that does not overflow (R100). -/
def roundFlags (inex tiny : Bool) : FFlags := (if inex then flInx else 0) ||| (if inex && tiny then flUnf else 0)

theorem roundFlags_bits : ∀ inex tiny : Bool, (roundFlags inex tiny).getLsbD 0 = false ∧ (roundFlags inex tiny).getLsbD 1 = false ∧
    (roundFlags inex tiny).getLsbD 2 = false ∧ (roundFlags inex tiny).getLsbD 4 = inex := by decide

theorem overflowFlags_bits : (flOvf ||| flInx).getLsbD 0 = false ∧ (flOvf ||| flInx).getLsbD 1 = false ∧
    (flOvf ||| flInx).getLsbD 2 = true ∧ (flOvf ||| flInx).getLsbD 4 = true := by decide

theorem FFmt.roundMag_eq (f : FFmt) (rm : RM) (neg : Bool) (g : Mag) : f.roundMag rm neg g =
    if f.encoded rm neg g > f.maxEnc then (f.overflow rm neg, flOvf ||| flInx)
    else (f.signed neg (f.encoded rm neg g), roundFlags (g.roundAt rm neg (f.unit g)).2 (f.tiny rm neg g)) := rfl

/-- No rounding raises INV or DZ. -/
theorem FFmt.roundMag_quiet (f : FFmt) (rm : RM) (neg : Bool) (g : Mag) :
    (f.roundMag rm neg g).2.getLsbD 0 = false ∧ (f.roundMag rm neg g).2.getLsbD 1 = false := by
  rw [FFmt.roundMag_eq]
  split
  · exact ⟨overflowFlags_bits.1, overflowFlags_bits.2.1⟩
  · obtain ⟨inv, dz, -, -⟩ := roundFlags_bits (g.roundAt rm neg (f.unit g)).2 (f.tiny rm neg g)
    exact ⟨inv, dz⟩

section
variable {f : FFmt} {g : Mag} {x : ℝ}

theorem Mag.holds_pos (h : g.Holds x) (hm : g.m ≠ 0) : 0 < x := by
  have size : (0 : ℝ) < g.m * 2 ^ g.e := by positivity
  unfold Mag.Holds at h
  split at h
  · exact size.trans h.1
  · exact h ▸ size

/-- A number that a magnitude stands for is in the magnitude's binade. -/
theorem Mag.binade_bounds (h : g.Holds x) (hm : g.m ≠ 0) : (2 : ℝ) ^ g.binade ≤ x ∧ x < 2 ^ (g.binade + 1) := by
  have unit : (0 : ℝ) < 2 ^ g.e := by positivity
  have low : (2 : ℝ) ^ g.binade ≤ g.m * 2 ^ g.e := by
    rw [Mag.binade, add_comm, zpow_add₀ two_ne_zero, zpow_natCast]
    refine mul_le_mul_of_nonneg_right ?_ unit.le
    exact_mod_cast Nat.log2_self_le hm
  have high : ((g.m : ℝ) + 1) * 2 ^ g.e ≤ 2 ^ (g.binade + 1) := by
    rw [Mag.binade, show g.e + (Nat.log2 g.m : Int) + 1 = ((Nat.log2 g.m + 1 : Nat) : Int) + g.e by push_cast; ring, zpow_add₀ two_ne_zero,
      zpow_natCast]
    refine mul_le_mul_of_nonneg_right ?_ unit.le
    exact_mod_cast Nat.lt_log2_self
  unfold Mag.Holds at h
  split at h
  · exact ⟨low.trans h.1.le, h.2.trans_le high⟩
  · rw [h]
    exact ⟨low, (mul_lt_mul_of_pos_right (lt_add_one _) unit).trans_le high⟩

theorem FFmt.unit_eq (hp : 2 ≤ f.p) (g : Mag) : f.unit g = max (f.freeUnit g) f.spacing := by
  unfold FFmt.unit FFmt.spacing
  congr 1
  omega

theorem FFmt.spacing_le_unit (hp : 2 ≤ f.p) (g : Mag) : f.spacing ≤ f.unit g := by
  rw [FFmt.unit_eq hp]
  exact le_max_right _ _

/-- In its unit a number has no more than p bits, and p bits unless it is subnormal. -/
theorem FFmt.unit_bounds (hp : 2 ≤ f.p) (h : g.Holds x) (hm : g.m ≠ 0) :
    x / 2 ^ f.unit g < 2 ^ f.p ∧ (f.unit g = f.spacing ∨ (2 : ℝ) ^ (f.p - 1) ≤ x / 2 ^ f.unit g) := by
  obtain ⟨low, high⟩ := Mag.binade_bounds h hm
  have free : g.binade = f.freeUnit g + (f.p - 1 : Nat) := by
    unfold FFmt.freeUnit
    omega
  have least : f.freeUnit g ≤ f.unit g := by
    rw [FFmt.unit_eq hp]
    exact le_max_left _ _
  constructor
  · rw [div_lt_iff₀ (by positivity), ← zpow_natCast, ← zpow_add₀ two_ne_zero]
    exact high.trans_le (zpow_le_zpow_right₀ one_le_two (by omega))
  · rcases max_choice (f.freeUnit g) f.spacing with e | e
    · refine .inr ?_
      rw [FFmt.unit_eq hp, e, le_div_iff₀ (by positivity), ← zpow_natCast, ← zpow_add₀ two_ne_zero, add_comm, ← free]
      exact low
    · exact .inl (by rw [FFmt.unit_eq hp, e])

/-- An integer that is made of a number below 2^p is at most 2^p, and one made of a number from 2^b on is at least that. -/
theorem RoundsInt.le_pow {rm : RM} {s : Bool} {X : ℝ} {n p : Nat} (h : RoundsInt rm s X n) (hX : X < 2 ^ p) : n ≤ 2 ^ p := by
  obtain ⟨near, -⟩ := abs_lt.1 h.1
  have : (n : ℝ) < 2 ^ p + 1 := by linarith
  exact Nat.lt_succ_iff.1 (by exact_mod_cast this)

theorem RoundsInt.pow_le {rm : RM} {s : Bool} {X : ℝ} {n b : Nat} (h : RoundsInt rm s X n) (hX : 2 ^ b ≤ X) : 2 ^ b ≤ n := by
  obtain ⟨-, near⟩ := abs_lt.1 h.1
  have : (2 : ℝ) ^ b < n + 1 := by linarith
  exact Nat.lt_succ_iff.1 (by exact_mod_cast this)

/-- What is needed of a sticky magnitude: more bits than a rounding to the format looks at. -/
def FFmt.Enough (f : FFmt) (g : Mag) : Prop := g.sticky = true → f.p + 16 ≤ Nat.log2 g.m

theorem FFmt.Enough.unit_le (hp : 2 ≤ f.p) (h : f.Enough g) {q : Int} (hq : f.freeUnit g ≤ q) : g.sticky = true → g.e ≤ q - 17 := by
  intro hs
  have := h hs
  unfold FFmt.freeUnit Mag.binade at hq
  omega

theorem FFmt.freeUnit_le_unit (f : FFmt) (g : Mag) : f.freeUnit g ≤ f.unit g := le_max_left _ _

/-- The encoding of a rounded magnitude has the rounded magnitude, and the parity of the rounded significand. -/
theorem FFmt.units_encoded (hp : 2 ≤ f.p) (rm : RM) (neg : Bool) (h : g.Holds x) (hm : g.m ≠ 0) (hs : f.Enough g) :
    f.mag (f.encoded rm neg g) = (g.roundAt rm neg (f.unit g)).1 * 2 ^ f.unit g ∧
      f.encoded rm neg g % 2 = (g.roundAt rm neg (f.unit g)).1 % 2 := by
  obtain ⟨made, -⟩ := Mag.roundAt_roundsInt h rm neg (hs.unit_le hp (f.freeUnit_le_unit g))
  obtain ⟨high, low⟩ := FFmt.unit_bounds hp h hm
  obtain ⟨k, hk⟩ : ∃ k : Nat, f.unit g = f.spacing + k :=
    ⟨(f.unit g - f.spacing).toNat, by have := FFmt.spacing_le_unit hp g; omega⟩
  have normal : k = 0 ∨ 2 ^ (f.p - 1) ≤ (g.roundAt rm neg (f.unit g)).1 := low.imp (fun e => by omega) made.pow_le
  have enc : f.encoded rm neg g = (g.roundAt rm neg (f.unit g)).1 + 2 ^ (f.p - 1) * k := by
    unfold FFmt.encoded
    split
    case isTrue none =>
      obtain rfl : k = 0 := normal.resolve_right (by rw [none]; exact Nat.not_le.2 (Nat.two_pow_pos _))
      simp [none]
    case isFalse =>
      rw [FFmt.encode, show (f.unit g + f.bias + f.p - 2).toNat = k by rw [hk, FFmt.spacing]; omega]
  rw [enc]
  constructor
  · rw [FFmt.mag, FFmt.units_encode hp (made.le_pow high) normal, hk, zpow_add₀ two_ne_zero, zpow_natCast]
    push_cast
    ring
  · rw [Nat.add_mod, Nat.mul_mod, show 2 ^ (f.p - 1) % 2 = 0 from Nat.mod_eq_zero_of_dvd (dvd_pow_self 2 (by omega))]
    simp

/-- `y` is what the mode makes of the real number `x` in a format, without overflow (R94, R95). -/
def RoundsReal (f : FFmt) (rm : RM) (x : ℝ) (y : Nat) (inx : Bool) : Prop :=
  ∃ v : ℚ, ratOf (f.decode y) = some v ∧ (inx = true ↔ (v : ℝ) ≠ x) ∧
    ∀ (z : Nat) (w : ℚ), ratOf (f.decode z) = some w → Picks rm (y % 2 = 0) x v w

theorem FFmt.signed_mod_two (hw : 2 ≤ f.w) (s : Bool) (y : Nat) : f.signed s y % 2 = y % 2 := by
  cases s
  · rfl
  · simp only [FFmt.signed, if_true]
    rw [Nat.add_mod, show 2 ^ (f.w - 1) % 2 = 0 from Nat.mod_eq_zero_of_dvd (dvd_pow_self 2 (by omega))]
    simp

/-- A magnitude whose encoding is finite rounds to it (R95). -/
theorem FFmt.roundsReal_encoded (hf : f.Regular) (rm : RM) (neg : Bool) (h : g.Holds x) (hm : g.m ≠ 0) (hs : f.Enough g)
    (hmax : f.encoded rm neg g ≤ f.maxEnc) :
    RoundsReal f rm (sgn neg * x) (f.signed neg (f.encoded rm neg g)) (g.roundAt rm neg (f.unit g)).2 := by
  obtain ⟨made, inex⟩ := Mag.roundAt_roundsInt h rm neg (hs.unit_le hf.bits (f.freeUnit_le_unit g))
  obtain ⟨value, parity⟩ := FFmt.units_encoded hf.bits rm neg h hm hs
  obtain ⟨-, low⟩ := FFmt.unit_bounds hf.bits h hm
  obtain ⟨v, hv, exact_⟩ := ratOf_decode_signed hf hmax neg
  have unit : (0 : ℝ) < 2 ^ f.unit g := by positivity
  rw [value] at exact_
  refine ⟨v, hv, ?_, fun z w hw => ?_⟩
  · rw [inex, exact_, ne_eq, ne_eq, sgn_mul_inj, div_eq_iff unit.ne', eq_comm]
  · have grid := onGrid_mag hf.bits (FFmt.spacing_le_unit hf.bits g) low (neg ^^ z.testBit (f.w - 1)) (z % 2 ^ (f.w - 1))
    have pick := (picks_of_roundsInt (even := f.signed neg (f.encoded rm neg g) % 2 = 0) made (div_pos (Mag.holds_pos h hm) unit).le grid
      (by rw [FFmt.signed_mod_two hf.wide, parity]; exact id)).scale unit
    rw [ratOf_decode hw, exact_]
    have cancel : ∀ a : ℝ, sgn neg * (a / 2 ^ f.unit g) * 2 ^ f.unit g = sgn neg * a := fun a => by field_simp
    have signs : sgn neg * (sgn (neg ^^ z.testBit (f.w - 1)) * f.mag (z % 2 ^ (f.w - 1))) =
        sgn (z.testBit (f.w - 1)) * f.mag (z % 2 ^ (f.w - 1)) := by
      cases neg <;> cases z.testBit (f.w - 1) <;> simp [sgn]
    rwa [cancel, cancel, signs, mul_assoc] at pick

/-- A magnitude whose encoding is not finite lies above the largest finite one (R97). -/
theorem FFmt.mag_maxEnc_lt (hp : 2 ≤ f.p) (rm : RM) (neg : Bool) (h : g.Holds x) (hm : g.m ≠ 0) (hs : f.Enough g)
    (hmax : f.maxEnc < f.encoded rm neg g) : f.mag f.maxEnc < x := by
  obtain ⟨made, -⟩ := Mag.roundAt_roundsInt h rm neg (hs.unit_le hp (f.freeUnit_le_unit g))
  obtain ⟨value, -⟩ := FFmt.units_encoded hp rm neg h hm hs
  obtain ⟨-, low⟩ := FFmt.unit_bounds hp h hm
  have unit : (0 : ℝ) < 2 ^ f.unit g := by positivity
  have grid := onGrid_mag hp (FFmt.spacing_le_unit hp g) low false f.maxEnc
  simp only [sgn, Bool.false_eq_true, if_false, one_mul] at grid
  have rises : f.mag f.maxEnc < f.mag (f.encoded rm neg g) := by
    have := FFmt.units_strictMono hp hmax
    exact mul_lt_mul_of_pos_right (by exact_mod_cast this) (by positivity)
  rw [value, ← div_lt_iff₀ unit] at rises
  by_contra le
  have := grid.ceil_le made.1 ((div_le_div_iff_of_pos_right unit).2 (not_lt.1 le))
  linarith

/-- Rounding a magnitude: OVF and INX with the result of R97 above the largest finite value, else the value that the mode picks, with INX where it
is another (R95, R97, R99). -/
theorem FFmt.roundMag_spec (hf : f.Regular) (rm : RM) (neg : Bool) (h : g.Holds x) (hm : g.m ≠ 0) (hs : f.Enough g) :
    if (f.roundMag rm neg g).2.getLsbD 2 then
      f.mag f.maxEnc < x ∧ (f.roundMag rm neg g).2.getLsbD 4 = true ∧ (f.roundMag rm neg g).1 = f.overflow rm neg
    else RoundsReal f rm (sgn neg * x) (f.roundMag rm neg g).1 ((f.roundMag rm neg g).2.getLsbD 4) := by
  rw [FFmt.roundMag_eq]
  by_cases more : f.encoded rm neg g > f.maxEnc
  · obtain ⟨-, -, ovf, inx⟩ := overflowFlags_bits
    rw [if_pos more, if_pos ovf]
    exact ⟨FFmt.mag_maxEnc_lt hf.bits rm neg h hm hs more, inx, rfl⟩
  · obtain ⟨-, -, ovf, inx⟩ := roundFlags_bits (g.roundAt rm neg (f.unit g)).2 (f.tiny rm neg g)
    rw [if_neg more, if_neg (by rw [ovf]; exact Bool.false_ne_true), inx]
    exact FFmt.roundsReal_encoded hf rm neg h hm hs (Nat.not_lt.1 more)

end

end Sys2Proof
end

section
/-!
SUPPORT. Rounding of finite values, in the terms of the statements (04 R94, R95, R97, R99).
-/

namespace Sys2Proof

open Claims

section
variable {f : FFmt} {rm : RM} {y : Nat} {inx : Bool}

/-- What the mode picks of a rational number. -/
theorem RoundsReal.roundsTo {x : ℚ} (h : RoundsReal f rm (x : ℝ) y inx) : RoundsTo f rm x y inx := by
  obtain ⟨v, hv, inexact, picks⟩ := h
  refine ⟨v, hv, by exact_mod_cast inexact, fun z w _ hw => ?_⟩
  have pick := picks z w hw
  rcases rm with (_ | _ | _ | _ | _) | _
  all_goals
    simp only [Picks] at pick
    exact_mod_cast pick

/-! ### Roots -/

section
variable {v w r : ℝ}

/-- A value is nearer than a lesser one where the number is not below their middle. -/
theorem dist_le_dist_of_lt (h : w < v) : |v - r| ≤ |w - r| ↔ v + w ≤ 2 * r := by
  rw [← sq_le_sq]
  constructor <;> intro le <;> nlinarith

/-- A value is nearer than a greater one where the number is not above their middle. -/
theorem dist_le_dist_of_gt (h : v < w) : |v - r| ≤ |w - r| ↔ 2 * r ≤ v + w := by
  rw [← sq_le_sq]
  constructor <;> intro le <;> nlinarith

/-- Two values are as near where the number is their middle. -/
theorem dist_eq_dist_of_ne (h : w ≠ v) : |w - r| = |v - r| ↔ v + w = 2 * r := by
  rcases lt_or_gt_of_ne h with lt | gt
  · rw [le_antisymm_iff, dist_le_dist_of_lt lt, dist_le_dist_of_gt lt, add_comm w, le_antisymm_iff, and_comm]
  · rw [le_antisymm_iff, dist_le_dist_of_lt gt, dist_le_dist_of_gt gt, add_comm w, le_antisymm_iff]

end

section
variable {x a : ℚ}

theorem cast_le_sqrt_iff (hx : 0 ≤ x) (ha : 0 ≤ a) : (a : ℝ) ≤ √(x : ℝ) ↔ a * a ≤ x := by
  rw [Real.le_sqrt (by exact_mod_cast ha) (by exact_mod_cast hx), sq]
  exact_mod_cast Iff.rfl

theorem sqrt_le_cast_iff (ha : 0 ≤ a) : √(x : ℝ) ≤ a ↔ x ≤ a * a := by
  have ha' : (0 : ℝ) ≤ a := by exact_mod_cast ha
  rw [Real.sqrt_le_iff, sq, and_iff_right ha']
  exact_mod_cast Iff.rfl

theorem cast_le_two_sqrt_iff (hx : 0 ≤ x) (ha : 0 ≤ a) : (a : ℝ) ≤ 2 * √(x : ℝ) ↔ a ^ 2 ≤ 4 * x := by
  have half := cast_le_sqrt_iff hx (div_nonneg ha two_pos.le)
  push_cast at half
  rw [← div_le_iff₀' two_pos, half]
  constructor <;> intro h <;> linarith

theorem two_sqrt_le_cast_iff (ha : 0 ≤ a) : 2 * √(x : ℝ) ≤ a ↔ 4 * x ≤ a ^ 2 := by
  have half := sqrt_le_cast_iff (x := x) (div_nonneg ha two_pos.le)
  push_cast at half
  rw [← le_div_iff₀' two_pos, half]
  constructor <;> intro h <;> linarith

end

/-- What the mode picks of the square root of a rational number, compared by squares. -/
theorem RoundsReal.rootRoundsTo {x : ℚ} (h : RoundsReal f rm (√(x : ℝ)) y inx) (hx : 0 ≤ x)
    (nonneg : ∀ v : ℚ, ratOf (f.decode y) = some v → 0 ≤ v) : RootRoundsTo f rm x y inx := by
  obtain ⟨v, hv, inexact, picks⟩ := h
  have hv0 := nonneg v hv
  have below := cast_le_sqrt_iff hx hv0
  have above := sqrt_le_cast_iff (x := x) hv0
  refine ⟨v, hv, hv0, ?_, fun z w _ hw hw0 => ?_⟩
  · rw [inexact, ne_eq, ne_eq, le_antisymm_iff, below, above, ← le_antisymm_iff]
  have pick := picks z w hw
  have belowW := cast_le_sqrt_iff hx hw0
  have aboveW := sqrt_le_cast_iff (x := x) hw0
  have belowMid := cast_le_two_sqrt_iff hx (add_nonneg hv0 hw0)
  have aboveMid := two_sqrt_le_cast_iff (x := x) (add_nonneg hv0 hw0)
  have low : w < v → |(v : ℝ) - √(x : ℝ)| ≤ |(w : ℝ) - √(x : ℝ)| → (v + w) ^ 2 ≤ 4 * x := fun lt le => by
    rw [dist_le_dist_of_lt (by exact_mod_cast lt)] at le
    exact belowMid.1 (by exact_mod_cast le)
  have high : v < w → |(v : ℝ) - √(x : ℝ)| ≤ |(w : ℝ) - √(x : ℝ)| → 4 * x ≤ (v + w) ^ 2 := fun gt le => by
    rw [dist_le_dist_of_gt (by exact_mod_cast gt)] at le
    exact aboveMid.1 (by exact_mod_cast le)
  have tie : w ≠ v → (v + w) ^ 2 = 4 * x → |(w : ℝ) - √(x : ℝ)| = |(v : ℝ) - √(x : ℝ)| := fun ne e => by
    rw [dist_eq_dist_of_ne (by exact_mod_cast ne)]
    have := le_antisymm (belowMid.2 e.le) (aboveMid.2 e.ge)
    exact_mod_cast this
  rcases rm with (_ | _ | _ | _ | _) | _
  case mode.rd => exact ⟨below.1 pick.1, fun le => by exact_mod_cast pick.2 (belowW.2 le)⟩
  case mode.ru => exact ⟨above.1 pick.1, fun le => by exact_mod_cast pick.2 (aboveW.2 le)⟩
  case mode.rz =>
    have size : ∀ a : ℚ, 0 ≤ a → |(a : ℝ)| = a := fun a ha => abs_of_nonneg (by exact_mod_cast ha)
    simp only [Picks, size v hv0, size w hw0, abs_of_nonneg (Real.sqrt_nonneg (x : ℝ))] at pick
    exact ⟨below.1 pick.1, fun le => by exact_mod_cast pick.2 (belowW.2 le)⟩
  case mode.rn => exact ⟨fun lt => low lt pick.1, fun gt => high gt pick.1, fun ne e => pick.2 (by exact_mod_cast ne) (tie ne e)⟩
  case mode.ra =>
    refine ⟨fun lt => low lt pick.1, fun gt => lt_of_le_of_ne (high gt pick.1) fun e => absurd gt (not_lt.2 ?_)⟩
    have nearer := pick.2 (by exact_mod_cast gt.ne') (tie gt.ne' e.symm)
    have : |w| ≤ |v| := by exact_mod_cast nearer
    rwa [abs_of_nonneg hw0, abs_of_nonneg hv0] at this
  case sr =>
    refine ⟨fun lt => lt_of_not_ge fun le => lt.ne ?_, fun gt => lt_of_not_ge fun le => gt.ne' ?_⟩
    · have := pick (min_le_of_right_le (aboveW.2 le)) (le_max_of_le_left (by exact_mod_cast lt.le))
      exact_mod_cast this
    · have := pick (min_le_of_left_le (by exact_mod_cast gt.le)) (le_max_of_le_right (belowW.2 le))
      exact_mod_cast this

end

/-! ### Rounding a finite value -/

/-- What an overflow gives, as R97 tables it. -/
theorem FFmt.overflow_eq (f : FFmt) (rm : RM) (neg : Bool) : f.overflow rm neg =
    (if neg then 2 ^ (f.w - 1) else 0) +
      match rm with
      | .mode .rz => f.maxEnc
      | .mode .ru => if neg then f.maxEnc else f.infEnc.getD f.maxEnc
      | .mode .rd => if neg then f.infEnc.getD f.maxEnc else f.maxEnc
      | _ => f.infEnc.getD f.maxEnc := by
  unfold FFmt.overflow FFmt.signed
  rcases rm with (_ | _ | _ | _ | _) | _ <;> cases neg <;> simp [add_comm]

/-- A finite value's number. -/
theorem cast_ratOf_fin (s : Bool) (m : Nat) (e : Int) :
    (((if s then -1 else 1) * m * (2 : ℚ) ^ e : ℚ) : ℝ) = sgn s * (m * 2 ^ e) := by
  cases s <;> simp [sgn]

/-- Rounding a finite value that is not zero rounds its magnitude. -/
theorem FFmt.round_fin (f : FFmt) (rm : RM) (s : Bool) {m : Nat} (e : Int) (hm : m ≠ 0) :
    f.round rm (.fin s m e) = f.roundMag rm s ⟨m, e, false⟩ := if_neg hm

end Sys2Proof

namespace Sys2Proof.Claims

/-- In each format a finite value rounds as its magnitude does. -/
theorem roundingPicksTheModesNeighbour : RoundingPicksTheModesNeighbour := by
  intro f hf rm neg m e hm x y
  have regular := regular_of_mem hf
  have spec := FFmt.roundMag_spec regular rm neg (Mag.holds_exact m e) hm (fun sticky => absurd sticky Bool.false_ne_true)
  have value : (x : ℝ) = sgn neg * (m * 2 ^ e) := cast_ratOf_fin neg m e
  have rounded : y = f.roundMag rm neg ⟨m, e, false⟩ := f.round_fin rm neg e hm
  rw [← rounded] at spec
  split
  case isTrue ovf =>
    rw [if_pos ovf] at spec
    obtain ⟨large, inx, result⟩ := spec
    obtain ⟨big, hbig, size⟩ := ratOf_decode_signed regular le_rfl false
    refine ⟨⟨big, hbig, ?_⟩, inx, result.trans (f.overflow_eq rm neg)⟩
    have size' : (big : ℝ) = f.mag f.maxEnc := by simpa [sgn] using size
    have pos : (0 : ℝ) ≤ m * 2 ^ e := by positivity
    have : (big : ℝ) < |(x : ℝ)| := by rwa [value, abs_sgn_mul, abs_of_nonneg pos, size']
    exact_mod_cast this
  case isFalse fits =>
    rw [if_neg fits, ← value] at spec
    exact spec.roundsTo

end Sys2Proof.Claims
end

section
/-!
SUPPORT. Exact operations on finite values (04 R112): sums, products and comparisons as those of rational numbers.
-/

namespace Sys2Proof

open Claims

section
variable (s t : Bool) (m n : Nat) (e g : Int)

/-- The rational that a finite value is. -/
def finRat : ℚ := (if s then -1 else 1) * m * (2 : ℚ) ^ e

theorem ratOf_fin : ratOf (.fin s m e) = some (finRat s m e) := rfl

theorem finRat_zero : finRat s 0 e = 0 := by simp [finRat]

/-- A significand at a lesser exponent stands for the same number. -/
theorem cast_scaled {q : Int} (h : q ≤ e) : ((Sys2Proof.scaled s m e q : Int) : ℚ) * 2 ^ q = finRat s m e := by
  have lift : (2 : ℚ) ^ e = 2 ^ (e - q).toNat * 2 ^ q := by
    rw [← zpow_natCast, ← zpow_add₀ two_ne_zero]
    congr 1
    omega
  unfold Sys2Proof.scaled finRat
  rw [lift]
  cases s
  · simp only [Bool.false_eq_true, if_false]
    push_cast
    ring
  · simp only [if_true]
    push_cast
    ring

/-- A signed integer at a weight, as a finite value. -/
theorem ratOf_ofSum (k : Int) (z : Bool) : ratOf (FVal.ofSum k e z) = some ((k : ℚ) * 2 ^ e) := by
  unfold FVal.ofSum
  split
  case isTrue none => simp [none, ratOf]
  case isFalse some_ =>
    have size : (k.natAbs : ℚ) = ((|k| : Int) : ℚ) := Nat.cast_natAbs k
    rw [ratOf_fin, finRat, size]
    rcases lt_or_gt_of_ne some_ with neg | pos
    · simp [neg, abs_of_neg neg]
    · simp [not_lt.2 pos.le, abs_of_pos pos]

/-- A sum of finite values is exact. -/
theorem ratOf_add (rd : Bool) : ((FVal.fin s m e).add rd (.fin t n g)).2 = false ∧
    ratOf ((FVal.fin s m e).add rd (.fin t n g)).1 = some (finRat s m e + finRat t n g) := by
  unfold FVal.add
  by_cases hm : m = 0
  · by_cases hn : n = 0
    · simp [hm, hn, ratOf_fin, finRat_zero]
    · simp [hm, hn, ratOf_fin, finRat_zero]
  · by_cases hn : n = 0
    · simp [hm, hn, ratOf_fin, finRat_zero]
    · simp only [hm, hn, false_and, if_false]
      rw [ratOf_ofSum, ← cast_scaled s m e (min_le_left e g), ← cast_scaled t n g (min_le_right e g), ← add_mul]
      exact ⟨trivial, by push_cast; rfl⟩

/-- A product of finite values is exact. -/
theorem ratOf_mul : ((FVal.fin s m e).mul (.fin t n g)).2 = false ∧
    ratOf ((FVal.fin s m e).mul (.fin t n g)).1 = some (finRat s m e * finRat t n g) := by
  refine ⟨rfl, ?_⟩
  change ratOf (.fin (s != t) (m * n) (e + g)) = _
  rw [ratOf_fin, finRat, finRat, finRat, zpow_add₀ two_ne_zero]
  cases s <;> cases t <;> (simp; ring)

/-- The numerical order of finite values. -/
theorem cmp_fin : ((FVal.fin s m e).cmp (.fin t n g) < 0 ↔ finRat s m e < finRat t n g) ∧
    ((FVal.fin s m e).cmp (.fin t n g) = 0 ↔ finRat s m e = finRat t n g) := by
  have unit : (0 : ℚ) < 2 ^ min e g := by positivity
  rw [← cast_scaled s m e (min_le_left e g), ← cast_scaled t n g (min_le_right e g), mul_lt_mul_iff_left₀ unit, mul_left_inj' unit.ne',
    Int.cast_lt, Int.cast_inj]
  unfold FVal.cmp
  dsimp only
  generalize Sys2Proof.scaled s m e (min e g) = u
  generalize Sys2Proof.scaled t n g (min e g) = v
  rcases lt_trichotomy u v with lt | eq | gt
  · simp [lt, lt.ne]
  · simp [eq]
  · simp [gt.ne', not_lt.2 gt.le]

end

end Sys2Proof
end

section
/-!
SUPPORT. Quotients, roots and integral values (08 R197, R201, R208): the magnitudes that FDIV, FRCP and FSQRT round stand for the exact ones.
-/

namespace Sys2Proof

open Claims Machine

/-! ### Quotients -/

/-- The magnitude of a quotient stands for it. -/
theorem magDiv_holds (m : Nat) (e : Int) {n : Nat} (hn : n ≠ 0) (d : Int) (k : Nat) :
    (magDiv m e n d k).Holds (m * 2 ^ e / (n * 2 ^ d)) := by
  have pos : (0 : ℝ) < n := by exact_mod_cast Nat.pos_of_ne_zero hn
  obtain ⟨sh, hsh⟩ : ∃ sh, sh = k + Nat.log2 n + 1 := ⟨_, rfl⟩
  have unit : (0 : ℝ) < 2 ^ (e - d - sh) := by positivity
  have value : (m : ℝ) * 2 ^ e / (n * 2 ^ d) = (m * 2 ^ sh : Nat) / n * 2 ^ (e - d - sh) := by
    rw [zpow_sub₀ two_ne_zero, zpow_sub₀ two_ne_zero, zpow_natCast]
    push_cast
    field_simp
  have split : ((m * 2 ^ sh : Nat) : ℝ) = n * (m * 2 ^ sh / n : Nat) + (m * 2 ^ sh % n : Nat) := by
    exact_mod_cast (Nat.div_add_mod (m * 2 ^ sh) n).symm
  have rest : ((m * 2 ^ sh % n : Nat) : ℝ) < n := by exact_mod_cast Nat.mod_lt _ (Nat.pos_of_ne_zero hn)
  have whole : magDiv m e n d k = ⟨m * 2 ^ sh / n, e - d - sh, decide (m * 2 ^ sh % n ≠ 0)⟩ := by rw [hsh]; rfl
  rw [value, whole]
  by_cases exact_ : m * 2 ^ sh % n = 0
  · simp only [Mag.Holds, exact_, ne_eq, not_true_eq_false, decide_false, Bool.false_eq_true, if_false]
    rw [split, exact_]
    field_simp
    simp
  · have some_ : (0 : ℝ) < (m * 2 ^ sh % n : Nat) := by exact_mod_cast Nat.pos_of_ne_zero exact_
    simp only [Mag.Holds, exact_, ne_eq, not_false_eq_true, decide_true, if_true, mul_lt_mul_iff_left₀ unit]
    rw [lt_div_iff₀ pos, div_lt_iff₀ pos, split]
    constructor <;> nlinarith

/-- The magnitude of a quotient has the bits it is asked for. -/
theorem le_log2_magDiv {m : Nat} (hm : m ≠ 0) (e : Int) {n : Nat} (hn : n ≠ 0) (d : Int) (k : Nat) : k ≤ Nat.log2 (magDiv m e n d k).m := by
  have many : 2 ^ k ≤ (magDiv m e n d k).m := by
    change 2 ^ k ≤ m * 2 ^ (k + Nat.log2 n + 1) / n
    rw [Nat.le_div_iff_mul_le (Nat.pos_of_ne_zero hn)]
    calc
      2 ^ k * n ≤ 2 ^ k * 2 ^ (Nat.log2 n + 1) := Nat.mul_le_mul_left _ Nat.lt_log2_self.le
      _ = 1 * 2 ^ (k + Nat.log2 n + 1) := by ring
      _ ≤ m * 2 ^ (k + Nat.log2 n + 1) := Nat.mul_le_mul_right _ (Nat.pos_of_ne_zero hm)
  exact (Nat.le_log2 (by have := Nat.two_pow_pos k; omega)).2 many

/-! ### Roots -/

/-- Each step of the root by bits keeps it the greatest so far. -/
theorem isqrtGo_spec (k x r : Nat) (low : r * r ≤ x) (high : x < (r + 2 ^ k) * (r + 2 ^ k)) :
    isqrtGo k x r * isqrtGo k x r ≤ x ∧ x < (isqrtGo k x r + 1) * (isqrtGo k x r + 1) := by
  induction k generalizing r with
  | zero => exact ⟨low, by simpa [isqrtGo] using high⟩
  | succ k ih =>
    have double : r + 2 ^ (k + 1) = r + 2 ^ k + 2 ^ k := by ring
    unfold isqrtGo
    dsimp only
    split
    case isTrue fits => exact ih _ fits (double ▸ high)
    case isFalse large => exact ih _ low (not_le.1 large)

/-- The integer square root. -/
theorem isqrt_spec (x : Nat) : isqrt x * isqrt x ≤ x ∧ x < (isqrt x + 1) * (isqrt x + 1) := by
  refine isqrtGo_spec _ x 0 (Nat.zero_le _) ?_
  rw [zero_add, ← pow_add]
  exact Nat.lt_log2_self.trans_le (Nat.pow_le_pow_right (by decide) (by omega))

/-- The magnitude of a root stands for it. -/
theorem magSqrt_holds (m : Nat) (e : Int) (k : Nat) : (magSqrt m e k).Holds (√(m * 2 ^ e)) := by
  obtain ⟨sh, hsh⟩ : ∃ sh, sh = 2 * k + (if e % 2 = 0 then 0 else 1) := ⟨_, rfl⟩
  obtain ⟨h, hh⟩ : ∃ h : Int, e - sh = 2 * h := ⟨(e - sh) / 2, by split at hsh <;> omega⟩
  obtain ⟨low, high⟩ := isqrt_spec (m * 2 ^ sh)
  have unit : (0 : ℝ) < 2 ^ h := by positivity
  have value : √((m : ℝ) * 2 ^ e) = √((m * 2 ^ sh : Nat) : ℝ) * 2 ^ h := by
    have square : (m : ℝ) * 2 ^ e = (m * 2 ^ sh : Nat) * (2 ^ h * 2 ^ h) := by
      rw [← zpow_add₀ two_ne_zero, show h + h = e - sh by omega, zpow_sub₀ two_ne_zero, zpow_natCast]
      push_cast
      field_simp
    rw [square, Real.sqrt_mul (Nat.cast_nonneg _), Real.sqrt_mul_self unit.le]
  have whole : magSqrt m e k = ⟨isqrt (m * 2 ^ sh), h, decide (isqrt (m * 2 ^ sh) * isqrt (m * 2 ^ sh) ≠ m * 2 ^ sh)⟩ := by
    rw [show h = (e - sh) / 2 by omega, hsh]
    rfl
  rw [value, whole]
  generalize m * 2 ^ sh = x at low high
  by_cases exact_ : isqrt x * isqrt x = x
  · simp only [Mag.Holds, exact_, ne_eq, not_true_eq_false, decide_false, Bool.false_eq_true, if_false]
    have : (x : ℝ) = isqrt x * isqrt x := by exact_mod_cast exact_.symm
    rw [this, Real.sqrt_mul_self (Nat.cast_nonneg _)]
  · simp only [Mag.Holds, exact_, ne_eq, not_false_eq_true, decide_true, if_true, mul_lt_mul_iff_left₀ unit]
    rw [Real.lt_sqrt (Nat.cast_nonneg _), Real.sqrt_lt' (by positivity), sq, sq]
    have low' : isqrt x * isqrt x < x := lt_of_le_of_ne low exact_
    exact ⟨by exact_mod_cast low', by exact_mod_cast high⟩

/-- The magnitude of a root has the bits it is asked for. -/
theorem le_log2_magSqrt {m : Nat} (hm : m ≠ 0) (e : Int) (k : Nat) : k ≤ Nat.log2 (magSqrt m e k).m := by
  have many : 2 ^ k ≤ (magSqrt m e k).m := by
    change 2 ^ k ≤ isqrt (m * 2 ^ (2 * k + (if e % 2 = 0 then 0 else 1)))
    generalize hx : m * 2 ^ (2 * k + (if e % 2 = 0 then 0 else 1)) = x
    obtain ⟨-, high⟩ := isqrt_spec x
    have large : 2 ^ k * 2 ^ k ≤ x := calc
      2 ^ k * 2 ^ k = 1 * 2 ^ (2 * k) := by ring
      _ ≤ m * 2 ^ (2 * k + (if e % 2 = 0 then 0 else 1)) :=
        Nat.mul_le_mul (Nat.pos_of_ne_zero hm) (Nat.pow_le_pow_right (by decide) (by omega))
      _ = x := hx
    exact Nat.lt_succ_iff.1 (Nat.mul_self_lt_mul_self_iff.1 (large.trans_lt high))
  exact (Nat.le_log2 (by have := Nat.two_pow_pos k; omega)).2 many

end Sys2Proof
end

section
/-!
SUPPORT and the settlement of O12: FDIV, FRCP, FSQRT and FRND round the exact result, and FSCALE beyond 600 either way rounds as the exact product
does (08 R201, R202, R208, R209).
-/

namespace Sys2Proof

open Claims Machine

theorem fp32_regular : fp32.Regular := regular_of_mem (by simp [fpFormats])

section
variable {g : Mag} {x : ℝ}

theorem roundSigned_eq (f : FFmt) (rm : RM) (neg : Bool) (hm : g.m ≠ 0) : roundSigned f rm neg g = f.roundMag rm neg g :=
  if_neg fun h => hm h.1

theorem ne_zero_of_many (many : tailBits ≤ Nat.log2 g.m) : g.m ≠ 0 := by
  intro e
  simp [e, tailBits] at many

/-- A magnitude with the bits that the FMA pipe keeps of a quotient or a root rounds as every number that it stands for. -/
theorem roundSigned_fp32 (rm : RM) (neg : Bool) (h : g.Holds x) (many : tailBits ≤ Nat.log2 g.m) :
    ((roundSigned fp32 rm neg g).2.getLsbD 2 = false →
      RoundsReal fp32 rm (sgn neg * x) (roundSigned fp32 rm neg g).1 ((roundSigned fp32 rm neg g).2.getLsbD 4)) ∧
    (roundSigned fp32 rm neg g).2.getLsbD 0 = false ∧ (roundSigned fp32 rm neg g).2.getLsbD 1 = false := by
  have hm := ne_zero_of_many many
  rw [roundSigned_eq fp32 rm neg hm]
  refine ⟨fun fits => ?_, FFmt.roundMag_quiet fp32 rm neg g⟩
  have spec := FFmt.roundMag_spec fp32_regular rm neg h hm (fun _ => le_trans (by decide) many)
  rwa [if_neg (by rw [fits]; exact Bool.false_ne_true)] at spec

/-- A rounded magnitude without a sign is not negative. -/
theorem roundMag_nonneg {f : FFmt} (hf : f.Regular) {rm : RM} (fits : (f.roundMag rm false g).2.getLsbD 2 = false) {v : ℚ}
    (hv : ratOf (f.decode (f.roundMag rm false g).1) = some v) : 0 ≤ v := by
  rw [FFmt.roundMag_eq] at fits hv
  by_cases more : f.encoded rm false g > f.maxEnc
  · rw [if_pos more, overflowFlags_bits.2.2.1] at fits
    cases fits
  · rw [if_neg more] at hv
    obtain ⟨u, hu, value⟩ := ratOf_decode_signed hf (Nat.not_lt.1 more) false
    obtain rfl : u = v := Option.some.inj (hu.symm.trans hv)
    have : (0 : ℝ) ≤ u := by
      rw [value, FFmt.mag]
      simp only [sgn, Bool.false_eq_true, if_false]
      positivity
    exact_mod_cast this

end

/-- A quotient of finite values has the quotient of their magnitudes. -/
theorem cast_finRat_div (s t : Bool) (m n : Nat) (e g : Int) :
    ((finRat s m e / finRat t n g : ℚ) : ℝ) = sgn (s != t) * (m * 2 ^ e / (n * 2 ^ g)) := by
  have left : ((finRat s m e : ℚ) : ℝ) = sgn s * (m * 2 ^ e) := cast_ratOf_fin s m e
  have right : ((finRat t n g : ℚ) : ℝ) = sgn t * (n * 2 ^ g) := cast_ratOf_fin t n g
  rw [Rat.cast_div, left, right]
  cases s <;> cases t <;> simp [sgn, neg_div, div_neg]

/-- The quotient that FDIV and FRCP round. -/
theorem roundSigned_quotient (rm : RM) (s t : Bool) {m n : Nat} (e g : Int) (hm : m ≠ 0) (hn : n ≠ 0) :
    ((roundSigned fp32 rm (s != t) (magDiv m e n g tailBits)).2.getLsbD 2 = false →
      RoundsTo fp32 rm (finRat s m e / finRat t n g) (roundSigned fp32 rm (s != t) (magDiv m e n g tailBits)).1
        ((roundSigned fp32 rm (s != t) (magDiv m e n g tailBits)).2.getLsbD 4)) ∧
    (roundSigned fp32 rm (s != t) (magDiv m e n g tailBits)).2.getLsbD 0 = false ∧
    (roundSigned fp32 rm (s != t) (magDiv m e n g tailBits)).2.getLsbD 1 = false := by
  obtain ⟨value, quiet⟩ := roundSigned_fp32 rm (s != t) (magDiv_holds m e hn g tailBits) (le_log2_magDiv hm e hn g tailBits)
  rw [← cast_finRat_div] at value
  exact ⟨fun fits => (value fits).roundsTo, quiet⟩

/-- The reciprocal of a value that is not zero is the quotient of one by it. -/
theorem rcpF_fin (t : Bool) {n : Nat} (g : Int) (hn : n ≠ 0) : rcpF (.fin t n g) =
    { LaneRes.value (roundSigned fp32 (.mode .rn) (false != t) (magDiv 1 0 n g tailBits)).1 with
      fl := (roundSigned fp32 (.mode .rn) (false != t) (magDiv 1 0 n g tailBits)).2 } := by
  rw [Bool.false_bne]
  exact if_neg hn

theorem finRat_one : finRat false 1 0 = 1 := by simp [finRat]

/-- The root of a value above zero. -/
theorem sqrtF_fin (rm : RM) {m : Nat} (e : Int) (hm : m ≠ 0) : sqrtF rm (.fin false m e) =
    { LaneRes.value (roundSigned fp32 rm false (magSqrt m e tailBits)).1 with
      fl := (roundSigned fp32 rm false (magSqrt m e tailBits)).2 } :=
  if_neg hm

/-- The root that FSQRT rounds. -/
theorem roundSigned_root (rm : RM) {m : Nat} (e : Int) (hm : m ≠ 0)
    (fits : (roundSigned fp32 rm false (magSqrt m e tailBits)).2.getLsbD 2 = false) :
    RootRoundsTo fp32 rm (finRat false m e) (roundSigned fp32 rm false (magSqrt m e tailBits)).1
      ((roundSigned fp32 rm false (magSqrt m e tailBits)).2.getLsbD 4) := by
  have many := le_log2_magSqrt hm e tailBits
  have value : ((finRat false m e : ℚ) : ℝ) = m * 2 ^ e := (cast_ratOf_fin false m e).trans (one_mul _)
  have nonneg : 0 ≤ finRat false m e := by
    simp only [finRat, Bool.false_eq_true, if_false]
    positivity
  obtain ⟨picks, -⟩ := roundSigned_fp32 rm false (magSqrt_holds m e tailBits) many
  have round := picks fits
  rw [show sgn false * √((m : ℝ) * 2 ^ e) = √((finRat false m e : ℚ) : ℝ) by rw [value]; exact one_mul _] at round
  refine round.rootRoundsTo nonneg fun v hv => ?_
  rw [roundSigned_eq fp32 rm false (ne_zero_of_many many)] at fits hv
  exact roundMag_nonneg fp32_regular fits hv

/-- FRND gives the integer that the mode makes of the magnitude. -/
theorem rndF_integral (rm : RM) (s : Bool) {m : Nat} (e : Int) (hm : m ≠ 0) :
    ∃ n : Nat, IntegralOf rm s (m * (2 : ℚ) ^ e) n ∧ rndF rm (.fin s m e) = (fp32.round (.mode .rn) (.fin s n 0)).1 := by
  obtain ⟨made, -⟩ := Mag.roundAt_roundsInt (Mag.holds_exact m e) rm s (q := 0) (fun h => absurd h Bool.false_ne_true)
  refine ⟨_, RoundsInt.integralOf ?_, if_neg hm⟩
  rw [zpow_zero, div_one] at made
  push_cast
  exact made

/-! ### Scaling (R209) -/

section
variable {m : Nat} {e : Int}

/-- Without a tail a magnitude has the bits that any rounding needs. -/
theorem enough_exact (f : FFmt) (m : Nat) (e : Int) : f.Enough ⟨m, e, false⟩ := fun h => absurd h Bool.false_ne_true

/-- A magnitude from 2^128 on overflows FP32. -/
theorem roundMag_fp32_of_large (rm : RM) (neg : Bool) (hm : m ≠ 0) (large : 128 ≤ (Mag.mk m e false).binade) :
    fp32.roundMag rm neg ⟨m, e, false⟩ = (fp32.overflow rm neg, flOvf ||| flInx) := by
  have free : 105 ≤ fp32.freeUnit ⟨m, e, false⟩ := by
    unfold FFmt.freeUnit
    simp only [fp32]
    omega
  have unit := fp32.freeUnit_le_unit ⟨m, e, false⟩
  have normal : 2 ^ 23 ≤ ((Mag.mk m e false).roundAt rm neg (fp32.unit ⟨m, e, false⟩)).1 := by
    obtain ⟨made, -⟩ := Mag.roundAt_roundsInt (Mag.holds_exact m e) rm neg
      ((enough_exact fp32 m e).unit_le fp32_regular.bits unit)
    obtain ⟨-, sub | full⟩ := FFmt.unit_bounds fp32_regular.bits (Mag.holds_exact m e) hm
    · have spacing : fp32.spacing = -149 := rfl
      omega
    · exact made.pow_le full
  rw [FFmt.roundMag_eq, if_pos]
  rw [FFmt.encoded, if_neg (by omega), FFmt.encode]
  simp only [fp32] at *
  omega

/-- Whether the mode takes the least magnitudes away from zero. -/
def leastUp (rm : RM) (neg : Bool) : Bool :=
  match rm with
  | .mode .ru => !neg
  | .mode .rd => neg
  | _ => false

/-- A magnitude far below the unit rounds to one or none of it, by its sign and the mode alone. -/
theorem roundAt_of_small (rm : RM) (neg : Bool) {q : Int} (hm : m ≠ 0) (small : (Mag.mk m e false).binade + 17 < q) :
    (Mag.mk m e false).roundAt rm neg q = (if leastUp rm neg then 1 else 0, true) := by
  have low : e + Nat.log2 m + 17 < q := small
  obtain ⟨d, hd⟩ : ∃ d : Nat, q - e = ((d + 17 : Nat) : Int) := ⟨(q - e - 17).toNat, by omega⟩
  have size : m < 2 ^ d := Nat.lt_log2_self.trans_le (Nat.pow_le_pow_right (by decide) (by omega))
  have few : m * 65536 < 2 ^ (d + 16) := by
    rw [pow_add]
    exact Nat.mul_lt_mul_of_pos_right size (by decide)
  have half : m < 2 ^ (d + 16) := by omega
  have full : 2 ^ (d + 17) = 2 * 2 ^ (d + 16) := by ring
  have below : (Mag.mk m e false).below q 17 = ⟨m, e, false⟩ := if_pos (by dsimp only; push_cast; omega)
  rw [Mag.roundAt_eq, below]
  dsimp only
  rw [hd, Int.toNat_natCast]
  have none : m / 2 ^ (d + 17) = 0 := Nat.div_eq_of_lt (by omega)
  have rest : m % 2 ^ (d + 17) = m := Nat.mod_eq_of_lt (by omega)
  have up : goesUp rm neg false 0 m (d + 17) = leastUp rm neg := by
    have less : ¬m > 2 ^ (d + 16) := by omega
    have other : m ≠ 2 ^ (d + 16) := by omega
    rcases rm with (_ | _ | _ | _ | _) | r
    case mode.rn => simp [goesUp, leastUp, less, other]
    case mode.ra => simp [goesUp, leastUp, half]
    case mode.rz => rfl
    case mode.ru | mode.rd => simp [goesUp, leastUp, hm]
    case sr =>
      have chance : m * 65536 / 2 ^ (d + 17) = 0 := Nat.div_eq_of_lt (by omega)
      have bits : r % 65536 < 65536 := Nat.mod_lt _ (by decide)
      simp [goesUp, leastUp, chance, bits]
  simp [Mag.quotient, none, rest, up, hm]

/-- A magnitude far below FP32's least one is tiny (R100). -/
theorem tiny_fp32_of_small (rm : RM) (neg : Bool) (hm : m ≠ 0) (small : (Mag.mk m e false).binade < -166) :
    fp32.tiny rm neg ⟨m, e, false⟩ = true := by
  have free : fp32.freeUnit ⟨m, e, false⟩ = (Mag.mk m e false).binade - 23 := rfl
  obtain ⟨made, -⟩ := Mag.roundAt_roundsInt (Mag.holds_exact m e) rm neg ((enough_exact fp32 m e).unit_le fp32_regular.bits le_rfl)
  obtain ⟨-, high⟩ := Mag.binade_bounds (Mag.holds_exact m e) hm
  have bits := made.le_pow (p := 24) (by
    rw [div_lt_iff₀ (by positivity), ← zpow_natCast, ← zpow_add₀ two_ne_zero, free]
    exact high.trans_eq (by congr 1; push_cast; ring))
  have room : (2 : Int) ^ 24 < 2 ^ (-126 - fp32.freeUnit ⟨m, e, false⟩).toNat := pow_lt_pow_right₀ (by decide) (by omega)
  have bits' : (((Mag.mk m e false).roundAt rm neg (fp32.freeUnit ⟨m, e, false⟩)).1 : Int) ≤ 2 ^ 24 := by exact_mod_cast bits
  have limit : (1 - (fp32.bias : Int) - (fp32.p - 1 : Nat)) = -149 := rfl
  have least : (1 - (fp32.bias : Int)) = -126 := rfl
  rw [FFmt.tiny, limit, least, Bool.and_eq_true, decide_eq_true_eq, decide_eq_true_eq]
  exact ⟨by omega, bits'.trans_lt room⟩

/-- It rounds by its sign and the mode alone. -/
theorem roundMag_fp32_of_small (rm : RM) (neg : Bool) (hm : m ≠ 0) (small : (Mag.mk m e false).binade < -166) :
    fp32.roundMag rm neg ⟨m, e, false⟩ = (fp32.signed neg (if leastUp rm neg then 1 else 0), roundFlags true true) := by
  have free : fp32.freeUnit ⟨m, e, false⟩ = (Mag.mk m e false).binade - 23 := rfl
  have spacing : fp32.spacing = -149 := rfl
  have unit : fp32.unit ⟨m, e, false⟩ = -149 := by
    rw [FFmt.unit_eq fp32_regular.bits, spacing]
    exact max_eq_right (by omega)
  have made := roundAt_of_small (e := e) rm neg (q := -149) hm (by omega)
  have enc : fp32.encoded rm neg ⟨m, e, false⟩ = if leastUp rm neg then 1 else 0 := by
    rw [FFmt.encoded, unit, made]
    cases leastUp rm neg <;> rfl
  have finite : ¬(if leastUp rm neg then 1 else 0) > fp32.maxEnc := by cases leastUp rm neg <;> decide
  rw [FFmt.roundMag_eq, enc, if_neg finite, unit, made, tiny_fp32_of_small rm neg hm small]

/-- A finite FP32 value that is not zero lies in the format's binades. -/
theorem binade_of_decode_fp32 {y : Nat} {s : Bool} (h : fp32.decode y = .fin s m e) (hm : m ≠ 0) :
    -149 ≤ (Mag.mk m e false).binade ∧ (Mag.mk m e false).binade ≤ 127 := by
  rw [FFmt.decode_eq] at h
  split at h
  · cases h
  · split at h
    · cases h
    · next fits =>
      injection h with _ sig exp
      have bits : Nat.log2 m < 24 := (Nat.log2_lt hm).2 (sig ▸ FFmt.sig_lt fp32_regular.bits _)
      have top : fp32.maxEnc / 2 ^ (fp32.p - 1) - 1 = 253 := rfl
      have step : fp32.binade (y % 2 ^ (fp32.w - 1)) ≤ 253 :=
        top ▸ Nat.sub_le_sub_right (Nat.div_le_div_right (Nat.not_lt.1 fits)) 1
      have spacing : fp32.spacing = -149 := rfl
      unfold Mag.binade
      dsimp only
      omega

end

/-- Scaling by more than 600 either way rounds as scaling by 600 does. -/
theorem round_scaleF (rm : RM) (n : Int) (y : Nat) :
    fp32.round rm (scaleF n (fp32.decode y)) = fp32.round rm (Claims.scaled n (fp32.decode y)) := by
  rcases hy : fp32.decode y with _ | _ | ⟨s, m, e⟩
  case nan | inf => rfl
  by_cases hm : m = 0
  · simp [scaleF, Claims.scaled, hm]
  obtain ⟨low, high⟩ := binade_of_decode_fp32 hy hm
  have moved : ∀ k : Int, (Mag.mk m (e + k) false).binade = (Mag.mk m e false).binade + k := fun k => by
    unfold Mag.binade
    dsimp only
    omega
  rw [scaleF, Claims.scaled, if_neg hm, if_neg hm, fp32.round_fin rm s _ hm, fp32.round_fin rm s _ hm]
  rcases lt_or_ge n (-600) with less | inside
  · rw [show max (-600) (min 600 n) = -600 by omega, roundMag_fp32_of_small rm s hm (by rw [moved]; omega),
      roundMag_fp32_of_small rm s hm (by rw [moved]; omega)]
  · rcases lt_or_ge 600 n with more | inside'
    · rw [show max (-600) (min 600 n) = 600 by omega, roundMag_fp32_of_large rm s hm (by rw [moved]; omega),
        roundMag_fp32_of_large rm s hm (by rw [moved]; omega)]
    · rw [show max (-600) (min 600 n) = n by omega]

end Sys2Proof

namespace Sys2Proof.Claims

open Sys2Proof.Machine

/-- Sums, products and comparisons are those of rational numbers, and quotients, roots and integral values round the exact result. -/
theorem arithmeticIsExactBeforeRounding : ArithmeticIsExactBeforeRounding := by
  refine ⟨fun rd s t m n e g x y hx hy => ?_, fun rm s t m n e g x y hm hn hx hy => ?_, fun t n g y hn hy => ?_,
    fun rm m e x hm hx => ?_, fun rm s m e hm => rndF_integral rm s e hm, round_scaleF⟩
  · obtain rfl := Option.some.inj hx
    obtain rfl := Option.some.inj hy
    obtain ⟨addInv, add⟩ := ratOf_add s t m n e g rd
    obtain ⟨mulInv, mul⟩ := ratOf_mul s t m n e g
    obtain ⟨lt, eq⟩ := cmp_fin s t m n e g
    exact ⟨addInv, add, mulInv, mul, lt, eq⟩
  · obtain rfl := Option.some.inj hx
    obtain rfl := Option.some.inj hy
    rw [divF_fin, if_neg hn, if_neg hm]
    exact roundSigned_quotient rm s t e g hm hn
  · obtain rfl := Option.some.inj hy
    obtain ⟨value, -⟩ := roundSigned_quotient (.mode .rn) false t 0 g one_ne_zero hn
    rw [finRat_one] at value
    rw [rcpF_fin t g hn]
    exact value
  · obtain rfl := Option.some.inj hx
    obtain ⟨-, quiet⟩ := roundSigned_fp32 rm false (magSqrt_holds m e tailBits) (le_log2_magSqrt hm e tailBits)
    rw [sqrtF_fin rm e hm]
    exact ⟨roundSigned_root rm e hm, quiet⟩

/-- Settles O12: rounding picks what the mode calls for, of exact results. -/
theorem roundingIsOfTheExactResult : Obligations.RoundingIsOfTheExactResult :=
  ⟨roundingPicksTheModesNeighbour, arithmeticIsExactBeforeRounding⟩

end Sys2Proof.Claims
end

section
/-!
SUPPORT and the settlement of O55: no step takes a memory out of its canonical form (R167, R479). A memory changes in few places, all of them writes and
copies of bytes, which keep its form (`Memory.write_wf`, `Memory.copyRange_wf`); blocks come with an empty scratchpad or one written byte by byte. For every
function of the model that returns a state one lemma, named as the function, says that it keeps the form of all memories, in the order of the
model's text; what returns a state among other things, or a state or a stop, has it of the state that it returns (`Yields`, `Finds`, `NextWf`).
-/

namespace Sys2Proof.Machine

-- One declaration after the other: elaborated side by side, this many take more memory than the check has.
set_option Elab.async false

/-! ### What a computation yields -/

/-- Whatever a computation yields satisfies `P`. -/
def Yields {ε α : Type} (P : α → Prop) (r : Except ε α) : Prop := ∀ a, r = .ok a → P a

/-- Whatever a search finds satisfies `P`. -/
def Finds {α : Type} (P : α → Prop) (r : Option α) : Prop := ∀ a, r = some a → P a

/-- The next state of an outcome, where there is one, has canonical memories. -/
def NextWf (r : Res) : Prop := ∀ t, r = .next t → t.memWf

namespace Yields

variable {ε ε' α β γ : Type} {P : α → Prop} {Q : β → Prop} {r r' : Except ε α}

theorem ok {a : α} (h : P a) : Yields P (.ok a : Except ε α) := fun _ e => by cases e; exact h

theorem error {e : ε} : Yields P (.error e) := fun _ h => by cases h

theorem any : Yields (fun _ => True) r := fun _ _ => trivial

theorem bind {f : α → Except ε β} (h : Yields P r) (hf : ∀ a, P a → Yields Q (f a)) : Yields Q (r.bind f) := by
  cases r with
  | error e => exact error
  | ok a => exact hf a (h a rfl)

theorem map {f : α → β} (h : Yields P r) (hf : ∀ a, P a → Q (f a)) : Yields Q (r.map f) := by
  cases r with
  | error e => exact error
  | ok a => exact ok (hf a (h a rfl))

theorem mapError {f : ε → ε'} (h : Yields P r) : Yields P (r.mapError f) := by
  cases r with
  | error e => exact error
  | ok a => exact ok (h a rfl)

theorem ite {c : Prop} [Decidable c] (h : Yields P r) (g : Yields P r') : Yields P (if c then r else r') := by
  split
  · exact h
  · exact g

theorem foldl {f : Except ε α → γ → Except ε α} {l : List γ} (h : Yields P r) (hf : ∀ q c, Yields P q → Yields P (f q c)) :
    Yields P (l.foldl f r) :=
  List.foldlRecOn l f h fun q hq c _ => hf q c hq

end Yields

namespace Finds

variable {α β γ : Type} {P : α → Prop} {Q : β → Prop} {r r' : Option α}

theorem some {a : α} (h : P a) : Finds P (some a) := fun _ e => by cases e; exact h

theorem none : Finds P none := fun _ h => by cases h

theorem any : Finds (fun _ => True) r := fun _ _ => trivial

theorem bind {f : α → Option β} (h : Finds P r) (hf : ∀ a, P a → Finds Q (f a)) : Finds Q (r.bind f) := by
  cases r with
  | none => exact none
  | some a => exact hf a (h a rfl)

theorem map {f : α → β} (h : Finds P r) (hf : ∀ a, P a → Q (f a)) : Finds Q (r.map f) := by
  cases r with
  | none => exact none
  | some a => exact some (hf a (h a rfl))

theorem ite {c : Prop} [Decidable c] (h : Finds P r) (g : Finds P r') : Finds P (if c then r else r') := by
  split
  · exact h
  · exact g

theorem foldl {f : Option α → γ → Option α} {l : List γ} (h : Finds P r) (hf : ∀ q c, Finds P q → Finds P (f q c)) :
    Finds P (l.foldl f r) :=
  List.foldlRecOn l f h fun q hq c _ => hf q c hq

end Finds

namespace NextWf

variable {r r' : Res}

theorem next {t : State} (h : t.memWf) : NextWf (.next t) := fun _ e => by cases e; exact h

theorem fault {f : Fault} : NextWf (.fault f) := fun _ h => by cases h

theorem ite {c : Prop} [Decidable c] (h : NextWf r) (g : NextWf r') : NextWf (if c then r else r') := by
  split
  · exact h
  · exact g

end NextWf

/-- What a lane does of an instruction keeps the memories canonical. -/
def LaneKeeps (f : LaneFn) : Prop := ∀ x s lane t v, s.memWf → Yields (fun r => r.2.memWf) (f x s lane t v)

namespace State.memWf

variable {s t : State}

/-! ### Updates of fields -/

/-- What leaves the memories as they are keeps their form. -/
theorem frame (h : s.memWf) (hm : t.mem = s.mem := by exact rfl) (hh : t.host = s.host := by exact rfl)
    (hb : t.blocks = s.blocks := by exact rfl) : t.memWf := by
  simpa only [State.memWf, hm, hh, hb] using h

theorem ite {c : Prop} [Decidable c] (h : s.memWf) (g : t.memWf) : (if c then s else t).memWf := by
  split
  · exact h
  · exact g

theorem iteFst {α : Type} {c : Prop} [Decidable c] {p q : State × α} (hp : p.1.memWf) (hq : q.1.memWf) : (if c then p else q).1.memWf := by
  split
  · exact hp
  · exact hq

theorem iteSnd {α : Type} {c : Prop} [Decidable c] {p q : α × State} (hp : p.2.memWf) (hq : q.2.memWf) : (if c then p else q).2.memWf := by
  split
  · exact hp
  · exact hq

theorem foldl {α : Type} {f : State → α → State} {l : List α} (h : s.memWf) (hf : ∀ t a, t.memWf → (f t a).memWf) : (l.foldl f s).memWf :=
  List.foldlRecOn l f h fun t ht a _ => hf t a ht

/-- A fold that carries more than the state. -/
theorem foldlFst {α β : Type} {f : State × β → α → State × β} {l : List α} {p : State × β} (h : p.1.memWf)
    (hf : ∀ q a, q.1.memWf → (f q a).1.memWf) : (l.foldl f p).1.memWf :=
  List.foldlRecOn (motive := fun q => q.1.memWf) l f h fun q hq a _ => hf q a hq

theorem withMem (h : s.memWf) (hm : t.mem.wf = true) (hh : t.host = s.host := by exact rfl) (hb : t.blocks = s.blocks := by exact rfl) :
    t.memWf := by
  obtain ⟨-, host, scratch⟩ := h
  exact ⟨hm, hh ▸ host, hb ▸ scratch⟩

theorem withHost (h : s.memWf) (hh : t.host.wf = true) (hm : t.mem = s.mem := by exact rfl) (hb : t.blocks = s.blocks := by exact rfl) :
    t.memWf := by
  obtain ⟨mem, -, scratch⟩ := h
  exact ⟨hm ▸ mem, hh, hb ▸ scratch⟩

theorem withBlocks (h : s.memWf) (hb : ∀ b ∈ t.blocks, b.scratch.wf = true) (hm : t.mem = s.mem := by exact rfl)
    (hh : t.host = s.host := by exact rfl) : t.memWf := by
  obtain ⟨mem, host, -⟩ := h
  exact ⟨hm ▸ mem, hh ▸ host, hb⟩

theorem scratch (h : s.memWf) {b : Block} (hb : b ∈ s.blocks) : b.scratch.wf = true := h.2.2 b hb

/-- Some of the blocks, as they were. -/
theorem fewerBlocks (h : s.memWf) {p : Block → Bool} (hb : t.blocks = s.blocks.filter p := by exact rfl)
    (hm : t.mem = s.mem := by exact rfl) (hh : t.host = s.host := by exact rfl) : t.memWf :=
  h.withBlocks (fun _ mem => h.scratch (List.mem_filter.1 (hb ▸ mem)).1) hm hh

/-- One more block. -/
theorem moreBlocks (h : s.memWf) {b : Block} (hw : b.scratch.wf = true) (hb : t.blocks = s.blocks ++ [b] := by exact rfl)
    (hm : t.mem = s.mem := by exact rfl) (hh : t.host = s.host := by exact rfl) : t.memWf := by
  refine h.withBlocks (fun c mem => ?_) hm hh
  rw [hb] at mem
  rcases List.mem_append.1 mem with old | new
  · exact h.scratch old
  · rwa [List.mem_singleton.1 new]

/-- A change of every block. -/
theorem mapBlocks (h : s.memWf) {f : Block → Block} (hf : ∀ b, b.scratch.wf = true → (f b).scratch.wf = true)
    (hb : t.blocks = s.blocks.map f := by exact rfl) (hm : t.mem = s.mem := by exact rfl) (hh : t.host = s.host := by exact rfl) : t.memWf := by
  refine h.withBlocks (fun c mem => ?_) hm hh
  rw [hb] at mem
  obtain ⟨b, old, rfl⟩ := List.mem_map.1 mem
  exact hf b (h.scratch old)

theorem updBlockBy {k f} (h : s.memWf) (hf : ∀ b, b.scratch.wf = true → (f b).scratch.wf = true) : (s.updBlock k f).memWf :=
  h.mapBlocks (f := fun b => if b.key = k then f b else b) fun b hb => by
    split
    · exact hf b hb
    · exact hb

/-- A change of a block that leaves its scratchpad as it is. -/
theorem updBlock {k f} (h : s.memWf) (hf : ∀ b, (f b).scratch = b.scratch := by exact fun _ => rfl) : (s.updBlock k f).memWf :=
  h.updBlockBy fun b hb => by rwa [hf]

/-! ### Access.lean -/

theorem setReg {off x} (h : s.memWf) : (s.setReg off x).memWf := h.frame

theorem burn {n} (h : s.memWf) : (s.burn n).memWf := h.frame

theorem send {m} (h : s.memWf) : (s.send m).memWf := h.frame

theorem bumpId (h : s.memWf) : (s.bumpId).memWf := h.frame

theorem updPart {p f} (h : s.memWf) : (s.updPart p f).memWf := h.frame

theorem updLaunch {p n f} (h : s.memWf) : (s.updLaunch p n f).memWf := h.frame

theorem updThread {k tl f} (h : s.memWf) : (s.updThread k tl f).memWf := h.updBlock

theorem updCourse {core id f} (h : s.memWf) : (s.updCourse core id f).memWf := h.frame

theorem delCourse {core id} (h : s.memWf) : (s.delCourse core id).memWf := h.frame

theorem updMcc {core f} (h : s.memWf) : (s.updMcc core f).memWf := h.frame

theorem updCopy {id f} (h : s.memWf) : (s.updCopy id f).memWf := h.frame

theorem onCourse {f} (_h : s.memWf) (hf : ∀ x, (f x).memWf) : NextWf (s.onCourse f) := by
  delta State.onCourse
  split
  · exact .fault
  · exact .next (hf _)

theorem onMcc {f} (_h : s.memWf) (hf : ∀ x, (f x).memWf) : NextWf (s.onMcc f) := by
  delta State.onMcc
  split
  · exact .fault
  · exact .next (hf _)

theorem count {core code n} (h : s.memWf) : (s.count core code n).memWf := by
  delta State.count
  split
  · exact h
  · exact .foldl h fun _ _ ht => .ite ht.frame ht

/-! ### Mem.lean -/

theorem updUnd {base f} (h : s.memWf) : (s.updUnd base f).memWf := h.frame

theorem poolGive {f size} (h : s.memWf) : (s.poolGive f size).memWf := h.frame

theorem putMem {a bs} (h : s.memWf) : (s.putMem a bs).memWf := h.withMem (Memory.write_wf _ _ _ h.1)

theorem mergeLine {line} (h : s.memWf) : (s.mergeLine line).memWf := by
  delta State.mergeLine
  extract_lets ps k merged
  have put : merged.memWf := h.putMem
  clear_value merged
  exact put.frame

theorem evictOne {die} (h : s.memWf) : (s.evictOne die).memWf := by
  delta State.evictOne
  split
  · exact h.frame
  · exact h.frame
  · exact h.mergeLine
  · exact h

theorem l2Room {die n} (h : s.memWf) : (s.l2Room die n).memWf := .ite (.ite h.evictOne.evictOne h.evictOne) h

theorem setDirty {line core} (h : s.memWf) : (s.setDirty line core).memWf := by
  delta State.setDirty
  extract_lets die s1
  have h1 : s1.memWf := l2Room h.frame
  exact .ite h h1.frame

theorem homeMerge {line} (h : s.memWf) : (s.homeMerge line).memWf := .ite h.mergeLine.setDirty h

theorem mergeFrame {f size} (h : s.memWf) : (s.mergeFrame f size).memWf := .foldl h (fun _ _ ht => ht.homeMerge)

theorem makeDurable {f size} (h : s.memWf) : (s.makeDurable f size).memWf := h.mergeFrame.frame

theorem notePage {base size part va under durable} (h : s.memWf) : (s.notePage base size part va under durable).memWf := by
  delta State.notePage
  refine .ite h ?_
  split
  · exact updUnd (.ite (.foldl h (fun _ _ ht => ht.makeDurable)) h)
  · exact frame (.ite h.makeDurable h)

theorem mergeAt {b n} (h : s.memWf) : (s.mergeAt b n).memWf := h.homeMerge.homeMerge

theorem mergeFor {l n} (h : s.memWf) : (s.mergeFor l n).memWf := by
  delta State.mergeFor
  split
  · exact h.mergeAt
  · exact h

theorem copyFrame {f size t} (h : s.memWf) : (s.copyFrame f size t).memWf :=
  have merged := h.mergeFrame (f := f) (size := size)
  merged.withMem (Memory.copyRange_wf _ _ _ _ _ merged.1)

theorem enterPoint {p u a} (h : s.memWf) : Yields memWf (s.enterPoint p u a) := by
  delta State.enterPoint
  split
  · exact .ok h
  · refine .ite (.ok h) ?_
    split
    · exact .error
    · exact .ok h.frame.copyFrame.updUnd

theorem snapCopy {base} (h : s.memWf) : Yields memWf (s.snapCopy base) := by
  delta State.snapCopy
  split
  · exact .ok h
  · refine .ite (.ok h) ?_
    split
    · exact .error
    · exact .ok h.frame.copyFrame.updUnd

theorem prepWrite {a p} (h : s.memWf) : Yields memWf (s.prepWrite a p) := by
  delta State.prepWrite
  split
  · exact .ok h
  · refine .bind (P := memWf) ?_ fun _ ht => ht.snapCopy
    split
    · exact h.enterPoint
    · exact .ok h

theorem touchPoint {ag a} (h : s.memWf) : (s.touchPoint ag a).memWf := by
  delta State.touchPoint
  split
  · split
    · exact .ite h.updLaunch h
    · exact h
  · exact h

theorem l1Stale {core l n} (h : s.memWf) : (s.l1Stale core l n).memWf := h.frame

theorem l1Drop {l n} (h : s.memWf) : (s.l1Drop l n).memWf := h.frame

theorem snoopHost {ls} (h : s.memWf) : (s.snoopHost ls).memWf := .foldl h (fun _ _ ht => .ite ht.frame.send ht)

theorem dropPage {base size} (h : s.memWf) : (s.dropPage base size).memWf := h.frame.snoopHost

theorem holdHost {die line st} (h : s.memWf) : (s.holdHost die line st).memWf := by
  delta State.holdHost
  extract_lets others kept s1
  have h1 : s1.memWf := l2Room h.frame
  exact h1.frame

theorem freeHost {line} (h : s.memWf) : (s.freeHost line).memWf := h.frame

theorem thruHost {l n} (h : s.memWf) : (s.thruHost l n).memWf := by
  delta State.thruHost
  split
  · exact h.freeHost.freeHost
  · exact h

theorem ownHost {die l n} (h : s.memWf) : (s.ownHost die l n).memWf := by
  delta State.ownHost
  split
  · exact h.holdHost.holdHost
  · exact h

theorem readHostLine {core line} (h : s.memWf) : (s.readHostLine core line).memWf := .ite h h.burn.holdHost

theorem readHost {core l n} (h : s.memWf) : (s.readHost core l n).memWf := by
  delta State.readHost
  split
  · exact .foldl h fun _ _ ht => ht.readHostLine
  · exact h

theorem putFrame {ag core b bs durable tag} (h : s.memWf) : (s.putFrame ag core b bs durable tag).memWf := by
  delta State.putFrame
  extract_lets s1
  have h1 : s1.memWf := .ite h.frame h.putMem.setDirty
  exact .ite h1.frame h1

theorem storeDev {ag core a bs} (h : s.memWf) : Yields memWf (s.storeDev ag core a bs) := by
  delta State.storeDev
  split
  · exact .error
  · exact .bind (.mapError h.prepWrite) fun _ ht => .ok ht.mergeFor.touchPoint.putFrame.l1Stale

theorem storeShadow {ag core a bs} (h : s.memWf) : Yields memWf (s.storeShadow ag core a bs) := by
  delta State.storeShadow
  split
  · exact .ok h.putMem
  · extract_lets put
    split
    · exact .ok h.mergeAt.putFrame
    · split
      · exact .error
      · exact .ok h.frame.updUnd.mergeAt.putFrame

theorem fwDev {a bs} (h : s.memWf) : (s.fwDev a bs).memWf := by
  delta State.fwDev
  refine .ite h.frame ?_
  split
  next hq => exact (h.storeDev _ hq)
  · exact h.frame.snoopHost
  · exact h.frame

theorem setImageBit {b img line poison x} (h : s.memWf) : (s.setImageBit b img line poison x).memWf := h.fwDev

theorem markPoison {l} (h : s.memWf) : (s.markPoison l).memWf := by
  delta State.markPoison
  extract_lets s
  split
  · exact h.frame.frame
  · split
    · split
      · exact h.frame.frame
      · exact h.frame
    · exact h.frame
  · exact h.frame.frame
  · exact h.frame
  · split
    · exact h.frame.updBlock
    · split
      · exact h.frame.setImageBit
      · exact h.frame

theorem clearMark {l} (h : s.memWf) : (s.clearMark l).memWf := by
  delta State.clearMark
  split
  · exact h.frame
  · split
    · exact h.frame
    · exact h
  · exact h.frame
  · exact h
  · split
    · exact h.updBlock
    · split
      · exact h.setImageBit
      · exact h

theorem coverMark {l n grp} (h : s.memWf) : (s.coverMark l n grp).memWf := .ite h (.ite h.frame.clearMark h.frame)

theorem storeAt {ag core l bs} (h : s.memWf) : Yields memWf (s.storeAt ag core l bs) := by
  delta State.storeAt
  dsimp only
  split
  · exact h.storeDev
  · exact h.storeShadow
  next a =>
    have h1 : ({ s with host := s.host.write a bs } : State).memWf := h.withHost (Memory.write_wf _ _ _ h.2.1)
    refine .ok (l1Stale ?_)
    split
    · exact ownHost (.ite h1.frame h1)
    · exact thruHost (.ite h1.frame h1)
  · exact .ok h
  · split
    · exact .ok (h.updBlockBy fun k hk => Memory.write_wf _ _ _ hk)
    · split
      · exact .map h.storeDev fun _ ht => .ite ht.setImageBit ht
      · exact .ok h

theorem storeFw {l bs} (h : s.memWf) : (s.storeFw l bs).memWf := by
  delta State.storeFw
  split
  · exact h.fwDev
  · split
    next hq => exact (h.storeAt _ hq)
    · exact h.frame

theorem retryFw (h : s.memWf) : (s.retryFw).memWf := .foldl h.frame (fun _ _ ht => ht.storeFw)

theorem addHome {ag l t} (h : s.memWf) : Yields memWf (s.addHome ag l t) := .map h.mergeFor.storeAt (fun _ ht => .ite ht.markPoison ht)

theorem addLine {ag core l t sys} (h : s.memWf) : Yields memWf (s.addLine ag core l t sys) := by
  delta State.addLine
  split
  · split
    · exact .error
    · refine .bind (.mapError h.prepWrite) fun _ ht => .ite ht.addHome ?_
      extract_lets s1
      split
      · exact .ok ht.l1Drop.count.frame
      · exact .ok ht.l1Drop.count.l2Room.frame
  · exact h.addHome

theorem noteLeaf {p w dies} (h : s.memWf) : (s.noteLeaf p w dies).memWf := by
  delta State.noteLeaf
  split
  · extract_lets held new x s1
    split
    · exact notePage (.ite h h.updPart)
    · exact .ite h h.updPart
  · exact h

theorem noteVa {p va} (h : s.memWf) : (s.noteVa p va).memWf := .ite h.noteLeaf h

theorem dropPend {n} (h : s.memWf) : (s.dropPend n).memWf := h.frame

theorem request {peer addr op by_} (h : s.memWf) : (s.request peer addr op by_).memWf := .ite h.frame.bumpId h.frame.bumpId.send

theorem markSent {n} (h : s.memWf) : (s.markSent n).memWf := h.frame

theorem asked {w} (h : s.memWf) : (s.asked w).memWf := by
  delta State.asked
  split
  · exact h.snoopHost
  · exact h

theorem perform {p} (h : s.memWf) : (s.perform p).memWf := by
  delta State.perform
  split
  · exact h.dropPend
  · split
    · exact h.dropPend.updThread
    · exact h.dropPend
  · split
    · exact h.request.markSent
    · split
      next hq => exact dropPend (h.addLine _ hq)
      · exact h.asked
  · split
    · exact h.request.markSent
    · split
      next hq => exact coverMark (dropPend (.ite (thruHost (h.storeAt _ hq)) (h.storeAt _ hq)))
      · exact h.asked

theorem drain {ag} (h : s.memWf) : (s.drain ag).memWf := by
  delta State.drain
  refine .foldl h fun _ _ ht => ?_
  split
  · exact .ite ht.perform ht
  · exact ht

theorem issueAccess {ag core l va bs k thru home} (h : s.memWf) : (s.issueAccess ag core l va bs k thru home).memWf := h.frame.bumpId

theorem performPush {b p} (h : s.memWf) : (s.performPush b p).memWf := by
  delta State.performPush
  extract_lets gone
  split
  · exact h.frame.updBlock
  · split
    next hq => exact coverMark (updBlock (.ite (thruHost (h.storeAt _ hq)) (h.storeAt _ hq)))
    · exact h.asked

theorem drainPushes {k tl} (h : s.memWf) : (s.drainPushes k tl).memWf := by
  delta State.drainPushes
  refine .foldl h fun _ _ ht => ?_
  split
  · exact .ite ht.performPush ht
  · exact ht

theorem settle {ag} (h : s.memWf) : (s.settle ag).memWf := by
  delta State.settle
  split
  · exact h.drainPushes.drain.drainPushes.drain
  · exact h.drain

theorem acceptOne (h : s.memWf) : (s.acceptOne).memWf := by
  delta State.acceptOne
  split
  · exact h
  · exact .ite h h.frame

theorem acceptAll (h : s.memWf) : (s.acceptAll).memWf := .foldl h (fun _ _ ht => ht.acceptOne)

theorem drainLine (h : s.memWf) : (s.drainLine).memWf := by
  delta State.drainLine
  split
  · exact h
  · exact h.putMem.frame

theorem l1Take {w} (h : s.memWf) : (s.l1Take w).memWf := by
  delta State.l1Take
  refine .ite h.frame ?_
  split
  · exact h.frame
  · exact h.frame

theorem readGran {core part va l need} (h : s.memWf) : (s.readGran core part va l need).2.memWf := by
  delta State.readGran
  extract_lets g
  split
  · exact .iteSnd h.burn (h.burn : (s.burn 8).memWf).frame
  · exact h.l1Take

theorem dropL1 {core part va n} (h : s.memWf) : (s.dropL1 core part va n).memWf := h.frame

theorem loadHeld {core part va l n bypass cur} (h : s.memWf) : (s.loadHeld core part va l n bypass cur).2.memWf := by
  delta State.loadHeld
  extract_lets s0 s1
  have h1 : s1.memWf := .ite h.mergeFor h.mergeFor.readHost
  split
  · exact h1
  · exact h1
  · exact .iteSnd h1.dropL1 (.iteSnd h1.readGran.readGran h1.readGran)

theorem load {ag core va l n bypass cur} (h : s.memWf) : (s.load ag core va l n bypass cur).2.memWf := h.loadHeld

theorem acquire {ag core} (h : s.memWf) : (s.acquire ag core).memWf := by
  delta State.acquire
  extract_lets s1
  split
  · exact h.frame.updThread
  · exact h.frame

theorem loadRo {ag core point va l n cur} (h : s.memWf) : (s.loadRo ag core point va l n cur).2.memWf := by
  delta State.loadRo
  extract_lets g roPoint one s0 s1 off base
  have hone : ∀ {t g l}, t.memWf → (one t g l).2.memWf := by
    intro t g l ht
    dsimp only [one]
    split
    · exact .iteSnd ht.burn (ht.burn : (t.burn 8).memWf).frame
    · exact ht.frame
  have h1 : s1.memWf := .ite h.mergeFor h.mergeFor.readHost
  exact .iteSnd (hone (hone h1)) (hone h1)

/-! ### Ops.lean -/

theorem putPhys {pa bs} (h : s.memWf) : (s.putPhys pa bs).memWf := h.storeFw

theorem updSaved {k f} (h : s.memWf) : (s.updSaved k f).memWf := h.updLaunch

theorem updFault {k f g} (h : s.memWf) : (s.updFault k f g).memWf := by
  delta State.updFault
  split
  · exact h.updMcc
  · exact h.updSaved

theorem noteSeq {by_ seq} (h : s.memWf) : (s.noteSeq by_ seq).memWf := by
  delta State.noteSeq
  split
  · exact h.updCourse
  · exact h.updFault
  · exact h.updCopy
  · exact h

theorem askFor {w} (h : s.memWf) : (s.askFor w).memWf := by
  delta State.askFor
  split
  · exact h.snoopHost
  · exact h

theorem ringAsk (h : s.memWf) : (s.ringAsk).memWf := h.askFor

theorem gqWrite {r} (h : s.memWf) : (s.gqWrite r).memWf := by
  delta State.gqWrite
  extract_lets seq bs bs' s1 s2 s3
  have h2 : s2.memWf := h.putPhys.setReg
  have h3 : s3.memWf := .ite h2.frame h2
  exact h3.noteSeq.send

theorem retrySrc {by_} (h : s.memWf) : (s.retrySrc by_).memWf := by
  delta State.retrySrc
  split
  · exact h.updCourse
  · exact h.updFault
  · exact h.updCopy
  · exact h

theorem gqDropOne {g} (h : s.memWf) : (s.gqDropOne g).memWf := by
  delta State.gqDropOne
  extract_lets head at_ old s1 s2 s3
  have h3 : s3.memWf := (h.putPhys.setReg.setReg : s2.memWf).frame
  exact .ite h3 h3.retrySrc

theorem gqRoom (h : s.memWf) : Finds memWf (s.gqRoom) := .ite .none (.ite (.some h) (.map .any fun _ _ => h.gqDropOne))

theorem gqFatal {r} (h : s.memWf) : (s.gqFatal r).memWf := by
  delta State.gqFatal
  refine .ite (.ite h.frame h.setReg) ?_
  split
  next hq => exact gqWrite (h.gqRoom _ hq)
  · exact ringAsk (.ite h.frame h.setReg)

theorem gutter {r} (h : s.memWf) : (s.gutter r).memWf := .ite h.gqFatal (.ite h.frame (.ite h.frame.ringAsk h.gqWrite))

theorem gutterPump (h : s.memWf) : (s.gutterPump).memWf := by
  delta State.gutterPump
  refine .ite h ?_
  split
  · split
    next hq => exact gqWrite (frame (h.gqRoom _ hq))
    · exact h.ringAsk
  · exact .ite h (.ite h.ringAsk h.frame.gqWrite)
  · exact h

theorem setBank {b} (h : s.memWf) : (s.setBank b).memWf := h.frame

theorem bankError {u uc kind addr synd poisoned} (h : s.memWf) : (s.bankError u uc kind addr synd poisoned).memWf := .ite h.setBank.gutter.send h.setBank

theorem newCourse {core slot tls} (h : s.memWf) : (s.newCourse core slot tls).memWf := by
  delta State.newCourse
  extract_lets key c s1
  have h1 : s1.memWf := bumpId h.frame
  clear_value key
  split
  · exact h1
  · exact .foldl h1 fun _ _ ht => ht.updThread

theorem emitBin {b} (h : s.memWf) : (s.emitBin b).memWf := .ite h.frame h.frame.newCourse.count

theorem fileOne {k tl} (h : s.memWf) : (s.fileOne k tl).memWf := by
  delta State.fileOne
  split
  · extract_lets prod fits inBin fresh
    split
    · extract_lets y s1
      have h1 : s1.memWf := h.updThread.frame
      exact .ite h1.emitBin h1
    · refine .ite h.updThread.frame.bumpId ?_
      split
      · exact .ite h.updThread.emitBin.frame.bumpId h.updThread
      · exact h.updThread.frame.bumpId
  · exact h

theorem fileUnfiled {core} (h : s.memWf) : (s.fileUnfiled core).memWf := .foldl h (fun _ _ ht => ht.fileOne)

theorem fileThread {k tl} (h : s.memWf) : (s.fileThread k tl).memWf := by
  delta State.fileThread
  split
  · exact .ite h.fileOne h.updThread.fileUnfiled
  · exact h

theorem fileAt {k tls pc} (h : s.memWf) : (s.fileAt k tls pc).memWf := .foldl h (fun _ _ ht => ht.updThread.fileThread)

theorem leaveCourse {core id lanes} (h : s.memWf) : (s.leaveCourse core id lanes).memWf := by
  delta State.leaveCourse
  split
  · exact h
  · exact .ite h.delCourse h.updCourse

theorem writeDone {l failed} (h : s.memWf) : (s.writeDone l failed).memWf := by
  delta State.writeDone
  extract_lets v
  clear_value v
  refine .ite h ?_
  split
  · have noted : (s.noteLeaf l.part (s.xlate l.part (vaBits l.d.doneAddr.toNat)) []).memWf := h.noteLeaf
    refine .ite (send ?_) ?_
    all_goals
      split
      · exact noted.request
      · exact noted.storeFw
  · exact h

theorem flushLaunch {p n} (h : s.memWf) : (s.flushLaunch p n).memWf := by
  delta State.flushLaunch
  extract_lets s1 s2
  have h1 : s2.memWf := by
    refine .foldl (.foldl h (fun _ _ ht => ht.settle)) fun _ _ ht => ?_
    split
    · exact .ite ht.perform ht
    · exact ht
  exact h1.frame

theorem stopBlocks {p n} (h : s.memWf) : (s.stopBlocks p n).memWf :=
  have flushed := h.flushLaunch (p := p) (n := n)
  flushed.fewerBlocks (p := fun b => !(b.key.part == p && b.key.lnum == n))

theorem dropSnapshot {p n} (h : s.memWf) : (s.dropSnapshot p n).memWf := by
  delta State.dropSnapshot
  refine .foldl h fun t u ht => .ite (updUnd ?_) ht
  split
  · exact ht.poolGive
  · exact ht

theorem endFatal {p n} (h : s.memWf) : (s.endFatal p n).memWf := by
  delta State.endFatal
  split
  · exact h
  · exact h.stopBlocks.dropSnapshot.writeDone.updLaunch.updPart

theorem setTrapRegs {k c t inh} (h : s.memWf) : (s.setTrapRegs k c t inh).memWf := .foldl h (fun _ _ ht => ht.updThread)

theorem trace {core part name type reason quad mask pc aux0 aux1} (h : s.memWf) : (s.trace core part name type reason quad mask pc aux0 aux1).memWf :=
  .ite h h.frame

theorem writeRec {r} (h : s.memWf) : (s.writeRec r).memWf := .ite (.ite h.setReg.gutter h.setReg) (.ite h.frame.askFor h.putPhys.setReg)

theorem writeRecs (h : s.memWf) : (s.writeRecs).memWf := .foldl h.frame (fun _ _ ht => ht.writeRec)

theorem takeTrap {x t next} (h : s.memWf) : (s.takeTrap x t next).memWf := by
  delta State.takeTrap
  refine .ite h.updCourse ?_
  extract_lets s0 s1
  have h1 : s1.memWf := h.trace.setTrapRegs
  exact .ite (.foldl h1.updCourse (fun _ _ ht1 => ht1.updThread)) h1.updCourse

theorem setPcs {k c pcs} (h : s.memWf) : (s.setPcs k c pcs).memWf := .foldl h (fun _ _ ht => ht.updThread)

theorem advance {x n} (h : s.memWf) : (s.advance x n).memWf := .ite (.foldl h (fun _ _ ht => ht.updThread)) h

theorem hold {x st} (h : s.memWf) : (s.hold x st).memWf := h.updCourse

/-! ### Streams.lean -/

theorem walked {u p stops} (h : s.memWf) : (s.walked u p stops).memWf := by
  delta State.walked
  refine .foldl (.foldl h (fun _ _ ht => ht.noteVa)) fun _ _ ht => ?_
  split
  · exact ht.noteVa
  · exact ht

theorem stopFor {x next v} (h : s.memWf) : (s.stopFor x next v).memWf := by
  delta State.stopFor
  split
  · exact h
  · exact h.takeTrap
  · exact hold (.foldl h (fun _ _ ht => ht.settle))
  · exact h.snoopHost.hold
  · exact h.hold
  · extract_lets first s1
    have h1 : s1.memWf := by
      refine .foldl h fun _ _ ht => ?_
      split
      · exact ht.request
      · exact ht
    exact h1.hold

theorem readElem {x tl poisonRank l w va n cur} (h : s.memWf) : Yields (fun r => r.2.memWf) (readElem s x tl poisonRank l w va n cur) := by
  delta readElem
  extract_lets own
  split
  · exact .ite .error (.ite .error (.ok h))
  · refine .bind .any fun _ _ => ?_
    split
    · exact .ite .error (.ok h)
    · exact .error
  · exact .bind .any fun _ _ => .ite .error (.ok h.mergeFor.loadHeld)

theorem indexOf {x tl rank poisonRank q write d p n} (h : s.memWf) : Yields (fun r => r.2.2.memWf) (indexOf s x tl rank poisonRank q write d p n) := by
  delta indexOf
  split
  · exact .ok h
  · exact .ite (.ok h) (.bind .any (fun _ ht => .bind h.noteLeaf.readElem (fun _ ht1 => .ok ht1)))

theorem elemAddr {x tl rank poisonRank q write d p n} (h : s.memWf) : Yields (fun r => r.2.2.memWf) (elemAddr s x tl rank poisonRank q write d p n) :=
  .ite (.map h.indexOf (fun _ ht => ht)) (.ok h)

theorem popLane {x t q} (h : s.memWf) : Yields (fun r => r.2.2.memWf) (popLane s x t q) := by
  delta popLane
  refine .ite .error ?_
  split
  · exact .error
  · refine .ite .error (.ite (.ok h) ?_)
    split
    · exact .ok h.count
    · exact .bind h.elemAddr fun _ ht => .bind .any fun _ _ => .bind ht.noteLeaf.readElem fun _ ht2 => .ok ht2.count

theorem pushLane {x t q} (h : s.memWf) : Yields (fun r => r.2.memWf) (pushLane s x t q) := by
  delta pushLane
  refine .ite .error ?_
  split
  · exact .error
  · exact .ite .error (.ite (.ite (.ok h) .error) (.bind h.elemAddr (fun _ ht => .bind .any (fun _ _ => .ok ht.noteLeaf))))

theorem addPush {k tl d x} (h : s.memWf) : (s.addPush k tl d x).memWf := h.updBlock.bumpId

/-! ### Operands.lean -/

theorem readSource {x lane t lit i o p a} (h : s.memWf) : Yields (fun r => r.2.memWf) (readSource s x lane t lit i o p a) := by
  delta readSource
  split
  · exact .ok h
  · split
    · split
      · exact .ok h
      · exact .bind h.popLane fun _ ht => .ok ht
    · exact .ite .error (.ite .error (.ok h))
    · exact .ite .error (.ok h)

theorem readNext {x lane t lit r o} (h : r.s.memWf) : (Machine.readNext x lane t lit r o).s.memWf := by
  delta Machine.readNext
  dsimp only
  split
  next hq => exact h.readSource _ hq
  · exact h

theorem readSources {x lane t lit srcs rnd} (h : s.memWf) : Yields (fun r => r.2.memWf) (Machine.readSources s x lane t lit srcs rnd) := by
  delta Machine.readSources
  extract_lets r
  have hr : r.s.memWf := List.foldlRecOn (motive := fun r : Reading => r.s.memWf) _ _ h fun _ hr _ _ => hr.readNext
  clear_value r
  split
  · exact .ok hr
  · exact .error

theorem putDst {k tl o bits x} (h : s.memWf) : (s.putDst k tl o bits x).memWf := by
  delta State.putDst
  split
  · exact h.updBlock
  · exact h.updThread

/-! ### Flags.lean -/

theorem writeResult {k core id e lane tl r} (h : s.memWf) : (s.writeResult k core id e lane tl r).memWf := by
  delta State.writeResult
  extract_lets x s1 s2
  have h2 : s2.memWf := by
    dsimp only [s2]
    split
    · split
      · exact .ite h.updThread h.updThread.addPush
      · exact h.updThread
    · exact h.updThread
    · exact h.updThread.putDst
    · exact h.updThread
  split
  · exact h2.updCourse
  · exact h2

theorem reinject {k core id n} (h : s.memWf) : (State.reinject k core id n s).memWf := by
  induction n generalizing s with
  | zero => exact h
  | succ n ih =>
    rw [State.reinject]
    split
    · exact h
    · split
      · exact h.setPcs.updCourse
      · extract_lets write s1 e1
        have h1 : s1.memWf := .foldl h fun _ _ ht => .ite ht.writeResult ht
        exact .ite h1.updCourse (ih h1.updCourse)

theorem chainEnd {x chain} (h : s.memWf) : (s.chainEnd x chain).memWf := .ite h.updCourse h.updCourse.reinject

theorem laneStep {sh f x lane t} (hf : LaneKeeps f) (h : s.memWf) :
    Yields (fun r => r.2.memWf) (Machine.laneStep sh f x lane t s) := by
  delta Machine.laneStep
  split
  · split
    · exact .error
    · split
      · exact .error
      · exact .error
  next hq =>
    have h1 := h.readSources _ hq
    extract_lets t1 pushed
    have h2 : Yields (fun r => r.2.memWf) pushed := by
      dsimp only [pushed]
      split
      · exact .ok h1
      · exact h1.pushLane
    clear_value pushed
    split
    · exact .error
    next _ _ _ =>
      have h3 := h2 _ rfl
      split
      · exact .error
      next hr => exact .ok (hf _ _ _ _ _ h3 _ hr)

/-- The state after the reads of every lane. -/
theorem runLanes {sh f x} (hf : LaneKeeps f) (h : s.memWf) :
    (Machine.runLanes sh f x s).s.memWf := by
  refine List.foldlRecOn (motive := fun r : LaneRun => r.s.memWf) _ _ h fun r hr p _ => ?_
  delta runNext
  split
  next hq => exact laneStep hf hr _ hq
  · exact hr

theorem LaneOut_write {sh k o} (h : s.memWf) : (LaneOut.write sh k o s).memWf := by
  delta LaneOut.write
  extract_lets s1
  split
  · exact h.updThread
  · split
    · exact h.updThread.addPush
    · exact h.updThread
  · exact .ite h.updThread h.updThread.putDst

theorem writeLanes {sh x outs} (h : s.memWf) : (writeLanes sh x outs s).memWf := by
  delta writeLanes
  extract_lets k s1
  have h1 : s1.memWf := .foldl h fun _ _ ht => ht.updThread.LaneOut_write
  split
  · exact h1.updCourse
  · exact h1

theorem commitLanes {sh x outs} (h : s.memWf) : (commitLanes sh x outs s).memWf := h.writeLanes.advance.chainEnd

theorem raiseFpe {sh x outs} (h : s.memWf) : (raiseFpe sh x outs s).memWf := takeTrap (.foldl h (fun _ _ ht => ht.updThread))

theorem lanesWith {sh f fin} (h : s.memWf) (hf : LaneKeeps f)
    (hfin : ∀ x outs u, u.memWf → (fin x outs u).memWf) : NextWf (s.lanesWith sh f fin) := by
  delta State.lanesWith
  refine h.onCourse fun x => ?_
  have hr := h.runLanes (sh := sh) (x := x) hf
  dsimp only
  split
  · exact hfin _ _ _ hr
  · exact h.walked.stopFor

theorem lanes {sh f} (h : s.memWf) (hf : LaneKeeps f) : NextWf (s.lanes sh f) :=
  h.lanesWith (fun _ _ _ _ _ ht => hf _ _ _ _ _ ht) fun _ _ _ ht => .ite ht.raiseFpe ht.commitLanes

theorem compute {sh f} (h : s.memWf) : NextWf (s.compute sh f) := h.lanes (fun _ _ _ _ _ ht => .ok ht)

/-! ### Waits.lean -/

theorem illegal {x first reason} (h : s.memWf) : (s.illegal x first reason).memWf := h.takeTrap

theorem othersGoOn {x gone size} (h : s.memWf) : (s.othersGoOn x gone size).memWf := leaveCourse (updCourse (.foldl h (fun _ _ ht => .ite ht ht.updThread)))

theorem park {k tl w} (h : s.memWf) : (s.park k tl w).memWf := h.updThread

theorem depart {k tl} (h : s.memWf) : (s.depart k tl).memWf := by
  delta State.depart
  split
  · split
    · exact h.updThread.fileThread
    · exact h
  · exact h

theorem departAcq {k tl} (h : s.memWf) : (s.departAcq k tl).memWf := by
  delta State.departAcq
  split
  · exact h.acquire.depart
  · exact h

theorem diverge {x next} (h : s.memWf) : (s.diverge x next).memWf :=
  .foldl (leaveCourse (chainEnd (.foldl h (fun _ _ ht => ht.updThread)))) fun _ _ ht => ht.fileThread

theorem releaseAll {ags sc} (h : s.memWf) : (s.releaseAll ags sc).1.memWf := .foldl h (fun _ _ ht => ht.settle)

theorem setBarrier {k i x} (h : s.memWf) : (s.setBarrier k i x).memWf := h.updBlock

theorem markWoken {b p g} (h : s.memWf) : (s.markWoken b p g).memWf := h.frame

theorem completeBar {k i} (h : s.memWf) : (s.completeBar k i).memWf := by
  delta State.completeBar
  split
  · exact h
  · exact .ite (.foldl h.setBarrier.markWoken (fun _ _ ht1 => ht1.departAcq)) h

theorem arriveBar {k i cnt} (h : s.memWf) : (s.arriveBar k i cnt).memWf := by
  delta State.arriveBar
  split
  · exact h
  · exact h.setBarrier.completeBar

theorem markGang {part lnum unit g p f} (h : s.memWf) : (s.markGang part lnum unit g p f).memWf := .foldl h (fun _ _ ht => ht.markWoken)

theorem closeGang {part lnum g} (h : s.memWf) : (s.closeGang part lnum g).memWf := by
  delta State.closeGang
  split
  · exact h
  · split
    · exact h
    · exact .ite (markGang (.foldl h.updLaunch (fun _ _ ht => ht.updThread))) h

theorem arriveGang {part lnum g} (h : s.memWf) : (s.arriveGang part lnum g).memWf := by
  delta State.arriveGang
  split
  · exact h
  · exact h.updLaunch.closeGang

theorem exitThread {k tl} (h : s.memWf) : (s.exitThread k tl).memWf := by
  delta State.exitThread
  extract_lets s1 lower s2 s3
  have h1 : s3.memWf := .foldl h.updThread.updBlock fun _ _ ht => ht.completeBar
  split
  · exact h1
  · refine .ite h1 ?_
    extract_lets g
    split
    · exact .ite h1.updLaunch.closeGang h1
    · exact h1

theorem stampAt {ag l} (h : s.memWf) : (s.stampAt ag l).2.memWf := by
  delta State.stampAt
  dsimp only
  split
  · exact h.mergeFor.burn
  · exact h.mergeFor

theorem retest {k tl} (h : s.memWf) : (s.retest k tl).memWf := by
  delta State.retest
  split
  · exact h
  · split
    · split
      next l _ _ => exact .ite (h.stampAt (ag := some (.thread k tl)) (l := l)).departAcq h
      · exact h
    · exact h

theorem xbStep {k off x} (h : s.memWf) : (s.xbStep k off x).memWf := by
  delta State.xbStep
  split
  next hq => exact (h.storeAt _ hq)
  · exact h

theorem xbRetest {k tl} (h : s.memWf) : (s.xbRetest k tl).memWf := by
  delta State.xbRetest
  split
  · exact h
  · split
    · exact .ite h.departAcq h
    · exact h

theorem partWays {x size outs acq} (h : s.memWf) : (s.partWays x size outs acq).memWf := by
  delta State.partWays
  refine .foldl h.othersGoOn fun _ _ ht => ?_
  split
  · exact ht.park
  · exact fileThread (updThread (.ite ht.acquire ht))

/-! ### Address.lean -/

theorem takeResp {x l} (h : s.memWf) : Finds (fun r => r.2.memWf) (takeResp s x l) := by
  delta takeResp
  split
  · exact .none
  · split
    · exact .some h.updCourse
    · exact .none

theorem takePeer {x l n} (h : s.memWf) : Finds (fun r => r.2.2.memWf) (Machine.takePeer s x l n) :=
  .foldl (.some h) fun _ _ hq => .bind hq fun _ ht => .map ht.takeResp fun _ hu => hu

theorem laneLoad {x tl p aux2 a n bypass cur} (h : s.memWf) : Yields (fun r => r.2.memWf) (laneLoad s x tl p aux2 a n bypass cur) := by
  delta laneLoad
  refine .bind .any fun _ _ => .bind .any fun _ _ => ?_
  extract_lets s1
  split
  · split
    next hq => exact .ite .error (.ok (h.mergeFor.takePeer _ hq))
    · exact .bind .any fun _ _ => .error
  · exact .ite .error (.ok h.mergeFor.load)

theorem writeNow {ag core l bs} (h : s.memWf) : Yields memWf (writeNow s ag core l bs) := by
  delta writeNow
  split
  next hq => exact .ok (h.storeAt _ hq)
  · exact .error
  · exact .error

/-! ### Control.lean -/

theorem indirect {t} (h : s.memWf) : Yields (fun r => r.2.memWf) (indirect t s) := .ite .error (.ok h)

theorem branchTo {sh x target outs} (h : s.memWf) : (branchTo sh x target outs s).memWf := .ite h.illegal h.writeLanes.diverge

theorem branchRel {sh off} (h : s.memWf) : NextWf (branchRel s sh off) := h.lanesWith (fun _ _ _ _ _ ht => .ok ht) (fun _ _ _ ht => ht.branchTo)

theorem branchInd {sh} (h : s.memWf) : NextWf (branchInd s sh) := h.lanesWith (fun _ _ _ _ _ ht => ht.indirect) (fun _ _ _ ht => ht.branchTo)

theorem goOn {sh} (h : s.memWf) : NextWf (goOn s sh) := h.onCourse (fun _ => h.advance.chainEnd)

theorem nopMcc {core n} (h : s.memWf) : (nopMcc s core n).memWf := h.updMcc

theorem execNopC {h'} (h : s.memWf) : NextWf (execNopC h' s) := by
  delta execNopC
  split
  · exact .next h.nopMcc
  · exact h.goOn

theorem execNop {h'} (h : s.memWf) : NextWf (execNop h' s) := by
  delta execNop
  split
  · exact .next h.nopMcc
  · exact h.goOn

theorem execCall {h' d t} (h : s.memWf) : NextWf (execCall h' d t s) := by
  delta execCall
  split
  · exact h.lanesWith (fun _ _ _ _ _ ht => .ok ht) fun _ _ _ ht => ht.branchTo
  · exact h.lanesWith (fun _ _ _ _ _ ht => ht.indirect) fun _ _ _ ht => ht.branchTo

theorem exitLanes {h' size} (h : s.memWf) : NextWf (exitLanes s h' size) := h.onCourse (fun _ => .foldl h.othersGoOn (fun _ _ ht1 => ht1.exitThread))

theorem reformAll {size} (h : s.memWf) : NextWf (reformAll s size) := h.onCourse (fun _ => h.othersGoOn.fileAt)

theorem yieldAll {size} (h : s.memWf) : NextWf (yieldAll s size) := h.onCourse (fun _ => h.advance.chainEnd.updCourse)

theorem barLanes {sh arv cnt} (h : s.memWf) : NextWf (Machine.barLanes s sh arv cnt) := by
  delta Machine.barLanes
  refine h.lanesWith (fun _ _ _ _ _ ht => .ok ht) fun x outs t ht => ?_
  have h1 : (t.releaseAll (outs.map fun o => x.agent o.tl) .dev).1.memWf := ht.releaseAll
  exact .ite (hold (.foldl h fun _ _ hu => hu.settle)) (.foldl h1.writeLanes.othersGoOn fun _ _ hu => arriveBar (.ite hu hu.park))

theorem execGbar {h' arv} (h : s.memWf) : NextWf (Machine.execGbar h' arv s) :=
  h.onCourse fun x =>
    have h1 : (s.releaseAll ((byThread (x.active h'.pneg h'.pred)).map fun p => x.agent p.2.tl) .dev).1.memWf := h.releaseAll
    .ite h1.hold (.foldl h1.othersGoOn fun _ _ hu => arriveGang (.ite hu hu.park))

theorem execGbarPhaseComplete {part lnum gang} (h : s.memWf) : NextWf (execGbarPhaseComplete part lnum gang s) := by
  delta execGbarPhaseComplete
  split
  · exact .next h
  · exact .ite (.next h) (.next (.foldl h.updLaunch.markGang (fun _ _ ht1 => ht1.departAcq)))

theorem waitLane {i sp c t vals} (h : s.memWf) : Yields (fun r => r.2.memWf) (Machine.waitLane i sp c s t vals) := by
  delta Machine.waitLane
  refine .bind .any fun a _ => ?_
  have stamped := h.noteLeaf (p := c.b.key.part) (w := a.w) (dies := [s.curDie]) |>.stampAt (ag := some (c.agent t.tl)) (l := a.loc)
  exact .ite (.ok stamped) (.ok stamped)

/-! ### LoadStore.lean -/

theorem locate {x opc m vals nd} (h : s.memWf) : Yields (fun r => r.2.2.2.memWf) (locate s x opc m vals nd) := .map .any (fun _ _ => h.noteLeaf)

theorem ldLane {m sx x a7 t vals} (h : s.memWf) : Yields (fun r => r.2.memWf) (ldLane m sx x s a7 t vals) :=
  .bind h.locate fun _ ht => .map ht.laneLoad fun _ ht1 => .ite ht1.acquire ht1

theorem issueStore {x tl m a v} (h : s.memWf) : (issueStore s x tl m a v).memWf := .ite h.issueAccess.issueAccess h.issueAccess

theorem stLane {m x a4 t vals} (h : s.memWf) : Yields (fun r => r.2.memWf) (stLane m x s a4 t vals) := .map h.locate (fun _ ht => ht.issueStore)

theorem laneLoadRo {x t p aux2 a n cur} (h : s.memWf) : Yields (fun r => r.2.memWf) (laneLoadRo s x t p aux2 a n cur) := by
  delta laneLoadRo
  refine .bind .any fun _ _ => ?_
  split
  · exact h.laneLoad
  · exact .ite .error (.ok h.mergeFor.loadRo)

theorem ldcLane {m sx x a7 t vals} (h : s.memWf) : Yields (fun r => r.2.memWf) (ldcLane m sx x s a7 t vals) :=
  .bind h.locate fun _ ht => .map ht.laneLoadRo fun _ ht1 => ht1

theorem atomStep {x tl m p aux2 a op new} (h : s.memWf) : Yields (fun r => r.2.memWf) (Machine.atomStep s x tl m p aux2 a op new) := by
  delta Machine.atomStep
  refine .bind .any fun _ _ => .bind .any fun _ _ => .bind .any fun _ _ => ?_
  dsimp only
  split
  · refine .bind .any fun _ _ => ?_
    split
    next hq =>
      have answered := h.takeResp _ hq
      exact .ite .error (.ok (.ite answered.acquire answered))
    · exact .error
  · have h2 : ((s.mergeFor a.loc m.size.bytes).dropL1 x.core x.b.key.part a.va m.size.bytes).memWf := h.mergeFor.dropL1
    refine .ite .error ?_
    split
    · exact .ok (.ite (acquire (.ite h2.thruHost h2.ownHost)) (.ite h2.thruHost h2.ownHost))
    · exact .bind .any fun _ _ => .map h2.writeNow fun _ ht => .ite (acquire (.ite ht.thruHost ht.ownHost)) (.ite ht.thruHost ht.ownHost)

theorem atomLane {op u m x a9 t vals} (h : s.memWf) : Yields (fun r => r.2.memWf) (atomLane op u m x s a9 t vals) :=
  .bind h.locate fun _ ht => .map ht.atomStep fun _ ht1 => ht1

theorem casLane {m x a4 t vals} (h : s.memWf) : Yields (fun r => r.2.memWf) (casLane m x s a4 t vals) :=
  .bind h.locate fun _ ht => .map ht.atomStep fun _ ht1 => ht1

theorem fenceLane {need f x a9 t a14} (hf : ∀ x u tl, u.memWf → (f x u tl).memWf) (h : s.memWf) : Yields (fun r => r.2.memWf) (fenceLane need f x s a9 t a14) :=
  .ite (.ok (hf _ _ _ h)) .error

theorem fenceLanes {sh need f} (h : s.memWf) (hf : ∀ x u tl, u.memWf → (f x u tl).memWf) : NextWf (fenceLanes s sh need f) :=
  h.lanes fun _ _ _ _ _ ht => ht.fenceLane fun _ _ _ ht1 => hf _ _ _ ht1

theorem fencePend {x tl sc} (h : s.memWf) : (fencePend s x tl sc).memWf := .ite h h.issueAccess

theorem readOnlyPoint {x tl} (h : s.memWf) : (readOnlyPoint s x tl).memWf := .ite h.updThread h.updThread.issueAccess

theorem fenceDoes {kind scope ro x tl} (h : s.memWf) : (Machine.fenceDoes kind scope ro x s tl).memWf := by
  delta Machine.fenceDoes
  extract_lets rel acq s1 s2
  have h1 : s1.memWf := .ite h.fencePend h
  have h2 : s2.memWf := .ite h1.acquire h1
  exact .ite h2.readOnlyPoint h2

theorem probeLane {m x a4 t vals} (h : s.memWf) : Yields (fun r => r.2.memWf) (probeLane m x s a4 t vals) := .map h.locate (fun _ ht => .ite ht.acquire ht)

theorem rngLane {bits own x a11 t vals} (h : s.memWf) : Yields (fun r => r.2.memWf) (rngLane bits own x s a11 t vals) := .ite .error (.ok h)

/-! ### Accum.lean -/

theorem accLanes {sh kd f terms} (h : s.memWf) : NextWf (accLanes s sh kd f terms) := h.lanes (fun _ _ _ _ _ ht => .ok ht.burn.count)

theorem accrndLane {k dfmt u r a11 a15 t v} (h : s.memWf) : Yields (fun r => r.2.memWf) (accrndLane k dfmt u r a11 s a15 t v) := .ite .error (.ok h)

theorem execAccred {h' kd ks wid} (h : s.memWf) : NextWf (Machine.execAccred h' kd ks wid s) := by
  delta Machine.execAccred
  extract_lets sh w
  exact h.lanesWith (fun _ _ _ _ _ ht => .ok ht) fun _ _ _ ht => ht.commitLanes

theorem readLine {x tl a cur} (h : s.memWf) : Yields (fun r => r.2.memWf) (readLine s x tl a cur) := by
  delta readLine
  refine .bind .any fun _ _ => .bind .any fun _ _ => ?_
  split
  · split
    next hq => exact .ok (h.takeResp _ hq)
    · exact .error
  · extract_lets s0
    have h3 : s0.memWf := h.mergeFor.dropL1
    exact .ok (.ite h3 h3.readHost)

theorem accldLane {wbs k m x a10 t vals} (h : s.memWf) : Yields (fun r => r.2.memWf) (accldLane wbs k m x s a10 t vals) :=
  .bind h.locate fun _ ht => .map ht.readLine fun _ ht1 => .ite ht1.acquire ht1

theorem accstLane {m k x a6 t vals} (h : s.memWf) : Yields (fun r => r.2.memWf) (accstLane m k x s a6 t vals) := .map h.locate (fun _ ht => ht.issueAccess)

theorem issueAdd {x tl m a t} (h : s.memWf) : (issueAdd x tl m a t s).memWf := h.issueAccess

theorem aaccLane {m t x a6 th vals} (h : s.memWf) : Yields (fun r => r.2.memWf) (aaccLane m t x s a6 th vals) := .map h.locate (fun _ ht => ht.issueAdd)

theorem amacLane {m fmt neg x a12 th vals} (h : s.memWf) : Yields (fun r => r.2.memWf) (amacLane m fmt neg x s a12 th vals) :=
  .map h.locate fun _ ht => ht.issueAdd

/-! ### Copies.lean -/

theorem noteUse {p va} (h : s.memWf) : (s.noteUse p va).memWf := by
  delta State.noteUse
  split
  · exact h.noteLeaf
  · exact h

theorem readRecord {x opc tl addr} (h : s.memWf) : Yields (fun r => r.2.memWf) (readRecord s x opc tl addr) := by
  delta readRecord
  refine .ite .error ?_
  split
  · exact .error
  · split
    · split
      next hq => exact .ok (h.noteLeaf.laneLoad _ hq)
      · exact .error
      · exact .error
    · exact .error

theorem planCopy {x k e f lane tl src dst cnt per} (h : s.memWf) :
    Yields (fun r => r.2.memWf) (Machine.planCopy s x k e f lane tl src dst cnt per) := by
  delta Machine.planCopy
  extract_lets opc limit read rec_ known mis add srcFirst dstFirst test free role0 recv0 scrFree
  have hrec : Yields (fun r => r.2.memWf) rec_ := .bind (.ite h.readRecord (.ok h)) fun _ ht => .ite .error (.ok ht)
  clear_value rec_
  split
  · exact .error
  · extract_lets role dest rows recv sg dg unbound dstLane srcLane
    split
    · exact .error
    · exact .ok (.foldl (hrec _ rfl) fun _ _ ht => ht.noteUse)

theorem clearPresence {k id lines} (h : s.memWf) : (s.clearPresence k id lines).memWf := h.updBlock

theorem issueCopy {x k f p} (h : s.memWf) : (s.issueCopy x k f p).memWf := .foldl h.frame.bumpId (fun _ _ ht => ht.clearPresence)

theorem copyLanes {i h' k e f ops lowAt} (h : s.memWf) : NextWf (Machine.copyLanes s i h' k e f ops lowAt) := by
  delta Machine.copyLanes
  refine h.onCourse fun x => ?_
  extract_lets sh act low whole reads rights bad vals per issuers go
  have hgo : go.1.memWf := .foldlFst h fun q p hq => by
    have hs := hq.planCopy (x := x) (k := k) (e := e) (f := f) (lane := p.1) (tl := p.2.tl) (src := vals p.1 0) (dst := vals p.1 1)
      (cnt := vals p.1 2) (per := per)
    split
    next ho => exact hs _ ho
    · exact hq
  split
  · exact .ite h.hold (commitLanes (.foldl hgo fun _ _ ht => ht.issueCopy))
  · exact stopFor (.ite (.foldl h.walked fun _ _ ht => ht.noteVa) h)
  · exact h.stopFor

theorem cpyqRetest {k tl} (h : s.memWf) : (s.cpyqRetest k tl).memWf := by
  delta State.cpyqRetest
  refine .ite h ?_
  split
  · exact h
  · split
    · split
      · exact departAcq (.ite h h.putDst)
      · exact h
    · exact h

theorem finishCopy {id} (h : s.memWf) : (s.finishCopy id).memWf := by
  delta State.finishCopy
  split
  · exact h
  · exact .ite h.frame.cpyqRetest h

theorem askPeers {c ps} (h : s.memWf) : (s.askPeers c ps).memWf := by
  delta State.askPeers
  refine .foldl h fun _ _ ht => ?_
  split
  · exact .ite ht ht.request
  · exact ht

theorem pieceRead {c l n} (h : s.memWf) : (s.pieceRead c l n).2.2.memWf := by
  delta State.pieceRead
  split
  · split
    · exact h
    · exact h
  · exact .ite h.mergeFor h.mergeFor.readHost

theorem copyRequest {c m a n op} (h : s.memWf) : (s.copyRequest c m a n op).memWf := h.request.updCopy

theorem noteEnds {c k p} (h : s.memWf) : (s.noteEnds c k p).memWf := .ite (noteLeaf (.ite h.noteLeaf h)) (.ite h.noteLeaf h)

theorem pieceWrite {c k p} (h : s.memWf) : Yields (fun r => r.1.memWf) (s.pieceWrite c k p) := by
  delta State.pieceWrite
  split
  next l w d w' _ _ =>
    have read : (((s.noteLeaf c.key.part w [dieOf c.core]).noteLeaf c.key.part w' [dieOf c.core]).pieceRead c l p.n).2.2.memWf :=
      h.noteLeaf.noteLeaf.pieceRead
    dsimp only
    split
    · exact .ok (.ite read.copyRequest.request read.copyRequest)
    · exact .map read.storeAt fun _ ht => coverMark (.ite ht ht.ownHost)
  · exact .ok h.noteEnds

theorem elementRead {c ps} (h : s.memWf) : Finds (fun r => r.2.2.memWf) (State.elementRead c ps s) := by
  induction ps generalizing s with
  | nil => exact .some h
  | cons p ps ih =>
    simp only [State.elementRead]
    split
    · exact .map (ih h.noteLeaf.pieceRead) fun _ ht => ht
    · exact .none

theorem elementAdd {c t ps} (h : s.memWf) : Yields (fun r => r.1.memWf) (s.elementAdd c t ps) := by
  delta State.elementAdd
  extract_lets n
  split
  next hq =>
    have h1 := h.elementRead _ hq
    split
    · extract_lets term0 term s2
      have h2 : s2.memWf := h1.noteLeaf
      split
      · exact .ok h2.copyRequest
      · exact .map h2.addLine fun _ ht => ht
    · exact .ok h1.noteEnds
  · exact .ok (.foldl h fun _ _ ht => ht.noteEnds)

theorem piecesWrite {c k ps} (h : s.memWf) : Yields (fun r => r.1.memWf) (State.piecesWrite c k ps s) := by
  induction ps generalizing s with
  | nil => exact .ok h
  | cons p ps ih => exact .bind h.pieceWrite fun _ ht => .map (ih ht) fun _ ht => ht

theorem lineWrite {c k line} (h : s.memWf) : Yields (fun r => r.1.memWf) (s.lineWrite c k line) := by
  delta State.lineWrite
  split
  · exact h.elementAdd
  · refine .map h.burn.piecesWrite fun r ht => ?_
    dsimp only
    split
    · exact ht.markPoison
    · exact ht

theorem countXb {c k n bad} (h : s.memWf) : (s.countXb c k n bad).memWf := by
  delta State.countXb
  split
  · exact h
  · exact .ite h h.xbStep

theorem setPresence {k line id} (h : s.memWf) : (s.setPresence k line id).memWf := by
  delta State.setPresence
  refine .ite ?_ h
  split
  · exact h.updBlock
  · split
    · exact h.setImageBit.updLaunch
    · exact h

theorem deliverLine {c recv line} (h : s.memWf) : (s.deliverLine c recv line).memWf := by
  delta State.deliverLine
  extract_lets k
  clear_value k
  split
  · exact h.asked
  next hq =>
    extract_lets s2 s3 s4
    have h2 : s2.memWf := countXb (count (h.lineWrite _ hq))
    have h3 : s3.memWf := by
      dsimp only [s3]
      split
      · exact h2.setPresence
      · exact h2
    exact finishCopy (.ite h3.updCopy.gutter h3.updCopy)

theorem execCopyLineArrival {copy recv line} (h : s.memWf) : NextWf (execCopyLineArrival copy recv line s) := by
  delta execCopyLineArrival
  refine .next ?_
  split
  · exact h
  · exact .ite h (.ite h.settle (.ite h.askPeers (.ite h.updCopy h.deliverLine)))

theorem execCopySlowPath {copy recv line} (h : s.memWf) : NextWf (execCopySlowPath copy recv line s) := by
  delta execCopySlowPath
  refine .next ?_
  split
  · exact h
  · extract_lets by_
    split
    · refine .ite h (.ite ?_ ?_)
      · split
        · exact h.gutter
        · exact h.updCopy
        · exact h.gutter.updCopy.finishCopy
      · split
        · exact h.gutter
        · exact .ite h.askPeers h.deliverLine
    · exact h

theorem execPresenceWaitResume {core course} (h : s.memWf) : NextWf (execPresenceWaitResume core course s) := by
  delta execPresenceWaitResume
  refine .next ?_
  split
  · split
    · split
      · exact .ite h.updMcc h
      · exact h
    · exact h
  · split
    · exact .ite h.updCourse h
    · exact h

theorem execCopyStampWrite {copy} (h : s.memWf) : NextWf (execCopyStampWrite copy s) := by
  delta execCopyStampWrite
  refine .next ?_
  split
  · exact h
  · split
    · exact h
    · refine .ite h (.ite ?_ ?_)
      · split
        next hq => exact finishCopy (updCopy (h.storeAt _ hq))
        · exact h.asked
      · split
        · exact h.request.updCopy.updCopy.finishCopy
        · split
          next hq => exact finishCopy (updCopy (h.noteLeaf.storeAt _ hq))
          · exact h.asked
        · exact h.updCopy

theorem noteRange {p n a stop} (h : s.memWf) : (State.noteRange p n a stop s).memWf := by
  induction n generalizing s a with
  | zero => exact h
  | succ n ih =>
    rw [State.noteRange]
    refine .ite h ?_
    split
    · exact ih h.noteLeaf
    · exact h

theorem publishStops {x tl b n rec_} (h : s.memWf) : Yields (fun r => r.2.memWf) (Machine.publishStops s x tl b n rec_) := by
  delta Machine.publishStops
  extract_lets opc p aux2 f r range own
  have hr : Yields (fun r => r.2.memWf) r := by
    dsimp only [r]
    split
    · exact .bind h.readRecord fun _ ht => .ite .error (.ok ht)
    · exact .ok h
  clear_value r own
  split
  · exact .error
  · split
    · exact .ok (hr _ rfl)
    · exact .error

theorem notePages {p b n} (h : s.memWf) : (s.notePages p b n).memWf := .foldl h (fun _ _ ht => ht.noteLeaf)

theorem execPublish {h' b n x0} (h : s.memWf) : NextWf (Machine.execPublish h' b n x0 s) := by
  delta Machine.execPublish
  refine h.onCourse fun x => ?_
  extract_lets sh act next rights
  clear_value act rights
  split
  · exact h.commitLanes
  · split
    · exact h.stopFor
    · extract_lets base len
      split
      · split
        · exact stopFor (.ite (noteRange h.walked) h)
        · exact h.stopFor
      next t1 ht1 =>
        have planned := h.publishStops _ ht1
        split
        · exact .ite h.hold (commitLanes (bumpId (planned.notePages : (State.notePages _ _ _ _).memWf).frame))
        · exact h.stopFor

theorem swapPage {base} (h : s.memWf) : (s.swapPage base).memWf := by
  delta State.swapPage
  split
  · exact h
  · split
    · exact h
    · exact h.mergeFrame.updUnd.dropPage

theorem prepPages {p as} (h : s.memWf) : Yields memWf (State.prepPages p as s) := by
  induction as generalizing s with
  | nil => exact .ok h
  | cons a as ih => exact .bind h.prepWrite fun _ ht => ih ht

theorem execPublishSwap {copy} (h : s.memWf) : NextWf (execPublishSwap copy s) := by
  delta execPublishSwap
  refine .next ?_
  split
  · exact h
  · refine .ite h (.ite h.settle ?_)
    refine .ite h (.ite h.snoopHost ?_)
    split
    · exact h
    next hq => exact finishCopy (updCopy (.foldl (h.prepPages _ hq) (fun _ _ ht => ht.swapPage)))

theorem execCpyq {h' d wt} (h : s.memWf) : NextWf (execCpyq h' d wt s) := by
  delta execCpyq
  refine .ite ?_ ?_
  · refine h.lanesWith ?_ fun _ _ _ ht => ht.writeLanes.partWays
    intro _ _ _ _ _ ht
    dsimp only
    split
    · exact .error
    · exact .ok ht
  · refine h.lanes fun _ _ _ _ _ ht => ?_
    split
    · exact .error
    · exact .ok ht

/-! ### Fetch.lean -/

theorem traceHit {x h'} (h : s.memWf) : (s.traceHit x h').memWf := .ite h (.foldl h (fun _ _ ht => ht.trace))

theorem markTriggers {part core tags comps} (h : s.memWf) : (s.markTriggers part core tags comps).memWf := h.frame

theorem issueBytes {x bs} (h : s.memWf) : (issueBytes s x bs).1.memWf := by
  delta issueBytes
  extract_lets w
  split
  · exact updCourse (.ite h h.count.count)
  · exact h.illegal
  · exact h.illegal

theorem issueCourse {x} (h : s.memWf) : (s.issueCourse x).1.memWf := by
  delta State.issueCourse
  split
  · exact h.issueBytes
  · split
    · exact h.takeTrap
    · extract_lets act hits stops s2
      have h1 : s2.memWf := .foldl h.markTriggers fun _ _ ht => ht.traceHit
      clear_value stops
      split
      · exact h1.takeTrap
      · exact h1.issueBytes

/-! ### Queues.lean -/

theorem xbarStep {x tl op off v w} (h : s.memWf) : (xbarStep x tl op off v w s).2.2.memWf := by
  delta xbarStep
  extract_lets k b
  split
  · exact h.xbStep
  · exact h.xbStep
  · exact h.xbStep
  · exact h
  · exact .ite h.acquire h

theorem xbarLane {op offs x a10 t v} (h : s.memWf) : Yields (fun r => r.2.memWf) (Machine.xbarLane op offs x s a10 t v) :=
  .bind .any fun _ _ => .ite .error (.ok h.xbarStep)

theorem xbarWaitLane {offs x a7 a10 v} (h : s.memWf) : Yields (fun r => r.2.memWf) (xbarWaitLane offs x s a7 a10 v) := .map .any (fun _ _ => h)

theorem execXbar {h' op base offs} (h : s.memWf) : NextWf (execXbar h' op base offs s) := by
  delta execXbar
  extract_lets sh
  split
  · exact h.lanesWith (fun _ _ _ _ _ ht => ht.xbarWaitLane) fun _ _ _ ht => ht.writeLanes.partWays
  · exact h.lanes fun _ _ _ _ _ ht => ht.xbarLane

theorem execXbarWaitProceed {core slot tl} (h : s.memWf) : NextWf (execXbarWaitProceed core slot tl s) := by
  delta execXbarWaitProceed
  refine .next ?_
  split
  · exact h.xbRetest
  · exact h

theorem pushQueue {k tl q v} (h : s.memWf) : (s.pushQueue k tl q v).memWf := by
  delta State.pushQueue
  split
  · exact h
  · exact .ite h.updLaunch h.updLaunch.updPart

theorem popQueue {p q} (h : s.memWf) : (s.popQueue p q).2.memWf := by
  delta State.popQueue
  split
  · split
    · exact h.updPart
    · exact h
  · exact h

theorem qpushLane {x a2 a5 v} (h : s.memWf) : Yields (fun r => r.2.memWf) (qpushLane x s a2 a5 v) := .ite .error (.ite .error (.ok h))

theorem qpopLane {a0 a3 a6 v} (h : s.memWf) : Yields (fun r => r.2.memWf) (qpopLane a0 s a3 a6 v) := .ite .error (.ok h)

/-- QPUSH's reads of its lanes, and its pushes. -/
theorem execQpush {h' n a w64} (h : s.memWf) : NextWf (Machine.execQpush h' n a w64 s) := by
  delta Machine.execQpush
  extract_lets sh
  refine h.onCourse fun x => ?_
  extract_lets done todo r pushed
  have hr : r.1.memWf := .foldlFst h fun q p hq => by
    have hs := hq.laneStep (sh := sh) (f := Machine.qpushLane) (x := x) (lane := p.1) (t := p.2) fun _ _ _ _ _ ht => ht.qpushLane
    split
    next ho => exact hs _ ho
    · exact hq
  split
  · refine .ite h.stopFor ?_
    have ht : pushed.1.memWf := .foldlFst hr fun q _ hq => by
      split
      · exact hq
      · dsimp only
        split
        · exact hq
        · exact hq.updThread.pushQueue
    split
    · exact ht.advance.chainEnd
    · exact ht.updCourse
  · exact h.stopFor

theorem execQpop {h' pd d n w64 try_} (h : s.memWf) : NextWf (Machine.execQpop h' pd d n w64 try_ s) := by
  delta Machine.execQpop
  refine h.lanesWith (fun _ _ _ _ _ ht => ht.qpopLane) fun x _ t ht => ?_
  extract_lets got
  have hg : got.1.memWf := .foldlFst ht fun _ _ hq => hq.popQueue
  exact .ite (.foldl hg.commitLanes fun _ _ hu => .ite hu.acquire hu) (partWays (.foldl hg.writeLanes fun _ _ hu => hu.updThread))

theorem giveElement {k t w v} (h : s.memWf) : (s.giveElement k t w v).memWf := by
  delta State.giveElement
  split
  · extract_lets bits x s1 s2
    have h1 : s2.memWf := by
      refine .ite h.updThread ?_
      split
      · split
        · exact h.updThread.addPush
        · exact h.updThread
      · exact h.updThread.putDst
    exact h1.departAcq
  · exact h

theorem serveQueue {p q n} (h : s.memWf) : (State.serveQueue p q n s).memWf := by
  induction n generalizing s with
  | zero => exact h
  | succ n ih =>
    rw [State.serveQueue]
    split
    · exact h
    · have popped := h.popQueue (p := p) (q := q)
      split
      next hp =>
        rw [hp] at popped
        exact ih popped.giveElement
      · exact h

theorem execQueueDeliver {part queue} (h : s.memWf) : NextWf (execQueueDeliver part queue s) := by
  delta execQueueDeliver
  split
  · exact .next h
  · exact .next h.updPart.updLaunch.serveQueue

/-! ### Points.lean -/

theorem noteRing {p} (h : s.memWf) : (s.noteRing p).memWf := .foldl h (fun _ _ ht => ht.noteVa)

theorem rpopenLane {k n} (h : s.memWf) : (s.rpopenLane k n).2.memWf := by
  delta State.rpopenLane
  split
  · exact h
  · exact .ite (updLaunch (.ite h.updPart h)) (.ite h.updPart h)

theorem rpsealLane {k n ring} (h : s.memWf) : (s.rpsealLane k n ring).2.2.memWf := by
  delta State.rpsealLane
  split
  · exact h
  · extract_lets s1
    have h1 : s1.memWf := .ite h.updLaunch h
    split
    · exact h1.updPart
    · split
      · exact h1
      · exact h1

theorem pointDone {k tl i st} (h : s.memWf) : (s.pointDone k tl i st).memWf := by
  delta State.pointDone
  split
  · exact depart (.ite h h.putDst)
  · exact .ite (depart (.ite h h.putDst)) (departAcq (.ite h h.putDst))
  · exact h

theorem retestPoint {k tl} (h : s.memWf) : (s.retestPoint k tl).memWf := by
  delta State.retestPoint
  split
  · split
    next w _ =>
      split
      · have opened := h.rpopenLane (k := k) (n := w.a.setWidth 32)
        split
        next hq =>
          rw [hq] at opened
          exact opened.pointDone
        · exact h
      · split
        · exact h.pointDone
        · exact h
      · exact h
    · exact h
  · exact h

theorem retestPoints {p} (h : s.memWf) : (s.retestPoints p).memWf := .foldl h (fun _ _ ht => .foldl ht (fun _ _ ht1 => ht1.retestPoint))

/-! ### Rollback.lean -/

theorem addScore {phys n} (h : s.memWf) : (s.addScore phys n).memWf := h.frame

theorem dropPoint {p} (h : s.memWf) : (s.dropPoint p).memWf := by
  delta State.dropPoint
  refine .foldl h fun _ _ ht => ?_
  split
  · exact .ite ht.updUnd.poolGive.dropPage ht
  · exact ht

theorem discardPoint {p} (h : s.memWf) : (s.discardPoint p).memWf := by
  delta State.discardPoint
  split
  · exact h
  · exact .ite h.dropPoint.updPart.gutter.retestPoints h

theorem dropPartials {l} (h : s.memWf) : (s.dropPartials l).memWf := h.frame

theorem restoreSnapshot {p n} (h : s.memWf) : (s.restoreSnapshot p n).memWf := by
  delta State.restoreSnapshot
  refine .foldl h fun _ _ ht => ?_
  refine .ite ?_ ht
  split
  · exact ht.updUnd.poolGive.dropPage
  · exact ht.updUnd

theorem dropQueued {p n} (h : s.memWf) : (s.dropQueued p n).memWf := h.updPart

theorem requeue {p n} (h : s.memWf) : (s.requeue p n).memWf := by
  delta State.requeue
  split
  · exact h
  · exact h.updLaunch.updPart

theorem containStop {p n cause aux2} (h : s.memWf) : (s.containStop p n cause aux2).memWf := by
  delta State.containStop
  split
  · exact h
  · exact .ite h.stopBlocks.dropPartials.dropQueued.gutter.updLaunch h

theorem containEnd {p n cause lost} (h : s.memWf) : (s.containEnd p n cause lost).memWf := by
  delta State.containEnd
  split
  · exact h
  · exact .ite h.gutter.endFatal h.requeue

theorem containHeld {r} (h : s.memWf) : (s.containHeld r).memWf := .foldl (.foldl h (fun _ _ ht => ht.containStop)) (fun _ _ ht => ht.updPart)

theorem endRollback {r} (h : s.memWf) : (s.endRollback r).memWf :=
  .foldl (.foldl (.foldl h (fun _ _ ht => ht.discardPoint)) (fun _ _ ht => ht.restoreSnapshot)) fun _ _ ht => ht.containEnd

theorem rollBack {r} (h : s.memWf) : (s.rollBack r).memWf := .ite h.containHeld.endRollback h.containHeld.frame.snoopHost

theorem retryRollbacks (h : s.memWf) : (s.retryRollbacks).memWf := .foldl h.frame (fun _ _ ht => ht.rollBack)

theorem containMany {ks cause aux2 also} (h : s.memWf) : (s.containMany ks cause aux2 also).memWf := rollBack (.foldl h (fun _ _ ht => ht.flushLaunch))

theorem contain {p n cause aux2} (h : s.memWf) : (s.contain p n cause aux2).memWf := h.containMany

theorem quarantined {core} (h : s.memWf) : (s.quarantined core).memWf := .ite h h.frame.gutter

theorem quarantineNow {core cause} (h : s.memWf) : (s.quarantineNow core cause).memWf := .ite h.quarantined.containMany h

theorem scoreCore {core n cause} (h : s.memWf) : (s.scoreCore core n cause).memWf := h.addScore.quarantineNow

theorem coreCorrected {core kind addr synd} (h : s.memWf) : (s.coreCorrected core kind addr synd).memWf := by
  delta State.coreCorrected
  extract_lets s1 b s2
  have h1 : s2.memWf := h.bankError.setBank
  exact .ite h1.scoreCore h1

/-! ### Matrix.lean -/

theorem traceMcc {core pc code} (h : s.memWf) : (s.traceMcc core pc code).memWf := by
  delta State.traceMcc
  split
  · exact h.trace
  · exact h

theorem mccFault {core pc code aux0 aux1} (h : s.memWf) : (s.mccFault core pc code aux0 aux1).memWf := h.traceMcc.updMcc

theorem mccStop {x e} (h : s.memWf) : (s.mccStop x e).memWf := by
  delta State.mccStop
  split
  · exact .ite h.updMcc h.mccFault
  · exact h.updMcc
  · exact h.request.updMcc
  · exact h

theorem mcc {f} (h : s.memWf) (hf : ∀ x, Yields memWf (f x)) : NextWf (s.mcc f) := by
  delta State.mcc
  refine h.onMcc fun _ => ?_
  split
  next hq => exact (hf _ _ hq)
  · exact h.mccStop

theorem mnext {x lit} (h : s.memWf) : (s.mnext x lit).memWf := h.updMcc

theorem setX {x d v} (h : s.memWf) : (s.setX x d v).memWf := h.updMcc

theorem scalar {lit d f} (h : s.memWf) : NextWf (s.scalar lit d f) := h.mcc (fun _ => .ok h.setX.mnext)

theorem mccResp {x l} (h : s.memWf) : Finds (fun r => r.2.memWf) (Machine.mccResp s x l) :=
  .bind .any fun _ _ => .map .any fun _ _ => h.updMcc

theorem mccLoad {x a n bypass cur} (h : s.memWf) : Yields (fun r => r.2.memWf) (mccLoad s x a n bypass cur) := by
  delta mccLoad
  extract_lets s0
  split
  · exact .ite .error (.ite .error (.ok h.noteLeaf))
  · split
    next hq => exact .ite .error (.ok (h.noteLeaf.mccResp _ hq))
    · exact .ite .error .error
  · exact .ite .error (.ok h.noteLeaf.mergeFor.load)

theorem mgoto {x pc} (h : s.memWf) : (s.mgoto x pc).memWf := h.updMcc

theorem execXjmp {lit link t} (h : s.memWf) : NextWf (Machine.execXjmp lit link t s) := by
  delta Machine.execXjmp
  refine h.mcc fun x => .ite .error (.ok (mgoto ?_))
  split
  · exact h.setX
  · exact h

theorem execXsig {lit k} (h : s.memWf) : NextWf (execXsig lit k s) := by
  delta execXsig
  extract_lets put
  split
  · refine h.mcc fun _ => ?_
    refine .bind .any fun _ _ => ?_
    refine .ite ?_ .error
    extract_lets s1
    have h3 : s1.memWf := h.noteLeaf.issueAccess
    exact .ok (.ite h3.mnext.updMcc h3.mnext)
  · refine h.mcc fun _ => ?_
    refine .bind .any fun _ _ => ?_
    refine .ite ?_ .error
    extract_lets s1
    have h3 : s1.memWf := h.noteLeaf.issueAccess
    exact .ok (.ite h3.mnext.updMcc h3.mnext)
  · exact h.mcc fun _ => .ok h.mnext.updMcc

theorem execXwait {lit a v} (h : s.memWf) : NextWf (Machine.execXwait lit a v s) := by
  delta Machine.execXwait
  refine h.mcc fun x => .bind .any fun q _ => ?_
  have stamped := h.noteLeaf (p := x.b.key.part) (w := q.w) (dies := [s.curDie]) |>.stampAt (ag := some x.agent) (l := q.loc)
  exact .ite .error (.ite (.ok stamped.acquire.mnext) (.ok stamped.updMcc))

theorem retestMcc {core} (h : s.memWf) : (s.retestMcc core).memWf := by
  delta State.retestMcc
  split
  · exact h
  next m _ =>
    split
    next l _ _ => exact .ite (h.stampAt (ag := some (.mcc m.key)) (l := l)).updMcc h
    · exact h

/-! ### Tiles.lean -/

theorem execTmma {m t a b} (h : s.memWf) : NextWf (execTmma m t a b s) := by
  delta execTmma
  refine h.mcc fun _ => ?_
  split
  · exact .error
  · exact .ite .error (.ok h.updMcc.mnext)

theorem execTmmaJoin {core} (h : s.memWf) : NextWf (execTmmaJoin core s) := by
  delta execTmmaJoin
  refine .next ?_
  split
  · split
    · exact .ite h (.ite (.foldl h (fun _ _ ht => ht.updMcc.mccFault)) h.updMcc.updMcc.updMcc.updMcc)
    · exact h
  · exact h

theorem execTsync (h : s.memWf) : NextWf (execTsync s) := by
  delta execTsync
  refine h.mcc fun _ => ?_
  split
  · exact .error
  · exact .ite (.ok h.mnext) .error

theorem globPiece {x p} (h : s.memWf) : Yields (fun r => r.2.memWf) (Machine.globPiece s x p) := by
  delta Machine.globPiece
  refine .bind .any fun a _ => ?_
  split
  · exact h.mccLoad
  · exact .foldl (.ok h) fun _ _ hq => .bind hq fun _ ht => .map ht.mccLoad fun _ hu => hu

theorem globRead {x runs} (h : s.memWf) : Yields (fun r => r.2.memWf) (Machine.globRead s x runs) := by
  delta Machine.globRead
  extract_lets pieces errs
  clear_value errs
  split
  · exact .error
  · exact .foldl (.ok h) fun _ _ hq => .bind hq fun _ ht =>
      .map (.foldl (P := fun r => r.2.memWf) (.ok ht) fun _ _ hw => .bind hw fun _ hu => .map hu.globPiece fun _ hv => hv) fun _ hu => hu

theorem updLatch {x t f} (h : s.memWf) : (s.updLatch x t f).memWf := h.updMcc

theorem execTgath {lit f t off idx pitch rowb} (h : s.memWf) : NextWf (execTgath lit f t off idx pitch rowb s) :=
  h.mcc fun _ => .ite .error (.ite .error (.ite .error (.map .any (fun _ _ => h.updLatch.mnext))))

theorem execTcode {lit t src} (h : s.memWf) : NextWf (Machine.execTcode lit t src s) := by
  delta Machine.execTcode
  refine h.mcc fun x => ?_
  split
  · exact .ite .error (.map .any fun _ _ => h.updMcc.mnext)
  · exact .ite .error (.map h.globRead fun _ ht => ht.updMcc.mnext)
  · exact .ite .error (.map h.globRead fun _ ht => ht.updMcc.mnext)

theorem execTscale {lit t sp addr pitch} (h : s.memWf) : NextWf (Machine.execTscale lit t sp addr pitch s) :=
  h.mcc fun _ => .ite (.map .any fun _ _ => h.updMcc.mnext) (.map h.globRead fun _ ht => ht.updMcc.mnext)

theorem execTacc {lit t src r} (h : s.memWf) : NextWf (Machine.execTacc lit t src r s) := by
  delta Machine.execTacc
  refine h.mcc fun x => ?_
  split
  · exact .ite .error (.ok h.updMcc.mnext)
  · exact .ite .error (.ite .error (.ite .error (.map .any fun _ _ => h.updMcc.mnext)))

theorem tileStore {x quant off bs} (h : s.memWf) : (s.tileStore x quant off bs).memWf := .foldl h (fun _ _ ht => ht.issueAccess)

theorem cellStore {x acc off bs} (h : s.memWf) : (s.cellStore x acc off bs).memWf := .ite h.issueAccess h.tileStore

theorem addMflags {x fl} (h : s.memWf) : (s.addMflags x fl).memWf := h.updMcc

theorem execTdrain {lit t off pitch d clr r} (h : s.memWf) : NextWf (Machine.execTdrain lit t off pitch d clr r s) := by
  delta Machine.execTdrain
  refine h.mcc fun x => .ite .error (.ite .error ?_)
  split
  · exact .error
  · refine .ite .error ?_
    dsimp only
    split
    · exact .error
    · refine .ok (mnext (.ite (updMcc ?_) ?_)) <;> exact .foldl h fun _ _ ht => ht.cellStore.addMflags

theorem execTqnt {lit t off soff pitch fmt rnd clr r} (h : s.memWf) : NextWf (Machine.execTqnt lit t off soff pitch fmt rnd clr r s) := by
  delta Machine.execTqnt
  refine h.mcc fun x => ?_
  dsimp only
  split
  · exact .error
  · refine .ite .error ?_
    split
    · exact .error
    · refine .ok (mnext (.ite (updMcc ?_) ?_)) <;> exact .foldl h fun _ _ ht => ht.tileStore.tileStore.addMflags

theorem execTstate {lit ld off} (h : s.memWf) : NextWf (execTstate lit ld off s) :=
  h.mcc fun _ => .ite .error (.ite .error (.ite (.map .any (fun _ _ => h.updMcc.mnext)) (.ok (mnext (.foldl h (fun _ _ ht1 => ht1.issueAccess))))))

theorem startWalk {lit m t d desc budget again} (h : s.memWf) : NextWf (startWalk lit m t d desc budget again s) :=
  h.mcc fun _ => .ite (.ok h.setX.mnext) (.ite .error (.ite .error (.ite .error (.ite .error (.ite .error (.ok h.updMcc))))))

theorem takeStep {x w step} (h : s.memWf) : (s.takeStep x w step).memWf := by
  delta State.takeStep
  dsimp only
  split
  · exact .ite h.mccFault h
  · exact h
  · exact h.updMcc

theorem execWalkStepStart {core step} (h : s.memWf) : NextWf (execWalkStepStart core step s) := by
  delta execWalkStepStart
  refine .next ?_
  split
  · exact h
  · split
    · exact .ite h.takeStep h
    · exact h

theorem drainHead {core g cells} (h : s.memWf) : (s.drainHead core g cells).memWf := h.count.updMcc

theorem takeSdc {x} (h : s.memWf) : (s.takeSdc x).memWf := h.takeTrap.updMcc

theorem sdcAlone {core b t} (h : s.memWf) : (s.sdcAlone core b t).memWf := by
  delta State.sdcAlone
  refine .ite h ?_
  extract_lets out s1 id s2
  split
  · exact h
  · exact h.frame.newCourse.takeSdc.updCourse

theorem sdcDeliver {core} (h : s.memWf) : (s.sdcDeliver core).memWf := by
  delta State.sdcDeliver
  split
  · exact h
  · refine .ite h ?_
    split
    · exact h.contain
    · split
      · exact h
      · exact h.sdcAlone

theorem flashBad {x g rows cols ckOnly unit arrayBad} (h : s.memWf) : (s.flashBad x g rows cols ckOnly unit arrayBad).memWf := by
  delta State.flashBad
  extract_lets syn s1 s2
  have h1 : s2.memWf := h.updBlock.bankError
  exact .ite h1.frame.updMcc (.ite h1.updMcc.sdcDeliver.scoreCore h1.contain.scoreCore)

theorem execStagedMultiplyDrain {core fault} (h : s.memWf) : NextWf (execStagedMultiplyDrain core fault s) := by
  delta execStagedMultiplyDrain
  refine .next ?_
  split
  · exact h
  · split
    · exact h.sdcDeliver
    · exact h
    · refine .ite h ?_
      split
      · exact .ite h.drainHead.updMcc.coreCorrected.count h.drainHead
      · exact h.flashBad
    · exact h

/-! ### Return.lean -/

theorem sdcReturn {core} (h : s.memWf) : (s.sdcReturn core).memWf := h.updMcc

theorem resumeFrame {k core id f} (h : s.memWf) : (s.resumeFrame k core id f).memWf := h.updCourse.reinject

theorem retestWait {k tl} (h : s.memWf) : (s.retestWait k tl).memWf := by
  delta State.retestWait
  split
  · split
    · split
      · exact h.cpyqRetest
      · exact h.serveQueue
      · exact h.xbRetest
      · exact h.retestPoint
      · exact h.retestPoint
      · exact h
    · exact h
  · exact h

theorem returnAlone {k core id tl f} (h : s.memWf) : (s.returnAlone k core id tl f).memWf := by
  delta State.returnAlone
  extract_lets s1
  have h1 : s1.memWf := h.delCourse.updThread
  split
  · exact .ite h1.park.departAcq h1.park.retestWait
  · exact h1.fileThread

theorem execRft {h'} (h : s.memWf) : NextWf (execRft h' s) := by
  delta execRft
  refine h.onCourse fun _ => ?_
  split
  · exact h.illegal
  · extract_lets s1
    have h2 : s1.memWf := .ite h.sdcReturn h
    refine .ite ?_ h2.resumeFrame
    split
    · exact h2.returnAlone
    · exact h2

/-! ### Submit.lean -/

theorem virtMerge {p va n} (h : s.memWf) : (s.virtMerge p va n).memWf := by
  delta State.virtMerge
  refine .foldl h fun _ _ ht => ?_
  extract_lets a
  split
  · exact ht.mergeFor
  · exact ht

theorem readBytes {p va n} (h : s.memWf) : (s.readBytes p va n).2.memWf := h.virtMerge

theorem storeVirt {p va bs} (h : s.memWf) : (s.storeVirt p va bs).memWf := by
  delta State.storeVirt
  split
  · exact h.request
  · exact h.noteLeaf.storeFw
  · exact h

theorem writeStatus {p addr n code} (h : s.memWf) : (s.writeStatus p addr n code).memWf := h.storeVirt.storeVirt

/-- A submission reads the descriptor's tables, then writes what became of it. -/
theorem submit {p queue addr} (h : s.memWf) : (s.submit p queue addr).2.memWf := by
  have table : ∀ {t : State} (a n), t.memWf → (if n = 0 then ((some [] : Table), t) else t.readBytes p a n).2.memWf := fun _ _ ht =>
    .iteSnd ht ht.readBytes
  have desc : (s.readBytes p addr 256).2.memWf := h.readBytes
  have read := fun a n b m c k => table a n (table b m (table c k desc))
  delta State.submit
  dsimp only
  split
  · exact desc.writeStatus
  · exact .iteSnd (read _ _ _ _ _ _).writeStatus (updPart (read _ _ _ _ _ _).frame).writeStatus

theorem execDlaunch {h' d a queue} (h : s.memWf) : NextWf (Machine.execDlaunch h' d a queue s) := by
  delta Machine.execDlaunch
  refine h.lanesWith (fun _ _ _ _ _ ht => .ite .error (.ok ht)) fun x outs t ht => ?_
  have held : (s.releaseAll (outs.map fun o => x.agent o.tl) .dev).1.memWf := h.releaseAll
  have released : (t.releaseAll (outs.map fun o => x.agent o.tl) .dev).1.memWf := ht.releaseAll
  exact .ite held.hold (commitLanes (foldlFst released fun _ _ hq => hq.submit))

/-! ### Launch.lean -/

theorem withoutUnits {p us} (h : s.memWf) : (s.withoutUnits p us).memWf :=
  h.fewerBlocks (p := fun b => !(b.key.part == p && (s.launch? b.key.part b.key.lnum).any fun l => us.contains (b.key.lnum, b.key.bl / l.d.unitSize)))

theorem startBlock {l u b} (h : s.memWf) : (State.startBlock l u s b).memWf := h.moreBlocks rfl

theorem placeUnit {l u i o fresh} (h : s.memWf) : (s.placeUnit l u i o fresh).memWf := by
  delta State.placeUnit
  extract_lets s1 s2
  have h1 : s1.memWf := h.updLaunch
  have h2 : s2.memWf := h1.frame
  exact .ite h2.updPart h2

theorem refuseLate {l page} (h : s.memWf) : (s.refuseLate l page).memWf := h.storeVirt.gutter.writeDone.updLaunch.updPart

theorem firstDispatch {l} (h : s.memWf) : (s.firstDispatch l).memWf := by
  delta State.firstDispatch
  extract_lets s1
  have h1 : s1.memWf := by
    refine .foldl h fun _ _ ht => ?_
    split
    · split
      · exact ht.notePage.updUnd
      · exact ht
    · exact ht
  exact h1.updLaunch

theorem writeBinds {part lnum bs} (h : s.memWf) : (s.writeBinds part lnum bs).memWf := h.frame

theorem clearValid {part lnum bs} (h : s.memWf) : (s.clearValid part lnum bs).memWf := h.frame

theorem traceLaunch {k core type} (h : s.memWf) : (s.traceLaunch k core type).memWf := h.trace

theorem overrun {l binds} (h : s.memWf) : (s.overrun l binds).memWf := by
  delta State.overrun
  split
  · exact h.writeBinds.gutter
  · exact h.clearValid

theorem bindsRefused {l u binds} (h : s.memWf) : (s.bindsRefused l u binds).memWf := .ite h.overrun h.clearValid

theorem restoreRefused {l b} (h : s.memWf) : (s.restoreRefused l b).memWf := .ite h.overrun h.clearValid

theorem execDispatchUnit {part lnum binds} (h : s.memWf) : NextWf (execDispatchUnit part lnum binds s) := by
  delta execDispatchUnit
  split
  · exact .next h
  · extract_lets l s0
    split
    · exact .next h.clearValid
    · split
      · refine .ite ?_ (.next h.bindsRefused)
        refine .ite (.next h.writeBinds) ?_
        split
        · exact .next h.updLaunch.refuseLate
        · exact .next (writeBinds (placeUnit (.foldl (.ite h.updLaunch.firstDispatch.traceLaunch h.updLaunch) (fun _ _ ht => ht.startBlock))))
      · exact .next h.bindsRefused

theorem poolRecord {page} (h : s.memWf) : (s.poolRecord page).memWf := .ite h h.frame.gutter

theorem execSnapshotPageCopy {page} (h : s.memWf) : NextWf (execSnapshotPageCopy page s) := by
  delta execSnapshotPageCopy
  refine .next ?_
  split
  next hq => exact .ite (poolRecord (h.snapCopy _ hq)) (h.snapCopy _ hq)
  · exact h.poolRecord

theorem execUnderlayPoolWaitEnd {page} (h : s.memWf) : NextWf (Machine.execUnderlayPoolWaitEnd page s) := by
  delta Machine.execUnderlayPoolWaitEnd
  extract_lets t rid
  have ht : t.memWf := h.frame
  have hrid : ∀ {u}, State.memWf u → (rid u).memWf := fun hu => hu.frame
  exact .next (.ite (.ite ht.retryFw (hrid ht.retryFw)) (hrid ht).retryFw)

theorem freeBlock {b} (h : s.memWf) : (s.freeBlock b).memWf := h.fewerBlocks (p := fun c => decide (c.key ≠ b.key))

theorem retireBlock {l b} (h : s.memWf) : (s.retireBlock l b).memWf := h.freeBlock.updLaunch

theorem retireLaunch {p n core} (h : s.memWf) : (s.retireLaunch p n core).memWf := by
  delta State.retireLaunch
  split
  · exact h
  · exact .ite h h.dropSnapshot.writeDone.updLaunch.traceLaunch

theorem retireRun {p n fuel} (h : s.memWf) : (State.retireRun p n fuel s).memWf := by
  induction fuel generalizing s with
  | zero => exact h
  | succ fuel ih =>
    rw [State.retireRun]
    split
    · exact h
    · split
      · exact h
      · exact .ite (ih (.foldl h fun _ _ ht => ht.retireBlock)) h

theorem execBlockRetire {core slot} (h : s.memWf) : NextWf (execBlockRetire core slot s) := by
  delta execBlockRetire
  refine .next ?_
  split
  · exact h
  · split
    · exact h
    · exact .ite h (.ite (.ite h.updLaunch.retireRun.retireLaunch h) h.retireBlock.retireLaunch)

theorem saveBlock {l b image} (h : s.memWf) : (s.saveBlock l b image).memWf := by
  delta State.saveBlock
  extract_lets bs v a s1 s2
  have h1 : s1.memWf := h.putMem
  clear_value s1
  have h2 : s2.memWf := h1.frame
  exact h2.freeBlock.updLaunch

theorem vacate {l us images} (h : s.memWf) : (s.vacate l us images).memWf := by
  delta State.vacate
  refine updLaunch (.foldl h fun t p ht => ?_)
  split
  · exact ht.saveBlock
  · exact ht

theorem vacateIfQuiet {l us images} (h : s.memWf) : (s.vacateIfQuiet l us images).memWf :=
  .ite h.updLaunch (.ite (.ite (.ite (vacate (.foldl h (fun _ _ ht => ht.settle))) h.updLaunch.snoopHost) h.updLaunch) h)

theorem keepFor {part requester cores} (h : s.memWf) : (s.keepFor part requester cores).memWf := h.frame

theorem execPreemptVacate {part lnum requester units images} (h : s.memWf) : NextWf (execPreemptVacate part lnum requester units images s) := by
  delta execPreemptVacate
  refine .next ?_
  split
  · exact .ite (.ite h.vacateIfQuiet h) (.ite h.vacateIfQuiet.keepFor h)
  · exact h

theorem nonOwner (h : s.memWf) : (s.nonOwner).memWf := h.gutter

theorem execOwnerPreemptCmd {agent part lnum units images} (h : s.memWf) : NextWf (execOwnerPreemptCmd agent part lnum units images s) := by
  delta execOwnerPreemptCmd
  refine .next (.ite h.nonOwner ?_)
  split
  · exact .ite h.vacateIfQuiet h
  · exact h

theorem restorePush {v ts k core id lanes} (h : s.memWf) : (s.restorePush v ts k core id lanes).memWf := by
  delta State.restorePush
  split
  · exact h
  · exact updCourse (.foldl h (fun _ _ ht => ht.updThread))

theorem restoreCrew {l v ts k core slot lanes} (h : s.memWf) : (State.restoreCrew l v ts k core slot s lanes).memWf := by
  delta State.restoreCrew
  extract_lets fs w id c skip s1 s2
  have h1 : s2.memWf := by
    refine .foldl h.frame.bumpId fun _ _ ht => ?_
    split
    · exact ht.updThread
    · exact ht
  split
  · exact h1.restorePush
  · exact .ite h1.updCourse.restorePush (.ite h1.updCourse h1.resumeFrame.updCourse.restorePush)

theorem placeThreads {l v key b ts} (h : s.memWf) : (s.placeThreads l v key b ts).memWf := by
  delta State.placeThreads
  refine .foldl (.foldl h (fun _ _ ht => ht.restoreCrew)) fun _ _ ht => ?_
  split
  · exact ht.park
  · exact ht.fileThread

theorem retestRestored {key ts} (h : s.memWf) : (s.retestRestored key ts).memWf := .foldl h (fun _ _ ht => ht.retestWait)

theorem restoreBlock {l v u b} (h : s.memWf) : (s.restoreBlock l v u b).memWf := by
  delta State.restoreBlock
  extract_lets rd key ts s1 s2
  have h1 : s1.memWf := h.moreBlocks (Memory.write_wf _ _ _ rfl)
  have h2 : s2.memWf := h1.placeThreads.retestRestored
  exact .ite h2.sdcDeliver h2

theorem endPoisoned {p n} (h : s.memWf) : (s.endPoisoned p n).memWf := h.gutter.endFatal

theorem restoreFails {l bl check} (h : s.memWf) : (s.restoreFails l bl check).memWf := h.gutter.endFatal

theorem execBlockRestore {part lnum bind} (h : s.memWf) : NextWf (execBlockRestore part lnum bind s) := by
  delta execBlockRestore
  refine .next ?_
  split
  · exact h
  · split
    · exact h.restoreRefused
    · refine .ite h.restoreRefused (.ite h ?_)
      refine .ite h.endPoisoned ?_
      split
      · exact h.restoreFails
      · extract_lets s1 s2
        have h1 : s2.memWf := by
          refine .ite h.placeUnit ?_
          split
          · exact .ite h.placeUnit.updLaunch h.placeUnit
          · exact h.placeUnit
        refine writeBinds ?_
        refine .foldl h1 fun _ _ ht1 => ?_
        split
        · exact ht1.restoreBlock
        · exact ht1

theorem execWatchdog {part lnum} (h : s.memWf) : NextWf (execWatchdog part lnum s) := by
  delta execWatchdog
  refine .next ?_
  split
  · exact h
  · exact .ite h.gutter.endFatal h

/-! ### Courses.lean -/

theorem emitAndFile {b} (h : s.memWf) : (s.emitAndFile b).memWf := h.emitBin.fileUnfiled

theorem execBinEmitAge {core bin} (h : s.memWf) : NextWf (execBinEmitAge core bin s) := by
  delta execBinEmitAge
  refine .next ?_
  split
  · exact .ite h.emitAndFile h
  · exact h

theorem execBinEmitIdle {core} (h : s.memWf) : NextWf (execBinEmitIdle core s) := by
  delta execBinEmitIdle
  refine .next ?_
  split
  · exact .ite h.emitAndFile h
  · exact h

theorem execBinEmitDeferred {core} (h : s.memWf) : NextWf (execBinEmitDeferred core s) := by
  delta execBinEmitDeferred
  refine .next ?_
  extract_lets s1
  have h1 : s1.memWf := by
    dsimp only [s1]
    split
    · exact .ite h.emitBin h
    · exact h
  exact h1.fileUnfiled

theorem execCourseRefile {core course} (h : s.memWf) : NextWf (execCourseRefile core course s) := by
  delta execCourseRefile
  refine .next ?_
  split
  · exact h
  · exact .ite h.delCourse.fileAt.fileUnfiled h

theorem execTrapFrameWaitEnd {core course} (h : s.memWf) : NextWf (execTrapFrameWaitEnd core course s) := by
  delta execTrapFrameWaitEnd
  refine .next ?_
  split
  · exact h
  · split
    · exact .ite h h.updCourse.takeTrap
    · exact h

theorem execStampReevaluate {core slot tl} (h : s.memWf) : NextWf (execStampReevaluate core slot tl s) := by
  delta execStampReevaluate
  refine .next (.ite h.retestMcc ?_)
  split
  · exact h.retest
  · exact h

/-! ### Recovery.lean -/

theorem pointLane {x v} (h : s.memWf) : Yields (fun r => r.2.memWf) (pointLane s x v) := .ite .error (.ok h)

theorem execRpopen {h' d n} (h : s.memWf) : NextWf (Machine.execRpopen h' d n s) := by
  delta Machine.execRpopen
  refine h.lanesWith (fun _ _ _ _ _ ht => ht.pointLane) fun x _ _ ht => partWays (writeLanes (.foldlFst ht fun q o hq => ?_))
  have opened := hq.rpopenLane (k := x.b.key) (n := BitVec.ofNat 32 o.res.val)
  dsimp only
  split
  next hp => simpa only [hp] using opened
  next hp => simpa only [hp] using opened

theorem execRpseal {h' d n} (h : s.memWf) : NextWf (Machine.execRpseal h' d n s) := by
  delta Machine.execRpseal
  refine h.lanesWith (fun _ _ _ _ _ ht => ht.pointLane) fun x _ t ht => partWays (writeLanes (.foldlFst ht fun q o hq => ?_))
  have sealed := hq.noteRing (p := x.b.key.part) |>.rpsealLane (k := x.b.key) (n := BitVec.ofNat 32 o.res.val) (ring := (t.ringOf x.b.key.part).getD [])
  dsimp only
  split
  next hp =>
    rw [hp] at sealed
    exact .ite sealed sealed.acquire
  next hp => simpa only [hp] using sealed

theorem execSealReleaseDone {part} (h : s.memWf) : NextWf (execSealReleaseDone part s) := by
  delta execSealReleaseDone
  refine .next ?_
  split
  · exact h
  · refine .ite h ?_
    extract_lets s1
    have h1 : s1.memWf := .foldl h fun _ _ ht => ht.settle
    exact .ite h1.updPart.retestPoints h1

theorem drainAll (h : s.memWf) : (s.drainAll).memWf := .foldl h (fun _ _ ht => .foldl ht.acceptAll (fun _ _ ht1 => ht1.drainLine))

theorem swapPoint {pages} (h : s.memWf) : (s.swapPoint pages).memWf := .foldl h (fun _ _ ht => ht.updUnd.poolGive.dropPage)

theorem execPlateSeal {part} (h : s.memWf) : NextWf (execPlateSeal part s) := by
  delta execPlateSeal
  refine .next ?_
  split
  · exact h
  · split
    · exact h
    · refine .ite h (.ite h.drainAll.snoopHost ?_)
      split
      · exact h.asked
      next hq => exact retestPoints (updPart (swapPoint (acceptAll (h.drainAll.storeAt _ hq))))

/-! ### Observe.lean -/

theorem execPmark {h' tag a} (h : s.memWf) : NextWf (Machine.execPmark h' tag a s) := by
  delta Machine.execPmark
  refine h.lanesWith (fun _ _ _ _ _ ht => .ok ht) fun _ _ _ ht => commitLanes (foldl ?_ fun _ _ hu => hu.trace)
  exact count (.ite ht ht.markTriggers)

theorem execCounterGroupRotate {part} (h : s.memWf) : NextWf (execCounterGroupRotate part s) := by
  delta execCounterGroupRotate
  refine .next ?_
  split
  · exact h
  · exact .ite h.updPart h

theorem clearCounters {part} (h : s.memWf) : (s.clearCounters part).memWf := h.frame

theorem sampleIssue {x quad} (h : s.memWf) : (s.sampleIssue x quad).memWf := .ite h.frame.trace h

theorem execPcSample {part core quad reason} (h : s.memWf) : NextWf (execPcSample part core quad reason s) := by
  delta execPcSample
  refine .next (.ite h ?_)
  extract_lets s1
  split
  · split
    · exact h.frame.trace
    · exact h
  · exact h.frame.trace

theorem execShadowRead {agent name opnd sel} (h : s.memWf) : NextWf (execShadowRead agent name opnd sel s) := by
  delta execShadowRead
  refine .next (.ite h.nonOwner ?_)
  split
  · exact h.setReg.setReg
  · exact h.setReg.setReg

theorem debugContinue {core id} (h : s.memWf) : (s.debugContinue core id).memWf := by
  delta State.debugContinue
  split
  · exact h
  · split
    · exact h.resumeFrame.updCourse
    · exact h

theorem unhalt {part lnum} (h : s.memWf) : (s.unhalt part lnum).memWf := .ite (updLaunch (.foldl h (fun _ _ ht => .ite ht.debugContinue ht))) h

theorem setDbgatt {part lnum} (h : s.memWf) : (s.setDbgatt part lnum).memWf := .ite h.setReg.unhalt h.setReg

theorem execDebugHalt {core course} (h : s.memWf) : NextWf (execDebugHalt core course s) := by
  delta execDebugHalt
  refine .next ?_
  split
  · exact h
  · split
    · exact .ite h.updCourse.gutter.updLaunch h
    · exact h

theorem execDebugSave {agent core slot image} (h : s.memWf) : NextWf (execDebugSave agent core slot image s) := by
  delta execDebugSave
  refine .next (.ite h.nonOwner ?_)
  split
  · refine .ite h ?_
    extract_lets s1
    have h1 : s1.memWf := .foldl h fun _ _ ht => ht.settle
    split
    · exact .ite h1.snoopHost (.ite h1.saveBlock.updLaunch h1)
    · exact h
  · exact h

theorem debugRestoreOne {l b} (h : s.memWf) : (s.debugRestoreOne l b).memWf := by
  delta State.debugRestoreOne
  split
  · exact h
  · exact .ite h.restoreRefused (.ite h (.ite h.endPoisoned (.ite h.restoreFails (writeBinds (restoreBlock (.ite h.updLaunch.updLaunch h.updLaunch))))))

theorem execDebugRestore {agent part lnum bind} (h : s.memWf) : NextWf (execDebugRestore agent part lnum bind s) := by
  delta execDebugRestore
  refine .next (.ite h.nonOwner ?_)
  split
  · exact .ite h.debugRestoreOne h
  · exact h

theorem execDebugResume {agent binds} (h : s.memWf) : NextWf (execDebugResume agent binds s) := by
  delta execDebugResume
  refine .next (.ite h.nonOwner ?_)
  split
  · exact h
  · extract_lets s1
    have h1 : s1.memWf := by
      refine .foldl h fun _ _ ht => ?_
      split
      · exact .ite ht.debugRestoreOne ht
      · exact ht
    split
    · exact .ite h1 h1.unhalt
    · exact h1

theorem execDbgchk {agent image} (h : s.memWf) : NextWf (execDbgchk agent image s) := by
  delta execDbgchk
  refine .next (.ite h.nonOwner ?_)
  split
  · exact h.setReg
  · exact h

theorem pass {d} (h : s.memWf) : (s.pass d).memWf := h.frame

/-! ### Supervise.lean -/

theorem fatalCause {r part lnum} (h : s.memWf) : (s.fatalCause r part lnum).memWf := h.gutter.endFatal

theorem execSupervisorTrapTake {core course} (h : s.memWf) : NextWf (execSupervisorTrapTake core course s) := by
  delta execSupervisorTrapTake
  refine .next (.ite ?_ ?_)
  · split
    · exact h
    · split
      · exact .ite h h.fatalCause
      · exact h
  · split
    · exact h
    · split
      · exact .ite h.fatalCause (.ite h (.ite (.ite h h.updCourse.debugContinue) h.fatalCause))
      · exact h

theorem execPage {core course} (h : s.memWf) : NextWf (execPage core course s) := by
  delta execPage
  refine .next (.ite ?_ ?_)
  · split
    · exact h
    · exact .ite h.gutter h
  · split
    · exact h
    · split
      · exact .ite h.updCourse.gutter h
      · exact h

theorem gqForget (h : s.memWf) : (s.gqForget).memWf := h.frame

theorem gqAnswer {seq} (h : s.memWf) : (s.gqAnswer seq).memWf := h.frame

theorem execGqackRetry {seq} (h : s.memWf) : NextWf (execGqackRetry seq s) := by
  delta execGqackRetry
  refine .next ?_
  split
  · exact h.gqAnswer.retrySrc.gqForget
  · exact h

theorem execGqackFatal {seq} (h : s.memWf) : NextWf (execGqackFatal seq s) := by
  delta execGqackFatal
  refine .next ?_
  split
  · split
    · exact h.gqAnswer.fatalCause.gqForget
    · exact h.gqAnswer.gqForget
  · exact h

theorem refusedWrite {off x} (h : s.memWf) : (s.refusedWrite off x).memWf := h.gutter

theorem writeHeld (h : s.memWf) : (s.writeHeld).memWf := .foldl h (fun _ _ ht => .ite ht ht.gutterPump)

theorem execGqbase {agent addr} (h : s.memWf) : NextWf (Machine.execGqbase agent addr s) :=
  have set : (s.setReg 0x100 addr).memWf := h.setReg
  .next (.ite h.nonOwner (.ite h.refusedWrite (writeHeld set.frame)))

/-! ### Errors.lean -/

theorem markSite {e} (h : s.memWf) : (s.markSite e).memWf := by
  delta State.markSite
  split
  · split
    · exact h.frame
    · exact h.frame
    · exact h
  · split
    · exact .ite h.markPoison h
    · exact h
  · split
    · split
      · exact .ite h.updThread h
      · exact h
    · exact h
  · exact h.updCourse
  · split
    · exact h.updThread
    · exact h
  · exact h.containMany
  · exact h

theorem scoreError {e phys} (h : s.memWf) : (s.scoreError e phys).memWf := .ite (.ite h.addScore h) (.ite h.setBank.addScore h.setBank)

theorem execErrorDetect {e} (h : s.memWf) : NextWf (execErrorDetect e s) := by
  delta execErrorDetect
  refine .next ?_
  extract_lets s1 s2
  have h1 : s2.memWf := .ite h.bankError.markSite h.bankError
  split
  · exact h1
  · extract_lets s3
    split
    · exact h1.scoreError.quarantineNow
    · exact h1.scoreError

theorem endVote {core other pass} (h : s.memWf) : (s.endVote core other pass).memWf := by
  delta State.endVote
  split
  · refine .ite h ?_
    dsimp only
    have voted : ({ s with votes := s.votes.filter (fun w => w.core != core) } : State).memWf := h.frame
    split
    · exact voted.gutter.drainHead.updMcc.scoreCore
    · exact voted.gutter.drainHead.updMcc.scoreCore
    · split
      · exact voted.gutter.contain.scoreCore.scoreCore
      · exact voted.gutter.contain.scoreCore
  · exact h

theorem execVoteTimeout {core since} (h : s.memWf) : NextWf (execVoteTimeout core since s) := by
  delta execVoteTimeout
  refine .next ?_
  split
  · exact h
  · exact .ite h h.endVote

theorem execContainment {part lnum cause} (h : s.memWf) : NextWf (execContainment part lnum cause s) := by
  delta execContainment
  refine .next (.ite h.contain ?_)
  split
  · exact .ite h.endPoisoned h
  · exact h

theorem loseHostLines {die} (h : s.memWf) : (s.loseHostLines die).memWf :=
  h.withHost (List.foldlRecOn (motive := fun m => Memory.wf m = true) _ _ h.2.1 fun _ hm _ _ => Memory.write_wf _ _ _ hm)

theorem loseDie {die} (h : s.memWf) : (s.loseDie die).memWf :=
  have lost := h.loseHostLines (die := die)
  lost.mapBlocks (f := fun b => if dieOf b.core == die then { b with pushes := [] } else b) fun b hb => by
    split
    · exact hb
    · exact hb

theorem markReset {die} (h : s.memWf) : (s.markReset die).memWf := by
  delta State.markReset
  extract_lets lost s1 s2
  have h1 : s1.memWf := h.frame
  have h2 : s2.memWf := .foldl h1 fun _ _ ht => ht.homeMerge
  exact h2.frame

theorem resetDie {die} (h : s.memWf) : (s.resetDie die).memWf := .ite h h.loseDie.markReset.frame.containMany

theorem remeasureMap (h : s.memWf) : s.remeasureMap.memWf :=
  have burnt : s.burn.memWf := h.burn
  burnt.frame

theorem mapDie {die} (h : s.memWf) : (s.mapDie die).memWf := h.frame

theorem rescanDie {die} (h : s.memWf) : (s.rescanDie die).memWf := by
  delta State.rescanDie
  extract_lets elsewhere bad s1 s2
  have burnt : (s.burn 208).memWf := h.burn
  have h1 : s1.memWf := burnt.frame
  have h2 : s2.memWf := h1.mapDie (die := die)
  exact .ite h2 h2.remeasureMap

theorem execInfieldScan {core pass} (h : s.memWf) : NextWf (Machine.execInfieldScan core pass s) := by
  delta Machine.execInfieldScan
  refine .next (.ite h (.ite h.frame ?_))
  extract_lets s1 s2 g s3
  have h1 : s1.memWf := h.frame
  have h3 : s3.memWf := h1.burn.addScore.bankError.gutter
  exact .ite h1 (quarantineNow h3.frame)

theorem execSpareRepair {core} (h : s.memWf) : NextWf (execSpareRepair core s) := by
  delta execSpareRepair
  refine .next (.ite h ?_)
  extract_lets die s1
  split
  · exact h.frame.frame.remeasureMap
  · exact h.frame.frame

/-! ### Integer.lean -/

theorem alu1 {i h' d a f} (h : s.memWf) : NextWf (alu1 s i h' d a f) := h.compute

theorem alu2 {i h' d a b f} (h : s.memWf) : NextWf (alu2 s i h' d a b f) := h.compute

theorem alu3 {i h' d a b c f} (h : s.memWf) : NextWf (alu3 s i h' d a b c f) := h.compute

theorem alu2C {i h' d b f} (h : s.memWf) : NextWf (alu2C s i h' d b f) := h.compute

/-! ### Float.lean -/

theorem fp2 {i h' d a b r m f} (h : s.memWf) : NextWf (fp2 s i h' d a b r m f) := h.compute

theorem fp2C {i h' d b f} (h : s.memWf) : NextWf (fp2C s i h' d b f) := h.compute

theorem fpMin {i h' d a b m big} (h : s.memWf) : NextWf (fpMin s i h' d a b m big) := h.compute

theorem convert {i h' d a dfmt sfmt sel uIn uOut signed r} (h : s.memWf) : NextWf (convert s i h' d a dfmt sfmt sel uIn uOut signed r) := h.compute

/-! ### Link.lean -/

theorem pruneDurable {p va} (h : s.memWf) : (s.pruneDurable p va).memWf := .ite h.drainAll.frame h

theorem execTlbinvComplete (h : s.memWf) : NextWf (execTlbinvComplete s) := by
  delta execTlbinvComplete
  refine .next ?_
  split
  · exact h
  · exact h.frame.updPart.pruneDurable

theorem linkRead {a n} (h : s.memWf) : (s.linkRead a n).2.2.memWf := .foldl h (fun _ _ ht => ht.mergeFor)

theorem linkStore {a bs} (h : s.memWf) : Yields memWf (s.linkStore a bs) := .foldl (.ok h) fun _ _ hq => .bind hq fun _ ht => ht.storeAt

theorem linkWrite {i host a n f done} (h : s.memWf) (hf : ∀ u, u.memWf → Yields memWf (f u)) (hdone : ∀ u, u.memWf → (done u).memWf) : (s.linkWrite i host a n f done).memWf := by
  delta State.linkWrite
  refine .ite h.frame (.ite (snoopHost (.ite h h.frame)) ?_)
  extract_lets s0
  split
  · exact poolRecord (.ite h h.frame)
  · exact .ite h h.frame
  next hq => exact .ite (.ite h h.frame) (hdone _ (frame (.ite (acceptAll ((hf _ (.ite h.frame h) _ hq))) ((hf _ (.ite h.frame h) _ hq)))))

theorem execHostHdmWrite {addr data} (h : s.memWf) : NextWf (execHostHdmWrite addr data s) :=
  .next (.ite h.send (h.linkWrite (fun _ ht => ht.linkStore) (fun _ ht => send (.ite (.foldl ht (fun _ _ ht1 => ht1.markPoison)) ht))))

theorem execHostSnoop {line inv} (h : s.memWf) : NextWf (Machine.execHostSnoop line inv s) := by
  delta Machine.execHostSnoop
  extract_lets modified bs s1 s2
  have h1 : s1.memWf := .ite h.send h.send
  have h2 : s2.memWf := h1.freeHost.l1Stale
  clear_value s1 s2
  generalize (List.range 64).map _ = free
  exact .next (.ite (h2.withHost (Memory.write_wf s2.host (64 * line) free h2.2.1)) h1.frame)

theorem spdmFree {code} (h : s.memWf) : (s.spdmFree code).memWf := h.burn.send

theorem spdmIf {ok s1} (h : s.memWf) (g1 : s1.memWf) : (s.spdmIf ok s1).memWf := .ite g1 h.send

theorem execPeerAtomicRequest {peer op u w64 addr data} (h : s.memWf) : NextWf (execPeerAtomicRequest peer op u w64 addr data s) := by
  delta execPeerAtomicRequest
  refine .next (.ite h.send ?_)
  refine h.linkWrite ?_ fun _ ht => ht.send
  intro _ ht
  refine .ite (.ok (.foldl ht (fun _ _ ht1 => ht1.mergeFor))) ?_
  split
  · exact .ite (linkStore (.foldl ht (fun _ _ ht1 => ht1.mergeFor))) (.ok (.foldl ht (fun _ _ ht1 => ht1.mergeFor)))
  · exact linkStore (.foldl ht (fun _ _ ht1 => ht1.mergeFor))

theorem copyAcked {id req} (h : s.memWf) : (s.copyAcked id req).memWf := by
  delta State.copyAcked
  split
  · exact h
  · split
    · exact h
    · exact h.countXb.updCopy.finishCopy

theorem completeReq {r data bad} (h : s.memWf) : (s.completeReq r data bad).memWf := by
  delta State.completeReq
  extract_lets a
  split
  · exact h.updCourse
  · exact h.updMcc
  · split
    · exact h.updCopy
    · exact h.copyAcked
  · exact h.dropPend
  · exact h

theorem dropReq {id} (h : s.memWf) : (s.dropReq id).memWf := h.frame

theorem execPeerResponse {req data} (h : s.memWf) : NextWf (execPeerResponse req data s) := by
  delta execPeerResponse
  refine .next ?_
  split
  · exact h
  · exact h.dropReq.completeReq

theorem linkError {peer addr} (h : s.memWf) : (s.linkError peer addr).memWf := h.setBank.gutter.send

theorem noteLost {peer line} (h : s.memWf) : (s.noteLost peer line).memWf := .ite h (.ite h.frame h.setBank.gutter)

theorem execUalinkTimeout {req} (h : s.memWf) : NextWf (Machine.execUalinkTimeout req s) := by
  delta Machine.execUalinkTimeout
  refine .next ?_
  split
  · exact h
  · dsimp only
    refine completeReq ?_
    split
    · exact h.dropReq.linkError
    · exact h.dropReq.linkError
    · exact h.dropReq.linkError.noteLost

theorem sendHeld {peer line} (h : s.memWf) : (s.sendHeld peer line).memWf := .foldl h.frame (fun _ _ ht => ht.send)

theorem setEncrypted {agent port on} (h : s.memWf) : (s.setEncrypted agent port on).memWf := .ite h.nonOwner (.ite h h.frame)

theorem control {c} (h : s.memWf) : (s.control c).memWf := by
  delta State.control
  split
  · exact .ite h.frame h
  · exact .ite h.frame h
  · exact .ite h.send h
  · exact h.setEncrypted

/-! ### Manage.lean -/

theorem remeasureConfig (h : s.memWf) : s.remeasureConfig.memWf :=
  have burnt : s.burn.memWf := h.burn
  burnt.frame

theorem setOwner {id} (h : s.memWf) : (s.setOwner id).memWf := h.setReg.remeasureConfig.send

theorem claimWrite {agent expect newid} (h : s.memWf) : (s.claimWrite agent expect newid).memWf := .ite h (.ite h.frame.setOwner h.frame)

theorem openLine {line} (h : s.memWf) : (s.openLine line).memWf := by
  delta State.openLine
  extract_lets burnt
  generalize (List.range 128).map _ = bs
  exact h.withMem (Memory.write_wf s.mem (128 * line) bs h.1)

theorem quiesce (h : s.memWf) : s.quiesce.memWf := by
  delta State.quiesce
  extract_lets s1 s0
  have h1 : s1.memWf := .foldl h fun _ _ ht => ht.dropSnapshot
  have h0 : s0.memWf := .foldl h1 fun _ _ ht => ht.loseHostLines
  exact h0.withBlocks fun _ none => absurd none List.not_mem_nil

theorem loseCaches (h : s.memWf) : (s.loseCaches).memWf := .foldl h.frame (fun _ _ ht => ht.openLine)

theorem measureFirmware (h : s.memWf) : s.measureFirmware.memWf :=
  have burnt : (s.burn 4).memWf := h.burn
  burnt.frame

theorem buildMap {bad} (h : s.memWf) : (s.buildMap bad).memWf := remeasureMap (.foldl h.frame fun _ _ ht => ht.mapDie)

theorem scrub (h : s.memWf) : s.scrub.memWf := h.withMem rfl

theorem configDefaults (h : s.memWf) : (s.configDefaults).memWf := h.frame

theorem resolvePoint {p n recs} (h : s.memWf) : (s.resolvePoint p n recs).memWf := by
  delta State.resolvePoint
  extract_lets pages digest
  have swapped : (s.swapPoint pages).memWf := h.swapPoint
  split
  · exact updPart (swapped.withMem (Memory.write_wf _ _ _ swapped.1))
  · exact gutter (.foldl h fun _ _ ht => ht.updUnd.poolGive)

theorem scanPoints {p} (h : s.memWf) : (s.scanPoints p).memWf := updPart (.foldl h.updPart (fun _ _ ht => ht.resolvePoint))

theorem clearPointers (h : s.memWf) : (s.clearPointers).memWf := remeasureConfig (.foldl h (fun _ _ ht => ht.setReg))

theorem start {cold c} (h : s.memWf) : (s.start cold c).memWf := by
  delta State.start
  extract_lets k runs s0 s2 s4 s5 s6 s7 s8
  have h2 : s2.memWf := .ite h.quiesce.measureFirmware h.quiesce
  have h4 : s4.memWf := .ite h2.scrub (.ite h2 h2.loseCaches)
  have h5 : s5.memWf := .ite h4.buildMap h4
  have h6 : s6.memWf := .ite h5 (.ite h5.configDefaults h5.setOwner)
  have h7 : s7.memWf := .ite (.foldl h6 fun _ _ ht => ht.scanPoints) h6
  have h8 : s8.memWf := .ite h7.clearPointers h7
  exact h8.setReg

theorem stopAll (h : s.memWf) : (s.stopAll).memWf := .foldl h (fun _ _ ht => ht.gutter.endFatal)

theorem execMancmd {agent} (h : s.memWf) : NextWf (Machine.execMancmd agent s) := by
  delta Machine.execMancmd
  refine .next (.ite h ?_)
  have set : (s.burn.setReg 0x1810 3).memWf := h.burn.setReg
  exact set.frame

theorem execManifestCompareDone (h : s.memWf) : NextWf (Machine.execManifestCompareDone s) := by
  delta Machine.execManifestCompareDone
  refine .next ?_
  split
  · exact h
  next m present _ =>
    have set : (s.setReg 0x1810 (BitVec.ofNat 64 (manReport m present).1)).memWf := h.setReg
    exact set.frame

theorem setIsland {i x} (h : s.memWf) : (s.setIsland i x).memWf := h.frame

theorem powerLoss (h : s.memWf) : (s.powerLoss).memWf := h.quiesce.loseCaches.frame

theorem rebuildPool (h : s.memWf) : (s.rebuildPool).memWf := h.frame

theorem afterWrite {off old} (h : s.memWf) : (s.afterWrite off old).memWf := by
  delta State.afterWrite
  refine .ite h.rebuildPool (.ite (.ite h.setIsland h) (.ite (.ite ?_ (.ite h.frame h)) (.ite (remeasureConfig (.ite h.updPart h)) h)))
  extract_lets s1
  have h1 : s1.memWf := h.updPart
  exact .ite h1.frame h1

theorem execRegisterWrite {agent off x} (h : s.memWf) : NextWf (Machine.execRegisterWrite agent off x s) := by
  delta Machine.execRegisterWrite
  refine .next (.ite (.ite h h.setReg) ?_)
  generalize s.regWrite off x = r
  cases r with
  | none => exact h
  | put y => exact .ite h.nonOwner h.setReg.afterWrite
  | bad => exact .ite h.nonOwner h.refusedWrite
  | _ => exact .ite h.nonOwner h

/-! ### Home.lean -/

theorem execAccessPerformed {n} (h : s.memWf) : NextWf (execAccessPerformed n s) := by
  delta execAccessPerformed
  refine .next ?_
  split
  · exact .ite h.perform h
  · exact h

/-! ### Sfu.lean -/

theorem sfu {i h' d a n0 a0 f} (h : s.memWf) : NextWf (sfu s i h' d a n0 a0 f) := h.compute

/-! ### Lane.lean -/

theorem acrossLanes {sh f} (h : s.memWf) : NextWf (acrossLanes s sh f) := h.lanesWith (fun _ _ _ _ _ ht => .ok ht) (fun _ _ _ ht => ht.commitLanes)

theorem execPmov {h' t} (h : s.memWf) : NextWf (execPmov h' t s) := by
  delta execPmov
  split
  · exact h.compute
  · exact h.compute

/-! ### StreamOps.lean -/

theorem readDesc {x tl va} (h : s.memWf) : Yields (fun r => r.2.memWf) (Machine.readDesc s x tl va) := by
  delta Machine.readDesc
  refine .bind .any fun at_ _ => ?_
  extract_lets s1
  split
  · exact h.noteLeaf.laneLoad
  · exact .foldl (.ok h.noteLeaf) fun _ _ hq => .bind hq fun _ ht => .map ht.laneLoad fun _ hu => hu

theorem entryOr {x tl addr} (h : s.memWf) : Yields (fun r => r.2.2.memWf) (entryOr s x tl addr) := by
  delta entryOr
  split
  · exact .ok h
  · exact .map h.readDesc fun _ ht => ht

theorem takeEntry {k addr bs} (h : s.memWf) : (s.takeEntry k addr bs).memWf := h.updBlock

theorem openPort {x tl q addr off ioff} (h : s.memWf) : Yields (fun r => r.2.memWf) (Machine.openPort s x tl q addr off ioff) := by
  delta Machine.openPort
  refine .bind h.entryOr fun r ht => .ite .error (.bind (P := fun i => i.2.memWf) ?_ fun i hi => .ite .error (.ite .error (.ite .error (.ok ?_))))
  · refine .ite (.ok ht) ?_
    split
    · exact .error
    next hq => exact .ite .error (.ok (ht.entryOr _ hq))
  · split
    · exact .ite (.ite hi hi.takeEntry) (takeEntry (.ite hi hi.takeEntry))
    · exact .ite hi hi.takeEntry

theorem streamLanes {sh f} (h : s.memWf) (hf : LaneKeeps f) : NextWf (streamLanes s sh f) :=
  h.lanesWith (fun _ _ _ _ _ ht => hf _ _ _ _ _ ht) fun _ _ _ ht => ht.commitLanes.updBlock

theorem sopenLane {port two word x a16 t v} (h : s.memWf) : Yields (fun r => r.2.memWf) (sopenLane port two word x s a16 t v) :=
  .map h.openPort fun _ ht => ht

theorem sskipLane {port w x a9 t v} (h : s.memWf) : Yields (fun r => r.2.memWf) (sskipLane port w x s a9 t v) := .map .any (fun _ _ => h)

theorem sposLane {port w x a9 t a14} (h : s.memWf) : Yields (fun r => r.2.memWf) (sposLane port w x s a9 t a14) := .map .any (fun _ _ => h)

theorem stestLane {port mode clr w x a18 t a24} (h : s.memWf) : Yields (fun r => r.2.memWf) (stestLane port mode clr w x s a18 t a24) :=
  .map .any fun _ _ => h

theorem sseekLane {port w x a9 t v} (h : s.memWf) : Yields (fun r => r.2.memWf) (sseekLane port w x s a9 t v) := .map .any (fun _ _ => h)

theorem scfgLane {port f c a9 t v} (h : s.memWf) : Yields (fun r => r.2.memWf) (scfgLane port f c s a9 t v) := by
  delta scfgLane
  refine .ite .error ?_
  split
  · exact .error
  · exact .map .any fun _ _ => h

theorem execStreamPrefetch {core slot tl port} (h : s.memWf) : NextWf (Machine.execStreamPrefetch core slot tl port s) := by
  delta Machine.execStreamPrefetch
  refine .next ?_
  split
  · exact h
  · split
    · refine .ite h ?_
      split
      · exact h
      · refine .ite h ?_
        extract_lets got
        have hg : Yields (fun r => r.2.memWf) got :=
          .bind h.elemAddr fun _ ht => .bind .any fun _ _ => .map ht.noteLeaf.readElem fun _ hu => hu
        clear_value got
        split
        · exact h
        · exact updThread (hg _ rfl)
    · exact h

theorem execStreamPushPerform {core slot n} (h : s.memWf) : NextWf (execStreamPushPerform core slot n s) := by
  delta execStreamPushPerform
  refine .next ?_
  split
  · exact h
  · split
    · exact .ite h.performPush h
    · exact h

/-! ### System.lean -/

theorem raiseAfter {sh x code outs aux0} (h : s.memWf) : (raiseAfter sh x code outs aux0 s).memWf := h.writeLanes.takeTrap

theorem execTrap {h' a} (h : s.memWf) : NextWf (Machine.execTrap h' a s) := by
  delta Machine.execTrap
  refine h.onCourse fun x => ?_
  dsimp only
  refine .ite h.advance.chainEnd ?_
  split
  · exact raiseAfter (h.runLanes fun _ _ _ _ _ ht => .ok ht)
  · exact h.stopFor

/-! ### Sched.lean -/

theorem issueOn {c q} (h : s.memWf) : (s.issueOn c q).memWf := h.frame

theorem takeCourse {core id} (h : s.memWf) : (s.takeCourse core id).1.memWf := by
  delta State.takeCourse
  split
  · exact h
  · split
    · exact h
    · refine .iteFst h ?_
      extract_lets s1
      have h1 : s1.memWf := h.issueOn
      clear_value s1
      split
      · exact h
      · exact .iteFst h1.sampleIssue.takeSdc h1.sampleIssue.issueCourse

theorem takeMcc {core} (h : s.memWf) : (s.takeMcc core).1.memWf := by
  delta State.takeMcc
  split
  · exact h
  · refine .iteFst h ?_
    have h1 := (h.updMcc : (s.updMcc core fun m => { m with stat := .running }).memWf).frame
      (t := { (s.updMcc core fun m => { m with stat := .running }) with cur := .mcc core, used := (core, 4, 0) :: s.used })
    dsimp only
    split
    · exact h
    · split
      · exact h1.mccStop
      · split
        · exact h1
        · exact h1.mccStop
        · exact h1.mccStop

theorem countCycles {q} (h : s.memWf) : (s.countCycles q).memWf := .ite h (frame (.ite (.foldl h (fun _ _ ht => ht.count)) h))

theorem tick (h : s.memWf) : s.tick.memWf := by
  delta State.tick
  extract_lets s1 trig s2 t12 s3 s4
  have h1 : s1.memWf := .foldl h fun _ _ ht => ht.countCycles
  have h3 : s3.memWf := h1.writeRecs.pass
  have h4 : s4.memWf := h3.frame
  exact h4.frame

theorem settleStep (h : s.memWf) : (s.settleStep).memWf := h.frame

theorem take {it} (h : s.memWf) : (s.take it).1.memWf := by
  delta State.take
  split
  · exact .ite h.control h
  · exact .iteFst h.frame h
  · exact .iteFst h.takeMcc h
  · exact .iteFst h.takeCourse h
  · split
    · exact .iteFst h.frame h
    · exact h
  · exact h.tick

theorem arbitrate (h : s.memWf) : (s.arbitrate).1.memWf := by
  delta State.arbitrate
  split
  · exact h
  · split
    · exact h.frame
    · exact h

theorem pick (h : s.memWf) : s.pick.1.memWf := by
  delta State.pick
  refine .iteFst h ?_
  split
  · split
    · exact h
    · exact h.frame
  · exact h.frame
  · exact h.arbitrate

theorem plan (h : s.memWf) : (s.plan).1.memWf := h.pick.take

/-- Every instruction and event, by the function that gives it its meaning. -/
theorem exec {i} (h : s.memWf) : NextWf (Machine.exec i s) := by
  delta Machine.exec
  cases i with
  | nopC => exact h.execNopC
  | nop => exact h.execNop
  | braC => exact h.branchRel
  | bra => exact h.branchRel
  | brx => exact h.branchInd
  | call => exact h.execCall
  | retC => exact h.branchInd
  | ret => exact h.branchInd
  | exitC => exact h.exitLanes
  | exit => exact h.exitLanes
  | reformC => exact h.reformAll
  | reform => exact h.reformAll
  | yieldC => exact h.yieldAll
  | yield => exact h.yieldAll
  | barC => exact h.barLanes
  | bar => exact h.barLanes
  | gbar => exact h.execGbar
  | gbarPhaseComplete => exact h.execGbarPhaseComplete
  | wait => exact h.lanesWith (fun _ _ _ _ _ ht => ht.waitLane) fun _ _ _ ht => ht.writeLanes.partWays
  | stampReevaluate => exact h.execStampReevaluate
  | trap => exact h.execTrap
  | brk => exact h.onCourse fun _ => .ite h.advance.chainEnd h.takeTrap
  | rft => exact h.execRft
  | rdsr => exact h.lanes fun _ _ _ _ _ ht => .ok ht
  | wrsr => exact h.compute
  | rqset => exact h.lanesWith (fun _ _ _ _ _ ht => .ok ht) fun _ _ _ ht => ht.updCourse.commitLanes
  | dlaunch => exact h.execDlaunch
  | iaddC => exact h.alu2C
  | iadd => exact h.alu2
  | isubC => exact h.alu2C
  | isub => exact h.alu2
  | imul => exact h.alu2
  | imulh => exact h.alu2
  | imad => exact h.alu3
  | imin => exact h.alu2
  | imax => exact h.alu2
  | iabs => exact h.alu1
  | iadd64 => exact h.compute
  | lea => exact h.compute
  | andC => exact h.alu2C
  | and => exact h.alu2
  | orC => exact h.alu2C
  | or => exact h.alu2
  | xorC => exact h.alu2C
  | xor => exact h.alu2
  | shlC => exact h.alu2C
  | shl => exact h.alu2
  | shrC => exact h.alu2C
  | shr => exact h.alu2
  | sar => exact h.alu2
  | shf => exact h.alu3
  | bfx => exact h.alu2
  | bfi => exact h.alu3
  | popc => exact h.alu1
  | clz => exact h.alu1
  | brev => exact h.alu1
  | movC => exact h.compute
  | mov => exact h.alu1
  | movl => exact h.compute
  | sel => exact h.compute
  | icmp => exact h.compute
  | idiv => exact h.alu2
  | irem => exact h.alu2
  | prmt => exact h.alu3
  | faddC => exact h.fp2C
  | fadd => exact h.fp2
  | fsub => exact h.fp2
  | fmulC => exact h.fp2C
  | fmul => exact h.fp2
  | ffma => exact h.compute
  | fmin => exact h.fpMin
  | fmax => exact h.fpMin
  | fcmp => exact h.compute
  | fclass => exact h.compute
  | fdiv => exact h.compute
  | fsqrt => exact h.compute
  | frcp => exact h.sfu
  | frsq => exact h.sfu
  | fexp2 => exact h.sfu
  | flog2 => exact h.sfu
  | fsin => exact h.sfu
  | fcos => exact h.sfu
  | ftanh => exact h.sfu
  | fcvt => exact h.convert
  | i2f => exact h.convert
  | f2i => exact h.convert
  | pfop => exact h.compute
  | frnd => exact h.compute
  | fscale => exact h.compute
  | plop => exact h.compute
  | pmov => exact h.execPmov
  | vote => exact h.compute
  | shfl => exact h.acrossLanes
  | match_ => exact h.acrossLanes
  | cred => exact h.acrossLanes
  | ld => exact h.lanes fun _ _ _ _ _ ht => ht.ldLane
  | st => exact h.lanes fun _ _ _ _ _ ht => ht.stLane
  | ldc => exact h.lanes fun _ _ _ _ _ ht => ht.ldcLane
  | atom => exact h.lanes fun _ _ _ _ _ ht => ht.atomLane
  | cas => exact h.lanes fun _ _ _ _ _ ht => ht.casLane
  | fence => exact h.fenceLanes fun _ _ _ ht => ht.fenceDoes
  | afence => exact h.fenceLanes fun _ _ _ ht => ht.fencePend.acquire
  | cinv => exact h.fenceLanes fun _ _ _ ht => ht.readOnlyPoint
  | pref => exact h.lanes fun _ _ _ _ _ ht => .ok ht
  | qpush => exact h.execQpush
  | qpop => exact h.execQpop
  | queueDeliver => exact h.execQueueDeliver
  | rng => exact h.lanes fun _ _ _ _ _ ht => ht.rngLane
  | probe => exact h.lanes fun _ _ _ _ _ ht => ht.probeLane
  | xbar => exact h.execXbar
  | xbarWaitProceed => exact h.execXbarWaitProceed
  | sopen => exact h.streamLanes fun _ _ _ _ _ ht => ht.sopenLane
  | sclose => exact h.streamLanes fun _ _ _ _ _ ht => .ok ht
  | sskip => exact h.lanes fun _ _ _ _ _ ht => ht.sskipLane
  | spos => exact h.lanes fun _ _ _ _ _ ht => ht.sposLane
  | stest => exact h.lanes fun _ _ _ _ _ ht => ht.stestLane
  | sseek => exact h.lanes fun _ _ _ _ _ ht => ht.sseekLane
  | scfg => exact h.lanes fun _ _ _ _ _ ht => ht.scfgLane
  | streamPrefetch => exact h.execStreamPrefetch
  | streamPushPerform => exact h.execStreamPushPerform
  | accz => exact h.accLanes
  | accadd => exact h.accLanes
  | accmac => exact h.accLanes
  | accdot => exact h.accLanes
  | accneg => exact h.accLanes
  | accscl => exact h.accLanes
  | accmov => exact h.accLanes
  | accnorm => exact h.accLanes
  | accrnd => exact h.lanes fun _ _ _ _ _ ht => ht.accrndLane
  | accrds => exact h.compute
  | accwrs => exact h.compute
  | accred => exact h.execAccred
  | accld => exact h.lanes fun _ _ _ _ _ ht => ht.accldLane
  | accst => exact h.lanes fun _ _ _ _ _ ht => ht.accstLane
  | aacc => exact h.lanes fun _ _ _ _ _ ht => ht.aaccLane
  | amac => exact h.lanes fun _ _ _ _ _ ht => ht.amacLane
  | acctest => exact h.compute
  | accaddk => exact h.accLanes
  | aLineEvict => exact .next (.ite h.homeMerge h)
  | cpy => exact h.copyLanes
  | cpyg => exact h.copyLanes
  | cpys => exact h.copyLanes
  | cpym => exact h.copyLanes
  | cpya => exact h.copyLanes
  | publish => exact h.execPublish
  | cpyq => exact h.execCpyq
  | cpyx => exact h.copyLanes
  | copyLineArrival => exact h.execCopyLineArrival
  | presenceWaitResume => exact h.execPresenceWaitResume
  | copyStampWrite => exact h.execCopyStampWrite
  | copySlowPath => exact h.execCopySlowPath
  | publishSwap => exact h.execPublishSwap
  | xadd => exact h.scalar
  | xsub => exact h.scalar
  | xmul => exact h.scalar
  | xlog => exact h.scalar
  | xshf => exact h.scalar
  | xmov => exact h.scalar
  | xmovl => exact h.scalar
  | xcmp => exact h.scalar
  | xbr => exact h.mcc fun _ => .ok (.ite h.mgoto h.mnext)
  | xloop => exact h.mcc fun _ => .ok (.ite h.setX.mgoto h.setX.mnext)
  | xld => exact h.mcc fun _ => .bind .any fun _ _ => .map h.mccLoad fun _ ht2 => ht2.setX.mnext
  | xst => exact h.mcc fun _ => .map .any fun _ _ => h.noteLeaf.issueAccess.mnext
  | xjmp => exact h.execXjmp
  | xsig => exact h.execXsig
  | xwait => exact h.execXwait
  | tld => exact h.mcc fun _ => .map .any fun _ _ => h.updLatch.mnext
  | tgath => exact h.execTgath
  | mma => exact h.mcc fun _ => .ite .error (.ok h.updMcc.mnext)
  | tmma => exact h.execTmma
  | tzero => exact h.mcc fun _ => .ite .error (.ok h.updMcc.mnext)
  | tdrain => exact h.execTdrain
  | tcode => exact h.execTcode
  | tscale => exact h.execTscale
  | tqnt => exact h.execTqnt
  | twalk => exact h.startWalk
  | tresume => exact h.startWalk
  | tstate => exact h.execTstate
  | tchk => exact h.mcc fun _ => .ite .error (.ite .error (.ok (mnext (.ite h.setX.updMcc h.setX))))
  | tacc => exact h.execTacc
  | tsync => exact h.execTsync
  | stagedMultiplyDrain => exact h.execStagedMultiplyDrain
  | walkStepStart => exact h.execWalkStepStart
  | tmmaJoin => exact h.execTmmaJoin
  | tmmaComplete => exact .next (.foldl h (fun _ _ ht => .ite ht.updMcc ht))
  | rpopen => exact h.execRpopen
  | rpseal => exact h.execRpseal
  | sealReleaseDone => exact h.execSealReleaseDone
  | plateSeal => exact h.execPlateSeal
  | ctrrd => exact h.lanes fun _ _ _ _ _ ht => .ok ht.burn
  | pmark => exact h.execPmark
  | tsrd => exact h.lanes fun _ _ _ _ _ ht => .ite .error (.ok ht)
  | binEmitAge => exact h.execBinEmitAge
  | binEmitIdle => exact h.execBinEmitIdle
  | binEmitDeferred => exact h.execBinEmitDeferred
  | courseRefile => exact h.execCourseRefile
  | dispatchUnit => exact h.execDispatchUnit
  | snapshotPageCopy => exact h.execSnapshotPageCopy
  | underlayPoolWaitEnd => exact h.execUnderlayPoolWaitEnd
  | blockRetire => exact h.execBlockRetire
  | blockRestore => exact h.execBlockRestore
  | watchdog => exact h.execWatchdog
  | trapFrameWaitEnd => exact h.execTrapFrameWaitEnd
  | supervisorTrapTake => exact h.execSupervisorTrapTake
  | page => exact h.execPage
  | gutterRecordWaitEnd => exact .next h.gutterPump
  | voteTimeout => exact h.execVoteTimeout
  | containment => exact h.execContainment
  | suspectHalve => exact .next (.ite h.frame h)
  | quarantineIdle => exact .next (.ite h.quarantined h)
  | eaveAccept => exact .next h.acceptOne
  | eaveDrain => exact .next h.drainLine
  | scanAbort => exact .next h.frame
  | spareRepair => exact h.execSpareRepair
  | pageWalk => exact .next h.noteLeaf
  | tlbinvComplete => exact h.execTlbinvComplete
  | hostHdmWrite => exact h.execHostHdmWrite
  | peerWriteRequest => exact .next (.ite h.send (h.linkWrite (fun _ ht => ht.linkStore) (fun _ ht => ht.send)))
  | peerAtomicRequest => exact h.execPeerAtomicRequest
  | accumulatorAtomic => exact .next (.ite h.send (h.linkWrite (fun _ ht => ht.addHome) (fun _ ht => ht.send)))
  | ualinkTimeout => exact h.execUalinkTimeout
  | poisonMarkRequest => exact .next (.ite (.ite h.frame.request.sendHeld h) (.ite h.mergeFor.markPoison.send h.send))
  | counterGroupRotate => exact h.execCounterGroupRotate
  | debugHalt => exact h.execDebugHalt
  | manifestCompareDone => exact h.execManifestCompareDone
  | throttleRecover => exact .next (.ite h h.setIsland)
  | accessPerformed => exact h.execAccessPerformed
  | lineWriteBack => exact .next (.ite h.frame (.ite h.freeHost h))
  | launchDoorbell => exact .ite (.next h) (.ite (.next h.gutter) (.next h.submit))
  | preemptVacate => exact h.execPreemptVacate
  | ownerPreemptCmd => exact h.execOwnerPreemptCmd
  | gqackRetry => exact h.execGqackRetry
  | gqackFatal => exact h.execGqackFatal
  | gqhead => exact .next (.ite h h.setReg.gqForget)
  | gqbase => exact h.execGqbase
  | gqRingWriteFail => exact .next (.ite h h.frame.bankError)
  | errorDetect => exact h.execErrorDetect
  | bankClearRead => exact .next (.ite h h.setBank.send)
  | trelvyVote => exact .next (.ite h.endVote h)
  | dieReset => exact .next h.resetDie
  | dieReturnToService => exact .next (.ite h.rescanDie.frame h)
  | infieldScan => exact h.execInfieldScan
  | tlbinvAll => exact .next (.ite h.frame h.nonOwner)
  | tlbinvPage => exact .next (.ite h.frame h.nonOwner)
  | hostHdmRead => exact .next (.ite h.send (send (frame (.foldl h (fun _ _ ht => ht.mergeFor)))))
  | hostSnoop => exact h.execHostSnoop
  | bisnpResponse => exact .next (.ite h.frame.retryFw.retryRollbacks h)
  | spdmGetVersion => exact .next h.frame.send
  | spdmGetCapabilities => exact .next (h.spdmIf h.frame.spdmFree)
  | spdmNegotiateAlgorithms => exact .next (h.spdmIf h.frame.spdmFree)
  | spdmGetDigests => exact .next (h.spdmIf h.spdmFree)
  | spdmGetCertificate => exact .next (h.spdmIf h.spdmFree)
  | spdmChallenge => exact .next (h.spdmIf h.spdmFree)
  | spdmGetMeasurements => exact .next (h.spdmIf h.send)
  | spdmKeyExchange => exact .next (h.spdmIf h.frame.spdmFree)
  | spdmFinish => exact .next (h.spdmIf h.frame.spdmFree)
  | spdmEndSession => exact .next (h.spdmIf h.frame.spdmFree)
  | peerReadRequest => exact .next (.ite h.send (send (.foldl h (fun _ _ ht => ht.mergeFor))))
  | peerResponse => exact h.execPeerResponse
  | topologyUpdate => exact .next h.frame.send
  | pcSample => exact h.execPcSample
  | ctrsel => exact .next (.ite h.nonOwner (.ite h h.setReg.clearCounters))
  | shadowRead => exact h.execShadowRead
  | dbgattAttach => exact .next (.ite h.setDbgatt h.nonOwner)
  | dbgattDetach => exact .next (.ite h.setDbgatt h.nonOwner)
  | debugSave => exact h.execDebugSave
  | debugRestore => exact h.execDebugRestore
  | debugResume => exact h.execDebugResume
  | dbgchk => exact h.execDbgchk
  | ptpDiscipline => exact .next (.ite h.frame h)
  | timeStep => exact .next (.ite h.nonOwner h.pass)
  | claim => exact .next h.claimWrite
  | ownerHandover => exact .next h.claimWrite
  | ownerRelease => exact .next h.claimWrite
  | ownerLinkDrop => exact .next (.ite h h.setOwner)
  | powerOn => exact .next h.frame.start
  | coldrst => exact .next (.ite h.start h.nonOwner)
  | warmrst => exact .next (.ite h.stopAll.drainAll.start h.nonOwner)
  | plateReset => exact .next h.frame.start
  | verify => exact .next (.ite h h.setReg)
  | mancmd => exact h.execMancmd
  | powerCapExceed => exact .next (.foldl h (fun _ _ ht => ht.setIsland))
  | tempExceed => exact .next (.ite h h.setIsland)
  | dieOvertemp => exact .next (.ite h (.foldl h.resetDie.burn (fun _ _ ht => ht.setIsland)))
  | plateOvertemp => exact .next h.powerLoss
  | registerWrite => exact h.execRegisterWrite
  | platePowerLoss => exact .next h.powerLoss

/-- A step: what it picks, what that comes to, and the instruction that it runs. -/
theorem step (h : s.memWf) : NextWf (Machine.step s) := by
  have planned := h.plan
  rcases hp : s.plan with ⟨u, _ | i⟩
  · rw [hp] at planned
    rw [step_of_plan_none hp]
    exact .next planned.settleStep
  · rw [hp] at planned
    have run : NextWf (Machine.exec i u) := planned.exec
    rw [step_of_plan_some hp]
    rcases hx : Machine.exec i u with v | f | r
    · exact .next (run v hx).settleStep
    · exact .fault
    · exact fun _ e => by cases e

end State.memWf

end Sys2Proof.Machine

namespace Sys2Proof.Claims

open Sys2Proof.Machine

/-- Settles O55: a step picks what it runs, which is one instruction or event, and each of these keeps the form of the memories. -/
theorem stepKeepsMemoriesCanonical : Obligations.StepKeepsMemoriesCanonical := fun _ t canonical run => canonical.step t run

end Sys2Proof.Claims
end

section
/-!
SUPPORT and the settlement of O15: branches and their sides (07 R165; 08 R179, R180).
-/

namespace Sys2Proof.Machine

/-! ### Threads read back after an update -/

theorem thread?_of_blocks {s t : State} (h : t.blocks = s.blocks) (k : BKey) (tl : Nat) : t.thread? k tl = s.thread? k tl := by
  simp only [State.thread?, State.block?, h]

theorem thread?_updThread (s : State) (k : BKey) (tl : Nat) {f : Thread → Thread} (hf : ∀ t, (f t).tl = t.tl) (n : Nat) :
    (s.updThread k tl f).thread? k n = (s.thread? k n).map (Thread.upd tl f) :=
  (Writes.updThread (q := True) tl f).thread? (Thread.upd_tl hf) n

theorem thread?_updThread_of_block_ne (s : State) {j k : BKey} (h : j ≠ k) (tl : Nat) (f : Thread → Thread) (n : Nat) :
    (s.updThread k tl f).thread? j n = s.thread? j n := by
  simp only [State.thread?, (Writes.updThread (q := True) (s := s) tl f).others j h]

theorem thread?_updThread_self (s : State) (k : BKey) (tl : Nat) {f : Thread → Thread} (hf : ∀ t, (f t).tl = t.tl) :
    (s.updThread k tl f).thread? k tl = (s.thread? k tl).map f := by
  rw [thread?_updThread s k tl hf]
  rcases h : s.thread? k tl with _ | th
  · rfl
  · simp [Thread.upd, tl_of_thread? h]

theorem thread?_updThread_of_ne (s : State) (k : BKey) {tl n : Nat} (h : n ≠ tl) {f : Thread → Thread} (hf : ∀ t, (f t).tl = t.tl) :
    (s.updThread k tl f).thread? k n = s.thread? k n := by
  rw [thread?_updThread s k tl hf]
  rcases e : s.thread? k n with _ | th
  · rfl
  · simp [Thread.upd, tl_of_thread? e, h]

/-! ### The members of a course -/

/-- A member stands in its lane. -/
theorem mem_members {c : Course} {p : Nat × Nat} : p ∈ c.members ↔ p.1 < 32 ∧ c.lanes[p.1]? = some (some p.2) := by
  rw [Course.members, List.mem_filterMap]
  simp only [List.mem_iff_getElem?, List.getElem?_zip_eq_some, Option.map_eq_some_iff, Prod.exists]
  constructor
  · rintro ⟨i, v, ⟨n, hi, hv⟩, t, rfl, rfl⟩
    obtain ⟨h, rfl⟩ := List.getElem?_eq_some_iff.1 hi
    simp only [lanes32, List.length_range] at h
    simp only [lanes32, List.getElem_range] at hv ⊢
    exact ⟨h, hv⟩
  · rintro ⟨h, hv⟩
    exact ⟨p.1, some p.2, ⟨p.1, by simp [lanes32, h], hv⟩, p.2, rfl, rfl⟩

/-- The lanes of a course without some of them. -/
def Course.without (c : Course) (lanes : List Nat) : Course :=
  { c with lanes := (lanes32.zip c.lanes).map fun p => if lanes.contains p.1 then none else p.2 }

theorem mem_members_without {c : Course} {lanes : List Nat} {p : Nat × Nat} :
    p ∈ (c.without lanes).members ↔ p ∈ c.members ∧ p.1 ∉ lanes := by
  simp only [mem_members, Course.without, List.getElem?_map, Option.map_eq_some_iff, List.getElem?_zip_eq_some, Prod.exists, lanes32]
  constructor
  · rintro ⟨h, i, v, ⟨hi, hv⟩, e⟩
    obtain rfl : p.1 = i := by simpa [h] using hi
    split at e
    · cases e
    · next out => exact ⟨⟨h, e ▸ hv⟩, by simpa using out⟩
  · rintro ⟨⟨h, hv⟩, out⟩
    exact ⟨h, p.1, some p.2, ⟨by simp [h], hv⟩, by simp [out]⟩

/-- A course that some lane stays in goes on without those that leave it. -/
theorem leaveCourse_of_stays {s : State} {core id : Nat} {c : Course} {lanes : List Nat} (h : s.course? core id = some c)
    (stays : ∃ p ∈ c.members, p.1 ∉ lanes) : s.leaveCourse core id lanes = s.updCourse core id fun d => { d with lanes := (c.without lanes).lanes } := by
  obtain ⟨p, hp, out⟩ := stays
  have seated := (mem_members.1 (mem_members_without.2 ⟨hp, out⟩)).2
  have some_ : ¬((c.without lanes).lanes.all (·.isNone) = true) := fun all => by
    have := List.all_eq_true.1 all _ (List.mem_of_getElem? seated)
    cases this
  simp only [State.leaveCourse, h]
  exact if_neg some_

theorem course?_leaveCourse {s : State} {core id : Nat} {c : Course} {lanes : List Nat} (h : s.course? core id = some c)
    (stays : ∃ p ∈ c.members, p.1 ∉ lanes) : (s.leaveCourse core id lanes).course? core id = some (c.without lanes) := by
  rw [leaveCourse_of_stays h stays]
  rw [course?_updCourse s core id (f := fun d => { d with lanes := (c.without lanes).lanes }) fun _ => ⟨rfl, rfl⟩, h]
  rfl

theorem leaveCourse_blocks (s : State) (core id : Nat) (lanes : List Nat) : (s.leaveCourse core id lanes).blocks = s.blocks := by
  unfold State.leaveCourse
  split
  · rfl
  · dsimp only
    split <;> rfl

theorem members_chained (c : Course) (chain : Bool) : (c.chained chain).members = c.members := by cases chain <;> rfl

/-! ### What filing leaves alone -/

/-- Counting changes counters alone (R467). -/
theorem count_eq (s : State) (core code n : Nat) : ∃ ctr, s.count core code n = { s with ctr := ctr } := by
  unfold State.count
  split
  · exact ⟨s.ctr, rfl⟩
  · refine List.foldlRecOn (motive := fun t : State => ∃ ctr, t = { s with ctr := ctr }) _ _ ⟨s.ctr, rfl⟩ ?_
    rintro _ ⟨ctr, rfl⟩ i _
    dsimp only
    split
    · exact ⟨_, rfl⟩
    · exact ⟨ctr, rfl⟩


/-- Filing threads adds courses behind those there are, and leaves the launches as they are and every thread at its PC. -/
structure Refiles (s t : State) : Prop where
  courses : ∃ new, t.courses = s.courses ++ new
  launches : t.launches = s.launches
  pc : ∀ k tl, (t.thread? k tl).map (·.pc) = (s.thread? k tl).map (·.pc)

namespace Refiles

variable {s t u : State}

theorem refl : Refiles s s := ⟨⟨[], by simp⟩, rfl, fun _ _ => rfl⟩

theorem trans (h : Refiles s t) (g : Refiles t u) : Refiles s u := by
  obtain ⟨a, ha⟩ := h.courses
  obtain ⟨b, hb⟩ := g.courses
  exact ⟨⟨a ++ b, by rw [hb, ha, List.append_assoc]⟩, g.launches.trans h.launches, fun k tl => (g.pc k tl).trans (h.pc k tl)⟩

/-- Courses are added, and no block changes. -/
theorem added {new : List Course} (hc : t.courses = s.courses ++ new) (hl : t.launches = s.launches) (hb : t.blocks = s.blocks) :
    Refiles s t :=
  ⟨⟨new, hc⟩, hl, fun k tl => by rw [thread?_of_blocks hb]⟩

/-- Neither courses nor launches nor blocks change. -/
theorem same (hc : t.courses = s.courses) (hl : t.launches = s.launches) (hb : t.blocks = s.blocks) : Refiles s t :=
  added (new := []) (by simpa using hc) hl hb

/-- A thread stands elsewhere. -/
theorem stat (s : State) (k : BKey) (tl : Nat) (st : TStat) : Refiles s (s.updThread k tl fun th => { th with stat := st }) := by
  refine ⟨⟨[], by simp⟩, rfl, fun j n => ?_⟩
  by_cases hj : j = k
  · subst hj
    rw [thread?_updThread s j tl (f := fun th => { th with stat := st }) fun _ => rfl, Option.map_map]
    congr 1
    funext th
    simp only [Function.comp, Thread.upd]
    split <;> rfl
  · rw [thread?_updThread_of_block_ne s hj]

theorem foldl {α : Type} {f : State → α → State} (hf : ∀ t a, Refiles t (f t a)) (l : List α) (s : State) : Refiles s (l.foldl f s) :=
  List.foldlRecOn (motive := Refiles s) l f refl fun t ht a _ => ht.trans (hf t a)

theorem newCourse (s : State) (core slot : Nat) (tls : List Nat) : Refiles s (s.newCourse core slot tls) := by
  unfold State.newCourse
  extract_lets key c s1
  have h1 : Refiles s s1 := added (new := [c]) rfl rfl rfl
  clear_value key
  split
  · exact h1
  · exact h1.trans (foldl (fun t tl => stat t _ tl _) _ _)

theorem emitBin (s : State) (b : Bin) : Refiles s (s.emitBin b) := by
  unfold State.emitBin
  split
  · exact same rfl rfl rfl
  · extract_lets s1 s2
    have h1 : Refiles s s1 := same rfl rfl rfl
    have h2 : Refiles s s2 := h1.trans (newCourse s1 _ _ _)
    obtain ⟨ctr, counted⟩ := count_eq s2 b.core 0x0E 1
    exact counted ▸ h2.trans (same rfl rfl rfl)

theorem fileOne (s : State) (k : BKey) (tl : Nat) : Refiles s (s.fileOne k tl) := by
  unfold State.fileOne
  split
  · extract_lets prod fits inBin fresh
    have hin : Refiles s inBin := stat s k tl .bin
    have hfresh : ∀ v, Refiles v (fresh v) := fun v => same rfl rfl rfl
    clear_value inBin fresh
    split
    · extract_lets y s1
      have h1 : Refiles s s1 := hin.trans (same rfl rfl rfl)
      split
      · exact h1.trans (emitBin _ _)
      · exact h1
    · split
      · exact hin.trans (hfresh _)
      · split
        · dsimp only
          split
          · exact (hin.trans (emitBin _ _)).trans (hfresh _)
          · exact stat s k tl .unfiled
        · exact hin.trans (hfresh _)
  · exact refl

theorem fileUnfiled (s : State) (core : Nat) : Refiles s (s.fileUnfiled core) := foldl (fun t (e : BKey × Nat) => fileOne t e.1 e.2) _ _

theorem fileThread (s : State) (k : BKey) (tl : Nat) : Refiles s (s.fileThread k tl) := by
  unfold State.fileThread
  split
  · split
    · exact fileOne s k tl
    · exact (stat s k tl .unfiled).trans (fileUnfiled _ _)
  · exact refl

/-- A course that is there stays as it is. -/
theorem course? (h : Refiles s t) {core id : Nat} {c : Course} (hc : s.course? core id = some c) : t.course? core id = some c := by
  obtain ⟨new, e⟩ := h.courses
  simp only [State.course?] at hc ⊢
  rw [e, List.find?_append, hc]
  rfl

end Refiles

/-! ### The side that continues (R165) -/

theorem sideBefore_iff {n m : Nat} {p q : W64} : sideBefore n p m q = true ↔ m < n ∨ (n = m ∧ p.toNat < q.toNat) := by
  simp [sideBefore]

/-- The better of two sides. -/
theorem foldl_winner (pcs l : List W64) (best : W64) :
    let r := l.foldl (fun b p => if sideBefore (pcs.count p) p (pcs.count b) b then p else b) best
    r ∈ best :: l ∧ ∀ p ∈ best :: l, sideBefore (pcs.count p) p (pcs.count r) r = false := by
  induction l generalizing best with
  | nil => simp [sideBefore]
  | cons a l ih =>
    dsimp only [List.foldl_cons] at ih ⊢
    obtain ⟨hmem, hmax⟩ := ih (if sideBefore (pcs.count a) a (pcs.count best) best then a else best)
    generalize l.foldl _ _ = r at hmem hmax
    refine ⟨?_, fun p hp => ?_⟩
    · rcases List.mem_cons.1 hmem with rfl | h
      · split <;> simp
      · simp [h]
    · have hhead := hmax _ List.mem_cons_self
      rw [Bool.eq_false_iff, ne_eq, sideBefore_iff] at hhead ⊢
      rcases List.mem_cons.1 hp with rfl | hp
      · split at hhead
        · next less =>
          rw [sideBefore_iff] at less
          omega
        · exact hhead
      · rcases List.mem_cons.1 hp with rfl | hp
        · split at hhead
          · exact hhead
          · next less =>
            rw [sideBefore_iff] at less
            omega
        · have := hmax p (List.mem_cons_of_mem _ hp)
          rwa [Bool.eq_false_iff, ne_eq, sideBefore_iff] at this

theorem winner_spec {pcs : List W64} (h : pcs ≠ []) : winner pcs ∈ pcs ∧ ∀ p ∈ pcs,
    pcs.count p < pcs.count (winner pcs) ∨ (pcs.count p = pcs.count (winner pcs) ∧ (winner pcs).toNat ≤ p.toNat) := by
  obtain ⟨a, l, rfl⟩ := List.exists_cons_of_ne_nil h
  obtain ⟨hmem, hmax⟩ := foldl_winner (a :: l) (a :: l) a
  refine ⟨by simpa [winner] using hmem, fun p hp => ?_⟩
  have := hmax p (List.mem_cons_of_mem _ hp)
  rw [Bool.eq_false_iff, ne_eq, sideBefore_iff] at this
  unfold winner
  simp only [List.headD_cons]
  omega

/-! ### Divergence -/

theorem foldl_updThread_of_not_mem {k : BKey} {g : Nat × Nat → Thread → Thread} (hg : ∀ p t, (g p t).tl = t.tl) {l : List (Nat × Nat)} {n : Nat}
    (h : n ∉ l.map (·.2)) (s : State) : (l.foldl (fun u p => u.updThread k p.2 (g p)) s).thread? k n = s.thread? k n := by
  induction l generalizing s with
  | nil => rfl
  | cons p l ih =>
    simp only [List.map_cons, List.mem_cons, not_or] at h
    exact (ih h.2 _).trans (thread?_updThread_of_ne s k h.1 (hg p))

/-- Threads of different indexes, each updated once. -/
theorem foldl_updThread_of_mem {k : BKey} {g : Nat × Nat → Thread → Thread} (hg : ∀ p t, (g p t).tl = t.tl) {l : List (Nat × Nat)}
    (hl : (l.map (·.2)).Nodup) {p : Nat × Nat} (hp : p ∈ l) (s : State) :
    (l.foldl (fun u p => u.updThread k p.2 (g p)) s).thread? k p.2 = (s.thread? k p.2).map (g p) := by
  induction l generalizing s with
  | nil => cases hp
  | cons q l ih =>
    obtain ⟨fresh, hl⟩ := List.nodup_cons.1 hl
    rcases List.mem_cons.1 hp with rfl | hp
    · exact (foldl_updThread_of_not_mem hg fresh _).trans (thread?_updThread_self s k _ (hg _))
    · have other : p.2 ≠ q.2 := fun e => fresh (List.mem_map.2 ⟨p, hp, e⟩)
      exact (ih hl hp _).trans (congrArg (Option.map (g p)) (thread?_updThread_of_ne s k other (hg q)))

/-- The lanes of a course whose next PC is not the one of the side that continues. -/
def Ctx.leavers (x : Ctx) (next : Nat → W64) (go : W64) : List (Nat × Nat) := x.c.members.filter fun p => next p.1 ≠ go

theorem Ctx.mem_leavers {x : Ctx} {next : Nat → W64} {go : W64} {p : Nat × Nat} (hp : p ∈ x.c.members) :
    p.1 ∈ (x.leavers next go).map (·.1) ↔ next p.1 ≠ go := by
  simp only [Ctx.leavers, List.mem_map, List.mem_filter, decide_eq_true_eq]
  constructor
  · rintro ⟨q, ⟨-, hq⟩, e⟩
    exact e ▸ hq
  · exact fun h => ⟨p, ⟨hp, h⟩, rfl⟩

/-- The state in which each thread of a course has its next PC. -/
def State.taken (s : State) (x : Ctx) (next : Nat → W64) : State :=
  x.c.members.foldl (fun u p => u.updThread x.b.key p.2 fun th => { th with pc := next p.1 }) s

/-- The state in which those that leave a course have left it, and are not filed. -/
def State.parted (s : State) (x : Ctx) (next : Nat → W64) : State :=
  ((s.taken x next).chainEnd x false).leaveCourse x.core x.id ((x.leavers next (winner (x.c.members.map fun p => next p.1))).map (·.1))

/-- A divergence parts the sides, then files. -/
theorem diverge_refiles (s : State) (x : Ctx) (next : Nat → W64) : Refiles (s.parted x next) (s.diverge x next) :=
  Refiles.foldl (fun t tl => Refiles.fileThread t _ tl) _ _

theorem parted_blocks {x : Ctx} (hr : x.c.reinj = []) (s : State) (next : Nat → W64) : (s.parted x next).blocks = (s.taken x next).blocks := by
  unfold State.parted
  rw [leaveCourse_blocks]
  simp only [State.chainEnd, hr, List.isEmpty_nil, if_true, updCourse_blocks]

theorem taken_courses (s : State) (x : Ctx) (next : Nat → W64) : (s.taken x next).courses = s.courses :=
  foldl_courses (fun s _ => updThread_courses s _ _ _) _ _

theorem course?_chainEnd {x : Ctx} (hr : x.c.reinj = []) (s : State) (chain : Bool) :
    (s.chainEnd x chain).course? x.core x.id = (s.course? x.core x.id).map (·.chained chain) := by
  simp only [State.chainEnd, hr, List.isEmpty_nil, if_true]
  exact course?_updCourse s _ _ fun c => chained_core_id c chain

/-- The course of a divergence keeps exactly the lanes of the side that continues. -/
theorem course?_parted {s : State} {x : Ctx} (hc : s.course? x.core x.id = some x.c) (hr : x.c.reinj = []) (hm : x.c.members ≠ [])
    (next : Nat → W64) : (s.parted x next).course? x.core x.id =
      some ((x.c.chained false).without ((x.leavers next (winner (x.c.members.map fun p => next p.1))).map (·.1))) := by
  refine course?_leaveCourse ?_ ?_
  · rw [course?_chainEnd hr, course?_of_courses (taken_courses s x next), hc]
    rfl
  · obtain ⟨p, hp, e⟩ := List.mem_map.1 (winner_spec (pcs := x.c.members.map fun q => next q.1) (by simpa using hm)).1
    rw [members_chained]
    exact ⟨p, hp, fun h => (Ctx.mem_leavers hp).1 h e⟩

/-! ### The branches (R179, R180) -/

/-- Where the lanes of a branch go. -/
def branchNext (sh : Shape) (x : Ctx) (target : LaneOut → W64) (outs : List LaneOut) (lane : Nat) : W64 :=
  match outs.find? fun o => o.lane == lane with
  | some o => target o
  | none => x.pc + BitVec.ofNat 64 sh.size

theorem branchNext_eq (sh : Shape) (x : Ctx) (target : LaneOut → W64) (outs : List LaneOut) (lane : Nat) :
    branchNext sh x target outs lane = ((outs.find? fun o => o.lane == lane).map target).getD (x.pc + BitVec.ofNat 64 sh.size) := by
  unfold branchNext
  cases outs.find? fun o => o.lane == lane <;> rfl

/-- A branch parts the sides, unless they part inside a handler (R406). -/
theorem branchTo_of_agree {sh : Shape} {x : Ctx} {target : LaneOut → W64} {outs : List LaneOut} {s : State}
    (h : x.c.inHandler = true → ∀ p ∈ x.c.members, ∀ q ∈ x.c.members, branchNext sh x target outs p.1 = branchNext sh x target outs q.1) :
    branchTo sh x target outs s = (writeLanes sh x outs s).diverge x (branchNext sh x target outs) := by
  refine if_neg ?_
  rw [Bool.and_eq_true]
  rintro ⟨inside, differ⟩
  obtain ⟨pc, hpc, ne⟩ := List.any_eq_true.1 differ
  obtain ⟨p, hp, rfl⟩ := List.mem_map.1 hpc
  obtain ⟨q, l, e⟩ := List.exists_cons_of_ne_nil (List.ne_nil_of_mem hp)
  refine of_decide_eq_true ne ?_
  simp only [e, List.map_cons, List.headD_cons]
  exact h inside p hp q (by simp [e])

end Sys2Proof.Machine

namespace Sys2Proof.Claims

open Sys2Proof.Machine

/-- An instruction whose lanes compute their targets and what they write, and which then branches. -/
theorem branches_of_exec {i : Instr} {sh : Shape} {f : LaneFn} {target : Ctx → LaneOut → W64}
    (he : ∀ s, exec i s = s.lanesWith sh f fun x outs t => branchTo sh x (target x) outs t) :
    Branches i sh f target fun _ o => o.res := by
  intro s x goes outs next agree
  rw [he, lanesWith_next s x sh f _ goes, branchTo_of_agree agree]
  have own : (outs.map fun o => { o with res := o.res }) = outs := List.map_id _
  rw [own]
  rfl

/-- What a lane of a CALL links: the address behind it (R180). -/
def linked (h : Hd) (x : Ctx) (o : LaneOut) : LaneOut := { o with res := LaneRes.value (x.pc + BitVec.ofNat 64 (hdSize h)).toNat }

/-- The target that the lane of an indirect CALL read. -/
def targetOf (outs : List LaneOut) (o : LaneOut) : W64 := BitVec.ofNat 64 ((outs.find? fun p => p.lane == o.lane).elim 0 fun p => p.res.val)

theorem branchNext_linked (sh : Shape) (h : Hd) (x : Ctx) (outs : List LaneOut) :
    branchNext sh x (targetOf outs) (outs.map (linked h x)) = branchNext sh x (fun o => BitVec.ofNat 64 o.res.val) outs := by
  funext lane
  have kept : ∀ o, (linked h x o).lane = o.lane := fun _ => rfl
  simp only [branchNext_eq, List.find?_map, Function.comp_def, kept, Option.map_map]
  rcases e : outs.find? fun o => o.lane == lane with _ | o
  · simp [e]
  · have : o.lane = lane := by simpa using List.find?_some e
    simp [targetOf, kept, this, e]

/-- The lanes of an indirect branch read their targets. -/
theorem indirect_eq_readTarget : (fun _ st _ _ v => indirect (v.headD 0) st : LaneFn) = readTarget := by
  funext _ st _ _ v
  exact ite_not ..

/-- An indirect branch. -/
theorem branches_of_branchInd {i : Instr} {sh : Shape} (he : ∀ s, exec i s = branchInd s sh) :
    Branches i sh readTarget (fun _ o => BitVec.ofNat 64 o.res.val) fun _ o => o.res :=
  branches_of_exec fun s => (he s).trans (by rw [← indirect_eq_readTarget]; rfl)

theorem exec_callInd (h : Hd) (d a : Opnd) (s : State) : exec (.call h d (.ind a)) s =
    s.lanesWith (plain (.call h d (.ind a)) h (hdSize h) [(a, .w64)] (some (d, 64))) readTarget fun x outs t =>
      branchTo (plain (.call h d (.ind a)) h (hdSize h) [(a, .w64)] (some (d, 64))) x (targetOf outs) (outs.map (linked h x)) t := by
  rw [← indirect_eq_readTarget]
  rfl

/-- An indirect CALL goes to the targets that its lanes read, and links them to the address behind it. -/
theorem branches_callInd (h : Hd) (d a : Opnd) :
    Branches (.call h d (.ind a)) (plain (.call h d (.ind a)) h (hdSize h) [(a, .w64)] (some (d, 64))) readTarget
      (fun _ o => BitVec.ofNat 64 o.res.val) fun x _ => LaneRes.value (x.pc + BitVec.ofNat 64 (hdSize h)).toNat := by
  intro s x goes outs next agree
  have same : branchNext _ x (targetOf outs) (outs.map (linked h x)) = next := branchNext_linked _ h x outs
  rw [exec_callInd, lanesWith_next s x _ _ _ goes, branchTo_of_agree (same ▸ agree), same]
  rfl

theorem branchesGoToTheirTargets : BranchesGoToTheirTargets := by
  intro h k d a off17 off32
  exact ⟨branches_of_exec fun _ => rfl, branches_of_exec fun _ => rfl, branches_of_branchInd fun _ => rfl, branches_of_branchInd fun _ => rfl,
    branches_of_branchInd fun _ => rfl, branches_of_exec fun _ => rfl, branches_callInd h d a⟩

theorem largestSideContinues : LargestSideContinues := by
  intro s x next hc hr hm hl pcs t
  obtain ⟨hgo, hmax⟩ := winner_spec (pcs := pcs) (by simpa [pcs] using hm)
  refine ⟨winner pcs, hgo, hmax, ⟨_, (diverge_refiles s x next).course? (course?_parted hc hr hm next), fun p => ?_⟩, fun p hp => ?_⟩
  · rw [mem_members_without, members_chained]
    refine and_congr_right fun hp => ?_
    rw [Ctx.mem_leavers hp, not_not]
  · rw [(diverge_refiles s x next).pc, thread?_of_blocks (parted_blocks hr s next), State.taken,
      foldl_updThread_of_mem (g := fun p th => { th with pc := next p.1 }) (fun _ _ => rfl) hl hp s, Option.map_map]
    rfl

/-- Settles O15: every branch parts the course by the lanes' targets, and the best side of `winner` stays. -/
theorem branchesSplitCourses : Obligations.BranchesSplitCourses := ⟨branchesGoToTheirTargets, largestSideContinues⟩

end Sys2Proof.Claims
end

section
/-!
SUPPORT and the settlement of O22: the special registers, and the entries of a replay queue (07 R157; 19 R412 to R415).
-/

namespace Sys2Proof.Machine

/-! ### Special registers (R412 to R414) -/

theorem coordOf_eq_getD (n dx dy : Nat) (i : Fin 3) : coordOf n dx dy i.val = [n % dx, n / dx % dy, n / (dx * dy)].getD i.val 0 := by
  fin_cases i <;> rfl

/-- Outside a handler no entry shows (R413). -/
theorem rqField_of_outside {x : Ctx} (h : x.c.inHandler = false) (lane n f : Nat) : rqField x lane n f = 0 := by
  have hidden : x.entry n = none := by
    unfold Ctx.entry
    rcases e : x.c.frame with _ | fr
    · rfl
    · have : fr.inh = false := by simpa [Course.inHandler, e] using h
      simp [this]
  rw [rqField, hidden]

theorem ofNat_mod_32 (v : Nat) : BitVec.ofNat 32 (v % 32) = BitVec.ofNat 32 v &&& 0x1F := by
  refine BitVec.eq_of_toNat_eq ?_
  rw [BitVec.toNat_and, show (0x1F : W32).toNat = 2 ^ 5 - 1 from rfl, Nat.and_two_pow_sub_one_eq_mod, BitVec.toNat_ofNat, BitVec.toNat_ofNat]
  omega

theorem ofNat_mod_4 (v : Nat) : BitVec.ofNat 32 (v % 4) = BitVec.ofNat 32 v &&& 3 := by
  refine BitVec.eq_of_toNat_eq ?_
  rw [BitVec.toNat_and, show (3 : W32).toNat = 2 ^ 2 - 1 from rfl, Nat.and_two_pow_sub_one_eq_mod, BitVec.toNat_ofNat, BitVec.toNat_ofNat]
  omega

/-! ### A word of an operand replaced (R415) -/

theorem testBit_putWord (x w v i : Nat) :
    (putWord x w v).testBit i = if w * 32 ≤ i ∧ i < w * 32 + 32 then v.testBit (i - w * 32) else x.testBit i := by
  obtain ⟨low, high⟩ : x = 2 ^ (32 * w) * (2 ^ 32 * (x / 2 ^ (32 * w) / 2 ^ 32) + x / 2 ^ (32 * w) % 2 ^ 32) + x % 2 ^ (32 * w) ∧
      putWord x w v = 2 ^ (32 * w) * (2 ^ 32 * (x / 2 ^ (32 * w) / 2 ^ 32) + v % 2 ^ 32) + x % 2 ^ (32 * w) := by
    have lo := Nat.div_add_mod x (2 ^ (32 * w))
    have hi := Nat.div_add_mod (x / 2 ^ (32 * w)) (2 ^ 32)
    constructor
    · rw [hi, lo]
    · rw [putWord]
      generalize x / 2 ^ (32 * w) / 2 ^ 32 = h at hi ⊢
      generalize x / 2 ^ (32 * w) % 2 ^ 32 = m at hi ⊢
      rw [← hi] at lo
      generalize x % 2 ^ (32 * w) = l at lo ⊢
      generalize 2 ^ (32 * w) = p at lo ⊢
      subst lo
      rw [Nat.mul_comm m p, Nat.mul_comm (v % 2 ^ 32) p, Nat.mul_add, Nat.mul_add]
      omega
  have below : x % 2 ^ (32 * w) < 2 ^ (32 * w) := Nat.mod_lt _ (Nat.two_pow_pos _)
  have word : v % 2 ^ 32 < 2 ^ 32 := Nat.mod_lt _ (Nat.two_pow_pos _)
  have old : x / 2 ^ (32 * w) % 2 ^ 32 < 2 ^ 32 := Nat.mod_lt _ (Nat.two_pow_pos _)
  rw [high, Nat.testBit_two_pow_mul_add _ below, Nat.testBit_two_pow_mul_add _ word]
  conv_rhs => rw [low, Nat.testBit_two_pow_mul_add _ below, Nat.testBit_two_pow_mul_add _ old]
  rcases Nat.lt_or_ge i (w * 32) with lt | ge
  · rw [if_pos (by omega), if_neg (by omega), if_pos (by omega), Nat.testBit_mod_two_pow]
  · rw [if_neg (by omega)]
    rcases Nat.lt_or_ge i (w * 32 + 32) with inside | beyond
    · rw [if_pos (by omega), if_pos ⟨ge, inside⟩, Nat.mul_comm 32 w]
      rw [Nat.testBit_mod_two_pow]
      simp [show i - w * 32 < 32 by omega]
    · rw [if_neg (by omega), if_neg (by omega), if_neg (by omega), if_neg (by omega)]

/-- The bits of a word put into a wider one. -/
theorem getLsbD_putWord {n x w v i : Nat} (hi : i < n) :
    (BitVec.ofNat n (putWord x w v)).getLsbD i =
      if w * 32 ≤ i ∧ i < w * 32 + 32 then (BitVec.ofNat 32 v).getLsbD (i - w * 32) else x.testBit i := by
  simp only [BitVec.getLsbD_ofNat, hi, decide_true, Bool.true_and, testBit_putWord]
  refine ite_congr rfl (fun inside => ?_) fun _ => rfl
  simp [show i - w * 32 < 32 by omega]

/-! ### RQSET (R415) -/

theorem length_modifyAt {α : Type} (f : α → α) (l : List α) (n : Nat) : (modifyAt f l n).length = l.length := by
  induction l generalizing n with
  | nil => rfl
  | cons a l ih =>
    cases n with
    | zero => rfl
    | succ n => exact congrArg (· + 1) (ih n)

theorem getElem?_modifyAt {α : Type} (f : α → α) (l : List α) (n i : Nat) : (modifyAt f l n)[i]? = if i = n then l[i]?.map f else l[i]? := by
  induction l generalizing n i with
  | nil => simp [modifyAt]
  | cons a l ih =>
    rcases n with _ | n <;> rcases i with _ | i
    · rfl
    · rfl
    · rfl
    · simpa [modifyAt] using ih n i

/-- What RQSET makes of one entry, by what its lanes computed. -/
def RqEntry.edited (e : RqEntry) (op : RqOp) (outs : List LaneOut) : RqEntry :=
  { e with lanes := (lanes32.zip e.lanes).map fun p =>
      match outs.find? fun o => o.lane == p.1 with
      | some o => if p.2.member then rqEdit op o.res.val p.2 else p.2
      | none => p.2 }

theorem RqEntry.edited_lane {e : RqEntry} {op : RqOp} {outs : List LaneOut} (h : e.lanes.length = 32) {lane : Nat} {old : LaneEnt}
    (ho : e.lanes[lane]? = some old) : (e.edited op outs).lanes[lane]? = some
      (match outs.find? fun o => o.lane == lane with
        | some o => if old.member then rqEdit op o.res.val old else old
        | none => old) := by
  obtain ⟨lt, -⟩ := List.getElem?_eq_some_iff.1 ho
  have seat : (lanes32.zip e.lanes)[lane]? = some (lane, old) :=
    List.getElem?_zip_eq_some.2 ⟨by simp [lanes32, h ▸ lt], ho⟩
  simp only [RqEntry.edited, List.getElem?_map, seat, Option.map_some]

/-- The course with entry `idx` of its frame edited. -/
def Course.edited (c : Course) (op : RqOp) (idx : Nat) (outs : List LaneOut) : Course :=
  { c with frame := c.frame.map fun f => { f with entries := modifyAt (·.edited op outs) f.entries idx } }

theorem exec_rqset (h : Hd) (op : RqOp) (idx : Fin 8) (s : State) : exec (.rqset h op idx) s =
    s.lanesWith (shapeX (.rqset h op idx) h (rqOpnd op) none none) (fun _ st _ _ v => .ok (LaneRes.value (v.headD 0), st)) fun x outs t =>
      commitLanes (shapeX (.rqset h op idx) h (rqOpnd op) none none) x outs (t.updCourse x.core x.id (·.edited op idx.val outs)) := rfl

theorem completed_frame (c : Course) (sh : Shape) (outs : List LaneOut) : (c.completed sh outs).frame = c.frame := by
  unfold Course.completed
  cases sh.latch <;> cases sh.h.chain <;> rfl

/-- An edit, as R415 gives it by its operation. -/
theorem rqEdit_spec (op : RqOp) (v : Nat) (old : LaneEnt) :
    match op with
    | .cancel => rqEdit op v old = { old with cancel := true }
    | .done => rqEdit op v old = { old with isDone := true }
    | .op w n _ => rqEdit op v old = { old with ops := (rqEdit op v old).ops, opcap := (rqEdit op v old).opcap } ∧
        (rqEdit op v old).opcap = old.opcap ||| (1 <<< n.val : BitVec 3) ∧
        ∀ i, i < 64 → ((rqEdit op v old).ops.getD n.val 0).getLsbD i =
          if w.toNat * 32 ≤ i ∧ i < w.toNat * 32 + 32 then (BitVec.ofNat 32 v).getLsbD (i - w.toNat * 32)
          else (old.ops.getD n.val 0).getLsbD i
    | .res w _ => rqEdit op v old = { old with res := (rqEdit op v old).res, resv := true } ∧
        ∀ i, i < 128 → (rqEdit op v old).res.getLsbD i =
          if w.val * 32 ≤ i ∧ i < w.val * 32 + 32 then (BitVec.ofNat 32 v).getLsbD (i - w.val * 32)
          else old.resv && old.res.getLsbD i := by
  cases op with
  | cancel => rfl
  | done => rfl
  | op w n a =>
    refine ⟨rfl, rfl, fun i hi => ?_⟩
    simp only [rqEdit]
    rw [getD_setAt, if_pos rfl, getLsbD_putWord hi]
    rfl
  | res w a =>
    refine ⟨rfl, fun i hi => ?_⟩
    simp only [rqEdit]
    rw [getLsbD_putWord hi]
    refine ite_congr rfl (fun _ => rfl) fun _ => ?_
    cases old.resv <;> simp [BitVec.getLsbD]

end Sys2Proof.Machine

namespace Sys2Proof.Claims

open Sys2Proof.Machine

theorem specialRegisters : SpecialRegisters := by
  intro h d a r
  refine ⟨⟨fun s x lane t => srValue s x lane t r, ?_, fun s x lane t => ?_⟩, ⟨srWrite r, ?_, fun v t => ?_⟩⟩
  · cases r <;> exact completes_of_lanes fun _ => rfl
  · cases r with
    | tid i => exact coordOf_eq_getD _ _ _ i
    | bid i => exact coordOf_eq_getD _ _ _ i
    | rpc => exact fun p hp => by simp [srValue, hp]
    | rps => exact fun p hp => by simp [srValue, hp]
    | rpa => exact fun p hp => by simp [srValue, hp]
    | mrow => exact fun m hb hm => by simp [srValue, hb, hm]
    | mcol => exact fun m hb hm => by simp [srValue, hb, hm]
    | mdone => exact fun m hb hm => by simp [srValue, hb, hm]
    | mseg => exact fun m hb hm => by simp [srValue, hb, hm]
    | rq n f => exact fun outside => rqField_of_outside outside _ _ _
    | _ => rfl
  · have all : ∀ r, Silent (.wrsr h r a) (shapeX (.wrsr h r a) h [(a, if srBits r = 64 then .w64 else .w32)] none none)
        (fun _ _ _ v => { LaneRes.value 0 with th := srWrite r (v.headD 0) }) := fun r =>
      silent_of_compute _ _ _ _ (fun _ => rfl) (reads_whole (List.forall_mem_singleton.2 (by split; exacts [whole_w64, whole_w32])))
        (fun _ _ _ _ => rfl) fun _ _ _ _ _ => rfl
    cases r <;> exact all _
  · cases r with
    | fpflags => exact congrArg (fun f => { t with fpflags := f }) (ofNat_mod_32 v)
    | fptrap => exact congrArg (fun f => { t with fptrap := f }) (ofNat_mod_32 v)
    | rngctr => rfl
    | send n => exact congrArg (fun f => t.setPort n { t.port n with send := f }) (ofNat_mod_4 v)
    | _ => trivial

theorem rqsetEditsMembers : RqsetEditsMembers := by
  intro s x h op idx f e sh g goes hr hc hf he hl r kept
  have operands : sh = shapeX (.rqset h op idx) h (rqOpnd op) none none := by cases op <;> rfl
  refine ⟨commitLanes sh x r.outs (r.s.updCourse x.core x.id (·.edited op idx.val r.outs)), (x.c.edited op idx.val r.outs).completed sh r.outs, { f with entries := modifyAt (·.edited op r.outs) f.entries idx.val },
    e.edited op r.outs, ?_, ?_, ?_, rfl, length_modifyAt _ _ _, ?_, fun j hj => ?_, rfl, fun lane old ho => ?_⟩
  · rw [exec_rqset, ← operands]
    exact lanesWith_next s x sh g _ goes
  · rw [course?_commitLanes hr, course?_updCourse _ _ _ (f := (·.edited op idx.val r.outs)) fun _ => ⟨rfl, rfl⟩,
      course?_of_courses kept, hc]
    rfl
  · rw [completed_frame, Course.edited, hf]
    rfl
  · rw [getElem?_modifyAt, if_pos rfl, he]
    rfl
  · rw [getElem?_modifyAt, if_neg hj]
  · have seat := RqEntry.edited_lane (op := op) (outs := r.outs) hl ho
    split
    next idle =>
      rw [idle] at seat
      exact seat
    next o acted =>
      rw [acted] at seat
      split
      next out =>
        rw [out] at seat
        exact seat
      next member =>
        rw [Bool.not_eq_false] at member
        rw [member] at seat
        exact ⟨_, seat, rqEdit_spec op o.res.val old⟩

/-- Settles O22: RDSR and WRSR by what each register is, RQSET by what each operation edits. -/
theorem specialRegistersAndEntries : Obligations.SpecialRegistersAndEntries := ⟨specialRegisters, rqsetEditsMembers⟩

end Sys2Proof.Claims
end

section
/-!
SUPPORT and the settlement of O44: the emission of bins, the refiling of courses, and a frame that frees (07 R162, R163; 19 R402).
-/

namespace Sys2Proof.Machine

theorem exec_binEmitAge {s : State} {core n : Nat} {b : Bin} (h : s.bins.find? (fun b => b.core == core && b.id == n) = some b) :
    exec (.binEmitAge core n) s = .next (if s.binAged b then s.emitAndFile b else s) := by
  change execBinEmitAge core n s = _
  rw [execBinEmitAge, h]

theorem exec_binEmitIdle {s : State} {core : Nat} {b : Bin} (h : s.oldestBin core = some b) :
    exec (.binEmitIdle core) s = .next (if s.coreQuiet core then s.emitAndFile b else s) := by
  change execBinEmitIdle core s = _
  rw [execBinEmitIdle, h]

theorem exec_binEmitIdle_of_no_bin {s : State} {core : Nat} (h : s.oldestBin core = none) : exec (.binEmitIdle core) s = .next s := by
  change execBinEmitIdle core s = _
  rw [execBinEmitIdle, h]

theorem coreQuiet_iff {s : State} {core : Nat} : s.coreQuiet core = true ↔ ∀ c ∈ s.courses, c.core = core → s.eligible c = false := by
  simp [State.coreQuiet]

theorem exec_binEmitDeferred {s : State} {core : Nat} {b : Bin} (h : s.deferredBin core = some b) (room : s.courseCount core < 128) :
    exec (.binEmitDeferred core) s = .next ((s.emitBin b).fileUnfiled core) := by
  change execBinEmitDeferred core s = _
  simp only [execBinEmitDeferred, h, if_pos room]

theorem exec_binEmitDeferred_of_none {s : State} {core : Nat} (h : s.deferredBin core = none) :
    exec (.binEmitDeferred core) s = .next (s.fileUnfiled core) := by
  change execBinEmitDeferred core s = _
  simp only [execBinEmitDeferred, h]

/-- The context of a course names that course. -/
theorem ctxOf_core_id {s : State} {core n : Nat} {x : Ctx} (h : s.ctxOf core n = some x) : x.core = core ∧ x.id = n := by
  simp only [State.ctxOf, State.issuing, Option.bind_eq_some_iff, Option.map_eq_some_iff] at h
  obtain ⟨c, -, b, -, l, -, rfl⟩ := h
  exact ⟨rfl, rfl⟩

theorem exec_courseRefile {s : State} {core n : Nat} {x : Ctx} (h : s.ctxOf core n = some x) (may : s.mayRefile x = true) :
    exec (.courseRefile core n) s = .next (((s.delCourse core n).fileAt x.b.key (x.c.members.map (·.2)) x.pc).fileUnfiled core) := by
  change execCourseRefile core n s = _
  simp only [execCourseRefile, h, if_pos may]

theorem exec_trapFrameWaitEnd {s : State} {core n : Nat} {x : Ctx} {t : TrapInfo} (h : s.ctxOf core n = some x) (ht : x.c.stat = .frame t) :
    exec (.trapFrameWaitEnd core n) s = .next (
      if s.frameCount core ≥ 32 then s
      else
        (s.updCourse core n fun _ => { x.c with stat := .ready, resume := if x.c.reinj.isEmpty then [] else x.c.resume }).takeTrap
          { x with c := { x.c with stat := .ready, resume := if x.c.reinj.isEmpty then [] else x.c.resume } } t (x.c.resume.headD 0)) := by
  change execTrapFrameWaitEnd core n s = _
  simp only [execTrapFrameWaitEnd, h, ht]

end Sys2Proof.Machine

namespace Sys2Proof.Claims

open Sys2Proof.Machine

/-- Settles O44: each event by its condition. -/
theorem threadsAreFiledAgain : Obligations.ThreadsAreFiledAgain := by
  intro s core n
  refine ⟨fun b hb => ?_, fun b hb home quiet => ?_, fun ⟨c, hc, here, may⟩ => ?_, fun b hb room => exec_binEmitDeferred hb room,
    exec_binEmitDeferred_of_none, fun x hx some_ partial_ chain reinj frame ready cause => exec_courseRefile hx ?_, fun x t hx ht => ⟨fun full => ?_, fun free => ?_⟩⟩
  · intro age
    have home : b.core = core := by
      have found := List.find?_some hb
      simp only [Bool.and_eq_true, beq_iff_eq] at found
      exact found.1
    have limit : s.ageLimit b = age := by rw [State.ageLimit, home]
    rw [exec_binEmitAge hb, State.binAged, limit, State.emitAndFile, home]
    exact ⟨fun aged => by rw [if_pos (decide_eq_true aged)], fun young => by rw [if_neg (by simpa using young)]⟩
  · rw [exec_binEmitIdle hb, if_pos (coreQuiet_iff.2 quiet), State.emitAndFile, home]
  · have busy : ¬s.coreQuiet core = true := fun quiet => by
      rw [coreQuiet_iff.1 quiet c hc here] at may
      cases may
    rcases hb : s.oldestBin core with _ | b
    · exact exec_binEmitIdle_of_no_bin hb
    · rw [exec_binEmitIdle hb, if_neg busy]
  · obtain ⟨rfl, -⟩ := ctxOf_core_id hx
    have wanted : (s.needsRecord x.core || s.bins.any fun b => b.core == x.core && b.slot == x.c.slot && b.key == x.pc &&
        b.producer == x.l.d.isProducer ((x.c.members.head?.map (·.2)).getD 0)) = true := by
      rcases cause with need | ⟨b, hb, core, slot, key, role⟩
      · rw [need, Bool.true_or]
      · rw [Bool.or_eq_true, List.any_eq_true]
        exact .inr ⟨b, hb, by simp [core, slot, key, role]⟩
    simp [State.mayRefile, some_, partial_, chain, reinj, frame, ready, wanted]
  · rw [exec_trapFrameWaitEnd hx ht, if_pos full]
  · rw [exec_trapFrameWaitEnd hx ht, if_neg (Nat.not_le_of_lt free)]

end Sys2Proof.Claims
end

section
/-!
SUPPORT and the settlement of O16: NOP, YIELD, EXIT and REFORM, the exit of a thread, and filing (07 R161, R162; 08 R178, R181, R182).
-/

namespace Sys2Proof.Machine

/-! ### Going on, and leaving a course -/

/-- Where a course issues no MCC runs. -/
theorem running_of_issuing {s : State} {x : Ctx} (h : s.issuing = some x) : s.running = none := by
  unfold State.issuing at h
  split at h
  · next e => rw [State.running, e]
  · cases h

theorem onCourse_of_issuing {s : State} {x : Ctx} (h : s.issuing = some x) (f : Ctx → State) : s.onCourse f = .next (f x) := by
  rw [State.onCourse, h]

theorem exec_nop_of_issuing {s : State} {x : Ctx} (hx : s.issuing = some x) (h : Hd) :
    exec (.nop h) s = .next ((s.advance x (hdSize h)).chainEnd x h.chain) := by
  change execNop h s = _
  rw [execNop, running_of_issuing hx]
  exact onCourse_of_issuing hx _

theorem exec_nopC_of_issuing {s : State} {x : Ctx} (hx : s.issuing = some x) (k : Ch) :
    exec (.nopC k) s = .next ((s.advance x (chSize k)).chainEnd x k.chain) := by
  change execNopC k s = _
  rw [execNopC, running_of_issuing hx]
  exact onCourse_of_issuing hx _

theorem exec_nop_of_running {s : State} {y : MCtx} (hy : s.running = some y) (h : Hd) : exec (.nop h) s = .next (nopMcc s y.core (hdSize h)) := by
  change execNop h s = _
  rw [execNop, hy]

theorem exec_nopC_of_running {s : State} {y : MCtx} (hy : s.running = some y) (k : Ch) : exec (.nopC k) s = .next (nopMcc s y.core (chSize k)) := by
  change execNopC k s = _
  rw [execNopC, hy]

/-- The course of those that go on keeps exactly the lanes that are not gone. -/
theorem course?_othersGoOn {s : State} {x : Ctx} {gone : List Nat} {c : Course} (hc : s.course? x.core x.id = some c)
    (stays : ∃ p ∈ c.members, p.1 ∉ gone) (size : Nat) :
    (s.othersGoOn x gone size).course? x.core x.id = some ((c.chained false).without gone) := by
  refine course?_leaveCourse ?_ (by rwa [members_chained])
  rw [course?_updCourse _ _ _ fun d => chained_core_id d false, course?_of_courses (foldl_courses ?_ _ _), hc]
  · rfl
  · intro u p
    split
    · rfl
    · exact updThread_courses _ _ _ _

/-! ### The exit of a thread (R181) -/

/-- An open phase that was opened with COUNT 0 expects one arrival less. -/
def Barrier.lowered (x : Barrier) : Barrier := if x.isOpen = true ∧ x.cnt = 0 then { x with exp := x.exp - 1 } else x

/-- A block in which each open phase opened with COUNT 0 expects one arrival less. -/
def Block.lowered (b : Block) : Block := ({ b with bars := b.bars.map Barrier.lowered } : Block).pruneDescs

/-- A thread has exited, and no phase has closed by that. -/
def State.exited (s : State) (k : BKey) (tl : Nat) : State :=
  (s.updThread k tl fun t => { t with stat := .exited }).updBlock k Block.lowered

/-- The phases of a block whose counts are reached are closed. -/
def State.closeBars (s : State) (k : BKey) : State := (List.range 16).foldl (fun t i => t.completeBar k i) s

theorem barrier_lowered (b : Block) (i : Nat) : b.lowered.barrier i = (b.barrier i).lowered := by
  have idle : Barrier.idle.lowered = Barrier.idle := rfl
  change (b.bars.map Barrier.lowered).getD i Barrier.idle = (b.bars.getD i Barrier.idle).lowered
  conv_lhs => rw [← idle]
  exact List.getD_map ..

theorem key_of_block? {s : State} {k : BKey} {b : Block} (h : s.block? k = some b) : b.key = k := by simpa using List.find?_some h

theorem block?_updThread (s : State) (k : BKey) (tl : Nat) (f : Thread → Thread) :
    (s.updThread k tl f).block? k = (s.block? k).map fun b => b.updThread tl f :=
  block?_updBlock s k fun _ => rfl

theorem block?_exited {s : State} {k : BKey} {b : Block} (h : s.block? k = some b) (tl : Nat) :
    (s.exited k tl).block? k = some (b.updThread tl fun t => { t with stat := .exited }).lowered := by
  rw [State.exited, block?_updBlock _ k (f := Block.lowered) fun _ => rfl, block?_updThread, h]
  rfl

theorem thread?_updBlock_of_threads (s : State) (k : BKey) {f : Block → Block} (hk : ∀ b, (f b).key = b.key)
    (ht : ∀ b, (f b).threads = b.threads) (tl : Nat) : (s.updBlock k f).thread? k tl = s.thread? k tl := by
  rw [State.thread?, State.thread?, block?_updBlock s k hk]
  rcases s.block? k with _ | b
  · rfl
  · simp only [Option.map_some, Option.bind_some, Block.thread?, ht]

theorem thread?_exited (s : State) (k : BKey) (tl n : Nat) :
    (s.exited k tl).thread? k n = (s.updThread k tl fun t => { t with stat := .exited }).thread? k n :=
  thread?_updBlock_of_threads _ k (f := Block.lowered) (fun _ => rfl) (fun _ => rfl) n

theorem completeBar_of_open {s : State} {k : BKey} {b : Block} (h : s.block? k = some b) {i : Nat}
    (hi : (b.barrier i).isOpen = true → (b.barrier i).arr < (b.barrier i).exp) : s.completeBar k i = s := by
  simp only [State.completeBar, h]
  refine if_neg fun full => ?_
  rw [Bool.and_eq_true, decide_eq_true_eq] at full
  exact absurd (hi full.1) (Nat.not_lt_of_ge full.2)

/-- Where no phase has its arrivals none closes. -/
theorem closeBars_of_open {s : State} {k : BKey} {b : Block} (h : s.block? k = some b)
    (hi : ∀ i < 16, (b.barrier i).isOpen = true → (b.barrier i).arr < (b.barrier i).exp) : s.closeBars k = s := by
  refine List.foldlRecOn (motive := fun t => t = s) _ _ rfl ?_
  rintro _ rfl i member
  exact completeBar_of_open h (hi i (List.mem_range.1 member))

theorem depart_launches (s : State) (k : BKey) (tl : Nat) : (s.depart k tl).launches = s.launches := by
  unfold State.depart
  split
  · split
    · exact (Refiles.fileThread _ k tl).launches
    · rfl
  · rfl

theorem departAcq_launches (s : State) (k : BKey) (tl : Nat) : (s.departAcq k tl).launches = s.launches := by
  unfold State.departAcq
  split
  · exact depart_launches _ k tl
  · rfl

theorem completeBar_launches (s : State) (k : BKey) (i : Nat) : (s.completeBar k i).launches = s.launches := by
  unfold State.completeBar
  split
  · rfl
  · dsimp only
    split
    · exact List.foldlRecOn (motive := fun t : State => t.launches = s.launches) _ _ rfl fun t ht tl _ =>
        (departAcq_launches t k tl).trans ht
    · rfl

theorem closeBars_launches (s : State) (k : BKey) : (s.closeBars k).launches = s.launches :=
  List.foldlRecOn (motive := fun t : State => t.launches = s.launches) _ _ rfl fun t ht i _ => (completeBar_launches t k i).trans ht

theorem launch?_closeBars_exited (s : State) (k : BKey) (tl p n : Nat) : ((s.exited k tl).closeBars k).launch? p n = s.launch? p n := by
  rw [State.launch?, closeBars_launches]
  rfl

/-- The open phase of a thread's gang expects one arrival less. -/
def State.lowerGang (s : State) (k : BKey) (g : Nat) (bar : Barrier) : State :=
  s.updLaunch k.part k.lnum fun l => { l with gbars := aput l.gbars g { bar with exp := bar.exp - 1 } }

/-- A thread exits: the phases of its block, then the one of its gang. -/
theorem exitThread_eq {s : State} {k : BKey} {l : Launch} (hl : s.launch? k.part k.lnum = some l) (tl : Nat) :
    s.exitThread k tl = if l.d.gangw = 0 then (s.exited k tl).closeBars k
      else ((aget? l.gbars (k.bl / l.d.unitSize)).filter (·.isOpen)).elim ((s.exited k tl).closeBars k) fun bar =>
        (((s.exited k tl).closeBars k).lowerGang k (k.bl / l.d.unitSize) bar).closeGang k.part k.lnum (k.bl / l.d.unitSize) := by
  unfold State.exitThread
  extract_lets s1 lower s2 s3
  have lowered : lower = Barrier.lowered := by
    funext x
    simp [lower, Barrier.lowered]
  have closed : s3 = (s.exited k tl).closeBars k := by
    simp only [s3, s2, lowered]
    rfl
  clear_value s3
  rw [closed, launch?_closeBars_exited, hl]
  generalize (s.exited k tl).closeBars k = t
  refine ite_congr rfl (fun _ => rfl) fun _ => ?_
  dsimp only
  rcases aget? l.gbars (k.bl / l.d.unitSize) with _ | bar
  · rfl
  · rcases h : bar.isOpen
    · simp [Option.filter, h]
    · simp [Option.filter, h, State.lowerGang]

/-- Whether the gang of a block has an open phase. -/
def Launch.gangOpen (l : Launch) (bl : Nat) : Bool := decide (l.d.gangw ≠ 0) && (aget? l.gbars (bl / l.d.unitSize)).any fun x => x.isOpen

theorem aget?_aput {α : Type} (l : List (Nat × α)) (k : Nat) (x : α) : aget? (aput l k x) k = some x := by
  unfold aget? aput
  split
  · next h =>
    rw [List.any_eq_true] at h
    obtain ⟨p, hp, e⟩ := h
    have some_ : (l.find? fun p => p.1 == k).isSome := List.find?_isSome.2 ⟨p, hp, e⟩
    obtain ⟨q, hq⟩ := Option.isSome_iff_exists.1 some_
    rw [find?_map_ite (p := fun p : Nat × α => p.1 == k) (f := fun _ => (k, x)) (fun _ _ => by simp), hq]
    rfl
  · next h =>
    rw [List.any_eq_true, not_exists] at h
    rw [List.find?_append, List.find?_eq_none.2 fun p hp e => h p ⟨hp, e⟩]
    simp

theorem launch?_updLaunch (s : State) (p n : Nat) {f : Launch → Launch} (hf : ∀ l, (f l).part = l.part ∧ (f l).lnum = l.lnum) :
    (s.updLaunch p n f).launch? p n = (s.launch? p n).map f :=
  find?_map_ite (p := fun l : Launch => l.part == p && l.lnum == n) (by simp [hf]) s.launches

theorem launch?_lowerGang {s : State} {k : BKey} {l : Launch} (h : s.launch? k.part k.lnum = some l) (g : Nat) (bar : Barrier) :
    (s.lowerGang k g bar).launch? k.part k.lnum = some { l with gbars := aput l.gbars g { bar with exp := bar.exp - 1 } } := by
  rw [State.lowerGang, launch?_updLaunch s _ _ (f := fun l => { l with gbars := aput l.gbars g { bar with exp := bar.exp - 1 } })
    fun _ => ⟨rfl, rfl⟩, h]
  rfl

theorem closeGang_of_open {s : State} {p n g : Nat} {l : Launch} (hl : s.launch? p n = some l) {bar : Barrier} (hg : aget? l.gbars g = some bar)
    (h : bar.arr < bar.exp) : s.closeGang p n g = s := by
  unfold State.closeGang
  simp only [hl, hg]
  refine if_neg fun full => ?_
  rw [Bool.and_eq_true, decide_eq_true_eq] at full
  exact absurd full.2 (Nat.not_le_of_lt h)

/-- An exit by which no phase closes. -/
theorem exitThread_of_open {s : State} {k : BKey} {tl : Nat} {b : Block} {l : Launch} (hb : s.block? k = some b)
    (hl : s.launch? k.part k.lnum = some l)
    (bars : ∀ i < 16, (b.barrier i).lowered.isOpen = true → (b.barrier i).lowered.arr < (b.barrier i).lowered.exp)
    (gang : ∀ x, aget? l.gbars (k.bl / l.d.unitSize) = some x → l.gangOpen k.bl = true → x.arr < x.exp - 1) :
    (l.gangOpen k.bl = false ∧ s.exitThread k tl = s.exited k tl) ∨
      ∃ x, l.gangOpen k.bl = true ∧ aget? l.gbars (k.bl / l.d.unitSize) = some x ∧
        s.exitThread k tl = (s.exited k tl).lowerGang k (k.bl / l.d.unitSize) x := by
  have still : (s.exited k tl).closeBars k = s.exited k tl :=
    closeBars_of_open (block?_exited hb tl) fun i hi => by
      rw [barrier_lowered]
      exact bars i hi
  rw [exitThread_eq hl, still]
  unfold Launch.gangOpen at gang ⊢
  split
  · next alone => exact .inl ⟨by simp [alone], rfl⟩
  · next ganged =>
    rcases hg : aget? l.gbars (k.bl / l.d.unitSize) with _ | bar
    · exact .inl ⟨by simp, rfl⟩
    · rcases ho : bar.isOpen
      · exact .inl ⟨by simp [ho], by simp [Option.filter, ho]⟩
      · have isOpen : (decide (l.d.gangw ≠ 0) && (aget? l.gbars (k.bl / l.d.unitSize)).any fun x => x.isOpen) = true := by
          simp [hg, ho, ganged]
        refine .inr ⟨bar, by rwa [hg] at isOpen, rfl, ?_⟩
        have filtered : (some bar).filter (·.isOpen) = some bar := by simp [Option.filter, ho]
        rw [filtered]
        exact closeGang_of_open (launch?_lowerGang hl _ bar) (aget?_aput _ _ _) (gang bar hg isOpen)

/-! ### Filing (R161, R162) -/

/-- A thread that is filed alone. -/
theorem fileAt_singleton (s : State) (k : BKey) (tl : Nat) (pc : W64) :
    s.fileAt k [tl] pc = (s.updThread k tl fun u => { u with pc := pc }).fileThread k tl := rfl

theorem unfiledOn_eq_nil {s : State} {core : Nat} (h : ∀ c ∈ s.blocks, c.core = core → ∀ t ∈ c.threads, t.stat ≠ .unfiled) :
    s.unfiledOn core = [] := by
  have none_ : ((s.blocks.filter fun b => b.core == core).flatMap fun b =>
      (b.threads.filter fun u => decide (u.stat = .unfiled)).map fun u => (b.key, u.tl)) = [] := by
    simp only [List.flatMap_eq_nil_iff, List.mem_filter, beq_iff_eq, List.map_eq_nil_iff, List.filter_eq_nil_iff, decide_eq_true_eq, and_imp]
    exact h
  rw [State.unfiledOn, none_]
  rfl

/-- A thread is filed at once where none of its core waits unfiled. -/
theorem fileThread_of_none_unfiled {s : State} {k : BKey} {tl : Nat} (h : ∀ b, s.block? k = some b → s.unfiledOn b.core = []) :
    s.fileThread k tl = s.fileOne k tl := by
  unfold State.fileThread
  split
  · next b _ _ hb _ _ => rw [h b hb, List.isEmpty_nil, Bool.true_or, if_pos rfl]
  · next none_ => 
    unfold State.fileOne
    split
    · next hb ht hl => exact absurd hl (none_ _ _ _ hb ht)
    · rfl

/-- Where no thread waits unfiled, none does after a thread's PC has changed. -/
theorem unfiledOn_updPc {s : State} {core : Nat} (h : ∀ c ∈ s.blocks, c.core = core → ∀ t ∈ c.threads, t.stat ≠ .unfiled) {k : BKey} {tl : Nat}
    {pc : W64} : (s.updThread k tl fun t => { t with pc := pc }).unfiledOn core = [] := by
  refine unfiledOn_eq_nil fun c hc here t hm => ?_
  obtain ⟨a, ha, rfl⟩ := List.mem_map.1 hc
  by_cases e : a.key = k
  · rw [if_pos e] at here hm
    obtain ⟨r, hr, rfl⟩ := List.mem_map.1 hm
    split
    · exact h a ha here r hr
    · exact h a ha here r hr
  · rw [if_neg e] at here hm
    exact h a ha here t hm

/-- Whether a thread of a block, a role and a PC has room in a bin. -/
def Bin.fits (b : Block) (prod : Bool) (pc : W64) (x : Bin) : Bool :=
  x.core == b.core && x.slot == b.slot && x.producer == prod && x.key == pc && decide (x.threads.length < 32)

theorem Bin.fits_iff {b : Block} {prod : Bool} {pc : W64} {x : Bin} : x.fits b prod pc = true ↔
    x.core = b.core ∧ x.slot = b.slot ∧ x.producer = prod ∧ x.key = pc ∧ x.threads.length < 32 := by
  simp [Bin.fits, and_assoc]

/-- A bin with one thread more. -/
def Bin.with (x : Bin) (tl cycle : Nat) : Bin := { x with threads := x.threads ++ [(tl, cycle)] }

/-- A thread stands in a bin that was there. -/
def State.binned (s : State) (k : BKey) (tl : Nat) (x : Bin) : State :=
  { s.updThread k tl fun u => { u with stat := .bin } with
    bins := s.bins.map fun z => if z.core == x.core && z.id == x.id then x.with tl s.cycle else z }

/-- A bin with one thread. -/
def State.freshBin (s : State) (b : Block) (prod : Bool) (pc : W64) (tl : Nat) : Bin :=
  { core := b.core, id := s.nextId, slot := b.slot, producer := prod, key := pc, threads := [(tl, s.cycle)], full := false }

section
variable {s : State} {k : BKey} {tl : Nat} {b : Block} {th : Thread} {l : Launch}
  (hb : s.block? k = some b) (ht : s.thread? k tl = some th) (hl : s.launch? k.part k.lnum = some l)
include hb ht hl

theorem fileOne_of_fits {x : Bin} (hx : s.bins.find? (Bin.fits b (l.d.isProducer tl) th.pc) = some x) :
    s.fileOne k tl = if x.threads.length = 31 then (s.binned k tl x).emitBin (x.with tl s.cycle) else s.binned k tl x := by
  have filled : (x.with tl s.cycle).threads.length = 32 ↔ x.threads.length = 31 := by
    simp [Bin.with]
  unfold State.fileOne
  rw [hb, ht, hl]
  dsimp -zeta only
  extract_lets prod fits inBin fresh
  have found : s.bins.find? fits = some x := hx
  rw [found]
  exact if_congr filled rfl rfl

theorem fileOne_of_fresh (hx : s.bins.find? (Bin.fits b (l.d.isProducer tl) th.pc) = none)
    (room : (s.bins.filter fun x => x.core == b.core).length < 16) :
    s.fileOne k tl = ({ s.updThread k tl fun u => { u with stat := .bin } with
      bins := s.bins ++ [s.freshBin b (l.d.isProducer tl) th.pc tl] }).bumpId := by
  unfold State.fileOne
  rw [hb, ht, hl]
  dsimp -zeta only
  extract_lets prod fits inBin fresh
  have found : s.bins.find? fits = none := hx
  rw [found]
  exact if_pos room

end

/-- A course of threads in lanes 0 upward. -/
def State.freshCourse (s : State) (core slot : Nat) (tls : List Nat) : Course :=
  { core := core, id := s.nextId, slot := slot, lanes := tls.map some, age := s.cycle, latches := [], chain := 0,
    stat := .ready, frame := none, reinj := [], resume := [], yielded := false, skipCmp := false, resp := [], part := 0, flight := true }

/-- Each of some threads stands elsewhere. -/
theorem thread?_foldl_stat (k : BKey) (st : TStat) {tl : Nat} (tls : List Nat) (s : State) :
    (tls.foldl (fun t n => t.updThread k n fun u => { u with stat := st }) s).thread? k tl =
      (s.thread? k tl).map fun u => if tl ∈ tls then { u with stat := st } else u := by
  induction tls generalizing s with
  | nil => simp
  | cons n tls ih =>
    rw [List.foldl_cons, ih]
    by_cases e : tl = n
    · rw [e, thread?_updThread_self s k n (f := fun u => { u with stat := st }) fun _ => rfl, Option.map_map]
      congr 1
      funext u
      simp
    · rw [thread?_updThread_of_ne s k e (f := fun u => { u with stat := st }) fun _ => rfl]
      simp [e]

theorem newCourse_courses (s : State) (core slot : Nat) (tls : List Nat) :
    (s.newCourse core slot tls).courses = s.courses ++ [s.freshCourse core slot tls] := by
  unfold State.newCourse
  extract_lets key c s1
  have added : s1.courses = s.courses ++ [s.freshCourse core slot tls] := rfl
  clear_value key
  split
  · exact added
  · exact (foldl_courses (fun t n => updThread_courses t _ n _) _ _).trans added

theorem thread?_newCourse {s : State} {core slot : Nat} {k : BKey} (hk : (s.blockAt? core slot).map (·.key) = some k) {tls : List Nat} {tl : Nat}
    (h : tl ∈ tls) : (s.newCourse core slot tls).thread? k tl = (s.thread? k tl).map fun u => { u with stat := .course s.nextId } := by
  simp only [State.newCourse, hk]
  rw [thread?_foldl_stat]
  simp only [if_pos h]
  rfl

/-- The threads of a bin in the order of their lanes. -/
def Bin.order (y : Bin) : List Nat := sortBy (fun n => n) (y.threads.map (·.1))

theorem count_courses (s : State) (core code n : Nat) : (s.count core code n).courses = s.courses := by
  obtain ⟨ctr, e⟩ := count_eq s core code n
  rw [e]

theorem count_blocks (s : State) (core code n : Nat) : (s.count core code n).blocks = s.blocks := by
  obtain ⟨ctr, e⟩ := count_eq s core code n
  rw [e]

/-- The bins without one. -/
def State.unbinned (s : State) (y : Bin) : State := { s with bins := s.bins.filter fun x => !(x.core == y.core && x.id == y.id) }

/-- A bin that is emitted where a course record is free. -/
theorem emitBin_of_room {s : State} {y : Bin} (room : s.courseCount y.core < 128) :
    (s.emitBin y).courses = ((s.unbinned y).newCourse y.core y.slot y.order).courses ∧
      (s.emitBin y).blocks = ((s.unbinned y).newCourse y.core y.slot y.order).blocks := by
  rw [State.emitBin, if_neg (Nat.not_le_of_lt room)]
  exact ⟨count_courses ((s.unbinned y).newCourse y.core y.slot y.order) y.core 0x0E 1,
    count_blocks ((s.unbinned y).newCourse y.core y.slot y.order) y.core 0x0E 1⟩

/-- An emitted bin is a course of its threads, each of which stands in it. -/
theorem emitBin_course {s : State} {y : Bin} (room : s.courseCount y.core < 128) {k : BKey} (hk : (s.blockAt? y.core y.slot).map (·.key) = some k)
    {tl : Nat} (h : tl ∈ y.order) : (s.emitBin y).courses = s.courses ++ [s.freshCourse y.core y.slot y.order] ∧
      (s.emitBin y).thread? k tl = (s.thread? k tl).map fun u => { u with stat := .course s.nextId } := by
  obtain ⟨courses, blocks⟩ := emitBin_of_room room
  refine ⟨courses.trans (newCourse_courses _ _ _ _), ?_⟩
  rw [thread?_of_blocks blocks, thread?_newCourse (s := s.unbinned y) hk h]
  rfl

theorem blockAt?_key_updThread (s : State) (core slot : Nat) (k : BKey) (tl : Nat) (f : Thread → Thread) :
    ((s.updThread k tl f).blockAt? core slot).map (·.key) = (s.blockAt? core slot).map (·.key) := by
  simp only [State.blockAt?, State.updThread, State.updBlock, List.find?_map, Option.map_map]
  have kept : ∀ b : Block, (if b.key = k then b.updThread tl f else b).core = b.core ∧
      (if b.key = k then b.updThread tl f else b).slot = b.slot ∧ (if b.key = k then b.updThread tl f else b).key = b.key := by
    intro b
    split <;> exact ⟨rfl, rfl, rfl⟩
  simp only [Function.comp_def, kept]

end Sys2Proof.Machine

namespace Sys2Proof.Claims

open Sys2Proof.Machine

theorem nopAndYieldGoOn : NopAndYieldGoOn := by
  intro s h k
  refine ⟨fun x hx _ => ⟨exec_nop_of_issuing hx h, exec_nopC_of_issuing hx k, onCourse_of_issuing hx _, onCourse_of_issuing hx _⟩,
    fun y hy => ⟨exec_nop_of_running hy h, exec_nopC_of_running hy k⟩⟩

theorem exitAndReformLeaveTheCourse : ExitAndReformLeaveTheCourse := by
  intro s x h k hx
  refine ⟨⟨onCourse_of_issuing hx _, onCourse_of_issuing hx _⟩, ⟨onCourse_of_issuing hx _, onCourse_of_issuing hx _⟩, fun gone n c hc _ stays => ?_⟩
  refine ⟨_, course?_othersGoOn hc stays n, fun p => ?_⟩
  rw [mem_members_without, members_chained]

theorem exitEndsAThread : ExitEndsAThread := by
  intro s k tl b th l hb ht hl low u
  refine ⟨fun bars => ?_, fun alone => ?_⟩
  · intro g open_ gang
    have gone : ∀ t : State, t.blocks = (s.exited k tl).blocks →
        (∃ c, t.block? k = some c ∧ ∀ i, i < 16 → c.barrier i = low (b.barrier i)) ∧
        t.thread? k tl = some { th with stat := .exited } ∧ ∀ n, n ≠ tl → t.thread? k n = s.thread? k n := by
      intro t same
      have block : t.block? k = (s.exited k tl).block? k := by simp only [State.block?, same]
      refine ⟨⟨_, block.trans (block?_exited hb tl), fun i _ => barrier_lowered _ i⟩, ?_, fun n hn => ?_⟩
      · rw [thread?_of_blocks same, thread?_exited, thread?_updThread_self s k tl (f := fun t => { t with stat := .exited }) fun _ => rfl, ht]
        rfl
      · rw [thread?_of_blocks same, thread?_exited, thread?_updThread_of_ne s k hn (f := fun t => { t with stat := .exited }) fun _ => rfl]
    rcases exitThread_of_open (tl := tl) hb hl bars gang with ⟨closed, e⟩ | ⟨x, opened, hx, e⟩
    · obtain ⟨block, self, others⟩ := gone u ((congrArg State.blocks e).trans rfl)
      refine ⟨block, self, others, fun o => absurd o (ne_true_of_eq_false closed), fun _ => (congrArg State.launches e).trans rfl, (congrArg State.courses e).trans rfl,
        (congrArg State.bins e).trans rfl, (congrArg State.mem e).trans rfl, (congrArg State.pend e).trans rfl⟩
    · obtain ⟨block, self, others⟩ := gone u ((congrArg State.blocks e).trans rfl)
      refine ⟨block, self, others, fun _ => ⟨_, x, (congrArg (fun t => t.launch? k.part k.lnum) e).trans (launch?_lowerGang hl g x), hx, aget?_aput _ _ _⟩,
        fun o => absurd opened (ne_true_of_eq_false o), (congrArg State.courses e).trans rfl, (congrArg State.bins e).trans rfl, (congrArg State.mem e).trans rfl,
        (congrArg State.pend e).trans rfl⟩
  · exact (exitThread_eq hl tl).trans (if_pos alone)

theorem filingBinsByPc : FilingBinsByPc := by
  intro s k tl pc b th l hb ht hl none_ u fits stands
  let v := s.updThread k tl fun t => { t with pc := pc }
  have hvb : v.block? k = some (b.updThread tl fun t => { t with pc := pc }) := by rw [block?_updThread, hb]; rfl
  have hvt : v.thread? k tl = some { th with pc := pc } := by
    rw [thread?_updThread_self s k tl (f := fun t => { t with pc := pc }) fun _ => rfl, ht]
    rfl
  have waiting : ∀ c, v.block? k = some c → v.unfiledOn c.core = [] := by
    intro c hc
    obtain rfl := Option.some.inj (hvb.symm.trans hc)
    exact unfiledOn_updPc none_
  have filed : u = v.fileOne k tl := (fileAt_singleton s k tl pc).trans (fileThread_of_none_unfiled waiting)
  have inBin : ∀ t : State, t.blocks = (v.updThread k tl fun t => { t with stat := .bin }).blocks →
      t.thread? k tl = some { th with pc := pc, stat := .bin } := by
    intro t same
    rw [thread?_of_blocks same, thread?_updThread_self v k tl (f := fun t => { t with stat := .bin }) fun _ => rfl, hvt]
    rfl
  refine ⟨fun ⟨z, hz, room⟩ => ?_, fun full free => ?_⟩
  · obtain ⟨x, hx⟩ := Option.isSome_iff_exists.1 (List.find?_isSome.2 ⟨z, hz, Bin.fits_iff.2 room⟩)
    have fit := Bin.fits_iff.1 (List.find?_some hx)
    have one : u = _ := filed.trans (fileOne_of_fits hvb hvt hl hx)
    refine ⟨x, List.mem_of_find?_eq_some hx, fit, fun less => ?_, fun last hs free => ?_⟩
    · have e : u = v.binned k tl x := one.trans (if_neg (Nat.ne_of_lt less))
      exact ⟨(congrArg (fun t => t.thread? k tl) e).trans (inBin _ rfl), (congrArg State.courses e).trans rfl, (congrArg State.mem e).trans rfl,
        (congrArg State.bins e).trans rfl⟩
    · obtain ⟨core, slot, -⟩ := fit
      have e : u = (v.binned k tl x).emitBin (x.with tl v.cycle) := one.trans (if_pos last)
      have record : (v.binned k tl x).courseCount (x.with tl v.cycle).core < 128 := by
        change (s.courses.filter fun c => c.core == x.core).length < 128
        rw [core]
        exact free
      have order : (x.with tl v.cycle).order = sortBy (fun n => n) (x.threads.map (·.1) ++ [tl]) := by
        simp [Bin.order, Bin.with]
      have key : ((v.binned k tl x).blockAt? x.core x.slot).map (·.key) = some k := by
        change ((v.updThread k tl _).blockAt? x.core x.slot).map (·.key) = some k
        rw [blockAt?_key_updThread, blockAt?_key_updThread, core, slot, hs]
        exact congrArg some (key_of_block? hb)
      have member : tl ∈ (x.with tl v.cycle).order := by
        rw [order, mem_sortBy]
        simp
      obtain ⟨courses, thread⟩ := emitBin_course record key member
      rw [← e] at courses thread
      refine ⟨_, courses, core, slot, rfl, rfl, congrArg (List.map some) order, thread.trans ?_⟩
      rw [inBin (v.binned k tl x) rfl]
      rfl
  · have none_ : v.bins.find? (Bin.fits (b.updThread tl fun t => { t with pc := pc }) (l.d.isProducer tl) pc) = none := 
      List.find?_eq_none.2 fun x hx fit => full ⟨x, hx, Bin.fits_iff.1 fit⟩
    have e := filed.trans (fileOne_of_fresh hvb hvt hl none_ free)
    exact ⟨(congrArg (fun t => t.thread? k tl) e).trans (inBin _ rfl), (congrArg State.courses e).trans rfl, (congrArg State.mem e).trans rfl,
      _, (congrArg State.bins e).trans rfl⟩

/-- Settles O16: the four statements of its parts. -/
theorem coursesGoOnOrEnd : Obligations.CoursesGoOnOrEnd :=
  ⟨nopAndYieldGoOn, exitAndReformLeaveTheCourse, exitEndsAThread, filingBinsByPc⟩

end Sys2Proof.Claims
end

section
/-!
SUPPORT and the settlement of O46 (18 R384): the clause on retirement under determ does not hold of every state. Both the model and the clause enter the unit of
the block that is done in `finished` of every record that stands under the launch's number; the model takes the unit from the size of the record that it
looks up, the clause from the size of each record that it writes. The two part where a second record stands under the number with another size of unit,
which no premise of the clause excludes.
-/

namespace Sys2Proof.Machine

/-- A launch under determ of two units of four blocks. -/
def gangs : Launch := { placeLaunch [] with d := { placeDesc with gx := 8, determ := true } }

/-- A second record under its number, whose units are single blocks. -/
def singles : Launch := { gangs with d := { gangs.d with gangw := 0 } }

/-- The first block of the launch's second unit, done. -/
def doneBlock : Block := { placeBlock 1 with key := { placeKey with bl := 4 }, threads := [Thread.fresh 0 0 0 8 0 .exited], hasMcc := false }

/-- The machine with the two records, in which the block stands alone. -/
def twins : State := { State.reset with blocks := [doneBlock], launches := [gangs, singles] }

/-- The units that each record of a launch says to be finished. -/
def State.finishedUnits (s : State) : List (List Nat) := s.launches.map (·.finished)

/-- The same after a step. -/
def finishedAfter (r : Res) : Option (List (List Nat)) :=
  match r with
  | .next t => some t.finishedUnits
  | _ => none

/-- The model enters the unit of the record that it looks up, in both. -/
theorem finishedAfter_blockRetire_twins : finishedAfter (exec (.blockRetire 0 0) twins) = some [[1], [1]] := by decide +kernel

/-- The machine that the clause gives: each record has the unit by its own size. -/
def twinsClaimed : State :=
  (State.retireRun 0 1 3 (twins.updLaunch 0 1 fun l => { l with finished := l.finished ++ [4 / l.d.unitSize] })).retireLaunch 0 1 0

theorem finishedUnits_twinsClaimed : twinsClaimed.finishedUnits = [[1], [4]] := by decide +kernel

end Sys2Proof.Machine

namespace Sys2Proof.Claims

open Sys2Proof.Machine

/-- Refutes O46: where two records stand under one launch number, the first of units of four blocks and the second of single blocks, and block 4 is done,
the step enters unit 1 in both as finished, and the clause on retirement under determ says 4 of the second. -/
theorem not_launchesRunTheirCourse : ¬Obligations.LaunchesRunTheirCourse := by
  intro h
  obtain ⟨-, -, -, -, -, -, retires, -⟩ := h twins 0 1
  obtain ⟨-, inOrder⟩ := retires 0 0 doneBlock gangs rfl rfl (by decide +kernel)
  have alone : ∀ c ∈ twins.unitResident gangs (4 / gangs.d.unitSize), twins.blockDone c = true := by decide +kernel
  have claimed : exec (.blockRetire 0 0) twins = .next twinsClaimed := inOrder rfl alone (by decide +kernel)
  have said : finishedAfter (exec (.blockRetire 0 0) twins) = some [[1], [4]] := by
    rw [claimed, finishedAfter, finishedUnits_twinsClaimed]
  rw [finishedAfter_blockRetire_twins] at said
  exact absurd said (by decide)

end Sys2Proof.Claims
end
